-- ==== Sys2Proof/Word.lean ====
section
/-! DEFINITION. The machine's words and their plainest arithmetic. -/

namespace Sys2Proof

/-- A 32-bit register value. -/
abbrev Word := BitVec 32

/-- A 64-bit value: a register pair or an address (R5). -/
abbrev DWord := BitVec 64

/-- A byte of memory. -/
abbrev Byte := BitVec 8

/-- The pair of an even (low) and an odd (high) register (R5). -/
def pairOf (lo hi : Word) : DWord := hi ++ lo

/-- The low word of a pair. -/
def loOf (x : DWord) : Word := x.setWidth 32

/-- The high word of a pair. -/
def hiOf (x : DWord) : Word := (x >>> 32).setWidth 32

/-- A condition as a register value: 1 or 0 (R89). -/
def boolWord (b : Bool) : Word := if b then 1#32 else 0#32

end Sys2Proof
end

