-- ==== Sys2Proof/Syntax.lean ====
section
/-! DEFINITION. The instruction type: one constructor for each row of the opcode table. The rows with an
encoding carry every field of their word, ignored fields too (R52), so that a word and its instruction determine
each other. The rows without an encoding are the device's own indivisible steps (spec/95): their arguments name the
item the step acts on, or carry what arrives from outside the package. -/

namespace Sys2Proof

/-- Format A: D, A, B, H; F selects (R41). -/
structure FmtA where
  c : BitVec 1
  k : BitVec 1
  d : BitVec 6
  a : BitVec 6
  b : BitVec 6
  h : BitVec 2
deriving DecidableEq, Repr

/-- Format A with F[3] as the format bit g (HALU, R118). -/
structure FmtH where
  c : BitVec 1
  k : BitVec 1
  d : BitVec 6
  a : BitVec 6
  b : BitVec 6
  h : BitVec 2
  g : BitVec 1
deriving DecidableEq, Repr

/-- Format I: D, A, imm12 (R41). -/
structure FmtI where
  c : BitVec 1
  k : BitVec 1
  d : BitVec 6
  a : BitVec 6
  imm : BitVec 12
deriving DecidableEq, Repr

/-- Format I of SHI: imm12[7:6] selects, x is the ignored imm12[11:8] (R42). -/
structure FmtSh where
  c : BitVec 1
  k : BitVec 1
  d : BitVec 6
  a : BitVec 6
  x : BitVec 4
  n : BitVec 6
deriving DecidableEq, Repr

/-- Format I of CMPI: imm12[11:9] selects (R42). -/
structure FmtCmpi where
  c : BitVec 1
  k : BitVec 1
  d : BitVec 6
  a : BitVec 6
  imm : BitVec 9
deriving DecidableEq, Repr

/-- Format L: D, imm18 (R41). -/
structure FmtL where
  c : BitVec 1
  k : BitVec 1
  d : BitVec 6
  imm : BitVec 18
deriving DecidableEq, Repr

/-- Format BR: A, cond, off15 (R41). -/
structure FmtBr where
  c : BitVec 1
  k : BitVec 1
  a : BitVec 6
  off : BitVec 15
deriving DecidableEq, Repr

/-- Format J: off24 (R41). -/
structure FmtJ where
  c : BitVec 1
  k : BitVec 1
  off : BitVec 24
deriving DecidableEq, Repr

/-- Format M: D or S, A, off8; F selects (R41). -/
structure FmtM where
  c : BitVec 1
  k : BitVec 1
  d : BitVec 6
  a : BitVec 6
  off : BitVec 8
deriving DecidableEq, Repr

/-- Format M of LDA and STL: x is the ignored [11:7], scope [6:4] (R44). -/
structure FmtAcq where
  c : BitVec 1
  k : BitVec 1
  d : BitVec 6
  a : BitVec 6
  x : BitVec 5
  scope : BitVec 3
deriving DecidableEq, Repr

/-- Format A of LXCH: H is the mode, F the mask m (R174). -/
structure FmtX where
  c : BitVec 1
  k : BitVec 1
  d : BitVec 6
  a : BitVec 6
  b : BitVec 6
  m : BitVec 4
deriving DecidableEq, Repr

/-- Format A of XRED, XVOTE and MASK: B selects, F is the mask m (R175, R177, R178). -/
structure FmtG where
  c : BitVec 1
  k : BitVec 1
  d : BitVec 6
  a : BitVec 6
  h : BitVec 2
  m : BitVec 4
deriving DecidableEq, Repr

/-- Format A with D[0] as part of the selector (SUNBIND, SCVT; Table 8.5): d is D[5:1]. -/
structure FmtS where
  c : BitVec 1
  k : BitVec 1
  d : BitVec 5
  a : BitVec 6
  b : BitVec 6
  h : BitVec 2
deriving DecidableEq, Repr

/-- Format X: acc, slotA, slotB, types, flags [3:1] ignored (R50), zero flag z. -/
structure FmtMma where
  c : BitVec 1
  k : BitVec 1
  acc : BitVec 2
  sa : BitVec 7
  sb : BitVec 7
  types : BitVec 4
  x : BitVec 3
  z : BitVec 1
deriving DecidableEq, Repr

/-- Format X2: acc, vI, slotB, types, flags [4:1] ignored (R50), zero flag z. -/
structure FmtMmag where
  c : BitVec 1
  k : BitVec 1
  acc : BitVec 2
  vi : BitVec 6
  sb : BitVec 7
  types : BitVec 4
  x : BitVec 4
  z : BitVec 1
deriving DecidableEq, Repr

/-- Format M of PREF: F[3:2] ignored as x, level l (R155). -/
structure FmtPref where
  c : BitVec 1
  k : BitVec 1
  d : BitVec 6
  a : BitVec 6
  off : BitVec 8
  x : BitVec 2
  l : BitVec 2
deriving DecidableEq, Repr

/-- Format A of CPOL: F is read by nothing (R156). -/
structure FmtCpol where
  c : BitVec 1
  k : BitVec 1
  d : BitVec 6
  a : BitVec 6
  b : BitVec 6
  h : BitVec 2
  f : BitVec 4
deriving DecidableEq, Repr

/-- Format A word of major 0x3B (R53). -/
structure FmtHint where
  c : BitVec 1
  k : BitVec 1
  x : BitVec 24
deriving DecidableEq, Repr

/-- A datum that check bits protect (R243, R277): a memory unit by its physical key, a register, an accumulator
element, a scale register group, an L1 line, a team entry, a handle entry. -/
inductive Datum where
  | unit (key : Nat)
  | reg (gang lane r : Nat)
  | accElem (gang acc elem : Nat)
  | scaleGroup (preg group : Nat)
  | l1Line (core line : Nat)
  | teamEntry (team : Nat)
  | handleEntry (handle : Nat)
  | windowEntry (team window : Nat)
  | syncState (cluster : Nat)
deriving DecidableEq, Repr

/-- Where a gang is placed: core of the package, partition, gang slot (Table 16.5). -/
structure Place where
  core : Nat
  part : Nat
  slot : Nat
deriving DecidableEq, Repr

/-- A bind record (Table 16.5) with the slot-table index it is written at. -/
structure BindRec where
  place : Place
  image : BitVec 58
  width : BitVec 2
  accres : BitVec 3
  prio : BitVec 2
  gang : BitVec 28
  spawn : BitVec 12
  team : BitVec 16
deriving DecidableEq, Repr

/-- The bins that one powered hour advances (R376, Table 21.5). -/
structure HourBins where
  temp : List Nat
  vin : Nat
  state : Nat
  laser : List Nat
deriving DecidableEq, Repr

/-- A control flit (Table 22.1) as received, with the outcome of its CRC check. -/
structure CtlFlit where
  ty : BitVec 8
  ch : BitVec 8
  seq : BitVec 16
  body : List (BitVec 8)
  crcOk : Bool
deriving DecidableEq, Repr

/-- A data flit (Table 22.2) as received, with the outcome of its CRC check. -/
structure DataFlit where
  ty : BitVec 8
  ch : BitVec 8
  seq : BitVec 16
  dst : BitVec 16
  src : BitVec 16
  tenant : BitVec 16
  xfer : BitVec 32
  addr : BitVec 64
  offset : BitVec 32
  status : BitVec 32
  request : BitVec 32
  payload : List (BitVec 8)
  crcOk : Bool
deriving DecidableEq, Repr

/-- A remote atomic that arrives on CATM (R393): operation F, global tensor address, operand. -/
structure RemoteAtomic where
  src : Nat
  tenant : Nat
  xfer : BitVec 32
  op : BitVec 4
  addr : Nat
  operand : BitVec 64
deriving DecidableEq, Repr

/-- A CLEAR message of a receive operation (R405). -/
structure ClearMsg where
  k : Nat
  runseq : BitVec 32
  peerop : Nat
  chunk : Nat
deriving DecidableEq, Repr

/-- The instructions and steps of the KQ9, one constructor a row of the opcode table. -/
inductive Instr where
  /-- NOP (R103): Does nothing; with K set it is a plain park point. -/
  | nop (f : FmtA)
  /-- EXIT (R34): Waits for the thread's outstanding results and recorded causes, then discards its queue entries, clears its mask bits and ends the thread. -/
  | exit (f : FmtA)
  /-- TRAP (R105): Raises SOFTWARE_TRAP after its chain takes effect, with TRAPPC set to the next packet. -/
  | trap (f : FmtA)
  /-- BRK (R105): Raises BREAKPOINT after its chain takes effect, as TRAP does. -/
  | brk (f : FmtA)
  /-- ERET (R106): Ends handler mode and resumes at the resume point; outside a handler it has no effect. -/
  | eret (f : FmtA)
  /-- SREAD (R107): Writes D with the special register numbered by the B literal. -/
  | sread (f : FmtA)
  /-- SWRITE (R107): Writes A into the writable special register numbered by the B literal; other numbers ignore the write. -/
  | swrite (f : FmtA)
  /-- YIELD (R108): Sets the thread's yield mark and may move the broadcast PC to a waiting thread. -/
  | yield (f : FmtA)
  /-- WATCH (R152): Arms a watch-table entry on a memory word with a comparison, value and mask, and returns a token. -/
  | watch (f : FmtA)
  /-- WAITW (R154): Blocks until the watch entry named by the token fires or the limit passes, and returns 1, 0 or 2. -/
  | waitw (f : FmtA)
  /-- XACQ (R12): Requests the extended register block for the gang and blocks until the partition has room. -/
  | xacq (f : FmtA)
  /-- XREL (R109): Releases the gang's extended register block, losing v32 to v55 in every lane. -/
  | xrel (f : FmtA)
  /-- XTRY (R12): Acquires the extended block only if room exists and no XACQ waits, and writes 1 or 0. -/
  | xtry (f : FmtA)
  /-- ADD (R88): D := A + B modulo 2^32. -/
  | add (f : FmtA)
  /-- SUB (R88): D := A − B modulo 2^32. -/
  | sub (f : FmtA)
  /-- MUL (R88): D := low 32 bits of A × B. -/
  | mul (f : FmtA)
  /-- MULH (R88): D := high 32 bits of the signed 64-bit product. -/
  | mulh (f : FmtA)
  /-- MULHU (R88): D := high 32 bits of the unsigned 64-bit product. -/
  | mulhu (f : FmtA)
  /-- AND (R88): D := A and B. -/
  | and (f : FmtA)
  /-- OR (R88): D := A or B. -/
  | or (f : FmtA)
  /-- XOR (R88): D := A xor B. -/
  | xor (f : FmtA)
  /-- ANDN (R88): D := A and not B. -/
  | andn (f : FmtA)
  /-- SHL (R87): D := A shifted left by B[5:0]. -/
  | shl (f : FmtA)
  /-- SHR (R87): D := A shifted right with zero fill by B[5:0]. -/
  | shr (f : FmtA)
  /-- SRA (R87): D := A shifted right with sign fill by B[5:0]. -/
  | sra (f : FmtA)
  /-- ROL (R87): D := A rotated left by B[5:0] mod 32. -/
  | rol (f : FmtA)
  /-- MIN (R88): D := signed minimum of A and B. -/
  | min (f : FmtA)
  /-- MAX (R88): D := signed maximum of A and B. -/
  | max (f : FmtA)
  /-- MINU (R88): D := unsigned minimum of A and B. -/
  | minu (f : FmtA)
  /-- MAXU (R89): D := unsigned maximum of A and B. -/
  | maxu (f : FmtA)
  /-- ABS (R89): D := absolute value of int32 A. -/
  | abs (f : FmtA)
  /-- CLZ (R89): D := count of leading zero bits of A. -/
  | clz (f : FmtA)
  /-- POPC (R89): D := count of set bits of A. -/
  | popc (f : FmtA)
  /-- BREV (R89): D := A with its bit order reversed. -/
  | brev (f : FmtA)
  /-- SEL (R89): D := A if old D is non-zero, else B. -/
  | sel (f : FmtA)
  /-- CMPEQ (R89): D := 1 if A = B, else 0. -/
  | cmpeq (f : FmtA)
  /-- CMPNE (R89): D := 1 if A ≠ B, else 0. -/
  | cmpne (f : FmtA)
  /-- CMPLT (R89): D := 1 if int32 A < int32 B, else 0. -/
  | cmplt (f : FmtA)
  /-- CMPLE (R89): D := 1 if int32 A ≤ int32 B, else 0. -/
  | cmple (f : FmtA)
  /-- CMPLTU (R89): D := 1 if uint32 A < uint32 B, else 0. -/
  | cmpltu (f : FmtA)
  /-- CMPLEU (R89): D := 1 if uint32 A ≤ uint32 B, else 0. -/
  | cmpleu (f : FmtA)
  /-- ADD64 (R89): D pair := A pair + B pair modulo 2^64. -/
  | add64 (f : FmtA)
  /-- SUB64 (R89): D pair := A pair − B pair modulo 2^64. -/
  | sub64 (f : FmtA)
  /-- MUL64 (R89): D pair := low 64 bits of A pair × B pair. -/
  | mul64 (f : FmtA)
  /-- MAD (R89): D := low 32 bits of A × B + D. -/
  | mad (f : FmtA)
  /-- DIV (R90): Signed division whose quotient is written as a class-L result; divisor 0 logs INT_DIVZERO. -/
  | div (f : FmtA)
  /-- DIVU (R90): Unsigned division whose quotient is written as a class-L result. -/
  | divu (f : FmtA)
  /-- REM (R90): Signed remainder written as a class-L result. -/
  | rem (f : FmtA)
  /-- REMU (R90): Unsigned remainder written as a class-L result. -/
  | remu (f : FmtA)
  /-- BFX (R91): Extracts a zero-extended bit field of A at the offset and width given in B. -/
  | bfx (f : FmtA)
  /-- BFXS (R91): Extracts a sign-extended bit field of A. -/
  | bfxs (f : FmtA)
  /-- BFI (R91): Inserts the low bits of A into a bit field of D. -/
  | bfi (f : FmtA)
  /-- SHL64 (R92): D pair := A pair shifted left by B[5:0]. -/
  | shl64 (f : FmtA)
  /-- SHR64 (R92): D pair := A pair shifted right with zero fill. -/
  | shr64 (f : FmtA)
  /-- SRA64 (R92): D pair := A pair shifted right with sign fill. -/
  | sra64 (f : FmtA)
  /-- MULW (R93): D pair := exact signed 64-bit product of A and B. -/
  | mulw (f : FmtA)
  /-- MULWU (R93): D pair := exact unsigned 64-bit product of A and B. -/
  | mulwu (f : FmtA)
  /-- ADDI (R94): D := A + sign-extended imm12. -/
  | addi (f : FmtI)
  /-- ANDI (R94): D := A and zero-extended imm12. -/
  | andi (f : FmtI)
  /-- ORI (R94): D := A or zero-extended imm12. -/
  | ori (f : FmtI)
  /-- XORI (R94): D := A xor zero-extended imm12. -/
  | xori (f : FmtI)
  /-- SHLI (R95): D := A shifted left by the immediate amount. -/
  | shli (f : FmtSh)
  /-- SHRI (R95): D := A shifted right with zero fill by the immediate amount. -/
  | shri (f : FmtSh)
  /-- SRAI (R95): D := A shifted right with sign fill by the immediate amount. -/
  | srai (f : FmtSh)
  /-- ROLI (R95): D := A rotated left by the immediate amount. -/
  | roli (f : FmtSh)
  /-- CMPI_EQ (R96): D := 1 if A equals the sign-extended immediate. -/
  | cmpiEq (f : FmtCmpi)
  /-- CMPI_NE (R96): D := 1 if A differs from the immediate. -/
  | cmpiNe (f : FmtCmpi)
  /-- CMPI_LT (R96): D := 1 if int32 A is below the immediate. -/
  | cmpiLt (f : FmtCmpi)
  /-- CMPI_LE (R96): D := 1 if int32 A is at most the immediate. -/
  | cmpiLe (f : FmtCmpi)
  /-- CMPI_LTU (R96): D := 1 if uint32 A is below the immediate's bit pattern. -/
  | cmpiLtu (f : FmtCmpi)
  /-- CMPI_LEU (R96): D := 1 if uint32 A is at most the immediate's bit pattern. -/
  | cmpiLeu (f : FmtCmpi)
  /-- CMPI_GT (R96): D := 1 if int32 A is above the immediate. -/
  | cmpiGt (f : FmtCmpi)
  /-- CMPI_GE (R96): D := 1 if int32 A is at least the immediate. -/
  | cmpiGe (f : FmtCmpi)
  /-- MOVL (R97): D := zero-extended imm18. -/
  | movl (f : FmtL)
  /-- MOVH (R97): Places imm18 in D[31:14] and keeps D[13:0]. -/
  | movh (f : FmtL)
  /-- FADD (R114): fp32 D := A + B rounded under RM. -/
  | fadd (f : FmtA)
  /-- FSUB (R114): fp32 D := A − B rounded under RM. -/
  | fsub (f : FmtA)
  /-- FMUL (R114): fp32 D := A × B rounded under RM. -/
  | fmul (f : FmtA)
  /-- FFMA (R114): fp32 D := A × B + D with one rounding. -/
  | ffma (f : FmtA)
  /-- FMIN (R115): fp32 minimumNumber of A and B. -/
  | fmin (f : FmtA)
  /-- FMAX (R115): fp32 maximumNumber of A and B. -/
  | fmax (f : FmtA)
  /-- FCMPEQ (R116): D := 1 if fp32 A = B, else 0. -/
  | fcmpeq (f : FmtA)
  /-- FCMPLT (R116): D := 1 if fp32 A < B, else 0; any NaN logs FP_INVALID. -/
  | fcmplt (f : FmtA)
  /-- FCMPLE (R116): D := 1 if fp32 A ≤ B, else 0. -/
  | fcmple (f : FmtA)
  /-- FCMPUN (R116): D := 1 if A or B is NaN, else 0. -/
  | fcmpun (f : FmtA)
  /-- FABS (R116): D := |A| by clearing the sign bit. -/
  | fabs (f : FmtA)
  /-- FNEG (R116): D := −A by flipping the sign bit. -/
  | fneg (f : FmtA)
  /-- FCOPYSIGN (R116): D := |A| with the sign of B. -/
  | fcopysign (f : FmtA)
  /-- FFMS (R114): fp32 D := −(A × B) + D with one rounding. -/
  | ffms (f : FmtA)
  /-- FRND (R117): Rounds fp32 A to an integral value under RM. -/
  | frnd (f : FmtA)
  /-- FSAT (R117): Clamps fp32 A to [+0, 1.0]. -/
  | fsat (f : FmtA)
  /-- HADD2 (R118): Adds two packed BF16 or FP16 pairs per half. -/
  | hadd2 (f : FmtH)
  /-- HSUB2 (R118): Subtracts two packed 16-bit pairs per half. -/
  | hsub2 (f : FmtH)
  /-- HMUL2 (R118): Multiplies two packed 16-bit pairs per half. -/
  | hmul2 (f : FmtH)
  /-- HFMA2 (R118): Packed 16-bit fused multiply-add per half. -/
  | hfma2 (f : FmtH)
  /-- HMIN2 (R118): Packed 16-bit minimumNumber per half. -/
  | hmin2 (f : FmtH)
  /-- HMAX2 (R118): Packed 16-bit maximumNumber per half. -/
  | hmax2 (f : FmtH)
  /-- HDOT2 (R119): fp32 D := A.lo × B.lo + A.hi × B.hi + D with one rounding. -/
  | hdot2 (f : FmtH)
  /-- HCMPLT2 (R120): Writes an all-ones or zero mask per half for A.x < B.x. -/
  | hcmplt2 (f : FmtH)
  /-- DADD (R121): fp64 D := A + B. -/
  | dadd (f : FmtA)
  /-- DSUB (R121): fp64 D := A − B. -/
  | dsub (f : FmtA)
  /-- DMUL (R121): fp64 D := A × B. -/
  | dmul (f : FmtA)
  /-- DFMA (R121): fp64 D := A × B + D with one rounding. -/
  | dfma (f : FmtA)
  /-- DMIN (R121): fp64 minimumNumber. -/
  | dmin (f : FmtA)
  /-- DMAX (R121): fp64 maximumNumber. -/
  | dmax (f : FmtA)
  /-- DCMPEQ (R121): Single D := 1 if fp64 A = B. -/
  | dcmpeq (f : FmtA)
  /-- DCMPLT (R121): Single D := 1 if fp64 A < B. -/
  | dcmplt (f : FmtA)
  /-- DCMPLE (R121): Single D := 1 if fp64 A ≤ B. -/
  | dcmple (f : FmtA)
  /-- DABS (R121): fp64 D := |A|. -/
  | dabs (f : FmtA)
  /-- DNEG (R121): fp64 D := −A. -/
  | dneg (f : FmtA)
  /-- DRND (R121): Rounds fp64 A to an integral value under RM. -/
  | drnd (f : FmtA)
  /-- CVTFI (R123): Converts fp32 to int32, rounding RNE and saturating out-of-range values. -/
  | cvtfi (f : FmtA)
  /-- CVTIF (R122): Converts int32 to fp32 RNE. -/
  | cvtif (f : FmtA)
  /-- CVTFU (R123): Converts fp32 to uint32 RNE with saturation. -/
  | cvtfu (f : FmtA)
  /-- CVTUF (R122): Converts uint32 to fp32 RNE. -/
  | cvtuf (f : FmtA)
  /-- CVTFD (R122): Converts fp32 to an fp64 pair exactly. -/
  | cvtfd (f : FmtA)
  /-- CVTDF (R122): Converts an fp64 pair to fp32 RNE. -/
  | cvtdf (f : FmtA)
  /-- CVTDI (R123): Converts an fp64 pair to int32 RNE with saturation. -/
  | cvtdi (f : FmtA)
  /-- CVTID (R122): Converts int32 to an fp64 pair exactly. -/
  | cvtid (f : FmtA)
  /-- CVTFB (R122): Converts fp32 to BF16 in D[15:0]. -/
  | cvtfb (f : FmtA)
  /-- CVTFH (R122): Converts fp32 to FP16 in D[15:0]. -/
  | cvtfh (f : FmtA)
  /-- CVTBF (R122): Converts BF16 in A[15:0] to fp32 exactly. -/
  | cvtbf (f : FmtA)
  /-- CVTHF (R122): Converts FP16 in A[15:0] to fp32 exactly. -/
  | cvthf (f : FmtA)
  /-- PACKE4 (R124): Converts A and B to saturating E4M3 bytes packed in D[15:0]. -/
  | packe4 (f : FmtA)
  /-- PACKE5 (R124): Converts A and B to E5M2 bytes packed in D[15:0]. -/
  | packe5 (f : FmtA)
  /-- UNPKE4 (R124): Expands two E4M3 bytes into two BF16 halves. -/
  | unpke4 (f : FmtA)
  /-- UNPKE5 (R124): Expands two E5M2 bytes into two BF16 halves. -/
  | unpke5 (f : FmtA)
  /-- FRCP (R125): Class-L fp32 reciprocal within 1 ulp. -/
  | frcp (f : FmtA)
  /-- FRSQ (R125): Class-L fp32 reciprocal square root within 1 ulp. -/
  | frsq (f : FmtA)
  /-- FSQRT (R125): Class-L correctly rounded fp32 square root. -/
  | fsqrt (f : FmtA)
  /-- FDIV (R125): Class-L correctly rounded fp32 division. -/
  | fdiv (f : FmtA)
  /-- FEXP2 (R125): Class-L fp32 2^A within 2 ulp. -/
  | fexp2 (f : FmtA)
  /-- FLOG2 (R125): Class-L fp32 log2 A within 2 ulp. -/
  | flog2 (f : FmtA)
  /-- FSIN (R125): Class-L fp32 sine. -/
  | fsin (f : FmtA)
  /-- FCOS (R125): Class-L fp32 cosine. -/
  | fcos (f : FmtA)
  /-- FTANH (R125): Class-L fp32 hyperbolic tangent. -/
  | ftanh (f : FmtA)
  /-- DDIV (R125): Class-L correctly rounded fp64 division. -/
  | ddiv (f : FmtA)
  /-- DSQRT (R125): Class-L correctly rounded fp64 square root. -/
  | dsqrt (f : FmtA)
  /-- VEXPS (R126): Class-L 2^(A − B) with fp32 A and int32 B. -/
  | vexps (f : FmtA)
  /-- VMAXE (R127): Class-L D := max(int32 D, Ceil(A)). -/
  | vmaxe (f : FmtA)
  /-- FSIGM (R125): Class-L fp32 logistic sigmoid. -/
  | fsigm (f : FmtA)
  /-- BEQZ (R99): Branches when A = 0. -/
  | beqz (f : FmtBr)
  /-- BNEZ (R99): Branches when A ≠ 0. -/
  | bnez (f : FmtBr)
  /-- BLTZ (R99): Branches when int32 A < 0. -/
  | bltz (f : FmtBr)
  /-- BGEZ (R99): Branches when int32 A ≥ 0. -/
  | bgez (f : FmtBr)
  /-- BLEZ (R99): Branches when int32 A ≤ 0. -/
  | blez (f : FmtBr)
  /-- BGTZ (R99): Branches when int32 A > 0. -/
  | bgtz (f : FmtBr)
  /-- BNEZ64 (R99): Branches when the A pair is non-zero. -/
  | bnez64 (f : FmtBr)
  /-- BEQZ64 (R99): Branches when the A pair is zero. -/
  | beqz64 (f : FmtBr)
  /-- JMP (R100): Transfers to the holding packet index plus off24. -/
  | jmp (f : FmtJ)
  /-- JAL (R100): Writes the next packet index into v31 and transfers to the target. -/
  | jal (f : FmtJ)
  /-- JR (R101): Sets the next PC to the packet index in A. -/
  | jr (f : FmtA)
  /-- JALR (R101): Writes the link into D and sets the next PC to the old A. -/
  | jalr (f : FmtA)
  /-- LD8 (R136): Class-L zero-extended byte load. -/
  | ld8 (f : FmtM)
  /-- LD8S (R136): Class-L sign-extended byte load. -/
  | ld8s (f : FmtM)
  /-- LD16 (R136): Class-L zero-extended halfword load. -/
  | ld16 (f : FmtM)
  /-- LD16S (R136): Class-L sign-extended halfword load. -/
  | ld16s (f : FmtM)
  /-- LD32 (R136): Class-L word load. -/
  | ld32 (f : FmtM)
  /-- LD64 (R136): Class-L load into a register pair. -/
  | ld64 (f : FmtM)
  /-- LD128 (R136): Class-L load into a register quad. -/
  | ld128 (f : FmtM)
  /-- LDA32 (R137): Acquire load of a word at the named scope. -/
  | lda32 (f : FmtAcq)
  /-- LDA64 (R137): Acquire load of a pair at the named scope. -/
  | lda64 (f : FmtAcq)
  /-- LDQ8 (R138): Loads a zero-extended byte through a queue register. -/
  | ldq8 (f : FmtM)
  /-- LDQ8S (R138): Loads a sign-extended byte through a queue register. -/
  | ldq8s (f : FmtM)
  /-- LDQ16 (R138): Loads a zero-extended halfword through a queue register. -/
  | ldq16 (f : FmtM)
  /-- LDQ16S (R138): Loads a sign-extended halfword through a queue register. -/
  | ldq16s (f : FmtM)
  /-- LDQ32 (R138): Loads a word through a queue register. -/
  | ldq32 (f : FmtM)
  /-- LDQ64 (R138): Loads two words, low first, through a queue register. -/
  | ldq64 (f : FmtM)
  /-- ST8 (R139): Buffers a byte store. -/
  | st8 (f : FmtM)
  /-- ST16 (R139): Buffers a halfword store. -/
  | st16 (f : FmtM)
  /-- ST32 (R139): Buffers a word store. -/
  | st32 (f : FmtM)
  /-- ST64 (R139): Buffers a pair store. -/
  | st64 (f : FmtM)
  /-- ST128 (R139): Buffers a quad store. -/
  | st128 (f : FmtM)
  /-- STL32 (R140): Release store of a word at the named scope. -/
  | stl32 (f : FmtAcq)
  /-- STL64 (R140): Release store of a pair at the named scope. -/
  | stl64 (f : FmtAcq)
  /-- ATOM_ADD (R142): Atomic 32-bit add returning the old value. -/
  | atomAdd (f : FmtA)
  /-- ATOM_SUB (R142): Atomic 32-bit subtract returning the old value. -/
  | atomSub (f : FmtA)
  /-- ATOM_AND (R142): Atomic and returning the old value. -/
  | atomAnd (f : FmtA)
  /-- ATOM_OR (R142): Atomic or returning the old value. -/
  | atomOr (f : FmtA)
  /-- ATOM_XOR (R142): Atomic xor returning the old value. -/
  | atomXor (f : FmtA)
  /-- ATOM_MIN (R142): Atomic int32 minimum returning the old value. -/
  | atomMin (f : FmtA)
  /-- ATOM_MAX (R142): Atomic int32 maximum returning the old value. -/
  | atomMax (f : FmtA)
  /-- ATOM_MINU (R142): Atomic uint32 minimum returning the old value. -/
  | atomMinu (f : FmtA)
  /-- ATOM_MAXU (R142): Atomic uint32 maximum returning the old value. -/
  | atomMaxu (f : FmtA)
  /-- ATOM_XCHG (R142): Atomic 32-bit exchange returning the old value. -/
  | atomXchg (f : FmtA)
  /-- ATOM_FADD (R143): Atomic fp32 add RNE returning the old value. -/
  | atomFadd (f : FmtA)
  /-- ATOM_FMIN (R143): Atomic fp32 minimumNumber returning the old value. -/
  | atomFmin (f : FmtA)
  /-- ATOM_FMAX (R143): Atomic fp32 maximumNumber returning the old value. -/
  | atomFmax (f : FmtA)
  /-- ATOM_ADD64 (R142): Atomic 64-bit add returning the old pair. -/
  | atomAdd64 (f : FmtA)
  /-- ATOM_XCHG64 (R142): Atomic 64-bit exchange returning the old pair. -/
  | atomXchg64 (f : FmtA)
  /-- ATOM_BADD2 (R143): Atomic add of two BF16 halves returning the old value. -/
  | atomBadd2 (f : FmtA)
  /-- ATOMN_ADD (R142): No-return atomic 32-bit add. -/
  | atomnAdd (f : FmtA)
  /-- ATOMN_SUB (R142): No-return atomic 32-bit subtract. -/
  | atomnSub (f : FmtA)
  /-- ATOMN_AND (R142): No-return atomic and. -/
  | atomnAnd (f : FmtA)
  /-- ATOMN_OR (R142): No-return atomic or. -/
  | atomnOr (f : FmtA)
  /-- ATOMN_XOR (R142): No-return atomic xor. -/
  | atomnXor (f : FmtA)
  /-- ATOMN_MIN (R142): No-return atomic int32 minimum. -/
  | atomnMin (f : FmtA)
  /-- ATOMN_MAX (R142): No-return atomic int32 maximum. -/
  | atomnMax (f : FmtA)
  /-- ATOMN_MINU (R142): No-return atomic uint32 minimum. -/
  | atomnMinu (f : FmtA)
  /-- ATOMN_MAXU (R142): No-return atomic uint32 maximum. -/
  | atomnMaxu (f : FmtA)
  /-- ATOMN_XCHG (R142): No-return atomic 32-bit exchange. -/
  | atomnXchg (f : FmtA)
  /-- ATOMN_FADD (R143): No-return atomic fp32 add RNE. -/
  | atomnFadd (f : FmtA)
  /-- ATOMN_FMIN (R143): No-return atomic fp32 minimumNumber. -/
  | atomnFmin (f : FmtA)
  /-- ATOMN_FMAX (R143): No-return atomic fp32 maximumNumber. -/
  | atomnFmax (f : FmtA)
  /-- ATOMN_ADD64 (R142): No-return atomic 64-bit add. -/
  | atomnAdd64 (f : FmtA)
  /-- ATOMN_XCHG64 (R142): No-return atomic 64-bit exchange. -/
  | atomnXchg64 (f : FmtA)
  /-- ATOMN_BADD2 (R143): No-return atomic add of two BF16 halves. -/
  | atomnBadd2 (f : FmtA)
  /-- CAS32 (R145): 32-bit compare and swap; D receives the old value as a class-L result. -/
  | cas32 (f : FmtA)
  /-- CAS64 (R145): 64-bit compare and swap on pairs. -/
  | cas64 (f : FmtA)
  /-- FENCE (R148): Orders every earlier access before every later access at the scope. -/
  | fence (f : FmtA)
  /-- FENCE_ACQ (R148): Acquire fence at the scope; wide scopes invalidate L1 tensor lines. -/
  | fenceAcq (f : FmtA)
  /-- FENCE_REL (R148): Release fence at the scope. -/
  | fenceRel (f : FmtA)
  /-- TFENCE (R149): Waits for earlier tensor stores, remote atomics and engine operations, then releases at the scope. -/
  | tfence (f : FmtA)
  /-- EFENCE (R150): Blocks until earlier engine operations complete and returns the first non-zero remote atomic status. -/
  | efence (f : FmtA)
  /-- FENCE_SP (R148): Orders earlier scratch accesses before later scratch accesses. -/
  | fenceSp (f : FmtA)
  /-- AXB (R220): Opens an atomic region in each issuing lane, recording the fallback and a register snapshot. -/
  | axb (f : FmtI)
  /-- AXE (R221): Waits for class-L results and submits the lanes' regions to the commit engine. -/
  | axe (f : FmtA)
  /-- AXA (R222): Aborts the lane's region with cause EXPLICIT and code n. -/
  | axa (f : FmtA)
  /-- AXS (R222): Writes the lane's region status as a class-L result. -/
  | axs (f : FmtA)
  /-- POST (R151): Sends 64 bytes from 16 registers to a queue port as a pod-scope release and returns a refusal code. -/
  | post (f : FmtA)
  /-- LXCH_PICK (R174): Reads A from an absolute lane of the participant set. -/
  | lxchPick (f : FmtX)
  /-- LXCH_ROT (R174): Reads A from the lane rotated by B within the gang. -/
  | lxchRot (f : FmtX)
  /-- LXCH_STEP (R174): Reads A from the lane a signed step away. -/
  | lxchStep (f : FmtX)
  /-- LXCH_REFL (R174): Reads A from the lane whose number is xored with B. -/
  | lxchRefl (f : FmtX)
  /-- REDADD (R175): Sum of A over the participant set. -/
  | redadd (f : FmtG)
  /-- REDMIN (R175): int32 minimum of A over the participants. -/
  | redmin (f : FmtG)
  /-- REDMAX (R175): int32 maximum of A over the participants. -/
  | redmax (f : FmtG)
  /-- REDMINU (R175): uint32 minimum of A over the participants. -/
  | redminu (f : FmtG)
  /-- REDMAXU (R175): uint32 maximum of A over the participants. -/
  | redmaxu (f : FmtG)
  /-- REDAND (R175): And of A over the participants. -/
  | redand (f : FmtG)
  /-- REDOR (R175): Or of A over the participants. -/
  | redor (f : FmtG)
  /-- REDXOR (R175): Xor of A over the participants. -/
  | redxor (f : FmtG)
  /-- SCANADD (R175): Inclusive prefix sum of A over the participants. -/
  | scanadd (f : FmtG)
  /-- SCANADDX (R175): Exclusive prefix sum of A over the participants. -/
  | scanaddx (f : FmtG)
  /-- REDFADD (R176): Exact fp32 sum of A over the participants rounded once RNE. -/
  | redfadd (f : FmtG)
  /-- LANY (R177): 1 if A is non-zero in some participant. -/
  | lany (f : FmtG)
  /-- LALL (R177): 1 if A is non-zero in every participant. -/
  | lall (f : FmtG)
  /-- LMAP (R177): Pair mask of participants with non-zero A. -/
  | lmap (f : FmtG)
  /-- LPEER (R177): Pair mask of participants whose A equals the lane's own. -/
  | lpeer (f : FmtG)
  /-- LFIRST (R177): 1 in the lowest participant, 0 in the rest. -/
  | lfirst (f : FmtG)
  /-- LCOUNT (R177): Number of participants with non-zero A. -/
  | lcount (f : FmtG)
  /-- JOIN (R178): Sets the issuing lane's bit in the mask. -/
  | join (f : FmtG)
  /-- LEAVE (R178): Clears the issuing lane's bit in the mask. -/
  | leave (f : FmtG)
  /-- WAITM (R32): Enters the mask's arrival set and blocks until every member has arrived. -/
  | waitm (f : FmtG)
  /-- MGET (R178): D pair := the mask. -/
  | mget (f : FmtG)
  /-- MSET (R178): Mask := A pair and m0. -/
  | mset (f : FmtG)
  /-- MAND (R178): Mask := mask and the second mask. -/
  | mand (f : FmtG)
  /-- MOR (R178): Mask := mask or the second mask. -/
  | mor (f : FmtG)
  /-- MANDN (R178): Mask := mask and not the second mask. -/
  | mandn (f : FmtG)
  /-- MCLR (R178): Mask := 0. -/
  | mclr (f : FmtG)
  /-- TNEW (R257): Allocates a new team entry with capacity A and returns its id. -/
  | tnew (f : FmtA)
  /-- TFREE (R258): Dissolves a team that has no member gangs. -/
  | tfree (f : FmtA)
  /-- TJOIN (R259): Moves the gang into the named team. -/
  | tjoin (f : FmtA)
  /-- TLEAVE (R259): Removes the gang from its team and gives it a fresh singleton team. -/
  | tleave (f : FmtA)
  /-- TBAR (R260): Arrives at the team barrier and waits for the phase to complete. -/
  | tbar (f : FmtA)
  /-- TARRIVE (R260): Arrives at the team barrier and returns the phase without waiting. -/
  | tarrive (f : FmtA)
  /-- TWAITP (R260): Waits until the named barrier phase has completed. -/
  | twaitp (f : FmtA)
  /-- MMA (R195): Checks and latches bindings of two tile slots and adds their product into an accumulator. -/
  | mma (f : FmtMma)
  /-- MMAG (R196): Matrix multiply-accumulate with A rows gathered through a row group of index registers. -/
  | mmag (f : FmtMmag)
  /-- AACQ (R185): Maps a free physical accumulator tile to the named accumulator, blocking if none is free. -/
  | aacq (f : FmtA)
  /-- AREL (R185): Waits for class-A work on the accumulator and unmaps its tile. -/
  | arel (f : FmtA)
  /-- AZERO (R198): Zeroes the accumulator and sets fp32 or INT32 mode. -/
  | azero (f : FmtA)
  /-- AMOV (R199): Moves one accumulator column into a row group of registers as a class-L result. -/
  | amov (f : FmtA)
  /-- AMOVIN (R199): Writes one accumulator column from a row group of registers. -/
  | amovin (f : FmtA)
  /-- ASCALE (R200): Multiplies each accumulator row by 2 to the row's exponent. -/
  | ascale (f : FmtA)
  /-- ASTORE (R201): Converts the accumulator and writes it to team slots, updating their bindings. -/
  | astore (f : FmtA)
  /-- ALOAD (R203): Loads the accumulator from two fp32 tile slots and sets its mode. -/
  | aload (f : FmtA)
  /-- SLD (R205): Loads 512 bytes from memory into a scale register. -/
  | sld (f : FmtA)
  /-- SST (R205): Stores a scale register's 512 bytes to memory. -/
  | sst (f : FmtA)
  /-- SBIND (R206): Binds a team slot to a scale register with block length and scale format. -/
  | sbind (f : FmtA)
  /-- SUNBIND (R206): Clears VALID of a team slot's binding. -/
  | sunbind (f : FmtS)
  /-- SUNBIND_REG (R206): Unmaps a scale register and frees its physical register. -/
  | sunbindReg (f : FmtS)
  /-- SADD (R207): Adds an integer to every E8M0 byte of a scale register with clamping. -/
  | sadd (f : FmtA)
  /-- SMAX (R207): Bytewise unsigned maximum of two scale registers. -/
  | smax (f : FmtA)
  /-- SCVT_UE5M3 (R208): Converts every E8M0 byte of sM to UE5M3 into sN. -/
  | scvtUe5m3 (f : FmtS)
  /-- SCVT_E8M0 (R208): Converts every UE5M3 byte of sM to E8M0 into sN. -/
  | scvtE8m0 (f : FmtS)
  /-- SMOV (R204): Copies all 512 bytes of sM into sN. -/
  | smov (f : FmtA)
  /-- SQRY (R209): Returns a slot's binding and generations or a scale register's rename entry. -/
  | sqry (f : FmtA)
  /-- TCOPY (R288): Reads and checks a copy descriptor per lane and queues it to the copy engine. -/
  | tcopy (f : FmtA)
  /-- TGATHER (R288): Submits a gathering copy descriptor per lane. -/
  | tgather (f : FmtA)
  /-- HNEW (R269): Allocates a run of physical slots as a new handle held by the team. -/
  | hnew (f : FmtA)
  /-- HGIVE (R270): Offers a held handle to another team, or withdraws the offer. -/
  | hgive (f : FmtA)
  /-- HTAKE (R271): Maps a held or offered handle through a window of the team. -/
  | htake (f : FmtA)
  /-- HQRY (R272): Returns a handle entry or a window entry. -/
  | hqry (f : FmtA)
  /-- HFREE (R273): Releases a held handle and returns its slots to the pool. -/
  | hfree (f : FmtA)
  /-- SWINIT (R264): Arms a synchronisation word with a target and clears its count. -/
  | swinit (f : FmtA)
  /-- SWWAIT (R264): Blocks until the synchronisation word's generation passes B. -/
  | swwait (f : FmtA)
  /-- SWADD (R264): Runs SyncAdd with B bytes on a synchronisation word. -/
  | swadd (f : FmtA)
  /-- SWGEN (R264): Returns the synchronisation word's generation as an acquire. -/
  | swgen (f : FmtA)
  /-- RLCGO (R324): Reads and checks a command block per lane and queues it to the die's refinement loop controllers. -/
  | rlcgo (f : FmtA)
  /-- PREF (R155): Hint that prefetches a 128-byte line into the named level. -/
  | pref (f : FmtPref)
  /-- CPOL (R156): Hint that sets the cache policy of the thread's next memory word. -/
  | cpol (f : FmtCpol)
  /-- PRIO (R161): Hint that sets the gang's issue preference. -/
  | prio (f : FmtI)
  /-- HINT_REGION_NOP (R53): Major 0x3B hint that behaves as NOP. -/
  | hintRegionNop (f : FmtHint)
  /-- ILLEGAL_WORD (R54): An executed illegal word raises ILLEGAL_OPCODE precisely before any operand is read. -/
  | illegalWord (w : BitVec 32)
  /-- CLASS_L_RESULT_WRITE (R19): A class-L result arrives and is written, ending any park waiting on it. -/
  | classLResultWrite (i : Nat)
  /-- QUEUE_ENTRY_ARRIVAL (R138): An LDQ's data returns into its reserved queue entry, releasing a stalled pop. -/
  | queueEntryArrival (i : Nat)
  /-- STORE_PERFORM (R139): A buffered store is performed at its point of coherence. -/
  | storePerform (i : Nat)
  /-- ATOMIC_PERFORM (R142): An atomic or CAS step is performed at its slice, scratchpad or remote home. -/
  | atomicPerform (i : Nat)
  /-- ATOMN_MERGE (R301): An arriving ATOMN packet merges with a queued packet to the same address. -/
  | atomnMerge (i j : Nat)
  /-- FAIRNESS_TIMER_EXPIRY (R28): The gang's fairness count reaches its period and the broadcast moves to the longest-waiting thread. -/
  | fairnessTimerExpiry (g : Nat)
  /-- SPAWN_TIMEOUT (R30): The spawn time limit expires and the spawn ends with status SPAWN_TIMEOUT. -/
  | spawnTimeout (sp : Nat)
  /-- XACQ_GRANT (R12): A waiting XACQ is granted the extended block once room frees, in issue order. -/
  | xacqGrant (g : Nat)
  /-- ARITH_LOG_RECORD (R83): A logged arithmetic cause is written to the context's log ring or counted as dropped. -/
  | arithLogRecord (i : Nat)
  /-- ARRAY_ACCEPT (R180): The matrix array accepts a waiting MMA or MMAG from a T port, round-robin by partition. -/
  | arrayAccept (core : Nat)
  /-- MATRIX_COMPLETE (R182): An MMA or MMAG writes its accumulator 12 clk after occupancy and completes. -/
  | matrixComplete (i : Nat)
  /-- ACC_OP_COMPLETE (R18): A class-A accumulator word completes and releases the accumulator scoreboard. -/
  | accOpComplete (i : Nat)
  /-- ACC_TILE_GRANT (R185): A blocked AACQ is granted a freed accumulator tile in issue order. -/
  | accTileGrant (g : Nat)
  /-- SCALE_REG_GRANT (R188): A write blocked for lack of a physical scale register proceeds once one is freed. -/
  | scaleRegGrant (g : Nat)
  /-- SLD_SCALE_WRITE (R205): SLD's data returns and is written into the scale register as one write. -/
  | sldScaleWrite (i : Nat)
  /-- AXB_GRANT (R213): A blocked AXB is granted once a region gang slot of the core frees. -/
  | axbGrant (g : Nat)
  /-- EXCLUSIVE_ADMIT (R226): The package admits a waiting exclusive region attempt. -/
  | exclusiveAdmit
  /-- COMMIT (R223): The commit engine takes the region lines and re-applies each lane's loads, constraints and stores. -/
  | commit (core : Nat)
  /-- COMMIT_LINE_TIMEOUT (R223): The engine fails to take every region line within 2,000 clk and aborts the lanes with CONFLICT. -/
  | commitLineTimeout (core : Nat)
  /-- FAULT_RECORD_WRITE (R234): A fault record is formed and written to the fault queue, or held until room appears. -/
  | faultRecordWrite (die : Nat)
  /-- RESOLVE_RETRY (R235): A RESOLVE store with action RETRY replays the stopped gang. -/
  | resolveRetry (ticket : BitVec 32)
  /-- RESOLVE_DELIVER (R235): A RESOLVE store with action DELIVER hands the fault to the lanes' handlers. -/
  | resolveDeliver (ticket : BitVec 32)
  /-- RESOLVE_ABORT (R235): A RESOLVE store with action ABORT ends the spawn with TRANSLATION. -/
  | resolveAbort (ticket : BitVec 32)
  /-- HANDLER_ENTRY (R238): After outstanding results arrive, the entering lanes set the trap registers and enter handler mode. -/
  | handlerEntry (g lane : Nat)
  /-- SPAWN_END (R241): A fatal cause stops the spawn's gangs, aborts regions and cancels unstarted engine operations. -/
  | spawnEnd (sp : Nat)
  /-- SPAWN_COMPLETION (R316): Once threads and engine operations are done, the completion word is written as a pod-scope release. -/
  | spawnCompletion (sp : Nat)
  /-- SOFT_ERROR (R243): An ECC error in an array is corrected or poisons the datum, and is classified by rewrite and read-back. -/
  | softError (d : Datum) (double lasting : Bool)
  /-- HANG_SAMPLE (R245): Management firmware samples issue counters every 10 µs and retires a core hung for 1 ms. -/
  | hangSample (core : Nat)
  /-- HTAKE_HANDOVER (R271): After engine operations into the handle complete, HTAKE moves the window to the taking team. -/
  | htakeHandover (i : Nat)
  /-- SLOT_ZEROING (R273): The sync engine zeroes returned physical slots once unfinished copies into them complete. -/
  | slotZeroing (i : Nat)
  /-- COPY_START (R278): A stream starts its next descriptor, allocating any MODE 1 or 2 scale register. -/
  | copyStart (cl st : Nat)
  /-- COPY_BLOCK (R291): The engine reads a format block whole and writes it, or ends the copy at a cause. -/
  | copyBlock (cl st : Nat)
  /-- COPY_COMPLETE (R293): The copy writes its binding, its completion record and its SyncAdd. -/
  | copyComplete (cl st : Nat)
  /-- QUEUE_POST_ARRIVAL (R310): A POST record arrives at a queue port and is accepted into the ring or refused. -/
  | queuePostArrival (i : Nat)
  /-- BUNDLE_START (R315): The front end checks, places and accepts every member of the bundle at HEAD and starts it. -/
  | bundleStart (q : Nat) (places : List Place)
  /-- BUNDLE_RETIRE (R315): Once all members complete, the bundle writes one completion word. -/
  | bundleRetire (i : Nat)
  /-- BIND_START (R317): A bind record with CMD start places a gang in a slot. -/
  | bindStart (r : BindRec)
  /-- BIND_RESUME (R319): A bind record with CMD resume restores a team from its context image. -/
  | bindResume (r : BindRec)
  /-- BIND_STOP_SAVE (R319): A bind record with CMD stop and save stops the team's gangs and aborts their regions. -/
  | bindStopSave (r : BindRec)
  /-- CONTEXT_IMAGE_WRITE (R319): After the team drains, its context image is written and its resources freed. -/
  | contextImageWrite (team : Nat)
  /-- WATCH_UPDATE (R303): A new watched word value arrives from another die's home slice and is evaluated. -/
  | watchUpdate (i : Nat) (value : BitVec 32)
  /-- WAITW_TIMEOUT (R154): A WAITW's limit passes with its entry unfired and it returns 0. -/
  | waitwTimeout (g lane : Nat)
  /-- HBM_ERROR (R306): An HBM burst error is retried, corrected, spared or poisons the line. -/
  | hbmError (line : Nat) (uncorrectable lasting : Bool)
  /-- PATROL_SCRUB (R306): The patrol scrubber reads every stack in full every 24 h. -/
  | patrolScrub (stack : Nat)
  /-- RLC_COMMAND_START (R321): A free controller takes the oldest waiting command of its die and starts it. -/
  | rlcCommandStart (die : Nat)
  /-- RLC_PHASE_COMPLETE (R328): The controller observes a phase spawn's completion and decides the next phase or exit. -/
  | rlcPhaseComplete (c : Nat)
  /-- RLC_NORM_DONE (R327): The norm unit finishes the residual norm and the controller tests it. -/
  | rlcNormDone (c : Nat)
  /-- INVALIDATION_GO (R349): Writing GO broadcasts a translation invalidation to every live package. -/
  | invalidationGo (h : Nat)
  /-- INVALIDATION_REQUEST (R350): A package receives an invalidation, drops the entries and acknowledges when drained. -/
  | invalidationRequest (base : BitVec 64) (count : BitVec 32) (asid : BitVec 16)
  /-- INVALIDATION_ACK (R350): An acknowledgement arrives and DONE is set when all live packages have answered. -/
  | invalidationAck (h pkg : Nat)
  /-- ZEROING_REQUEST (R351): A walk meets a Z leaf and sends a zeroing request to the frame's controller. -/
  | zeroingRequest (i : Nat)
  /-- ZEROING_COMPLETE (R351): The controller finishes zeroing a frame, clears Z by CAS and releases held accesses. -/
  | zeroingComplete (i : Nat)
  /-- DIRECTORY_REBUILD (R398): The mirror package finishes rebuilding a lost home's directory and releases held accesses. -/
  | directoryRebuild (pkg : Nat)
  /-- HOST_PORT_STORE (R356): A host core's 64-byte vector store to a queue port acts as POST. -/
  | hostPortStore (h port : Nat) (record : List (BitVec 8))
  /-- HOST_PORT_LOAD (R356): A host core's 4-byte load from a port returns its last store's refusal code. -/
  | hostPortLoad (h port : Nat)
  /-- UNLOCK (R374): A key written to UNLOCK opens or closes a block's expert fields and counts bad keys. -/
  | unlock (blk : Nat) (value : BitVec 32)
  /-- REGISTER_WRITE (R6): A write to a register or table field that has no behaviour of its own. -/
  | registerWrite (addr : Nat) (bytes : List (BitVec 8))
  /-- BRING_UP (R372): After power is applied the package runs boot, fuses, HBM training, lasers, links and host boot in order. -/
  | bringUp (ok : Bool)
  /-- POWER_FAIL (R370): Input below 46 V for 50 µs stops the package at once. -/
  | powerFail
  /-- THERMAL_SAMPLE (R371): Each 10 µs sample gates issue at 100 °C or stops the package at 110 °C. -/
  | thermalSample (die temp : Nat)
  /-- RESET (R373): A warm or cold reset leaves volatile contents undefined and re-runs bring-up. -/
  | reset
  /-- FIELD_LOG_WRITE (R376): Firmware writes the live counters to the older flash copy every 10 minutes, at shutdown or after a lasting classification. -/
  | fieldLogWrite
  /-- MSG (R380): A control message flit is received and handled on its channel. -/
  | msg (link bundle : Nat) (flit : CtlFlit)
  /-- ACK (R385): A cumulative ACK frees acknowledged flits from the replay buffer. -/
  | ack (link bundle : Nat) (seq : BitVec 16)
  /-- NAK (R385): A NAK makes the sender resend from the named SEQ. -/
  | nak (link bundle : Nat) (seq : BitVec 16)
  /-- ACK_TIMER (R385): The receiver sends an ACK at least every 256 ns. -/
  | ackTimer (link bundle : Nat)
  /-- CREDIT (R384): A CREDIT flit updates the sender's freed-slot counts. -/
  | credit (link : Nat) (pairs : List (Nat × BitVec 32))
  /-- CSYNC (R384): A CSYNC flit series updates every sub-channel's freed-slot count. -/
  | csync (link : Nat) (pairs : List (Nat × BitVec 32))
  /-- CSYNC_TIMER (R384): Every 10 µs the receiver sends a CSYNC series. -/
  | csyncTimer (link : Nat)
  /-- DATA (R381): A data flit is received and its payload performed or staged. -/
  | data (link bundle : Nat) (flit : DataFlit)
  /-- RDREQ (R381): A read request flit asks the holding package to return source bytes. -/
  | rdreq (link bundle : Nat) (flit : DataFlit)
  /-- CTRLCARRY (R386): A data flit carrying control flits while bundle 0 is out of service. -/
  | ctrlcarry (link bundle : Nat) (flit : DataFlit) (flits : List CtlFlit)
  /-- BUNDLE_RETRAIN_DONE (R386): A spare laser is tuned and the bundle returns to service. -/
  | bundleRetrainDone (link bundle : Nat) (ok : Bool)
  /-- LINK_RETRAIN_TIMER (R387): Firmware retrains a down link every 10 ms. -/
  | linkRetrainTimer (link : Nat)
  /-- LINK_STATE (R389): A broadcast of route LINK bits arrives and firmware updates the reach tables. -/
  | linkState (pkg : Nat) (board pod : BitVec 32)
  /-- E2E_ACK (R391): An end-to-end acknowledgement or message result arrives at the source. -/
  | e2eAck (xfer : BitVec 32) (result : BitVec 64)
  /-- REMOTE_ATOMIC_ARRIVAL (R393): A remote atomic arrives on CATM, is checked against the tenant ACL and performed once. -/
  | remoteAtomicArrival (m : RemoteAtomic)
  /-- REMOTE_ATOMIC_RESULT (R147): A remote atomic's status and old value return to the issuing thread. -/
  | remoteAtomicResult (xfer : BitVec 32) (status : BitVec 4) (old : BitVec 64)
  /-- ROUTE_RETRY_TIMER (R391): With no route the source retries every 10 µs. -/
  | routeRetryTimer (xfer : BitVec 32)
  /-- ROUTE_RETRY_EXPIRY (R391): After 1 ms without a route the transfer completes NO_ROUTE or INDETERMINATE. -/
  | routeRetryExpiry (xfer : BitVec 32)
  /-- DEDUP_EXPIRY (R391): A remembered atomic or POST result is forgotten after 2 ms. -/
  | dedupExpiry
  /-- HEARTBEAT (R396): Every 100 µs a heartbeat flit is sent on every live link. -/
  | heartbeat
  /-- HEARTBEAT_TIMEOUT (R396): A peer silent for 1 ms with its link down becomes suspected and SUSPECT is sent. -/
  | heartbeatTimeout (pkg : Nat)
  /-- SUSPECT (R396): A SUSPECT message is answered with CONFIRM if the receiver also lost the peer. -/
  | suspect (src pkg : Nat)
  /-- CONFIRM (R396): A CONFIRM arrives and enough of them flood PEER_LOSS. -/
  | confirm (src pkg : Nat)
  /-- SOLO_LOSS_TIMER (R396): With no common peers, the suspecting package floods PEER_LOSS after 2 ms more silence. -/
  | soloLossTimer (pkg : Nat)
  /-- ISOLATION_TIMEOUT (R396): A package with no live link for 1 ms while others exist stops and resets. -/
  | isolationTimeout
  /-- PEER_LOSS (R397): A PEER_LOSS message makes the package end operations with the lost peer and update its state. -/
  | peerLoss (pkg : Nat)
  /-- COMM_LOAD (R401): CMD LOAD starts reading and checking a communicator's graph image. -/
  | commLoad (k : Nat)
  /-- COMM_LOAD_FINISH (R402): The graph image has been read and checked and the communicator enters READY or EMPTY. -/
  | commLoadFinish (k : Nat)
  /-- COMM_FREE (R401): CMD FREE returns a communicator to EMPTY. -/
  | commFree (k : Nat)
  /-- COMM_ABORT (R401): CMD ABORT cancels the current and queued runs of a communicator. -/
  | commAbort (k : Nat)
  /-- RUN_REQUEST (R403): A run request record arrives at the run port and is queued or refused. -/
  | runRequest (i : Nat)
  /-- RUN_START (R404): A queued run starts after its predecessor completes, translating its bases. -/
  | runStart (k : Nat)
  /-- CHUNK_START (R406): Each clk the engine starts the next eligible chunk by priority and round-robin. -/
  | chunkStart
  /-- CLEAR (R405): A CLEAR message arrives and makes a SEND chunk eligible. -/
  | clear (m : ClearMsg)
  /-- CHUNK_APPLY (R405): A fully staged chunk is added or copied into its destination and its operation may complete. -/
  | chunkApply (k op chunk : Nat)
  /-- RUNFAIL (R410): A RUNFAIL message ends the communicator's run with the given status. -/
  | runfail (k : Nat) (runseq : BitVec 32) (status : BitVec 4)
  /-- LINK_DOWN_TIMEOUT (R387): A link whose peer has sent no flit for 100 µs becomes down, changing its route entry's LINK bit and the LINK-bit broadcast. -/
  | linkDownTimeout (link : Nat)
  /-- POWERED_HOURS (R376): Firmware advances the field log's HOURS counter and the hour bins of the VIN, STATE and LASER histograms. -/
  | poweredHours (bins : HourBins)
  /-- CROSSBAR_FLIT_ERROR (R277): A cluster crossbar flit fails its check, is classified by retry, and a lasting port or sync engine failure retires the core or the cluster. -/
  | crossbarFlitError (cluster core : Nat) (lasting engine : Bool)
deriving DecidableEq, Repr

end Sys2Proof
end

