-- ==== Sys2Proof/WellFormed.lean ====
section
/-! DEFINITION. Well-formed instructions: a word's sub-fields hold values the spec assigns (R51, R151), and a step of
the device names an item that exists. -/

namespace Sys2Proof

/-- The sub-fields of R51 hold assigned values. -/
def Instr.subfieldsOk : Instr → Bool
  | .mma f => f.types.toNat < 10
  | .mmag f => f.types.toNat < 10
  | .astore f => f.b.toNat / 8 < 4
  | .sbind f => f.d.toNat % 4 < 3
  | _ => true

/-- How many selector values the major's table row assigns, with the selector's place and width: (low bit, width,
assigned values); majors without a selector have width 0 (Table 2.3). -/
def selectorRow (op : Nat) : Option (Nat × Nat × List Nat) :=
  match op with
  | 0 => some (0, 4, [0, 1, 2, 3, 4, 5, 6, 7, 8, 9, 10, 11, 12])
  | 1 => some (0, 4, [0, 1, 2, 3, 4, 5, 6, 7, 8, 9, 10, 11, 12, 13, 14, 15])
  | 2 => some (0, 4, [0, 1, 2, 3, 4, 5, 6, 7, 8, 9, 10, 11, 12, 13, 14, 15])
  | 3 => some (0, 4, [0, 1, 2, 3, 4, 5, 6, 7, 8, 9, 10, 11])
  | 4 => some (0, 0, [0])
  | 5 => some (0, 0, [0])
  | 6 => some (0, 0, [0])
  | 7 => some (0, 0, [0])
  | 8 => some (6, 2, [0, 1, 2, 3])
  | 9 => some (9, 3, [0, 1, 2, 3, 4, 5, 6, 7])
  | 10 => some (0, 0, [0])
  | 11 => some (0, 0, [0])
  | 12 => some (0, 4, [0, 1, 2, 3, 4, 5, 6, 7, 8, 9, 10, 11, 12, 13, 14, 15])
  | 13 => some (0, 3, [0, 1, 2, 3, 4, 5, 6, 7])
  | 14 => some (0, 4, [0, 1, 2, 3, 4, 5, 6, 7, 8, 9, 10, 11])
  | 15 => some (0, 4, [0, 1, 2, 3, 4, 5, 6, 7, 8, 9, 10, 11, 12, 13, 14, 15])
  | 16 => some (0, 4, [0, 1, 2, 3, 4, 5, 6, 7, 8, 9, 10, 11, 12, 13])
  | 17 => some (15, 3, [0, 1, 2, 3, 4, 5, 6, 7])
  | 18 => some (0, 0, [0])
  | 19 => some (0, 0, [0])
  | 20 => some (0, 4, [0, 1])
  | 21 => some (0, 4, [0, 1, 2, 3, 4, 5, 6, 7, 8])
  | 22 => some (0, 4, [0, 1, 2, 3, 4, 5])
  | 23 => some (0, 4, [0, 2, 4, 5, 6, 7, 8])
  | 24 => some (0, 4, [0, 1, 2, 3, 4, 5, 6, 7, 8, 9, 10, 11, 12, 13, 14, 15])
  | 25 => some (0, 4, [0, 1, 2, 3, 4, 5, 6, 7, 8, 9, 10, 11, 12, 13, 14, 15])
  | 26 => some (0, 4, [0, 1])
  | 27 => some (0, 4, [0, 1, 2, 3, 4, 5])
  | 28 => some (0, 0, [0])
  | 29 => some (0, 4, [0, 1, 2])
  | 30 => some (0, 4, [0])
  | 32 => some (4, 2, [0, 1, 2, 3])
  | 33 => some (6, 6, [0, 1, 2, 3, 4, 5, 6, 7, 8, 9, 10])
  | 34 => some (6, 6, [0, 1, 2, 3, 4, 5])
  | 35 => some (6, 6, [0, 1, 2, 3, 4, 5, 6, 7, 8])
  | 36 => some (0, 4, [0, 1, 2, 3, 4, 5, 6])
  | 37 => some (0, 0, [0])
  | 38 => some (0, 0, [0])
  | 39 => some (0, 4, [0, 1, 2, 3, 4, 5, 6, 7])
  | 40 => some (0, 4, [0, 1, 2, 3, 4, 5, 6, 7, 8])
  | 41 => some (0, 4, [0, 1])
  | 42 => some (0, 4, [0, 1, 2, 3, 4])
  | 43 => some (0, 4, [0, 1, 2, 3])
  | 44 => some (0, 4, [0])
  | 56 => some (0, 0, [0])
  | 57 => some (0, 0, [0])
  | 58 => some (0, 0, [0])
  | 59 => some (0, 0, [0])
  | _ => none

/-- A word is illegal when its major, its selector or a sub-field of R51 is unassigned (R52). -/
def illegalWordBits (w : BitVec 32) : Bool :=
  let n := w.toNat
  let op := n / 2 ^ 24 % 64
  match selectorRow op with
  | none => true
  | some (lo, wd, vals) =>
    !vals.contains (n / 2 ^ lo % 2 ^ wd) ||
    (op == 37 && 10 ≤ n / 16 % 16) || (op == 38 && 10 ≤ n / 32 % 16) ||
    (op == 39 && n % 16 == 6 && 4 ≤ n / 2 ^ 9 % 8) || (op == 40 && n % 16 == 2 && n / 2 ^ 18 % 4 == 3)

/-- An instruction whose fields and arguments name what the spec gives: words by R51 and R151, steps by the part's
counts (R3, R157, R278, R317, R349, R379, R400). -/
def Instr.wellFormed : Instr → Bool
  | .post f => f.b == 16#6 || f.b == 32#6
  | .illegalWord w => illegalWordBits w
  | .arrayAccept core | .commit core | .commitLineTimeout core | .hangSample core => core < 384
  | .faultRecordWrite die | .rlcCommandStart die => die < 4
  | .copyStart cl st | .copyBlock cl st | .copyComplete cl st => cl < 48 && st < 16
  | .thermalSample die _ => die < 4
  | .linkState pkg _ _ => pkg < 1024
  | .directoryRebuild pkg | .heartbeatTimeout pkg | .soloLossTimer pkg | .peerLoss pkg => pkg < 1024
  | .suspect src pkg | .confirm src pkg => src < 1024 && pkg < 1024
  | .ack l b _ | .nak l b _ | .ackTimer l b => l < 64 && b < 16
  | .msg l b _ => l < 64 && b < 16
  | .data l b _ | .rdreq l b _ => l < 64 && b < 16
  | .ctrlcarry l b _ _ => l < 64 && b < 16
  | .bundleRetrainDone l b _ => l < 64 && b < 16
  | .credit l _ | .csync l _ => l < 64
  | .csyncTimer l | .linkRetrainTimer l | .linkDownTimeout l => l < 64
  | .commLoad k | .commLoadFinish k | .commFree k | .commAbort k | .runStart k => k < 16
  | .chunkApply k _ _ => k < 16
  | .runfail k _ _ => k < 16
  | .invalidationGo h => h < 32
  | .invalidationAck h pkg => h < 32 && pkg < 1024
  | .crossbarFlitError cl core _ _ => cl < 48 && core < 8
  | i => i.subfieldsOk

end Sys2Proof
end

