-- ==== Sys2Proof/Decode.lean ====
section
/-! DEFINITION. Decoding an instruction word (R38, R41, Table 2.3, R52) and encoding an instruction, both from the
same encoding tables. The decoder is total: a word that is no instruction is refused by a named error. -/

namespace Sys2Proof

/-- Why a word is no instruction (R52): an illegal word, or bytes too few for a word. -/
inductive DecodeError where
  | unassignedMajor (op : Nat)
  | unassignedSelector (op sel : Nat)
  | unassignedSubfield (op : Nat)
  | tooShort (bytes : Nat)
deriving DecidableEq, Repr

/-- Bits lo to lo + n - 1 of a word. -/
def fld (w : BitVec 32) (lo n : Nat) : BitVec n := BitVec.ofNat n (w.toNat / 2 ^ lo)

/-- Bits lo to lo + n - 1 of a word as a number. -/
def fldN (w : BitVec 32) (lo n : Nat) : Nat := w.toNat / 2 ^ lo % 2 ^ n

/-- The fields of a word in format A (R41). -/
def FmtA.ofWord (w : BitVec 32) : FmtA :=
  ⟨fld w 31 1, fld w 30 1, fld w 18 6, fld w 12 6, fld w 6 6, fld w 4 2⟩

/-- The word of major op in format A: the sum of its shifted fields (R41, Table 2.8). -/
def FmtA.toWord (op : Nat) (sel : Nat) (f : FmtA) : BitVec 32 :=
  BitVec.ofNat 32 (f.c.toNat * 2 ^ 31 + f.k.toNat * 2 ^ 30 + op * 2 ^ 24 + f.d.toNat * 2 ^ 18 + f.a.toNat * 2 ^ 12 + f.b.toNat * 2 ^ 6 + f.h.toNat * 2 ^ 4 + sel * 2 ^ 0)

/-- The fields of a word in format H (R41). -/
def FmtH.ofWord (w : BitVec 32) : FmtH :=
  ⟨fld w 31 1, fld w 30 1, fld w 18 6, fld w 12 6, fld w 6 6, fld w 4 2, fld w 3 1⟩

/-- The word of major op in format H: the sum of its shifted fields (R41, Table 2.8). -/
def FmtH.toWord (op : Nat) (sel : Nat) (f : FmtH) : BitVec 32 :=
  BitVec.ofNat 32 (f.c.toNat * 2 ^ 31 + f.k.toNat * 2 ^ 30 + op * 2 ^ 24 + f.d.toNat * 2 ^ 18 + f.a.toNat * 2 ^ 12 + f.b.toNat * 2 ^ 6 + f.h.toNat * 2 ^ 4 + f.g.toNat * 2 ^ 3 + sel * 2 ^ 0)

/-- The fields of a word in format I (R41). -/
def FmtI.ofWord (w : BitVec 32) : FmtI :=
  ⟨fld w 31 1, fld w 30 1, fld w 18 6, fld w 12 6, fld w 0 12⟩

/-- The word of major op in format I: the sum of its shifted fields (R41, Table 2.8). -/
def FmtI.toWord (op : Nat) (f : FmtI) : BitVec 32 :=
  BitVec.ofNat 32 (f.c.toNat * 2 ^ 31 + f.k.toNat * 2 ^ 30 + op * 2 ^ 24 + f.d.toNat * 2 ^ 18 + f.a.toNat * 2 ^ 12 + f.imm.toNat * 2 ^ 0)

/-- The fields of a word in format Sh (R41). -/
def FmtSh.ofWord (w : BitVec 32) : FmtSh :=
  ⟨fld w 31 1, fld w 30 1, fld w 18 6, fld w 12 6, fld w 8 4, fld w 0 6⟩

/-- The word of major op in format Sh: the sum of its shifted fields (R41, Table 2.8). -/
def FmtSh.toWord (op : Nat) (sel : Nat) (f : FmtSh) : BitVec 32 :=
  BitVec.ofNat 32 (f.c.toNat * 2 ^ 31 + f.k.toNat * 2 ^ 30 + op * 2 ^ 24 + f.d.toNat * 2 ^ 18 + f.a.toNat * 2 ^ 12 + f.x.toNat * 2 ^ 8 + sel * 2 ^ 6 + f.n.toNat * 2 ^ 0)

/-- The fields of a word in format Cmpi (R41). -/
def FmtCmpi.ofWord (w : BitVec 32) : FmtCmpi :=
  ⟨fld w 31 1, fld w 30 1, fld w 18 6, fld w 12 6, fld w 0 9⟩

/-- The word of major op in format Cmpi: the sum of its shifted fields (R41, Table 2.8). -/
def FmtCmpi.toWord (op : Nat) (sel : Nat) (f : FmtCmpi) : BitVec 32 :=
  BitVec.ofNat 32 (f.c.toNat * 2 ^ 31 + f.k.toNat * 2 ^ 30 + op * 2 ^ 24 + f.d.toNat * 2 ^ 18 + f.a.toNat * 2 ^ 12 + sel * 2 ^ 9 + f.imm.toNat * 2 ^ 0)

/-- The fields of a word in format L (R41). -/
def FmtL.ofWord (w : BitVec 32) : FmtL :=
  ⟨fld w 31 1, fld w 30 1, fld w 18 6, fld w 0 18⟩

/-- The word of major op in format L: the sum of its shifted fields (R41, Table 2.8). -/
def FmtL.toWord (op : Nat) (f : FmtL) : BitVec 32 :=
  BitVec.ofNat 32 (f.c.toNat * 2 ^ 31 + f.k.toNat * 2 ^ 30 + op * 2 ^ 24 + f.d.toNat * 2 ^ 18 + f.imm.toNat * 2 ^ 0)

/-- The fields of a word in format Br (R41). -/
def FmtBr.ofWord (w : BitVec 32) : FmtBr :=
  ⟨fld w 31 1, fld w 30 1, fld w 18 6, fld w 0 15⟩

/-- The word of major op in format Br: the sum of its shifted fields (R41, Table 2.8). -/
def FmtBr.toWord (op : Nat) (sel : Nat) (f : FmtBr) : BitVec 32 :=
  BitVec.ofNat 32 (f.c.toNat * 2 ^ 31 + f.k.toNat * 2 ^ 30 + op * 2 ^ 24 + f.a.toNat * 2 ^ 18 + sel * 2 ^ 15 + f.off.toNat * 2 ^ 0)

/-- The fields of a word in format J (R41). -/
def FmtJ.ofWord (w : BitVec 32) : FmtJ :=
  ⟨fld w 31 1, fld w 30 1, fld w 0 24⟩

/-- The word of major op in format J: the sum of its shifted fields (R41, Table 2.8). -/
def FmtJ.toWord (op : Nat) (f : FmtJ) : BitVec 32 :=
  BitVec.ofNat 32 (f.c.toNat * 2 ^ 31 + f.k.toNat * 2 ^ 30 + op * 2 ^ 24 + f.off.toNat * 2 ^ 0)

/-- The fields of a word in format M (R41). -/
def FmtM.ofWord (w : BitVec 32) : FmtM :=
  ⟨fld w 31 1, fld w 30 1, fld w 18 6, fld w 12 6, fld w 4 8⟩

/-- The word of major op in format M: the sum of its shifted fields (R41, Table 2.8). -/
def FmtM.toWord (op : Nat) (sel : Nat) (f : FmtM) : BitVec 32 :=
  BitVec.ofNat 32 (f.c.toNat * 2 ^ 31 + f.k.toNat * 2 ^ 30 + op * 2 ^ 24 + f.d.toNat * 2 ^ 18 + f.a.toNat * 2 ^ 12 + f.off.toNat * 2 ^ 4 + sel * 2 ^ 0)

/-- The fields of a word in format Acq (R41). -/
def FmtAcq.ofWord (w : BitVec 32) : FmtAcq :=
  ⟨fld w 31 1, fld w 30 1, fld w 18 6, fld w 12 6, fld w 7 5, fld w 4 3⟩

/-- The word of major op in format Acq: the sum of its shifted fields (R41, Table 2.8). -/
def FmtAcq.toWord (op : Nat) (sel : Nat) (f : FmtAcq) : BitVec 32 :=
  BitVec.ofNat 32 (f.c.toNat * 2 ^ 31 + f.k.toNat * 2 ^ 30 + op * 2 ^ 24 + f.d.toNat * 2 ^ 18 + f.a.toNat * 2 ^ 12 + f.x.toNat * 2 ^ 7 + f.scope.toNat * 2 ^ 4 + sel * 2 ^ 0)

/-- The fields of a word in format X (R41). -/
def FmtX.ofWord (w : BitVec 32) : FmtX :=
  ⟨fld w 31 1, fld w 30 1, fld w 18 6, fld w 12 6, fld w 6 6, fld w 0 4⟩

/-- The word of major op in format X: the sum of its shifted fields (R41, Table 2.8). -/
def FmtX.toWord (op : Nat) (sel : Nat) (f : FmtX) : BitVec 32 :=
  BitVec.ofNat 32 (f.c.toNat * 2 ^ 31 + f.k.toNat * 2 ^ 30 + op * 2 ^ 24 + f.d.toNat * 2 ^ 18 + f.a.toNat * 2 ^ 12 + f.b.toNat * 2 ^ 6 + sel * 2 ^ 4 + f.m.toNat * 2 ^ 0)

/-- The fields of a word in format G (R41). -/
def FmtG.ofWord (w : BitVec 32) : FmtG :=
  ⟨fld w 31 1, fld w 30 1, fld w 18 6, fld w 12 6, fld w 4 2, fld w 0 4⟩

/-- The word of major op in format G: the sum of its shifted fields (R41, Table 2.8). -/
def FmtG.toWord (op : Nat) (sel : Nat) (f : FmtG) : BitVec 32 :=
  BitVec.ofNat 32 (f.c.toNat * 2 ^ 31 + f.k.toNat * 2 ^ 30 + op * 2 ^ 24 + f.d.toNat * 2 ^ 18 + f.a.toNat * 2 ^ 12 + sel * 2 ^ 6 + f.h.toNat * 2 ^ 4 + f.m.toNat * 2 ^ 0)

/-- The fields of a word in format S (R41). -/
def FmtS.ofWord (w : BitVec 32) : FmtS :=
  ⟨fld w 31 1, fld w 30 1, fld w 19 5, fld w 12 6, fld w 6 6, fld w 4 2⟩

/-- The word of major op in format S: the sum of its shifted fields (R41, Table 2.8). -/
def FmtS.toWord (op : Nat) (bit sel : Nat) (f : FmtS) : BitVec 32 :=
  BitVec.ofNat 32 (f.c.toNat * 2 ^ 31 + f.k.toNat * 2 ^ 30 + op * 2 ^ 24 + f.d.toNat * 2 ^ 19 + bit * 2 ^ 18 + f.a.toNat * 2 ^ 12 + f.b.toNat * 2 ^ 6 + f.h.toNat * 2 ^ 4 + sel * 2 ^ 0)

/-- The fields of a word in format Mma (R41). -/
def FmtMma.ofWord (w : BitVec 32) : FmtMma :=
  ⟨fld w 31 1, fld w 30 1, fld w 22 2, fld w 15 7, fld w 8 7, fld w 4 4, fld w 1 3, fld w 0 1⟩

/-- The word of major op in format Mma: the sum of its shifted fields (R41, Table 2.8). -/
def FmtMma.toWord (op : Nat) (f : FmtMma) : BitVec 32 :=
  BitVec.ofNat 32 (f.c.toNat * 2 ^ 31 + f.k.toNat * 2 ^ 30 + op * 2 ^ 24 + f.acc.toNat * 2 ^ 22 + f.sa.toNat * 2 ^ 15 + f.sb.toNat * 2 ^ 8 + f.types.toNat * 2 ^ 4 + f.x.toNat * 2 ^ 1 + f.z.toNat * 2 ^ 0)

/-- The fields of a word in format Mmag (R41). -/
def FmtMmag.ofWord (w : BitVec 32) : FmtMmag :=
  ⟨fld w 31 1, fld w 30 1, fld w 22 2, fld w 16 6, fld w 9 7, fld w 5 4, fld w 1 4, fld w 0 1⟩

/-- The word of major op in format Mmag: the sum of its shifted fields (R41, Table 2.8). -/
def FmtMmag.toWord (op : Nat) (f : FmtMmag) : BitVec 32 :=
  BitVec.ofNat 32 (f.c.toNat * 2 ^ 31 + f.k.toNat * 2 ^ 30 + op * 2 ^ 24 + f.acc.toNat * 2 ^ 22 + f.vi.toNat * 2 ^ 16 + f.sb.toNat * 2 ^ 9 + f.types.toNat * 2 ^ 5 + f.x.toNat * 2 ^ 1 + f.z.toNat * 2 ^ 0)

/-- The fields of a word in format Pref (R41). -/
def FmtPref.ofWord (w : BitVec 32) : FmtPref :=
  ⟨fld w 31 1, fld w 30 1, fld w 18 6, fld w 12 6, fld w 4 8, fld w 2 2, fld w 0 2⟩

/-- The word of major op in format Pref: the sum of its shifted fields (R41, Table 2.8). -/
def FmtPref.toWord (op : Nat) (f : FmtPref) : BitVec 32 :=
  BitVec.ofNat 32 (f.c.toNat * 2 ^ 31 + f.k.toNat * 2 ^ 30 + op * 2 ^ 24 + f.d.toNat * 2 ^ 18 + f.a.toNat * 2 ^ 12 + f.off.toNat * 2 ^ 4 + f.x.toNat * 2 ^ 2 + f.l.toNat * 2 ^ 0)

/-- The fields of a word in format Cpol (R41). -/
def FmtCpol.ofWord (w : BitVec 32) : FmtCpol :=
  ⟨fld w 31 1, fld w 30 1, fld w 18 6, fld w 12 6, fld w 6 6, fld w 4 2, fld w 0 4⟩

/-- The word of major op in format Cpol: the sum of its shifted fields (R41, Table 2.8). -/
def FmtCpol.toWord (op : Nat) (f : FmtCpol) : BitVec 32 :=
  BitVec.ofNat 32 (f.c.toNat * 2 ^ 31 + f.k.toNat * 2 ^ 30 + op * 2 ^ 24 + f.d.toNat * 2 ^ 18 + f.a.toNat * 2 ^ 12 + f.b.toNat * 2 ^ 6 + f.h.toNat * 2 ^ 4 + f.f.toNat * 2 ^ 0)

/-- The fields of a word in format Hint (R41). -/
def FmtHint.ofWord (w : BitVec 32) : FmtHint :=
  ⟨fld w 31 1, fld w 30 1, fld w 0 24⟩

/-- The word of major op in format Hint: the sum of its shifted fields (R41, Table 2.8). -/
def FmtHint.toWord (op : Nat) (f : FmtHint) : BitVec 32 :=
  BitVec.ofNat 32 (f.c.toNat * 2 ^ 31 + f.k.toNat * 2 ^ 30 + op * 2 ^ 24 + f.x.toNat * 2 ^ 0)

-- Lean's code generator builds no constructor object past tag 244, so the functions that build an Instr are kept out
-- of it; the kernel evaluates them like any other.
noncomputable section

/-- An instruction when its sub-fields hold assigned values, else the refusal that names its major (R51). -/
def checked (op : Nat) (i : Instr) : Except DecodeError Instr :=
  if i.subfieldsOk then .ok i else .error (.unassignedSubfield op)

/-- The instructions of major 0x00 by their selector (Table 2.3). -/
def decodeMajor0 (sel : Nat) (w : BitVec 32) : Except DecodeError Instr :=
  match sel with
  | 0 => .ok (.nop (FmtA.ofWord w))
  | 1 => .ok (.exit (FmtA.ofWord w))
  | 2 => .ok (.trap (FmtA.ofWord w))
  | 3 => .ok (.brk (FmtA.ofWord w))
  | 4 => .ok (.eret (FmtA.ofWord w))
  | 5 => .ok (.sread (FmtA.ofWord w))
  | 6 => .ok (.swrite (FmtA.ofWord w))
  | 7 => .ok (.yield (FmtA.ofWord w))
  | 8 => .ok (.watch (FmtA.ofWord w))
  | 9 => .ok (.waitw (FmtA.ofWord w))
  | 10 => .ok (.xacq (FmtA.ofWord w))
  | 11 => .ok (.xrel (FmtA.ofWord w))
  | 12 => .ok (.xtry (FmtA.ofWord w))
  | n => .error (.unassignedSelector 0 n)

/-- The instructions of major 0x01 by their selector (Table 2.3). -/
def decodeMajor1 (sel : Nat) (w : BitVec 32) : Except DecodeError Instr :=
  match sel with
  | 0 => .ok (.add (FmtA.ofWord w))
  | 1 => .ok (.sub (FmtA.ofWord w))
  | 2 => .ok (.mul (FmtA.ofWord w))
  | 3 => .ok (.mulh (FmtA.ofWord w))
  | 4 => .ok (.mulhu (FmtA.ofWord w))
  | 5 => .ok (.and (FmtA.ofWord w))
  | 6 => .ok (.or (FmtA.ofWord w))
  | 7 => .ok (.xor (FmtA.ofWord w))
  | 8 => .ok (.andn (FmtA.ofWord w))
  | 9 => .ok (.shl (FmtA.ofWord w))
  | 10 => .ok (.shr (FmtA.ofWord w))
  | 11 => .ok (.sra (FmtA.ofWord w))
  | 12 => .ok (.rol (FmtA.ofWord w))
  | 13 => .ok (.min (FmtA.ofWord w))
  | 14 => .ok (.max (FmtA.ofWord w))
  | 15 => .ok (.minu (FmtA.ofWord w))
  | n => .error (.unassignedSelector 1 n)

/-- The instructions of major 0x02 by their selector (Table 2.3). -/
def decodeMajor2 (sel : Nat) (w : BitVec 32) : Except DecodeError Instr :=
  match sel with
  | 0 => .ok (.maxu (FmtA.ofWord w))
  | 1 => .ok (.abs (FmtA.ofWord w))
  | 2 => .ok (.clz (FmtA.ofWord w))
  | 3 => .ok (.popc (FmtA.ofWord w))
  | 4 => .ok (.brev (FmtA.ofWord w))
  | 5 => .ok (.sel (FmtA.ofWord w))
  | 6 => .ok (.cmpeq (FmtA.ofWord w))
  | 7 => .ok (.cmpne (FmtA.ofWord w))
  | 8 => .ok (.cmplt (FmtA.ofWord w))
  | 9 => .ok (.cmple (FmtA.ofWord w))
  | 10 => .ok (.cmpltu (FmtA.ofWord w))
  | 11 => .ok (.cmpleu (FmtA.ofWord w))
  | 12 => .ok (.add64 (FmtA.ofWord w))
  | 13 => .ok (.sub64 (FmtA.ofWord w))
  | 14 => .ok (.mul64 (FmtA.ofWord w))
  | 15 => .ok (.mad (FmtA.ofWord w))
  | n => .error (.unassignedSelector 2 n)

/-- The instructions of major 0x03 by their selector (Table 2.3). -/
def decodeMajor3 (sel : Nat) (w : BitVec 32) : Except DecodeError Instr :=
  match sel with
  | 0 => .ok (.div (FmtA.ofWord w))
  | 1 => .ok (.divu (FmtA.ofWord w))
  | 2 => .ok (.rem (FmtA.ofWord w))
  | 3 => .ok (.remu (FmtA.ofWord w))
  | 4 => .ok (.bfx (FmtA.ofWord w))
  | 5 => .ok (.bfxs (FmtA.ofWord w))
  | 6 => .ok (.bfi (FmtA.ofWord w))
  | 7 => .ok (.shl64 (FmtA.ofWord w))
  | 8 => .ok (.shr64 (FmtA.ofWord w))
  | 9 => .ok (.sra64 (FmtA.ofWord w))
  | 10 => .ok (.mulw (FmtA.ofWord w))
  | 11 => .ok (.mulwu (FmtA.ofWord w))
  | n => .error (.unassignedSelector 3 n)

/-- The instructions of major 0x08 by their selector (Table 2.3). -/
def decodeMajor8 (sel : Nat) (w : BitVec 32) : Except DecodeError Instr :=
  match sel with
  | 0 => .ok (.shli (FmtSh.ofWord w))
  | 1 => .ok (.shri (FmtSh.ofWord w))
  | 2 => .ok (.srai (FmtSh.ofWord w))
  | 3 => .ok (.roli (FmtSh.ofWord w))
  | n => .error (.unassignedSelector 8 n)

/-- The instructions of major 0x09 by their selector (Table 2.3). -/
def decodeMajor9 (sel : Nat) (w : BitVec 32) : Except DecodeError Instr :=
  match sel with
  | 0 => .ok (.cmpiEq (FmtCmpi.ofWord w))
  | 1 => .ok (.cmpiNe (FmtCmpi.ofWord w))
  | 2 => .ok (.cmpiLt (FmtCmpi.ofWord w))
  | 3 => .ok (.cmpiLe (FmtCmpi.ofWord w))
  | 4 => .ok (.cmpiLtu (FmtCmpi.ofWord w))
  | 5 => .ok (.cmpiLeu (FmtCmpi.ofWord w))
  | 6 => .ok (.cmpiGt (FmtCmpi.ofWord w))
  | 7 => .ok (.cmpiGe (FmtCmpi.ofWord w))
  | n => .error (.unassignedSelector 9 n)

/-- The instructions of major 0x0c by their selector (Table 2.3). -/
def decodeMajor12 (sel : Nat) (w : BitVec 32) : Except DecodeError Instr :=
  match sel with
  | 0 => .ok (.fadd (FmtA.ofWord w))
  | 1 => .ok (.fsub (FmtA.ofWord w))
  | 2 => .ok (.fmul (FmtA.ofWord w))
  | 3 => .ok (.ffma (FmtA.ofWord w))
  | 4 => .ok (.fmin (FmtA.ofWord w))
  | 5 => .ok (.fmax (FmtA.ofWord w))
  | 6 => .ok (.fcmpeq (FmtA.ofWord w))
  | 7 => .ok (.fcmplt (FmtA.ofWord w))
  | 8 => .ok (.fcmple (FmtA.ofWord w))
  | 9 => .ok (.fcmpun (FmtA.ofWord w))
  | 10 => .ok (.fabs (FmtA.ofWord w))
  | 11 => .ok (.fneg (FmtA.ofWord w))
  | 12 => .ok (.fcopysign (FmtA.ofWord w))
  | 13 => .ok (.ffms (FmtA.ofWord w))
  | 14 => .ok (.frnd (FmtA.ofWord w))
  | 15 => .ok (.fsat (FmtA.ofWord w))
  | n => .error (.unassignedSelector 12 n)

/-- The instructions of major 0x0d by their selector (Table 2.3). -/
def decodeMajor13 (sel : Nat) (w : BitVec 32) : Except DecodeError Instr :=
  match sel with
  | 0 => .ok (.hadd2 (FmtH.ofWord w))
  | 1 => .ok (.hsub2 (FmtH.ofWord w))
  | 2 => .ok (.hmul2 (FmtH.ofWord w))
  | 3 => .ok (.hfma2 (FmtH.ofWord w))
  | 4 => .ok (.hmin2 (FmtH.ofWord w))
  | 5 => .ok (.hmax2 (FmtH.ofWord w))
  | 6 => .ok (.hdot2 (FmtH.ofWord w))
  | 7 => .ok (.hcmplt2 (FmtH.ofWord w))
  | n => .error (.unassignedSelector 13 n)

/-- The instructions of major 0x0e by their selector (Table 2.3). -/
def decodeMajor14 (sel : Nat) (w : BitVec 32) : Except DecodeError Instr :=
  match sel with
  | 0 => .ok (.dadd (FmtA.ofWord w))
  | 1 => .ok (.dsub (FmtA.ofWord w))
  | 2 => .ok (.dmul (FmtA.ofWord w))
  | 3 => .ok (.dfma (FmtA.ofWord w))
  | 4 => .ok (.dmin (FmtA.ofWord w))
  | 5 => .ok (.dmax (FmtA.ofWord w))
  | 6 => .ok (.dcmpeq (FmtA.ofWord w))
  | 7 => .ok (.dcmplt (FmtA.ofWord w))
  | 8 => .ok (.dcmple (FmtA.ofWord w))
  | 9 => .ok (.dabs (FmtA.ofWord w))
  | 10 => .ok (.dneg (FmtA.ofWord w))
  | 11 => .ok (.drnd (FmtA.ofWord w))
  | n => .error (.unassignedSelector 14 n)

/-- The instructions of major 0x0f by their selector (Table 2.3). -/
def decodeMajor15 (sel : Nat) (w : BitVec 32) : Except DecodeError Instr :=
  match sel with
  | 0 => .ok (.cvtfi (FmtA.ofWord w))
  | 1 => .ok (.cvtif (FmtA.ofWord w))
  | 2 => .ok (.cvtfu (FmtA.ofWord w))
  | 3 => .ok (.cvtuf (FmtA.ofWord w))
  | 4 => .ok (.cvtfd (FmtA.ofWord w))
  | 5 => .ok (.cvtdf (FmtA.ofWord w))
  | 6 => .ok (.cvtdi (FmtA.ofWord w))
  | 7 => .ok (.cvtid (FmtA.ofWord w))
  | 8 => .ok (.cvtfb (FmtA.ofWord w))
  | 9 => .ok (.cvtfh (FmtA.ofWord w))
  | 10 => .ok (.cvtbf (FmtA.ofWord w))
  | 11 => .ok (.cvthf (FmtA.ofWord w))
  | 12 => .ok (.packe4 (FmtA.ofWord w))
  | 13 => .ok (.packe5 (FmtA.ofWord w))
  | 14 => .ok (.unpke4 (FmtA.ofWord w))
  | 15 => .ok (.unpke5 (FmtA.ofWord w))
  | n => .error (.unassignedSelector 15 n)

/-- The instructions of major 0x10 by their selector (Table 2.3). -/
def decodeMajor16 (sel : Nat) (w : BitVec 32) : Except DecodeError Instr :=
  match sel with
  | 0 => .ok (.frcp (FmtA.ofWord w))
  | 1 => .ok (.frsq (FmtA.ofWord w))
  | 2 => .ok (.fsqrt (FmtA.ofWord w))
  | 3 => .ok (.fdiv (FmtA.ofWord w))
  | 4 => .ok (.fexp2 (FmtA.ofWord w))
  | 5 => .ok (.flog2 (FmtA.ofWord w))
  | 6 => .ok (.fsin (FmtA.ofWord w))
  | 7 => .ok (.fcos (FmtA.ofWord w))
  | 8 => .ok (.ftanh (FmtA.ofWord w))
  | 9 => .ok (.ddiv (FmtA.ofWord w))
  | 10 => .ok (.dsqrt (FmtA.ofWord w))
  | 11 => .ok (.vexps (FmtA.ofWord w))
  | 12 => .ok (.vmaxe (FmtA.ofWord w))
  | 13 => .ok (.fsigm (FmtA.ofWord w))
  | n => .error (.unassignedSelector 16 n)

/-- The instructions of major 0x11 by their selector (Table 2.3). -/
def decodeMajor17 (sel : Nat) (w : BitVec 32) : Except DecodeError Instr :=
  match sel with
  | 0 => .ok (.beqz (FmtBr.ofWord w))
  | 1 => .ok (.bnez (FmtBr.ofWord w))
  | 2 => .ok (.bltz (FmtBr.ofWord w))
  | 3 => .ok (.bgez (FmtBr.ofWord w))
  | 4 => .ok (.blez (FmtBr.ofWord w))
  | 5 => .ok (.bgtz (FmtBr.ofWord w))
  | 6 => .ok (.bnez64 (FmtBr.ofWord w))
  | 7 => .ok (.beqz64 (FmtBr.ofWord w))
  | n => .error (.unassignedSelector 17 n)

/-- The instructions of major 0x14 by their selector (Table 2.3). -/
def decodeMajor20 (sel : Nat) (w : BitVec 32) : Except DecodeError Instr :=
  match sel with
  | 0 => .ok (.jr (FmtA.ofWord w))
  | 1 => .ok (.jalr (FmtA.ofWord w))
  | n => .error (.unassignedSelector 20 n)

/-- The instructions of major 0x15 by their selector (Table 2.3). -/
def decodeMajor21 (sel : Nat) (w : BitVec 32) : Except DecodeError Instr :=
  match sel with
  | 0 => .ok (.ld8 (FmtM.ofWord w))
  | 1 => .ok (.ld8s (FmtM.ofWord w))
  | 2 => .ok (.ld16 (FmtM.ofWord w))
  | 3 => .ok (.ld16s (FmtM.ofWord w))
  | 4 => .ok (.ld32 (FmtM.ofWord w))
  | 5 => .ok (.ld64 (FmtM.ofWord w))
  | 6 => .ok (.ld128 (FmtM.ofWord w))
  | 7 => .ok (.lda32 (FmtAcq.ofWord w))
  | 8 => .ok (.lda64 (FmtAcq.ofWord w))
  | n => .error (.unassignedSelector 21 n)

/-- The instructions of major 0x16 by their selector (Table 2.3). -/
def decodeMajor22 (sel : Nat) (w : BitVec 32) : Except DecodeError Instr :=
  match sel with
  | 0 => .ok (.ldq8 (FmtM.ofWord w))
  | 1 => .ok (.ldq8s (FmtM.ofWord w))
  | 2 => .ok (.ldq16 (FmtM.ofWord w))
  | 3 => .ok (.ldq16s (FmtM.ofWord w))
  | 4 => .ok (.ldq32 (FmtM.ofWord w))
  | 5 => .ok (.ldq64 (FmtM.ofWord w))
  | n => .error (.unassignedSelector 22 n)

/-- The instructions of major 0x17 by their selector (Table 2.3). -/
def decodeMajor23 (sel : Nat) (w : BitVec 32) : Except DecodeError Instr :=
  match sel with
  | 0 => .ok (.st8 (FmtM.ofWord w))
  | 2 => .ok (.st16 (FmtM.ofWord w))
  | 4 => .ok (.st32 (FmtM.ofWord w))
  | 5 => .ok (.st64 (FmtM.ofWord w))
  | 6 => .ok (.st128 (FmtM.ofWord w))
  | 7 => .ok (.stl32 (FmtAcq.ofWord w))
  | 8 => .ok (.stl64 (FmtAcq.ofWord w))
  | n => .error (.unassignedSelector 23 n)

/-- The instructions of major 0x18 by their selector (Table 2.3). -/
def decodeMajor24 (sel : Nat) (w : BitVec 32) : Except DecodeError Instr :=
  match sel with
  | 0 => .ok (.atomAdd (FmtA.ofWord w))
  | 1 => .ok (.atomSub (FmtA.ofWord w))
  | 2 => .ok (.atomAnd (FmtA.ofWord w))
  | 3 => .ok (.atomOr (FmtA.ofWord w))
  | 4 => .ok (.atomXor (FmtA.ofWord w))
  | 5 => .ok (.atomMin (FmtA.ofWord w))
  | 6 => .ok (.atomMax (FmtA.ofWord w))
  | 7 => .ok (.atomMinu (FmtA.ofWord w))
  | 8 => .ok (.atomMaxu (FmtA.ofWord w))
  | 9 => .ok (.atomXchg (FmtA.ofWord w))
  | 10 => .ok (.atomFadd (FmtA.ofWord w))
  | 11 => .ok (.atomFmin (FmtA.ofWord w))
  | 12 => .ok (.atomFmax (FmtA.ofWord w))
  | 13 => .ok (.atomAdd64 (FmtA.ofWord w))
  | 14 => .ok (.atomXchg64 (FmtA.ofWord w))
  | 15 => .ok (.atomBadd2 (FmtA.ofWord w))
  | n => .error (.unassignedSelector 24 n)

/-- The instructions of major 0x19 by their selector (Table 2.3). -/
def decodeMajor25 (sel : Nat) (w : BitVec 32) : Except DecodeError Instr :=
  match sel with
  | 0 => .ok (.atomnAdd (FmtA.ofWord w))
  | 1 => .ok (.atomnSub (FmtA.ofWord w))
  | 2 => .ok (.atomnAnd (FmtA.ofWord w))
  | 3 => .ok (.atomnOr (FmtA.ofWord w))
  | 4 => .ok (.atomnXor (FmtA.ofWord w))
  | 5 => .ok (.atomnMin (FmtA.ofWord w))
  | 6 => .ok (.atomnMax (FmtA.ofWord w))
  | 7 => .ok (.atomnMinu (FmtA.ofWord w))
  | 8 => .ok (.atomnMaxu (FmtA.ofWord w))
  | 9 => .ok (.atomnXchg (FmtA.ofWord w))
  | 10 => .ok (.atomnFadd (FmtA.ofWord w))
  | 11 => .ok (.atomnFmin (FmtA.ofWord w))
  | 12 => .ok (.atomnFmax (FmtA.ofWord w))
  | 13 => .ok (.atomnAdd64 (FmtA.ofWord w))
  | 14 => .ok (.atomnXchg64 (FmtA.ofWord w))
  | 15 => .ok (.atomnBadd2 (FmtA.ofWord w))
  | n => .error (.unassignedSelector 25 n)

/-- The instructions of major 0x1a by their selector (Table 2.3). -/
def decodeMajor26 (sel : Nat) (w : BitVec 32) : Except DecodeError Instr :=
  match sel with
  | 0 => .ok (.cas32 (FmtA.ofWord w))
  | 1 => .ok (.cas64 (FmtA.ofWord w))
  | n => .error (.unassignedSelector 26 n)

/-- The instructions of major 0x1b by their selector (Table 2.3). -/
def decodeMajor27 (sel : Nat) (w : BitVec 32) : Except DecodeError Instr :=
  match sel with
  | 0 => .ok (.fence (FmtA.ofWord w))
  | 1 => .ok (.fenceAcq (FmtA.ofWord w))
  | 2 => .ok (.fenceRel (FmtA.ofWord w))
  | 3 => .ok (.tfence (FmtA.ofWord w))
  | 4 => .ok (.efence (FmtA.ofWord w))
  | 5 => .ok (.fenceSp (FmtA.ofWord w))
  | n => .error (.unassignedSelector 27 n)

/-- The instructions of major 0x1d by their selector (Table 2.3). -/
def decodeMajor29 (sel : Nat) (w : BitVec 32) : Except DecodeError Instr :=
  match sel with
  | 0 => .ok (.axe (FmtA.ofWord w))
  | 1 => .ok (.axa (FmtA.ofWord w))
  | 2 => .ok (.axs (FmtA.ofWord w))
  | n => .error (.unassignedSelector 29 n)

/-- The instructions of major 0x1e by their selector (Table 2.3). -/
def decodeMajor30 (sel : Nat) (w : BitVec 32) : Except DecodeError Instr :=
  match sel with
  | 0 => .ok (.post (FmtA.ofWord w))
  | n => .error (.unassignedSelector 30 n)

/-- The instructions of major 0x20 by their selector (Table 2.3). -/
def decodeMajor32 (sel : Nat) (w : BitVec 32) : Except DecodeError Instr :=
  match sel with
  | 0 => .ok (.lxchPick (FmtX.ofWord w))
  | 1 => .ok (.lxchRot (FmtX.ofWord w))
  | 2 => .ok (.lxchStep (FmtX.ofWord w))
  | 3 => .ok (.lxchRefl (FmtX.ofWord w))
  | n => .error (.unassignedSelector 32 n)

/-- The instructions of major 0x21 by their selector (Table 2.3). -/
def decodeMajor33 (sel : Nat) (w : BitVec 32) : Except DecodeError Instr :=
  match sel with
  | 0 => .ok (.redadd (FmtG.ofWord w))
  | 1 => .ok (.redmin (FmtG.ofWord w))
  | 2 => .ok (.redmax (FmtG.ofWord w))
  | 3 => .ok (.redminu (FmtG.ofWord w))
  | 4 => .ok (.redmaxu (FmtG.ofWord w))
  | 5 => .ok (.redand (FmtG.ofWord w))
  | 6 => .ok (.redor (FmtG.ofWord w))
  | 7 => .ok (.redxor (FmtG.ofWord w))
  | 8 => .ok (.scanadd (FmtG.ofWord w))
  | 9 => .ok (.scanaddx (FmtG.ofWord w))
  | 10 => .ok (.redfadd (FmtG.ofWord w))
  | n => .error (.unassignedSelector 33 n)

/-- The instructions of major 0x22 by their selector (Table 2.3). -/
def decodeMajor34 (sel : Nat) (w : BitVec 32) : Except DecodeError Instr :=
  match sel with
  | 0 => .ok (.lany (FmtG.ofWord w))
  | 1 => .ok (.lall (FmtG.ofWord w))
  | 2 => .ok (.lmap (FmtG.ofWord w))
  | 3 => .ok (.lpeer (FmtG.ofWord w))
  | 4 => .ok (.lfirst (FmtG.ofWord w))
  | 5 => .ok (.lcount (FmtG.ofWord w))
  | n => .error (.unassignedSelector 34 n)

/-- The instructions of major 0x23 by their selector (Table 2.3). -/
def decodeMajor35 (sel : Nat) (w : BitVec 32) : Except DecodeError Instr :=
  match sel with
  | 0 => .ok (.join (FmtG.ofWord w))
  | 1 => .ok (.leave (FmtG.ofWord w))
  | 2 => .ok (.waitm (FmtG.ofWord w))
  | 3 => .ok (.mget (FmtG.ofWord w))
  | 4 => .ok (.mset (FmtG.ofWord w))
  | 5 => .ok (.mand (FmtG.ofWord w))
  | 6 => .ok (.mor (FmtG.ofWord w))
  | 7 => .ok (.mandn (FmtG.ofWord w))
  | 8 => .ok (.mclr (FmtG.ofWord w))
  | n => .error (.unassignedSelector 35 n)

/-- The instructions of major 0x24 by their selector (Table 2.3). -/
def decodeMajor36 (sel : Nat) (w : BitVec 32) : Except DecodeError Instr :=
  match sel with
  | 0 => .ok (.tnew (FmtA.ofWord w))
  | 1 => .ok (.tfree (FmtA.ofWord w))
  | 2 => .ok (.tjoin (FmtA.ofWord w))
  | 3 => .ok (.tleave (FmtA.ofWord w))
  | 4 => .ok (.tbar (FmtA.ofWord w))
  | 5 => .ok (.tarrive (FmtA.ofWord w))
  | 6 => .ok (.twaitp (FmtA.ofWord w))
  | n => .error (.unassignedSelector 36 n)

/-- The instructions of major 0x27 by their selector (Table 2.3). -/
def decodeMajor39 (sel : Nat) (w : BitVec 32) : Except DecodeError Instr :=
  match sel with
  | 0 => .ok (.aacq (FmtA.ofWord w))
  | 1 => .ok (.arel (FmtA.ofWord w))
  | 2 => .ok (.azero (FmtA.ofWord w))
  | 3 => .ok (.amov (FmtA.ofWord w))
  | 4 => .ok (.amovin (FmtA.ofWord w))
  | 5 => .ok (.ascale (FmtA.ofWord w))
  | 6 => checked 39 (.astore (FmtA.ofWord w))
  | 7 => .ok (.aload (FmtA.ofWord w))
  | n => .error (.unassignedSelector 39 n)

/-- The instructions of major 0x28 by their selector (Table 2.3). -/
def decodeMajor40 (sel : Nat) (w : BitVec 32) : Except DecodeError Instr :=
  match sel with
  | 0 => .ok (.sld (FmtA.ofWord w))
  | 1 => .ok (.sst (FmtA.ofWord w))
  | 2 => checked 40 (.sbind (FmtA.ofWord w))
  | 4 => .ok (.sadd (FmtA.ofWord w))
  | 5 => .ok (.smax (FmtA.ofWord w))
  | 7 => .ok (.smov (FmtA.ofWord w))
  | 8 => .ok (.sqry (FmtA.ofWord w))
  | 3 => if fldN w 18 1 = 0 then .ok (.sunbind (FmtS.ofWord w)) else .ok (.sunbindReg (FmtS.ofWord w))
  | 6 => if fldN w 18 1 = 0 then .ok (.scvtUe5m3 (FmtS.ofWord w)) else .ok (.scvtE8m0 (FmtS.ofWord w))
  | n => .error (.unassignedSelector 40 n)

/-- The instructions of major 0x29 by their selector (Table 2.3). -/
def decodeMajor41 (sel : Nat) (w : BitVec 32) : Except DecodeError Instr :=
  match sel with
  | 0 => .ok (.tcopy (FmtA.ofWord w))
  | 1 => .ok (.tgather (FmtA.ofWord w))
  | n => .error (.unassignedSelector 41 n)

/-- The instructions of major 0x2a by their selector (Table 2.3). -/
def decodeMajor42 (sel : Nat) (w : BitVec 32) : Except DecodeError Instr :=
  match sel with
  | 0 => .ok (.hnew (FmtA.ofWord w))
  | 1 => .ok (.hgive (FmtA.ofWord w))
  | 2 => .ok (.htake (FmtA.ofWord w))
  | 3 => .ok (.hqry (FmtA.ofWord w))
  | 4 => .ok (.hfree (FmtA.ofWord w))
  | n => .error (.unassignedSelector 42 n)

/-- The instructions of major 0x2b by their selector (Table 2.3). -/
def decodeMajor43 (sel : Nat) (w : BitVec 32) : Except DecodeError Instr :=
  match sel with
  | 0 => .ok (.swinit (FmtA.ofWord w))
  | 1 => .ok (.swwait (FmtA.ofWord w))
  | 2 => .ok (.swadd (FmtA.ofWord w))
  | 3 => .ok (.swgen (FmtA.ofWord w))
  | n => .error (.unassignedSelector 43 n)

/-- The instructions of major 0x2c by their selector (Table 2.3). -/
def decodeMajor44 (sel : Nat) (w : BitVec 32) : Except DecodeError Instr :=
  match sel with
  | 0 => .ok (.rlcgo (FmtA.ofWord w))
  | n => .error (.unassignedSelector 44 n)

/-- The instruction of a word whose major is op (Table 2.3). -/
def decodeMajor (op : Nat) (w : BitVec 32) : Except DecodeError Instr :=
  match op with
  | 0 => decodeMajor0 (fldN w 0 4) w
  | 1 => decodeMajor1 (fldN w 0 4) w
  | 2 => decodeMajor2 (fldN w 0 4) w
  | 3 => decodeMajor3 (fldN w 0 4) w
  | 4 => .ok (.addi (FmtI.ofWord w))
  | 5 => .ok (.andi (FmtI.ofWord w))
  | 6 => .ok (.ori (FmtI.ofWord w))
  | 7 => .ok (.xori (FmtI.ofWord w))
  | 8 => decodeMajor8 (fldN w 6 2) w
  | 9 => decodeMajor9 (fldN w 9 3) w
  | 10 => .ok (.movl (FmtL.ofWord w))
  | 11 => .ok (.movh (FmtL.ofWord w))
  | 12 => decodeMajor12 (fldN w 0 4) w
  | 13 => decodeMajor13 (fldN w 0 3) w
  | 14 => decodeMajor14 (fldN w 0 4) w
  | 15 => decodeMajor15 (fldN w 0 4) w
  | 16 => decodeMajor16 (fldN w 0 4) w
  | 17 => decodeMajor17 (fldN w 15 3) w
  | 18 => .ok (.jmp (FmtJ.ofWord w))
  | 19 => .ok (.jal (FmtJ.ofWord w))
  | 20 => decodeMajor20 (fldN w 0 4) w
  | 21 => decodeMajor21 (fldN w 0 4) w
  | 22 => decodeMajor22 (fldN w 0 4) w
  | 23 => decodeMajor23 (fldN w 0 4) w
  | 24 => decodeMajor24 (fldN w 0 4) w
  | 25 => decodeMajor25 (fldN w 0 4) w
  | 26 => decodeMajor26 (fldN w 0 4) w
  | 27 => decodeMajor27 (fldN w 0 4) w
  | 28 => .ok (.axb (FmtI.ofWord w))
  | 29 => decodeMajor29 (fldN w 0 4) w
  | 30 => decodeMajor30 (fldN w 0 4) w
  | 32 => decodeMajor32 (fldN w 4 2) w
  | 33 => decodeMajor33 (fldN w 6 6) w
  | 34 => decodeMajor34 (fldN w 6 6) w
  | 35 => decodeMajor35 (fldN w 6 6) w
  | 36 => decodeMajor36 (fldN w 0 4) w
  | 37 => checked 37 (.mma (FmtMma.ofWord w))
  | 38 => checked 38 (.mmag (FmtMmag.ofWord w))
  | 39 => decodeMajor39 (fldN w 0 4) w
  | 40 => decodeMajor40 (fldN w 0 4) w
  | 41 => decodeMajor41 (fldN w 0 4) w
  | 42 => decodeMajor42 (fldN w 0 4) w
  | 43 => decodeMajor43 (fldN w 0 4) w
  | 44 => decodeMajor44 (fldN w 0 4) w
  | 56 => .ok (.pref (FmtPref.ofWord w))
  | 57 => .ok (.cpol (FmtCpol.ofWord w))
  | 58 => .ok (.prio (FmtI.ofWord w))
  | 59 => .ok (.hintRegionNop (FmtHint.ofWord w))
  | n => .error (.unassignedMajor n)

/-- The instruction of a word: the major opcode first, then its selector (R38, R49, R52). -/
def decode (w : BitVec 32) : Except DecodeError Instr := decodeMajor (fldN w 24 6) w

/-- A word from its four bytes, little-endian (R39). -/
def wordOfBytes (b0 b1 b2 b3 : Byte) : BitVec 32 := b3 ++ b2 ++ b1 ++ b0

/-- The instruction at the head of a byte sequence and the bytes after it. -/
def decodeBytes : List Byte → Except DecodeError (Instr × List Byte)
  | b0 :: b1 :: b2 :: b3 :: rest => (decode (wordOfBytes b0 b1 b2 b3)).map (·, rest)
  | bs => .error (.tooShort bs.length)

/-- The four bytes of a word as the hardware stores it (R39). -/
def bytesOfWord (w : BitVec 32) : List Byte :=
  [w.setWidth 8, (w >>> 8).setWidth 8, (w >>> 16).setWidth 8, (w >>> 24).setWidth 8]

/-- The instruction read from a word numbered as the opcode table numbers it; the table gives every encoded row 32 bits. -/
def decodeTableWord (nbits w : Nat) : Option Instr :=
  if nbits = 0 then none else
  match decodeBytes (bytesOfWord (BitVec.ofNat 32 (w % 2 ^ nbits))) with
  | .ok (i, _) => some i
  | .error _ => none

/-- The word of an instruction; the rows without an encoding have none. -/
def encode : Instr → Option (BitVec 32)
  | .nop f => some (f.toWord 0 0)
  | .exit f => some (f.toWord 0 1)
  | .trap f => some (f.toWord 0 2)
  | .brk f => some (f.toWord 0 3)
  | .eret f => some (f.toWord 0 4)
  | .sread f => some (f.toWord 0 5)
  | .swrite f => some (f.toWord 0 6)
  | .yield f => some (f.toWord 0 7)
  | .watch f => some (f.toWord 0 8)
  | .waitw f => some (f.toWord 0 9)
  | .xacq f => some (f.toWord 0 10)
  | .xrel f => some (f.toWord 0 11)
  | .xtry f => some (f.toWord 0 12)
  | .add f => some (f.toWord 1 0)
  | .sub f => some (f.toWord 1 1)
  | .mul f => some (f.toWord 1 2)
  | .mulh f => some (f.toWord 1 3)
  | .mulhu f => some (f.toWord 1 4)
  | .and f => some (f.toWord 1 5)
  | .or f => some (f.toWord 1 6)
  | .xor f => some (f.toWord 1 7)
  | .andn f => some (f.toWord 1 8)
  | .shl f => some (f.toWord 1 9)
  | .shr f => some (f.toWord 1 10)
  | .sra f => some (f.toWord 1 11)
  | .rol f => some (f.toWord 1 12)
  | .min f => some (f.toWord 1 13)
  | .max f => some (f.toWord 1 14)
  | .minu f => some (f.toWord 1 15)
  | .maxu f => some (f.toWord 2 0)
  | .abs f => some (f.toWord 2 1)
  | .clz f => some (f.toWord 2 2)
  | .popc f => some (f.toWord 2 3)
  | .brev f => some (f.toWord 2 4)
  | .sel f => some (f.toWord 2 5)
  | .cmpeq f => some (f.toWord 2 6)
  | .cmpne f => some (f.toWord 2 7)
  | .cmplt f => some (f.toWord 2 8)
  | .cmple f => some (f.toWord 2 9)
  | .cmpltu f => some (f.toWord 2 10)
  | .cmpleu f => some (f.toWord 2 11)
  | .add64 f => some (f.toWord 2 12)
  | .sub64 f => some (f.toWord 2 13)
  | .mul64 f => some (f.toWord 2 14)
  | .mad f => some (f.toWord 2 15)
  | .div f => some (f.toWord 3 0)
  | .divu f => some (f.toWord 3 1)
  | .rem f => some (f.toWord 3 2)
  | .remu f => some (f.toWord 3 3)
  | .bfx f => some (f.toWord 3 4)
  | .bfxs f => some (f.toWord 3 5)
  | .bfi f => some (f.toWord 3 6)
  | .shl64 f => some (f.toWord 3 7)
  | .shr64 f => some (f.toWord 3 8)
  | .sra64 f => some (f.toWord 3 9)
  | .mulw f => some (f.toWord 3 10)
  | .mulwu f => some (f.toWord 3 11)
  | .addi f => some (f.toWord 4)
  | .andi f => some (f.toWord 5)
  | .ori f => some (f.toWord 6)
  | .xori f => some (f.toWord 7)
  | .shli f => some (f.toWord 8 0)
  | .shri f => some (f.toWord 8 1)
  | .srai f => some (f.toWord 8 2)
  | .roli f => some (f.toWord 8 3)
  | .cmpiEq f => some (f.toWord 9 0)
  | .cmpiNe f => some (f.toWord 9 1)
  | .cmpiLt f => some (f.toWord 9 2)
  | .cmpiLe f => some (f.toWord 9 3)
  | .cmpiLtu f => some (f.toWord 9 4)
  | .cmpiLeu f => some (f.toWord 9 5)
  | .cmpiGt f => some (f.toWord 9 6)
  | .cmpiGe f => some (f.toWord 9 7)
  | .movl f => some (f.toWord 10)
  | .movh f => some (f.toWord 11)
  | .fadd f => some (f.toWord 12 0)
  | .fsub f => some (f.toWord 12 1)
  | .fmul f => some (f.toWord 12 2)
  | .ffma f => some (f.toWord 12 3)
  | .fmin f => some (f.toWord 12 4)
  | .fmax f => some (f.toWord 12 5)
  | .fcmpeq f => some (f.toWord 12 6)
  | .fcmplt f => some (f.toWord 12 7)
  | .fcmple f => some (f.toWord 12 8)
  | .fcmpun f => some (f.toWord 12 9)
  | .fabs f => some (f.toWord 12 10)
  | .fneg f => some (f.toWord 12 11)
  | .fcopysign f => some (f.toWord 12 12)
  | .ffms f => some (f.toWord 12 13)
  | .frnd f => some (f.toWord 12 14)
  | .fsat f => some (f.toWord 12 15)
  | .hadd2 f => some (f.toWord 13 0)
  | .hsub2 f => some (f.toWord 13 1)
  | .hmul2 f => some (f.toWord 13 2)
  | .hfma2 f => some (f.toWord 13 3)
  | .hmin2 f => some (f.toWord 13 4)
  | .hmax2 f => some (f.toWord 13 5)
  | .hdot2 f => some (f.toWord 13 6)
  | .hcmplt2 f => some (f.toWord 13 7)
  | .dadd f => some (f.toWord 14 0)
  | .dsub f => some (f.toWord 14 1)
  | .dmul f => some (f.toWord 14 2)
  | .dfma f => some (f.toWord 14 3)
  | .dmin f => some (f.toWord 14 4)
  | .dmax f => some (f.toWord 14 5)
  | .dcmpeq f => some (f.toWord 14 6)
  | .dcmplt f => some (f.toWord 14 7)
  | .dcmple f => some (f.toWord 14 8)
  | .dabs f => some (f.toWord 14 9)
  | .dneg f => some (f.toWord 14 10)
  | .drnd f => some (f.toWord 14 11)
  | .cvtfi f => some (f.toWord 15 0)
  | .cvtif f => some (f.toWord 15 1)
  | .cvtfu f => some (f.toWord 15 2)
  | .cvtuf f => some (f.toWord 15 3)
  | .cvtfd f => some (f.toWord 15 4)
  | .cvtdf f => some (f.toWord 15 5)
  | .cvtdi f => some (f.toWord 15 6)
  | .cvtid f => some (f.toWord 15 7)
  | .cvtfb f => some (f.toWord 15 8)
  | .cvtfh f => some (f.toWord 15 9)
  | .cvtbf f => some (f.toWord 15 10)
  | .cvthf f => some (f.toWord 15 11)
  | .packe4 f => some (f.toWord 15 12)
  | .packe5 f => some (f.toWord 15 13)
  | .unpke4 f => some (f.toWord 15 14)
  | .unpke5 f => some (f.toWord 15 15)
  | .frcp f => some (f.toWord 16 0)
  | .frsq f => some (f.toWord 16 1)
  | .fsqrt f => some (f.toWord 16 2)
  | .fdiv f => some (f.toWord 16 3)
  | .fexp2 f => some (f.toWord 16 4)
  | .flog2 f => some (f.toWord 16 5)
  | .fsin f => some (f.toWord 16 6)
  | .fcos f => some (f.toWord 16 7)
  | .ftanh f => some (f.toWord 16 8)
  | .ddiv f => some (f.toWord 16 9)
  | .dsqrt f => some (f.toWord 16 10)
  | .vexps f => some (f.toWord 16 11)
  | .vmaxe f => some (f.toWord 16 12)
  | .fsigm f => some (f.toWord 16 13)
  | .beqz f => some (f.toWord 17 0)
  | .bnez f => some (f.toWord 17 1)
  | .bltz f => some (f.toWord 17 2)
  | .bgez f => some (f.toWord 17 3)
  | .blez f => some (f.toWord 17 4)
  | .bgtz f => some (f.toWord 17 5)
  | .bnez64 f => some (f.toWord 17 6)
  | .beqz64 f => some (f.toWord 17 7)
  | .jmp f => some (f.toWord 18)
  | .jal f => some (f.toWord 19)
  | .jr f => some (f.toWord 20 0)
  | .jalr f => some (f.toWord 20 1)
  | .ld8 f => some (f.toWord 21 0)
  | .ld8s f => some (f.toWord 21 1)
  | .ld16 f => some (f.toWord 21 2)
  | .ld16s f => some (f.toWord 21 3)
  | .ld32 f => some (f.toWord 21 4)
  | .ld64 f => some (f.toWord 21 5)
  | .ld128 f => some (f.toWord 21 6)
  | .lda32 f => some (f.toWord 21 7)
  | .lda64 f => some (f.toWord 21 8)
  | .ldq8 f => some (f.toWord 22 0)
  | .ldq8s f => some (f.toWord 22 1)
  | .ldq16 f => some (f.toWord 22 2)
  | .ldq16s f => some (f.toWord 22 3)
  | .ldq32 f => some (f.toWord 22 4)
  | .ldq64 f => some (f.toWord 22 5)
  | .st8 f => some (f.toWord 23 0)
  | .st16 f => some (f.toWord 23 2)
  | .st32 f => some (f.toWord 23 4)
  | .st64 f => some (f.toWord 23 5)
  | .st128 f => some (f.toWord 23 6)
  | .stl32 f => some (f.toWord 23 7)
  | .stl64 f => some (f.toWord 23 8)
  | .atomAdd f => some (f.toWord 24 0)
  | .atomSub f => some (f.toWord 24 1)
  | .atomAnd f => some (f.toWord 24 2)
  | .atomOr f => some (f.toWord 24 3)
  | .atomXor f => some (f.toWord 24 4)
  | .atomMin f => some (f.toWord 24 5)
  | .atomMax f => some (f.toWord 24 6)
  | .atomMinu f => some (f.toWord 24 7)
  | .atomMaxu f => some (f.toWord 24 8)
  | .atomXchg f => some (f.toWord 24 9)
  | .atomFadd f => some (f.toWord 24 10)
  | .atomFmin f => some (f.toWord 24 11)
  | .atomFmax f => some (f.toWord 24 12)
  | .atomAdd64 f => some (f.toWord 24 13)
  | .atomXchg64 f => some (f.toWord 24 14)
  | .atomBadd2 f => some (f.toWord 24 15)
  | .atomnAdd f => some (f.toWord 25 0)
  | .atomnSub f => some (f.toWord 25 1)
  | .atomnAnd f => some (f.toWord 25 2)
  | .atomnOr f => some (f.toWord 25 3)
  | .atomnXor f => some (f.toWord 25 4)
  | .atomnMin f => some (f.toWord 25 5)
  | .atomnMax f => some (f.toWord 25 6)
  | .atomnMinu f => some (f.toWord 25 7)
  | .atomnMaxu f => some (f.toWord 25 8)
  | .atomnXchg f => some (f.toWord 25 9)
  | .atomnFadd f => some (f.toWord 25 10)
  | .atomnFmin f => some (f.toWord 25 11)
  | .atomnFmax f => some (f.toWord 25 12)
  | .atomnAdd64 f => some (f.toWord 25 13)
  | .atomnXchg64 f => some (f.toWord 25 14)
  | .atomnBadd2 f => some (f.toWord 25 15)
  | .cas32 f => some (f.toWord 26 0)
  | .cas64 f => some (f.toWord 26 1)
  | .fence f => some (f.toWord 27 0)
  | .fenceAcq f => some (f.toWord 27 1)
  | .fenceRel f => some (f.toWord 27 2)
  | .tfence f => some (f.toWord 27 3)
  | .efence f => some (f.toWord 27 4)
  | .fenceSp f => some (f.toWord 27 5)
  | .axb f => some (f.toWord 28)
  | .axe f => some (f.toWord 29 0)
  | .axa f => some (f.toWord 29 1)
  | .axs f => some (f.toWord 29 2)
  | .post f => some (f.toWord 30 0)
  | .lxchPick f => some (f.toWord 32 0)
  | .lxchRot f => some (f.toWord 32 1)
  | .lxchStep f => some (f.toWord 32 2)
  | .lxchRefl f => some (f.toWord 32 3)
  | .redadd f => some (f.toWord 33 0)
  | .redmin f => some (f.toWord 33 1)
  | .redmax f => some (f.toWord 33 2)
  | .redminu f => some (f.toWord 33 3)
  | .redmaxu f => some (f.toWord 33 4)
  | .redand f => some (f.toWord 33 5)
  | .redor f => some (f.toWord 33 6)
  | .redxor f => some (f.toWord 33 7)
  | .scanadd f => some (f.toWord 33 8)
  | .scanaddx f => some (f.toWord 33 9)
  | .redfadd f => some (f.toWord 33 10)
  | .lany f => some (f.toWord 34 0)
  | .lall f => some (f.toWord 34 1)
  | .lmap f => some (f.toWord 34 2)
  | .lpeer f => some (f.toWord 34 3)
  | .lfirst f => some (f.toWord 34 4)
  | .lcount f => some (f.toWord 34 5)
  | .join f => some (f.toWord 35 0)
  | .leave f => some (f.toWord 35 1)
  | .waitm f => some (f.toWord 35 2)
  | .mget f => some (f.toWord 35 3)
  | .mset f => some (f.toWord 35 4)
  | .mand f => some (f.toWord 35 5)
  | .mor f => some (f.toWord 35 6)
  | .mandn f => some (f.toWord 35 7)
  | .mclr f => some (f.toWord 35 8)
  | .tnew f => some (f.toWord 36 0)
  | .tfree f => some (f.toWord 36 1)
  | .tjoin f => some (f.toWord 36 2)
  | .tleave f => some (f.toWord 36 3)
  | .tbar f => some (f.toWord 36 4)
  | .tarrive f => some (f.toWord 36 5)
  | .twaitp f => some (f.toWord 36 6)
  | .mma f => some (f.toWord 37)
  | .mmag f => some (f.toWord 38)
  | .aacq f => some (f.toWord 39 0)
  | .arel f => some (f.toWord 39 1)
  | .azero f => some (f.toWord 39 2)
  | .amov f => some (f.toWord 39 3)
  | .amovin f => some (f.toWord 39 4)
  | .ascale f => some (f.toWord 39 5)
  | .astore f => some (f.toWord 39 6)
  | .aload f => some (f.toWord 39 7)
  | .sld f => some (f.toWord 40 0)
  | .sst f => some (f.toWord 40 1)
  | .sbind f => some (f.toWord 40 2)
  | .sunbind f => some (f.toWord 40 0 3)
  | .sunbindReg f => some (f.toWord 40 1 3)
  | .sadd f => some (f.toWord 40 4)
  | .smax f => some (f.toWord 40 5)
  | .scvtUe5m3 f => some (f.toWord 40 0 6)
  | .scvtE8m0 f => some (f.toWord 40 1 6)
  | .smov f => some (f.toWord 40 7)
  | .sqry f => some (f.toWord 40 8)
  | .tcopy f => some (f.toWord 41 0)
  | .tgather f => some (f.toWord 41 1)
  | .hnew f => some (f.toWord 42 0)
  | .hgive f => some (f.toWord 42 1)
  | .htake f => some (f.toWord 42 2)
  | .hqry f => some (f.toWord 42 3)
  | .hfree f => some (f.toWord 42 4)
  | .swinit f => some (f.toWord 43 0)
  | .swwait f => some (f.toWord 43 1)
  | .swadd f => some (f.toWord 43 2)
  | .swgen f => some (f.toWord 43 3)
  | .rlcgo f => some (f.toWord 44 0)
  | .pref f => some (f.toWord 56)
  | .cpol f => some (f.toWord 57)
  | .prio f => some (f.toWord 58)
  | .hintRegionNop f => some (f.toWord 59)
  | .illegalWord _ => none
  | .classLResultWrite _ => none
  | .queueEntryArrival _ => none
  | .storePerform _ => none
  | .atomicPerform _ => none
  | .atomnMerge _ _ => none
  | .fairnessTimerExpiry _ => none
  | .spawnTimeout _ => none
  | .xacqGrant _ => none
  | .arithLogRecord _ => none
  | .arrayAccept _ => none
  | .matrixComplete _ => none
  | .accOpComplete _ => none
  | .accTileGrant _ => none
  | .scaleRegGrant _ => none
  | .sldScaleWrite _ => none
  | .axbGrant _ => none
  | .exclusiveAdmit => none
  | .commit _ => none
  | .commitLineTimeout _ => none
  | .faultRecordWrite _ => none
  | .resolveRetry _ => none
  | .resolveDeliver _ => none
  | .resolveAbort _ => none
  | .handlerEntry _ _ => none
  | .spawnEnd _ => none
  | .spawnCompletion _ => none
  | .softError _ _ _ => none
  | .hangSample _ => none
  | .htakeHandover _ => none
  | .slotZeroing _ => none
  | .copyStart _ _ => none
  | .copyBlock _ _ => none
  | .copyComplete _ _ => none
  | .queuePostArrival _ => none
  | .bundleStart _ _ => none
  | .bundleRetire _ => none
  | .bindStart _ => none
  | .bindResume _ => none
  | .bindStopSave _ => none
  | .contextImageWrite _ => none
  | .watchUpdate _ _ => none
  | .waitwTimeout _ _ => none
  | .hbmError _ _ _ => none
  | .patrolScrub _ => none
  | .rlcCommandStart _ => none
  | .rlcPhaseComplete _ => none
  | .rlcNormDone _ => none
  | .invalidationGo _ => none
  | .invalidationRequest _ _ _ => none
  | .invalidationAck _ _ => none
  | .zeroingRequest _ => none
  | .zeroingComplete _ => none
  | .directoryRebuild _ => none
  | .hostPortStore _ _ _ => none
  | .hostPortLoad _ _ => none
  | .unlock _ _ => none
  | .registerWrite _ _ => none
  | .bringUp _ => none
  | .powerFail => none
  | .thermalSample _ _ => none
  | .reset => none
  | .fieldLogWrite => none
  | .msg _ _ _ => none
  | .ack _ _ _ => none
  | .nak _ _ _ => none
  | .ackTimer _ _ => none
  | .credit _ _ => none
  | .csync _ _ => none
  | .csyncTimer _ => none
  | .data _ _ _ => none
  | .rdreq _ _ _ => none
  | .ctrlcarry _ _ _ _ => none
  | .bundleRetrainDone _ _ _ => none
  | .linkRetrainTimer _ => none
  | .linkState _ _ _ => none
  | .e2eAck _ _ => none
  | .remoteAtomicArrival _ => none
  | .remoteAtomicResult _ _ _ => none
  | .routeRetryTimer _ => none
  | .routeRetryExpiry _ => none
  | .dedupExpiry => none
  | .heartbeat => none
  | .heartbeatTimeout _ => none
  | .suspect _ _ => none
  | .confirm _ _ => none
  | .soloLossTimer _ => none
  | .isolationTimeout => none
  | .peerLoss _ => none
  | .commLoad _ => none
  | .commLoadFinish _ => none
  | .commFree _ => none
  | .commAbort _ => none
  | .runRequest _ => none
  | .runStart _ => none
  | .chunkStart => none
  | .clear _ => none
  | .chunkApply _ _ _ => none
  | .runfail _ _ _ => none
  | .linkDownTimeout _ => none
  | .poweredHours _ => none
  | .crossbarFlitError _ _ _ _ => none

end

end Sys2Proof
end

