-- ==== Sys2Proof/Config.lean ====
section
/-! DEFINITION. What an implementation fixes and what the spec leaves free. The constants without a body are the free
values: nothing can evaluate them or prove a value of them. -/

namespace Sys2Proof.Config

/-- A free value for each number of the state's counter of free values (log 7). -/
opaque freeValue : Nat → BitVec 64

/-- A free choice among alternatives, taken modulo their number (R298, R367, R390 and the order of steps; log 7). -/
opaque pick : Nat → Nat

/-- The approximated special-function results: operation, operand, then which representable value inside the bound of
Table 5.8 (R125; log 9). -/
opaque sfuChoice : Nat → Nat → Nat → Nat

/-- The L2 slice that homes a line: a hash the spec does not give (R298). -/
opaque l2Slice : Nat → Nat

/-- The bank of its pseudo-channel in which a stack-local offset lies: a map the spec does not give (R305, R306). -/
opaque hbmBank : Nat → Nat

/-- The choice among live routes: a hash the spec does not give (R390). -/
opaque routeHash : Nat → Nat

end Sys2Proof.Config
end

