-- ==== Sys2Proof/Machine/Map.lean ====
section
/-! DEFINITION. Sparse tables: lists of key and value with keys strictly rising, where a key that is not listed has the
table's default. Every table of the machine, memory among them, is one of these. -/

namespace Sys2Proof

/-- A sparse table. -/
abbrev SMap (α : Type) := List (Nat × α)

/-- The entry of a key, if listed. -/
def SMap.find? {α : Type} : SMap α → Nat → Option α
  | [], _ => none
  | (k', v) :: t, k => if k' = k then some v else SMap.find? t k

/-- The value of a key, the default d if it is not listed. -/
def SMap.get {α : Type} (m : SMap α) (d : α) (k : Nat) : α := (m.find? k).getD d

/-- The table with a key listed at a value. -/
def SMap.put {α : Type} : SMap α → Nat → α → SMap α
  | [], k, v => [(k, v)]
  | (k', v') :: t, k, v =>
    if k < k' then (k, v) :: (k', v') :: t
    else if k' < k then (k', v') :: SMap.put t k v
    else (k, v) :: t

/-- The table without a key. -/
def SMap.erase {α : Type} : SMap α → Nat → SMap α
  | [], _ => []
  | (k', v') :: t, k => if k' = k then SMap.erase t k else (k', v') :: SMap.erase t k

/-- The table with a key at a value, the default d being unlisted. -/
def SMap.set {α : Type} [DecidableEq α] (m : SMap α) (d : α) (k : Nat) (v : α) : SMap α :=
  if v = d then m.erase k else m.put k v

/-- The table with the entry of a listed key changed. -/
def SMap.modify {α : Type} : SMap α → Nat → (α → α) → SMap α
  | [], _, _ => []
  | (k', v') :: t, k, f => if k' = k then (k', f v') :: t else (k', v') :: SMap.modify t k f

/-- The table with every value changed. -/
def SMap.mapVals {α β : Type} (f : Nat → α → β) : SMap α → SMap β
  | [] => []
  | (k, v) :: t => (k, f k v) :: SMap.mapVals f t

/-- The keys strictly rise from lo on. -/
def SMap.risesFrom {α : Type} : Nat → SMap α → Bool
  | _, [] => true
  | lo, (k, _) :: t => decide (lo ≤ k) && SMap.risesFrom (k + 1) t

/-- The canonical form: keys strictly rising and no entry at the default. -/
def SMap.wf {α : Type} [DecidableEq α] (d : α) (m : SMap α) : Bool :=
  SMap.risesFrom 0 m && m.all (fun e => decide (e.2 ≠ d))

/-- The first unused key from lo on, given that many candidates. -/
def SMap.freeKey {α : Type} (m : SMap α) : Nat → Nat → Option Nat
  | _, 0 => none
  | lo, n + 1 => if (m.find? lo).isNone then some lo else SMap.freeKey m (lo + 1) n

/-- The numbers lo, lo + 1, … of a given count. -/
def natsFrom : Nat → Nat → List Nat
  | _, 0 => []
  | lo, n + 1 => lo :: natsFrom (lo + 1) n

/-- The elements numbered from i on, each changed by a function of its number. -/
def mapNumbered {α β : Type} (f : Nat → α → β) : Nat → List α → List β
  | _, [] => []
  | i, x :: t => f i x :: mapNumbered f (i + 1) t

/-- The element at a place of a list, the default if there is none. -/
def nth {α : Type} (d : α) : List α → Nat → α
  | [], _ => d
  | x :: _, 0 => x
  | _ :: t, n + 1 => nth d t n

/-- The list with the element at a place replaced. -/
def setNth {α : Type} : List α → Nat → α → List α
  | [], _, _ => []
  | _ :: t, 0, v => v :: t
  | x :: t, n + 1, v => x :: setNth t n v

/-- Insertion into a list sorted by a key, after the elements of equal key. -/
def insertBy {α : Type} (key : α → Nat) (x : α) : List α → List α
  | [] => [x]
  | y :: t => if key x < key y then x :: y :: t else y :: insertBy key x t

/-- A list sorted by a key, elements of equal key staying in order. -/
def sortBy {α : Type} (key : α → Nat) (l : List α) : List α :=
  l.foldl (fun acc x => insertBy key x acc) []

/-- The number a list of bytes stands for, little-endian (R5). -/
def leNat : List Byte → Nat
  | [] => 0
  | b :: t => b.toNat + 256 * leNat t

/-- A number as n bytes, little-endian (R5). -/
def leBytes : Nat → Nat → List Byte
  | 0, _ => []
  | n + 1, x => BitVec.ofNat 8 x :: leBytes n (x / 256)

/-- Bits lo to lo + n - 1 of a number. -/
def bitsOf (x lo n : Nat) : Nat := x / 2 ^ lo % 2 ^ n

/-- The number with bits lo to lo + n - 1 replaced. -/
def setBits (x lo n v : Nat) : Nat := x / 2 ^ (lo + n) * 2 ^ (lo + n) + v % 2 ^ n * 2 ^ lo + x % 2 ^ lo

/-- Memory: the bytes by physical key, unlisted keys reading 0 (log 3). -/
abbrev Memory := List Host.Cell

/-- What an unlisted key reads as (log 3). -/
def memDefault : Byte := 0#8

/-- The byte at a key. -/
def Memory.byte (m : Memory) (k : Nat) : Byte := SMap.get m memDefault k

/-- Memory with one byte written. -/
def Memory.setByte (m : Memory) (k : Nat) (v : Byte) : Memory := SMap.set m memDefault k v

/-- The n bytes from a key on. -/
def Memory.read (m : Memory) : Nat → Nat → List Byte
  | _, 0 => []
  | k, n + 1 => m.byte k :: Memory.read m (k + 1) n

/-- Memory with a list of bytes written from a key on. -/
def Memory.write (m : Memory) (k : Nat) : List Byte → Memory
  | [] => m
  | b :: t => Memory.write (m.setByte k b) (k + 1) t

/-- The canonical form of memory. -/
def Memory.wf (m : Memory) : Bool := SMap.wf memDefault m

/-- The little-endian number of n bytes from a key on. -/
def Memory.num (m : Memory) (k n : Nat) : Nat := leNat (m.read k n)

end Sys2Proof
end

