-- ==== Sys2Proof/Machine/State.lean ====
section
/-! DEFINITION. The machine's state: one package of the pod with its four dies, as plain data. Every item the spec
gives the machine has one home here; the fields under 'the model's own' are the model's (log 6, 7). -/

namespace Sys2Proof.Machine

open Sys2Proof

/-- A queue register's entry: data that has returned, or an entry reserved for half `half` of access `sn` (R20). -/
inductive QEntry where
  | filled (v : Word)
  | reserved (sn half : Nat)
deriving DecidableEq, Repr

/-- What a fence, or an LDA, makes the thread's later M-pipe words wait for (R137, R148, R149); rel is FENCE.REL. -/
inductive FenceKind where
  | all | rel | reads | tfence | scratch | lda
deriving DecidableEq, Repr

/-- A fence in progress: it concerns the accesses numbered below `sn`, at a scope of Table 2.2. -/
structure Fence where
  kind : FenceKind
  sn : Nat
  scope : Nat
  invalidate : Bool
deriving DecidableEq, Repr

/-- What a thread is blocked on (R25), with the operands its word read on arrival; axb: in which gang issue cycle the AXB issued, and
whether the attempt is an exclusive one (R226). -/
inductive Wait where
  | waitm (m : Nat)
  | rendezvous (m : Nat) (pc : Word) (pos op : Nat) (a b : Word)
  | queue (needs : List (Nat × Nat))
  | xacq
  | aacq (acc : Nat)
  | axb (cycle : Nat) (excl : Bool)
  | axe
  | barrier (phase : Word)
  | arriving
  | handover (handle : Nat)
  | watch (token : Word) (since : DWord) (limit : Word)
  | efence (sn : Nat)
  | syncw (key : Nat) (old : Word)
  | scaleReg
  | engine
  | exit
  | commit
deriving DecidableEq, Repr

/-- A trap still to be taken (R84, R237, R238): its cause, resume point and address registers, and the entering set, where
one word raised it. -/
structure TrapReq where
  cause : Nat
  pc : Word
  pos : Nat
  lo : Word
  hi : Word
  atPacket : Bool
  set : DWord
deriving DecidableEq, Repr

/-- A symbolic value L_load + k (R217); pair marks a 64-bit tag. -/
structure Tag where
  load : Nat
  k : DWord
  pair : Bool
deriving DecidableEq, Repr

/-- The comparison of a recorded relation (R219). -/
inductive Cmp where
  | eq | ne | lt | le | ltu | leu | gt | ge
deriving DecidableEq, Repr

/-- One side of a relation: a symbolic value or a constant. -/
inductive Side where
  | sym (t : Tag)
  | con (v : DWord)
deriving DecidableEq, Repr

/-- A relation between two sides, on 32-bit values unless wide (R219). -/
structure Relation where
  cmp : Cmp
  l : Side
  r : Side
  wide : Bool
deriving DecidableEq, Repr

/-- What a register carries in a region: a tag or a pending relation (R217, R219). -/
inductive Mark where
  | tag (t : Tag)
  | rel (r : Relation)
deriving DecidableEq, Repr

/-- A tracked load (R215). -/
structure TLoad where
  pa : Nat
  size : Nat
  value : DWord
  pinned : Bool
deriving DecidableEq, Repr

/-- A buffered store of a region (R218); whole: its word writes the whole poison unit (R141). -/
structure TStore where
  pa : Nat
  size : Nat
  value : DWord
  whole : Bool
  tag : Option Tag
deriving DecidableEq, Repr

/-- An open atomic region (R212). born: the serial numbers from the start to the end of the chain that opened it, whose
results belong to the snapshot (R220). -/
structure Region where
  opened : Word
  fallback : Word
  snapshot : SMap Word
  exclusive : Bool
  fresh : Bool
  born : Nat × Nat
  loads : List TLoad
  stores : List TStore
  constraints : List (Relation × Bool)
  marks : SMap Mark
deriving DecidableEq, Repr

/-- A thread: Table 1.1 and the hardware's own record of where it stands. waitPos: the position of the word that it waits in;
issued: the registers as that word, or its chain, has read them (R19, R168); held: the answers that earlier blocking words of that chain have had, by position
(R22); relFence: the scope and the bound of its last narrow release fence (R148). -/
structure Thread where
  populated : Bool
  live : Bool
  pc : Word
  pos : Nat
  regs : SMap Word
  latch : List (Word × Nat)
  queues : List (List QEntry)
  fpc : Word
  trapvec : Word
  trapcause : Word
  trappc : Word
  trapLo : Word
  trapHi : Word
  trapscr : Word
  yielded : Bool
  handler : Bool
  resumePos : Nat
  axCode : Nat
  axCount : Nat
  axCause : Nat
  axLast : Option Word
  clockHi : Option Word
  park : Bool
  arrived : Bool
  fence : Option Fence
  wait : Option Wait
  waitPos : Nat
  grant : Option DWord
  trap : Option TrapReq
  region : Option Region
  lbuf : List Word
  waitSince : Option DWord
  statuses : List (Nat × Nat)
  efenceSn : Nat
  cpol : Nat
  jump : Option (Word × Nat)
  exiting : Bool
  swTrap : Option TrapReq
  issued : Option (SMap Word)
  held : List (Nat × DWord)
  relFence : Option (Nat × Nat)
deriving DecidableEq, Repr

/-- A change of a gang's masks in the gang issue cycle in progress (R179). -/
inductive MaskOp where
  | setBit (m : Nat)
  | clearBit (m : Nat)
  | assign (m : Nat) (v : DWord)
  | and_ (m : Nat) (v : DWord)
  | or_ (m : Nat) (v : DWord)
  | andn (m : Nat) (v : DWord)
  | clear (m : Nat)
  | exit
deriving DecidableEq, Repr

/-- An accumulator tile: INT32 mode or fp32 mode, and its 64 x 64 elements (R185, R186). -/
structure AccTile where
  int32 : Bool
  elems : SMap Word
deriving DecidableEq, Repr

/-- A logged arithmetic cause whose record is still to be formed (R80, R81): the packet that holds the word, the lanes whose
TRAPERR was set when it issued (R84, R111), how many packets the gang has issued since. -/
structure LogItem where
  sn : Nat
  cause : Nat
  lanes : DWord
  pc : Word
  matrix : Bool
  trap : DWord
  packets : Nat
deriving DecidableEq, Repr

/-- A stopped, replayable gang (R233): the record's fields as they stood at the fault. -/
structure Stop where
  lanes : DWord
  entering : DWord
  va : DWord
  kind : Nat
  pc : Word
  pos : Nat
  clock : DWord
  ticket : Option Word
deriving DecidableEq, Repr

/-- A gang: Table 1.2, its threads by lane, and its standing in the partition. ended: its last thread has ended, and what it
held is released (R34). -/
structure Gang where
  width : Nat
  spawn : Nat
  index : Nat
  team : Nat
  threads : List Thread
  masks : List DWord
  maskOps : List (Nat × MaskOp)
  bpc : Word
  bpos : Nat
  xblk : Bool
  accRes : Nat
  prio : Nat
  pref : Nat
  prefBy : Option Nat
  fairAcc : Nat
  fairFrom : Option DWord
  yieldNow : Bool
  packets : SMap (Word × Word × Word)
  accs : SMap AccTile
  stop : Option Stop
  replays : Word
  candSince : Option DWord
  logs : List LogItem
  ended : Bool
deriving DecidableEq, Repr

/-- How a load or an atomic delivers its value: the register it names and how the bytes become a value (R136). -/
inductive Dest where
  | none
  | reg (r : Nat)
  | signed8 (r : Nat)
  | signed16 (r : Nat)
  | pair (r : Nat)
  | quad (r : Nat)
  | queue (q : Nat) (sx : Nat)
deriving DecidableEq, Repr

/-- The atomic operations of Table 6.3. -/
inductive AtomOp where
  | add | sub | and | or | xor | min | max | minu | maxu | xchg | fadd | fmin | fmax | add64 | xchg64 | badd2
deriving DecidableEq, Repr

/-- What an access does when it is performed; counted: the word's write of the slot has advanced its data generation
(R190). -/
inductive AccessKind where
  | load (acquire inval : Bool)
  | store
  | atom (op : AtomOp)
  | cas (expected : DWord) (counted : Bool)
deriving DecidableEq, Repr

/-- A memory access that has issued and is not yet performed (R133, R134, R139). whole: its word writes every byte of the
poison units it touches (R141); half: the first half of a 16-byte load that is taken in two (R136); into: the older packet
that it has been merged with (R301); gate: the fences of its own chain that it comes after (R22, R148); rel: the scope, and the
bound of the earlier accesses, of a release narrower than the pod that it makes (R140, R148); of an LDA, its scope. -/
structure Access where
  sn : Nat
  cycle : Nat
  gang : Nat
  lane : Nat
  core : Nat
  team : Nat
  kind : AccessKind
  va : DWord
  pa : Nat
  size : Nat
  data : Nat
  operands : List Nat
  dest : Dest
  release : Bool
  whole : Bool
  half : Option (Bool × DWord)
  into : Option Nat := none
  gate : List Fence := []
  rel : Option (Nat × Nat) := none
deriving DecidableEq, Repr

/-- A class-L result that is not yet written (R18, R19): its words in order from the destination register. -/
structure Pending where
  sn : Nat
  gang : Nat
  lane : Nat
  dest : Nat
  values : Option (List Word)
  mark : Option Mark := none
deriving DecidableEq, Repr

/-- A window of a team (Table 7.2). -/
structure Window where
  handle : Nat
  base : Nat
  count : Nat
  core : Nat
  pfirst : Nat
deriving DecidableEq, Repr

/-- A rename-map entry (Table 8.1). -/
structure Rename where
  gen : Nat
  mapped : Bool
  core : Nat
  preg : Nat
deriving DecidableEq, Repr

/-- A slot binding (Table 8.2). -/
structure Binding where
  valid : Bool
  voided : Bool
  blen : Nat
  fmt : Nat
  sreg : Nat
  sgen : Nat
  dgen : Nat
deriving DecidableEq, Repr

/-- A team: its table entry (Table 13.1; LIVE, ARRIVED, GANGS and CORES follow from its member gangs), its windows, its
rename map, its bindings and its slots' data generations. -/
structure Team where
  valid : Bool
  gen : Nat
  phase : Word
  cap : Nat
  auto : Bool
  swapped : Bool
  poisoned : Bool
  creator : Option Nat
  windows : SMap Window
  renames : SMap Rename
  bindings : SMap Binding
  dgens : SMap Nat
deriving DecidableEq, Repr

/-- A handle entry (Table 13.5); holder and offer are team keys. -/
structure Handle where
  valid : Bool
  gen : Nat
  holder : Nat
  offer : Option Nat
  count : Nat
  pfirst : Nat
  core : Nat
  window : Nat
  mapped : Bool
  poisoned : Bool
deriving DecidableEq, Repr

/-- The scale bytes an operand row uses, latched at issue: block length in elements, format, bytes of the row (R193). -/
structure RowScale where
  blen : Nat
  fmt : Nat
  bytes : List Byte
deriving DecidableEq, Repr

/-- What a matrix or accumulator operation does when it completes: a product with its latched scales, whose A rows are
read from a slot or were gathered at issue (R195, R196), each slot with its team slot, by which the array tags it (R181); or an
accumulator form (Table 8.3) with its latched operands; an ASTORE carries the bytes it writes and the causes it logs. -/
inductive MatKind where
  | product (types : Nat) (zero intPath : Bool) (aKey : Option Nat) (aRows : List (Option (List Byte)))
      (bKey : Nat) (aTag bTag : Nat) (aScale bScale : List (Option RowScale))
  | azero (int32 : Bool)
  | movin (writes : List (Nat × Word))
  | ascale (exps : List Word)
  | astore (writes : List (Nat × List Byte)) (causes : List Nat)
  | aload (int32 : Bool) (key0 key1 : Nat)
deriving DecidableEq, Repr

/-- A class-A operation that has issued and not completed (R18, R180 to R182). lanes are the lanes that issued it, m0 the
gang's lanes at issue (R78); once the array has accepted it, start and busy give its occupancy (R181); olds: what the bytes of its
operand slots have held since it issued, before what they hold now (R193). -/
structure MatOp where
  sn : Nat
  gang : Nat
  team : Nat
  acc : Nat
  kind : MatKind
  accepted : Bool
  pc : Word
  lanes : DWord
  m0 : DWord
  trapAll : Bool
  start : DWord
  busy : Nat
  olds : SMap (List Byte)
deriving DecidableEq, Repr

/-- An SLD whose data has not all returned (R205): its source key, the fences of its own chain that it comes after (R22), and the bytes
that it has read. -/
structure ScaleLoad where
  sn : Nat
  gang : Nat
  lane : Nat
  team : Nat
  sreg : Nat
  pa : Nat
  gate : List Fence := []
  got : List (Nat × Byte) := []
deriving DecidableEq, Repr

/-- A spawn record (Table 16.4). -/
structure Record where
  code : DWord
  entry : Word
  threads : Nat
  width : Nat
  flags : Nat
  fair : Nat
  team : Nat
  slots : Nat
  acc : Nat
  prio : Nat
  rung : Nat
  limit : Nat
  arg : DWord
  affinity : DWord
  cpl : DWord
  link : DWord
deriving DecidableEq, Repr

/-- A spawn in progress (R311 to R316, R241); entries: its index in the spawn table of each die that has it (R317). -/
structure Spawn where
  id : Word
  record : Record
  ctx : Nat
  start : DWord
  issuing : Bool
  unplaced : List Nat
  ending : Option Nat
  stopped : Bool
  rung : Nat
  bundle : Option (Nat × Nat)
  command : Option Nat
  entries : SMap Nat
deriving DecidableEq, Repr

/-- A fault record waiting to be written (Table 10.3, R234). -/
structure FaultRec where
  die : Nat
  cause : Nat
  fatal : Bool
  kind : Nat
  word : Nat
  ticket : Word
  pc : Word
  spawnId : Word
  gang : Nat
  core : Nat
  part : Nat
  va : DWord
  lanes : DWord
  clock : Word
  formed : Bool
  gangKey : Option Nat
deriving DecidableEq, Repr

/-- A watch-table entry (Table 16.1): entry is its place among the 512 of its slice, seq its re-use count; late: a write of
another die's, or of an engine's, has still to be delivered to its slice (R303). -/
structure Watch where
  die : Nat
  slice : Nat
  entry : Nat
  seq : Nat
  gang : Nat
  lane : Nat
  token : Word
  pa : Nat
  cmp : Nat
  value : Word
  mask : Word
  fired : Bool
  late : Bool
deriving DecidableEq, Repr

/-- A page-table leaf with its permissions (Table 20.3). -/
structure Leaf where
  frame : Nat
  bits : Nat
  entry : Nat
deriving DecidableEq, Repr

/-- What the translation buffers and walkers may hold (R348): the tables that walks have read, by page of 4 KiB, each as the keys of the
page-table entries that its first word stands for; and the values that valid entries had before they were changed, by key, until an
invalidation covers them. The key of an entry names its ASID, its level and the first address it covers. -/
structure Tlb where
  tables : SMap (List Nat)
  olds : SMap (List Nat)
deriving DecidableEq, Repr

/-- A POST that has issued and has not reached its port (R151); away: the source, tenant and transfer id of one that another
package sent (R393). -/
structure PostMsg where
  sn : Nat
  gang : Nat
  lane : Nat
  dest : Nat
  ctx : Nat
  pa : Nat
  bytes : List Byte
  away : Option (Nat × Nat × Word) := none
  gate : List Fence := []
deriving DecidableEq, Repr

/-- A release narrower than the pod whose thread has earlier accesses, numbered below `sn`, still to be performed: an acquire
that reads the location it wrote, or any location where it is a fence, waits for them within its scope (R140, R148, R358). -/
structure Owed where
  gang : Nat
  lane : Nat
  sn : Nat
  scope : Nat
  loc : Option (Nat × Nat)
deriving DecidableEq, Repr

/-- An AXE that waits for, or is served by, the commit engine of a core (R221, R223); start: when the engine took it up. -/
structure CommitReq where
  core : Nat
  gang : Nat
  lanes : DWord
  start : Option DWord := none
deriving DecidableEq, Repr

/-- Why a word stopped before it had any effect: cause, address registers, faulting lanes, access kind (R231, R234). -/
structure Cause where
  code : Nat
  lo : Word
  hi : Word
  lanes : DWord
  kind : Nat
deriving DecidableEq, Repr

/-- Where a word that is executing stands: its gang, its lanes, its place, its chain, the serial number at the chain's
start, and what became of it; released: its chain has released the extended block (R109). -/
structure IssueCtx where
  gang : Nat
  lanes : DWord
  pc : Word
  pos : Nat
  first : Nat
  rest : Nat
  chained : Bool
  pre : Option Gang
  since : Nat
  preTeam : Option Team
  preScale : Option (SMap (SMap Byte))
  cause : Option Cause
  blocked : DWord
  released : Bool := false
deriving DecidableEq, Repr

/-- A zeroing request for the frame that a leaf with Z set names (R351): the entry's address and value, the frame's key
and size. -/
structure Zeroing where
  entryAt : Nat
  entry : Nat
  frame : Nat
  size : Nat
  spread : Bool
  started : Bool
  passed : List (Nat × Nat) := []
deriving DecidableEq, Repr

/-- The thread that issued an engine operation: its spawn's key, its thread id, and the operation's serial number. -/
structure OpOwner where
  spawn : Nat
  tid : Nat
  sn : Nat
deriving DecidableEq, Repr

/-- A copy descriptor's fields (Table 14.1), with TGATHER's mark. -/
structure CopyDesc where
  src : DWord
  dst : DWord
  ssrc : DWord
  sync : DWord
  cpl : DWord
  index : DWord
  rows : Nat
  sfmt : Nat
  kind : Nat
  mode : Nat
  scaleFmt : Nat
  bl : Nat
  spray : Bool
  zfill : Bool
  sreg : Nat
  rbytes : Nat
  sstride : Nat
  dstride : Nat
  gather : Bool
deriving DecidableEq, Repr

/-- A copy that has been accepted and has not completed (R278, R288 to R293): its place in the engine, what was resolved
at acceptance (the keys of the team slots it names, its completion record's key), and its progress. -/
structure Copy where
  sn : Nat
  cluster : Nat
  stream : Nat
  owner : Option OpOwner
  bundle : Option (Nat × Nat)
  ctx : Nat
  team : Nat
  teamGen : Nat
  desc : CopyDesc
  slots : SMap Nat
  cplKey : Option Nat
  started : Bool
  row : Nat
  blk : Nat
  reg : Option (Nat × Bool)
  sgen : Nat
  touched : SMap Nat
  ending : Option (Nat × Nat × DWord)
  staged : SMap Byte
  asked : List Nat
  unacked : List Nat
deriving DecidableEq, Repr

/-- What a refinement command is doing: waiting for a controller, about to start a phase, running its spawn, done with it,
taking a norm (R326 to R328), or about to leave once its event is posted (R329). -/
inductive CmdStage where
  | waiting
  | next (p : Nat)
  | phase (p spawn : Nat)
  | ended (p status : Nat)
  | norm (first : Bool)
  | leaving (event : List Byte)
deriving DecidableEq, Repr

/-- A refinement command (R321 to R331): its block as copied at acceptance and the loop's variables (R328). -/
structure Command where
  sn : Nat
  die : Nat
  owner : OpOwner
  ctx : Nat
  prio : Nat
  va : DWord
  key : Nat
  cplKey : Option Nat
  block : List Byte
  stage : CmdStage
  rung : Nat
  it : Nat
  rit : Nat
  stag : Nat
  prev : Option DWord
  bn : DWord
  final : Option DWord
  cancelled : Bool
deriving DecidableEq, Repr

/-- What a transfer that this package has begun on the fabric carries (R391, R393): for a piece of a copy its row, the
address of its block and of its own source, for a read the field it serves and the address of its block there. -/
inductive XferKind where
  | atomic (owner : OpOwner) (gang lane : Nat) (op : Nat) (addr : Nat) (operand : DWord) (dest : Dest)
  | post (gang lane dest : Nat) (ctx : Nat) (pa : Nat) (bytes : List Byte)
  | piece (copy row va src addr : Nat) (bytes : List Byte)
  | read (copy detail va addr size : Nat)
  | chunk (k op chunk : Nat) (bytes : List Byte)
  | clear (k op chunk : Nat)
deriving DecidableEq, Repr

/-- A transfer outstanding at its source (R391): its id, its destination, its tenant, whether a flit of it was sent, the
relays it was last given to (none: the direct link), since when it has had no route, whether it is with a link now and
whether it ever was. -/
structure Transfer where
  xfer : Word
  dst : Nat
  tenant : Nat
  kind : XferKind
  sent : Bool := false
  via : List (Option Nat) := []
  noRoute : Option DWord := none
  queued : Bool := false
  tried : Bool := false
deriving DecidableEq, Repr

/-- A chunk being staged in one of a communicator's eight staging buffers (R405, R407): the flits' bytes, the transfer that
brought them, and whether it is there whole. -/
structure Staging where
  op : Nat
  chunk : Nat
  data : SMap Byte
  xfer : Option Word
  whole : Bool
deriving DecidableEq, Repr

/-- A run of a communicator, queued or current (R403 to R410): its request, its progress once started, the status with which a member has
ended it, the ranges of keys that it writes, and the keys among them that another party has written meanwhile (R409). -/
structure Run where
  sn : Nat
  k : Nat
  prio : Nat
  cpl : DWord
  bases : List DWord
  owner : Option OpOwner
  ctx : Nat
  started : Bool
  pend : SMap Nat
  begun : SMap Nat
  finished : SMap Nat
  complete : List Nat
  applied : List (Nat × Nat)
  buffers : List Staging
  doom : Option Nat
  dests : List (Nat × Nat)
  spoiled : List Nat
deriving DecidableEq, Repr

/-- An HTAKE that waits for the transfers into its handle's slots (R271): the taking gang and team, the handle, the window
and the first team slot. -/
structure Handover where
  gang : Nat
  team : Nat
  handle : Nat
  window : Nat
  base : Nat
deriving DecidableEq, Repr

/-- A cluster's sync engine beside its tables (Table 13.6, R271, R273): messages dropped for a stale id and updates applied
to barrier images, by cluster; returned physical slots still to be zeroed; waiting HTAKEs. -/
structure SyncUnit where
  staleDrops : SMap Nat
  redirects : SMap Nat
  returned : List Nat
  handovers : List Handover
deriving DecidableEq, Repr

/-- The health of the arrays and cores (R243 to R245, R277, R376): retired cores and clusters, the live counters of the
field log by their offset in a copy (Table 21.5), when each core last issued, and the spare rows in use by HBM bank. -/
structure Health where
  retired : List Nat
  clusters : List Nat
  counts : SMap Nat
  lastIssue : SMap DWord
  spares : SMap Nat
deriving DecidableEq, Repr

/-- The current copy of a queue control block (R309). -/
structure QueueView where
  base : DWord
  size : Nat
  ctx : Nat
  acl : Nat
  prio : Nat
  enable : Bool
deriving DecidableEq, Repr

/-- A bundle that has started (R315): where its completion word goes, and each member's status once it has one. -/
structure Bundle where
  cpl : DWord
  ctx : Nat
  headId : Word
  members : List (Option Nat)
deriving DecidableEq, Repr

/-- A handle of a saved team with the contents of its slots; its poisoned granules by offset. -/
structure SavedHandle where
  key : Nat
  entry : Handle
  contents : List Byte
  poisoned : List Nat
deriving DecidableEq, Repr

/-- A team's context image (Table 16.6): its gangs by index, its entry with windows, rename map, bindings and generations,
its scale registers, its handles, its watches and its poisoned data; placed holds the gangs that a resume has bound so far,
by index and gang slot; offers: the handles that are offered to the team (R275, R276). -/
structure Image where
  spawn : Nat
  key : Nat
  team : Team
  gangs : List (Nat × Gang)
  scales : SMap (SMap Byte)
  handles : List SavedHandle
  watches : List Watch
  poison : List Datum
  placed : List (Nat × Nat)
  offers : List Nat
deriving DecidableEq, Repr

/-- A team that is being stopped and saved (R319): its key and the image that is to be written. -/
structure Save where
  team : Nat
  image : Nat
deriving DecidableEq, Repr

/-- The front end and dispatch (R308 to R320): the accepted copies of the queue control blocks, the bundles in progress, the
slot table by gang slot, the dispatch error counters by die, the context images by IMAGE, the saves in progress. -/
structure Front where
  queues : SMap QueueView
  bundles : SMap Bundle
  slotTable : SMap Nat
  dispatchErrors : SMap Nat
  images : SMap Image
  saves : List Save
deriving DecidableEq, Repr

/-- An invalidation that this package has taken and not acknowledged (R350): its range, its ASID, the package and host core that
asked for it, where one did; whether the buffers have dropped what it covers, and the serial number of that. -/
structure Inval where
  base : DWord
  count : Nat
  asid : Nat
  sn : Nat
  src : Option (Nat × Nat) := none
  dropped : Bool := false
deriving DecidableEq, Repr

/-- Power, bring-up and care (R370 to R376): bring-up steps done, failed boots, no power, a bring-up that stopped; dies whose
issue is gated; OPEN and BADKEY by block (Table 21.3); the live counters and retired cores as last written to flash, and
which copy that was; the answers of ports to host cores, what each host core last read, and the loads that wait for their
answer (R356). -/
structure Care where
  done : Nat
  tries : Nat
  dark : Bool
  failed : Bool
  gated : List Nat
  unlock : SMap (Bool × Nat)
  logged : SMap Nat
  loggedRetired : List Nat
  copy : Nat
  hostCodes : SMap Word
  hostReads : SMap Word
  hostWaits : List Nat
deriving DecidableEq, Repr

/-- What this package sends on the fabric. -/
inductive FMsg where
  | e2e (xfer : Word) (result : DWord)
  | atomic (m : RemoteAtomic)
  | atomicResult (xfer : Word) (status : Nat) (old : DWord)
  | post (xfer : Word) (tenant port ctx : Nat) (bytes : List Byte)
  | data (f : DataFlit)
  | rdreq (f : DataFlit)
  | relay (f : CtlFlit)
  | heartbeat
  | linkState (board pod : Word)
  | suspect (pkg : Nat)
  | confirm (pkg : Nat)
  | peerLoss (pkg : Nat)
  | invalidate (h : Nat) (base : DWord) (count asid : Nat)
  | invalAck (h : Nat)
  | clear (xfer : Word) (m : ClearMsg)
  | runfail (k : Nat) (runseq : Word) (status : Nat)
deriving DecidableEq, Repr

/-- A flit waiting for its link, or kept for replay: destination, plane, channel, hop (R380 to R382), its message, the
transfer of this package that it carries a part of, and which of its message's flits it is. -/
structure OutMsg where
  dst : Nat
  data : Bool
  ch : Nat
  hop : Nat
  msg : FMsg
  own : Option Word := none
  part : Nat := 0
deriving DecidableEq, Repr

/-- A bundle of a link (R379, R385, R386): in service; the next SEQ to accept, whether a NAK is out for it, whether it has
failed once, the last SEQ acknowledged; the next SEQ to send, the flits kept for replay, the SEQ last asked for again; the
spare lasers left. -/
structure BundleSt where
  up : Bool
  rx : Nat
  gap : Bool
  failed : Bool
  acked : Nat
  tx : Nat
  replay : List OutMsg
  again : Option Nat
  retrained : List Nat
deriving DecidableEq, Repr

/-- A sub-channel's counts (R384): slots freed here, flits sent, the last FREED accepted from the peer. -/
structure Credit where
  freed : Nat
  sent : Nat
  limit : Nat
deriving DecidableEq, Repr

/-- A link (R379, R387): when its peer was last heard, what waits to be sent, when the last CSYNC went out, when it was last
retrained; the destination, the flits still to come and the bytes so far of a message that arrives, by sub-channel; the data channel
that it last sent on (R383). -/
structure LinkSt where
  heard : DWord
  backlog : List OutMsg
  csyncAt : DWord
  trainedAt : DWord
  parts : SMap (Nat × Nat × List Byte)
  turn : Nat
deriving DecidableEq, Repr

/-- A remembered result of a remote atomic or POST (R391). -/
structure Dedup where
  src : Nat
  xfer : Word
  status : Nat
  old : DWord
  at_ : DWord
deriving DecidableEq, Repr

/-- A peer that this package suspects (R396). -/
structure Suspect where
  pkg : Nat
  since : DWord
  x : Nat
  confirms : List Nat
deriving DecidableEq, Repr

/-- What has arrived over the fabric and waits for a line that an exclusive region holds (R226). -/
inductive Arrival where
  | atomic (m : RemoteAtomic)
  | data (f : DataFlit)
deriving DecidableEq, Repr

/-- The fabric interface (22): links 0 to 31 board tier by device, 32 to 63 pod tier by board; bundles by link × 16 + bundle;
credits by link × 64 + sub-channel; remembered results; bytes performed by source and transfer; heartbeats by package;
suspects; since when no link is live; when the last heartbeats went out; the directory rebuilds' starts by package; what
waits for a line; the spare lasers that each fibre still has (R386); poisoned lines of which a transfer has written a part, each with its
source and transfer (R141); the package that the directory of this package's home region last made the owner of a line, by line
(R354, R398); the tenant's entry as it stood when a transfer's first data arrived, by source and transfer (R394). -/
structure Fabric where
  links : SMap LinkSt
  bundles : SMap BundleSt
  credits : SMap Credit
  dedup : List Dedup
  arrived : SMap Nat
  beats : SMap DWord
  suspects : List Suspect
  alone : Option DWord
  beatAt : DWord
  rebuilt : SMap DWord
  waiting : List Arrival
  spares : SMap Nat
  halves : SMap Nat
  owners : SMap Nat
  entries : SMap (List Byte)
deriving DecidableEq, Repr

/-- An operation of a loaded graph (Table 23.3). -/
structure GraphOp where
  kind : Nat
  dtype : Nat
  peer : Nat
  peerop : Nat
  ndep : Nat
  size : Nat
  base : Nat
  srcBase : Nat
  off : Nat
  off2 : Nat
  succs : List Nat
deriving DecidableEq, Repr

/-- A loaded graph (R402). -/
structure Graph where
  members : Nat
  ops : List GraphOp
deriving DecidableEq, Repr

/-- The collective engine beside its runs and communicator entries (23): loaded graphs by communicator, kept CLEARs, the
communicator and operations last served. -/
structure Coll where
  graphs : SMap Graph
  clears : List ClearMsg
  lastComm : Nat
  lastOp : SMap Nat
deriving DecidableEq, Repr

/-- An event of the package's own that may be due. -/
inductive Due where
  | result (i : Nat)
  | queueEntry (i : Nat)
  | store (i : Nat)
  | atomic (i : Nat)
  | merge (i j : Nat)
  | fairness (g : Nat)
  | timeout (sp : Nat)
  | xacq (g : Nat)
  | arith (i : Nat)
  | array (core : Nat)
  | matrix (i : Nat)
  | accOp (i : Nat)
  | tile (g : Nat)
  | scaleReg (g : Nat)
  | sld (i : Nat)
  | axb (g : Nat)
  | exclusive
  | commit (core : Nat)
  | commitTimeout (core : Nat)
  | faultRecord (die : Nat)
  | handler (g l : Nat)
  | spawnEnd (sp : Nat)
  | spawnDone (sp : Nat)
  | hang (core : Nat)
  | handover (i : Nat)
  | zeroSlot (i : Nat)
  | copyStart (cl st : Nat)
  | copyBlock (cl st : Nat)
  | copyDone (cl st : Nat)
  | post (i : Nat)
  | run (i : Nat)
  | bundle (i : Nat)
  | image (team : Nat)
  | watch (i : Nat) (v : Word)
  | waitw (g l : Nat)
  | rlcStart (die : Nat)
  | rlcPhase (i : Nat)
  | rlcNorm (i : Nat)
  | inval (base : DWord) (count asid : Nat)
  | zeroReq (i : Nat)
  | zeroDone (i : Nat)
  | rebuild (p : Nat)
  | retry (x : Word)
  | expiry (x : Word)
  | dedup
  | beat
  | silence (p : Nat)
  | linkDown (l : Nat)
  | solo (p : Nat)
  | isolation
  | retrain (l : Nat)
  | ackTimer (l k : Nat)
  | csyncTimer (l : Nat)
  | load (k : Nat)
  | runStart (k : Nat)
  | chunk
  | apply (k op chunk : Nat)
deriving DecidableEq, Repr

/-- The machine. -/
structure State where
  mem : Memory
  poison : List Datum
  clk : DWord
  podIndex : Nat
  gangs : SMap Gang
  teams : SMap Team
  handles : SMap Handle
  sync : SyncUnit
  front : Front
  spawns : SMap Spawn
  accesses : List Access
  pending : List Pending
  posts : List PostMsg
  matOps : List MatOp
  scaleLoads : List ScaleLoad
  scaleRegs : SMap (SMap Byte)
  arrayNext : SMap Nat
  retained : SMap (Nat × Nat × Nat)
  aacqQueue : List (Nat × Nat)
  l1 : SMap (List Byte)
  fused : List Nat
  tlb : Tlb
  zeroing : List Zeroing
  watches : List Watch
  watchSeq : SMap Nat
  tokens : List Word
  xacqQueue : List Nat
  axbQueue : List Nat
  exclQueue : List (Nat × Nat)
  exclusive : Option Nat
  commits : List CommitReq
  owed : List Owed
  copies : List Copy
  commands : List Command
  transfers : List Transfer
  runs : List Run
  faults : List FaultRec
  health : Health
  invals : List Inval
  invalWait : SMap (List Nat)
  care : Care
  fabric : Fabric
  coll : Coll
  spawnIdNext : Word
  ctxBase : Nat
  qcbBase : Nat
  queueAclBase : Nat
  aclBases : SMap Nat
  mirror : SMap Nat
  rebuilding : List Nat
  resolvePort : Nat
  faultVa : DWord
  ctx : Option IssueCtx
  inputs : List Instr
  sn : Nat
  cycle : Nat
  free : Nat
  lastGang : SMap Nat
  dueQueue : List Due
  rewritten : SMap (Byte × DWord)
  tickets : List Word
deriving DecidableEq, Repr

/-- Why a step stops. -/
inductive Fault where
  /-- The package has no power (R370): nothing runs until it is applied. Raised by the step; safe. -/
  | packageDark
deriving DecidableEq, Repr

/-- Why a step is refused. -/
inductive Refusal where
  /-- The instruction of this mnemonic has no meaning yet. Raised by exec's arms; safe. -/
  | notModelled (mnemonic : String)
deriving DecidableEq, Repr

/-- The machine right after reset (R373, and the reset values of the tables): nothing is listed, no gang runs, and bring-up
has still to be done. Values that the spec does not give are those of log 2 and log 3. -/
def State.reset : State :=
  { mem := [], poison := [], clk := 0, podIndex := 0, gangs := [], teams := [], handles := []
    sync := ⟨[], [], [], []⟩
    front := ⟨[], [], [], [], [], []⟩
    spawns := [], accesses := [], pending := [], posts := [], matOps := [], scaleLoads := [], scaleRegs := []
    arrayNext := [], retained := [], aacqQueue := [], l1 := [], fused := [], tlb := ⟨[], []⟩, zeroing := [], watches := [], watchSeq := [], tokens := []
    xacqQueue := []
    axbQueue := [], exclQueue := [], exclusive := none, commits := [], owed := [], copies := [], commands := [], transfers := []
    runs := [], faults := []
    health := ⟨[], [], [], [], []⟩
    invals := [], invalWait := []
    care := ⟨0, 0, false, false, [], [], [], [], 1, [], [], []⟩
    fabric := ⟨[], [], [], [], [], [], [], none, 0, [], [], [], [], [], []⟩
    coll := ⟨[], [], 15, []⟩
    spawnIdNext := 1, ctxBase := 0, qcbBase := 0, queueAclBase := 0, aclBases := [], mirror := [], rebuilding := []
    resolvePort := 0, faultVa := 0, ctx := none, inputs := [], sn := 0, cycle := 0, free := 0, lastGang := [], dueQueue := [], rewritten := [], tickets := [] }

end Sys2Proof.Machine
end

