-- ==== Sys2Proof/Machine/Ops.lean ====
section
/-! DEFINITION. The named operations over gangs, threads, memory and translation; taking an exception and returning
from one; the abort of an atomic region; the ending of a spawn. Every family of instructions calls these. -/

namespace Sys2Proof.Machine

open Sys2Proof

/-- What a step answers. -/
abbrev Out := Host.Outcome State Fault Refusal

/-! ## Places -/

/-- The core of a gang slot (R317: index (core × 8 + partition) × 64 + slot). -/
def coreOf (g : Nat) : Nat := g / 512
/-- The partition of a gang slot within its core. -/
def partOf (g : Nat) : Nat := g / 64 % 8
/-- The partition of a gang slot within the package. -/
def partKey (g : Nat) : Nat := g / 64
/-- The cluster of a gang slot. -/
def clusterOf (g : Nat) : Nat := g / 4096
/-- The die of a gang slot. -/
def dieOf (g : Nat) : Nat := g / 49152

/-- Lane l is in the set. -/
def inLanes (lanes : DWord) (l : Nat) : Bool := lanes.getLsbD l
/-- The set of one lane. -/
def laneBit (l : Nat) : DWord := BitVec.ofNat 64 (2 ^ l)
/-- The lanes of a set in ascending order. -/
def laneList (lanes : DWord) : List Nat := (natsFrom 0 64).filter (inLanes lanes)
/-- The set of a list of lanes. -/
def laneSet (l : List Nat) : DWord := l.foldl (fun m x => m ||| laneBit x) 0#64
/-- The lowest lane of a set. -/
def lowestLane (lanes : DWord) : Nat := (laneList lanes).headD 0

/-! ## Gangs and threads -/

/-- A thread that no place holds. -/
def Thread.absent : Thread :=
  { populated := false, live := false, pc := 0, pos := 0, regs := [], latch := [], queues := [[], [], [], []], fpc := 0,
    trapvec := 0, trapcause := 0, trappc := 0, trapLo := 0, trapHi := 0, trapscr := 0, yielded := false, handler := false,
    resumePos := 0, axCode := 0, axCount := 0, axCause := 0, axLast := none, clockHi := none, park := false,
    arrived := false, fence := none, wait := none, waitPos := 0, grant := none, trap := none,
    region := none, lbuf := [], waitSince := none, statuses := [], efenceSn := 0, cpol := 0,
    jump := none, exiting := false, swTrap := none, issued := none, held := [], relFence := none }

/-- A gang that no slot holds. -/
def Gang.absent : Gang :=
  { width := 16, spawn := 0, index := 0, team := 0, threads := [], masks := [], maskOps := [], bpc := 0, bpos := 0,
    xblk := false, accRes := 0, prio := 0, pref := 0, prefBy := none, fairAcc := 0, fairFrom := none, yieldNow := false,
    packets := [], accs := [], stop := none, replays := 0, candSince := none, logs := [], ended := false }

/-- The thread of a lane. -/
def Gang.thread (G : Gang) (l : Nat) : Thread := nth Thread.absent G.threads l

/-- The gang with the threads of a set of lanes changed. -/
def Gang.onLanes (G : Gang) (lanes : DWord) (f : Nat → Thread → Thread) : Gang :=
  { G with threads := mapNumbered (fun l t => if inLanes lanes l then f l t else t) 0 G.threads }

/-- The live lanes of a gang. -/
def Gang.liveLanes (G : Gang) : DWord :=
  laneSet ((natsFrom 0 G.width).filter fun l => (G.thread l).live)

/-- The state with a gang changed. -/
def State.onGang (s : State) (g : Nat) (f : Gang → Gang) : State := { s with gangs := s.gangs.modify g f }

/-- The state with the threads of a set of lanes of a gang changed. -/
def State.onLanes (s : State) (g : Nat) (lanes : DWord) (f : Nat → Thread → Thread) : State :=
  s.onGang g (·.onLanes lanes f)

/-- The state with one thread changed. -/
def State.onThread (s : State) (g l : Nat) (f : Thread → Thread) : State := s.onLanes g (laneBit l) fun _ => f

/-- A thread of the machine. -/
def State.thread (s : State) (g l : Nat) : Thread :=
  match s.gangs.find? g with
  | some G => G.thread l
  | none => Thread.absent

/-- The next serial number, and the state that has given it out. -/
def State.fresh (s : State) : Nat × State := (s.sn, { s with sn := s.sn + 1 })

/-- A free value, and the state that has used it (log 7). -/
def State.freeVal (s : State) : DWord × State := (Config.freeValue s.free, { s with free := s.free + 1 })

/-- A free choice below n, and the state that has used it; with at most one alternative nothing is chosen. -/
def State.choose (s : State) (n : Nat) : Nat × State :=
  if n ≤ 1 then (0, s) else (Config.pick s.free % n, { s with free := s.free + 1 })

/-! ## Outstanding work of a thread -/

/-- The access writes a class-L destination (R18). -/
def Access.classL (a : Access) : Bool :=
  match a.dest with
  | .queue _ _ => false
  | .none => match a.kind with | .load _ _ => true | _ => false
  | _ => true

/-- The access belongs to the thread. -/
def Access.of (a : Access) (g l : Nat) : Bool := a.gang == g && a.lane == l

/-- A transfer whose answer is a class-L result of the thread: a returning remote atomic, a POST (R147, R151). -/
def XferKind.classL (k : XferKind) (g l : Nat) : Bool :=
  match k with
  | .atomic _ g' l' _ _ _ d => g' == g && l' == l && d != .none
  | .post g' l' _ _ _ _ => g' == g && l' == l
  | _ => false

/-- The thread has a class-L result outstanding (R19). -/
def State.outstandingL (s : State) (g l : Nat) : Bool :=
  s.pending.any (fun p => p.gang == g && p.lane == l) || s.posts.any (fun p => p.gang == g && p.lane == l) ||
  s.accesses.any (fun a => a.of g l && a.classL) || s.transfers.any (·.kind.classL g l)

/-- The thread has a class-Q result outstanding (R20). -/
def State.outstandingQ (s : State) (g l : Nat) : Bool :=
  s.accesses.any fun a => a.of g l && (match a.dest with | .queue _ _ => true | _ => false)

/-- The state without the results of the words that issued at or after a serial number: what stood outstanding before a
chain (R22). -/
def State.beforeSn (s : State) (sn : Nat) : State :=
  { s with
    pending := s.pending.filter fun p => decide (p.sn < sn * 64)
    posts := s.posts.filter fun p => decide (p.sn < sn * 64)
    accesses := s.accesses.filter fun a => decide (a.sn < sn * 64)
    transfers := s.transfers.filter fun t => match t.kind with | .atomic o _ _ _ _ _ _ => decide (o.sn < sn * 64) | _ => true
    scaleLoads := s.scaleLoads.filter fun x => decide (x.sn < sn * 64)
    matOps := s.matOps.filter fun o => decide (o.sn < sn * 64) }

/-- The thread has an access not yet performed, a scale load outstanding, or its gang a matrix or accumulator operation
that still reads or writes scratch space (R140, R194, R205, R255). -/
def State.unperformed (s : State) (g l : Nat) : Bool :=
  s.accesses.any (·.of g l) || s.scaleLoads.any (fun x => x.gang == g && x.lane == l) ||
  s.matOps.any fun o => o.gang == g && inLanes o.lanes l

/-- A destination that discards its result. -/
def Dest.toNowhere : Dest → Dest
  | .queue q sx => .queue q sx
  | .none => .none
  | _ => .reg 63

/-- The thread's outstanding class-L results go nowhere when they arrive, but for those of the words that opened its region:
an aborting lane waits for them all before its snapshot stands (R220, R226). -/
def State.redirectResults (s : State) (g l : Nat) (born : Nat × Nat) : State :=
  let mine := fun (sn : Nat) => !decide (born.1 * 64 ≤ sn ∧ sn < born.2 * 64)
  { s with
    pending := s.pending.map fun p =>
      if p.gang = g ∧ p.lane = l ∧ mine p.sn then { p with dest := 63, mark := none } else p
    accesses := s.accesses.map fun a => if a.of g l && mine a.sn then { a with dest := a.dest.toNowhere } else a
    posts := s.posts.map fun p => if p.gang = g ∧ p.lane = l ∧ mine p.sn then { p with dest := 63 } else p
    transfers := s.transfers.map fun t =>
      { t with kind := match t.kind with
          | .atomic o g' l' op a x d => .atomic o g' l' op a x (if g' = g ∧ l' = l ∧ mine o.sn then d.toNowhere else d)
          | .post g' l' d ctx pa bs => .post g' l' (if g' = g ∧ l' = l then 63 else d) ctx pa bs
          | k => k } }

/-! ## L1 -/

/-- The key of a tensor line in a core's L1. -/
def l1Key (core pa : Nat) : Nat := core * 2 ^ 43 + (pa - 2 ^ 50) / 128

/-- The key of a control line in a core's L1. -/
def l1ControlKey (core pa : Nat) : Nat := core * 2 ^ 43 + 2 ^ 42 + pa / 128

/-- An L1 key is a tensor line's. -/
def isL1Tensor (k : Nat) : Bool := k % 2 ^ 43 / 2 ^ 42 == 0

/-- The cores whose L1s stand together with a core's: all of its cluster while the parts are fused (R274), else itself. -/
def State.l1Group (s : State) (core : Nat) : List Nat :=
  if s.fused.contains (core / 8) then natsFrom (core / 8 * 8) 8 else [core]

/-- The state with every tensor line of the L1 that a core uses invalidated, all eight parts of a fused one (R137, R274). -/
def State.invalidateL1 (s : State) (core : Nat) : State :=
  { s with l1 := s.l1.filter fun e => !(isL1Tensor e.1 && (s.l1Group core).contains (e.1 / 2 ^ 43)) }

/-- The part of the L1 that holds a core's copy of a line: its own, or in a fused L1 the one that the line selects (R274). -/
def State.l1Part (s : State) (core line : Nat) : Nat :=
  if s.fused.contains (core / 8) then core / 8 * 8 + line % 8 else core

/-- The key under which a core finds a tensor line, or a control line, in the L1 that it uses (R167, R274). -/
def State.lineKey (s : State) (core pa : Nat) : Nat :=
  if pa < 2 ^ 50 then l1ControlKey (s.l1Part core (pa / 128)) pa else l1Key (s.l1Part core ((pa - 2 ^ 50) / 128)) pa

/-- The set of an L1 in which a line stands; a fused L1 has eight times as many, of which a part holds those of its index (R167,
R274). -/
def State.l1Set (s : State) (key : Nat) : Nat :=
  if s.fused.contains (key / 2 ^ 43 / 8) then key / 8 % 512 else key % 512

/-- A line enters an L1: 512 sets of 8 ways; in a full set it takes the place of one of the eight (R167); which is free
(log 7). Of a control line, which the hardware keeps coherent, only its presence is held. -/
def State.fillL1 (s : State) (key : Nat) (bytes : List Byte) : State :=
  if (s.l1.find? key).isSome then { s with l1 := s.l1.put key bytes } else
  let set := (s.l1.map (·.1)).filter fun k => k / 2 ^ 43 == key / 2 ^ 43 && s.l1Set k == s.l1Set key
  if set.length < 8 then { s with l1 := s.l1.put key bytes }
  else
    let (i, s1) := s.choose set.length
    { s1 with l1 := (s1.l1.erase (nth 0 set i)).put key bytes }

/-- The physical key is of tensor space. -/
def isTensorKey (pa : Nat) : Bool := decide (2 ^ 50 ≤ pa ∧ pa < 2 ^ 52)
/-- The physical key is of scratch space. -/
def isScratchKey (pa : Nat) : Bool := decide (2 ^ 52 ≤ pa)

/-! ## Fault records and the end of a spawn -/

/-- The spawn of a gang. -/
def State.spawnOf (s : State) (g : Nat) : Option Spawn :=
  match s.gangs.find? g with
  | some G => s.spawns.find? G.spawn
  | none => none

/-- The fault record of a gang (Table 10.3) as its fields stand now. -/
def State.faultRec (s : State) (g : Nat) (c : Cause) (fatal : Bool) (pc : Word) (pos : Nat) : FaultRec :=
  let G := s.gangs.find? g
  let mem := c.code = 2 ∨ c.code = 3 ∨ c.code = 4 ∨ c.code = 5 ∨ c.code = 6 ∨ c.code = 11 ∨ c.code = 12 ∨ c.code = 13
  { die := dieOf g, cause := c.code, fatal := fatal, kind := if mem then c.kind else 0, word := pos, ticket := 0, pc := pc,
    spawnId := match s.spawnOf g with | some sp => sp.id | none => 0
    gang := match G with | some G => G.index | none => 0
    core := coreOf g, part := partOf g, va := pairOf c.lo c.hi, lanes := c.lanes, clock := loOf s.clk, formed := false,
    gangKey := if fatal then none else some g }

/-- A spawn begins to end with a status (R241 step 1: no thread of it issues again); of several causes one is the status
(R242). -/
def State.beginEnd (s : State) (sp status : Nat) : State :=
  match s.spawns.find? sp with
  | none => s
  | some p =>
    match p.ending with
    | none => { s with spawns := s.spawns.put sp { p with ending := some status, stopped := true } }
    | some old =>
      if old = status then s else
      let (n, s') := s.choose 2
      { s' with spawns := s'.spawns.put sp { p with ending := some (if n = 0 then old else status), stopped := true } }

/-- The end of a gang's spawn for a cause, with its fatal record (R241, R242). -/
def State.endFor (s : State) (g : Nat) (c : Cause) (pc : Word) (pos : Nat) : State :=
  match s.gangs.find? g with
  | none => s
  | some G => { s.beginEnd G.spawn c.code with faults := s.faults ++ [s.faultRec g c true pc pos] }

/-! ## Atomic regions -/

/-- The thread after its region aborts with a cause of Table 9.3 (R226). -/
def Thread.abort (t : Thread) (cause code : Nat) : Thread :=
  match t.region with
  | none => t
  | some r =>
    { t with
      regs := r.snapshot
      latch := []
      region := none
      axCause := cause
      axCode := if cause = 5 then code else 0
      axCount := if t.axCount < 255 then t.axCount + 1 else 255
      pc := r.fallback
      pos := 0
      jump := none
      wait := none
      grant := none
      park := false
      fence := none
      issued := none
      held := [] }

/-- The lanes of a set abort their regions (R226), with FAULT where a TRAP or BRK of the chain has already run in the lane (R228):
each goes on at its fallback once its outstanding class-L results have come, which its snapshot overrides. -/
def State.abortLanes (s : State) (g : Nat) (lanes : DWord) (cause code : Nat) : State :=
  let s1 := (laneList lanes).foldl
    (fun s l => match (s.thread g l).region with | some r => s.redirectResults g l r.born | none => s) s
  s1.onLanes g lanes fun l t => { t.abort (if t.swTrap.isSome then 6 else cause) code with park := t.region.isSome && s1.outstandingL g l }

/-- The thread is in a region: the words chained with the AXB that opens it are not (R212, R220). -/
def Thread.inRegion (t : Thread) : Bool :=
  match t.region with
  | some r => !r.fresh
  | none => false

/-- The lanes of a set that are in a region. -/
def State.regionLanes (s : State) (g : Nat) (lanes : DWord) : DWord :=
  laneSet ((laneList lanes).filter fun l => (s.thread g l).inRegion)

/-- The thread's region status word (Table 9.3). -/
def Thread.axStatus (t : Thread) : Word :=
  BitVec.ofNat 32 (t.axCode * 65536 + t.axCount * 256 + (if 4 ≤ t.axCount then 128 else 0) + t.axCause)

/-! ## Taking an exception and returning from one -/

/-- The thread in its handler (R237): the trap registers hold the cause, the resume point and the address; handler mode
is set; the next packet is TRAPVEC's; latch entries expire (R238). -/
def Thread.enterHandler (t : Thread) (r : TrapReq) : Thread :=
  { t with
    trapcause := BitVec.ofNat 32 r.cause
    trappc := r.pc
    trapLo := r.lo
    trapHi := r.hi
    resumePos := r.pos
    handler := true
    pc := t.trapvec
    pos := 0
    latch := []
    trap := none
    wait := none
    grant := none
    fence := none
    jump := none
    issued := none
    held := [] }

/-- The thread back from its handler at the resume point (R106, R239). -/
def Thread.leaveHandler (t : Thread) : Thread := { t with handler := false, pc := t.trappc, pos := t.resumePos }

/-- Handler entry waits for outstanding class-L and class-Q results and for the earlier accesses (R238). -/
def State.entryReady (s : State) (g l : Nat) : Bool :=
  !s.outstandingL g l && !s.outstandingQ g l && !s.unperformed g l

/-- The lanes of an entering set enter their handlers: at once where nothing of any of them is outstanding, else when
HANDLER_ENTRY finds it so. Entry acts as FENCE.pod, so it invalidates the core's L1 tensor lines (R237, R238, R137). -/
def State.takeTraps (s : State) (g : Nat) (entering : DWord) (req : Nat → TrapReq) : State :=
  if (laneList entering).all (s.entryReady g) then
    (s.onLanes g entering fun l t => t.enterHandler (req l)).invalidateL1 (coreOf g)
  else s.onLanes g entering fun l t => { t with trap := some { req l with set := entering }, wait := none, grant := none }

/-- A program-class cause taken by an entering set, each lane with its own request: the handlers are entered, or the
spawn ends where a lane is in handler mode or has TRAPVEC 0 (R237). -/
def State.enterOrEnd (s : State) (g : Nat) (entering : DWord) (c : Cause) (pc : Word) (pos : Nat)
    (req : Nat → TrapReq) : State :=
  if (laneList entering).any fun l => (s.thread g l).handler || (s.thread g l).trapvec == 0#32 then
    s.endFor g c pc pos
  else s.takeTraps g entering req

/-- A gang stops replayable (R233, R234): its record's fields are kept as they stand. A second group of the same gang issue cycle joins the
first: the record shows the lanes of both, and the address and the resume point of the lowest. -/
def State.stopReplayable (s : State) (g : Nat) (lanes entering : DWord) (c : Cause) (pc : Word) (pos : Nat) : State :=
  match s.gangs.find? g with
  | none => s
  | some G =>
    match G.stop with
    | some st =>
      let low := decide (lowestLane lanes < lowestLane st.lanes)
      let st1 : Stop := { st with lanes := st.lanes ||| lanes, entering := st.entering ||| entering }
      let st2 : Stop := if low then { st1 with va := pairOf c.lo c.hi, kind := c.kind, pc := pc, pos := pos } else st1
      { s.onGang g fun G => { G with stop := some st2 } with
        faults := s.faults.map fun r =>
          if r.gangKey = some g ∧ !r.formed then { r with lanes := st2.lanes, va := st2.va, kind := st2.kind, pc := st2.pc, word := st2.pos }
          else r }
    | none =>
      let s := s.onGang g fun G =>
        { G with stop := some ⟨lanes, entering, pairOf c.lo c.hi, c.kind, pc, pos, s.clk, none⟩ }
      { s with faults := s.faults ++ [s.faultRec g c false pc pos] }

/-- A synchronous cause of an executed word is taken (R231 to R237, R228): TRANSLATION stops the gang replayable, every
other cause is of the program class. Lanes in a region abort with cause FAULT first and resume at their fallback. -/
def State.takeCause (s : State) (c : IssueCtx) (k : Cause) : State :=
  if k.code = 2 then
    let inR := s.regionLanes c.gang k.lanes
    let s1 := s.abortLanes c.gang inR 6 0
    let low := lowestLane k.lanes
    let place := if inLanes inR low then ((s1.thread c.gang low).pc, 0) else (c.pc, c.first)
    s1.stopReplayable c.gang k.lanes c.lanes k place.1 place.2
  else
    let inR := s.regionLanes c.gang c.lanes
    let s1 := s.abortLanes c.gang inR 6 0
    let place := fun l => if inLanes inR l then ((s1.thread c.gang l).pc, 0) else (c.pc, c.first)
    let low := place (lowestLane k.lanes)
    s1.enterOrEnd c.gang c.lanes k low.1 low.2 fun l => ⟨k.code, (place l).1, (place l).2, k.lo, k.hi, false, 0⟩

/-! ## Translation -/

/-- The permission bits of a leaf (Table 20.3). -/
def Leaf.valid (f : Leaf) : Bool := f.entry % 2 == 1
def Leaf.r (f : Leaf) : Bool := bitsOf f.entry 1 1 == 1
def Leaf.w (f : Leaf) : Bool := bitsOf f.entry 2 1 == 1
def Leaf.a (f : Leaf) : Bool := bitsOf f.entry 3 1 == 1
def Leaf.e (f : Leaf) : Bool := bitsOf f.entry 4 1 == 1
def Leaf.z (f : Leaf) : Bool := bitsOf f.entry 5 1 == 1
def Leaf.spread (f : Leaf) : Bool := f.bits != 16 && bitsOf f.entry 6 1 == 1

/-- The physical address of the next table a non-leaf entry names, if the entry is valid and well formed (R347). -/
def nextTable (e : Nat) : Option Nat :=
  if e % 2 = 1 ∧ bitsOf e 45 4 = 0 then some (bitsOf e 12 33 * 4096) else none

/-- A spread frame of a page of 2^n bytes keeps the alignment of R305. -/
def spreadOk (e n : Nat) : Bool := bitsOf e 6 1 == 0 || (bitsOf e 36 3 == 0 && bitsOf e 12 37 * 4096 % 2 ^ (n - 3) == 0)

/-- The address of a walk's entry at the root (Table 20.2). -/
def rootEntry (root va : Nat) : Nat := root / 8192 * 8192 + 8 * (bitsOf va 61 1 * 512 + bitsOf va 39 9)

/-- The walk of a page-table tree from its root over entries read by level and address (R345 to R347): the leaf with its page size in
bits and the address of its entry, or none where TRANSLATION is raised; S of a control leaf is not read (R346). -/
def walkBy (rd : Nat → Nat → Nat) (root va : Nat) : Option (Leaf × Nat) := do
  let tensor := bitsOf va 61 1 == 1
  let t2 ← nextTable (rd 3 (rootEntry root va))
  let a2 := t2 + 8 * bitsOf va 30 9
  let e2 := rd 2 a2
  if tensor && bitsOf e2 8 1 == 1 then
    if e2 % 2 == 1 && spreadOk e2 30 then some (⟨bitsOf e2 12 37 * 4096, 30, e2⟩, a2) else none
  else if bitsOf e2 8 1 == 1 then none else do
  let t1 ← nextTable e2
  let a1 := t1 + 8 * bitsOf va 21 9
  let e1 := rd 1 a1
  if tensor then
    if bitsOf e1 8 1 == 1 && e1 % 2 == 1 && spreadOk e1 21 then some (⟨bitsOf e1 12 37 * 4096, 21, e1⟩, a1) else none
  else if bitsOf e1 8 1 == 1 then none else do
  let t0 ← nextTable e1
  let a0 := t0 + 8 * bitsOf va 16 5
  let e0 := rd 0 a0
  if e0 % 2 == 1 && bitsOf e0 45 4 == 0 then some (⟨bitsOf e0 12 37 * 4096, 16, e0⟩, a0) else none

/-- The walk over the entries that memory holds. -/
def walk (m : Memory) (root va : Nat) : Option (Leaf × Nat) := walkBy (fun _ a => m.num a 8) root va

/-- The levels and addresses of the entries that a walk reads. -/
def walkPath (rd : Nat → Nat → Nat) (root va : Nat) : List (Nat × Nat) :=
  let a3 := rootEntry root va
  (3, a3) :: match nextTable (rd 3 a3) with
  | none => []
  | some t2 =>
    let a2 := t2 + 8 * bitsOf va 30 9
    (2, a2) :: if bitsOf (rd 2 a2) 8 1 = 1 then [] else match nextTable (rd 2 a2) with
    | none => []
    | some t1 =>
      let a1 := t1 + 8 * bitsOf va 21 9
      (1, a1) :: if bitsOf (rd 1 a1) 8 1 = 1 ∨ bitsOf va 61 1 = 1 then [] else match nextTable (rd 1 a1) with
      | none => []
      | some t0 => [(0, t0 + 8 * bitsOf va 16 5)]

/-- The physical key of an address under its leaf (R305, R343, R344). -/
def Leaf.key (f : Leaf) (va : Nat) : Nat :=
  let p := va % 2 ^ f.bits
  if f.bits = 16 then f.frame / 2 ^ 16 * 2 ^ 16 + p
  else if f.spread then
    2 ^ 50 + f.frame / 2 ^ 39 * 2 ^ 39 + p / 8192 % 8 * 2 ^ 36 +
      (f.frame % 2 ^ 36 + p / 65536 * 8192 + p % 8192)
  else 2 ^ 50 + f.frame / 2 ^ f.bits * 2 ^ f.bits + p

/-- The package an address's page lies at. -/
def keyHome (k : Nat) : Nat := if k < 2 ^ 50 then k / 2 ^ 35 else (k - 2 ^ 50) / 2 ^ 39

/-- A field of a context's entry (Table 16.2). -/
def State.ctxField (s : State) (ctx off n : Nat) : Nat := s.mem.num (s.ctxBase + 64 * ctx + off) n
/-- The context's page-table root. -/
def State.ptRoot (s : State) (ctx : Nat) : Nat := s.ctxField ctx 0 8
/-- The context's tenant. -/
def State.tenant (s : State) (ctx : Nat) : Nat := s.ctxField ctx 0x18 2
/-- The context's translation tag. -/
def State.asid (s : State) (ctx : Nat) : Nat := s.ctxField ctx 0x1A 2

/-- The bits of the addresses that an entry of a level covers (Table 20.2). -/
def levelBits (level : Nat) : Nat := match level with | 0 => 16 | 1 => 21 | 2 => 30 | _ => 39

/-- The address bits that a walk reads: bit 61 above bits [47:0] (R342). -/
def walkVa (va : Nat) : Nat := bitsOf va 61 1 * 2 ^ 48 + va % 2 ^ 48

/-- The key of the entry of a level that covers an address, and of the first entry of its table's page (R348). -/
def entryKey (asid level va : Nat) : Nat := (asid * 4 + level) * 2 ^ 49 + walkVa va / 2 ^ levelBits level * 2 ^ levelBits level
def pageKey (asid level va : Nat) : Nat :=
  let n := levelBits level + (if level = 0 then 5 else 9)
  (asid * 4 + level) * 2 ^ 49 + walkVa va / 2 ^ n * 2 ^ n
/-- The level that a key names. -/
def keyLevel (k : Nat) : Nat := k / 2 ^ 49 % 4

/-- The buffers after a walk has read entries of an ASID for an address (R348). -/
def Tlb.note (t : Tlb) (asid va : Nat) (path : List (Nat × Nat)) : Tlb :=
  { t with tables := path.foldl (fun m e =>
      let ks := m.get [] (e.2 / 4096)
      let k := pageKey asid e.1 va
      if ks.contains k then m else m.put (e.2 / 4096) (ks ++ [k])) t.tables }

/-- An entry that a buffer or a walker may hold: valid, and with Z clear in a leaf (R348). -/
def heldEntry (level e : Nat) : Bool :=
  e % 2 == 1 && !((level == 0 || (level != 3 && bitsOf e 8 1 == 1)) && bitsOf e 5 1 == 1)

/-- The buffers after a write to a table that a walk has read: what a valid entry held is kept until an invalidation covers it (R348). -/
def Tlb.changed (t : Tlb) (old new : Memory) (pa n : Nat) : Tlb :=
  if t.tables.isEmpty ∨ 2 ^ 50 ≤ pa then t else
  (natsFrom (pa / 8) ((pa + n + 7) / 8 - pa / 8)).foldl (fun (t : Tlb) w =>
    (t.tables.get [] (w * 8 / 4096)).foldl (fun (t : Tlb) k =>
      let i := w % 512
      let e := old.num (w * 8) 8
      let key := k + i * 2 ^ levelBits (keyLevel k)
      if (keyLevel k = 0 ∧ 32 ≤ i) ∨ e = new.num (w * 8) 8 ∨ !heldEntry (keyLevel k) e then t
      else
        let vs := t.olds.get [] key
        if vs.contains e then t else { t with olds := t.olds.put key (vs ++ [e]) }) t) t

/-- The result of a translation: a leaf, a held access whose frame is to be zeroed, or none. -/
inductive Xlate where
  | leaf (f : Leaf)
  | held (f : Leaf)
  | missing
deriving DecidableEq, Repr

/-- For each level, the value that an access through an address takes for its entry in place of what memory holds: while one that it has
held is not yet invalidated, which of them, or none of them, is free (R348). -/
def State.oldPicks (s : State) (asid va : Nat) : SMap Nat × State :=
  if s.tlb.olds.isEmpty then ([], s) else
  (natsFrom 0 4).foldl (fun (acc : SMap Nat × State) level =>
    let vs := s.tlb.olds.get [] (entryKey asid level va)
    if vs.isEmpty then acc else
    let (i, s1) := acc.2.choose (vs.length + 1)
    (if i < vs.length then acc.1.put level (nth 0 vs i) else acc.1, s1)) ([], s)

/-- The translation of a control or tensor address in a context (R345 to R348, R351): the leaf of a walk over the entries as memory holds
them, or as they were where that is still allowed. -/
def State.xlate (s : State) (ctx : Nat) (va : DWord) : Xlate × State :=
  let v := va.toNat
  let asid := s.asid ctx
  let (picks, s1) := s.oldPicks asid v
  let rd := fun level a => match picks.find? level with | some e => e | none => s.mem.num a 8
  let s2 : State := { s1 with tlb := s1.tlb.note asid v (walkPath rd (s.ptRoot ctx) v) }
  match walkBy rd (s.ptRoot ctx) v with
  | none => (.missing, s2)
  | some (f, at_) =>
    if f.z then
      let z : Zeroing := ⟨at_, f.entry, f.key (v / 2 ^ f.bits * 2 ^ f.bits), 2 ^ f.bits, f.spread, false, []⟩
      (.held f, if s2.zeroing.any (fun y => y.entryAt == at_) then s2 else { s2 with zeroing := s2.zeroing ++ [z] })
    else (.leaf f, s2)

/-! ## Scratch space -/

/-- The window of a team that covers a team slot and whose handle the team still holds (R165). -/
def State.windowFor (s : State) (team slot : Nat) : Option Window :=
  match s.teams.find? team with
  | none => none
  | some T =>
    (T.windows.map (·.2)).find? fun w =>
      decide (w.base ≤ slot ∧ slot < w.base + w.count) &&
      (match s.handles.find? w.handle with | some h => h.valid && h.holder == team | none => false)

/-- The physical key of a byte of a team's scratch space, or none where SCRATCH_NOT_HELD is raised (R164, R165). The
cluster is the team's: windows name cores within it. -/
def State.scratchKey (s : State) (cluster team off : Nat) : Option Nat :=
  match s.windowFor team (off / 8192) with
  | none => none
  | some w => some (2 ^ 52 + (cluster * 8 + w.core) * 2 ^ 20 + (w.pfirst + (off / 8192 - w.base)) * 8192 + off % 8192)

/-- The handle that covers a team slot holds an uncorrectable error (R277). -/
def State.handlePoisoned (s : State) (team slot : Nat) : Bool :=
  match s.windowFor team slot with
  | none => false
  | some w => match s.handles.find? w.handle with | some h => h.poisoned | none => false

/-! ## Poison -/

/-- The size of the poison unit at a key (R141): a 16-byte granule in scratch, a 128-byte line elsewhere. -/
def unitSize (pa : Nat) : Nat := if isScratchKey pa then 16 else 128
/-- The first key of the poison unit of a key. -/
def unitOf (pa : Nat) : Nat := pa / unitSize pa * unitSize pa
/-- The unit of a key is poisoned. -/
def State.unitPoisoned (s : State) (pa : Nat) : Bool := s.poison.contains (.unit (unitOf pa))
/-- The register of a thread is poisoned (R243). -/
def State.regPoisoned (s : State) (g l r : Nat) : Bool := s.poison.contains (.reg g l r)
/-- The state without one poisoned datum. -/
def State.cure (s : State) (d : Datum) : State := { s with poison := s.poison.filter (· != d) }

/-! ## Writing memory and the watch tables -/

/-- The condition of a watch entry on a word (R153). -/
def watchHolds (cmp : Nat) (w value mask : Word) : Bool :=
  let a := (w &&& mask).toNat
  let b := (value &&& mask).toNat
  match cmp with
  | 0 => a == b
  | 1 => a != b
  | 2 => decide (b ≤ a)
  | _ => decide (a < b)

/-- The die whose L2 homes a stack-local tensor key (R298, R305). -/
def homeDie (pa : Nat) : Nat := (pa - 2 ^ 50) / 2 ^ 36 % 8 / 2

/-- The watch entry evaluated on a value of its word; once fired it stays fired (R153). -/
def Watch.eval (w : Watch) (v : Word) : Watch :=
  { w with fired := w.fired || watchHolds w.cmp v w.value w.mask, late := false }

/-- The watch entries after a write of n bytes at a key by a core's die or by an engine: an entry whose slice performs the
write is evaluated at once; the others hear of it later (R153, R303). -/
def evalWatches (m : Memory) (die : Option Nat) (pa n : Nat) (ws : List Watch) : List Watch :=
  ws.map fun w =>
    if w.pa < pa + n ∧ pa < w.pa + 4 then
      if (if isTensorKey pa then homeDie pa == w.die else die == some w.die) then w.eval (BitVec.ofNat 32 (m.num w.pa 4))
      else { w with late := true }
    else w

/-- Two byte ranges overlap. -/
def overlaps (p n q m : Nat) : Bool := decide (p < q + m ∧ q < p + n)

/-- Bytes at a key with another range's bytes laid over them. -/
def overlay (pa : Nat) (bytes : List Byte) (q : Nat) (upper : List Byte) : List Byte :=
  mapNumbered (fun i b => if q ≤ pa + i ∧ pa + i < q + upper.length then nth b upper (pa + i - q) else b) 0 bytes

/-- The bytes of control memory that a write changes while spawns are live, with what they were (R40). -/
def State.oldBytes (s : State) (pa : Nat) (bytes : List Byte) : SMap (Byte × DWord) :=
  if s.spawns.isEmpty ∨ 2 ^ 50 ≤ pa then s.rewritten else
  (mapNumbered (fun i b => (pa + i, b)) 0 bytes).foldl
    (fun m e => if s.mem.byte e.1 = e.2 then m else m.put e.1 (s.mem.byte e.1, s.clk)) s.rewritten

/-- The L1 lines after a write: the writing core's copy of a tensor line is updated, other copies stay as they are; of a control
line the other copies go (R167). -/
def State.l1After (s : State) (core : Option Nat) (pa : Nat) (bytes : List Byte) : SMap (List Byte) :=
  if isScratchKey pa || s.l1.isEmpty then s.l1
  else if isTensorKey pa then
    match core with
    | none => s.l1
    | some c => s.l1.mapVals fun k line =>
        let at_ := 2 ^ 50 + k % 2 ^ 43 * 128
        if isL1Tensor k && (s.l1Group c).contains (k / 2 ^ 43) && overlaps at_ 128 pa bytes.length then overlay at_ line pa bytes
        else line
  else
    s.l1.filter fun e =>
      isL1Tensor e.1 || !overlaps (e.1 % 2 ^ 42 * 128) 128 pa bytes.length ||
      (match core with | some c => (s.l1Group c).contains (e.1 / 2 ^ 43) | none => false)

/-- The scratch keys that a product reads while it runs. -/
def MatKind.operandKeys : MatKind → List Nat
  | .product _ _ _ a _ b _ _ _ _ => b :: a.toList
  | _ => []

/-- The matrix operations after a write: what a byte of an operand slot held before it is noted (R193). -/
def State.noteOlds (s : State) (pa : Nat) (bytes : List Byte) : List MatOp :=
  if !isScratchKey pa then s.matOps else
  s.matOps.map fun o =>
    if o.kind.operandKeys.any fun k => overlaps k 8192 pa bytes.length then
      { o with olds := (mapNumbered (fun i b => (pa + i, b)) 0 bytes).foldl (fun m e =>
          if s.mem.byte e.1 = e.2 || !(o.kind.operandKeys.any fun k => overlaps k 8192 e.1 1) then m
          else m.put e.1 (m.get [] e.1 ++ [s.mem.byte e.1])) o.olds }
    else o

/-- Bytes performed at their point of coherence, with the watch entries evaluated and the writing core's present L1 lines
updated, and what tables held before them kept (R139, R153, R167, R348). -/
def State.performBytes (s : State) (core : Option Nat) (pa : Nat) (bytes : List Byte) : State :=
  let m := s.mem.write pa bytes
  { s with
    mem := m, l1 := s.l1After core pa bytes, rewritten := s.oldBytes pa bytes, matOps := s.noteOlds pa bytes
    tlb := s.tlb.changed s.mem m pa bytes.length
    watches := evalWatches m (core.map (· / 96)) pa bytes.length s.watches }

/-- A gang's write comes before its later matrix operations, which see nothing older at its bytes (R194). -/
def State.orderOlds (s : State) (g sn pa n : Nat) : State :=
  { s with matOps := s.matOps.map fun o =>
      if o.gang = g ∧ sn < o.sn then { o with olds := o.olds.filter fun e => !overlaps e.1 1 pa n } else o }

/-- An engine's bytes: performed, with every core's L1 copy of the lines invalidated (R292, R361). -/
def State.engineBytes (s : State) (pa : Nat) (bytes : List Byte) : State :=
  let s1 := s.performBytes none pa bytes
  if isTensorKey pa then
    { s1 with l1 := s1.l1.filter fun e =>
        let line := e.1 % 2 ^ 43
        !isL1Tensor e.1 || decide ((line + 1) * 128 ≤ pa - 2 ^ 50) || decide (pa - 2 ^ 50 + bytes.length ≤ line * 128) }
  else s1

/-! ## Bytes that a collective run writes (R409) -/

/-- A run in progress, other than the party's own, writes the byte of a key. -/
def State.inRun (s : State) (own : Option Nat) (k : Nat) : Bool :=
  s.runs.any fun r => some r.sn != own && r.dests.any fun d => decide (d.1 ≤ k ∧ k < d.1 + d.2)

/-- Bytes at a key as a party reads them: those that another's run in progress writes are undefined to it (R409, R7). -/
def State.murk (s : State) (own : Option Nat) (pa : Nat) (bytes : List Byte) : List Byte × State :=
  if s.runs.all (·.dests.isEmpty) then (bytes, s) else
  (mapNumbered (fun i b => (pa + i, b)) 0 bytes).foldl (fun (acc : List Byte × State) e =>
    if acc.2.inRun own e.1 then
      let (v, s1) := acc.2.freeVal
      (acc.1 ++ [v.setWidth 8], s1)
    else (acc.1 ++ [e.2], acc.2)) ([], s)

/-- Memory as a party reads it at some ranges (R409). -/
def State.asRead (s : State) (own : Option Nat) (ranges : List (Nat × Nat)) : Memory × State :=
  if s.runs.all (·.dests.isEmpty) then (s.mem, s) else
  ranges.foldl (fun (acc : Memory × State) r =>
    let (bs, s1) := acc.2.murk own r.1 (s.mem.read r.1 r.2)
    (acc.1.write r.1 bs, s1)) (s.mem, s)

/-- Bytes that a party writes: where another's run in progress writes too, they leave free values, and what is there stays undefined when
the run has ended (R409). -/
def State.murkWrite (s : State) (own : Option Nat) (pa : Nat) (bytes : List Byte) : List Byte × State :=
  if s.runs.all (·.dests.isEmpty) then (bytes, s) else
  let (bs, s1) := s.murk own pa bytes
  (bs, { s1 with runs := s1.runs.map fun r =>
    if own == some r.sn then r
    else { r with spoiled := r.spoiled ++
      ((natsFrom pa bytes.length).filter fun k => r.dests.any fun d => decide (d.1 ≤ k ∧ k < d.1 + d.2)) } })

end Sys2Proof.Machine
end

