-- ==== Sys2Proof/Machine/Operands.lean ====
section
/-! DEFINITION. The operand forms (R45 to R47): registers, pairs, quads, latch entries and queue entries; the operand
latch (R16, R17); and the shared frame in which every word executes: its tests before any effect, its results, its
latch push, its park and its retirement. -/

namespace Sys2Proof.Machine

open Sys2Proof

/-- How a word uses a field: not at all or as a literal, as a register, as a pair, as a quad (R45 to R47). -/
inductive Use where
  | unused | reg | pair | quad
deriving DecidableEq, Repr

/-- The registers v0 to v55 that a field names under a use (R45, R46). -/
def Use.regs (u : Use) (e : Nat) : List Nat :=
  if 56 ≤ e then [] else
  match u with
  | .unused => []
  | .reg => [e]
  | .pair => [e / 2 * 2, e / 2 * 2 + 1]
  | .quad => natsFrom (e / 4 * 4) 4

/-- The field pops a queue entry when read (R45, R46): only a single register can be a queue. -/
def Use.pops (u : Use) (e : Nat) : Bool := u == .reg && decide (60 ≤ e)

/-- A register, latch or constant operand as a source; a queue encoding reads zero here (R45). -/
def Thread.src (t : Thread) (e : Nat) : Word :=
  if e = 0 then 0
  else if e < 56 then t.regs.get 0 e
  else if e < 59 then
    match nth (0, 0) t.latch (e - 56) with
    | (v, life) => if life = 0 then 0 else v
  else 0

/-- The filled entry at the head of a queue, 0 if there is none. -/
def Thread.queueHead (t : Thread) (q : Nat) : Word :=
  match nth [] t.queues q with
  | .filled v :: _ => v
  | _ => 0

/-- The thread with the head of a queue popped (R20). -/
def Thread.pop (t : Thread) (q : Nat) : Thread :=
  { t with queues := setNth t.queues q ((nth [] t.queues q).drop 1) }

/-- How many entries at the head of a queue are filled. -/
def filledCount : List QEntry → Nat
  | .filled _ :: t => filledCount t + 1
  | _ => 0

/-- A field read as a source: registers from the view before the chain, queue entries from the thread as it stands (R20,
R22). A single register reads into the low word. -/
def readField (view cur : Thread) (u : Use) (e : Nat) : DWord × Thread :=
  match u with
  | .unused => (0, cur)
  | .reg => if 60 ≤ e then ((cur.queueHead (e - 60)).setWidth 64, cur.pop (e - 60)) else ((view.src e).setWidth 64, cur)
  | _ => if 56 ≤ e then (0, cur) else (pairOf (view.src (e / 2 * 2)) (view.src (e / 2 * 2 + 1)), cur)

/-- The two words of a pair's upper pair, for a quad source (R46). -/
def readQuadHigh (view : Thread) (e : Nat) : DWord :=
  if 56 ≤ e then 0 else pairOf (view.src (e / 4 * 4 + 2)) (view.src (e / 4 * 4 + 3))
/-- The two words of a quad's lower pair. -/
def readQuadLow (view : Thread) (e : Nat) : DWord :=
  if 56 ≤ e then 0 else pairOf (view.src (e / 4 * 4)) (view.src (e / 4 * 4 + 1))

/-- A register written: v1 to v55, other encodings discarding (R45). -/
def Thread.setReg (t : Thread) (r : Nat) (v : Word) : Thread :=
  if r = 0 ∨ 56 ≤ r then t else { t with regs := t.regs.set 0 r v }

/-- A result written to a destination field (R45, R46). -/
def Thread.writeDest (t : Thread) (u : Use) (e : Nat) (v : DWord) : Thread :=
  match u with
  | .unused => t
  | .reg => t.setReg e (loOf v)
  | _ => if 56 ≤ e then t else (t.setReg (e / 2 * 2) (loOf v)).setReg (e / 2 * 2 + 1) (hiOf v)

/-- Every latch entry loses one unit of life (R17). -/
def Thread.ageLatch (t : Thread) : Thread := { t with latch := t.latch.map fun e => (e.1, e.2 - 1) }

/-- A value pushed into the latch with a life (R16). -/
def Thread.pushLatch (t : Thread) (v : Word) (life : Nat) : Thread := { t with latch := ((v, life) :: t.latch).take 3 }

/-! ## Regions: tags and pins -/

/-- The loads that a relation's side names. -/
def Side.loads : Side → List Nat
  | .sym t => [t.load]
  | .con _ => []

/-- The loads that a mark names. -/
def Mark.loads : Mark → List Nat
  | .tag t => [t.load]
  | .rel r => r.l.loads ++ r.r.loads

/-- The region with a list of its loads pinned. -/
def Region.pin (r : Region) (ls : List Nat) : Region :=
  { r with loads := mapNumbered (fun i x => if ls.contains i then { x with pinned := true } else x) 0 r.loads }

/-- The mark that covers a register: its own, or the pair tag of the pair it is half of (R217); v0 reads zero and has none. -/
def Region.markOf (r : Region) (v : Nat) : Option Mark :=
  if v = 0 then none else
  match r.marks.find? v with
  | some m => some m
  | none =>
    match r.marks.find? (v / 2 * 2) with
    | some (.tag t) => if t.pair then some (.tag t) else none
    | _ => none

/-- The region with the marks of written registers removed. -/
def Region.unmark (r : Region) (vs : List Nat) : Region :=
  { r with marks := vs.foldl (fun m v =>
      if v = 0 then m else
      let m1 := m.erase v
      match m1.find? (v / 2 * 2) with
      | some (.tag t) => if t.pair then m1.erase (v / 2 * 2) else m1
      | _ => m1) r.marks }

/-- The thread with its region changed. -/
def Thread.onRegion (t : Thread) (f : Region → Region) : Thread := { t with region := t.region.map f }

/-- The thread after an ordinary read of registers in a region: every load they depend on is pinned (R217). -/
def Thread.pinReads (t : Thread) (view : Thread) (vs : List Nat) : Thread :=
  match view.region with
  | none => t
  | some r => t.onRegion (·.pin (vs.flatMap fun v => ((r.markOf v).map Mark.loads).getD []))

/-- The thread after registers are written with concrete values. -/
def Thread.unmark (t : Thread) (vs : List Nat) : Thread := t.onRegion (·.unmark vs)

/-! ## The frame of a word -/

/-- What a word does with its fields: the uses of D, A and B as sources, D's use as a destination, whether the word reads
H (R16), and whether its result is class L (R18). -/
structure Shape where
  d : Use := .unused
  a : Use := .unused
  b : Use := .unused
  dst : Use := .unused
  latch : Bool := true
  classL : Bool := false
deriving DecidableEq, Repr

/-- The values a lane's word reads; a single register stands in the low word. -/
structure Vals where
  d : DWord
  a : DWord
  b : DWord
deriving DecidableEq, Repr

/-- The low words. -/
def Vals.d32 (v : Vals) : Word := loOf v.d
def Vals.a32 (v : Vals) : Word := loOf v.a
def Vals.b32 (v : Vals) : Word := loOf v.b

/-- A lane's result and the arithmetic causes it raises (Table 3.2). -/
structure Res where
  val : DWord
  causes : List Nat := []
deriving DecidableEq, Repr

/-- The registers a word reads as sources. -/
def Shape.reads (sh : Shape) (fd fa fb : Nat) : List Nat := sh.d.regs fd ++ sh.a.regs fa ++ sh.b.regs fb

/-- The word pops a queue entry. -/
def Shape.popsAny (sh : Shape) (fa fb : Nat) : Bool := sh.a.pops fa || sh.b.pops fb

/-- A lane's sources, and its thread after the pops, operand A before operand B (R20); D never pops. -/
def Shape.readLane (sh : Shape) (fd fa fb : Nat) (view cur : Thread) : Vals × Thread :=
  let (a, c1) := readField view cur sh.a fa
  let (b, c2) := readField view c1 sh.b fb
  let d := if sh.d.pops fd then 0 else (readField view cur sh.d fd).1
  (⟨d, a, b⟩, c2)

/-- The value that H pushes: the value read for A or B, or the result; zero where the field is no register of this word
or the result is not class F (R16). -/
def Shape.pushValue (sh : Shape) (h : Nat) (v : Vals) (res : DWord) : Word :=
  match h with
  | 1 => if sh.a = .unused then 0 else v.a32
  | 2 => if sh.b = .unused then 0 else v.b32
  | _ => if sh.classL ∨ sh.dst = .unused then 0 else loOf res

/-- The thread after the word's latch push, aged by the word (R16, R17); an entry pushed inside a chain keeps its two
units for the words after the chain. -/
def Thread.latchStep (t : Thread) (sh : Shape) (h rest : Nat) (v : Vals) (res : DWord) : Thread :=
  if sh.latch ∧ h ≠ 0 then t.ageLatch.pushLatch (sh.pushValue h v res) (2 + rest) else t.ageLatch

/-- The word's cause is recorded, and taken at once where the word stands alone (R22, R231). -/
def State.raise (s : State) (c : IssueCtx) (k : Cause) : State :=
  if c.chained then { s with ctx := some { c with cause := some k } }
  else { s.takeCause c k with ctx := some { c with cause := some k } }

/-- The first test of every word that names registers: XBLOCK where v32 to v55 is named without the extended block (R13). -/
def xblockRaised (view : Gang) (named : List Nat) : Bool := !view.xblk && named.any (32 ≤ ·)

/-- The lanes of a set that read a poisoned register, with the register of the lowest (R243). -/
def State.poisonedReads (s : State) (g : Nat) (lanes : DWord) (reads : List Nat) : List (Nat × Nat) :=
  if s.poison.isEmpty then [] else
  (laneList lanes).filterMap fun l => (reads.find? fun r => s.regPoisoned g l r).map fun r => (l, r)

/-- The state with the poison of written registers cleared (R243). -/
def State.cureRegs (s : State) (g : Nat) (lanes : DWord) (regs : List Nat) : State :=
  if s.poison.isEmpty then s else
  { s with poison := s.poison.filter fun d =>
      match d with
      | .reg g' l r => !(g' == g && inLanes lanes l && regs.contains r)
      | _ => true }

/-- Some lanes of the word abort their regions with a cause and leave the word; it goes on in the others (R214). A software trap
or an EXIT of the chain that has run in such a lane stands (R104, R105, R228; log 86). -/
def State.screenLanes (s : State) (c : IssueCtx) (out : DWord) (axCause : Nat) : State × IssueCtx :=
  if out = 0#64 then (s, c) else
  let c' := { c with lanes := c.lanes &&& ~~~out }
  ({ s.abortLanes c.gang out axCause 0 with ctx := some c' }, c')

/-- Lanes of the word that are in a region and may not issue it abort with a cause; the word goes on in the others (R214). -/
def State.screen (s : State) (c : IssueCtx) (axCause : Nat) : State × IssueCtx :=
  s.screenLanes c (s.regionLanes c.gang c.lanes) axCause

/-- A word in its frame: the gang's view for reading is the one before the chain where the word is chained (R22). Outside
an issue context nothing executes. -/
def State.word (s : State) (body : IssueCtx → Gang → State) : Out :=
  match s.ctx with
  | none => .next s
  | some c =>
    match s.gangs.find? c.gang with
    | none => .next s
    | some G => .next (body c (c.pre.getD G))

/-- The tests before a word's effect, in order: XBLOCK for the registers it names, then POISON for those it reads (R13,
R243); with neither the word goes on. That the poison of a source register comes before the other causes of Table 6.2 is log 88. -/
def State.tested (s : State) (c : IssueCtx) (view : Gang) (reads writes : List Nat) (go : State) : State :=
  if xblockRaised view (reads ++ writes) then s.raise c ⟨7, 0, 0, c.lanes, 0⟩
  else
    match s.poisonedReads c.gang c.lanes reads with
    | [] => go
    | (l, r) :: t => s.raise c ⟨11, BitVec.ofNat 32 r, 0, laneSet (l :: t.map (·.1)), 0⟩

/-! ## Arithmetic causes -/

/-- The lanes of a set whose FPC has TRAPERR set, as a word reads it (R37, R111), outside handlers, where errors never trap (R239). -/
def Gang.trapping (view : Gang) (lanes : DWord) : DWord :=
  laneSet ((laneList lanes).filter fun l => bitsOf (view.thread l).fpc.toNat 5 1 == 1 && !(view.thread l).handler)

/-- The gang with a record to be formed for each cause of a word, in code order (R80); which of its lanes are to trap, their FPC
says as the word reads it (R84, R111). -/
def State.logCauses (s : State) (g : Nat) (view : Gang) (pc : Word) (raised : List (Nat × List Nat)) : State :=
  [0x20, 0x21, 0x22, 0x23, 0x24].foldl (fun s code =>
    let lanes := laneSet ((raised.filter fun e => e.2.contains code).map (·.1))
    if lanes = 0#64 then s else
    { s.onGang g fun G => { G with logs := G.logs ++ [⟨s.sn, code, lanes, pc, false, view.trapping lanes, 0⟩] } with
      sn := s.sn + 1 }) s

/-! ## Leaving a word -/

/-- The mask change of a lane in the gang issue cycle in progress (R179). -/
def State.maskOp (s : State) (g l : Nat) (op : MaskOp) : State :=
  s.onGang g fun G => { G with maskOps := G.maskOps ++ [(l, op)] }

/-- The thread of a lane ends (R34): its queue entries are discarded, its region aborts without cause, its watch entries
are freed; its mask bits are cleared at the end of the gang issue cycle. -/
def State.exitThread (s : State) (g l : Nat) : State :=
  let s1 := s.onThread g l fun t =>
    { t with live := false, queues := [[], [], [], []], region := none, wait := none, grant := none, exiting := false,
             jump := none, arrived := false, park := false, fence := none, waitSince := none, swTrap := none,
             issued := none, held := [], trap := none }
  { s1.maskOp g l .exit with watches := s1.watches.filter fun w => !(w.gang == g && w.lane == l) }

/-- The thread at a place, its chain done: a region that the chain opened takes its snapshot now (R220). -/
def Thread.goTo (t : Thread) (at_ : Word × Nat) (born : Nat × Nat) : Thread :=
  { t with
    pc := at_.1
    pos := at_.2
    jump := none
    region := t.region.map fun r => if r.fresh then { r with snapshot := t.regs, fresh := false, born := born } else r }

/-- A lane goes on after its chain: to the target of a taken branch, else to the next word (R23, R39); it parks if a park
bit was set and a class-L result is outstanding (R19). EXIT ends it once the results of its own chain are in (R34). -/
def State.advanceLane (c : IssueCtx) (s : State) (l : Nat) : State :=
  let t := s.thread c.gang l
  if t.exiting then
    if s.outstandingL c.gang l || s.outstandingQ c.gang l then
      s.onThread c.gang l fun t => { t with wait := some .exit, waitPos := c.pos, jump := none, region := none }
    else s.exitThread c.gang l
  else
    let next : Word × Nat := t.jump.getD (if 2 ≤ c.pos then (c.pc + 1#32, 0) else (c.pc, c.pos + 1))
    s.onThread c.gang l fun t => { t.goTo next (c.since, s.sn) with park := t.park && s.outstandingL c.gang l }

/-- TRAP or BRK taken after the chain that held it (R105): each lane resumes where it would have gone, word 0, or at its
fallback where it was in a region (R228). -/
def State.takeSwTraps (s : State) (c : IssueCtx) (resume : List (Nat × TrapReq)) : State :=
  match resume with
  | [] => s
  | (_, r) :: _ =>
    let lanes := laneSet (resume.map (·.1))
    let inR := s.regionLanes c.gang lanes
    let s1 := (s.onLanes c.gang lanes fun _ t => { t with swTrap := none }).abortLanes c.gang inR 6 0
    let req := fun l =>
      let r' := ((resume.find? fun e => e.1 == l).map (·.2)).getD r
      if inLanes inR l then { r' with pc := (s1.thread c.gang l).pc } else r'
    let low := req (lowestLane lanes)
    s1.enterOrEnd c.gang lanes ⟨r.cause, r.lo, r.hi, lanes, 0⟩ low.pc 0 req

/-- The software traps that a set of lanes still has to take, each with its resume point: the packet the lane would enter
next (R105). -/
def State.swTraps (s : State) (c : IssueCtx) (lanes : DWord) : List (Nat × TrapReq) :=
  (laneList lanes).filterMap fun l =>
    let t := s.thread c.gang l
    if t.exiting then none else
    t.swTrap.map fun r => (l, { r with pc := (t.jump.getD (c.pc + 1#32, 0)).1 })

/-- The lanes that have completed the word leave it: they take the park bit, and after the last word of the chain each
goes on and then takes the software trap of the chain (R17, R19, R23, R105). -/
def State.retire (s : State) (c : IssueCtx) (done : DWord) (park : Bool) : State :=
  let s1 := if park then s.onLanes c.gang done fun _ t => { t with park := true } else s
  if c.rest = 0 then
    ((laneList done).foldl (State.advanceLane c) s1).takeSwTraps c (s1.swTraps c done)
  else s1

/-- The K bit of a word. -/
def parks (k : BitVec 1) : Bool := k == 1#1

/-! ## Words that compute on registers -/

/-- What a word does to a lane's region bookkeeping: the mark its result carries, the loads it pins, the constraint it
records (R217, R219). -/
structure Sym where
  mark : Option Mark := none
  pins : List Nat := []
  con : Option (Relation × Bool) := none
deriving DecidableEq, Repr

/-- The loads that registers depend on in a thread's region. -/
def Thread.loadsOf (t : Thread) (vs : List Nat) : List Nat :=
  match t.region with
  | none => []
  | some r => vs.flatMap fun v => ((r.markOf v).map Mark.loads).getD []

/-- Any read of a symbolic value outside the listed forms pins its loads; the result is concrete (R217). -/
def Shape.plainSym (sh : Shape) (fd fa fb : Nat) (t : Thread) : Sym := { pins := t.loadsOf (sh.reads fd fa fb) }

/-- A region's tables after a word's bookkeeping; an identical constraint takes no new entry (R219). -/
def Region.note (r : Region) (y : Sym) : Region :=
  let r1 := r.pin y.pins
  match y.con with
  | none => r1
  | some x => if r1.constraints.contains x then r1 else { r1 with constraints := r1.constraints ++ [x] }

/-- The thread with a mark on its destination register, an even register for a pair; of the pair v0:v1 only v1 can hold
anything. -/
def Thread.setMark (t : Thread) (u : Use) (e : Nat) (m : Option Mark) : Thread :=
  match m with
  | none => t
  | some x =>
    if (e = 0 ∧ u ≠ .pair) ∨ 56 ≤ e then t else
    t.onRegion fun r => { r with marks := r.marks.put (if u = .pair then e / 2 * 2 else e) x }

/-- The lanes whose constraint would exceed the eight of a lane or the 256 of a gang (R213). -/
def State.overConstraints (s : State) (c : IssueCtx) (y : Nat → Option (Relation × Bool)) : DWord :=
  let total := ((laneList 0xFFFFFFFFFFFFFFFF#64).map fun l =>
    match (s.thread c.gang l).region with | some r => r.constraints.length | none => 0).foldl (· + ·) 0
  let step := fun (acc : Nat × DWord) l =>
    match (s.thread c.gang l).region, y l with
    | some r, some x =>
      if r.constraints.contains x then acc
      else if 8 ≤ r.constraints.length ∨ 256 ≤ acc.1 then (acc.1, acc.2 ||| laneBit l)
      else (acc.1 + 1, acc.2)
    | _, _ => acc
  ((laneList c.lanes).foldl step (total, 0#64)).2

/-- A register word: its shape and fields, the cause with which a lane in a region that issues it aborts (0 where it may,
Table 9.1), what each lane computes, its region bookkeeping, what else it does to the lane and the gang, and the mask
changes it makes at the end of the gang issue cycle (R179). -/
structure WordSpec where
  shape : Shape := {}
  fd : Nat := 0
  fa : Nat := 0
  fb : Nat := 0
  h : Nat := 0
  k : BitVec 1 := 0
  deny : Nat := 0
  f : Nat → Thread → Vals → Res := fun _ _ _ => ⟨0, []⟩
  y : Option (Thread → Vals → Sym) := none
  post : Nat → Thread → Vals → Thread → Thread := fun _ _ _ t => t
  gang : Gang → Gang := fun G => G
  ops : Nat → Thread → Vals → List MaskOp := fun _ _ _ => []

/-- The word's sources and its region bookkeeping. -/
def WordSpec.reads (w : WordSpec) : List Nat := w.shape.reads w.fd w.fa w.fb
def WordSpec.writes (w : WordSpec) : List Nat := w.shape.dst.regs w.fd
def WordSpec.sym (w : WordSpec) (t : Thread) (v : Vals) : Sym :=
  match w.y with
  | some y => y t v
  | none => w.shape.plainSym w.fd w.fa w.fb t
/-- What a lane reads. -/
def WordSpec.vals (w : WordSpec) (view cur : Thread) : Vals := (w.shape.readLane w.fd w.fa w.fb view cur).1

/-- The loads behind the value that a word pushes into the latch: the entry carries no tag, so the push pins them (R16, R217). -/
def WordSpec.pushed (w : WordSpec) (t : Thread) (v : Vals) : List Nat :=
  if !w.shape.latch then [] else
  match w.h with
  | 0 => []
  | 1 => t.loadsOf (w.shape.a.regs w.fa)
  | 2 => t.loadsOf (w.shape.b.regs w.fb)
  | _ => if w.shape.classL then [] else ((w.sym t v).mark.map Mark.loads).getD []

/-- A lane's part of a register word: the thread after pops, bookkeeping, result, other effect and latch. -/
def WordSpec.laneStep (w : WordSpec) (rest l : Nat) (view cur : Thread) : Thread :=
  let (v, c1) := w.shape.readLane w.fd w.fa w.fb view cur
  let r := (w.f l view v).val
  let c2 := c1.onRegion fun r => (r.note (w.sym view v)).pin (w.pushed view v)
  let c3 := if w.shape.classL then c2
    else ((c2.unmark w.writes).writeDest w.shape.dst w.fd r).setMark w.shape.dst w.fd (w.sym view v).mark
  (w.post l view v c3).latchStep w.shape w.h rest v r

/-- The class-L results of a register word: one entry a lane, still to be written (R18, R19). -/
def WordSpec.pendings (w : WordSpec) (g : Nat) (view G : Gang) (lanes : DWord) (sn : Nat) : List Pending :=
  if w.shape.classL then
    (laneList lanes).map fun l =>
      let r := (w.f l (view.thread l) (w.vals (view.thread l) (G.thread l))).val
      ⟨sn * 64 + l, g, l, if w.shape.dst = .pair then w.fd / 2 * 2 else w.fd,
        some (if w.shape.dst = .pair then [loOf r, hiOf r] else [loOf r]), none⟩
  else []

/-- The arithmetic causes of a register word, by lane. -/
def WordSpec.causes (w : WordSpec) (view G : Gang) (lanes : DWord) : List (Nat × List Nat) :=
  (laneList lanes).filterMap fun l =>
    match (w.f l (view.thread l) (w.vals (view.thread l) (G.thread l))).causes with
    | [] => none
    | cs => some (l, cs)

/-- The effect of a register word in the lanes of the context, once it has been tested; with no lane left it has none. -/
def State.regEffect (s : State) (c : IssueCtx) (view : Gang) (w : WordSpec) : State :=
  if c.lanes = 0#64 then s else
  match s.gangs.find? c.gang with
  | none => s
  | some G =>
    let ops := (laneList c.lanes).flatMap fun l =>
      (w.ops l (view.thread l) (w.vals (view.thread l) (G.thread l))).map fun o => (l, o)
    let s1 := s.onGang c.gang fun G =>
      let G1 := w.gang (G.onLanes c.lanes fun l t => w.laneStep c.rest l (view.thread l) t)
      { G1 with maskOps := G1.maskOps ++ ops }
    let s2 := { s1 with
      pending := s1.pending ++ w.pendings c.gang view G c.lanes s1.sn
      sn := if w.shape.classL then s1.sn + 1 else s1.sn }
    let s3 := (s2.logCauses c.gang view c.pc (w.causes view G c.lanes)).cureRegs c.gang c.lanes
      (if w.shape.classL then [] else w.writes)
    s3.retire c c.lanes (parks w.k)

/-- The lanes that leave a register word by an abort of their region: those that may not issue it, those that would pop a
queue, those whose constraint has no room (R213, R214); with the cause. -/
def State.regionOut (s : State) (c : IssueCtx) (view : Gang) (w : WordSpec) : DWord × Nat :=
  let inR := s.regionLanes c.gang c.lanes
  if inR = 0#64 then (0#64, 0)
  else if w.deny ≠ 0 then (inR, w.deny)
  else if w.shape.popsAny w.fa w.fb then (inR, 3)
  else (s.overConstraints c fun l => (w.sym (view.thread l) (w.vals (view.thread l) (s.thread c.gang l))).con, 3)

/-- The queue entries that a word's sources need in a lane: queue and number (R20). -/
def Shape.needs (sh : Shape) (fa fb : Nat) : List (Nat × Nat) :=
  match sh.a.pops fa, sh.b.pops fb with
  | true, true => if fa = fb then [(fa - 60, 2)] else [(fa - 60, 1), (fb - 60, 1)]
  | true, false => [(fa - 60, 1)]
  | false, true => [(fb - 60, 1)]
  | false, false => []

/-- A need is met: queue q holds n filled entries at its head, or queue q - 4 has n free entries (R20). -/
def Thread.met (t : Thread) (e : Nat × Nat) : Bool :=
  if e.1 < 4 then decide (e.2 ≤ filledCount (nth [] t.queues e.1))
  else decide ((nth [] t.queues (e.1 - 4)).length + e.2 ≤ 8)

/-- What a lane needs for a word, beside the entries that earlier words of its chain have popped (R20, R22). -/
def Thread.needsNow (view cur : Thread) (needs : List (Nat × Nat)) : List (Nat × Nat) :=
  needs.map fun e =>
    if e.1 < 4 then (e.1, e.2 + (filledCount (nth [] view.queues e.1) - filledCount (nth [] cur.queues e.1))) else e

/-- The lanes of a word that lack queue entries stall, each for itself; the word goes on in the others (R20, R25). -/
def State.letIn (s : State) (c : IssueCtx) (view : Gang) (needs : List (Nat × Nat)) : State × IssueCtx :=
  if needs.isEmpty then (s, c) else
  let short := laneSet ((laneList c.lanes).filter fun l => !needs.all (s.thread c.gang l).met)
  let c' := { c with lanes := c.lanes &&& ~~~short, blocked := c.blocked ||| short }
  ({ s.onLanes c.gang c.lanes (fun l t =>
      if inLanes short l then
        match t.wait with
        | some (.queue _) => { t with wait := some (.queue ((view.thread l).needsNow t needs)) }
        | some _ => t
        | none => { t with wait := some (.queue ((view.thread l).needsNow t needs)) }
      else
        match t.wait with
        | some (.queue _) => { t with wait := none }
        | _ => t) with
    ctx := some c' }, c')

/-- The same for a word that a lane in a region may not issue where it pops a queue: such a lane does not stall (R214). -/
def State.admitOut (s : State) (c : IssueCtx) (view : Gang) (needs : List (Nat × Nat)) : State × IssueCtx :=
  let inR := if needs.isEmpty then 0#64 else s.regionLanes c.gang c.lanes
  let r := s.letIn { c with lanes := c.lanes &&& ~~~inR } view needs
  let c' := { r.2 with lanes := r.2.lanes ||| inR }
  ({ r.1 with ctx := some c' }, c')

/-- A register word (R85, R22): tested, then in every lane its sources read, its result written or left outstanding, its
causes logged, and left. A lane that would pop an empty queue waits. -/
def State.run (s : State) (w : WordSpec) : Out :=
  s.word fun c view =>
    s.tested c view w.reads w.writes
      (let out := s.regionOut c view w
       let r := s.screenLanes c out.1 out.2
       let a := r.1.letIn r.2 view (w.shape.needs w.fa w.fb)
       a.1.regEffect a.2 view w)

/-- The answer that a blocking word of a lane has had already: as an earlier try of its chain kept it, or as the step that ended
its wait gave it (R18, R22). -/
def Thread.answer (t : Thread) (pos : Nat) : Option DWord :=
  match t.held.find? (·.1 == pos) with
  | some e => some e.2
  | none => if t.waitPos = pos then t.grant else none

/-- A lane blocks in a word (R25); what another word of its chain has been granted stays with it. -/
def Thread.waitIn (t : Thread) (pos : Nat) (w : Wait) : Thread :=
  match t.wait with
  | none => { t with wait := some w, waitPos := pos }
  | some _ =>
    if t.waitPos = pos then t
    else
      { t with
        held := match t.grant with | some v => t.held ++ [(t.waitPos, v)] | none => t.held
        wait := some w, waitPos := pos, grant := none }

/-- A lane completes a blocking word: its wait there is over, and in a chain the answer it was granted stays until the chain is
done (R22). -/
def Thread.completeIn (t : Thread) (pos : Nat) (chained : Bool) (v : DWord) : Thread :=
  if t.wait.isSome ∧ t.waitPos = pos then
    let stays := chained && (t.grant.isSome || match t.wait with | some (.barrier _) => true | _ => false)
    { t with wait := none, grant := none, held := if stays then t.held ++ [(pos, v)] else t.held }
  else t

/-- A blocking word (R18, R25): the lanes that have their answer, or were granted it, complete with it as the result; the
others block on what the word waits for. -/
def State.runBlocking (s : State) (w : WordSpec) (answer : Nat → Thread → Vals → Option DWord)
    (waitFor : Nat → Thread → Vals → Wait) (causesOf : Thread → DWord → List Nat := fun _ _ => []) : Out :=
  s.word fun c view =>
    s.tested c view w.reads w.writes
      (let out := s.regionOut c view w
       let r := s.screenLanes c out.1 out.2
       let (s0, c0) := r.1.letIn r.2 view (w.shape.needs w.fa w.fb)
       let valOf := fun l =>
         match (s0.thread c0.gang l).answer c0.pos with
         | some v => some v
         | none => answer l (view.thread l) (w.vals (view.thread l) (s0.thread c0.gang l))
       let done := laneSet ((laneList c0.lanes).filter fun l => (valOf l).isSome)
       let stay := c0.lanes &&& ~~~done
       let s1 := s0.onLanes c0.gang stay fun l t =>
         t.waitIn c0.pos (waitFor l (view.thread l) (w.vals (view.thread l) t))
       let s2 := s1.onLanes c0.gang done fun l t => t.completeIn c0.pos c0.chained ((valOf l).getD 0)
       let c1 := { c0 with blocked := c0.blocked ||| stay, lanes := done }
       ({ s2 with ctx := some c1 }).regEffect c1 view
         { w with f := fun l t v => ⟨(valOf l).getD 0, (w.f l t v).causes ++ causesOf t ((valOf l).getD 0)⟩ })

end Sys2Proof.Machine
end

