-- ==== Sys2Proof/Machine/Flags.lean ====
section
/-! DEFINITION. Conditions and status: the machine has no flags register, so a condition is a value a compare writes
(R89) and a status is an FPC field (Table 1.6) or a logged cause (Table 3.2). -/

namespace Sys2Proof.Machine

open Sys2Proof

/-- A comparison of two 64-bit or 32-bit values (R89, R96). -/
def Cmp.eval (wide : Bool) (c : Cmp) (x y : DWord) : Bool :=
  let a := if wide then x else (loOf x).setWidth 64
  let b := if wide then y else (loOf y).setWidth 64
  let sa := if wide then x.toInt else (loOf x).toInt
  let sb := if wide then y.toInt else (loOf y).toInt
  match c with
  | .eq => a == b
  | .ne => a != b
  | .lt => decide (sa < sb)
  | .le => decide (sa ≤ sb)
  | .ltu => decide (a.toNat < b.toNat)
  | .leu => decide (a.toNat ≤ b.toNat)
  | .gt => decide (sb < sa)
  | .ge => decide (sb ≤ sa)

/-- FPC's rounding mode code (Table 1.6). -/
def Thread.rm (t : Thread) : Nat := bitsOf t.fpc.toNat 0 2
/-- FPC's flush-to-zero bit. -/
def Thread.ftz (t : Thread) : Bool := bitsOf t.fpc.toNat 2 1 == 1
/-- FPC's LOGOF bit. -/
def Thread.logof (t : Thread) : Bool := bitsOf t.fpc.toNat 3 1 == 1
/-- FPC's LOGUF bit. -/
def Thread.loguf (t : Thread) : Bool := bitsOf t.fpc.toNat 4 1 == 1
/-- FPC's TRAPERR bit. -/
def Thread.traperr (t : Thread) : Bool := bitsOf t.fpc.toNat 5 1 == 1

/-- FP_INVALID (Table 3.2). -/
def fpInvalid : Nat := 0x20
/-- FP_DIVZERO. -/
def fpDivZero : Nat := 0x21
/-- FP_OVERFLOW. -/
def fpOverflow : Nat := 0x22
/-- FP_UNDERFLOW. -/
def fpUnderflow : Nat := 0x23
/-- INT_DIVZERO. -/
def intDivZero : Nat := 0x24

/-- Of the causes an operation raises, those that a thread's FPC lets a vector word log (Table 3.2). -/
def Thread.logged (t : Thread) (cs : List Nat) : List Nat :=
  cs.filter fun x => !(x == fpOverflow && !t.logof) && !(x == fpUnderflow && !t.loguf)

end Sys2Proof.Machine
end

