-- ==== Sys2Proof/Machine/FloatLib.lean ====
section
/-! DEFINITION. Exact floating-point arithmetic (03): formats, decoding, rounding, and the operations of the vector words
on exact values, with the causes they raise. -/

namespace Sys2Proof.Machine

open Sys2Proof

/-- A format of Table 3.1: exponent and fraction widths, and whether it has infinities. -/
structure Fmt where
  e : Nat
  f : Nat
  inf : Bool := true
deriving DecidableEq, Repr

def fp64 : Fmt := ⟨11, 52, true⟩
def fp32 : Fmt := ⟨8, 23, true⟩
def bf16 : Fmt := ⟨8, 7, true⟩
def fp16 : Fmt := ⟨5, 10, true⟩
def e4m3 : Fmt := ⟨4, 3, false⟩
def e5m2 : Fmt := ⟨5, 2, true⟩
def e2m1 : Fmt := ⟨2, 1, false⟩

/-- The bias (R61). -/
def Fmt.bias (x : Fmt) : Nat := 2 ^ (x.e - 1) - 1
/-- The exponent of the smallest subnormal's bit. -/
def Fmt.low (x : Fmt) : Int := 1 - x.bias - x.f
/-- The sign bit. -/
def Fmt.sign (x : Fmt) (neg : Bool) : Nat := if neg then 2 ^ (x.e + x.f) else 0
/-- The magnitude bits of infinity, in a format that has it. -/
def Fmt.infBits (x : Fmt) : Nat := (2 ^ x.e - 1) * 2 ^ x.f
/-- The magnitude bits of the largest finite value (Table 3.1). -/
def Fmt.maxBits (x : Fmt) : Nat := if x.inf then x.infBits - 1 else 0x7E
/-- The canonical NaN (R63). -/
def Fmt.nan (x : Fmt) : Nat := if x.inf then x.infBits + 2 ^ (x.f - 1) else 0x7F

/-- A decoded value: NaN, signalling or not; an infinity; or (-1)^neg × m × 2^e. -/
inductive FVal where
  | nan (signalling : Bool)
  | inf (neg : Bool)
  | fin (neg : Bool) (m : Nat) (e : Int)
deriving DecidableEq, Repr

/-- The value an encoding has (R61, R63, Table 3.1). -/
def Fmt.decode (x : Fmt) (w : Nat) : FVal :=
  let neg := bitsOf w (x.e + x.f) 1 == 1
  let e := bitsOf w x.f x.e
  let f := bitsOf w 0 x.f
  if x.inf ∧ e = 2 ^ x.e - 1 then
    if f = 0 then .inf neg else .nan (x.e + x.f != 7 && bitsOf f (x.f - 1) 1 == 0)
  else if x.e = 4 ∧ e = 15 ∧ f = 7 then .nan false
  else if e = 0 then .fin neg f x.low
  else .fin neg (2 ^ x.f + f) (x.low + (e - 1 : Nat))

/-- The number of bits of a positive number. -/
def bitLen (n : Nat) : Nat := if n = 0 then 0 else Nat.log2 n + 1

/-- m × 2^k for k ≥ 0, m / 2^-k rounded down otherwise. -/
def scaleDown (m : Nat) (k : Int) : Nat := if 0 ≤ k then m * 2 ^ k.toNat else m / 2 ^ (-k).toNat

/-- A rounded magnitude: its bits before any treatment of overflow, whether it is inexact, and whether the exact value lies
below the smallest normal one. -/
structure Rounded where
  bits : Nat
  inexact : Bool
  tiny : Bool
deriving DecidableEq, Repr

/-- Rounding up happens under a mode (R73): 0 RNE, 1 RTZ, 2 RDN, 3 RUP; r of 2^s is cut off, more below it if sticky. -/
def roundsUp (rm : Nat) (neg : Bool) (odd : Bool) (r s : Nat) (sticky : Bool) : Bool :=
  match rm with
  | 0 => decide (2 ^ s < 2 * r) || (decide (2 * r = 2 ^ s) && (sticky || odd))
  | 1 => false
  | 2 => neg && (decide (r ≠ 0) || sticky)
  | _ => !neg && (decide (r ≠ 0) || sticky)

/-- The magnitude q × 2^e, more if sticky, rounded to the format's precision with its exponent range upwards unbounded
(R73). -/
def Fmt.roundMag (x : Fmt) (rm : Nat) (neg : Bool) (q : Nat) (e : Int) (sticky : Bool) : Rounded :=
  let q' := if sticky then 4 * q + 1 else q
  let e' := if sticky then e - 2 else e
  if q' = 0 then ⟨0, false, false⟩ else
  let top : Int := (bitLen q' : Int) - 1 + e'
  let t := max (top - x.f) x.low
  let s := t - e'
  let tiny := decide (top < x.low + x.f)
  let base := (t - x.low).toNat * 2 ^ x.f
  if s ≤ 0 then ⟨base + q' * 2 ^ (-s).toNat, false, tiny⟩
  else
    let n := s.toNat
    let m := q' / 2 ^ n
    let r := q' % 2 ^ n
    ⟨base + m + (if roundsUp rm neg (m % 2 == 1) r n false then 1 else 0), decide (r ≠ 0), tiny⟩

/-- A result: its bits and the causes it raises before FPC lets them be logged. -/
structure FRes where
  bits : Nat
  causes : List Nat := []
deriving DecidableEq, Repr

/-- A finite magnitude rounded into a format with its causes (R73, R75, R112). -/
def Fmt.finish (x : Fmt) (rm : Nat) (neg : Bool) (q : Nat) (e : Int) (sticky : Bool) : FRes :=
  let r := x.roundMag rm neg q e sticky
  if x.maxBits < r.bits then
    let toInf := x.inf && (rm == 0 || (rm == 2 && neg) || (rm == 3 && !neg))
    ⟨x.sign neg + (if toInf then x.infBits else x.maxBits), [fpOverflow]⟩
  else ⟨x.sign neg + r.bits, if r.tiny && r.inexact then [fpUnderflow] else []⟩

/-- A zero of a sign. -/
def Fmt.zero (x : Fmt) (neg : Bool) : FRes := ⟨x.sign neg, []⟩

/-- An exact value encoded under a rounding mode; an infinity into a format without one saturates (R75). -/
def Fmt.encode (x : Fmt) (rm : Nat) : FVal → FRes
  | .nan s => ⟨x.nan, if s then [fpInvalid] else []⟩
  | .inf neg => if x.inf then ⟨x.sign neg + x.infBits, []⟩ else ⟨x.sign neg + x.maxBits, [fpOverflow]⟩
  | .fin neg m e => if m = 0 then x.zero neg else x.finish rm neg m e false

/-- A value is NaN. -/
def FVal.isNan : FVal → Bool
  | .nan _ => true
  | _ => false
/-- A value is a signalling NaN. -/
def FVal.isSig : FVal → Bool
  | .nan s => s
  | _ => false
/-- A value's sign; a NaN counts as positive. -/
def FVal.neg : FVal → Bool
  | .nan _ => false
  | .inf n => n
  | .fin n _ _ => n
/-- A value with its sign flipped. -/
def FVal.negate : FVal → FVal
  | .nan s => .nan s
  | .inf n => .inf (!n)
  | .fin n m e => .fin (!n) m e

/-- FTZ on an operand: a subnormal of the format reads as zero of its sign (R74). -/
def Fmt.flushIn (x : Fmt) : FVal → FVal
  | .fin n m e => if e = x.low ∧ m < 2 ^ x.f then .fin n 0 x.low else .fin n m e
  | v => v
/-- FTZ on a result: a subnormal becomes zero of its sign, tiny and inexact (R74, R111). -/
def Fmt.flushOut (x : Fmt) (r : FRes) : FRes :=
  let mag := r.bits % 2 ^ (x.e + x.f)
  if mag ≠ 0 ∧ mag < 2 ^ x.f then
    ⟨r.bits - mag, if r.causes.contains fpUnderflow then r.causes else r.causes ++ [fpUnderflow]⟩
  else r

/-- A signed integer over a power of two. -/
structure Dy where
  m : Int
  e : Int
deriving DecidableEq, Repr

/-- The sum of two, exact. -/
def Dy.add (x y : Dy) : Dy :=
  let e := min x.e y.e
  ⟨x.m * 2 ^ (x.e - e).toNat + y.m * 2 ^ (y.e - e).toNat, e⟩
/-- The signed magnitude of a finite value. -/
def dyOf (neg : Bool) (m : Nat) (e : Int) : Dy := ⟨if neg then -(m : Int) else m, e⟩

/-- A term of a sum: NaN from zero times infinity, NaN from an operand, an infinity, or a finite value. -/
inductive Term where
  | invalid
  | nan
  | inf (neg : Bool)
  | fin (neg : Bool) (m : Nat) (e : Int)
deriving DecidableEq, Repr

/-- A product as a term (R112). -/
def FVal.mul : FVal → FVal → Term
  | .inf a, .inf b => .inf (a != b)
  | .inf a, .fin b m _ => if m = 0 then .invalid else .inf (a != b)
  | .fin a m _, .inf b => if m = 0 then .invalid else .inf (a != b)
  | .fin a m e, .fin b n g => .fin (a != b) (m * n) (e + g)
  | _, _ => .nan
/-- A value as a term. -/
def FVal.term : FVal → Term
  | .nan _ => .nan
  | .inf a => .inf a
  | .fin a m e => .fin a m e

/-- Some operand is a signalling NaN. -/
def sigCause (vs : List FVal) : List Nat := if vs.any FVal.isSig then [fpInvalid] else []

/-- The two lists of causes together, each once. -/
def joinCauses (a b : List Nat) : List Nat := a ++ b.filter fun c => !a.contains c

/-- The exact sum of finite terms. -/
def finiteSum (ts : List Term) : Dy :=
  ts.foldl (fun acc t => match t with | .fin n m e => acc.add (dyOf n m e) | _ => acc) ⟨0, 0⟩

/-- A sum of terms, rounded once (R112 to R114, R119): invalid products and opposite infinities give NaN and
FP_INVALID, beside a NaN too; an
exact zero keeps the sign that all terms share, else it is -0 under RDN and +0 otherwise (IEEE 754-2019, R73). -/
def Fmt.sum (x : Fmt) (rm : Nat) (ts : List Term) (sig : List Nat) : FRes :=
  if ts.contains .invalid then ⟨x.nan, [fpInvalid]⟩
  else if ts.contains (.inf false) ∧ ts.contains (.inf true) then ⟨x.nan, [fpInvalid]⟩
  else if ts.contains .nan then ⟨x.nan, sig⟩
  else if ts.contains (.inf false) then ⟨x.sign false + x.infBits, sig⟩
  else if ts.contains (.inf true) then ⟨x.sign true + x.infBits, sig⟩
  else
    let d := finiteSum ts
    if d.m = 0 then
      let negs := ts.map fun t => match t with | .fin n _ _ => n | _ => false
      x.zero (if negs.all id then true else if negs.all (!·) then false else rm == 2)
    else x.finish rm (decide (d.m < 0)) d.m.natAbs d.e false

/-- A + B (Table 5.2). -/
def Fmt.add (x : Fmt) (rm : Nat) (a b : FVal) : FRes := x.sum rm [a.term, b.term] (sigCause [a, b])
/-- A × B + C with one rounding; the product of zero and infinity is invalid whatever C holds (R112). -/
def Fmt.fma (x : Fmt) (rm : Nat) (a b c : FVal) : FRes := x.sum rm [a.mul b, c.term] (sigCause [a, b, c])
/-- A × B. -/
def Fmt.mul (x : Fmt) (rm : Nat) (a b : FVal) : FRes :=
  match a.mul b with
  | .invalid => ⟨x.nan, [fpInvalid]⟩
  | .nan => ⟨x.nan, sigCause [a, b]⟩
  | .inf n => ⟨x.sign n + x.infBits, []⟩
  | .fin n m e => if m = 0 then x.zero n else x.finish rm n m e false

/-- The order of two values that are no NaN: -1, 0 or 1 (R64: the zeros are equal). -/
def FVal.order (a b : FVal) : Int :=
  match a, b with
  | .inf n, .inf p => if n = p then 0 else if n then -1 else 1
  | .inf n, _ => if n then -1 else 1
  | _, .inf p => if p then 1 else -1
  | .fin n m e, .fin p k g =>
    let d := (dyOf n m e).add (dyOf (!p) k g)
    if d.m < 0 then -1 else if d.m = 0 then 0 else 1
  | _, _ => 0

/-- minimumNumber and maximumNumber (R115), on the values as bits of the format. -/
def Fmt.minMax (x : Fmt) (larger : Bool) (a b : FVal) : FRes :=
  let sig := sigCause [a, b]
  if a.isNan ∧ b.isNan then ⟨x.nan, sig⟩
  else if a.isNan then ⟨(x.encode 0 b).bits, sig⟩
  else if b.isNan then ⟨(x.encode 0 a).bits, sig⟩
  else
    let o := a.order b
    let first := if o = 0 then a.neg != larger else decide (o < 0) != larger
    ⟨(x.encode 0 (if first then a else b)).bits, sig⟩

/-- A compare's outcome (R116): NaN gives false; quiet compares raise only for a signalling NaN, ordered ones for any. -/
def fcompare (quiet : Bool) (test : Int → Bool) (a b : FVal) : Bool × List Nat :=
  if a.isNan ∨ b.isNan then (false, if quiet then sigCause [a, b] else [fpInvalid])
  else (test (a.order b), [])

/-- A value rounded to an integral one under a mode, as a signed magnitude (R117, R123). -/
def integral (rm : Nat) (neg : Bool) (m : Nat) (e : Int) : Nat :=
  if 0 ≤ e then m * 2 ^ e.toNat
  else
    let n := (-e).toNat
    let q := m / 2 ^ n
    let r := m % 2 ^ n
    q + (if roundsUp rm neg (q % 2 == 1) r n false then 1 else 0)

/-- FRND and DRND (R117): a zero result keeps the sign of A. -/
def Fmt.roundIntegral (x : Fmt) (rm : Nat) (a : FVal) : FRes :=
  match a with
  | .nan s => ⟨x.nan, if s then [fpInvalid] else []⟩
  | .inf n => ⟨x.sign n + x.infBits, []⟩
  | .fin n m e => if 0 ≤ e then ⟨(x.finish 1 n m e false).bits, []⟩ else
    let v := integral rm n m e
    if v = 0 then x.zero n else ⟨(x.finish 1 n v 0 false).bits, []⟩

/-- A float converted to an integer range, RNE (R123): result and whether it is logged. -/
def toInteger (lo hi : Int) (a : FVal) : Int × List Nat :=
  match a with
  | .nan _ => (0, [fpInvalid])
  | .inf n => (if n then lo else hi, [fpInvalid])
  | .fin n m e =>
    let v : Int := integral 0 n m e
    let w := if n then -v else v
    if hi < w then (hi, [fpInvalid]) else if w < lo then (lo, [fpInvalid]) else (w, [])

/-- An integer as an exact value. -/
def intVal (v : Int) : FVal := .fin (decide (v < 0)) v.natAbs 0

/-- A number's integer square root, by bits from a given one down. -/
def isqrtBits (n : Nat) : Nat → Nat → Nat
  | 0, r => r
  | k + 1, r =>
    let t := r + 2 ^ k
    isqrtBits n k (if t * t ≤ n then t else r)
/-- The integer square root. -/
def isqrt (n : Nat) : Nat := isqrtBits n (bitLen n / 2 + 1) 0

/-- A quotient of finite magnitudes as bits with a sticky tail (R125). -/
def divMag (prec : Nat) (m : Nat) (e : Int) (n : Nat) (g : Int) : Nat × Int × Bool :=
  let k := prec + 4 + bitLen n
  (m * 2 ^ k / n, e - g - k, m * 2 ^ k % n != 0)

/-- A / B (Table 5.8, FDIV and DDIV). -/
def Fmt.div (x : Fmt) (rm : Nat) (a b : FVal) : FRes :=
  if a.isNan ∨ b.isNan then ⟨x.nan, sigCause [a, b]⟩
  else
    let n := a.neg != b.neg
    match a, b with
    | .inf _, .inf _ => ⟨x.nan, [fpInvalid]⟩
    | .inf _, _ => ⟨x.sign n + x.infBits, []⟩
    | _, .inf _ => x.zero n
    | .fin _ m e, .fin _ k g =>
      if k = 0 then (if m = 0 then ⟨x.nan, [fpInvalid]⟩ else ⟨x.sign n + x.infBits, [fpDivZero]⟩)
      else if m = 0 then x.zero n
      else
        let (q, h, st) := divMag x.f m e k g
        x.finish rm n q h st
    | _, _ => ⟨x.nan, []⟩

/-- A square root of a positive magnitude as bits with a sticky tail. -/
def sqrtMag (prec m : Nat) (e : Int) : Nat × Int × Bool :=
  let odd := e % 2 != 0
  let k := prec + 4
  let m' := (if odd then 2 * m else m) * 2 ^ (2 * k)
  let r := isqrt m'
  (r, (if odd then e - 1 else e) / 2 - k, r * r != m')

/-- √A (Table 5.8, FSQRT and DSQRT). -/
def Fmt.sqrt (x : Fmt) (rm : Nat) (a : FVal) : FRes :=
  match a with
  | .nan s => ⟨x.nan, if s then [fpInvalid] else []⟩
  | .inf n => if n then ⟨x.nan, [fpInvalid]⟩ else ⟨x.infBits, []⟩
  | .fin n m e =>
    if m = 0 then x.zero n
    else if n then ⟨x.nan, [fpInvalid]⟩
    else
      let (q, h, st) := sqrtMag x.f m e
      x.finish rm false q h st

/-! ## The floating-point atomics and adders (R143, R405): RNE, no flush, no cause -/

/-- A sum under RNE as bits. -/
def Fmt.plainAdd (x : Fmt) (a b : Nat) : Nat := (x.add 0 (x.decode a) (x.decode b)).bits

end Sys2Proof.Machine
end

