-- ==== Sys2Proof/Machine/Atomics.lean ====
section
/-! DEFINITION. The operations of Table 6.3 on a location's value and an operand (06). -/

namespace Sys2Proof.Machine

open Sys2Proof

/-- The operation of an F value (Table 6.3). -/
def AtomOp.ofCode (n : Nat) : AtomOp :=
  match n with
  | 0 => .add | 1 => .sub | 2 => .and | 3 => .or | 4 => .xor | 5 => .min | 6 => .max | 7 => .minu | 8 => .maxu
  | 9 => .xchg | 10 => .fadd | 11 => .fmin | 12 => .fmax | 13 => .add64 | 14 => .xchg64 | _ => .badd2

/-- Bytes of the location. -/
def AtomOp.size (op : AtomOp) : Nat := match op with | .add64 => 8 | .xchg64 => 8 | _ => 4

/-- The sum of two BF16 pairs, half by half, RNE (R143). -/
def addPairs (m b : Nat) : Nat :=
  bf16.plainAdd (m % 65536) (b % 65536) + 65536 * bf16.plainAdd (m / 65536 % 65536) (b / 65536 % 65536)

/-- M' := Op(M, B) (Table 6.3), on the low bits of the operand that the width takes; the floating-point forms round RNE,
keep subnormals and log nothing (R143). -/
def AtomOp.apply (op : AtomOp) (m b : Nat) : Nat :=
  let x := BitVec.ofNat 32 m
  let y := BitVec.ofNat 32 b
  match op with
  | .add => (x + y).toNat
  | .sub => (x - y).toNat
  | .and => (x &&& y).toNat
  | .or => (x ||| y).toNat
  | .xor => (x ^^^ y).toNat
  | .min => (if x.toInt ≤ y.toInt then x else y).toNat
  | .max => (if x.toInt ≤ y.toInt then y else x).toNat
  | .minu => Nat.min x.toNat y.toNat
  | .maxu => Nat.max x.toNat y.toNat
  | .xchg => y.toNat
  | .fadd => fp32.plainAdd x.toNat y.toNat
  | .fmin => (fp32.minMax false (fp32.decode x.toNat) (fp32.decode y.toNat)).bits
  | .fmax => (fp32.minMax true (fp32.decode x.toNat) (fp32.decode y.toNat)).bits
  | .add64 => (m + b) % 2 ^ 64
  | .xchg64 => b % 2 ^ 64
  | .badd2 => addPairs x.toNat y.toNat

/-- Operands applied one after another (R302). -/
def AtomOp.applyAll (op : AtomOp) (m : Nat) (bs : List Nat) : Nat := bs.foldl op.apply m

end Sys2Proof.Machine
end

