-- ==== Sys2Proof/Machine/Float.lean ====
section
/-! DEFINITION. The floating-point words of the F pipe (05): FALU, HALU, DALU and FCVT. -/

namespace Sys2Proof.Machine

open Sys2Proof

/-! ## Shapes -/

/-- An fp32 operand as FPC's FTZ lets it read (R111). -/
def Thread.fp (t : Thread) (w : Word) : FVal :=
  let v := fp32.decode w.toNat
  if t.ftz then fp32.flushIn v else v
/-- A result in one register, with the causes that FPC lets be logged. -/
def Thread.fres (t : Thread) (r : FRes) : Res := ⟨BitVec.ofNat 64 r.bits, t.logged r.causes⟩
/-- An fp32 result under FTZ (R111). -/
def Thread.fres32 (t : Thread) (r : FRes) : Res := t.fres (if t.ftz then fp32.flushOut r else r)
/-- A compare's result. -/
def Thread.cres (t : Thread) (r : Bool × List Nat) : Res := ⟨if r.1 then 1 else 0, t.logged r.2⟩

/-- A word of FALU: its sources and what it computes (R114). -/
def falu (f : FmtA) (unary readsD : Bool) (op : Thread → FVal → FVal → FVal → Res) : WordSpec :=
  { shape := { d := if readsD then .reg else .unused, a := .reg, b := if unary then .unused else .reg, dst := .reg },
    fd := f.d.toNat, fa := f.a.toNat, fb := f.b.toNat, h := f.h.toNat, k := f.k,
    f := fun _ t v => op t (t.fp v.a32) (t.fp v.b32) (t.fp v.d32) }

/-- A word of DALU (R121). -/
def dalu (f : FmtA) (unary readsD : Bool) (dst : Use) (op : Thread → FVal → FVal → FVal → Res) : WordSpec :=
  { shape := { d := if readsD then .pair else .unused, a := .pair, b := if unary then .unused else .pair, dst := dst },
    fd := f.d.toNat, fa := f.a.toNat, fb := f.b.toNat, h := f.h.toNat, k := f.k,
    f := fun _ t v => op t (fp64.decode v.a.toNat) (fp64.decode v.b.toNat) (fp64.decode v.d.toNat) }

/-- The 16-bit format that HALU's F[3] selects (R118). -/
def halfFmt (f : FmtH) : Fmt := if f.g = 1#1 then fp16 else bf16
/-- The lower and upper element of a register. -/
def loElem (x : Fmt) (w : Word) : FVal := x.decode (w.toNat % 65536)
def hiElem (x : Fmt) (w : Word) : FVal := x.decode (w.toNat / 65536)
/-- Two halves' results in one register, their causes together (R112). -/
def joinHalves (lo hi : FRes) : FRes := ⟨lo.bits + 65536 * hi.bits, joinCauses lo.causes hi.causes⟩

/-- A word of HALU that computes per half (R118). -/
def halu (f : FmtH) (readsD : Bool) (op : Fmt → Nat → FVal → FVal → FVal → FRes) : WordSpec :=
  let x := halfFmt f
  { shape := { d := if readsD then .reg else .unused, a := .reg, b := .reg, dst := .reg },
    fd := f.d.toNat, fa := f.a.toNat, fb := f.b.toNat, h := f.h.toNat, k := f.k,
    f := fun _ t v => t.fres (joinHalves
      (op x t.rm (loElem x v.a32) (loElem x v.b32) (loElem x v.d32))
      (op x t.rm (hiElem x v.a32) (hiElem x v.b32) (hiElem x v.d32))) }

/-- A word of FCVT (R122). -/
def fcvt (f : FmtA) (ua : Use) (two : Bool) (dst : Use) (op : Thread → Vals → Res) : WordSpec :=
  { shape := { a := ua, b := if two then .reg else .unused, dst := dst },
    fd := f.d.toNat, fa := f.a.toNat, fb := f.b.toNat, h := f.h.toNat, k := f.k, f := fun _ t v => op t v }

/-! ## Sign operations, clamp and compares (R116, R117) -/

/-- |A|, -A and the like: the value with a sign, NaN canonical; sig adds B's signalling NaN. -/
def Fmt.withSign (x : Fmt) (a : FVal) (neg : Bool) (sig : List Nat) : FRes :=
  match a with
  | .nan _ => ⟨x.nan, sig⟩
  | .inf _ => ⟨x.sign neg + x.infBits, sig⟩
  | .fin _ m e => ⟨(x.encode 1 (.fin neg m e)).bits, sig⟩

/-- FSAT (R117). -/
def saturate (a : FVal) : FRes :=
  match a with
  | .nan s => ⟨0, if s then [fpInvalid] else []⟩
  | _ => if a.order (.fin false 0 0) ≤ 0 then ⟨0, []⟩
    else if 0 ≤ a.order (.fin false 1 0) then ⟨0x3F800000, []⟩
    else ⟨(fp32.encode 1 a).bits, []⟩

/-! ## FALU -/

/-- FADD: D := A + B (R114). -/
def execFadd (f : FmtA) (s : State) : Out := s.run (falu f false false fun t a b _ => t.fres32 (fp32.add t.rm a b))
/-- FSUB: D := A - B. -/
def execFsub (f : FmtA) (s : State) : Out := s.run (falu f false false fun t a b _ => t.fres32 (fp32.add t.rm a b.negate))
/-- FMUL: D := A × B. -/
def execFmul (f : FmtA) (s : State) : Out := s.run (falu f false false fun t a b _ => t.fres32 (fp32.mul t.rm a b))
/-- FFMA: D := A × B + D, one rounding. -/
def execFfma (f : FmtA) (s : State) : Out := s.run (falu f false true fun t a b d => t.fres32 (fp32.fma t.rm a b d))
/-- FMIN (R115). -/
def execFmin (f : FmtA) (s : State) : Out := s.run (falu f false false fun t a b _ => t.fres (fp32.minMax false a b))
/-- FMAX (R115). -/
def execFmax (f : FmtA) (s : State) : Out := s.run (falu f false false fun t a b _ => t.fres (fp32.minMax true a b))
/-- FCMPEQ: D := 1 where A = B (R116). -/
def execFcmpeq (f : FmtA) (s : State) : Out := s.run (falu f false false fun t a b _ => t.cres (fcompare true (· == 0) a b))
/-- FCMPLT: D := 1 where A < B; any NaN is invalid. -/
def execFcmplt (f : FmtA) (s : State) : Out := s.run (falu f false false fun t a b _ => t.cres (fcompare false (fun o => decide (o < 0)) a b))
/-- FCMPLE: D := 1 where A ≤ B. -/
def execFcmple (f : FmtA) (s : State) : Out := s.run (falu f false false fun t a b _ => t.cres (fcompare false (fun o => decide (o ≤ 0)) a b))
/-- FCMPUN: D := 1 where A or B is NaN. -/
def execFcmpun (f : FmtA) (s : State) : Out := s.run (falu f false false fun t a b _ => t.cres (a.isNan || b.isNan, sigCause [a, b]))
/-- FABS: D := |A| (R116). -/
def execFabs (f : FmtA) (s : State) : Out := s.run (falu f true false fun t a _ _ => t.fres (fp32.withSign a false (sigCause [a])))
/-- FNEG: D := -A. -/
def execFneg (f : FmtA) (s : State) : Out := s.run (falu f true false fun t a _ _ => t.fres (fp32.withSign a (!a.neg) (sigCause [a])))
/-- FCOPYSIGN: D := |A| with the sign of B. -/
def execFcopysign (f : FmtA) (s : State) : Out := s.run (falu f false false fun t a b _ => t.fres (fp32.withSign a b.neg (sigCause [a, b])))
/-- FFMS: D := -(A × B) + D, one rounding. -/
def execFfms (f : FmtA) (s : State) : Out := s.run (falu f false true fun t a b d => t.fres32 (fp32.fma t.rm a.negate b d))
/-- FRND: D := A rounded to an integral value (R117). -/
def execFrnd (f : FmtA) (s : State) : Out := s.run (falu f true false fun t a _ _ => t.fres (fp32.roundIntegral t.rm a))
/-- FSAT: D := A clamped to [+0, 1.0]. -/
def execFsat (f : FmtA) (s : State) : Out := s.run (falu f true false fun t a _ _ => t.fres (saturate a))

/-! ## HALU -/

/-- HADD2: D.x := A.x + B.x (R118). -/
def execHadd2 (f : FmtH) (s : State) : Out := s.run (halu f false fun x rm a b _ => x.add rm a b)
/-- HSUB2: D.x := A.x - B.x. -/
def execHsub2 (f : FmtH) (s : State) : Out := s.run (halu f false fun x rm a b _ => x.add rm a b.negate)
/-- HMUL2: D.x := A.x × B.x. -/
def execHmul2 (f : FmtH) (s : State) : Out := s.run (halu f false fun x rm a b _ => x.mul rm a b)
/-- HFMA2: D.x := A.x × B.x + D.x, one rounding. -/
def execHfma2 (f : FmtH) (s : State) : Out := s.run (halu f true fun x rm a b d => x.fma rm a b d)
/-- HMIN2 (R115). -/
def execHmin2 (f : FmtH) (s : State) : Out := s.run (halu f false fun x _ a b _ => x.minMax false a b)
/-- HMAX2 (R115). -/
def execHmax2 (f : FmtH) (s : State) : Out := s.run (halu f false fun x _ a b _ => x.minMax true a b)
/-- HDOT2: fp32 D := A.lo × B.lo + A.hi × B.hi + D with one rounding (R119). -/
def execHdot2 (f : FmtH) (s : State) : Out :=
  let x := halfFmt f
  s.run
    { shape := { d := .reg, a := .reg, b := .reg, dst := .reg },
      fd := f.d.toNat, fa := f.a.toNat, fb := f.b.toNat, h := f.h.toNat, k := f.k,
      f := fun _ t v =>
        let al := loElem x v.a32
        let ah := hiElem x v.a32
        let bl := loElem x v.b32
        let bh := hiElem x v.b32
        let d := t.fp v.d32
        t.fres32 (fp32.sum t.rm [al.mul bl, ah.mul bh, d.term] (sigCause [al, ah, bl, bh, d])) }
/-- HCMPLT2: D.x := all ones where A.x < B.x, else 0 (R120). -/
def execHcmplt2 (f : FmtH) (s : State) : Out := s.run (halu f false fun _ _ a b _ => let r := fcompare false (fun o => decide (o < 0)) a b; (⟨if r.1 then 0xFFFF else 0, r.2⟩ : FRes))

/-! ## DALU -/

/-- DADD: the D pair := A + B (R121). -/
def execDadd (f : FmtA) (s : State) : Out := s.run (dalu f false false .pair fun t a b _ => t.fres (fp64.add t.rm a b))
/-- DSUB. -/
def execDsub (f : FmtA) (s : State) : Out := s.run (dalu f false false .pair fun t a b _ => t.fres (fp64.add t.rm a b.negate))
/-- DMUL. -/
def execDmul (f : FmtA) (s : State) : Out := s.run (dalu f false false .pair fun t a b _ => t.fres (fp64.mul t.rm a b))
/-- DFMA: the D pair := A × B + D, one rounding. -/
def execDfma (f : FmtA) (s : State) : Out := s.run (dalu f false true .pair fun t a b d => t.fres (fp64.fma t.rm a b d))
/-- DMIN. -/
def execDmin (f : FmtA) (s : State) : Out := s.run (dalu f false false .pair fun t a b _ => t.fres (fp64.minMax false a b))
/-- DMAX. -/
def execDmax (f : FmtA) (s : State) : Out := s.run (dalu f false false .pair fun t a b _ => t.fres (fp64.minMax true a b))
/-- DCMPEQ: the single D := 1 where A = B. -/
def execDcmpeq (f : FmtA) (s : State) : Out := s.run (dalu f false false .reg fun t a b _ => t.cres (fcompare true (· == 0) a b))
/-- DCMPLT. -/
def execDcmplt (f : FmtA) (s : State) : Out := s.run (dalu f false false .reg fun t a b _ => t.cres (fcompare false (fun o => decide (o < 0)) a b))
/-- DCMPLE. -/
def execDcmple (f : FmtA) (s : State) : Out := s.run (dalu f false false .reg fun t a b _ => t.cres (fcompare false (fun o => decide (o ≤ 0)) a b))
/-- DABS. -/
def execDabs (f : FmtA) (s : State) : Out := s.run (dalu f true false .pair fun t a _ _ => t.fres (fp64.withSign a false (sigCause [a])))
/-- DNEG. -/
def execDneg (f : FmtA) (s : State) : Out := s.run (dalu f true false .pair fun t a _ _ => t.fres (fp64.withSign a (!a.neg) (sigCause [a])))
/-- DRND. -/
def execDrnd (f : FmtA) (s : State) : Out := s.run (dalu f true false .pair fun t a _ _ => t.fres (fp64.roundIntegral t.rm a))

/-! ## FCVT -/

/-- A value converted to a format under RNE (R75, R122). -/
def Fmt.convert (x : Fmt) (v : FVal) : FRes := x.encode 0 v
/-- A float-to-integer result (R123). -/
def intRes (t : Thread) (r : Int × List Nat) : Res := ⟨(BitVec.ofInt 32 r.1).setWidth 64, t.logged r.2⟩
/-- The two elements of UNPKE4 and UNPKE5 as BF16 (R124). -/
def unpack (x : Fmt) (w : Word) : FRes :=
  ⟨(bf16.convert (x.decode (w.toNat % 256))).bits + 65536 * (bf16.convert (x.decode (w.toNat / 256 % 256))).bits, []⟩
/-- The two elements of PACKE4 and PACKE5 (R124). -/
def pack (x : Fmt) (a b : Word) : FRes :=
  let ra := x.convert (fp32.decode a.toNat)
  let rb := x.convert (fp32.decode b.toNat)
  ⟨ra.bits + 256 * rb.bits, joinCauses ra.causes rb.causes⟩

/-- CVTFI: int32 D := fp32 A (R123). -/
def execCvtfi (f : FmtA) (s : State) : Out := s.run (fcvt f .reg false .reg fun t v => intRes t (toInteger (-2147483648) 2147483647 (fp32.decode v.a32.toNat)))
/-- CVTIF: fp32 D := int32 A (R122). -/
def execCvtif (f : FmtA) (s : State) : Out := s.run (fcvt f .reg false .reg fun t v => t.fres (fp32.convert (intVal v.a32.toInt)))
/-- CVTFU: uint32 D := fp32 A. -/
def execCvtfu (f : FmtA) (s : State) : Out := s.run (fcvt f .reg false .reg fun t v => intRes t (toInteger 0 4294967295 (fp32.decode v.a32.toNat)))
/-- CVTUF: fp32 D := uint32 A. -/
def execCvtuf (f : FmtA) (s : State) : Out := s.run (fcvt f .reg false .reg fun t v => t.fres (fp32.convert (intVal v.a32.toNat)))
/-- CVTFD: the fp64 D pair := fp32 A. -/
def execCvtfd (f : FmtA) (s : State) : Out := s.run (fcvt f .reg false .pair fun t v => t.fres (fp64.convert (fp32.decode v.a32.toNat)))
/-- CVTDF: fp32 D := the fp64 A pair. -/
def execCvtdf (f : FmtA) (s : State) : Out := s.run (fcvt f .pair false .reg fun t v => t.fres (fp32.convert (fp64.decode v.a.toNat)))
/-- CVTDI: int32 D := the fp64 A pair. -/
def execCvtdi (f : FmtA) (s : State) : Out := s.run (fcvt f .pair false .reg fun t v => intRes t (toInteger (-2147483648) 2147483647 (fp64.decode v.a.toNat)))
/-- CVTID: the fp64 D pair := int32 A. -/
def execCvtid (f : FmtA) (s : State) : Out := s.run (fcvt f .reg false .pair fun t v => t.fres (fp64.convert (intVal v.a32.toInt)))
/-- CVTFB: D[15:0] := fp32 A as BF16. -/
def execCvtfb (f : FmtA) (s : State) : Out := s.run (fcvt f .reg false .reg fun t v => t.fres (bf16.convert (fp32.decode v.a32.toNat)))
/-- CVTFH: D[15:0] := fp32 A as FP16. -/
def execCvtfh (f : FmtA) (s : State) : Out := s.run (fcvt f .reg false .reg fun t v => t.fres (fp16.convert (fp32.decode v.a32.toNat)))
/-- CVTBF: fp32 D := BF16 A[15:0]. -/
def execCvtbf (f : FmtA) (s : State) : Out := s.run (fcvt f .reg false .reg fun t v => t.fres (fp32.convert (loElem bf16 v.a32)))
/-- CVTHF: fp32 D := FP16 A[15:0]. -/
def execCvthf (f : FmtA) (s : State) : Out := s.run (fcvt f .reg false .reg fun t v => t.fres (fp32.convert (loElem fp16 v.a32)))
/-- PACKE4: two fp32 values as E4M3, saturating (R124). -/
def execPacke4 (f : FmtA) (s : State) : Out := s.run (fcvt f .reg true .reg fun t v => t.fres (pack e4m3 v.a32 v.b32))
/-- PACKE5: two fp32 values as E5M2. -/
def execPacke5 (f : FmtA) (s : State) : Out := s.run (fcvt f .reg true .reg fun t v => t.fres (pack e5m2 v.a32 v.b32))
/-- UNPKE4: two E4M3 values as BF16. -/
def execUnpke4 (f : FmtA) (s : State) : Out := s.run (fcvt f .reg false .reg fun t v => t.fres (unpack e4m3 v.a32))
/-- UNPKE5: two E5M2 values as BF16. -/
def execUnpke5 (f : FmtA) (s : State) : Out := s.run (fcvt f .reg false .reg fun t v => t.fres (unpack e5m2 v.a32))

end Sys2Proof.Machine
end

