-- ==== Sys2Proof/Machine/Integer.lean ====
section
/-! DEFINITION. The integer, logic, compare and move words (04): IALU1, IALU2, IALU3 and the immediate forms. -/

namespace Sys2Proof.Machine

open Sys2Proof

/-! ## The arithmetic -/

/-- The shift amount of a register or immediate shift (R87). -/
def shiftAmount (b : Word) : Nat := b.toNat % 64
/-- SHL, SHR, SRA and ROL by an amount from 0 to 63 (R87). -/
def shl32 (a : Word) (n : Nat) : Word := a <<< n
def shr32 (a : Word) (n : Nat) : Word := a >>> n
def sra32 (a : Word) (n : Nat) : Word := a.sshiftRight n
def rol32 (a : Word) (n : Nat) : Word := a.rotateLeft (n % 32)
/-- The high words of the products (R88). -/
def mulHigh (a b : Word) : Word := hiOf (a.signExtend 64 * b.signExtend 64)
def mulHighU (a b : Word) : Word := hiOf (a.setWidth 64 * b.setWidth 64)
/-- How many of the bits below n of a word are set. -/
def countBits (a : Word) : Nat → Nat
  | 0 => 0
  | n + 1 => countBits a n + (if a.getLsbD n then 1 else 0)
/-- How many leading bits of the lowest n are zero (R89). -/
def leadingZeros (a : Word) : Nat → Nat
  | 0 => 0
  | n + 1 => if a.getLsbD n then 0 else leadingZeros a n + 1
/-- A word with its bits in reverse (R89). -/
def bitReverse (a : Word) : Word := (natsFrom 0 32).foldl (fun r i => if a.getLsbD (31 - i) then r ||| (1#32 <<< i) else r) 0
/-- The quotient and remainder of a divide (R90). -/
def divide (signed : Bool) (a b : Word) : Word × Word :=
  if b = 0#32 then (0xFFFFFFFF#32, a)
  else if signed then
    if a = 0x80000000#32 ∧ b = 0xFFFFFFFF#32 then (0x80000000#32, 0)
    else
      let q := a.toInt.tdiv b.toInt
      (BitVec.ofInt 32 q, BitVec.ofInt 32 (a.toInt - q * b.toInt))
  else (BitVec.ofNat 32 (a.toNat / b.toNat), BitVec.ofNat 32 (a.toNat % b.toNat))
/-- The offset and effective width of a bit field (R91). -/
def fieldOf (b : Word) : Nat × Nat :=
  let o := b.toNat % 32
  let c := b.toNat / 256 % 32
  (o, min (if c = 0 then 32 else c) (32 - o))
/-- BFX, BFXS and BFI (R91). -/
def bitField (a b : Word) : Word :=
  let (o, e) := fieldOf b
  BitVec.ofNat 32 (bitsOf a.toNat o e)
def bitFieldS (a b : Word) : Word :=
  let (o, e) := fieldOf b
  let x := bitsOf a.toNat o e
  if x / 2 ^ (e - 1) % 2 = 1 then BitVec.ofNat 32 (x + (2 ^ 32 - 2 ^ e)) else BitVec.ofNat 32 x
def bitFieldInsert (d a b : Word) : Word :=
  let (o, e) := fieldOf b
  BitVec.ofNat 32 (setBits d.toNat o e a.toNat)

/-! ## Symbolic values in a region (R217, R219) -/

/-- The tag that a single register operand carries as a 32-bit value. -/
def Thread.tag32 (t : Thread) (e : Nat) : Option Tag :=
  match t.region with
  | none => none
  | some r => match r.marks.find? e with
    | some (.tag x) => if x.pair then none else some x
    | _ => none
/-- The tag that a pair operand carries as a 64-bit value; v0:v1 carries none, since v0 reads zero. -/
def Thread.tag64 (t : Thread) (e : Nat) : Option Tag :=
  if e / 2 = 0 then none else
  match t.region with
  | none => none
  | some r => match r.marks.find? (e / 2 * 2) with
    | some (.tag x) => if x.pair then some x else none
    | _ => none
/-- The tag of an operand under its use. -/
def Thread.tagOf (t : Thread) (u : Use) (e : Nat) : Option Tag :=
  if 56 ≤ e then none else
  match u with
  | .reg => t.tag32 e
  | .pair => t.tag64 e
  | _ => none
/-- The relation that a single register carries. -/
def Thread.relOf (t : Thread) (e : Nat) : Option Relation :=
  match t.region with
  | none => none
  | some r => match r.marks.find? e with
    | some (.rel x) => some x
    | _ => none

/-- The tag with a constant added, modulo 2^32 or 2^64 by its width (R217). -/
def Tag.plus (x : Tag) (c : DWord) : Tag := { x with k := if x.pair then x.k + c else (loOf x.k + loOf c).setWidth 64 }

/-- A sum or difference: one symbolic operand and one concrete carry the tag on; a concrete first operand of a difference
or two symbolic operands pin. -/
def sumSym (minus : Bool) (ua : Use) (fa : Nat) (ub : Use) (fb : Nat) (t : Thread) (v : Vals) : Sym :=
  let pa := t.loadsOf (ua.regs fa)
  let pb := t.loadsOf (ub.regs fb)
  match t.tagOf ua fa, t.tagOf ub fb with
  | some x, none => { mark := some (.tag (x.plus (if minus then 0 - v.b else v.b))), pins := pb }
  | none, some x => if minus then { pins := pa ++ pb } else { mark := some (.tag (x.plus v.a)), pins := pa }
  | _, _ => { pins := pa ++ pb }

/-- A compare: with a symbolic operand the result carries a pending relation (R219). -/
def compareSym (cmp : Cmp) (fa fb : Nat) (t : Thread) (v : Vals) : Sym :=
  let side := fun (x : Option Tag) (c : DWord) => match x with | some g => Side.sym g | none => Side.con c
  match t.tagOf .reg fa, t.tagOf .reg fb with
  | none, none => { pins := t.loadsOf (Use.regs .reg fa ++ Use.regs .reg fb) }
  | x, y =>
    { mark := some (.rel ⟨cmp, side x v.a, side y v.b, false⟩),
      pins := (if x.isSome then [] else t.loadsOf (Use.regs .reg fa)) ++ (if y.isSome then [] else t.loadsOf (Use.regs .reg fb)) }

/-- A compare with an immediate. -/
def compareImmSym (cmp : Cmp) (fa : Nat) (imm : Word) (t : Thread) : Sym :=
  match t.tagOf .reg fa with
  | none => { pins := t.loadsOf (Use.regs .reg fa) }
  | some x => { mark := some (.rel ⟨cmp, .sym x, .con (imm.setWidth 64), false⟩) }

/-- A condition read by a branch or by SEL's D: a symbolic value is compared with zero, a pending relation is recorded with
the outcome the word saw, any other dependence is pinned (R219). -/
def conditionSym (cmp : Cmp) (u : Use) (e : Nat) (held : Bool) (value : DWord) (t : Thread) : Sym :=
  if 56 ≤ e then {} else
  match t.tagOf u e with
  | some x => { con := some (⟨cmp, .sym x, .con 0, u == .pair⟩, held) }
  | none =>
    match (if u = .reg then t.relOf e else none) with
    | some r => { con := some (r, value != 0#64) }
    | none => { pins := t.loadsOf (u.regs e) }

/-- SEL: the selected operand's tag is carried, the other is left alone, the condition is recorded (R217). -/
def selSym (fd fa fb : Nat) (t : Thread) (v : Vals) : Sym :=
  let sel := if v.d32 ≠ 0#32 then fa else fb
  let cond := conditionSym .ne .reg fd (v.d32 != 0#32) v.d t
  match t.tagOf .reg sel with
  | some x => { cond with mark := some (.tag x) }
  | none => { cond with pins := cond.pins ++ t.loadsOf (Use.regs .reg sel) }

/-! ## The word forms -/

/-- A two-operand word on single registers (R88). -/
def bin32 (f : FmtA) (g : Word → Word → Word) : WordSpec :=
  { shape := { a := .reg, b := .reg, dst := .reg }, fd := f.d.toNat, fa := f.a.toNat, fb := f.b.toNat, h := f.h.toNat, k := f.k,
    f := fun _ _ v => ⟨(g v.a32 v.b32).setWidth 64, []⟩ }
/-- A one-operand word on single registers (R89: B is ignored). -/
def un32 (f : FmtA) (g : Word → Word) : WordSpec :=
  { shape := { a := .reg, dst := .reg }, fd := f.d.toNat, fa := f.a.toNat, h := f.h.toNat, k := f.k,
    f := fun _ _ v => ⟨(g v.a32).setWidth 64, []⟩ }
/-- A word on single registers that reads D too. -/
def tern32 (f : FmtA) (g : Word → Word → Word → Word) : WordSpec :=
  { shape := { d := .reg, a := .reg, b := .reg, dst := .reg }, fd := f.d.toNat, fa := f.a.toNat, fb := f.b.toNat,
    h := f.h.toNat, k := f.k, f := fun _ _ v => ⟨(g v.d32 v.a32 v.b32).setWidth 64, []⟩ }
/-- A two-operand word on pairs. -/
def bin64 (f : FmtA) (g : DWord → DWord → DWord) : WordSpec :=
  { shape := { a := .pair, b := .pair, dst := .pair }, fd := f.d.toNat, fa := f.a.toNat, fb := f.b.toNat, h := f.h.toNat,
    k := f.k, f := fun _ _ v => ⟨g v.a v.b, []⟩ }
/-- A compare of single registers, writing 1 or 0 (R89). -/
def compare32 (f : FmtA) (c : Cmp) : WordSpec :=
  { bin32 f fun a b => boolWord (c.eval false (a.setWidth 64) (b.setWidth 64)) with
    y := some (compareSym c f.a.toNat f.b.toNat) }
/-- A pair shifted by a register amount (R92). -/
def shift64 (f : FmtA) (g : DWord → Nat → DWord) : WordSpec :=
  { shape := { a := .pair, b := .reg, dst := .pair }, fd := f.d.toNat, fa := f.a.toNat, fb := f.b.toNat, h := f.h.toNat,
    k := f.k, f := fun _ _ v => ⟨g v.a (shiftAmount v.b32), []⟩ }
/-- A pair result from two single registers (R93). -/
def widen (f : FmtA) (g : Word → Word → DWord) : WordSpec :=
  { shape := { a := .reg, b := .reg, dst := .pair }, fd := f.d.toNat, fa := f.a.toNat, fb := f.b.toNat, h := f.h.toNat,
    k := f.k, f := fun _ _ v => ⟨g v.a32 v.b32, []⟩ }
/-- A divide: class L, and INT_DIVZERO logged where B is zero (R90). -/
def divideWord (f : FmtA) (g : Word → Word → Word) : WordSpec :=
  { shape := { a := .reg, b := .reg, dst := .reg, classL := true }, fd := f.d.toNat, fa := f.a.toNat, fb := f.b.toNat,
    h := f.h.toNat, k := f.k,
    f := fun _ _ v => ⟨(g v.a32 v.b32).setWidth 64, if v.b32 = 0#32 then [intDivZero] else []⟩ }
/-- An immediate form: D from A and an immediate; H has no place in the format (R94). -/
def immWord (d a : Nat) (k : BitVec 1) (g : Word → Word) : WordSpec :=
  { shape := { a := .reg, dst := .reg, latch := false }, fd := d, fa := a, k := k,
    f := fun _ _ v => ⟨(g v.a32).setWidth 64, []⟩ }
/-- A compare with CMPI's immediate (R42, R96). -/
def compareImm (f : FmtCmpi) (c : Cmp) : WordSpec :=
  { immWord f.d.toNat f.a.toNat f.k fun a =>
      boolWord (c.eval false (a.setWidth 64) ((f.imm.signExtend 32).setWidth 64)) with
    y := some fun t _ => compareImmSym c f.a.toNat (f.imm.signExtend 32) t }

/-! ## IALU1 (R88, Table 4.1) -/

/-- ADD: D := A + B. -/
def execAdd (f : FmtA) (s : State) : Out := s.run { bin32 f fun a b => a + b with
    y := some (sumSym false .reg f.a.toNat .reg f.b.toNat) }

/-- SUB: D := A − B. -/
def execSub (f : FmtA) (s : State) : Out := s.run { bin32 f fun a b => a - b with
    y := some (sumSym true .reg f.a.toNat .reg f.b.toNat) }

/-- MUL: D := (A × B)[31:0]. -/
def execMul (f : FmtA) (s : State) : Out := s.run (bin32 f fun a b => a * b)

/-- MULH: the high word of the signed product. -/
def execMulh (f : FmtA) (s : State) : Out := s.run (bin32 f fun a b => mulHigh a b)

/-- MULHU: the high word of the unsigned product. -/
def execMulhu (f : FmtA) (s : State) : Out := s.run (bin32 f fun a b => mulHighU a b)

/-- AND. -/
def execAnd (f : FmtA) (s : State) : Out := s.run (bin32 f fun a b => a &&& b)

/-- OR. -/
def execOr (f : FmtA) (s : State) : Out := s.run (bin32 f fun a b => a ||| b)

/-- XOR. -/
def execXor (f : FmtA) (s : State) : Out := s.run (bin32 f fun a b => a ^^^ b)

/-- ANDN: A and not B. -/
def execAndn (f : FmtA) (s : State) : Out := s.run (bin32 f fun a b => a &&& ~~~b)

/-- SHL (R87). -/
def execShl (f : FmtA) (s : State) : Out := s.run (bin32 f fun a b => shl32 a (shiftAmount b))

/-- SHR (R87). -/
def execShr (f : FmtA) (s : State) : Out := s.run (bin32 f fun a b => shr32 a (shiftAmount b))

/-- SRA (R87). -/
def execSra (f : FmtA) (s : State) : Out := s.run (bin32 f fun a b => sra32 a (shiftAmount b))

/-- ROL (R87). -/
def execRol (f : FmtA) (s : State) : Out := s.run (bin32 f fun a b => rol32 a (shiftAmount b))

/-- MIN, signed. -/
def execMin (f : FmtA) (s : State) : Out := s.run (bin32 f fun a b => if a.toInt < b.toInt then a else b)

/-- MAX, signed. -/
def execMax (f : FmtA) (s : State) : Out := s.run (bin32 f fun a b => if a.toInt > b.toInt then a else b)

/-- MINU. -/
def execMinu (f : FmtA) (s : State) : Out := s.run (bin32 f fun a b => if a.toNat < b.toNat then a else b)

/-! ## IALU2 (R89, Table 4.2) -/

/-- MAXU. -/
def execMaxu (f : FmtA) (s : State) : Out := s.run (bin32 f fun a b => if a.toNat > b.toNat then a else b)

/-- ABS: of 0x8000_0000 it is itself. -/
def execAbs (f : FmtA) (s : State) : Out := s.run (un32 f fun a => if a.toInt < 0 then 0 - a else a)

/-- CLZ: 32 where A is 0. -/
def execClz (f : FmtA) (s : State) : Out := s.run (un32 f fun a => BitVec.ofNat 32 (leadingZeros a 32))

/-- POPC. -/
def execPopc (f : FmtA) (s : State) : Out := s.run (un32 f fun a => BitVec.ofNat 32 (countBits a 32))

/-- BREV. -/
def execBrev (f : FmtA) (s : State) : Out := s.run (un32 f bitReverse)

/-- SEL: D := (D ≠ 0) ? A : B. -/
def execSel (f : FmtA) (s : State) : Out := s.run { tern32 f fun d a b => if d ≠ 0#32 then a else b with
    y := some (selSym f.d.toNat f.a.toNat f.b.toNat) }

/-- CMPEQ: 1 where the relation holds, else 0. -/
def execCmpeq (f : FmtA) (s : State) : Out := s.run (compare32 f .eq)

/-- CMPNE: 1 where the relation holds, else 0. -/
def execCmpne (f : FmtA) (s : State) : Out := s.run (compare32 f .ne)

/-- CMPLT: 1 where the relation holds, else 0. -/
def execCmplt (f : FmtA) (s : State) : Out := s.run (compare32 f .lt)

/-- CMPLE: 1 where the relation holds, else 0. -/
def execCmple (f : FmtA) (s : State) : Out := s.run (compare32 f .le)

/-- CMPLTU: 1 where the relation holds, else 0. -/
def execCmpltu (f : FmtA) (s : State) : Out := s.run (compare32 f .ltu)

/-- CMPLEU: 1 where the relation holds, else 0. -/
def execCmpleu (f : FmtA) (s : State) : Out := s.run (compare32 f .leu)

/-- ADD64, modulo 2^64. -/
def execAdd64 (f : FmtA) (s : State) : Out := s.run { bin64 f fun a b => a + b with
    y := some (sumSym false .pair f.a.toNat .pair f.b.toNat) }

/-- SUB64, modulo 2^64. -/
def execSub64 (f : FmtA) (s : State) : Out := s.run { bin64 f fun a b => a - b with
    y := some (sumSym true .pair f.a.toNat .pair f.b.toNat) }

/-- MUL64: the low 64 bits of the product. -/
def execMul64 (f : FmtA) (s : State) : Out := s.run (bin64 f fun a b => a * b)

/-- MAD: D := (A × B + D)[31:0]. -/
def execMad (f : FmtA) (s : State) : Out := s.run (tern32 f fun d a b => a * b + d)

/-! ## IALU3 (R90 to R93) -/

/-- DIV. -/
def execDiv (f : FmtA) (s : State) : Out := s.run (divideWord f fun a b => (divide true a b).1)

/-- DIVU. -/
def execDivu (f : FmtA) (s : State) : Out := s.run (divideWord f fun a b => (divide false a b).1)

/-- REM: takes the sign of A. -/
def execRem (f : FmtA) (s : State) : Out := s.run (divideWord f fun a b => (divide true a b).2)

/-- REMU. -/
def execRemu (f : FmtA) (s : State) : Out := s.run (divideWord f fun a b => (divide false a b).2)

/-- BFX. -/
def execBfx (f : FmtA) (s : State) : Out := s.run (bin32 f bitField)

/-- BFXS. -/
def execBfxs (f : FmtA) (s : State) : Out := s.run (bin32 f bitFieldS)

/-- BFI: the other bits of D are kept. -/
def execBfi (f : FmtA) (s : State) : Out := s.run (tern32 f bitFieldInsert)

/-- SHL64. -/
def execShl64 (f : FmtA) (s : State) : Out := s.run (shift64 f fun a n => a <<< n)

/-- SHR64. -/
def execShr64 (f : FmtA) (s : State) : Out := s.run (shift64 f fun a n => a >>> n)

/-- SRA64. -/
def execSra64 (f : FmtA) (s : State) : Out := s.run (shift64 f fun a n => a.sshiftRight n)

/-- MULW: the exact signed product. -/
def execMulw (f : FmtA) (s : State) : Out := s.run (widen f fun a b => a.signExtend 64 * b.signExtend 64)

/-- MULWU: the exact unsigned product. -/
def execMulwu (f : FmtA) (s : State) : Out := s.run (widen f fun a b => a.setWidth 64 * b.setWidth 64)

/-! ## Immediate forms (R94 to R97) -/

/-- ADDI: A plus the sign-extended immediate; it moves a symbolic value on (R217). -/
def execAddi (f : FmtI) (s : State) : Out :=
  s.run { immWord f.d.toNat f.a.toNat f.k fun a => a + f.imm.signExtend 32 with
    y := some fun t _ =>
      match t.tagOf .reg f.a.toNat with
      | some x => { mark := some (.tag (x.plus (f.imm.signExtend 64))) }
      | none => { pins := t.loadsOf (Use.regs .reg f.a.toNat) } }

/-- ANDI: zero-extended immediate. -/
def execAndi (f : FmtI) (s : State) : Out := s.run (immWord f.d.toNat f.a.toNat f.k fun a => a &&& f.imm.setWidth 32)

/-- ORI. -/
def execOri (f : FmtI) (s : State) : Out := s.run (immWord f.d.toNat f.a.toNat f.k fun a => a ||| f.imm.setWidth 32)

/-- XORI. -/
def execXori (f : FmtI) (s : State) : Out := s.run (immWord f.d.toNat f.a.toNat f.k fun a => a ^^^ f.imm.setWidth 32)

/-- SHLI: the amount is imm12[5:0] (R95). -/
def execShli (f : FmtSh) (s : State) : Out := s.run (immWord f.d.toNat f.a.toNat f.k fun a => shl32 a f.n.toNat)

/-- SHRI: the amount is imm12[5:0] (R95). -/
def execShri (f : FmtSh) (s : State) : Out := s.run (immWord f.d.toNat f.a.toNat f.k fun a => shr32 a f.n.toNat)

/-- SRAI: the amount is imm12[5:0] (R95). -/
def execSrai (f : FmtSh) (s : State) : Out := s.run (immWord f.d.toNat f.a.toNat f.k fun a => sra32 a f.n.toNat)

/-- ROLI: the amount is imm12[5:0] (R95). -/
def execRoli (f : FmtSh) (s : State) : Out := s.run (immWord f.d.toNat f.a.toNat f.k fun a => rol32 a f.n.toNat)

/-- CMPI.EQ (R96). -/
def execCmpiEq (f : FmtCmpi) (s : State) : Out := s.run (compareImm f .eq)

/-- CMPI.NE (R96). -/
def execCmpiNe (f : FmtCmpi) (s : State) : Out := s.run (compareImm f .ne)

/-- CMPI.LT (R96). -/
def execCmpiLt (f : FmtCmpi) (s : State) : Out := s.run (compareImm f .lt)

/-- CMPI.LE (R96). -/
def execCmpiLe (f : FmtCmpi) (s : State) : Out := s.run (compareImm f .le)

/-- CMPI.LTU (R96). -/
def execCmpiLtu (f : FmtCmpi) (s : State) : Out := s.run (compareImm f .ltu)

/-- CMPI.LEU (R96). -/
def execCmpiLeu (f : FmtCmpi) (s : State) : Out := s.run (compareImm f .leu)

/-- CMPI.GT (R96). -/
def execCmpiGt (f : FmtCmpi) (s : State) : Out := s.run (compareImm f .gt)

/-- CMPI.GE (R96). -/
def execCmpiGe (f : FmtCmpi) (s : State) : Out := s.run (compareImm f .ge)

/-- MOVL: D := the zero-extended immediate (R97). -/
def execMovl (f : FmtL) (s : State) : Out :=
  s.run { shape := { dst := .reg, latch := false }, fd := f.d.toNat, k := f.k, f := fun _ _ _ => ⟨f.imm.setWidth 64, []⟩ }

/-- MOVH: the immediate in D[31:14], D[13:0] kept (R97). -/
def execMovh (f : FmtL) (s : State) : Out :=
  s.run { shape := { d := .reg, dst := .reg, latch := false }, fd := f.d.toNat, k := f.k,
          f := fun _ _ v => ⟨((f.imm.setWidth 32 <<< 14) ||| (v.d32 &&& 0x3FFF#32)).setWidth 64, []⟩ }

end Sys2Proof.Machine
end

