-- ==== Sys2Proof/Machine/Control.lean ====
section
/-! DEFINITION. The SYS words (R102 to R109), branches and jumps (R98 to R101), the hints without a memory effect (R53,
R156, R161) and the executed illegal word (R54). -/

namespace Sys2Proof.Machine

open Sys2Proof

/-! ## Where the executing word stands -/

/-- The packet of the executing word. -/
def State.wordPc (s : State) : Word := match s.ctx with | some c => c.pc | none => 0
/-- The position of the executing word in its packet. -/
def State.wordPos (s : State) : Nat := match s.ctx with | some c => c.pos | none => 0
/-- The gang slot of the executing word. -/
def State.wordGang (s : State) : Nat := match s.ctx with | some c => c.gang | none => 0

/-- The serial number at the start of the chain that executes. -/
def State.chainStart (s : State) : Nat := match s.ctx with | some c => c.since | none => s.sn

/-! ## Special registers (R35, R240) -/

/-- A team's id (R251): generation and index; 0xFFFF for a singleton (R253). -/
def State.teamId (s : State) (k : Nat) : Nat :=
  if 65536 ≤ k then 0xFFFF else
  match s.teams.find? k with
  | some T => T.gen * 1024 + k % 1024
  | none => 0xFFFF

/-- The fairness period of a record in clk, 0 where the progress promise is off (R28, R30). -/
def Record.fairTime (r : Record) : Nat :=
  if r.flags % 2 = 0 then 0 else if r.fair = 0 then 4096 else 16 * r.fair

/-- The content of a special register for a lane (Table 1.4, R240). -/
def State.special (s : State) (g : Nat) (G : Gang) (l : Nat) (t : Thread) (n : Nat) : Word :=
  let sp := s.spawns.find? G.spawn
  let num : Nat := match n with
    | 0 => G.index * G.width + l
    | 1 => l
    | 2 => G.width
    | 3 => G.index
    | 4 => coreOf g
    | 5 => clusterOf g
    | 6 => dieOf g
    | 7 => s.podIndex
    | 8 => s.teamId G.team
    | 9 => match sp with | some p => p.record.threads | none => 0
    | 10 => (loOf s.clk).toNat
    | 11 => (t.clockHi.getD (hiOf s.clk)).toNat
    | 12 => t.fpc.toNat
    | 13 => match sp with | some p => p.rung | none => 0
    | 14 => t.axStatus.toNat
    | 15 => t.trapcause.toNat
    | 16 => t.trappc.toNat
    | 17 => t.trapLo.toNat
    | 18 => t.trapHi.toNat
    | 19 => if G.xblk then 1 else 0
    | 20 => match sp with | some p => p.id.toNat | none => 0
    | 21 => G.prio
    | 22 => t.trapvec.toNat
    | 23 => match sp with | some p => p.record.fairTime | none => 0
    | 24 => match sp with | some p => p.record.flags % 256 | none => 0
    | 25 => t.resumePos + (if t.handler then 256 else 0)
    | 26 => t.trapscr.toNat
    | 27 => G.replays.toNat
    | _ => 0
  BitVec.ofNat 32 num

/-- A write of a special register: FPC's bits [5:0], TRAPVEC and TRAPSCR; every other write is ignored (R35, R107). -/
def Thread.writeSpecial (t : Thread) (n : Nat) (v : Word) : Thread :=
  match n with
  | 12 => { t with fpc := v &&& 0x3F#32 }
  | 22 => { t with trapvec := v }
  | 26 => { t with trapscr := v }
  | _ => t

/-! ## The extended block (R12, R159) -/

/-- The bytes of a partition's register file that no base block and no extended block occupies (R158, R159). -/
def State.freePool (s : State) (part : Nat) : Nat :=
  262144 - ((s.gangs.filter fun e => partKey e.1 == part && !e.2.ended).map fun e =>
    128 * e.2.width + (if e.2.xblk then 96 * e.2.width else 0)).foldl (· + ·) 0

/-- The partition has room for a gang's extended block. -/
def State.xRoom (s : State) (g : Nat) (G : Gang) : Bool := decide (96 * G.width ≤ s.freePool (partKey g))

/-- Another gang of the partition waits in XACQ (R12). -/
def State.xWaiter (s : State) (g : Nat) : Bool := s.xacqQueue.any fun x => x != g && partKey x == partKey g

/-- The gang with the extended block: v32 to v55 read zero in every lane (R12). -/
def Gang.acquireX (G : Gang) : Gang :=
  if G.xblk then G else
  { G with xblk := true, threads := G.threads.map fun t => { t with regs := t.regs.filter fun e => decide (e.1 < 32) } }

/-- The gang without the extended block: its contents are lost (R12). -/
def Gang.releaseX (G : Gang) : Gang :=
  { G with xblk := false, threads := G.threads.map fun t => { t with regs := t.regs.filter fun e => decide (e.1 < 32) } }

/-- The spawn's record allows extended blocks (R13). -/
def State.xAllowed (s : State) (G : Gang) : Bool :=
  match s.spawns.find? G.spawn with
  | some p => bitsOf p.record.flags 2 1 == 1
  | none => false

/-! ## SYS words -/

/-- NOP: changes nothing but what every word does (R103). -/
def execNop (f : FmtA) (s : State) : Out := s.run { k := f.k, shape := { latch := false } }

/-- A matrix or accumulator operation may log arithmetic causes: MMA, MMAG, ASCALE, ASTORE (R78, R81). -/
def MatOp.mayLog (o : MatOp) : Bool :=
  match o.kind with
  | .product _ _ _ _ _ _ _ _ _ _ => true
  | .ascale _ => true
  | .astore _ _ => true
  | _ => false

/-- A cause of the lane's earlier words has no record yet, or may still be raised by a matrix instruction of its gang that names
the lane in its records, or the lane has a trap still to be taken (R34, R78, R81). -/
def State.causesOpen (s : State) (g l : Nat) : Bool :=
  s.matOps.any (fun o => o.gang == g && o.mayLog && (inLanes o.lanes l || inLanes o.m0 l)) ||
  match s.gangs.find? g with
  | none => false
  | some G => G.logs.any (fun x => inLanes x.lanes l) || (G.thread l).trap.isSome

/-- EXIT: waits for the thread's class-L and class-Q results and for its arithmetic causes to be recorded, then ends the
thread after its chain (R34, R104); the results of its own chain do not hold the chain back (R22). -/
def execExit (f : FmtA) (s : State) : Out :=
  let before := s.beforeSn s.chainStart
  s.runBlocking { k := f.k, shape := { latch := false }, post := fun _ _ _ t => { t with exiting := true } }
    (fun l _ _ =>
      if before.outstandingL s.wordGang l || before.outstandingQ s.wordGang l || before.causesOpen s.wordGang l then none
      else some 0)
    (fun _ _ _ => .exit)

/-- A software trap to be taken after the chain (R105): TRAPADDRLO the literal, TRAPADDRHI the word position. Of two in one chain, on which
the spec is silent, the first is taken (DESIGN CHOICE, log 86). -/
def softTrap (s : State) (cause : Nat) (f : FmtA) : WordSpec :=
  { k := f.k, shape := { latch := false },
    post := fun _ _ _ t =>
      match t.swTrap with
      | some _ => t
      | none => { t with swTrap := some ⟨cause, 0, 0, f.b.setWidth 32, BitVec.ofNat 32 s.wordPos, false, 0⟩ } }

/-- TRAP n: SOFTWARE_TRAP in each lane (R105). -/
def execTrap (f : FmtA) (s : State) : Out := s.run (softTrap s 0x10 f)

/-- BRK n: BREAKPOINT in each lane (R105). -/
def execBrk (f : FmtA) (s : State) : Out := s.run (softTrap s 0x11 f)

/-- ERET: in a handler, ends handler mode and goes to the resume point; elsewhere no effect (R106, R231). -/
def execEret (f : FmtA) (s : State) : Out :=
  s.run { k := f.k, shape := { latch := false },
          post := fun _ view _ t =>
            if view.handler then { t with handler := false, jump := some (view.trappc, view.resumePos) } else t }

/-- SREAD: D := the special register; CLOCKLO's sample keeps the high half (R36, R107). -/
def execSread (f : FmtA) (s : State) : Out :=
  match s.gangs.find? s.wordGang with
  | none => s.run { k := f.k }
  | some G =>
    let G := (s.ctx.bind (·.pre)).getD G
    s.run { shape := { dst := .reg }, fd := f.d.toNat, h := f.h.toNat, k := f.k,
            f := fun l t _ => ⟨(s.special s.wordGang G l t f.b.toNat).setWidth 64, []⟩,
            post := fun _ _ _ t => if f.b.toNat = 10 then { t with clockHi := some (hiOf s.clk) } else t }

/-- SWRITE: the special register := A; not allowed in a region (R107, R214). -/
def execSwrite (f : FmtA) (s : State) : Out :=
  s.run { shape := { a := .reg }, fa := f.a.toNat, h := f.h.toNat, k := f.k, deny := 3,
          post := fun _ _ v t => t.writeSpecial f.b.toNat v.a32 }

/-- YIELD: sets the thread's yield mark; a subscribed thread's YIELD moves the broadcast after the chain (R29, R108). -/
def execYield (f : FmtA) (s : State) : Out :=
  s.run { k := f.k, shape := { latch := false }, post := fun _ _ _ t => { t with yielded := true },
          gang := fun G => { G with yieldNow := true } }

/-- XACQ: XBLOCK where the record allows no extended block; else acquires it for the gang, or waits in turn (R12, R13,
R109). After an XREL of its chain it acquires the block anew: the words of a chain act on the holding in their order (log 86). -/
def execXacq (f : FmtA) (s : State) : Out :=
  s.word fun c view =>
    if s.xAllowed view then
      let G := (s.gangs.find? c.gang).getD view
      let now := G.xblk || (s.xRoom c.gang G && !s.xWaiter c.gang && !s.xacqQueue.contains c.gang)
      let s1 := if now ∨ s.xacqQueue.contains c.gang ∨ s.regionLanes c.gang c.lanes = c.lanes then s
        else { s with xacqQueue := s.xacqQueue ++ [c.gang] }
      match s1.runBlocking { k := f.k, shape := { latch := false }, deny := 3, gang := Gang.acquireX }
        (fun _ _ _ => if now then some 0 else none) (fun _ _ _ => .xacq) with
      | .next s2 => s2
      | _ => s1
    else s.raise c ⟨7, 0, 0, c.lanes, 0⟩

/-- A destination that no longer takes a result for v32 to v55. -/
def Dest.lowOnly : Dest → Dest
  | .reg r => .reg (if 32 ≤ r ∧ r < 56 then 63 else r)
  | .signed8 r => .signed8 (if 32 ≤ r ∧ r < 56 then 63 else r)
  | .signed16 r => .signed16 (if 32 ≤ r ∧ r < 56 then 63 else r)
  | .pair r => .pair (if 32 ≤ r ∧ r < 56 then 63 else r)
  | .quad r => .quad (if 32 ≤ r ∧ r < 56 then 63 else r)
  | d => d

/-- A transfer whose answer no longer goes to v32 to v55 of a gang. -/
def XferKind.lowOnly (g : Nat) : XferKind → XferKind
  | .atomic o g' l op a x d => .atomic o g' l op a x (if g' = g then d.lowOnly else d)
  | .post g' l d ctx pa bs => .post g' l (if g' = g ∧ 32 ≤ d then 63 else d) ctx pa bs
  | k => k

/-- The outstanding class-L results of a gang that are bound for v32 to v55 are discarded when they arrive (R109). -/
def State.dropHigh (s : State) (g : Nat) : State :=
  { s with
    pending := s.pending.map fun p => if p.gang = g ∧ 32 ≤ p.dest then { p with dest := 63 } else p
    accesses := s.accesses.map fun a => if a.gang = g then { a with dest := a.dest.lowOnly } else a
    posts := s.posts.map fun p => if p.gang = g ∧ 32 ≤ p.dest then { p with dest := 63 } else p
    transfers := s.transfers.map fun t => { t with kind := t.kind.lowOnly g } }

/-- The words of the chain release the extended block. -/
def State.markReleased (s : State) : State := { s with ctx := s.ctx.map fun c => { c with released := true } }

/-- A chain that has released the block is done: what its words wrote to v32 to v55 is lost with the release, and so are the
results still outstanding that are bound for them (R12, R109). -/
def State.loseHigh (s : State) (g : Nat) : State :=
  (s.dropHigh g).onGang g fun G =>
    { G with threads := G.threads.map fun t => { t with regs := t.regs.filter fun e => decide (e.1 < 32) } }

/-- XREL: releases the block for the gang (R12, R109). -/
def execXrel (f : FmtA) (s : State) : Out :=
  match s.run { k := f.k, shape := { latch := false }, deny := 3, gang := Gang.releaseX } with
  | .next s1 =>
    .next (match s1.ctx with
      | some c => if c.lanes = 0#64 ∨ c.cause.isSome then s1 else s1.markReleased
      | none => s1)
  | r => r

/-- XTRY: acquires the block if there is room and no other gang waits in XACQ; D := 1 if the gang then holds it (R12, R109). After
an XREL of its chain it takes the block anew where it can (log 86). -/
def execXtry (f : FmtA) (s : State) : Out :=
  match s.gangs.find? s.wordGang with
  | none => s.run { k := f.k }
  | some G =>
    let gets := s.xAllowed G && s.xRoom s.wordGang G && !s.xWaiter s.wordGang
    s.run { shape := { dst := .reg, latch := false }, fd := f.d.toNat, k := f.k, deny := 3,
            f := fun _ _ _ => ⟨if G.xblk || gets then 1 else 0, []⟩,
            gang := fun G => if gets then G.acquireX else G }

/-! ## Branches and jumps -/

/-- A conditional branch on a register or pair: taken where the condition holds (R99, Table 4.4); a symbolic operand is a
constraint (R219). Of two words of one chain that both jump, on which the spec is silent, the later one's target stands (DESIGN CHOICE,
log 86). -/
def branchWord (s : State) (f : FmtBr) (u : Use) (cmp : Cmp) : WordSpec :=
  let holds := fun (v : Vals) => cmp.eval (u == .pair) v.a 0
  { shape := { a := u, latch := false }, fa := f.a.toNat, k := f.k,
    y := some fun t v => conditionSym cmp u f.a.toNat (holds v) v.a t,
    post := fun _ _ v t => if holds v then { t with jump := some (s.wordPc + f.off.signExtend 32, 0) } else t }

/-- BEQZ: taken where A = 0. -/
def execBeqz (f : FmtBr) (s : State) : Out := s.run (branchWord s f .reg .eq)
/-- BNEZ: taken where A ≠ 0. -/
def execBnez (f : FmtBr) (s : State) : Out := s.run (branchWord s f .reg .ne)
/-- BLTZ: taken where int32 A < 0. -/
def execBltz (f : FmtBr) (s : State) : Out := s.run (branchWord s f .reg .lt)
/-- BGEZ: taken where int32 A ≥ 0. -/
def execBgez (f : FmtBr) (s : State) : Out := s.run (branchWord s f .reg .ge)
/-- BLEZ: taken where int32 A ≤ 0. -/
def execBlez (f : FmtBr) (s : State) : Out := s.run (branchWord s f .reg .le)
/-- BGTZ: taken where int32 A > 0. -/
def execBgtz (f : FmtBr) (s : State) : Out := s.run (branchWord s f .reg .gt)
/-- BNEZ64: taken where the A pair ≠ 0. -/
def execBnez64 (f : FmtBr) (s : State) : Out := s.run (branchWord s f .pair .ne)
/-- BEQZ64: taken where the A pair = 0. -/
def execBeqz64 (f : FmtBr) (s : State) : Out := s.run (branchWord s f .pair .eq)

/-- JMP: always transfers (R100). -/
def execJmp (f : FmtJ) (s : State) : Out :=
  s.run { shape := { latch := false }, k := f.k,
          post := fun _ _ _ t => { t with jump := some (s.wordPc + f.off.signExtend 32, 0) } }

/-- JAL: v31 := the next packet's index, then transfers (R100). -/
def execJal (f : FmtJ) (s : State) : Out :=
  s.run { shape := { dst := .reg, latch := false }, fd := 31, k := f.k,
          f := fun _ _ _ => ⟨(s.wordPc + 1#32).setWidth 64, []⟩,
          post := fun _ _ _ t => { t with jump := some (s.wordPc + f.off.signExtend 32, 0) } }

/-- JR: the next PC := A (R101). -/
def execJr (f : FmtA) (s : State) : Out :=
  s.run { shape := { a := .reg }, fa := f.a.toNat, h := f.h.toNat, k := f.k,
          post := fun _ _ v t => { t with jump := some (v.a32, 0) } }

/-- JALR: reads A, D := the next packet's index, then goes to A (R101). -/
def execJalr (f : FmtA) (s : State) : Out :=
  s.run { shape := { a := .reg, dst := .reg }, fd := f.d.toNat, fa := f.a.toNat, h := f.h.toNat, k := f.k,
          f := fun _ _ _ => ⟨(s.wordPc + 1#32).setWidth 64, []⟩,
          post := fun _ _ v t => { t with jump := some (v.a32, 0) } }

/-! ## Hints and illegal words -/

/-- CPOL: the cache policy of the thread's next memory word (R156); codes 4 to 7 act as 0. -/
def execCpol (f : FmtCpol) (s : State) : Out :=
  s.run { k := f.k, shape := { latch := false },
          post := fun _ _ _ t => { t with cpol := if f.b.toNat % 8 < 4 then f.b.toNat % 8 else 0 } }

/-- PRIO: the gang's issue preference; in one gang issue cycle the highest lane's value stands (R161). -/
def execPrio (f : FmtI) (s : State) : Out :=
  let top := match s.ctx with | some c => (laneList c.lanes).foldl max 0 | none => 0
  s.run { k := f.k, shape := { latch := false },
          gang := fun G =>
            if G.prefBy.all (· ≤ top) then { G with pref := f.imm.toNat % 4, prefBy := some top } else G }

/-- A word of major 0x3B behaves as NOP (R53). -/
def execHintRegionNop (f : FmtHint) (s : State) : Out := s.run { k := f.k, shape := { latch := false } }

/-- An executed illegal word: ILLEGAL_OPCODE with the word and its position, before any operand is read (R54). -/
def execIllegalWord (w : BitVec 32) (s : State) : Out :=
  s.word fun c _ => s.raise c ⟨1, w, BitVec.ofNat 32 c.pos, c.lanes, 0⟩

end Sys2Proof.Machine
end

