-- ==== Sys2Proof/Machine/Region.lean ====
section
/-! DEFINITION. Atomic regions (09): tracked loads, buffered stores, AXB and its admission, AXE, AXA, AXS. The commit engine stands in
Commit. -/

namespace Sys2Proof.Machine

open Sys2Proof

/-! ## Tracked loads and buffered stores -/

/-- The bytes a thread's load finds at a key: memory, with the thread's own stores that are not yet performed laid over it
in program order (R134). -/
def State.visible (s : State) (g l sn pa n : Nat) : List Byte :=
  ((s.accesses.filter fun a => a.of g l && decide (a.sn < sn) && a.kind == .store && overlaps pa n a.pa a.size)).foldl
    (fun bs a => overlay pa bs a.pa (leBytes a.size a.data)) (s.mem.read pa n)

/-- How many of a kind the lanes of a gang hold together (R213). -/
def Gang.regionTotal (G : Gang) (f : Region → Nat) : Nat :=
  (G.threads.map fun t => match t.region with | some r => f r | none => 0).foldl (· + ·) 0

/-- The region with a load of 4 or 8 bytes tracked: the entry of an earlier load of the same address and size is reused
with its recorded value, else a new entry holds the value read (R215). Answers the region, the entry and its value. -/
def Region.track (r : Region) (pa size : Nat) (value : DWord) (pin : Bool) : Region × Nat × DWord :=
  let find := (natsFrom 0 r.loads.length).find? fun i =>
    match nth none (r.loads.map some) i with
    | some x => x.pa == pa && x.size == size
    | none => false
  match find with
  | some i =>
    let v := match nth none (r.loads.map some) i with | some x => x.value | none => 0
    (if pin then r.pin [i] else r, i, v)
  | none => ({ r with loads := r.loads ++ [⟨pa, size, value, pin⟩] }, r.loads.length, value)

/-- A load of a lane in a region (R215, R216): its bytes, the mark its result carries, and the region afterwards. The
memory value of each aligned word is given by `rd`. -/
def Region.load (r : Region) (pa size : Nat) (rd : Nat → Nat → Nat) : Region × Nat × Option Mark :=
  let mine := r.stores.filter fun x => overlaps pa size x.pa x.size
  match mine.getLast? with
  | none =>
    if size = 4 ∨ size = 8 then
      let (r1, i, v) := r.track pa size (BitVec.ofNat 64 (rd pa size)) false
      (r1, v.toNat % 2 ^ (8 * size), some (.tag ⟨i, 0, size == 8⟩))
    else if size = 16 then
      let (r1, _, v0) := r.track pa 8 (BitVec.ofNat 64 (rd pa 8)) true
      let (r2, _, v1) := r1.track (pa + 8) 8 (BitVec.ofNat 64 (rd (pa + 8) 8)) true
      (r2, v0.toNat + 2 ^ 64 * v1.toNat, none)
    else
      let w := pa / 4 * 4
      let (r1, _, v) := r.track w 4 (BitVec.ofNat 64 (rd w 4)) true
      (r1, v.toNat / 2 ^ (8 * (pa - w)) % 2 ^ (8 * size), none)
  | some last =>
    if last.pa = pa ∧ last.size = size ∧ size ≤ 8 then
      (r, last.value.toNat % 2 ^ (8 * size), last.tag.map Mark.tag)
    else
      let r0 := r.pin (mine.filterMap fun x => x.tag.map Tag.load)
      let words := (natsFrom 0 ((size + 3) / 4)).map fun i => pa / 4 * 4 + 4 * i
      let open_ := words.filter fun w => (natsFrom 0 4).any fun j =>
        decide (pa ≤ w + j ∧ w + j < pa + size) && !(mine.any fun x => decide (x.pa ≤ w + j ∧ w + j < x.pa + x.size))
      let r1 := open_.foldl (fun r w => (r.track w 4 (BitVec.ofNat 64 (rd w 4)) true).1) r0
      let base := (natsFrom 0 size).map fun j =>
        let w := (pa + j) / 4 * 4
        if open_.contains w then
          let v := (r1.track w 4 0 true).2.2
          BitVec.ofNat 8 (v.toNat / 2 ^ (8 * (pa + j - w)))
        else 0#8
      (r1, leNat (mine.foldl (fun bs x => overlay pa bs x.pa (leBytes x.size x.value.toNat)) base), none)

/-- The value of a symbolic or concrete side from the current values of the loads (R224). -/
def Side.value (cur : Nat → DWord) : Side → DWord
  | .sym t => cur t.load + t.k
  | .con v => v

/-- A relation on the current values of the loads. -/
def Relation.holds (r : Relation) (cur : Nat → DWord) : Bool := r.cmp.eval r.wide (r.l.value cur) (r.r.value cur)

/-- The lines that a region's loads and stores lie in (R223). -/
def Region.lines (r : Region) : List Nat := (r.loads.map fun x => x.pa / 128) ++ (r.stores.map fun x => x.pa / 128)

/-- A line is held by the exclusive attempt, of which the lane that asks, if one does, is no part (R226). -/
def State.heldByOther (s : State) (who : Option (Nat × Nat)) (pa n : Nat) : Bool :=
  match s.exclusive.bind s.gangs.find? with
  | none => false
  | some G =>
    !(who.any fun x => some x.1 == s.exclusive && (G.thread x.2).region.any (·.exclusive)) &&
    G.threads.any fun t => t.region.any fun r =>
      r.exclusive && r.lines.any fun ln => decide (pa / 128 ≤ ln ∧ ln ≤ (pa + n - 1) / 128)

/-- The threads of a gang that wait in a way are granted their word's result. -/
def State.grantWaiters (s : State) (g : Nat) (p : Wait → Bool) (v : DWord) : State :=
  s.onGang g fun G =>
    { G with threads := G.threads.map fun t => if t.wait.any p then { t with grant := some v } else t }

/-! ## AXB -/

/-- The answer that lets a lane's AXB open its region: an ordinary attempt, or an exclusive one (R213, R226). -/
def axbAnswer (excl : Bool) : DWord := if excl then 2#64 ^ 63 + 1 else 2#64 ^ 63

/-- The kind of attempt for which a lane that still stands at its AXB has been let in; no other blocking word has such an answer. -/
def Thread.letIn (t : Thread) : Option Bool :=
  ((t.grant.toList ++ t.held.map (·.2)).find? fun v => v.getLsbD 63).map fun v => v.getLsbD 0

/-- The gang has a lane in a region, or one that has been let in (R212, R213). -/
def Gang.inRegions (G : Gang) : Bool := G.threads.any fun t => t.region.isSome || t.letIn.isSome

/-- A core has room for another gang in regions (R213). -/
def State.regionRoom (s : State) (g : Nat) : Bool :=
  decide ((s.gangs.filter fun e => coreOf e.1 == coreOf g && e.1 != g && e.2.inRegions).length < 2)

/-- The abort count that a lane's AXB at a packet sees: it starts anew at another packet (R226). -/
def Thread.countAt (t : Thread) (pc : Word) : Nat := if t.axLast = some pc then t.axCount else 0

/-- The thread with a region opened (R212, R220, R222). -/
def Thread.openRegion (t : Thread) (pc fallback : Word) (exclusive : Bool) (since : Nat) : Thread :=
  let t1 := if t.axLast = some pc then t else { t with axCode := 0, axCount := 0, axCause := 0 }
  { t1 with axLast := some pc, region := some ⟨pc, fallback, t.regs, exclusive, true, (since, since), [], [], [], []⟩ }

/-- AXB: opens a region in each issuing lane. It blocks while two other gangs of the core are in regions (R213); and where a lane of
this issue has aborted four times, all of them block until their exclusive attempt is admitted (R226). A lane opens the kind of
region that it was let in for. -/
def execAxb (f : FmtI) (s : State) : Out :=
  s.word fun c view =>
    let fresh := (laneList c.lanes).filter fun l => !(s.thread c.gang l).inRegion && ((s.thread c.gang l).answer c.pos).isNone
    let excl := fresh.any fun l => decide (4 ≤ (s.thread c.gang l).countAt c.pc)
    let room := ((s.gangs.find? c.gang).getD view).inRegions ||
      (s.regionRoom c.gang && !(s.axbQueue.any fun x => coreOf x == coreOf c.gang))
    let now := room && !excl
    let s1 := { s with
      axbQueue := if !fresh.isEmpty && !room && !s.axbQueue.contains c.gang then s.axbQueue ++ [c.gang] else s.axbQueue
      exclQueue := if excl then s.exclQueue ++ [(c.gang, s.cycle)] else s.exclQueue }
    match s1.runBlocking
      { k := f.k, shape := { latch := false }, deny := 3,
        post := fun l _ _ t =>
          t.openRegion c.pc (c.pc + f.imm.signExtend 32) (((s.thread c.gang l).answer c.pos).any (·.getLsbD 0)) c.since }
      (fun _ _ _ => if now then some (axbAnswer false) else none) (fun _ _ _ => .axb s.cycle excl) with
    | .next s2 => s2
    | _ => s1

/-- AXB_GRANT: the gang that has waited longest on its core goes on when one of the two gangs in regions has left, with its ordinary
attempts; an exclusive one waits on for its admission (R213, R226). -/
def execAxbGrant (g : Nat) (s : State) : Out :=
  if (s.axbQueue.filter fun x => coreOf x == coreOf g).head? = some g ∧ s.regionRoom g then
    .next { s.grantWaiters g (fun w => match w with | .axb _ e => !e | _ => false) (axbAnswer false) with
      axbQueue := s.axbQueue.filter (· != g) }
  else .next s

/-- The admitted attempt still runs: a lane is in an exclusive region, or has been let in for one. -/
def State.exclusiveBusy (s : State) : Bool :=
  s.gangs.any fun e => e.2.threads.any fun t => t.region.any (·.exclusive) || t.letIn == some true

/-- A gang has lanes that wait for the admission of the attempt that issued in a cycle. -/
def State.attemptWaits (s : State) (g cycle : Nat) : Bool :=
  (s.gangs.find? g).any fun G => G.threads.any fun t => t.live && t.wait == some (.axb cycle true) && t.grant.isNone

/-- EXCLUSIVE_ADMIT: the package admits one exclusive attempt at a time, in request order, once its gang has room on its core (R213,
R226). -/
def execExclusiveAdmit (s : State) : Out :=
  if s.exclusiveBusy then .next s else
  match s.exclQueue with
  | [] => .next { s with exclusive := none }
  | (g, cycle) :: t =>
    if !s.attemptWaits g cycle then .next { s with exclusive := none, exclQueue := t }
    else if (s.gangs.find? g).any (·.inRegions) || s.regionRoom g then
      .next { s.grantWaiters g (fun w => w == .axb cycle true) (axbAnswer true) with exclusive := some g, exclQueue := t }
    else .next s

/-! ## AXE, AXA and AXS -/

/-- AXE: outside a region D := 2. In a region the lanes wait for their class-L results and then commit together through the
core's commit engine; a committed lane's D is 0, or 1 for an exclusive commit (R221, R225). -/
def execAxe (f : FmtA) (s : State) : Out :=
  s.word fun c _ =>
    let inR := s.regionLanes c.gang c.lanes
    let ready := (laneList inR).all fun l => !s.outstandingL c.gang l
    let asked := s.commits.any fun r => r.gang == c.gang && r.lanes &&& inR != 0#64
    let s1 := if inR ≠ 0#64 ∧ ready ∧ !asked then { s with commits := s.commits ++ [⟨coreOf c.gang, c.gang, inR, none⟩] } else s
    match s1.runBlocking
      { shape := { dst := .reg }, fd := f.d.toNat, h := f.h.toNat, k := f.k }
      (fun l _ _ => if inLanes inR l then none else some 2)
      (fun _ _ _ => if ready then .commit else .axe) with
    | .next s2 => s2
    | _ => s1

/-- AXA n: a lane in a region aborts with EXPLICIT and n; outside a region no effect (R222). -/
def execAxa (f : FmtA) (s : State) : Out :=
  s.word fun c view =>
    let out := s.regionLanes c.gang c.lanes
    let c' := { c with lanes := c.lanes &&& ~~~out }
    let s1 := { s.abortLanes c.gang out 5 f.b.toNat with ctx := some c' }
    s1.regEffect c' view { h := f.h.toNat, k := f.k }

/-- AXS: D := the lane's region status, class L (R222). -/
def execAxs (f : FmtA) (s : State) : Out :=
  s.run { shape := { dst := .reg, classL := true }, fd := f.d.toNat, h := f.h.toNat, k := f.k,
          f := fun _ t _ => ⟨t.axStatus.setWidth 64, []⟩ }

/-- The lanes of a store word write every byte of a poison unit together (R141). -/
def wholeUnit (ranges : List (Nat × Nat)) (u : Nat) : Bool :=
  (natsFrom 0 (unitSize u)).all fun i => ranges.any fun r => decide (r.1 ≤ u + i ∧ u + i < r.1 + r.2)

end Sys2Proof.Machine
end

