-- ==== Sys2Proof/Machine/Memory.lean ====
section
/-! DEFINITION. Memory words at issue (06): addresses and their causes, routes and access control, and the words LD, LDQ,
ST, ATOM, ATOMN and CAS. What an issued access does when it is performed stands in Perform. -/

namespace Sys2Proof.Machine

open Sys2Proof

/-! ## Devices in control space, routes and access control -/

/-- The key of the package's own home region (R344). -/
def State.home (s : State) : Nat := s.podIndex * 2 ^ 35
/-- The offset of a control key in its home region. -/
def homeOff (k : Nat) : Nat := k % 2 ^ 35
/-- Home-region offsets of the device windows (R308, R349, R375, R388, R389, R399, R400). -/
def offFlash : Nat := 0x7F0000000
def offCollective : Nat := 0x7FFF90000
def offPeerState : Nat := 0x7FFFA0000
def offBoard : Nat := 0x7FFFA1000
def offPod : Nat := 0x7FFFA1080
def offReach : Nat := 0x7FFFA1800
def offInval : Nat := 0x7FFFB0000
def offPorts : Nat := 0x7FFFC0000

/-- The key lies in the flash window of its home region (R375). -/
def inFlash (k : Nat) : Bool := decide (k < 2 ^ 50 ∧ offFlash ≤ homeOff k ∧ homeOff k < offFlash + 0x2000000)

/-- A package is lost: its bit in LOSTMAP (Table 22.9). -/
def State.lost (s : State) (p : Nat) : Bool := bitsOf (s.mem.num (s.home + offPeerState + p / 8) 1) (p % 8) 1 == 1
/-- A board or pod route table entry is LIVE (Table 22.4). -/
def State.linkLive (s : State) (pod : Bool) (i : Nat) : Bool :=
  bitsOf (s.mem.num (s.home + (if pod then offPod else offBoard) + 4 * i) 4) 7 1 == 1
/-- A destination's reach entry (Table 22.5). -/
def State.reach (s : State) (p : Nat) : Nat := s.mem.num (s.home + offReach + 2 * p) 2

/-- A path (R390): none, direct, or through a relay. -/
inductive Route where
  | none
  | direct
  | via (relay : Nat)
deriving DecidableEq, Repr

/-- The route to another package for a transfer (R390); the hash between two live paths is free. -/
def State.route (s : State) (dst xfer : Nat) : Route :=
  let b := s.podIndex / 32
  let d := s.podIndex % 32
  let b' := dst / 32
  let d' := dst % 32
  let e := s.reach dst
  if bitsOf e 0 1 = 0 then .none
  else if b' = b ∨ d' = d then
    if (if b' = b then s.linkLive false d' else s.linkLive true b') then .direct
    else if bitsOf e 8 1 = 1 then .via (if b' = b then b * 32 + bitsOf e 9 5 else bitsOf e 9 5 * 32 + d)
    else .none
  else
    let a := s.linkLive false d' && bitsOf e 2 1 == 1
    let p := s.linkLive true b' && bitsOf e 1 1 == 1
    if a && p then (if Config.routeHash (s.podIndex * 2 ^ 42 + dst * 2 ^ 32 + xfer) % 2 = 0 then .via (b * 32 + d') else .via (b' * 32 + d))
    else if a then .via (b * 32 + d')
    else if p then .via (b' * 32 + d)
    else .none

/-- An ACL entry, whose bytes `rd` reads by offset and size, admits an operation (Table 22.8): permission bit 0 RD, 1 WR, 2 AT, 3 POST, 4
CTL; a range of tensor offsets, where one is given, lies within its limits. -/
def entryAdmits (rd : Nat → Nat → Nat) (src perm : Nat) (range : Option (Nat × Nat)) : Bool :=
  bitsOf (rd 0 1) 0 1 == 1 && bitsOf (rd (128 + src / 8) 1) (src % 8) 1 == 1 && bitsOf (rd 9 1) perm 1 == 1 &&
  (match range with
   | none => true
   | some (o, n) => decide (rd 1 4 * 65536 ≤ o) && decide (o + n ≤ (rd 5 4 + 1) * 65536))

/-- The key of a tenant's ACL entry at a package (R394). -/
def State.aclKey (s : State) (pkg tenant : Nat) : Nat := s.aclBases.get 0 pkg + 256 * tenant

/-- A tenant's ACL entry at a package admits an operation. Tenant 0 is never refused (R394). -/
def State.aclAdmits (s : State) (pkg src tenant perm : Nat) (range : Option (Nat × Nat)) : Bool :=
  if tenant = 0 then true else entryAdmits (fun off n => s.mem.num (s.aclKey pkg tenant + off) n) src perm range

/-- The package that answers for a home region: the home, or its mirror once it is lost; none where no copy is left (R353,
R398). -/
def State.regionHome (s : State) (p : Nat) : Option Nat :=
  if s.lost p then
    match s.mirror.find? p with
    | none => none
    | some m => if s.lost m then none else some m
  else some p

/-! ## Addresses (R129 to R132) -/

/-- What an instruction's access may reach (Table 6.1), the permissions it needs and the size it has (Table 6.2); `load`
says that poison of the unit raises a cause, `store` that it writes, `port` that it is a POST, whose route and access control
are judged for its record (R151, R393). -/
structure Target where
  control : Bool := true
  tensor : Bool := true
  remote : Bool := false
  scratch : Bool := true
  r : Bool := false
  w : Bool := false
  a : Bool := false
  size : Nat
  kind : Nat
  load : Bool := false
  store : Bool := false
  port : Bool := false
deriving DecidableEq, Repr

/-- Where a lane's access goes: a cause with its place in Table 6.2, held, or a physical key; `remote` for remote tensor,
with the page's engine-allowed bit. -/
inductive Place' where
  | cause (order code : Nat)
  | held
  | at_ (key : Nat) (remote engine : Bool)
deriving DecidableEq, Repr

/-- A unit of a range is poisoned (R141, R205). -/
def State.rangePoisoned (s : State) (pa n : Nat) : Bool :=
  !s.poison.isEmpty && s.poison.any fun d => match d with | .unit u => overlaps u (unitSize u) pa n | _ => false

/-- The tests after translation, in order (Table 6.2): permissions, the route to a control home, its access control,
poison; an access to a region being rebuilt, or to a line that another gang's exclusive attempt holds, is held. -/
def State.checkKey (s : State) (who : Option (Nat × Nat)) (ctx : Nat) (x : Target) (f : Leaf) (k : Nat) (remote : Bool) : Place' :=
  let kernelPort := decide (k / 64 = s.resolvePort / 64 ∧ s.resolvePort ≠ 0) && x.store && ctx != 0
  if (x.r && !f.r) || (x.w && !f.w) || (x.a && !f.a) || (x.store && inFlash k) || kernelPort then .cause 7 3
  else if remote then .at_ k true f.e
  else if x.port then .at_ k false f.e
  else if k < 2 ^ 50 then
    match s.regionHome (k / 2 ^ 35) with
    | none => .cause 8 12
    | some h =>
      if h ≠ s.podIndex ∧ s.route h 0 = .none then .cause 8 12
      else if k / 2 ^ 35 ≠ s.podIndex ∧ !s.aclAdmits h s.podIndex (s.tenant ctx) 4 none then .cause 9 13
      else if s.rebuilding.contains (k / 2 ^ 35) then .held
      else if x.load && s.rangePoisoned k x.size then .cause 10 11
      else if s.heldByOther who k x.size then .held
      else .at_ k false f.e
  else if x.load && s.rangePoisoned k x.size then .cause 10 11
  else .at_ k false f.e

/-- Where a lane's access goes (R129 to R132), with the translation buffers and zeroing requests its walk leaves. -/
def State.locate (s : State) (g l : Nat) (G : Gang) (ctx : Nat) (x : Target) (va : DWord) : Place' × State :=
  let v := va.toNat
  let space := v / 2 ^ 61
  if 3 ≤ space then (.cause 3 5, s)
  else if space = 2 then
    if !x.scratch then (.cause 3 5, s)
    else if v % x.size ≠ 0 then (.cause 4 4, s)
    else
      match s.scratchKey (clusterOf g) G.team (v % 2 ^ 20) with
      | none => (.cause 5 6, s)
      | some k =>
        if s.handlePoisoned G.team (v % 2 ^ 20 / 8192) || (x.load && s.rangePoisoned k x.size) then (.cause 10 11, s)
        else (.at_ k false true, s)
  else if (space = 1 ∧ !x.tensor) ∨ (space = 0 ∧ !x.control) then (.cause 3 5, s)
  else
    let (t, s1) := s.xlate ctx va
    let away := fun (f : Leaf) => space = 1 ∧ keyHome (f.key v) ≠ s.podIndex
    let early : Option Place' :=
      match t with
      | .leaf f => if away f ∧ !x.remote then some (.cause 3 5) else none
      | .held f => if away f ∧ !x.remote then some (.cause 3 5) else none
      | .missing => none
    match early with
    | some p => (p, s1)
    | none =>
      if v % x.size ≠ 0 then (.cause 4 4, s1)
      else
        match t with
        | .missing => (.cause 6 2, s1)
        | .held _ => (.held, s1)
        | .leaf f => (s1.checkKey (if x.kind = 3 then none else some (g, l)) ctx x f (f.key v) (decide (away f)), s1)

/-- The places of a word's lanes in ascending order. -/
def State.locateAll (s : State) (g : Nat) (G : Gang) (ctx : Nat) (x : Target) (vas : List (Nat × DWord)) :
    List (Nat × DWord × Place') × State :=
  vas.foldl (fun acc e =>
    let (p, s1) := acc.2.locate g e.1 G ctx x e.2
    (acc.1 ++ [(e.1, e.2, p)], s1)) ([], s)

/-- The word's cause (R132): the first in the order of Table 6.2 that any lane raises, with the address of the lowest lane
that raised it. -/
def wordCause (kind : Nat) (ps : List (Nat × DWord × Place')) : Option Cause :=
  let causes := ps.filterMap fun e => match e.2.2 with | .cause o c => some (e.1, e.2.1, o, c) | _ => none
  match causes with
  | [] => none
  | h :: t =>
    let best := t.foldl (fun b e => if e.2.2.1 < b.2.2.1 then e else b) h
    let same := causes.filter fun e => e.2.2.1 == best.2.2.1
    some ⟨best.2.2.2, loOf best.2.1, hiOf best.2.1, laneSet (same.map (·.1)), kind⟩

/-- The keys of the lanes that have one. -/
def keysOf (ps : List (Nat × DWord × Place')) : List (Nat × Nat) :=
  ps.filterMap fun e => match e.2.2 with | .at_ k _ _ => some (e.1, k) | _ => none

/-- The context in which a gang runs (R307). -/
def State.ctxOf (s : State) (g : Nat) : Nat := match s.spawnOf g with | some p => p.ctx | none => 0

/-! ## Results -/

/-- The 32-bit value of a load of n bytes (R136). -/
def loadValue (d : Dest) (v : Nat) : List Word :=
  match d with
  | .none => []
  | .reg _ => [BitVec.ofNat 32 v]
  | .signed8 _ => [(BitVec.ofNat 8 v).signExtend 32]
  | .signed16 _ => [(BitVec.ofNat 16 v).signExtend 32]
  | .pair _ => [BitVec.ofNat 32 v, BitVec.ofNat 32 (v / 2 ^ 32)]
  | .quad _ => (natsFrom 0 4).map fun i => BitVec.ofNat 32 (v / 2 ^ (32 * i))
  | .queue _ sx =>
    if sx = 1 then [(BitVec.ofNat 8 v).signExtend 32]
    else if sx = 2 then [(BitVec.ofNat 16 v).signExtend 32]
    else if sx = 8 then [BitVec.ofNat 32 v, BitVec.ofNat 32 (v / 2 ^ 32)]
    else [BitVec.ofNat 32 v]

/-- The first register that a result is written to; 56 and above discard it (R45, R46, R135). -/
def Dest.base : Dest → Nat
  | .none => 63
  | .reg r => r
  | .signed8 r => r
  | .signed16 r => r
  | .pair r => if 56 ≤ r then 63 else r / 2 * 2
  | .quad r => if 56 ≤ r then 63 else r / 4 * 4
  | .queue _ _ => 63

/-- The registers that a result is written to. -/
def Dest.regs : Dest → List Nat
  | .reg r => Use.regs .reg r
  | .signed8 r => Use.regs .reg r
  | .signed16 r => Use.regs .reg r
  | .pair r => Use.regs .pair r
  | .quad r => Use.regs .quad r
  | _ => []

/-- A thread with a result's words written from a register on; a place at or above 56 discards them (R45, R46). -/
def Thread.writeWords (t : Thread) (base : Nat) (ws : List Word) : Thread :=
  if 56 ≤ base then t else
  (mapNumbered (fun i w => (base + i, w)) 0 ws).foldl (fun t e => t.setReg e.1 e.2) t

/-! ## The frame of a memory word -/

/-- A memory word: its register uses (a store's source stands in b), its target, its byte offset, the cause with which a
lane in a region that reaches control space leaves it (0: it may), its destination, and its effect in the lanes that have
a place: context, view, places, state. -/
structure MemSpec where
  shape : Shape
  fd : Nat := 0
  fa : Nat := 0
  fb : Nat := 0
  k : BitVec 1 := 0
  target : Target
  off : DWord := 0
  mask : DWord := 0
  deny : Nat := 3
  dest : Dest := .none
  effect : IssueCtx → Gang → List (Nat × DWord × Place') → State → State

/-- The registers a memory word reads and writes. -/
def MemSpec.reads (w : MemSpec) : List Nat := w.shape.reads w.fd w.fa w.fb
def MemSpec.writes (w : MemSpec) : List Nat := w.dest.regs

/-- The lanes of a word that are in a region and reach tensor or scratch space, by their space code (Table 9.1 row 2). -/
def State.regionSpaceLanes (s : State) (c : IssueCtx) (vas : List (Nat × DWord)) : DWord :=
  s.regionLanes c.gang c.lanes &&& laneSet ((vas.filter fun e => e.2.toNat / 2 ^ 61 != 0).map (·.1))

/-- The word's cause (R132): a target in tensor or scratch space that Table 6.1 marks SPACE raises none in a lane in a region, which
leaves the word by Table 9.1 row 2 (R130). -/
def State.causeAmong (s : State) (c : IssueCtx) (kind : Nat) (ps : List (Nat × DWord × Place')) : Option Cause :=
  let inR := s.regionLanes c.gang c.lanes
  wordCause kind (ps.filter fun e =>
    !(inLanes inR e.1 && (e.2.1.toNat / 2 ^ 61 == 1 || e.2.1.toNat / 2 ^ 61 == 2) && (match e.2.2 with | .cause 3 _ => true | _ => false)))

/-- A lane in a region waits with a load for the accesses of its own to those bytes that are not performed and that its region's
reads do not see: its loads, atomics and CAS from before the region (R134, R215). -/
def State.trackedLate (s : State) (c : IssueCtx) (w : MemSpec) (ps : List (Nat × DWord × Place')) : Bool :=
  w.target.load && !w.target.store && (keysOf ps).any fun e =>
    inLanes (s.regionLanes c.gang c.lanes) e.1 &&
    s.accesses.any fun a => a.of c.gang e.1 && decide (a.sn < c.since * 64) && overlaps a.pa a.size (e.2 / 4 * 4) (w.target.size + 3) &&
      (match a.kind with | .store => false | _ => true)

/-- A lane's thread as a memory word leaves it at issue: its queue source popped, its region's loads behind the registers
it reads pinned except as `tagged` says, its latch aged, its cache policy spent (R17, R20, R156, R217). -/
def MemSpec.laneStep (w : MemSpec) (view cur : Thread) (pins : List Nat) : Thread :=
  let c1 := (w.shape.readLane w.fd w.fa w.fb view cur).2
  { c1.pinReads view pins with cpol := 0 }.ageLatch

/-- The registers whose dependence a memory word pins: all it reads, but for the data of a store that keeps its tag
(R217). -/
def MemSpec.pinned (w : MemSpec) (view : Thread) : List Nat :=
  let tagged : Bool := w.target.store && !w.target.load &&
    (match w.shape.b with
     | .reg => w.target.size == 4 && (view.tag32 w.fb).isSome
     | .pair => (view.tag64 w.fb).isSome
     | _ => false)
  w.shape.d.regs w.fd ++ w.shape.a.regs w.fa ++ (if tagged then [] else w.shape.b.regs w.fb)

/-- A memory word (R129 to R133, R214): tested; its lanes' places found in the order of Table 6.2; the lanes of regions
that may not issue it leave with an abort; the effect takes place in the others. -/
def State.memory (s : State) (w : MemSpec) : Out :=
  s.word fun c view =>
    s.tested c view w.reads w.writes
      (let needs := w.shape.needs w.fa w.fb
       let (s, c) := s.admitOut c view needs
       if c.lanes = 0#64 then s else
         let vas := (laneList c.lanes).map fun l =>
           (l, ((readField (view.thread l) (s.thread c.gang l) w.shape.a w.fa).1 + w.off) &&& ~~~w.mask)
         let (ps, s1) := s.locateAll c.gang view (s.ctxOf c.gang) w.target vas
         match s1.causeAmong c w.target.kind ps with
         | some cause => s1.raise c cause
         | none =>
           let ranges := (keysOf ps).map fun e => (e.2, w.target.size)
           let partly := if w.target.store ∧ !w.target.load then
               (keysOf ps).filter fun e => s1.unitPoisoned e.2 && !wholeUnit ranges (unitOf e.2)
             else []
           match partly with
           | (l, _) :: t =>
             let va := ((vas.find? fun e => e.1 == l).map (·.2)).getD 0
             s1.raise c ⟨11, loOf va, hiOf va, laneSet (l :: t.map (·.1)), w.target.kind⟩
           | [] =>
             if (ps.any fun e => e.2.2 == .held) || s1.trackedLate c w ps then
               { s1 with ctx := some { c with blocked := c.blocked ||| c.lanes } }
             else
               let (s2, c2) := s1.screenLanes c (s1.regionSpaceLanes c vas) 4
               let (s3, c3) := if w.deny = 0 ∧ needs.isEmpty then (s2, c2) else s2.screen c2 3
               let s4 := s3.onLanes c3.gang c3.lanes fun l t =>
                 w.laneStep (view.thread l) t (w.pinned (view.thread l))
               let s5 := w.effect c3 view (ps.filter fun e => inLanes c3.lanes e.1) s4
               let c4 := match s5.ctx with | some x => x | none => c3
               s5.retire c4 c4.lanes (parks w.k))

/-- A slot binding at reset (Table 8.2). -/
def Binding.reset : Binding := ⟨false, false, 0, 0, 0, 0, 0⟩

/-- The team with a slot's binding voided (R189, R190). -/
def Team.void (T : Team) (slot : Nat) : Team :=
  { T with bindings := T.bindings.put slot { T.bindings.get Binding.reset slot with voided := true } }

/-- The state with the data generations of the team slots that a word writes advanced once each; a wrap voids the slot's
binding (R190). -/
def Team.bump (T : Team) (slot : Nat) : Team :=
  let g := T.dgens.get 0 slot
  let T1 := { T with dgens := T.dgens.set 0 slot ((g + 1) % 256) }
  if g = 255 then T1.void slot else T1
/-- The state with a team's slots advanced. -/
def State.bumpSlots (s : State) (team : Nat) (slots : List Nat) : State :=
  { s with teams := s.teams.modify team fun T => slots.foldl Team.bump T }
/-- The scratch team slots among a word's places, each once. -/
def scratchSlots (ps : List (Nat × DWord × Place')) : List Nat :=
  (ps.filterMap fun e => match e.2.2 with
    | .at_ k _ _ => if isScratchKey k then some (e.2.1.toNat % 2 ^ 20 / 8192) else none
    | _ => none).eraseDups

/-- The fences of its own chain that an access comes after: those of the chains before it let the word issue (R22, R148). -/
def Thread.gate (t : Thread) (c : IssueCtx) : List Fence := t.fence.toList.filter fun f => decide (c.since * 64 ≤ f.sn)

/-- A fence is a release narrower than the pod (R148, R149). -/
def Fence.narrow (f : Fence) : Bool := decide (f.scope < 6) && (f.kind == .all || f.kind == .rel || f.kind == .tfence)

/-- The narrow release that a write makes by the fence before it (R148). -/
def Thread.relNow (t : Thread) : Option (Nat × Nat) :=
  match t.fence with
  | some f => if f.narrow then some (f.scope, f.sn) else t.relFence
  | none => t.relFence

/-- An access of a lane, with what its kind needs. -/
def State.access (s : State) (c : IssueCtx) (team l : Nat) (va : DWord) (key size : Nat) (kind : AccessKind)
    (data : Nat) (dest : Dest) (release whole : Bool) : Access :=
  { sn := s.sn * 64 + l, cycle := s.cycle, gang := c.gang, lane := l, core := coreOf c.gang, team := team, kind := kind,
    va := va, pa := key, size := size, data := data, operands := [], dest := dest, release := release, whole := whole,
    half := none, gate := (s.thread c.gang l).gate c
    rel := match kind with | .load _ _ => none | _ => (s.thread c.gang l).relNow }

/-- A store that is a release at a scope (R140); one at the pod comes after every earlier access. -/
def Access.releaseAt (a : Access) (scope : Nat) : Access :=
  if 6 ≤ scope then { a with release := true }
  else { a with rel := some (match a.rel with | some (s, _) => (max s scope, a.sn) | none => (scope, a.sn)) }

/-! ## Loads -/

/-- The thread with a fence that its next M-pipe words wait for, beside one it already has (R148): the two together. -/
def Thread.addFence (t : Thread) (n : Fence) : Thread :=
  match t.fence with
  | none => { t with fence := some n }
  | some o =>
    { t with fence := some ⟨if o.kind = .tfence ∨ n.kind = .tfence then .tfence else if o.kind = n.kind then n.kind else .all,
        if o.sn < n.sn then n.sn else o.sn, max o.scope n.scope, o.invalidate || n.invalidate⟩ }

/-- The lanes whose tracked loads, stores or constraints would exceed eight, or the gang's 256 (R213), with what a word
adds to each lane. -/
def Gang.overRoom (G : Gang) (count : Region → Nat) (add : Nat → Region → Nat) (lanes : DWord) : DWord :=
  ((laneList lanes).foldl (fun (acc : Nat × DWord) l =>
    match (G.thread l).region with
    | none => acc
    | some r =>
      let n := add l r
      if n = 0 then acc
      else if 8 < count r + n ∨ 256 < acc.1 + n then (acc.1, acc.2 ||| laneBit l)
      else (acc.1 + n, acc.2)) (G.regionTotal count, 0#64)).2

/-- A load in a region (R215 to R217): each lane's tables take it, or the lane aborts with CAPACITY; its result is a class-L
result that carries its mark. -/
def regionLoad (dest : Dest) (w : MemSpec) (c : IssueCtx) (view : Gang) (ps : List (Nat × DWord × Place')) (s : State) :
    State :=
  let lanes := s.regionLanes c.gang (laneSet (ps.map (·.1)))
  match s.gangs.find? c.gang with
  | none => s
  | some G =>
    let keyOf := fun l => ((keysOf ps).find? fun e => e.1 == l).map (·.2) |>.getD 0
    let (m, s) := s.asRead none ((keysOf ps).map fun e => (e.2, w.target.size))
    let rd := fun l pa n => leNat ({ s with mem := m }.visible c.gang l (s.sn * 64) pa n)
    let out := G.overRoom (fun r => r.loads.length)
      (fun l r => (r.load (keyOf l) w.target.size (rd l)).1.loads.length - r.loads.length) lanes
    let s1 := s.abortLanes c.gang out 3 0
    let stay := lanes &&& ~~~out
    let based := fun l => !((view.thread l).loadsOf (w.shape.a.regs w.fa)).isEmpty
    let step := fun (r : Region) l =>
      let (r1, v, m) := r.load (keyOf l) w.target.size (rd l)
      if based l then
        ((r1.pin ((m.map Mark.loads).getD [])).pin ((natsFrom 0 r1.loads.length).filter fun i =>
          match nth none (r1.loads.map some) i with | some x => overlaps x.pa x.size (keyOf l) w.target.size | none => false),
         v, none)
      else (r1, v, m)
    let pend := (laneList stay).filterMap fun l =>
      (G.thread l).region.map fun r =>
        let x := step r l
        (⟨s.sn * 64 + l, c.gang, l, dest.base, some (loadValue dest x.2.1), x.2.2⟩ : Pending)
    let s2 := s1.onLanes c.gang stay fun l t => t.onRegion fun r => (step r l).1
    { s2 with pending := s2.pending ++ pend, sn := s2.sn + 1, ctx := some { c with lanes := c.lanes &&& ~~~out } }

/-- The effect of LD, and of LDA at its scope (R136, R137): one access a lane; in a region a tracked load. An LDA holds back the thread's
later M words until its read is performed. -/
def loadEffect (dest : Dest) (acquire : Option Nat) (w : MemSpec) (c : IssueCtx) (view : Gang)
    (ps : List (Nat × DWord × Place')) (s : State) : State :=
  let inval := acquire.any (3 ≤ ·)
  let inR := s.regionLanes c.gang c.lanes
  let plain := ps.filter fun e => !inLanes inR e.1
  let new := plain.filterMap fun e => match e.2.2 with
    | .at_ k _ _ =>
      some { s.access c view.team e.1 e.2.1 k w.target.size (.load acquire.isSome inval) 0 dest false false with
        rel := acquire.map fun scope => (scope, 0) }
    | _ => none
  let s1 := { s with accesses := s.accesses ++ new, sn := s.sn + 1 }
  let s2 := if acquire.isSome then
      s1.onLanes c.gang (c.lanes &&& ~~~inR) fun l t => t.addFence ⟨.lda, s.sn * 64 + l + 1, acquire.getD 0, false⟩
    else s1
  if inR = 0#64 then s2 else regionLoad dest w c view (ps.filter fun e => inLanes inR e.1) s2

/-- A load word. -/
def loadWord (f : FmtM) (dest : Dest) (size : Nat) : MemSpec :=
  let w0 : MemSpec :=
    { shape := { a := .pair, latch := false }, fa := f.a.toNat, k := f.k, dest := dest, deny := 0,
      target := { r := true, size := size, kind := 0, load := true },
      off := f.off.signExtend 64 * BitVec.ofNat 64 size, effect := fun _ _ _ s => s }
  { w0 with effect := loadEffect dest none w0 }

/-- LD8: D := the byte zero-extended (R136). -/
def execLd8 (f : FmtM) (s : State) : Out := s.memory (loadWord f (.reg f.d.toNat) 1)
/-- LD8S: D := the byte sign-extended. -/
def execLd8s (f : FmtM) (s : State) : Out := s.memory (loadWord f (.signed8 f.d.toNat) 1)
/-- LD16: D := two bytes zero-extended. -/
def execLd16 (f : FmtM) (s : State) : Out := s.memory (loadWord f (.reg f.d.toNat) 2)
/-- LD16S: D := two bytes sign-extended. -/
def execLd16s (f : FmtM) (s : State) : Out := s.memory (loadWord f (.signed16 f.d.toNat) 2)
/-- LD32: D := four bytes. -/
def execLd32 (f : FmtM) (s : State) : Out := s.memory (loadWord f (.reg f.d.toNat) 4)
/-- LD64: the D pair := eight bytes. -/
def execLd64 (f : FmtM) (s : State) : Out := s.memory (loadWord f (.pair f.d.toNat) 8)
/-- LD128: the D quad := sixteen bytes. -/
def execLd128 (f : FmtM) (s : State) : Out := s.memory (loadWord f (.quad f.d.toNat) 16)

/-- An LDA word: an acquire at a scope; from cluster on it invalidates the core's L1 tensor lines (R44, R137). -/
def acquireWord (f : FmtAcq) (dest : Dest) (size : Nat) : MemSpec :=
  let w0 : MemSpec :=
    { shape := { a := .pair, latch := false }, fa := f.a.toNat, k := f.k, dest := dest,
      target := { r := true, size := size, kind := 0, load := true }, effect := fun _ _ _ s => s }
  { w0 with effect := loadEffect dest (some f.scope.toNat) w0 }

/-- LDA32: D := four bytes, acquire. -/
def execLda32 (f : FmtAcq) (s : State) : Out := s.memory (acquireWord f (.reg f.d.toNat) 4)
/-- LDA64: the D pair := eight bytes, acquire. -/
def execLda64 (f : FmtAcq) (s : State) : Out := s.memory (acquireWord f (.pair f.d.toNat) 8)

/-! ## Queue loads -/

/-- The gang of the executing word as it stands. -/
def State.gangNow (s : State) : Gang :=
  match s.gangs.find? s.wordGang with
  | some G => G
  | none => Gang.absent

/-- An LDQ reserves its entries and issues its loads; where it stands alone it first waits for free entries (R20, R138). -/
def execQueueLoad (f : FmtM) (size sx : Nat) (s : State) : Out :=
  let q := f.d.toNat % 4
  let n := if size = 8 then 2 else 1
  let reserve := fun (sn : Nat) (t : Thread) =>
    { t with queues := setNth t.queues q (nth [] t.queues q ++ (natsFrom 0 n).map fun i => QEntry.reserved sn i) }
  let word : MemSpec :=
    { shape := { a := .pair, latch := false }, fa := f.a.toNat, k := f.k,
      target := { r := true, size := size, kind := 0, load := true },
      off := f.off.signExtend 64 * BitVec.ofNat 64 size,
      effect := fun c view ps s =>
        let new := ps.filterMap fun e => match e.2.2 with
          | .at_ k _ _ => some (s.access c view.team e.1 e.2.1 k size (.load false false) 0 (.queue q sx) false false)
          | _ => none
        let s1 := s.onLanes c.gang c.lanes fun l t => reserve (s.sn * 64 + l) t
        { s1 with accesses := s1.accesses ++ new, sn := s1.sn + 1 } }
  match s.ctx with
  | none => .next s
  | some c =>
    if c.chained then s.memory word
    else
      let (s1, c1) := s.admitOut c (c.pre.getD s.gangNow) [(q + 4, n)]
      if c1.lanes = 0#64 then .next s1 else s1.memory word

/-- LDQ8 (R138). -/
def execLdq8 (f : FmtM) (s : State) : Out := execQueueLoad f 1 0 s
/-- LDQ8S. -/
def execLdq8s (f : FmtM) (s : State) : Out := execQueueLoad f 1 1 s
/-- LDQ16. -/
def execLdq16 (f : FmtM) (s : State) : Out := execQueueLoad f 2 0 s
/-- LDQ16S. -/
def execLdq16s (f : FmtM) (s : State) : Out := execQueueLoad f 2 2 s
/-- LDQ32. -/
def execLdq32 (f : FmtM) (s : State) : Out := execQueueLoad f 4 0 s
/-- LDQ64: two entries, low word first. -/
def execLdq64 (f : FmtM) (s : State) : Out := execQueueLoad f 8 8 s

/-! ## Stores -/

/-- The data of a store: the source, its pair or its quad, low bytes first (R139). -/
def storeData (u : Use) (fb size : Nat) (view : Thread) (v : Vals) : Nat :=
  match u with
  | .quad => (readQuadLow view fb).toNat + 2 ^ 64 * (readQuadHigh view fb).toNat
  | .pair => v.b.toNat
  | _ => v.b32.toNat % 2 ^ (8 * size)

/-- The stores of the lanes in regions are buffered there (R218): a symbolic 32-bit or 64-bit source keeps its tag; ST128
takes two entries; beyond the capacity the lane aborts. -/
def regionStore (w : MemSpec) (data : Thread → Vals → Nat) (c : IssueCtx) (view : Gang)
    (ps : List (Nat × DWord × Place')) (s : State) : State :=
  let lanes := s.regionLanes c.gang (laneSet (ps.map (·.1)))
  match s.gangs.find? c.gang with
  | none => s
  | some G =>
    let n := if w.target.size = 16 then 2 else 1
    let out := G.overRoom (fun r => r.stores.length) (fun _ _ => n) lanes
    let s1 := s.abortLanes c.gang out 3 0
    let ranges := (keysOf ps).map fun e => (e.2, w.target.size)
    let entries := fun l =>
      match (keysOf ps).find? fun e => e.1 == l with
      | none => []
      | some (_, k) =>
        let v := data (view.thread l) (w.shape.readLane w.fd w.fa w.fb (view.thread l) (view.thread l)).1
        let whole := wholeUnit ranges (unitOf k)
        if w.target.size = 16 then
          [(⟨k, 8, BitVec.ofNat 64 v, whole, none⟩ : TStore), ⟨k + 8, 8, BitVec.ofNat 64 (v / 2 ^ 64), whole, none⟩]
        else
          let tag := match w.shape.b with
            | .reg => if w.target.size = 4 then (view.thread l).tag32 w.fb else none
            | .pair => (view.thread l).tag64 w.fb
            | _ => none
          [⟨k, w.target.size, BitVec.ofNat 64 v, whole, tag⟩]
    let s2 := s1.onLanes c.gang (lanes &&& ~~~out) fun l t =>
      t.onRegion fun r => { r with stores := r.stores ++ entries l }
    { s2 with ctx := some { c with lanes := c.lanes &&& ~~~out } }

/-- The effect of ST, and of STL at its scope (R139, R140): one buffered store a lane; the data generations of the slots it writes advance. -/
def storeEffect (release : Option Nat) (w : MemSpec) (data : Thread → Vals → Nat) (popped : Gang) (c : IssueCtx) (view : Gang)
    (ps : List (Nat × DWord × Place')) (s : State) : State :=
  let inR := s.regionLanes c.gang c.lanes
  let plain := ps.filter fun e => !inLanes inR e.1
  let ranges := (keysOf ps).map fun e => (e.2, w.target.size)
  let new := plain.filterMap fun e => match e.2.2 with
    | .at_ k _ _ =>
      let v := data (view.thread e.1) (w.shape.readLane w.fd w.fa w.fb (view.thread e.1) (popped.thread e.1)).1
      let a := s.access c view.team e.1 e.2.1 k w.target.size .store v .none false (wholeUnit ranges (unitOf k))
      some (match release with | some scope => a.releaseAt scope | none => a)
    | _ => none
  let s1 := ({ s with accesses := s.accesses ++ new, sn := s.sn + 1 }).bumpSlots view.team (scratchSlots plain)
  if inR = 0#64 then s1 else regionStore w data c view (ps.filter fun e => inLanes inR e.1) s1

/-- A store word; `before` is the gang as it stands before the word, whose queues the source pops. -/
def storeWord (before : Gang) (k : BitVec 1) (u : Use) (fs fa size deny : Nat) (off : DWord) (release : Option Nat) : MemSpec :=
  let w0 : MemSpec :=
    { shape := { a := .pair, b := u, latch := false }, fa := fa, fb := fs, k := k, deny := deny,
      target := { w := true, size := size, kind := 1, store := true }, off := off, effect := fun _ _ _ s => s }
  { w0 with effect := storeEffect release w0 (storeData u fs size) before }

/-- A plain store. -/
def execStore (f : FmtM) (u : Use) (size : Nat) (s : State) : Out :=
  s.memory (storeWord s.gangNow f.k u f.d.toNat f.a.toNat size 0 (f.off.signExtend 64 * BitVec.ofNat 64 size) none)

/-- ST8: Write(addr, S[7:0]) (R139). -/
def execSt8 (f : FmtM) (s : State) : Out := execStore f .reg 1 s
/-- ST16: Write(addr, S[15:0]). -/
def execSt16 (f : FmtM) (s : State) : Out := execStore f .reg 2 s
/-- ST32: Write(addr, S). -/
def execSt32 (f : FmtM) (s : State) : Out := execStore f .reg 4 s
/-- ST64: Write(addr, the S pair). -/
def execSt64 (f : FmtM) (s : State) : Out := execStore f .pair 8 s
/-- ST128: Write(addr, the S quad). -/
def execSt128 (f : FmtM) (s : State) : Out := execStore f .quad 16 s
/-- STL32: a store that is a release at its scope (R140). -/
def execStl32 (f : FmtAcq) (s : State) : Out :=
  s.memory (storeWord s.gangNow f.k .reg f.d.toNat f.a.toNat 4 3 0 (some f.scope.toNat))
/-- STL64: the same for a pair. -/
def execStl64 (f : FmtAcq) (s : State) : Out :=
  s.memory (storeWord s.gangNow f.k .pair f.d.toNat f.a.toNat 8 3 0 (some f.scope.toNat))

/-! ## Atomics -/

/-- An atomic of Table 6.3 is 64 bits wide. -/
def AtomOp.wide (op : AtomOp) : Bool := op == .add64 || op == .xchg64
/-- The F value of an atomic (Table 6.3). -/
def AtomOp.code : AtomOp → Nat
  | .add => 0 | .sub => 1 | .and => 2 | .or => 3 | .xor => 4 | .min => 5 | .max => 6 | .minu => 7 | .maxu => 8
  | .xchg => 9 | .fadd => 10 | .fmin => 11 | .fmax => 12 | .add64 => 13 | .xchg64 => 14 | .badd2 => 15

/-- A result that has arrived for a thread (R147). -/
def answered (sn g l : Nat) (dest : Dest) (v : Nat) : List Pending :=
  if dest = .none then [] else [⟨sn, g, l, dest.base, some (loadValue dest v), none⟩]

/-- A remote atomic at issue (R146, R147, R393): refused at the source without the engine bit or a route, else a transfer;
its status is kept for EFENCE. -/
def State.remoteAtomic (s : State) (c : IssueCtx) (l key : Nat) (engine : Bool) (op : AtomOp) (operand : DWord)
    (dest : Dest) : State :=
  let sn := s.sn * 64 + l
  let dst := keyHome key
  let x := BitVec.ofNat 32 sn
  let refuse := fun (st : Nat) =>
    { (s.onThread c.gang l fun t => { t with statuses := t.statuses ++ [(sn, st)] }) with
      pending := s.pending ++ answered sn c.gang l dest 0 }
  if !engine then refuse 2
  else
    match s.route dst sn with
    | .none => refuse 3
    | _ =>
      let owner : OpOwner := match s.gangs.find? c.gang with
        | some G => ⟨G.spawn, G.index * G.width + l, sn⟩
        | none => ⟨0, 0, sn⟩
      { s with transfers := s.transfers ++
          [{ xfer := x, dst := dst, tenant := s.tenant (s.ctxOf c.gang),
             kind := .atomic owner c.gang l op.code key operand dest }] }

/-- The effect of ATOM and ATOMN (R142): one atomic access a lane, or a remote atomic. -/
def atomEffect (w : MemSpec) (op : AtomOp) (dest : Dest) (popped : Gang) (c : IssueCtx) (view : Gang)
    (ps : List (Nat × DWord × Place')) (s : State) : State :=
  let operand := fun l => (w.shape.readLane w.fd w.fa w.fb (view.thread l) (popped.thread l)).1.b
  let s1 := ps.foldl (fun s e => match e.2.2 with
    | .at_ k true engine => s.remoteAtomic c e.1 k engine op (operand e.1) dest
    | .at_ k false _ =>
      { s with accesses := s.accesses ++
          [{ s.access c view.team e.1 e.2.1 k w.target.size (.atom op) (operand e.1).toNat dest false false with
             operands := [(operand e.1).toNat] }] }
    | _ => s) s
  ({ s1 with sn := s1.sn + 1 }).bumpSlots view.team (scratchSlots ps)

/-- An ATOM or ATOMN word. -/
def execAtomic (f : FmtA) (op : AtomOp) (returns : Bool) (s : State) : Out :=
  let u : Use := if op.wide then .pair else .reg
  let dest : Dest := if !returns then .none else if op.wide then .pair f.d.toNat else .reg f.d.toNat
  let w0 : MemSpec :=
    { shape := { a := .pair, b := u, latch := false }, fa := f.a.toNat, fb := f.b.toNat, k := f.k, dest := dest,
      target := { remote := true, r := true, w := true, a := true, size := if op.wide then 8 else 4, kind := 2,
                  load := true, store := true },
      effect := fun _ _ _ s => s }
  s.memory { w0 with effect := atomEffect w0 op dest s.gangNow }

/-- ATOM.ADD: D := M, M := the operation of Table 6.3, in one step (R142). -/
def execAtomAdd (f : FmtA) (s : State) : Out := execAtomic f .add true s
/-- ATOM.SUB: D := M, M := the operation of Table 6.3, in one step (R142). -/
def execAtomSub (f : FmtA) (s : State) : Out := execAtomic f .sub true s
/-- ATOM.AND: D := M, M := the operation of Table 6.3, in one step (R142). -/
def execAtomAnd (f : FmtA) (s : State) : Out := execAtomic f .and true s
/-- ATOM.OR: D := M, M := the operation of Table 6.3, in one step (R142). -/
def execAtomOr (f : FmtA) (s : State) : Out := execAtomic f .or true s
/-- ATOM.XOR: D := M, M := the operation of Table 6.3, in one step (R142). -/
def execAtomXor (f : FmtA) (s : State) : Out := execAtomic f .xor true s
/-- ATOM.MIN: D := M, M := the operation of Table 6.3, in one step (R142). -/
def execAtomMin (f : FmtA) (s : State) : Out := execAtomic f .min true s
/-- ATOM.MAX: D := M, M := the operation of Table 6.3, in one step (R142). -/
def execAtomMax (f : FmtA) (s : State) : Out := execAtomic f .max true s
/-- ATOM.MINU: D := M, M := the operation of Table 6.3, in one step (R142). -/
def execAtomMinu (f : FmtA) (s : State) : Out := execAtomic f .minu true s
/-- ATOM.MAXU: D := M, M := the operation of Table 6.3, in one step (R142). -/
def execAtomMaxu (f : FmtA) (s : State) : Out := execAtomic f .maxu true s
/-- ATOM.XCHG: D := M, M := the operation of Table 6.3, in one step (R142). -/
def execAtomXchg (f : FmtA) (s : State) : Out := execAtomic f .xchg true s
/-- ATOM.FADD: D := M, M := the operation of Table 6.3, in one step (R142). -/
def execAtomFadd (f : FmtA) (s : State) : Out := execAtomic f .fadd true s
/-- ATOM.FMIN: D := M, M := the operation of Table 6.3, in one step (R142). -/
def execAtomFmin (f : FmtA) (s : State) : Out := execAtomic f .fmin true s
/-- ATOM.FMAX: D := M, M := the operation of Table 6.3, in one step (R142). -/
def execAtomFmax (f : FmtA) (s : State) : Out := execAtomic f .fmax true s
/-- ATOM.ADD64: D := M, M := the operation of Table 6.3, in one step (R142). -/
def execAtomAdd64 (f : FmtA) (s : State) : Out := execAtomic f .add64 true s
/-- ATOM.XCHG64: D := M, M := the operation of Table 6.3, in one step (R142). -/
def execAtomXchg64 (f : FmtA) (s : State) : Out := execAtomic f .xchg64 true s
/-- ATOM.BADD2: D := M, M := the operation of Table 6.3, in one step (R142). -/
def execAtomBadd2 (f : FmtA) (s : State) : Out := execAtomic f .badd2 true s
/-- ATOMN.ADD: the same without a result. -/
def execAtomnAdd (f : FmtA) (s : State) : Out := execAtomic f .add false s
/-- ATOMN.SUB: the same without a result. -/
def execAtomnSub (f : FmtA) (s : State) : Out := execAtomic f .sub false s
/-- ATOMN.AND: the same without a result. -/
def execAtomnAnd (f : FmtA) (s : State) : Out := execAtomic f .and false s
/-- ATOMN.OR: the same without a result. -/
def execAtomnOr (f : FmtA) (s : State) : Out := execAtomic f .or false s
/-- ATOMN.XOR: the same without a result. -/
def execAtomnXor (f : FmtA) (s : State) : Out := execAtomic f .xor false s
/-- ATOMN.MIN: the same without a result. -/
def execAtomnMin (f : FmtA) (s : State) : Out := execAtomic f .min false s
/-- ATOMN.MAX: the same without a result. -/
def execAtomnMax (f : FmtA) (s : State) : Out := execAtomic f .max false s
/-- ATOMN.MINU: the same without a result. -/
def execAtomnMinu (f : FmtA) (s : State) : Out := execAtomic f .minu false s
/-- ATOMN.MAXU: the same without a result. -/
def execAtomnMaxu (f : FmtA) (s : State) : Out := execAtomic f .maxu false s
/-- ATOMN.XCHG: the same without a result. -/
def execAtomnXchg (f : FmtA) (s : State) : Out := execAtomic f .xchg false s
/-- ATOMN.FADD: the same without a result. -/
def execAtomnFadd (f : FmtA) (s : State) : Out := execAtomic f .fadd false s
/-- ATOMN.FMIN: the same without a result. -/
def execAtomnFmin (f : FmtA) (s : State) : Out := execAtomic f .fmin false s
/-- ATOMN.FMAX: the same without a result. -/
def execAtomnFmax (f : FmtA) (s : State) : Out := execAtomic f .fmax false s
/-- ATOMN.ADD64: the same without a result. -/
def execAtomnAdd64 (f : FmtA) (s : State) : Out := execAtomic f .add64 false s
/-- ATOMN.XCHG64: the same without a result. -/
def execAtomnXchg64 (f : FmtA) (s : State) : Out := execAtomic f .xchg64 false s
/-- ATOMN.BADD2: the same without a result. -/
def execAtomnBadd2 (f : FmtA) (s : State) : Out := execAtomic f .badd2 false s

/-! ## CAS -/

/-- A CAS word (R145): D is the expected value, read at issue, and receives the old value. -/
def execCompareSwap (f : FmtA) (wide : Bool) (s : State) : Out :=
  let u : Use := if wide then .pair else .reg
  let dest : Dest := if wide then .pair f.d.toNat else .reg f.d.toNat
  let before := s.gangNow
  let w0 : MemSpec :=
    { shape := { d := u, a := .pair, b := u, latch := false }, fd := f.d.toNat, fa := f.a.toNat, fb := f.b.toNat, k := f.k,
      dest := dest,
      target := { r := true, w := true, a := true, size := if wide then 8 else 4, kind := 2, load := true, store := true },
      effect := fun _ _ _ s => s }
  s.memory { w0 with effect := fun c view ps s =>
    let new := ps.filterMap fun e => match e.2.2 with
      | .at_ k _ _ =>
        let v := (w0.shape.readLane w0.fd w0.fa w0.fb (view.thread e.1) (before.thread e.1)).1
        some (s.access c view.team e.1 e.2.1 k w0.target.size (.cas v.d false) v.b.toNat dest false false)
      | _ => none
    { s with accesses := s.accesses ++ new, sn := s.sn + 1 } }

/-- CAS32. -/
def execCas32 (f : FmtA) (s : State) : Out := execCompareSwap f false s
/-- CAS64. -/
def execCas64 (f : FmtA) (s : State) : Out := execCompareSwap f true s

end Sys2Proof.Machine
end

