-- ==== Sys2Proof/Machine/GangOps.lean ====
section
/-! DEFINITION. Words across the lanes of a gang (07): LXCH, XRED and XVOTE with their rendezvous, the MASK forms, and
what happens to masks and waiters at the end of a gang issue cycle (R32, R168, R179). -/

namespace Sys2Proof.Machine

open Sys2Proof

/-! ## Masks -/

/-- A mask by its field value: 12 to 15 name m0 (R48). The second mask's field has six bits; its values above 15, which the spec does not
name, name m0 too (DESIGN CHOICE, log 92). -/
def Gang.mask (G : Gang) (m : Nat) : DWord := nth 0 G.masks (if m < 12 then m else 0)
/-- The mask number of a field value. -/
def maskNo (m : Nat) : Nat := if m < 12 then m else 0

/-- A value written to a mask: m0 ignores writes, and every mask stays within m0 (R31, R178). -/
def Gang.setMask (G : Gang) (m : Nat) (v : DWord) : Gang :=
  if m = 0 then G else { G with masks := setNth G.masks m (v &&& G.mask 0) }

/-- One change of a cycle (R178, R179); an exit clears the lane's bit in every mask (R34). -/
def Gang.applyOp (G : Gang) (e : Nat × MaskOp) : Gang :=
  match e.2 with
  | .setBit m => G.setMask m (G.mask m ||| laneBit e.1)
  | .clearBit m => G.setMask m (G.mask m &&& ~~~laneBit e.1)
  | .assign m v => G.setMask m v
  | .and_ m v => G.setMask m (G.mask m &&& v)
  | .or_ m v => G.setMask m (G.mask m ||| v)
  | .andn m v => G.setMask m (G.mask m &&& ~~~v)
  | .clear m => G.setMask m 0
  | .exit => { G with masks := G.masks.map fun x => x &&& ~~~laneBit e.1 }

/-- The changes of a cycle in ascending lane order, each on the result of the last (R179). -/
def Gang.applyOps (G : Gang) : Gang :=
  { (sortBy (·.1) G.maskOps).foldl Gang.applyOp G with maskOps := [] }

/-! ## What a cross-lane word computes -/

/-- A participant: its lane and the operands it read. -/
structure Party where
  lane : Nat
  a : Word
  b : Word
deriving DecidableEq, Repr

/-- The operand of a participant lane, if it is one. -/
def partyA (ps : List Party) (l : Nat) : Option Word := (ps.find? fun p => p.lane == l).map (·.a)

/-- The source lane of LXCH: mode 0 PICK, 1 ROT, 2 STEP, 3 REFL (R174). -/
def sourceLane (mode width l : Nat) (b : Word) : Int :=
  match mode with
  | 0 => b.toNat
  | 1 => ((l + b.toNat) % width : Nat)
  | 2 => l + b.toInt
  | _ => (l ^^^ b.toNat : Nat)

/-- LXCH: the A of the source lane where that is a participant, else the lane's own (R174). -/
def exchange (mode width : Nat) (ps : List Party) (p : Party) : Word :=
  let i := sourceLane mode width p.lane p.b
  if 0 ≤ i ∧ i < width then (partyA ps i.toNat).getD p.a else p.a

/-- REDFADD: the exact sum rounded once RNE, with its causes; opposing infinities are invalid even beside a NaN (R176). -/
def floatSum (ps : List Party) : FRes :=
  let vs := ps.map fun p => fp32.decode p.a.toNat
  let opposed := vs.contains (.inf false) && vs.contains (.inf true)
  fp32.sum 0 (vs.map FVal.term) (if opposed then [fpInvalid] else sigCause vs)

/-- XRED (Table 7.4). -/
def reduce (op : Nat) (ps : List Party) (l : Nat) : Word :=
  let as_ := ps.map (·.a)
  let first := as_.headD 0
  match op with
  | 0 => as_.foldl (· + ·) 0
  | 1 => as_.foldl (fun x y => if y.toInt < x.toInt then y else x) first
  | 2 => as_.foldl (fun x y => if x.toInt < y.toInt then y else x) first
  | 3 => as_.foldl (fun x y => if y.toNat < x.toNat then y else x) first
  | 4 => as_.foldl (fun x y => if x.toNat < y.toNat then y else x) first
  | 5 => as_.foldl (· &&& ·) 0xFFFFFFFF#32
  | 6 => as_.foldl (· ||| ·) 0
  | 7 => as_.foldl (· ^^^ ·) 0
  | 8 => ((ps.filter fun p => decide (p.lane ≤ l)).map (·.a)).foldl (· + ·) 0
  | 9 => ((ps.filter fun p => decide (p.lane < l)).map (·.a)).foldl (· + ·) 0
  | _ => BitVec.ofNat 32 (floatSum ps).bits

/-- XVOTE (Table 7.5). -/
def vote (op : Nat) (ps : List Party) (p : Party) : DWord :=
  let set := ps.filter fun q => q.a != 0
  match op with
  | 0 => if set.isEmpty then 0 else 1
  | 1 => if set.length = ps.length then 1 else 0
  | 2 => laneSet (set.map (·.lane))
  | 3 => laneSet ((ps.filter fun q => q.a == p.a).map (·.lane))
  | 4 => if ps.all fun q => decide (p.lane ≤ q.lane) then 1 else 0
  | _ => BitVec.ofNat 64 set.length

/-- A cross-lane word's result for a participant: code 0 to 3 LXCH, 16 + op XRED, 32 + op XVOTE. REDFADD's causes stand in
bits 32 to 34. -/
def crossResult (code width : Nat) (ps : List Party) (p : Party) : DWord :=
  if code < 16 then (exchange code width ps p).setWidth 64
  else if code < 32 then
    let flags := if code = 26 then
        (floatSum ps).causes.foldl (fun (n : Nat) c => n + (if c = fpInvalid then 1 else if c = fpOverflow then 2 else 4)) 0
      else 0
    BitVec.ofNat 64 ((reduce (code - 16) ps p.lane).toNat + 2 ^ 32 * flags)
  else vote (code - 32) ps p

/-- REDFADD's causes as a lane logs them under its own FPC (R176). -/
def crossCauses (t : Thread) (v : DWord) : List Nat :=
  let n := (hiOf v).toNat
  t.logged ((if bitsOf n 0 1 = 1 then [fpInvalid] else []) ++ (if bitsOf n 1 1 = 1 then [fpOverflow] else []) ++
    (if bitsOf n 2 1 = 1 then [fpUnderflow] else []))

/-! ## Arrival and release -/

/-- The lanes waiting in WAITM on a mask: its arrival set (R32). -/
def Gang.arrivals (G : Gang) (m : Nat) : DWord :=
  laneSet ((natsFrom 0 G.width).filter fun l => (G.thread l).wait == some (.waitm m) && (G.thread l).grant.isNone)

/-- The arrival set of a mask is released once every member has arrived (R32); late: the lanes that a FENCE.SP before their arrival still
holds back (R362). -/
def Gang.releaseMask (late : DWord) (G : Gang) (m : Nat) : Gang :=
  let set := G.arrivals m
  if set ≠ 0 ∧ G.mask m &&& ~~~set = 0 ∧ set &&& late = 0 then G.onLanes set fun _ t => { t with grant := some 0 } else G

/-- The participants that have arrived at a rendezvous (R168). -/
def Gang.parties (G : Gang) (m : Nat) (pc : Word) (pos : Nat) : List Party :=
  (natsFrom 0 G.width).filterMap fun l =>
    match (G.thread l).wait, (G.thread l).grant with
    | some (.rendezvous m' pc' pos' _ a b), none => if m' = m ∧ pc' = pc ∧ pos' = pos then some ⟨l, a, b⟩ else none
    | _, _ => none

/-- The rendezvous that lane l waits at completes when every member of its mask has arrived there: each participant is
granted its result (R168); late: as for WAITM (R362). -/
def Gang.completeAt (late : DWord) (G : Gang) (l : Nat) : Gang :=
  match (G.thread l).wait, (G.thread l).grant with
  | some (.rendezvous m pc pos _ _ _), none =>
    let ps := G.parties m pc pos
    let set := laneSet (ps.map (·.lane))
    if G.mask m &&& ~~~set = 0 ∧ set &&& late = 0 then
      G.onLanes set fun k t =>
        match ps.find? fun p => p.lane == k, t.wait with
        | some p, some (.rendezvous _ _ _ op _ _) => { t with grant := some (crossResult op G.width ps p) }
        | _, _ => t
    else G
  | _, _ => G

/-- Every waiting WAITM and rendezvous is checked again (R32, R168). -/
def Gang.recheck (G : Gang) (late : DWord) : Gang :=
  (natsFrom 0 G.width).foldl (Gang.completeAt late) ((natsFrom 0 12).foldl (Gang.releaseMask late) G)

/-! ## LXCH, XRED and XVOTE -/

/-- A cross-lane word (R168, R169): a lane outside the mask completes alone; the others arrive and wait. -/
def crossLane (s : State) (w : WordSpec) (code m : Nat) : Out :=
  let pc := s.wordPc
  let pos := s.wordPos
  let view := (s.ctx.bind (·.pre)).getD s.gangNow
  let self := fun l (v : Vals) => (⟨l, v.a32, v.b32⟩ : Party)
  s.runBlocking w
    (fun l _ v => if inLanes (view.mask m) l then none else some (crossResult code view.width [self l v] (self l v)))
    (fun _ _ v => .rendezvous (maskNo m) pc pos code v.a32 v.b32)
    (if code = 26 then crossCauses else fun _ _ => [])

/-- LXCH in a mode (R174). -/
def lxch (f : FmtX) (mode : Nat) (s : State) : Out :=
  crossLane s { shape := { a := .reg, b := .reg, dst := .reg, latch := false }, fd := f.d.toNat, fa := f.a.toNat,
                fb := f.b.toNat, k := f.k } mode f.m.toNat
/-- XRED (R175). -/
def xred (f : FmtG) (op : Nat) (s : State) : Out :=
  crossLane s { shape := { a := .reg, dst := .reg }, fd := f.d.toNat, fa := f.a.toNat, h := f.h.toNat, k := f.k } (16 + op)
    f.m.toNat
/-- XVOTE (R177): LMAP and LPEER write a pair, LFIRST reads no register. -/
def xvote (f : FmtG) (op : Nat) (s : State) : Out :=
  crossLane s { shape := { a := if op = 4 then .unused else .reg, dst := if op = 2 ∨ op = 3 then .pair else .reg },
                fd := f.d.toNat, fa := f.a.toNat, h := f.h.toNat, k := f.k } (32 + op) f.m.toNat

/-- LXCH.PICK (R174). -/
def execLxchPick (f : FmtX) (s : State) : Out := lxch f 0 s
/-- LXCH.ROT (R174). -/
def execLxchRot (f : FmtX) (s : State) : Out := lxch f 1 s
/-- LXCH.STEP (R174). -/
def execLxchStep (f : FmtX) (s : State) : Out := lxch f 2 s
/-- LXCH.REFL (R174). -/
def execLxchRefl (f : FmtX) (s : State) : Out := lxch f 3 s
/-- REDADD (Table 7.4). -/
def execRedadd (f : FmtG) (s : State) : Out := xred f 0 s
/-- REDMIN (Table 7.4). -/
def execRedmin (f : FmtG) (s : State) : Out := xred f 1 s
/-- REDMAX (Table 7.4). -/
def execRedmax (f : FmtG) (s : State) : Out := xred f 2 s
/-- REDMINU (Table 7.4). -/
def execRedminu (f : FmtG) (s : State) : Out := xred f 3 s
/-- REDMAXU (Table 7.4). -/
def execRedmaxu (f : FmtG) (s : State) : Out := xred f 4 s
/-- REDAND (Table 7.4). -/
def execRedand (f : FmtG) (s : State) : Out := xred f 5 s
/-- REDOR (Table 7.4). -/
def execRedor (f : FmtG) (s : State) : Out := xred f 6 s
/-- REDXOR (Table 7.4). -/
def execRedxor (f : FmtG) (s : State) : Out := xred f 7 s
/-- SCANADD (Table 7.4). -/
def execScanadd (f : FmtG) (s : State) : Out := xred f 8 s
/-- SCANADDX (Table 7.4). -/
def execScanaddx (f : FmtG) (s : State) : Out := xred f 9 s
/-- REDFADD (Table 7.4). -/
def execRedfadd (f : FmtG) (s : State) : Out := xred f 10 s
/-- LANY (Table 7.5). -/
def execLany (f : FmtG) (s : State) : Out := xvote f 0 s
/-- LALL (Table 7.5). -/
def execLall (f : FmtG) (s : State) : Out := xvote f 1 s
/-- LMAP (Table 7.5). -/
def execLmap (f : FmtG) (s : State) : Out := xvote f 2 s
/-- LPEER (Table 7.5). -/
def execLpeer (f : FmtG) (s : State) : Out := xvote f 3 s
/-- LFIRST (Table 7.5). -/
def execLfirst (f : FmtG) (s : State) : Out := xvote f 4 s
/-- LCOUNT (Table 7.5). -/
def execLcount (f : FmtG) (s : State) : Out := xvote f 5 s

/-! ## MASK -/

/-- A mask form without a result: its change takes effect at the end of the gang issue cycle (R178, R179). -/
def maskWord (f : FmtG) (a : Use) (op : Vals → MaskOp) (s : State) : Out :=
  s.run { shape := { a := a }, fa := f.a.toNat, h := f.h.toNat, k := f.k, deny := 3, ops := fun _ _ v => [op v] }
/-- The masks as the executing word reads them (R179). -/
def State.maskRead (s : State) (m : Nat) : DWord := ((s.ctx.bind (·.pre)).getD s.gangNow).mask m

/-- JOIN: sets the issuing lane's bit. -/
def execJoin (f : FmtG) (s : State) : Out := maskWord f .unused (fun _ => .setBit (maskNo f.m.toNat)) s
/-- LEAVE: clears the issuing lane's bit. -/
def execLeave (f : FmtG) (s : State) : Out := maskWord f .unused (fun _ => .clearBit (maskNo f.m.toNat)) s
/-- WAITM: a lane whose bit is clear completes at once; the others wait for the whole mask (R32). -/
def execWaitm (f : FmtG) (s : State) : Out :=
  s.runBlocking { shape := {}, h := f.h.toNat, k := f.k, deny := 3 }
    (fun l _ _ => if inLanes (s.maskRead f.m.toNat) l then none else some 0)
    (fun _ _ _ => .waitm (maskNo f.m.toNat))
/-- MGET: the D pair := the mask. -/
def execMget (f : FmtG) (s : State) : Out :=
  s.run { shape := { dst := .pair }, fd := f.d.toNat, h := f.h.toNat, k := f.k,
          f := fun _ _ _ => ⟨s.maskRead f.m.toNat, []⟩ }
/-- MSET: the mask := the A pair, within m0. -/
def execMset (f : FmtG) (s : State) : Out := maskWord f .pair (fun v => .assign (maskNo f.m.toNat) v.a) s
/-- MAND: mN := mN and mM. -/
def execMand (f : FmtG) (s : State) : Out :=
  maskWord f .unused (fun _ => .and_ (maskNo f.m.toNat) (s.maskRead f.a.toNat)) s
/-- MOR: mN := mN or mM. -/
def execMor (f : FmtG) (s : State) : Out :=
  maskWord f .unused (fun _ => .or_ (maskNo f.m.toNat) (s.maskRead f.a.toNat)) s
/-- MANDN: mN := mN and not mM. -/
def execMandn (f : FmtG) (s : State) : Out :=
  maskWord f .unused (fun _ => .andn (maskNo f.m.toNat) (s.maskRead f.a.toNat)) s
/-- MCLR: mN := 0. -/
def execMclr (f : FmtG) (s : State) : Out := maskWord f .unused (fun _ => .clear (maskNo f.m.toNat)) s

end Sys2Proof.Machine
end

