-- ==== Sys2Proof/Machine/Teams.lean ====
section
/-! DEFINITION. Teams, barriers, synchronisation words and handles (13): the TEAM, SYNCW and HANDLE words, the dissolving
of a team, the handover of a handle, and the zeroing of returned slots. -/

namespace Sys2Proof.Machine

open Sys2Proof

/-! ## The team table -/

/-- A team entry that is not in use (Table 13.1 reset values). -/
def Team.blank : Team :=
  { valid := false, gen := 0, phase := 0, cap := 0, auto := false, swapped := false, poisoned := false, creator := none,
    windows := [], renames := [], bindings := [], dgens := [] }

/-- A handle entry that is not in use. -/
def Handle.blank : Handle :=
  { valid := false, gen := 0, holder := 0, offer := none, count := 0, pfirst := 0, core := 0, window := 0, mapped := false,
    poisoned := false }

/-- A team's entry. -/
def State.team (s : State) (k : Nat) : Team := s.teams.get Team.blank k
/-- A handle's entry. -/
def State.handle (s : State) (h : Nat) : Handle := s.handles.get Handle.blank h

/-- The next generation of an entry (R251, R266): 63 is skipped for index 1,023. -/
def nextGen (index gen : Nat) : Nat := if index = 1023 ∧ gen = 62 then 0 else (gen + 1) % 64

/-- The key of the valid team that an id names in a cluster (R251). -/
def State.teamOf (s : State) (cl id : Nat) : Option Nat :=
  let k := cl * 1024 + id % 1024
  if (s.team k).valid && (s.team k).gen == id / 1024 % 64 then some k else none

/-- The message bears a stale id: the right index and the wrong generation (R251, R261). -/
def State.staleId (s : State) (cl id : Nat) : Bool := (s.team (cl * 1024 + id % 1024)).gen != id / 1024 % 64

/-- A saturating 32-bit count raised by one. -/
def bumpCount (m : SMap Nat) (k lim : Nat) : SMap Nat := m.set 0 k (if m.get 0 k < lim then m.get 0 k + 1 else lim)

/-- The cluster's STALEDROP raised by one if the id is stale (R261, Table 13.6). -/
def State.dropStale (s : State) (cl id : Nat) : State :=
  if s.staleId cl id then { s with sync := { s.sync with staleDrops := bumpCount s.sync.staleDrops cl 0xFFFFFFFF } } else s

/-- The team index of a gang that is in no team. -/
def noTeam : Nat := 2 ^ 40

/-- The member gangs of a team. -/
def State.members (s : State) (k : Nat) : List (Nat × Gang) := s.gangs.filter fun e => e.2.team == k

/-- The live threads of a list of gangs (LIVE), and those that have arrived (ARRIVED) (Table 13.1). -/
def liveCount (gs : List (Nat × Gang)) : Nat := (gs.map fun e => (e.2.threads.filter (·.live)).length).foldl (· + ·) 0
def arrivedCount (gs : List (Nat × Gang)) : Nat :=
  (gs.map fun e => (e.2.threads.filter fun t => t.live && t.arrived).length).foldl (· + ·) 0

/-- The state with every thread of a gang changed. -/
def State.onThreads (s : State) (g : Nat) (f : Thread → Thread) : State :=
  s.onGang g fun G => { G with threads := G.threads.map f }

/-- A team is checked: once every live member thread has arrived, the phase advances and the marks are cleared (R254). -/
def State.checkBarrier (s : State) (k : Nat) : State :=
  let ms := s.members k
  if liveCount ms ≠ 0 ∧ arrivedCount ms = liveCount ms ∧ !(s.team k).swapped then
    let s1 := ms.foldl (fun s e => s.onThreads e.1 fun t => { t with arrived := false }) s
    { s1 with teams := s1.teams.modify k fun T => { T with phase := T.phase + 1#32 } }
  else s

/-! ## Slots, handles and windows -/

/-- The key of the first byte of a physical slot, numbered core × 128 + slot (R163). -/
def slotKey (p : Nat) : Nat := 2 ^ 52 + p * 8192
/-- A key lies in a physical slot. -/
def inSlot (p k : Nat) : Bool := decide (slotKey p ≤ k ∧ k < slotKey p + 8192)

/-- The scratch keys that a matrix or accumulator operation still reads or writes. -/
def MatKind.keys : MatKind → List Nat
  | .product _ _ _ a _ b _ _ _ _ => b :: a.toList
  | .astore ws _ => ws.map (·.1)
  | .aload _ k0 k1 => [k0, k1]
  | _ => []

/-- The physical slots of a handle (R266). -/
def Handle.slots (h : Handle) (cl : Nat) : List Nat := natsFrom ((cl * 8 + h.core) * 128 + h.pfirst) h.count

/-- Some access, matrix operation or scale load that has issued still touches a physical slot. -/
def State.slotBusy (s : State) (p : Nat) : Bool :=
  s.accesses.any (fun a => inSlot p a.pa) || s.matOps.any (fun o => o.kind.keys.any (inSlot p)) ||
  s.scaleLoads.any (fun x => inSlot p x.pa)

/-- The team slots that a copy's destination rows and its synchronisation word lie in (R281, R283). -/
def CopyDesc.destSlots (d : CopyDesc) : List Nat :=
  let sync := if d.sync = 0 then [] else [d.sync.toNat / 8192 % 128]
  if d.dst.toNat / 2 ^ 61 ≠ 2 ∨ d.rows = 0 then sync
  else if d.kind = 1 then (d.dst.toNat / 8192 % 128) :: sync
  else if d.rbytes = 0 then sync
  else
    ((natsFrom 0 d.rows).flatMap fun r =>
      let o := (d.dst.toNat + r * d.dstride) % 2 ^ 20
      (natsFrom (o / 8192) ((o + d.rbytes - 1) / 8192 - o / 8192 + 1)).map (· % 128)).eraseDups ++ sync

/-- An unfinished copy writes a physical slot (R271, R290). -/
def State.copyInto (s : State) (p : Nat) : Bool :=
  s.copies.any fun c => c.desc.destSlots.any fun t => c.slots.find? t == some p

/-- An unfinished copy holds a physical slot, to write it or to read it (R290): neither is cut short, so that a team's end
changes no copy's outcome (R296). -/
def State.copyHolds (s : State) (p : Nat) : Bool := s.copies.any fun c => c.slots.any fun e => e.2 == p

/-- The team with the data generations of consecutive slots advanced (R190). -/
def Team.bumpRange (T : Team) (base n : Nat) : Team := (natsFrom base n).foldl Team.bump T

/-- The state without the windows that map a handle; the slots that each team loses advance their data generations
(R190). -/
def State.dropWindows (s : State) (h : Nat) : State :=
  { s with
    teams := s.teams.mapVals fun _ T =>
      let gone := T.windows.filter fun w => w.2.handle == h
      if gone.isEmpty then T else
      gone.foldl (fun T w => T.bumpRange w.2.base w.2.count) { T with windows := T.windows.filter fun w => w.2.handle != h }
    handles := s.handles.modify h fun x => { x with mapped := false } }

/-- A handle is freed: its window and offer go, its entry takes the next generation, its slots return to the pool to be
zeroed (R273). -/
def State.freeHandle (s : State) (h : Nat) : State :=
  let x := s.handle h
  let s1 := s.dropWindows h
  { s1 with
    handles := s1.handles.put h { Handle.blank with gen := nextGen (h % 1024) x.gen }
    sync := { s1.sync with returned := s1.sync.returned ++ (x.slots (h / 1024)).filter fun p => !s1.sync.returned.contains p } }

/-- The handles a team holds. -/
def State.held (s : State) (k : Nat) : List (Nat × Handle) := s.handles.filter fun e => e.2.valid && e.2.holder == k

/-- A team's handles return to the pool and its scale registers are freed (R241, R258); the registers' poison goes with them. -/
def State.freeTeam (s : State) (k cl : Nat) : State :=
  let mine := fun (p : Nat) => (s.team k).renames.any fun r => r.2.mapped && (cl * 8 + r.2.core) * 128 + r.2.preg == p
  let s1 := (s.held k).foldl (fun s e => s.freeHandle e.1) s
  { s1 with
    scaleRegs := s1.scaleRegs.filter fun e => !mine e.1
    poison := s1.poison.filter fun d => match d with | .scaleGroup p _ => !mine p | _ => true
    teams := s1.teams.modify k fun T => { T with renames := T.renames.mapVals fun _ r => { r with mapped := false } } }

/-- A handle's entry without an offer to a team. -/
def Handle.withdraw (k : Nat) (h : Handle) : Handle := if h.offer = some k then { h with offer := none } else h

/-- A team is dissolved (R258): its handles return to the pool, offers to it are withdrawn, those of saved handles too, its scale
registers are freed, its entry takes the next generation; a singleton's state goes. -/
def State.dissolve (s : State) (k cl : Nat) : State :=
  let s1 := s.freeTeam k cl
  { s1 with
    handles := s1.handles.mapVals fun _ h => h.withdraw k
    front := { s1.front with images := s1.front.images.mapVals fun _ (x : Image) =>
      { x with handles := x.handles.map fun (h : SavedHandle) => { h with entry := h.entry.withdraw k } } }
    teams :=
      if 65536 ≤ k then s1.teams.erase k else s1.teams.put k { Team.blank with gen := nextGen (k % 1024) (s.team k).gen } }

/-- The mark of a team whose creating spawn has completed (R258). -/
def creatorGone : Nat := 2 ^ 40

/-- A table team without members goes: an automatic one whose last member gang has ended, and any whose creating spawn has
completed (R258). A swapped team has its members in its image. -/
def State.dissolveEmpty (s : State) (k cl : Nat) (ends : Bool) : State :=
  let T := s.team k
  if k < 65536 ∧ T.valid ∧ !T.swapped ∧ (s.members k).isEmpty ∧ ((ends ∧ T.auto) ∨ T.creator = some creatorGone) then
    s.dissolve k cl
  else s

/-- The gang leaves its team (R254, R259): a singleton is dissolved; the team it leaves is checked. -/
def State.leaveTeam (s : State) (g : Nat) : State :=
  match s.gangs.find? g with
  | none => s
  | some G =>
    let s1 := (s.onThreads g fun t => { t with arrived := false }).onGang g fun G => { G with team := noTeam }
    if 65536 ≤ G.team then s1.dissolve G.team (clusterOf g)
    else (s1.checkBarrier G.team).dissolveEmpty G.team (clusterOf g) false

/-- A gang that has ended leaves its team (R34). Where its spawn is being ended and all the team's members belong to that spawn,
the team's handles and scale registers are released (R241 step 7); an automatic team that it was the last of is dissolved (R258). -/
def State.quitTeam (s : State) (g : Nat) : State :=
  match s.gangs.find? g with
  | none => s
  | some G =>
    let cl := clusterOf g
    let ended := match s.spawns.find? G.spawn with | some p => p.stopped | none => false
    let s1 := if ended && (s.members G.team).all fun e => e.2.spawn == G.spawn then s.freeTeam G.team cl else s
    (s1.leaveTeam g).dissolveEmpty G.team cl true

/-- The gang joins a team, which is then checked (R254). -/
def State.joinTeam (s : State) (g k : Nat) : State := (s.onGang g fun G => { G with team := k }).checkBarrier k

/-- A gang's fresh singleton team (R253). Its generation, which no word can see, tells it from the slot's earlier ones. -/
def State.ownTeam (s : State) (g : Nat) : State :=
  let k := 65536 + g
  ({ s with teams := s.teams.put k { Team.blank with valid := true, cap := 32768, gen := s.sn }, sn := s.sn + 1 }).joinTeam g k

/-! ## Words that act on the gang once -/

/-- A word that takes effect once for the lanes that issue it, with A and B read from the lowest, and writes one result in
each (R183, R256, R268): tested; lanes in regions leave it; the effect and its result, or none while it must wait. -/
def State.gangWord (s : State) (w : WordSpec) (wait : Wait)
    (act : IssueCtx → Vals → State → Option DWord × State) : Out :=
  s.word fun c view =>
    s.tested c view w.reads w.writes
      (let (s0, c0) := s.screen c 3
       let (s1, c1) := s0.letIn c0 view (w.shape.needs w.fa w.fb)
       if c1.lanes = 0#64 then s1
       else
         let l := lowestLane c1.lanes
         let (r, s2) := match (s1.thread c1.gang l).answer c1.pos with
           | some v => (some v, s1)
           | none => act c1 (w.vals (view.thread l) (s1.thread c1.gang l)) s1
         match r with
         | none =>
           { s2.onLanes c1.gang c1.lanes (fun _ t => t.waitIn c1.pos wait) with
             ctx := some { c1 with lanes := 0, blocked := c1.blocked ||| c1.lanes } }
         | some v =>
           (s2.onLanes c1.gang c1.lanes fun _ t => t.completeIn c1.pos c1.chained v).regEffect c1 view
             { w with f := fun _ _ _ => ⟨v, []⟩ })

/-- The register word of a TEAM or HANDLE form. -/
def gangForm (f : FmtA) (a b dst : Use) : WordSpec :=
  { shape := { a := a, b := b, dst := dst }, fd := f.d.toNat, fa := f.a.toNat, fb := f.b.toNat, h := f.h.toNat, k := f.k }

/-- The team of a gang. -/
def State.teamKey (s : State) (g : Nat) : Nat := match s.gangs.find? g with | some G => G.team | none => 0

/-- TNEW: a free entry of the cluster becomes a team of capacity A; D := its id, or a failure code (R257). Which free entry
is taken is free (log 7). -/
def execTnew (f : FmtA) (s : State) : Out :=
  s.gangWord (gangForm f .reg .unused .reg) .engine fun c v s =>
    let cap := v.a32.toNat
    let cl := clusterOf c.gang
    let free := (natsFrom (cl * 1024) 1024).filter fun k => !(s.team k).valid
    if cap = 0 ∨ 32768 < cap then (some 0xFFFFFFFE, s)
    else if free.isEmpty then (some 0xFFFFFFFF, s)
    else
      let (n, s1) := s.choose free.length
      let k := nth 0 free n
      let gen := (s1.team k).gen
      let spawn := (s1.gangs.find? c.gang).map Gang.spawn
      (some (BitVec.ofNat 64 (gen * 1024 + k % 1024)),
       { s1 with teams := s1.teams.put k { Team.blank with valid := true, gen := gen, cap := cap, creator := spawn } })

/-- TFREE: dissolves the named team if no gang is in it (R258). -/
def execTfree (f : FmtA) (s : State) : Out :=
  s.gangWord (gangForm f .reg .unused .reg) .engine fun c v s =>
    let cl := clusterOf c.gang
    let id := v.a32.toNat % 65536
    match s.teamOf cl id with
    | none => (some 1, s.dropStale cl id)
    | some k =>
      if (s.team k).swapped then (some 4, s)
      else if !(s.members k).isEmpty then (some 3, s)
      else (some 0, s.dissolve k cl)

/-- TJOIN: the gang moves into the named team (R259). -/
def execTjoin (f : FmtA) (s : State) : Out :=
  s.gangWord (gangForm f .reg .unused .reg) .engine fun c v s =>
    let cl := clusterOf c.gang
    let id := v.a32.toNat % 65536
    match s.teamOf cl id with
    | none => (some 1, s.dropStale cl id)
    | some k =>
      if s.teamKey c.gang = k then (some 0, s)
      else if (s.team k).swapped then (some 4, s)
      else
        let ms := s.members k
        let mine := liveCount (s.gangs.filter fun e => e.1 == c.gang)
        if (s.team k).cap < liveCount ms + mine ∨ 2048 < ms.length + 1 then (some 2, s)
        else (some 0, (s.leaveTeam c.gang).joinTeam c.gang k)

/-- TLEAVE: the gang leaves a table team for a fresh singleton (R259). -/
def execTleave (f : FmtA) (s : State) : Out :=
  s.gangWord (gangForm f .unused .unused .unused) .engine fun c _ s =>
    if 65536 ≤ s.teamKey c.gang then (some 0, s) else (some 0, (s.leaveTeam c.gang).ownTeam c.gang)

/-! ## The barrier -/

/-- The thread after an acquire at cluster scope (R137, R255, R265). -/
def Thread.acquire (t : Thread) (sn : Nat) : Thread := t.addFence ⟨.reads, sn, 3, true⟩

/-- Phase p of a team has completed (R254). -/
def phaseDone (phase p : Word) : Bool := decide (0 < (phase - p).toInt)

/-- What a lane still has to be performed of what it issued before the chain that executes (R22). -/
def State.unperformedBefore (s : State) (g l : Nat) : Bool := (s.beforeSn s.chainStart).unperformed g l

/-- The lanes of a word arrive in their team's current phase once the accesses they issued earlier are performed; a lane
that is marked already does not arrive again (R254, R255). Lanes that must still wait keep `arriving`. -/
def State.arrive (s : State) (c : IssueCtx) : State :=
  let phase := (s.team (s.teamKey c.gang)).phase
  let s1 := s.onLanes c.gang c.lanes fun l t =>
    match t.wait, t.answer c.pos with
    | _, some _ => t
    | some (.barrier _), none => t
    | _, none =>
      if t.arrived then { t.waitIn c.pos .arriving with wait := some (.barrier phase) }
      else if s.unperformedBefore c.gang l then t.waitIn c.pos .arriving
      else { t.waitIn c.pos .arriving with arrived := true, wait := some (.barrier phase) }
  if c.chained then s1 else s1.checkBarrier (s1.teamKey c.gang)

/-- The lanes of a word that are released from a phase. -/
def State.phaseAnswer (s : State) (g l : Nat) : Option DWord :=
  match (s.thread g l).wait with
  | some (.barrier p) => if phaseDone (s.team (s.teamKey g)).phase p then some 0 else none
  | _ => none

/-- TBAR: arrives and waits for the phase it arrived in; the release acts as FENCE.ACQ.cluster (R255, R260). -/
def execTbar (f : FmtA) (s : State) : Out :=
  s.word fun c _ =>
    let (s0, c0) := s.screen c 3
    let s1 := if c0.lanes = 0#64 then s0 else s0.arrive c0
    let w : WordSpec := { gangForm f .unused .unused .unused with
      deny := 3, post := fun _ _ _ t => t.acquire (s1.sn * 64) }
    match s1.runBlocking w (fun l _ _ => s1.phaseAnswer c0.gang l) (fun _ _ _ => .arriving) with
    | .next s2 => s2
    | _ => s1

/-- TARRIVE: arrives; D := the phase it arrived in, or the current one if it was marked already; it does not wait for the
phase (R260). The arrival waits for the lanes' earlier accesses (R255). -/
def execTarrive (f : FmtA) (s : State) : Out :=
  s.word fun c view =>
    let w := gangForm f .unused .unused .reg
    s.tested c view w.reads w.writes
      (let (s0, c0) := s.screen c 3
       let k := s0.teamKey c0.gang
       let phase := (s0.team k).phase
       if (laneList c0.lanes).any fun l => !(s0.thread c0.gang l).arrived && s0.unperformedBefore c0.gang l then
         { s0 with ctx := some { c0 with blocked := c0.blocked ||| c0.lanes } }
       else
         let s1 := s0.onLanes c0.gang c0.lanes fun _ t => { t with arrived := true }
         let s2 := s1.regEffect c0 view { w with f := fun _ _ _ => ⟨phase.setWidth 64, []⟩ }
         if c0.chained then s2 else s2.checkBarrier k)

/-- TWAITP: waits until the phase in A has completed; the release acts as FENCE.ACQ.cluster (R255, R260). -/
def execTwaitp (f : FmtA) (s : State) : Out :=
  let phase := (s.team (s.teamKey s.wordGang)).phase
  s.runBlocking { gangForm f .reg .unused .unused with deny := 3, post := fun _ _ _ t => t.acquire (s.sn * 64) }
    (fun _ _ v => if phaseDone phase v.a32 then some 0 else none) (fun _ _ v => .barrier v.a32)

/-! ## Synchronisation words -/

/-- SyncAdd on the sixteen bytes of a synchronisation word (R263). -/
def syncStep (w : List Byte) (n status : Nat) : List Byte :=
  let f := fun i => leNat ((w.drop (4 * i)).take 4)
  let target := f 0
  let flags := f 3
  let count := let x := f 1 + n; if 0xFFFFFFFF < x then 0xFFFFFFFF else x
  let flags' := if status ≠ 0 ∧ bitsOf flags 1 1 = 0 then setBits (setBits flags 1 1 1) 8 4 status else flags
  let steps := if bitsOf flags 0 1 = 1 ∧ target ≠ 0 then count / target else 0
  leBytes 4 target ++ leBytes 4 (count - steps * target) ++ leBytes 4 ((f 2 + steps) % 2 ^ 32) ++ leBytes 4 flags'

/-- SyncAdd at a key (R263). -/
def State.syncAdd (s : State) (core : Option Nat) (key n status : Nat) : State :=
  s.performBytes core key (syncStep (s.mem.read key 16) n status)

/-- SWINIT (Table 13.4): TARGET := B, COUNT := 0, FLAGS := ARMED where B is not 0; GEN kept. -/
def State.syncInit (s : State) (core : Option Nat) (key : Nat) (b : Word) : State :=
  s.performBytes core key
    (leBytes 4 b.toNat ++ leBytes 4 0 ++ leBytes 4 (s.mem.num (key + 8) 4) ++ leBytes 4 (if b = 0 then 0 else 1))

/-- GEN of a synchronisation word. -/
def State.syncGen (s : State) (key : Nat) : Word := BitVec.ofNat 32 (s.mem.num (key + 8) 4)

/-- A SYNCW form (R264): the causes of its address in the order of Table 6.2; its lanes, once their own earlier accesses
allow it, in ascending order; its result is class F. SWADD and SWINIT count as a write of the slot (R190). In a region a right
address leaves the word to row 3 of Table 9.1 (log 32). -/
def syncForm (f : FmtA) (b : Use) (release acquire writes waits : Bool)
    (act : State → Option Nat → Nat → Word → State) (s : State) : Out :=
  s.word fun c view =>
    let w : WordSpec := { gangForm f .pair b .reg with deny := 3 }
    s.tested c view w.reads w.writes
      (let x : Target := { control := false, tensor := false, size := 16, kind := 2, load := true }
       let (s, c) := s.admitOut c view (w.shape.needs w.fa w.fb)
       if c.lanes = 0#64 then s else
         let val := fun l => w.vals (view.thread l) (s.thread c.gang l)
         let vas := (laneList c.lanes).map fun l => (l, (val l).a)
         let (found, s0) := s.locateAll c.gang view (s.ctxOf c.gang) x vas
         match s0.causeAmong c x.kind found with
         | some cause => s0.raise c cause
         | none =>
           let (s1, c0) := s0.screen c 3
           let ps := found.filter fun e => inLanes c0.lanes e.1
           let keys := keysOf ps
           let keyOf := fun l => ((keys.find? fun e => e.1 == l).map (·.2)).getD 0
           let before := s1.beforeSn c0.since
           let early := (laneList c0.lanes).any fun l =>
             (release && before.unperformed c0.gang l) ||
             before.accesses.any (fun a => a.of c0.gang l && overlaps a.pa a.size (keyOf l) 16) ||
             before.scaleLoads.any fun x => x.gang == c0.gang && x.lane == l && overlaps x.pa 512 (keyOf l) 16
           let (s2, out) := if early ∨ waits then (s1, []) else
             (laneList c0.lanes).foldl (fun (acc : State × List (Nat × Word)) l =>
               let st := act acc.1 (some (coreOf c0.gang)) (keyOf l) (val l).b32
               (st, acc.2 ++ [(l, st.syncGen (keyOf l))])) (s1, [])
           let s3 := if writes ∧ !early then s2.bumpSlots view.team (scratchSlots ps) else s2
           let answer := fun l (v : Vals) =>
             if early then none
             else if waits then
               (if phaseDone (s3.syncGen (keyOf l)) v.b32 then some ((s3.syncGen (keyOf l)).setWidth 64) else none)
             else (out.find? fun e => e.1 == l).map fun e => e.2.setWidth 64
           let w' := if acquire then { w with post := fun _ _ _ t => t.acquire (s3.sn * 64) } else w
           match s3.runBlocking w' (fun l _ v => answer l v)
               (fun l _ v => if waits ∧ !early then .syncw (keyOf l) v.b32 else .engine) with
           | .next s4 => s4
           | _ => s3)

/-- SWINIT: arms the word; D := GEN (Table 13.4). -/
def execSwinit (f : FmtA) (s : State) : Out :=
  syncForm f .reg false false true false (fun s c k b => s.syncInit c k b) s
/-- SWWAIT: waits until GEN has passed B; D := GEN at release; an acquire at cluster scope (R265). -/
def execSwwait (f : FmtA) (s : State) : Out := syncForm f .reg false true false true (fun s _ _ _ => s) s
/-- SWADD: SyncAdd of B; D := GEN after; a release at cluster scope before its update (R265). -/
def execSwadd (f : FmtA) (s : State) : Out :=
  syncForm f .reg true false true false (fun s c k b => s.syncAdd c k b.toNat 0) s
/-- SWGEN: D := GEN; an acquire at cluster scope (R265). -/
def execSwgen (f : FmtA) (s : State) : Out := syncForm f .unused false true false false (fun s _ _ _ => s) s

/-! ## Handles -/

/-- The key of the valid handle that an id names in a cluster (R266). -/
def State.handleOf (s : State) (cl id : Nat) : Option Nat :=
  let k := cl * 1024 + id % 1024
  if (s.handle k).valid && (s.handle k).gen == id / 1024 % 64 then some k else none

/-- A physical slot is in the pool: no handle covers it and no unfinished copy writes it (R269, R290). -/
def State.slotFree (s : State) (p : Nat) : Bool :=
  !(s.handles.any fun e => e.2.valid && (e.2.slots (e.1 / 1024)).contains p) && !(s.sync.returned.contains p && s.copyHolds p)

/-- The first of the lowest-addressed run of n free slots of a core (R269). -/
def State.freeRun (s : State) (core n : Nat) : Option Nat :=
  (natsFrom 0 (129 - n)).find? fun p => (natsFrom (core * 128 + p) n).all s.slotFree

/-- A new handle for a team, held and unmapped (R269); which free entry is taken is free (log 7). Answers its key. -/
def State.makeHandle (s : State) (cl core team first n : Nat) : Option Nat × State :=
  let free := (natsFrom (cl * 1024) 1024).filter fun k => !(s.handle k).valid
  if free.isEmpty then (none, s) else
  let (i, s1) := s.choose free.length
  let k := nth 0 free i
  let h : Handle :=
    { Handle.blank with
      valid := true, gen := (s1.handle k).gen, holder := team, count := n, pfirst := first, core := core % 8 }
  (some k, { s1 with handles := s1.handles.put k h })

/-- A handle's id. -/
def State.handleId (s : State) (k : Nat) : Nat := (s.handle k).gen * 1024 + k % 1024

/-- HNEW: a handle on the lowest free run of the chosen core (R269); the word waits while a slot of the run is still to be
zeroed (R273). A full handle table leaves no run to give out. -/
def execHnew (f : FmtA) (s : State) : Out :=
  s.gangWord (gangForm f .reg .unused .reg) .engine fun c v s =>
    let a := v.a32.toNat
    let n := a % 256
    let cl := clusterOf c.gang
    let core := if bitsOf a 11 1 = 1 then coreOf c.gang else cl * 8 + bitsOf a 8 3
    let team := s.teamKey c.gang
    if n = 0 ∨ 128 < n then (some 0xFFFFFFFE, s)
    else
      match s.freeRun core n with
      | none => (some 0xFFFFFFFF, s)
      | some p =>
        if 16 ≤ (s.held team).length then (some 0xFFFFFFFD, s)
        else if (natsFrom (core * 128 + p) n).any s.sync.returned.contains then (none, s)
        else
          match s.makeHandle cl core team p n with
          | (none, s1) => (some 0xFFFFFFFF, s1)
          | (some k, s1) => (some (BitVec.ofNat 64 (s1.handleId k)), s1)

/-- An offer to a team that is swapped out is recorded in its image, and counted (R276). -/
def State.recordOffer (s : State) (cl k h : Nat) : State :=
  { s with
    front := { s.front with images := s.front.images.mapVals fun _ (x : Image) =>
      if x.key = k ∧ !x.offers.contains h then { x with offers := x.offers ++ [h] } else x }
    sync := { s.sync with redirects := bumpCount s.sync.redirects cl 0xFFFF } }

/-- HGIVE: offers a handle to a team, or withdraws its offer; a release at cluster scope for the issuing threads (R270). -/
def execHgive (f : FmtA) (s : State) : Out :=
  s.gangWord (gangForm f .reg .reg .reg) .engine fun c v s =>
    let cl := clusterOf c.gang
    let target := v.b32.toNat
    match s.handleOf cl (v.a32.toNat % 65536) with
    | none => (some 1, s)
    | some h =>
      if (s.handle h).holder ≠ s.teamKey c.gang then (some 2, s)
      else if (laneList c.lanes).any fun l => s.unperformedBefore c.gang l then (none, s)
      else if target = 0xFFFF then (some 0, { s with handles := s.handles.modify h fun x => { x with offer := none } })
      else
        match (if target < 65536 then s.teamOf cl target else none) with
        | none => (some 6, if target < 65536 then s.dropStale cl target else s)
        | some k =>
          let s1 : State := { s with handles := s.handles.modify h fun x => { x with offer := some k } }
          (some 0, if (s.team k).swapped then s1.recordOffer cl k h else s1)

/-- The status of HTAKE, in the order of R271. -/
def State.takeStatus (s : State) (team h window base : Nat) : Nat :=
  let x := s.handle h
  let ws := (s.team team).windows
  let n := x.count
  if !x.valid then 1
  else if x.holder ≠ team ∧ x.offer ≠ some team then 7
  else if (match ws.find? window with | some w => w.handle != h | none => false) then 3
  else if 128 < base + n then 5
  else if ws.any fun w => w.1 != window && decide (base < w.2.base + w.2.count ∧ w.2.base < base + n) then 4
  else 0

/-- Every operation into a handle's slots is complete (R271). -/
def State.takeReady (s : State) (h : Nat) : Bool :=
  ((s.handle h).slots (h / 1024)).all fun p => !s.copyInto p && !s.slotBusy p

/-- The transfer of a handle to a team's window (R271 steps 2 to 4). -/
def State.transfer (s : State) (team h window base : Nat) : State :=
  let s1 := s.dropWindows h
  let x := s1.handle h
  { s1 with
    teams := s1.teams.modify team fun T =>
      { T with windows := T.windows.put window ⟨h, base, x.count, x.core, x.pfirst⟩ }.bumpRange base x.count
    handles := s1.handles.modify h fun x => { x with holder := team, offer := none, window := window, mapped := true } }

/-- HTAKE: maps a handle the team holds or is offered; refused by status; otherwise it waits for the operations into the
handle's slots and then transfers it. It then acts as FENCE.ACQ.cluster (R271). -/
def execHtake (f : FmtA) (s : State) : Out :=
  s.gangWord { gangForm f .reg .reg .reg with post := fun _ _ _ t => t.acquire (s.sn * 64) } (.handover 0) fun c v s =>
    let cl := clusterOf c.gang
    let team := s.teamKey c.gang
    let window := v.b32.toNat % 8
    let base := bitsOf v.b32.toNat 8 7
    match s.handleOf cl (v.a32.toNat % 65536) with
    | none => (some 1, s)
    | some h =>
      let st := s.takeStatus team h window base
      if st ≠ 0 then (some (BitVec.ofNat 64 st), s)
      else if s.takeReady h then (some 0, s.transfer team h window base)
      else
        let q : Handover := ⟨c.gang, team, h, window, base⟩
        (none, if s.sync.handovers.contains q then s else { s with sync := { s.sync with handovers := s.sync.handovers ++ [q] } })

/-- HTAKE_HANDOVER: the operations into the handle have completed; the handle moves and the waiting HTAKE completes
(R271). -/
def execHtakeHandover (i : Nat) (s : State) : Out :=
  match nth none (s.sync.handovers.map some) i with
  | none => .next s
  | some q =>
    if !s.takeReady q.handle then .next s else
    let st := s.takeStatus q.team q.handle q.window q.base
    let s1 := if st = 0 then s.transfer q.team q.handle q.window q.base else s
    let s2 := s1.grantWaiters q.gang (fun w => match w with | .handover _ => true | _ => false) (BitVec.ofNat 64 st)
    .next { s2 with sync := { s2.sync with handovers := s2.sync.handovers.filter (· != q) } }

/-- A team's id as HQRY shows it (Table 13.5). -/
def State.teamIdOf (s : State) : Option Nat → Nat
  | none => 0xFFFF
  | some k => s.teamId k

/-- HQRY: D pair := the handle's entry (Table 13.5), or the team's window (Table 7.2) (R272). -/
def execHqry (f : FmtA) (s : State) : Out :=
  s.gangWord (gangForm f .reg .unused .pair) .engine fun c v s =>
    let a := v.a32.toNat
    let cl := clusterOf c.gang
    let num : Nat :=
      if bitsOf a 16 1 = 1 then
        match (s.team (s.teamKey c.gang)).windows.find? (a % 8) with
        | none => 0
        | some w => s.handleId w.handle * 2 ^ 48 + w.base * 2 ^ 33 + w.count * 2 ^ 25 + w.core * 2 ^ 22 + w.pfirst * 2 ^ 15 + 1
      else
        match s.handleOf cl (a % 65536) with
        | none => 0
        | some h =>
          let x := s.handle h
          s.teamIdOf x.offer * 2 ^ 48 + s.teamIdOf (some x.holder) * 2 ^ 32 + x.count * 2 ^ 24 + x.pfirst * 2 ^ 17 +
            x.core * 2 ^ 14 + (if x.mapped then x.window else 0) * 2 ^ 11 + (if x.mapped then 2 ^ 10 else 0) + 1
    (some (BitVec.ofNat 64 num), s)

/-- HFREE: releases a handle that the team holds, once the accesses to its slots that have issued are performed (R273). -/
def execHfree (f : FmtA) (s : State) : Out :=
  s.gangWord (gangForm f .reg .unused .reg) .engine fun c v s =>
    match s.handleOf (clusterOf c.gang) (v.a32.toNat % 65536) with
    | none => (some 1, s)
    | some h =>
      let x := s.handle h
      if x.holder ≠ s.teamKey c.gang then (some 2, s)
      else if (x.slots (h / 1024)).any s.slotBusy then (none, s)
      else (some 0, s.freeHandle h)

/-- SLOT_ZEROING: a returned physical slot is zeroed, with its poison, once no copy that holds it and no access into it is unfinished
(R273, R290, R141). -/
def execSlotZeroing (i : Nat) (s : State) : Out :=
  match nth none (s.sync.returned.map some) i with
  | none => .next s
  | some p =>
    if s.copyHolds p || s.slotBusy p then .next s else
    let s1 := s.performBytes none (slotKey p) (List.replicate 8192 0#8)
    .next { s1 with
      poison := s1.poison.filter fun d => match d with | .unit k => !inSlot p k | _ => true
      sync := { s1.sync with returned := s1.sync.returned.filter (· != p) } }

end Sys2Proof.Machine
end

