-- ==== Sys2Proof/Machine/Fences.lean ====
section
/-! DEFINITION. Fences, POST, watches and prefetch (06): FENCE, TFENCE, EFENCE, POST, WATCH, WAITW and PREF, with the steps
WATCH_UPDATE and WAITW_TIMEOUT. -/

namespace Sys2Proof.Machine

open Sys2Proof

/-! ## Fences -/

/-- A fence of a kind: it concerns the accesses issued before it, at its scope; cluster scope or wider invalidates the core's L1
tensor lines where the fence is an acquire (R148, R149). The thread's later M-pipe words wait for it in their issue. -/
def fenceWord (f : FmtA) (kind : FenceKind) (acquire : Bool) (s : State) : Out :=
  let scope := if kind = .scratch then 6 else f.b.toNat % 8
  match s.run { k := f.k, shape := { latch := false }, deny := 3,
                post := fun _ _ _ t => t.addFence ⟨kind, s.sn * 64, scope, acquire && decide (3 ≤ scope)⟩ } with
  | .next s1 => .next { s1 with sn := s1.sn + 1 }
  | r => r

/-- FENCE: every earlier access before every later access (R148). -/
def execFence (f : FmtA) (s : State) : Out := fenceWord f .all true s
/-- FENCE.ACQ: every earlier read before every later access. -/
def execFenceAcq (f : FmtA) (s : State) : Out := fenceWord f .reads true s
/-- FENCE.REL: every earlier access before every later store, atomic, CAS and POST. -/
def execFenceRel (f : FmtA) (s : State) : Out := fenceWord f .rel false s
/-- TFENCE: waits for tensor stores, remote atomics and engine operations, then acts as FENCE.REL (R149). -/
def execTfence (f : FmtA) (s : State) : Out := fenceWord f .tfence false s
/-- FENCE.SP: every earlier scratch access before every later scratch access; its literal is ignored. -/
def execFenceSp (f : FmtA) (s : State) : Out := fenceWord f .scratch false s

/-- The operation was issued by a thread before a serial number. -/
def OpOwner.before (o : OpOwner) (sp tid sn : Nat) : Bool := o.spawn == sp && o.tid == tid && decide (o.sn < sn)

/-- A transfer that is an engine operation of the thread (R146). -/
def XferKind.ownedBefore (k : XferKind) (sp tid sn : Nat) : Bool :=
  match k with
  | .atomic o _ _ _ _ _ _ => o.before sp tid sn
  | _ => false

/-- The key of the run port (R403). -/
def State.runPort (s : State) : Nat := s.home + offCollective

/-- The thread of a lane that has sent a record. -/
def PostMsg.of (p : PostMsg) (s : State) (sp tid : Nat) : Bool :=
  p.away.isNone && match s.gangs.find? p.gang with
    | some G => G.spawn == sp && G.index * G.width + p.lane == tid
    | none => false

/-- An engine operation that a thread issued before a serial number has not completed: a copy, a gather, a refinement
command, a collective run, which its POST begins (R363), a remote atomic (R149, R150, R325). -/
def State.engineBusy (s : State) (sp tid sn : Nat) : Bool :=
  s.posts.any (fun p => p.pa == s.runPort && decide (p.sn < sn) && p.of s sp tid) ||
  s.copies.any (fun c => c.owner.any (·.before sp tid sn)) || s.commands.any (fun c => c.owner.before sp tid sn) ||
  s.runs.any (fun r => r.owner.any (·.before sp tid sn)) || s.transfers.any fun t => t.kind.ownedBefore sp tid sn

/-- The thread id of a lane. -/
def State.tid (s : State) (g l : Nat) : Nat :=
  match s.gangs.find? g with | some G => G.index * G.width + l | none => 0
/-- The spawn's key of a gang. -/
def State.spawnKey (s : State) (g : Nat) : Nat := match s.gangs.find? g with | some G => G.spawn | none => 0

/-- The first status that is not 0, in issue order (R150). -/
def firstStatus (xs : List (Nat × Nat)) : Nat := ((sortBy (·.1) xs).find? fun e => e.2 != 0).map (·.2) |>.getD 0

/-- EFENCE: blocks until the thread's engine operations have completed; D := the first status that is not 0 of its remote
atomics since the last EFENCE, which are then discarded (R150). -/
def execEfence (f : FmtA) (s : State) : Out :=
  let g := s.wordGang
  s.runBlocking
    { shape := { dst := .reg, latch := false }, fd := f.d.toNat, k := f.k, deny := 3,
      post := fun _ _ _ t => { t with statuses := [] } }
    (fun l _ _ =>
      if s.engineBusy (s.spawnKey g) (s.tid g l) (s.chainStart * 64) then none
      else some (BitVec.ofNat 64 (firstStatus (s.thread g l).statuses)))
    (fun _ _ _ => .efence s.sn)

/-! ## POST -/

/-- The sixteen registers of a POST by its literal. -/
def postRegs (lit : Nat) : List Nat := if lit = 32 then natsFrom 32 16 else natsFrom 16 16

/-- The effect of POST (R151): a record a lane, its registers read now; it leaves after the lane's earlier accesses. -/
def postEffect (lit : Nat) (dest : Nat) (c : IssueCtx) (view : Gang) (ps : List (Nat × DWord × Place')) (s : State) :
    State :=
  let s1 := ps.foldl (fun s e => match e.2.2 with
    | .at_ k _ _ =>
      let sn := s.sn * 64 + e.1
      let bytes := (postRegs lit).flatMap fun r => leBytes 4 ((view.thread e.1).src r).toNat
      let ctx := s.ctxOf c.gang
      { s with posts := s.posts ++ [⟨sn, c.gang, e.1, dest, ctx, k, bytes, none, (s.thread c.gang e.1).gate c⟩] }
    | _ => s) s
  { s1 with sn := s1.sn + 1 }

/-- POST: a literal other than 16 and 32 is an illegal word; else the word sends a record for each lane (R151). -/
def execPost (f : FmtA) (s : State) : Out :=
  s.word fun c view =>
    let lit := f.b.toNat
    if lit ≠ 16 ∧ lit ≠ 32 then s.raise c ⟨1, f.toWord 0x1E 0, BitVec.ofNat 32 c.pos, c.lanes, 0⟩
    else
      s.tested c view (postRegs lit) []
        (match s.memory
            { shape := { a := .pair, latch := false }, fa := f.a.toNat, k := f.k, dest := .reg f.d.toNat,
              target := { tensor := false, scratch := false, w := true, size := 64, kind := 1, port := true },
              effect := postEffect lit (Dest.reg f.d.toNat).base } with
         | .next s2 => s2
         | _ => s)

/-! ## Watches -/

/-- The slice of the issuing die that holds a watch on a key: the home slice of a tensor line, or the slice of the same index, by
a hash of the line's address bits [35:7]; for a control line one by a hash of bits [34:7] (R298, R303; log 7). -/
def watchSlice (pa : Nat) : Nat :=
  if isTensorKey pa then (pa - 2 ^ 50) / 2 ^ 36 % 2 * 48 + Config.l2Slice ((pa - 2 ^ 50) % 2 ^ 36 / 128) % 48
  else Config.l2Slice (pa % 2 ^ 35 / 128) % 96

/-- A token for a new entry: an opaque value that is not 0 and that no entry has had (R152, R304; log 7). -/
def State.newToken (s : State) : Word × State :=
  let (v, s1) := s.freeVal
  let used := fun (x : Word) => s.tokens.contains x || s.watches.any fun w => w.token == x
  let x := loOf v
  let spare := ((natsFrom 1 (s.tokens.length + s.watches.length + 1)).find? fun n => !used (BitVec.ofNat 32 n)).getD 1
  let t := if x = 0 ∨ used x then BitVec.ofNat 32 spare else x
  (t, { s1 with tokens := t :: s1.tokens })

/-- A free entry of a slice's watch table. -/
def State.freeEntry (s : State) (die slice : Nat) : Option Nat :=
  (natsFrom 0 512).find? fun i => !(s.watches.any fun w => w.die == die && w.slice == slice && w.entry == i)

/-- A watch placed in a free entry of its slice, whose re-use count it takes (R304); evaluated now where `now` says so (R153). -/
def State.placeWatch (s : State) (w : Watch) (now : Bool) : State :=
  match s.freeEntry w.die w.slice with
  | none => s
  | some i =>
    let key := (w.die * 96 + w.slice) * 512 + i
    let n := s.watchSeq.get 0 key
    let w1 := { w with entry := i, seq := n, fired := false, late := false }
    { s with
      watches := s.watches ++ [if now then w1.eval (BitVec.ofNat 32 (s.mem.num w.pa 4)) else w1]
      watchSeq := s.watchSeq.set 0 key ((n + 1) % 256) }

/-- One lane's WATCH (R152): an entry armed and evaluated, with its token; 0 where the thread holds eight or the slice is
full. A store of its own chain to the word is evaluated when it is performed (R134). -/
def State.arm (s : State) (g l pa cmp : Nat) (value mask : Word) : Word × State :=
  let die := dieOf g
  let mine := (s.watches.filter fun w => w.gang == g && w.lane == l).length
  if 8 ≤ mine ∨ (s.freeEntry die (watchSlice pa)).isNone then (0, s)
  else
    let (tok, s1) := s.newToken
    let own := s1.accesses.any fun a => a.of g l && overlaps a.pa a.size pa 4
    (tok, s1.placeWatch ⟨die, watchSlice pa, 0, 0, g, l, tok, pa, cmp, value, mask, false, false⟩ (!own))

/-- WATCH: arms an entry for each lane, once the lane's earlier accesses to the word are performed (R134); D := its token
(R152). -/
def execWatch (f : FmtA) (s : State) : Out :=
  s.word fun c view =>
    let w : WordSpec := { shape := { a := .pair, b := .pair, dst := .reg, latch := false }, fd := f.d.toNat, fa := f.a.toNat,
                          fb := f.b.toNat, h := f.h.toNat, k := f.k, deny := 3 }
    s.tested c view w.reads w.writes
      (let val := fun l => w.vals (view.thread l) (s.thread c.gang l)
       let vas := (laneList c.lanes).map fun l => (l, (val l).a &&& ~~~3#64)
       let x : Target := { scratch := false, r := true, size := 4, kind := 2 }
       let (ps, s1) := s.locateAll c.gang view (s.ctxOf c.gang) x vas
       let before := s1.beforeSn c.since
       match s1.causeAmong c x.kind ps with
       | some cause => s1.raise c cause
       | none =>
         if (ps.any fun e => e.2.2 == .held) ||
            ((keysOf ps).any fun e => before.accesses.any fun a => a.of c.gang e.1 && overlaps a.pa a.size e.2 4) then
           { s1 with ctx := some { c with blocked := c.blocked ||| c.lanes } }
         else
           let (s2, c2) := s1.screenLanes c (s1.regionSpaceLanes c vas) 4
           let (s3, c3) := s2.screen c2 3
           let (s4, toks) := ((keysOf ps).filter fun e => inLanes c3.lanes e.1).foldl
             (fun (acc : State × List (Nat × Word)) e =>
               let v := val e.1
               let (t, st) := acc.1.arm c3.gang e.1 e.2 (v.a.toNat % 4) (loOf v.b) (hiOf v.b)
               (st, acc.2 ++ [(e.1, t)])) (s3, [])
           (s4.onLanes c3.gang c3.lanes fun _ t => { t with cpol := 0 }).regEffect c3 view
             { w with f := fun l _ _ => ⟨(((toks.find? fun (e : Nat × Word) => e.1 == l).map Prod.snd).getD 0).setWidth 64, []⟩ })

/-- A lane's armed entry with a token. -/
def State.watchOf (s : State) (g l : Nat) (token : Word) : Option Watch :=
  s.watches.find? fun w => w.gang == g && w.lane == l && w.token == token

/-- WAITW: 2 where the token names no entry of the thread, 1 once the entry is fired, which frees it and acts as an acquire;
else the thread waits (R154). -/
def execWaitw (f : FmtA) (s : State) : Out :=
  s.word fun c view =>
    let w : WordSpec := { shape := { a := .reg, b := .reg, dst := .reg, latch := false }, fd := f.d.toNat, fa := f.a.toNat,
                          fb := f.b.toNat, h := f.h.toNat, k := f.k, deny := 3 }
    s.tested c view w.reads w.writes
      (let r := s.screen c 3
       let (s0, c0) := r.1.letIn r.2 view (w.shape.needs w.fa w.fb)
       if c0.lanes = 0#64 then s0 else
         let val := fun l => w.vals (view.thread l) (s0.thread c0.gang l)
         let entry := fun l => s0.watchOf c0.gang l (val l).a32
         let fired := (laneList c0.lanes).filter fun l =>
           ((s0.thread c0.gang l).answer c0.pos).isNone && (entry l).any (·.fired)
         let s1 := { s0 with watches := s0.watches.filter fun x =>
           !(x.gang == c0.gang && fired.contains x.lane && (entry x.lane).any fun (y : Watch) => y.token == x.token) }
         match s1.runBlocking
             { w with post := fun l _ _ t =>
                 if fired.contains l then
                   t.addFence ⟨.reads, s1.sn * 64, if (entry l).any (isTensorKey ·.pa) then 5 else 6, true⟩
                 else t }
             (fun l _ _ =>
               match entry l with
               | none => some 2
               | some x => if x.fired then some 1 else none)
             (fun _ _ v => .watch v.a32 s1.clk v.b32) with
         | .next s2 => s2
         | _ => s1)

/-- WAITW_TIMEOUT: a limit that is not 0 has passed with the entry unfired; D := 0 and the entry stays armed (R154). -/
def execWaitwTimeout (g lane : Nat) (s : State) : Out :=
  match (s.thread g lane).wait, (s.thread g lane).grant with
  | some (.watch token since limit), none =>
    if limit ≠ 0 ∧ limit.toNat ≤ (s.clk - since).toNat ∧ !((s.watchOf g lane token).any (·.fired)) then
      .next (s.onThread g lane fun t => { t with grant := some 0 })
    else .next s
  | _, _ => .next s

/-- WATCH_UPDATE: a value of a watched word arrives at its slice from another die or package and is evaluated: the word as it is
now; of a control word that another package homes, what the fresh read finds there after a write of that package's (R303). -/
def execWatchUpdate (i : Nat) (value : Word) (s : State) : Out :=
  match nth none (s.watches.map some) i with
  | none => .next s
  | some w =>
    let current := BitVec.ofNat 32 (s.mem.num w.pa 4)
    if w.late ∧ value = current then .next { s with watches := setNth s.watches i (w.eval value) }
    else if w.pa < 2 ^ 50 ∧ w.pa / 2 ^ 35 ≠ s.podIndex then
      let s1 := s.performBytes none w.pa (leBytes 4 value.toNat)
      .next { s1 with watches := setNth s1.watches i (w.eval value) }
    else .next s

/-! ## Prefetch -/

/-- PREF: a line of control or local tensor space is brought into the core's L1 where the level asks for it; an address that would
raise a cause is dropped; nothing else changes (R53, R155). -/
def execPref (f : FmtPref) (s : State) : Out :=
  s.word fun c view =>
    let level := f.l.toNat
    let core := coreOf c.gang
    let s1 := if level = 0 ∨ level = 2 then
        (laneList c.lanes).foldl (fun s l =>
          let base := (readField (view.thread l) (view.thread l) .pair f.a.toNat).1
          let va := base + f.off.signExtend 64 * 128
          match (s.locate c.gang l view (s.ctxOf c.gang) { r := true, size := 1, kind := 0, load := true } va).1 with
          | .at_ k false _ =>
            if isScratchKey k ∨ (s.l1.find? (s.lineKey core k)).isSome then s
            else s.fillL1 (s.lineKey core k) (if isTensorKey k then s.mem.read (k / 128 * 128) 128 else [])
          | _ => s) s
      else s
    s1.regEffect c view { k := f.k, shape := { latch := false } }

end Sys2Proof.Machine
end

