-- ==== Sys2Proof/Machine/Issue.lean ====
section
/-! DEFINITION. The gang issue cycle (01, 07, 09): fetch, loop buffers and divergence (R24 to R30), chains (R22), the wait of
M-pipe words for fences (R148), the words of one cycle in order (R133), and what is settled between steps. How a word's
bits become its effect is a parameter here. -/

namespace Sys2Proof.Machine

open Sys2Proof

/-- How a word of a packet takes effect. -/
abbrev WordRun := Word → State → Out

/-! ## Words of a packet -/

/-- A word's major opcode (Table 2.1). -/
def majorOf (w : Word) : Nat := bitsOf w.toNat 24 6
/-- A word's chain bit (R38). -/
def chainBit (w : Word) : Bool := bitsOf w.toNat 31 1 == 1

/-- The word waits for its thread's fences (R148): M-pipe words, and the T-pipe words, whose scratch accesses stand in the
gang's program order (R194). -/
def gatedWord (w : Word) : Bool :=
  let m := majorOf w
  let sel := bitsOf w.toNat 0 4
  (m == 0 && (sel == 8 || sel == 9)) || decide (0x15 ≤ m ∧ m ≤ 0x1E) || decide (0x25 ≤ m ∧ m ≤ 0x2C) ||
  m == 0x38 || m == 0x39 || m == 0x3B

/-! ## Fences -/

/-- An access is one that a fence waits for (Table 6.5, R149); a release narrower than the pod leaves the thread's plain stores to
the acquires within its scope, TFENCE but for those in tensor space (R140, R149, R358; log 19). -/
def Fence.covers (f : Fence) (a : Access) : Bool :=
  let store := match a.kind with | .store => true | _ => false
  match f.kind with
  | .reads => !store
  | .scratch => isScratchKey a.pa
  | .rel => !(store && f.narrow)
  | .tfence => !(store && f.narrow) || isTensorKey a.pa
  | _ => true

/-- Two gangs stand in one instance of a scope (R358, Table 2.2). -/
def State.sameScope (s : State) (scope g h : Nat) : Bool :=
  match scope with
  | 0 => g == h
  | 1 => s.teamKey g == s.teamKey h
  | 2 => coreOf g == coreOf h
  | 3 => clusterOf g == clusterOf h
  | 4 => dieOf g == dieOf h
  | _ => true

/-- An acquire of a thread at a scope, of a location where one is given, waits for the stores that a release within both scopes has
left behind (R140, R358; log 19). -/
def State.owes (s : State) (g l scope : Nat) (loc : Option (Nat × Nat)) : Bool :=
  s.owed.any fun o =>
    !(o.gang == g && o.lane == l) && s.sameScope o.scope o.gang g && s.sameScope scope o.gang g &&
    (match loc, o.loc with | some (p, n), some (q, m) => overlaps p n q m | _, _ => true) &&
    s.accesses.any fun a => a.of o.gang o.lane && decide (a.sn < o.sn) && a.kind == .store

/-- A thread's earlier record has not been answered: it is on its way to its port, here or at another package (R131, R151). -/
def State.sentBefore (s : State) (g l sn : Nat) : Bool :=
  s.posts.any (fun p => p.gang == g && p.lane == l && decide (p.sn < sn)) ||
  s.transfers.any fun t => match t.kind with | .post g' l' _ _ _ _ => g' == g && l' == l && decide (t.xfer.toNat < sn) | _ => false

/-- A fence of a lane is satisfied (R137, R148, R149). -/
def State.fenceOpen (s : State) (g l : Nat) (f : Fence) : Bool :=
  if f.kind = .lda then !(s.accesses.any fun a => a.of g l && a.sn + 1 == f.sn)
  else
    !(s.accesses.any fun a => a.of g l && decide (a.sn < f.sn) && f.covers a) &&
    !(s.scaleLoads.any fun x => x.gang == g && x.lane == l && decide (x.sn < f.sn)) &&
    (f.kind == .reads || !(s.matOps.any fun o => o.gang == g && inLanes o.lanes l && decide (o.sn < f.sn))) &&
    (f.kind == .reads || f.kind == .scratch || !(s.sentBefore g l f.sn)) &&
    (f.kind != .tfence || !(s.engineBusy (s.spawnKey g) (s.tid g l) f.sn)) &&
    !((f.kind == .reads || f.kind == .all) && s.owes g l f.scope none)

/-- Every fence that an access, a message or a scale load comes after within its own chain is satisfied (R22, R148). -/
def State.gateOpen (s : State) (g l : Nat) (gate : List Fence) : Bool := gate.all (s.fenceOpen g l)

/-- A chain's words for the M pipe are plain stores and STL only: a FENCE narrower than the pod lets them issue before the stores
ahead of it are performed (R148). -/
def storesOnly (ws : List (Nat × Word)) : Bool := (ws.filter fun e => gatedWord e.2).all fun e => majorOf e.2 == 0x17

/-- A fence lets a lane's next M-pipe words issue: it is satisfied; or it is a narrow FENCE, they are stores, and it would be
satisfied as a FENCE.REL and as a FENCE.ACQ (R148). -/
def State.fenceLets (s : State) (g l : Nat) (stores : Bool) (f : Fence) : Bool :=
  s.fenceOpen g l f ||
  (stores && f.kind == .all && f.narrow && s.fenceOpen g l { f with kind := .rel } && s.fenceOpen g l { f with kind := .reads })

/-- The fences of a set of lanes let their next M-pipe words issue. -/
def State.fencesOpen (s : State) (g : Nat) (lanes : DWord) (stores : Bool) : Bool :=
  (laneList lanes).all fun l => match (s.thread g l).fence with | none => true | some f => s.fenceLets g l stores f

/-- The satisfied fences of a set of lanes end; an acquire among them invalidates the core's L1 tensor lines (R137, R148); a narrow
release stays with the writes after it (R148). -/
def State.endFences (s : State) (g : Nat) (lanes : DWord) : State :=
  let ended := (laneList lanes).filterMap fun l =>
    match (s.thread g l).fence with
    | some f => if s.fenceOpen g l f then some (l, f) else none
    | none => none
  if ended.isEmpty then s else
  let s1 := s.onLanes g (laneSet (ended.map (·.1))) fun _ t =>
    { t with
      fence := none
      relFence := match t.fence with | some f => if f.narrow && f.kind != .all then some (f.scope, f.sn) else t.relFence | none => t.relFence }
  if ended.any (·.2.invalidate) then s1.invalidateL1 (coreOf g) else s1

/-! ## Fetch -/

/-- The three words of a packet. -/
abbrev Packet := Word × Word × Word

/-- What a fetch finds: a cause, a wait for a frame to be zeroed, or a packet's words as they are, and as they were where they have
been written while the spawn was live (R40). -/
inductive Fetched where
  | cause (c : Cause)
  | held
  | words (now old : Packet)
deriving DecidableEq, Repr

/-- The code base of a gang's spawn (R39). -/
def State.codeBase (s : State) (g : Nat) : DWord :=
  match s.spawnOf g with | some p => p.record.code &&& ~~~0x3F#64 | none => 0

/-- The VA of word k of a packet (R39). -/
def State.wordVa (s : State) (g : Nat) (pc : Word) (k : Nat) : DWord :=
  s.codeBase g + BitVec.ofNat 64 (12 * pc.toNat + 4 * k)

/-- The word at a key as it stood before it was last written, where that was after a clk (R40). -/
def State.oldWord (s : State) (since : DWord) (k : Nat) : Word :=
  BitVec.ofNat 32 (leNat ((natsFrom k 4).map fun a =>
    match s.rewritten.find? a with
    | some (b, at_) => if since.toNat ≤ at_.toNat then b else s.mem.byte a
    | none => s.mem.byte a))

/-- A packet's fetch (R40): a code base outside control space raises SPACE; a fault is like that of a load of the packet's first
byte. -/
def State.fetch (s : State) (g : Nat) (G : Gang) (lanes : DWord) (pc : Word) : Fetched × State :=
  let va := s.wordVa g pc 0
  if (s.codeBase g).toNat / 2 ^ 61 ≠ 0 then (.cause ⟨5, loOf va, hiOf va, lanes, 3⟩, s) else
  let x : Target := { tensor := false, scratch := false, r := true, size := 1, kind := 3, load := true }
  let (ps, s1) := s.locateAll g G (s.ctxOf g) x ((natsFrom 0 3).map fun k => (k, s.wordVa g pc k))
  match wordCause 3 ps with
  | some c => (.cause ⟨c.code, loOf va, hiOf va, lanes, 3⟩, s1)
  | none =>
    match keysOf ps with
    | [(_, k0), (_, k1), (_, k2)] =>
      let w := fun k => BitVec.ofNat 32 (s1.mem.num k 4)
      let since := match s.spawnOf g with | some p => p.start | none => 0
      let o := s1.oldWord since
      (.words (w k0, w k1, w k2) (o k0, o k1, o k2), s1)
    | _ => (.held, s1)

/-- The word of a packet that was written since the gang first received it: the old one or the new one (R40). -/
def State.eitherWord (s : State) (old new : Word) : Word × State :=
  if old = new then (new, s) else
  let (n, s1) := s.choose 2
  (if n = 0 then old else new, s1)

/-- The words of a packet, each as it was or as it is (R40). -/
def State.eitherPacket (s : State) (old new : Packet) : Packet × State :=
  let (a, s1) := s.eitherWord old.1 new.1
  let (b, s2) := s1.eitherWord old.2.1 new.2.1
  let (d, s3) := s2.eitherWord old.2.2 new.2.2
  ((a, b, d), s3)

/-- The packet enters the loop buffer of every live lane that does not hold it, in place of the oldest of 48 (R24). -/
def Gang.deliver (G : Gang) (pc : Word) (w : Packet) : Gang :=
  { G with
    packets := if (G.packets.find? pc.toNat).isSome then G.packets else G.packets.put pc.toNat w
    threads := G.threads.map fun t =>
      if t.live && !t.lbuf.contains pc then
        { t with lbuf := (if t.lbuf.length < 48 then t.lbuf else t.lbuf.drop 1) ++ [pc] }
      else t }

/-! ## Which lanes issue -/

/-- The lane stands where the broadcast does (R24). -/
def Gang.subscribed (G : Gang) (t : Thread) : Bool := t.pc == G.bpc && t.pos == G.bpos

/-- The thread's pending trap is due before its next word (R84, R238): at once where its place is fixed, else once the word that it
waits in is complete. -/
def Thread.trapDue (t : Thread) : Bool :=
  match t.trap with
  | none => false
  | some r => !r.atPacket || t.wait.isNone

/-- A waiting word that is tried again, rather than granted its result by the step that ends the wait. -/
def Wait.retried : Wait → Bool
  | .waitm _ => false
  | .rendezvous _ _ _ _ _ _ => false
  | .xacq => false
  | .aacq _ => false
  | .scaleReg => false
  | .axb _ _ => false
  | .handover _ => false
  | .syncw _ _ => false
  | .commit => false
  | _ => true

/-- The thread is blocked in the sense of R25. -/
def Thread.blocked (t : Thread) : Bool :=
  t.grant.isNone &&
  (match t.wait with
   | none => false
   | some .exit => false
   | some .axe => false
   | some .commit => false
   | some (.queue needs) => !needs.all t.met
   | some _ => true)

/-- The thread still issues words: it is live, and no EXIT of it waits for its own chain's results. -/
def Thread.issues (t : Thread) : Bool := t.live && !t.exiting

/-- The lane can issue its next word in a cycle of its gang, or complete the word that it waits in, for which it needs no packet
(R24, R25, R168). -/
def Gang.runs (G : Gang) (t : Thread) : Bool :=
  t.issues && !t.trapDue && (match t.wait with | none => true | some w => t.grant.isSome || w.retried) &&
  (t.issued.isSome || G.subscribed t || t.lbuf.contains t.pc)

/-- The lanes that issue the same word together; subs: they stand where the broadcast does. -/
structure Group where
  pc : Word
  pos : Nat
  lanes : DWord
  subs : Bool

/-- A lane added to the groups of a cycle, which stand in the order of their lowest lanes (R133). -/
def addToGroups (pc : Word) (pos l : Nat) (subs : Bool) : List Group → List Group
  | [] => [⟨pc, pos, laneBit l, subs⟩]
  | x :: t =>
    if x.pc = pc ∧ x.pos = pos then { x with lanes := x.lanes ||| laneBit l } :: t else x :: addToGroups pc pos l subs t

/-- The groups of a gang issue cycle. -/
def Gang.groups (G : Gang) : List Group :=
  (natsFrom 0 G.width).foldl (fun gs l =>
    let t := G.thread l
    if G.runs t then addToGroups t.pc t.pos l (G.subscribed t) gs else gs) []

/-! ## Chains -/

/-- The words of a chain from a position on (R22): a word whose chain bit is set goes on to the next of the packet. -/
def chainWords (ws : List Word) : Nat → List (Nat × Word)
  | pos =>
    match ws.drop pos with
    | [] => []
    | [a] => [(pos, a)]
    | [a, b] => if chainBit a then [(pos, a), (pos + 1, b)] else [(pos, a)]
    | a :: b :: d :: _ =>
      if chainBit a then (if chainBit b then [(pos, a), (pos + 1, b), (pos + 2, d)] else [(pos, a), (pos + 1, b)])
      else [(pos, a)]

/-- The words of a chain in turn; a word that meets a cause, or that a lane must wait in, ends the attempt; so does a word that
leaves no lane. -/
def runWords (run : WordRun) (c : IssueCtx) : List (Nat × Word) → State → Out
  | [], s => .next s
  | (k, w) :: rest, s =>
    let (lanes, released) := match s.ctx with | some x => (x.lanes, x.released) | none => (c.lanes, false)
    if lanes = 0#64 then .next s else
    match run w { s with ctx := some { c with lanes := lanes, pos := k, rest := rest.length, released := released } } with
    | .next s1 =>
      (match s1.ctx with
       | some c1 => if c1.cause.isSome || c1.blocked != 0 then .next s1 else runWords run c rest s1
       | none => .next s1)
    | r => r

/-- A word of a chain tried on the state before the chain, with no more of its chain after it than one. -/
def tryWord (run : WordRun) (c : IssueCtx) (s : State) (e : Nat × Word) : Option State :=
  match run e.2 { s with ctx := some { c with pos := e.1, rest := 1 } } with
  | .next s1 => some s1
  | _ => none

/-- The cause that a word of a chain raises, where an earlier one must wait: a chain that faults has no effect, so its arrivals
have none (R22, R54, R173). -/
def scanCause (run : WordRun) (c : IssueCtx) (s : State) : List (Nat × Word) → Option Cause
  | [] => none
  | e :: t =>
    match (tryWord run c s e).bind fun s1 => s1.ctx.bind (·.cause) with
    | some k => some k
    | none => scanCause run c s t

/-- The AXE of a chain. -/
def axeOf (ws : List (Nat × Word)) : Option (Nat × Word) :=
  ws.find? fun e => majorOf e.2 == 0x1D && bitsOf e.2.toNat 0 4 == 0

/-- The pins and constraints of one region taken over into another that has the same first loads. -/
def Region.pinAs (r x : Region) : Region :=
  { r with
    loads := mapNumbered (fun i (y : TLoad) =>
      { y with pinned := y.pinned || (nth none (x.loads.map some) i).any (·.pinned) }) 0 r.loads
    constraints := x.constraints }

/-- What the words chained with an AXE read, they read before the commit: their symbolic operands pin their loads, and their
conditions are recorded, before the lane asks for it (R22, R217, R221). -/
def readAhead (run : WordRun) (c : IssueCtx) (ws : List (Nat × Word)) (s : State) : State :=
  ws.foldl (fun s e =>
    match tryWord run c s e with
    | some s1 => s.onLanes c.gang c.lanes fun l t =>
        match t.region, (s1.thread c.gang l).region with
        | some r, some x => { t with region := some (r.pinAs x) }
        | _, _ => t
    | none => s) s

/-- What a chain that must wait keeps of its attempt: the requests it has made, what its lanes wait for and the answers they have
had. -/
def State.keepRequests (s s' : State) (g : Nat) (lanes : DWord) : State :=
  { s.onLanes g lanes (fun l t =>
      let t' := s'.thread g l
      { t with
        wait := t'.wait, waitPos := t'.waitPos, grant := t'.grant, held := t'.held
        arrived := match t'.wait with | some (.barrier _) => t'.arrived | _ => t.arrived }) with
    zeroing := s'.zeroing, tlb := s'.tlb, free := s'.free, xacqQueue := s'.xacqQueue, aacqQueue := s'.aacqQueue,
    axbQueue := s'.axbQueue, exclQueue := s'.exclQueue, commits := s'.commits
    sync := { s.sync with handovers := s'.sync.handovers } }

/-- The lanes whose queues a chain has filled beyond eight entries (R20). -/
def State.overfull (s : State) (g : Nat) (lanes : DWord) : DWord :=
  laneSet ((laneList lanes).filter fun l => (s.thread g l).queues.any fun q => decide (8 < q.length))

/-- The free entries a lane lacks for its chain, by queue. -/
def lacks (before after : Thread) : List (Nat × Nat) :=
  (natsFrom 0 4).filterMap fun q =>
    let n := (nth [] after.queues q).length
    if 8 < n then some (q + 4, n - (nth [] before.queues q).length) else none

/-- A word or chain of a group (R22): the fences of its lanes hold it back as a whole where it holds a word for the M pipe (R148);
a chain in which some lanes must wait leaves those lanes as they were and runs in the others; a chain that meets a cause takes it
on the state before it; the words chained with an AXE take effect after the commit (R221). -/
def runChain (run : WordRun) : Nat → IssueCtx → List (Nat × Word) → State → Out
  | 0, c, _, s => .next { s with ctx := some { c with blocked := c.lanes } }
  | n + 1, c, ws, s =>
    let gated := ws.any fun e => gatedWord e.2
    let takes := fun (k : Cause) => ({ s.takeCause c k with ctx := some { c with cause := some k } } : State)
    if gated && !s.fencesOpen c.gang c.lanes (storesOnly ws) then
      match (if c.chained then scanCause run c s ws else none) with
      | some k => .next (takes k)
      | none => .next { s with ctx := some { c with blocked := c.lanes } }
    else
      let s0 := if gated then s.endFences c.gang c.lanes else s
      let ask := if c.chained && s0.regionLanes c.gang c.lanes != 0#64 then axeOf ws else none
      let whole := runWords run c ws { s0 with ctx := some c }
      let tried : Option (Nat × Word) × Out :=
        match ask with
        | some e =>
          (match tryWord run c s0 e with
           | some s1 => if s1.ctx.any fun c1 => c1.cause.isSome || c1.blocked != 0#64 then (ask, .next s1) else (none, whole)
           | none => (none, whole))
        | none => (none, whole)
      match tried.2 with
      | .next s1 =>
        if !c.chained then .next s1 else
        (match s1.ctx with
         | none => .next s1
         | some c1 =>
           let others := match tried.1 with
             | some e => ws.filter fun x => x.1 != e.1
             | none => ws.filter fun x => decide (c1.pos < x.1)
           match (match c1.cause with
             | some k => some k
             | none => if c1.blocked = 0#64 then none else scanCause run c s0 others) with
           | some k => .next (takes k)
           | none =>
             let full := if c1.blocked = 0#64 then s1.overfull c.gang c.lanes else 0#64
             let out := c1.blocked ||| full
             if out = 0#64 then .next s1
             else
               let marked := s1.onLanes c.gang full fun l t =>
                 { t with wait := some (.queue (lacks (s.thread c.gang l) t)) }
               let ahead := if tried.1.isSome then readAhead run c others s0 else s0
               let s2 := ahead.keepRequests marked c.gang out
               let stay := c.lanes &&& ~~~out
               if stay = 0#64 then .next { s2 with ctx := some { c with blocked := out } }
               else
                 match runChain run n { c with lanes := stay } ws s2 with
                 | .next s3 => .next { s3 with ctx := s3.ctx.map fun x => { x with blocked := x.blocked ||| out } }
                 | r => r)
      | r => r

/-! ## A gang issue cycle -/

/-- The gang's requests and waits: what an attempt that completes no word may still have changed. -/
def State.requests (s : State) (g : Nat) : List (Option Wait × Nat) × List Nat :=
  ((match s.gangs.find? g with | some G => G.threads.map fun t => (t.wait, t.held.length) | none => []),
   [s.zeroing.length, s.xacqQueue.length, s.aacqQueue.length, s.axbQueue.length, s.exclQueue.length, s.commits.length,
    s.sync.handovers.length])

/-- The broadcast after the subscribed lanes have issued: with the lowest of them that goes on (R24, R26). -/
def Gang.follow (G : Gang) (went : DWord) : Gang :=
  match (laneList went).find? fun l => (G.thread l).issues with
  | some l => { G with bpc := (G.thread l).pc, bpos := (G.thread l).pos }
  | none => G

/-- What a cycle or a part of it answers: the state, and whether anything was done. -/
abbrev CycleOut := Host.Outcome (State × Bool) Fault Refusal

/-- The gang as the words of a group read it: each lane that has issued its word, and waits in it, reads what it read then (R19,
R168). -/
def Gang.asIssued (G : Gang) (lanes : DWord) : Gang :=
  G.onLanes lanes fun _ t => match t.issued with | some r => { t with regs := r } | none => t

/-- The issue context of a group's word or chain. -/
def State.groupCtx (s : State) (g : Nat) (G : Gang) (x : Group) (n : Nat) : IssueCtx :=
  { gang := g, lanes := x.lanes, pc := x.pc, pos := x.pos, first := x.pos, rest := n - 1, chained := decide (1 < n),
    pre := if decide (1 < n) || (laneList x.lanes).any (fun l => (G.thread l).issued.isSome) then some (G.asIssued x.lanes) else none
    since := s.sn,
    preTeam := if 1 < n then s.teams.find? G.team else none,
    preScale := if 1 < n then some s.scaleRegs else none, cause := none, blocked := 0 }

/-- Lanes whose region has aborted in a word after an EXIT, or a TRAP or BRK, of the same chain: the EXIT ends the thread, and the
trap is taken with the fallback as its resume point (R104, R105, R228; log 86). -/
def State.leaveAborted (s : State) (c : IssueCtx) (lanes : DWord) : State :=
  let exits := (laneList lanes).filter fun l => let t := s.thread c.gang l; t.live && t.exiting && t.wait.isNone
  let s1 := exits.foldl (State.advanceLane c) s
  s1.takeSwTraps c ((laneList lanes).filterMap fun l =>
    let t := s1.thread c.gang l
    if t.issues then t.swTrap.map fun r => (l, { r with pc := t.pc }) else none)

/-- The lanes that must wait in the word that they have issued keep what they have read; those that have completed it have nothing
more of it (R19, R168). -/
def Gang.settleIssue (G before : Gang) (waits done : DWord) : Gang :=
  (G.onLanes waits fun l t =>
    match t.wait, t.issued with
    | none, _ => t
    | some (.queue _), _ => t
    | some _, some _ => t
    | some _, none => { t with issued := some (before.thread l).regs }).onLanes done fun _ t =>
      { t with
        issued := none, held := []
        wait := match t.wait with | some (.queue _) => none | w => w }

/-- The end of a group's turn: the broadcast follows its subscribed lanes; a packet issued counts for the records that were to be
formed before it (R81); a diverged lane's YIELD moves nothing (R29). -/
def State.endGroup (s : State) (before : Gang) (g : Nat) (x : Group) : State × Bool :=
  match s.ctx with
  | none => (s, false)
  | some c =>
    let done := x.lanes &&& ~~~c.blocked
    let s1 := if c.cause.isSome then s else
      (s.leaveAborted c done).onGang g fun G => G.settleIssue before c.blocked done
    let s2 := (if c.released then s1.loseHigh g else s1).onGang g fun G =>
      let G1 := if x.subs then G.follow done else { G with yieldNow := before.yieldNow }
      if x.pos = 0 ∧ done ≠ 0#64 then
        { G1 with logs := G1.logs.map fun e => if e.sn < c.since then { e with packets := e.packets + 1 } else e }
      else G1
    ({ s2 with ctx := none }, decide (done ≠ 0#64) || c.cause.isSome)

/-- A group's word or chain, fetched by the broadcast or taken from the lanes' loop buffers (R24, R25, R40). -/
def runGroup (run : WordRun) (g : Nat) (x : Group) (s : State) : CycleOut :=
  match s.gangs.find? g with
  | none => .next (s, false)
  | some G =>
    let fresh := x.subs && ((laneList x.lanes).any fun l =>
      let t := G.thread l
      t.issued.isNone && ((t.wait.isNone && x.pos == 0) || !t.lbuf.contains x.pc))
    let (p, s1) := s.fetch g G x.lanes x.pc
    let first := G.packets.find? x.pc.toNat
    let go := fun (w : Packet) (s2 : State) =>
      let ws := chainWords [w.1, w.2.1, w.2.2] x.pos
      match runChain run 65 (s2.groupCtx g ((s2.gangs.find? g).getD G) x ws.length) ws s2 with
      | .next s3 => (.next (s3.endGroup G g x) : CycleOut)
      | .fault f => .fault f
      | .refused r => .refused r
    match p, fresh with
    | .cause k, true =>
      let c := s1.groupCtx g G x 1
      .next ({ s1.takeCause c k with ctx := some { c with cause := some k } }.endGroup G g x)
    | .held, true => .next (s1, decide (s1.zeroing.length ≠ s.zeroing.length))
    | .words now old, true =>
      let (w, s2) := s1.eitherPacket (first.getD old) now
      go w (s2.onGang g fun G => G.deliver x.pc (first.getD old))
    | .words now old, false =>
      let (w, s2) := s.eitherPacket (first.getD old) now
      go w s2
    | _, false =>
      match first with
      | some w => go w s
      | none => .next (s, false)

/-- The groups of a cycle in turn (R133); a group whose spawn has begun to end issues nothing (R241). -/
def runGroups (run : WordRun) (g : Nat) : List Group → State × Bool → CycleOut
  | [], r => .next r
  | x :: t, (s, did) =>
    if (match s.spawnOf g with | some p => p.stopped | none => true) then .next (s, did) else
    match runGroup run g x s with
    | .next (s1, d) => runGroups run g t (s1, did || d)
    | r => r

/-- The lanes whose FENCE.SP, issued before they arrived where they wait, is not satisfied: the release that it comes before orders their
scratch accesses before those of the released threads (R362). -/
def State.lateLanes (s : State) (g : Nat) : DWord :=
  match s.gangs.find? g with
  | none => 0
  | some G => laneSet ((natsFrom 0 G.width).filter fun l =>
      match (G.thread l).fence with
      | some f => (f.kind == .scratch || f.kind == .all) && !s.fenceOpen g l { f with kind := .scratch }
      | none => false)

/-- The end of a gang issue cycle: mask changes and the releases they bring (R179, R32, R168); a YIELD of the subscribed
lanes stands until the broadcast has been settled. The check after an arrival of the cycle sees the masks with all changes of the
cycle made (log 87). -/
def State.endCycle (s : State) (g : Nat) : State :=
  s.onGang g fun G => { G.applyOps.recheck (s.lateLanes g) with prefBy := none, candSince := none }

/-- The gang's team is being saved, or is swapped out in part or whole (R319). -/
def State.teamAway (s : State) (k : Nat) : Bool := s.front.saves.any (·.team == k) || (s.team k).swapped

/-- The gang is out of the selection (R160, R81, R233, R241, R319): stopped, ending, parked, being saved, or with a record
overdue. -/
def State.excluded (s : State) (g : Nat) (G : Gang) : Bool :=
  G.stop.isSome || s.teamAway G.team || (match s.spawns.find? G.spawn with | some p => p.stopped || p.issuing == false | none => true) ||
  G.logs.any (fun e => !e.matrix && decide (7 ≤ e.packets)) ||
  (natsFrom 0 G.width).any fun l => (G.thread l).park && s.outstandingL g l

/-- A gang issue cycle (R160): every group of the gang's lanes that can issue, or its subscribed word alone (R162), and the end of
the cycle; with whether it did anything. -/
def cycle (run : WordRun) (g : Nat) (alone : Bool) (s : State) : CycleOut :=
  match s.gangs.find? g with
  | none => .next (s, false)
  | some G =>
    if s.excluded g G then .next (s, false) else
    let before := s.requests g
    let s1 := { s.onThreads g (fun t => { t with park := false }) with cycle := s.cycle + 1 }
    match runGroups run g (if alone then G.groups.filter (·.subs) else G.groups) (s1, false) with
    | .next (s2, did) => .next (s2.endCycle g, did || decide (s2.requests g ≠ before))
    | r => r

/-! ## Selection (R160 to R162) -/

/-- The key by which R160 orders the candidates of a partition: lower goes first. -/
def State.rank (s : State) (g : Nat) (G : Gang) : Nat :=
  let waited := match G.candSince with | some c => (s.clk - c).toNat | none => 0
  let last := s.lastGang.get 0 (partKey g)
  let turn := (g % 64 + 64 - (last + 1) % 64) % 64
  if 1024 ≤ waited then (2 ^ 64 - waited)
  else 2 ^ 65 + ((3 - G.prio) * 4 + (3 - G.pref)) * 64 + turn

/-- The first gang of a partition's candidates under R160. -/
def State.firstOf (s : State) (cands : List Nat) : Option Nat :=
  let key := fun g => match s.gangs.find? g with | some G => s.rank g G | none => 2 ^ 70
  (sortBy key cands).head?

/-- The word goes to the M pipe (Table 1.3, R162): a gated word but for those of the T pipe. -/
def mPipe (w : Word) : Bool := gatedWord w && !(decide (0x25 ≤ majorOf w ∧ majorOf w ≤ 0x28))

/-- The gang's next word, that of its subscribed lanes, is an M-pipe word that is not chained (R162). -/
def State.aloneM (s : State) (g : Nat) (G : Gang) : Bool :=
  match G.groups.find? (·.subs) with
  | none => false
  | some x =>
    match (s.fetch g G x.lanes x.pc).1 with
    | .words (w0, w1, w2) _ =>
      (match chainWords [w0, w1, w2] x.pos with
       | [(_, w)] => mPipe w
       | _ => false)
    | _ => false

/-! ## What is settled between steps -/

/-- The thread waits for fetch (R25): its next word is of a packet that it does not hold; a queue stall that is over leaves its
word to be issued. -/
def Gang.waitsFetch (G : Gang) (t : Thread) : Bool :=
  t.issues && !G.subscribed t && !t.trapDue && t.issued.isNone && !t.lbuf.contains t.pc &&
  (match t.wait with
   | none => true
   | some (.queue needs) => needs.all t.met
   | some _ => false)

/-- The broadcast moves to a thread's place: the fairness count restarts, and the yield marks of the threads subscribed
there are cleared (R27 to R29). -/
def Gang.moveTo (G : Gang) (t : Thread) : Gang :=
  { G with
    bpc := t.pc, bpos := t.pos, fairAcc := 0, fairFrom := none
    threads := G.threads.map fun u => if u.live && u.pc == t.pc && u.pos == t.pos then { u with yielded := false } else u }

/-- The thread of the lowest lane that waits for fetch, those without a yield mark first (R27). -/
def Gang.nextWaiting (G : Gang) : Option Thread :=
  let ws := G.threads.filter G.waitsFetch
  match ws.find? fun t => !t.yielded with
  | some t => some t
  | none => ws.head?

/-- R27: the broadcast moves at once where no subscribed thread is live or can go on, or where one yields. -/
def Gang.settleBroadcast (G : Gang) : Gang :=
  let subs := G.threads.filter fun t => t.issues && G.subscribed t
  let G1 := if subs.all (·.blocked) || G.yieldNow then
      (match G.nextWaiting with | some t => G.moveTo t | none => G)
    else G
  { G1 with yieldNow := false }

/-- The fairness count and the waiting times at a clk (R28). -/
def Gang.settleTimes (G : Gang) (clk : DWord) : Gang :=
  let waiting := G.threads.any G.waitsFetch
  let acc := match G.fairFrom with | some f => G.fairAcc + (clk - f).toNat | none => G.fairAcc
  { G with
    fairAcc := if waiting then G.fairAcc else acc
    fairFrom := if waiting then (match G.fairFrom with | some f => some f | none => some clk) else none
    threads := G.threads.map fun t =>
      if G.waitsFetch t then (match t.waitSince with | some _ => t | none => { t with waitSince := some clk })
      else { t with waitSince := none } }

/-- A thread in SWWAIT whose generation has passed is released with it (R263, R264). -/
def State.wakeSync (s : State) (t : Thread) : Thread :=
  match t.wait, t.grant with
  | some (.syncw key old), none =>
    if phaseDone (s.syncGen key) old then { t with grant := some ((s.syncGen key).setWidth 64) } else t
  | _, _ => t

/-- The thread with a logged cause's trap to be taken before it next issues (R84): where no word of it is blocked, its resume point is
its next word, which is the EXIT or the queue pop that it may be held back at; else it completes the word that it waits in first. A
trap that it has still to take stands (log 13). -/
def Thread.holdTrap (t : Thread) (cause : Nat) (lo : Word) : Thread :=
  match t.trap with
  | some _ => t
  | none =>
    let here : Thread := { t with wait := none, held := [], issued := none, trap := some ⟨cause, t.pc, t.pos, lo, 0, false, 0⟩ }
    match t.wait with
    | none => here
    | some (.queue _) => here
    | some .exit => here
    | some _ => { t with trap := some ⟨cause, t.pc, t.pos, lo, 0, true, 0⟩ }

/-- A logged cause's trap whose lane has completed the word that it waited in: the lane resumes where it stands (R84). -/
def Thread.placeTrap (t : Thread) : Thread :=
  match t.trap with
  | some r => if r.atPacket && t.wait.isNone then { t with trap := some { r with pc := t.pc, pos := t.pos, atPacket := false } } else t
  | none => t

/-- The EXITs whose own chains' results have come end their threads, and the masks are checked (R34, R179). -/
def State.finishExits (s : State) (g : Nat) : State :=
  match s.gangs.find? g with
  | none => s
  | some G =>
    let ls := (natsFrom 0 G.width).filter fun l =>
      let t := G.thread l
      t.live && t.exiting && !s.outstandingL g l && !s.outstandingQ g l
    if ls.isEmpty then s else (ls.foldl (fun s l => s.exitThread g l) s).onGang g fun G => G.applyOps.recheck (s.lateLanes g)

/-- The last live thread of a gang has ended: its registers and extended block, its accumulators and its team membership are
released, and the poison in them goes (R12, R34, R243). -/
def State.releaseGang (s : State) (g : Nat) : State :=
  let s1 := s.onGang g fun G =>
    { G with ended := true, xblk := false, accRes := 0, accs := [], threads := G.threads.map fun t => { t with regs := [] } }
  ({ s1 with
    xacqQueue := s1.xacqQueue.filter (· != g), axbQueue := s1.axbQueue.filter (· != g)
    exclQueue := s1.exclQueue.filter (·.1 != g), aacqQueue := s1.aacqQueue.filter fun e => e.1 != g
    watches := s1.watches.filter fun w => w.gang != g
    sync := { s1.sync with handovers := s1.sync.handovers.filter fun h => h.gang != g }
    poison := s1.poison.filter fun d => match d with | .reg g' _ _ => g' != g | .accElem g' _ _ => g' != g | _ => true } :
    State).quitTeam g

/-- Nothing of a gang is left to do: no live thread, no access, result, message, operation or record of it (R34). -/
def State.gangOver (s : State) (g : Nat) (G : Gang) : Bool :=
  G.ended && G.threads.all (fun t => !t.live) && G.logs.isEmpty && G.stop.isNone &&
  !(s.accesses.any (·.gang == g)) && !(s.pending.any (·.gang == g)) && !(s.posts.any (·.gang == g)) &&
  !(s.scaleLoads.any (·.gang == g)) && !(s.matOps.any (·.gang == g)) &&
  !(s.transfers.any fun t => match t.kind with
    | .atomic _ g' _ _ _ _ _ => g' == g
    | .post g' _ _ _ _ _ => g' == g
    | _ => false)

/-- A slot-table entry with VALID clear (Table 16.5). -/
def slotEmpty (word : Nat) : Nat := setBits word 63 1 0

/-- A gang's slot is free (R34): nothing of it is left. -/
def State.endGang (s : State) (g : Nat) : State :=
  { s with gangs := s.gangs.erase g, front := { s.front with slotTable := s.front.slotTable.modify g slotEmpty } }

/-- An engine operation of a spawn has not completed (R316). -/
def State.spawnBusy (s : State) (sp : Nat) : Bool :=
  s.copies.any (fun c => c.owner.any (·.spawn == sp)) || s.commands.any (fun c => c.owner.spawn == sp) ||
  s.runs.any (fun r => r.owner.any (·.spawn == sp)) ||
  s.transfers.any fun t => match t.kind with | .atomic o _ _ _ _ _ _ => o.spawn == sp | _ => false

/-- What a gang without live threads holds can be released: at once (R34), but for a spawn that is being ended, whose buffered stores and
started engine operations come first (R241). -/
def State.releases (s : State) (g : Nat) (G : Gang) : Bool :=
  !G.ended && G.threads.all (fun t => !t.live) &&
  (match s.spawns.find? G.spawn with
   | some p => p.ending.isNone || (!p.issuing && !(s.accesses.any (·.gang == g)) && !s.spawnBusy G.spawn)
   | none => true)

/-- One gang settled. -/
def State.settleGang (s : State) (g : Nat) : State :=
  let s0 := s.finishExits g
  match s0.gangs.find? g with
  | none => s0
  | some G =>
    let s1 := if s0.releases g G then s0.releaseGang g else s0
    if s1.gangOver g ((s1.gangs.find? g).getD G) then s1.endGang g else
    (s1.onGang g fun G =>
      ((({ G with threads := G.threads.map fun t => (s1.wakeSync t).placeTrap } : Gang).recheck
        (s1.lateLanes g)).settleBroadcast).settleTimes s1.clk).checkBarrier G.team

/-- The gangs of a cluster's eight cores. -/
def State.clusterGangs (s : State) (cl : Nat) : List (Nat × Gang) := s.gangs.filter fun e => clusterOf e.1 == cl && !e.2.ended

/-- The eight L1 parts of a cluster stand fused: gangs of one spawn that asks for it run on all eight cores, and no other (R274). -/
def State.fusedNow (s : State) (cl : Nat) : Bool :=
  match s.clusterGangs cl with
  | [] => false
  | (_, G) :: t =>
    (match s.spawns.find? G.spawn with | some p => bitsOf p.record.flags 1 1 == 1 | none => false) &&
    t.all (·.2.spawn == G.spawn) &&
    (natsFrom (cl * 8) 8).all fun core => (s.clusterGangs cl).any fun e => coreOf e.1 == core

/-- A cluster's L1 parts are fused, or come apart; either invalidates them all (R274). -/
def State.settleFusion (s : State) (cl : Nat) : State :=
  if s.fusedNow cl = s.fused.contains cl then s else
  { s with
    fused := if s.fused.contains cl then s.fused.filter (· != cl) else s.fused ++ [cl]
    l1 := s.l1.filter fun e => e.1 / 2 ^ 43 / 8 != cl }

/-- What narrow releases still owe: nothing once the accesses before them are performed (R140). -/
def State.settleOwed (s : State) : State :=
  { s with owed := s.owed.filter fun o => s.accesses.any fun a => a.of o.gang o.lane && decide (a.sn < o.sn) }

/-- The state as it stands between two steps (R27, R28, R34, R84, R254, R264). -/
def State.settle (s : State) : State :=
  let s1 := (s.gangs.map (·.1)).foldl State.settleGang s.settleOwed
  let cls := ((s1.gangs.map fun e => clusterOf e.1) ++ s1.fused).eraseDups
  cls.foldl State.settleFusion s1

end Sys2Proof.Machine
end

