-- ==== Sys2Proof/Machine/MatrixLib.lean ====
section
/-! DEFINITION. Canonical tiles, block scales and the sums of the matrix array (03, R64 to R79); what an accumulator element
becomes in each form. -/

namespace Sys2Proof.Machine

open Sys2Proof

/-- The element formats of a canonical tile (R71). -/
inductive ElemFmt where
  | e4m3 | e5m2 | e2m1 | int8 | int4 | bf16 | fp16 | fp32
deriving DecidableEq, Repr

/-- The formats of A and B by type code (Table 2.4). -/
def matTypes (t : Nat) : ElemFmt × ElemFmt :=
  match t with
  | 0 => (.e4m3, .e4m3)
  | 1 => (.e4m3, .e5m2)
  | 2 => (.e5m2, .e4m3)
  | 3 => (.e5m2, .e5m2)
  | 4 => (.int8, .int8)
  | 5 => (.e2m1, .e2m1)
  | 6 => (.int4, .int4)
  | 7 => (.bf16, .bf16)
  | 8 => (.fp16, .fp16)
  | _ => (.fp32, .fp32)

/-- The elements of a row (R71). -/
def ElemFmt.count : ElemFmt → Nat
  | .e2m1 => 256
  | .int4 => 256
  | .bf16 => 64
  | .fp16 => 64
  | .fp32 => 32
  | _ => 128

/-- The format is four bits wide. -/
def ElemFmt.nibble (x : ElemFmt) : Bool := x == .e2m1 || x == .int4
/-- The format is never scaled (R68). -/
def ElemFmt.unscaled (x : ElemFmt) : Bool := x == .bf16 || x == .fp16 || x == .fp32

/-- Little-endian pairs of bytes. -/
def halves : List Byte → List Nat
  | b :: c :: t => (b.toNat + 256 * c.toNat) :: halves t
  | _ => []
/-- Little-endian groups of four bytes. -/
def words4 : List Byte → List Nat
  | b :: c :: d :: e :: t => (b.toNat + 256 * c.toNat + 65536 * d.toNat + 16777216 * e.toNat) :: words4 t
  | _ => []

/-- The raw elements of a row's bytes (R65, R71). -/
def ElemFmt.raw (x : ElemFmt) (bs : List Byte) : List Nat :=
  match x with
  | .e2m1 => bs.flatMap fun b => [b.toNat % 16, b.toNat / 16]
  | .int4 => bs.flatMap fun b => [b.toNat % 16, b.toNat / 16]
  | .bf16 => halves bs
  | .fp16 => halves bs
  | .fp32 => words4 bs
  | _ => bs.map (·.toNat)

/-- An integer element's value. -/
def ElemFmt.int (x : ElemFmt) (w : Nat) : Int :=
  if x = .int4 then (if w < 8 then (w : Int) else w - 16) else (if w < 128 then (w : Int) else w - 256)

/-- An element's exact value (R61 to R65). -/
def ElemFmt.value (x : ElemFmt) (w : Nat) : FVal :=
  match x with
  | .e4m3 => Sys2Proof.Machine.e4m3.decode w
  | .e5m2 => Sys2Proof.Machine.e5m2.decode w
  | .e2m1 => Sys2Proof.Machine.e2m1.decode w
  | .bf16 => Sys2Proof.Machine.bf16.decode w
  | .fp16 => Sys2Proof.Machine.fp16.decode w
  | .fp32 => Sys2Proof.Machine.fp32.decode w
  | _ => intVal (x.int w)

/-- A scale byte's value: E8M0, or UE5M3 (R66, R67). -/
def scaleValue (fmt : Nat) (x : Nat) : FVal :=
  if fmt = 0 then (if x = 255 then .nan false else .fin false 1 ((x : Int) - 127))
  else if x / 8 = 0 then .fin false (x % 8) (-17)
  else .fin false (8 + x % 8) ((x / 8 : Nat) - 18)

/-- The scale of an element of a row (R68): one where the row is not scaled. -/
def rowScale (r : Option RowScale) (k : Nat) : FVal :=
  match r with
  | none => .fin false 1 0
  | some x => scaleValue x.fmt (nth 0#8 x.bytes (k / x.blen)).toNat

/-- The block length of a row of K elements. -/
def rowBlock (k : Nat) (r : Option RowScale) : Nat := match r with | none => k | some x => x.blen

/-- A term of R76 and whether forming it logs FP_INVALID. -/
structure MatTerm where
  term : Term
  invalid : Bool
deriving DecidableEq, Repr

/-- The exact dot product of a sub-block (R76). -/
def dotTerm (a b : List FVal) : MatTerm :=
  let ps := List.zipWith FVal.mul a b
  let opposed := ps.contains (.inf false) && ps.contains (.inf true)
  let bad := ps.contains .invalid || opposed
  if bad || ps.contains .nan then ⟨.nan, bad⟩
  else if ps.contains (.inf false) then ⟨.inf false, false⟩
  else if ps.contains (.inf true) then ⟨.inf true, false⟩
  else
    let d := finiteSum ps
    ⟨.fin (decide (d.m < 0)) d.m.natAbs d.e, false⟩

/-- A term times a scale (R76): a NaN scale gives NaN, a zero one with an infinite term NaN and FP_INVALID. -/
def MatTerm.scale (t : MatTerm) (v : FVal) : MatTerm :=
  match t.term, v with
  | .fin n m e, .fin _ k g => { t with term := .fin n (m * k) (e + g) }
  | .inf n, .fin _ k _ => if k = 0 then ⟨.nan, true⟩ else { t with term := .inf n }
  | _, _ => { t with term := .nan }

/-- The sub-blocks of a row pair from sub-block b on (R76). -/
def subBlocks (len : Nat) (sa sb : Option RowScale) : Nat → Nat → List FVal → List FVal → List MatTerm
  | 0, _, _, _ => []
  | n + 1, b, as_, bs =>
    (((dotTerm (as_.take len) (bs.take len)).scale (rowScale sa (b * len))).scale (rowScale sb (b * len))) ::
      subBlocks len sa sb n (b + 1) (as_.drop len) (bs.drop len)

/-- The place of the leading bit of a finite term; terms that are zero have none. -/
def leadOf (t : Term) : Option Int :=
  match t with
  | .fin _ m e => if m = 0 then none else some ((bitLen m : Int) - 1 + e)
  | _ => none

/-- The sum of finite terms, each cut off below 2^(X - 48), rounded RNE to fp32 (R76). -/
def truncatedSum (ts : List Term) : FRes :=
  match ts.filterMap leadOf with
  | [] => ⟨0, []⟩
  | h :: t =>
    let x := t.foldl max h
    let u := x - 48
    let sum : Int := (ts.map fun y => match y with
      | .fin n m e =>
        let q : Int := scaleDown m (e - u)
        if n then -q else q
      | _ => 0).foldl (· + ·) 0
    if sum = 0 then ⟨0, []⟩ else
    let r := fp32.finish 0 (decide (sum < 0)) sum.natAbs u false
    ⟨r.bits, r.causes.filter (· == fpOverflow)⟩

/-- An accumulator element after a floating-point product (R76), with the causes it logs; a signalling NaN that it consumes logs FP_INVALID
(R63). -/
def matElement (k : Nat) (as_ bs : List FVal) (sa sb : Option RowScale) (acc : Word) : FRes :=
  let len := min (rowBlock k sa) (rowBlock k sb)
  let ts := subBlocks len sa sb (k / len) 0 as_ bs
  let all := (fp32.decode acc.toNat).term :: ts.map (·.term)
  let logs := if ts.any (·.invalid) || (fp32.decode acc.toNat :: (as_ ++ bs)).any FVal.isSig then [fpInvalid] else []
  if all.contains .nan then ⟨fp32.nan, logs⟩
  else if all.contains (.inf false) && all.contains (.inf true) then ⟨fp32.nan, [fpInvalid]⟩
  else if all.contains (.inf false) then ⟨fp32.infBits, logs⟩
  else if all.contains (.inf true) then ⟨fp32.sign true + fp32.infBits, logs⟩
  else
    let r := truncatedSum all
    ⟨r.bits, joinCauses logs r.causes⟩

/-- An accumulator element after an integer product (R77). -/
def intElement (as_ bs : List Int) (acc : Word) : Word :=
  BitVec.ofInt 32 (acc.toInt + (List.zipWith (· * ·) as_ bs).foldl (· + ·) 0)

/-! ## Accumulator elements -/

/-- The element of an accumulator: row i, column j. -/
def AccTile.elem (t : AccTile) (i j : Nat) : Word := t.elems.get 0 (64 * i + j)
/-- The accumulator with an element written. -/
def AccTile.setElem (t : AccTile) (n : Nat) (v : Word) : AccTile := { t with elems := t.elems.set 0 n v }
/-- The accumulator with the elements of a list from number n on. -/
def elemsFrom : Nat → List Word → SMap Word
  | _, [] => []
  | n, v :: t => if v = 0 then elemsFrom (n + 1) t else (n, v) :: elemsFrom (n + 1) t

/-- An element times 2^e (R79, R200). -/
def scaleElement (v : Word) (e : Int) : FRes :=
  match fp32.decode v.toNat with
  | .nan sig => ⟨fp32.nan, if sig then [fpInvalid] else []⟩
  | .inf n => ⟨fp32.sign n + fp32.infBits, []⟩
  | .fin n m x =>
    if m = 0 then fp32.zero n else
    let r := fp32.finish 0 n m (x + e) false
    ⟨r.bits, r.causes.filter (· == fpOverflow)⟩

/-- An element converted to a narrower format for ASTORE (R75, R201). -/
def storeElement (x : Fmt) (v : FVal) : FRes :=
  let r := x.encode 0 v
  ⟨r.bits, r.causes.filter fun c => c == fpOverflow || c == fpInvalid⟩

/-- m × 2^e ≤ 448 × 2^c. -/
def fits448 (m : Nat) (e c : Int) : Bool :=
  let d := e - c
  if 0 ≤ d then decide (m * 2 ^ d.toNat ≤ 448) else decide (m ≤ 448 * 2 ^ (-d).toNat)

/-- Ceil(Log2(m × 2^e / 448)), clamped to -127 … 127 (R202). -/
def rowExponent (m : Nat) (e : Int) : Int :=
  let c := (bitLen m : Int) + e - 9
  let x := if fits448 m e c then c else c + 1
  max (-127) (min 127 x)

/-- The magnitudes of two finite values compared: the first is the smaller. -/
def magLess (m : Nat) (e : Int) (n : Nat) (g : Int) : Bool :=
  let low := min e g
  decide (m * 2 ^ (e - low).toNat < n * 2 ^ (g - low).toNat)

/-- The exponent e_i of a row's scale (R202): from its finite element of largest magnitude. -/
def rowScaleOf (vs : List FVal) : Int :=
  let best := vs.foldl (fun (b : Nat × Int) v => match v with
    | .fin _ m e => if magLess b.1 b.2 m e then (m, e) else b
    | _ => b) (0, 0)
  if best.1 = 0 then 0 else rowExponent best.1 best.2

/-- A value divided exactly by 2^e. -/
def FVal.shift (v : FVal) (e : Int) : FVal := match v with | .fin n m g => .fin n m (g - e) | x => x

/-- A row converted to E4M3 with its scale's exponent (R202). -/
def storeRowE4m3 (vs : List FVal) : Int × List FRes :=
  let e := rowScaleOf vs
  (e, vs.map fun v => storeElement e4m3 (v.shift e))

end Sys2Proof.Machine
end

