-- ==== Sys2Proof/Machine/Traps.lean ====
section
/-! DEFINITION. Steps of traps and faults (03, 10): arithmetic log records, handler entry, fault records and their
resolution, the end of a spawn, its time limit, soft errors and core health, and the fairness and grant steps of threads. -/

namespace Sys2Proof.Machine

open Sys2Proof

/-! ## Hardware's own accesses to control memory -/

/-- Where the hardware's own access to control memory goes: a cause, a wait, or a key. -/
inductive SysAt where
  | missing (code : Nat)
  | held
  | at_ (key : Nat)
deriving DecidableEq, Repr

/-- Where the hardware reads or writes n bytes at a control address of a context (R83, R234, R307, R316): it meets the causes of Table 6.2
that a word would, and a frame that is to be zeroed, or a line that is held, holds it too (R351, R226). -/
def State.sysKey (s : State) (ctx : Nat) (va : DWord) (write : Bool) (n : Nat) : SysAt × State :=
  if va.toNat / 2 ^ 61 ≠ 0 then (.missing 5, s) else
  match s.xlate ctx va with
  | (.missing, s1) => (.missing 2, s1)
  | (.held _, s1) => (.held, s1)
  | (.leaf f, s1) =>
    let k := f.key va.toNat
    match s1.checkKey none ctx { r := !write, w := write, size := n, kind := 1, load := !write, store := write } f k false with
    | .cause _ code => (.missing code, s1)
    | .held => (.held, s1)
    | .at_ _ _ _ => (if write && s1.rangePoisoned k n then .missing 11 else .at_ k, s1)

/-- A ring's size is a power of two within its limits (R83, R234, R309). -/
def ringSize (n lo hi : Nat) : Bool := decide (lo ≤ n ∧ n ≤ hi) && 2 ^ n.log2 == n

/-- The difference of two ring counters modulo 2^32. -/
def ringUsed (write read : Nat) : Nat := (write + 2 ^ 32 - read) % 2 ^ 32

/-- A ticket that no stop has had (R234, R236): free, but for 0 and those given out before. -/
def State.newTicket (s : State) : Word × State :=
  let (v, s1) := s.freeVal
  let x := loOf v
  let spare := ((natsFrom 1 (s.tickets.length + 1)).find? fun k => !s.tickets.contains (BitVec.ofNat 32 k)).getD 1
  let t := if x = 0 ∨ s.tickets.contains x then BitVec.ofNat 32 spare else x
  (t, { s1 with tickets := t :: s1.tickets })

/-! ## Arithmetic log records (R81 to R84) -/

/-- The bytes of an arithmetic log record (Table 3.4). -/
def logRecord (cause : Nat) (trap matrix : Bool) (pc spawnId : Word) (gang : Nat) (lanes : DWord) (clock : Word)
    (core : Nat) : List Byte :=
  leBytes 1 cause ++ leBytes 1 ((if trap then 1 else 0) + (if matrix then 2 else 0)) ++ leBytes 2 0 ++
  leBytes 4 pc.toNat ++ leBytes 4 spawnId.toNat ++ leBytes 4 gang ++ leBytes 8 lanes.toNat ++ leBytes 4 clock.toNat ++
  leBytes 2 core ++ leBytes 2 0

/-- A record of 32 bytes written to the ring of a control block, or counted as dropped, or discarded; with whether that is done, or an
access of it is held (R82, R83, R351). -/
def State.writeRing (s : State) (ctx cb : Nat) (bytes : List Byte) : Bool × State :=
  if cb = 0 then (true, s) else
  match s.sysKey ctx (BitVec.ofNat 64 cb) true 64 with
  | (.missing _, s1) => (true, s1)
  | (.held, s1) => (false, s1)
  | (.at_ k, s1) =>
    let drop := fun (s : State) =>
      let d := s.mem.num (k + 0x18) 4
      s.performBytes none (k + 0x18) (leBytes 4 (if d < 0xFFFFFFFF then d + 1 else d))
    let base := s1.mem.num k 8
    let size := s1.mem.num (k + 8) 4
    let w := s1.mem.num (k + 0x10) 4
    if base % 32 ≠ 0 ∨ base / 2 ^ 61 ≠ 0 ∨ !ringSize size 16 65536 ∨ size ≤ ringUsed w (s1.mem.num (k + 0x14) 4) then (true, drop s1)
    else
      match s1.sysKey ctx (BitVec.ofNat 64 (base + 32 * (w % size))) true 32 with
      | (.missing _, s2) => (true, drop s2)
      | (.held, s2) => (false, s2)
      | (.at_ r, s2) => (true, (s2.performBytes none r bytes).performBytes none (k + 0x10) (leBytes 4 ((w + 1) % 2 ^ 32)))

/-- A record for a context's arithmetic log (R82). -/
def State.writeLog (s : State) (ctx : Nat) (bytes : List Byte) : Bool × State := s.writeRing ctx (s.ctxField ctx 8 8) bytes

/-- The lanes that trap (R84, R78, R239): of those the word named, the ones that still run outside a handler. -/
def LogItem.trapLanes (e : LogItem) (G : Gang) : List Nat :=
  (laneList e.trap).filter fun l => let t := G.thread l; t.issues && !t.handler

/-- The lane whose place a record's PC shows: one that the record names and that waits at its EXIT, else the lowest of them that runs
(R34, R81; log 13). -/
def LogItem.lane (e : LogItem) (G : Gang) : Option Nat :=
  let ls := (laneList e.lanes).filter fun l => (G.thread l).issues
  match ls.find? fun l => (G.thread l).wait == some .exit with
  | some l => some l
  | none => ls.head?

/-- A record can be formed (R81, R84): where lanes of it trap, they stand at the start of a packet; unless a lane of it waits at its EXIT,
seven packets have passed, or the gang has stopped. -/
def LogItem.ready (e : LogItem) (G : Gang) : Bool :=
  e.matrix || decide (7 ≤ e.packets) || G.stop.isSome ||
  ((laneList e.lanes).any fun l => (G.thread l).wait == some .exit) ||
  (e.trapLanes G).all fun l => (G.thread l).pos == 0 && (G.thread l).wait.isNone

/-- The oldest of a gang's logged causes (R81). -/
def Gang.oldestLog (G : Gang) : Option LogItem := (sortBy (·.sn) G.logs).head?

/-- An earlier matrix instruction of the gang may still log a cause (R81). -/
def State.olderMatrix (s : State) (g : Nat) (e : LogItem) : Bool :=
  s.matOps.any fun o => o.gang == g && o.mayLog && decide (o.sn / 64 < e.sn)

/-- The lanes of a gang take a logged cause's trap, or the spawn ends where one of them has no handler (R84). -/
def State.trapLogged (s : State) (g cause : Nat) (lanes : DWord) (pc lo : Word) : State :=
  match s.gangs.find? g with
  | none => s
  | some G =>
    if lanes = 0#64 then s
    else if (laneList lanes).any fun l => (G.thread l).trapvec == 0#32 then s.endFor g ⟨cause, lo, 0, lanes, 0⟩ pc 0
    else s.onLanes g lanes fun _ t => t.holdTrap cause lo

/-- ARITH_LOG_RECORD: a gang's oldest logged cause is recorded, in the issue order of the words, and its lanes trap that had TRAPERR set,
those of a matrix instruction having done so when it completed (R80 to R84). A lane whose earlier trap is still to be taken counts as trapping
in the record's FLAGS, though its earlier trap stands (DESIGN CHOICE, log 13). -/
def execArithLogRecord (i : Nat) (s : State) : Out :=
  let g := i / 2 ^ 32
  match (s.gangs.find? g).bind fun G => G.oldestLog.map fun e => (G, e) with
  | none => .next s
  | some (G, e) =>
    if e.sn % 2 ^ 32 ≠ i % 2 ^ 32 ∨ !(e.ready G || s.teamAway G.team) ∨ s.olderMatrix g e then .next s else
    let pc := if e.matrix then e.pc else match e.lane G with | some l => (G.thread l).pc | none => e.pc
    let traps := if e.matrix then e.trap else laneSet (e.trapLanes G)
    let id := match s.spawnOf g with | some p => p.id | none => 0
    let r := s.writeLog (s.ctxOf g) (logRecord e.cause (traps != 0#64) e.matrix pc id G.index e.lanes (loOf s.clk) (coreOf g))
    if !r.1 then .next r.2 else
    let s2 := r.2.onGang g fun G => { G with logs := G.logs.filter (· != e) }
    .next (if e.matrix then s2 else s2.trapLogged g e.cause traps pc 0)

/-- The lanes that enter their handlers with a lane: its entering set; for a logged cause, the lanes that have come to the
same place with one (R84, R237). -/
def Gang.entrants (G : Gang) (r : TrapReq) : List Nat :=
  (natsFrom 0 G.width).filter fun l =>
    let t := G.thread l
    t.live && t.trapDue && (match t.trap with
      | some x => !x.atPacket && x.set == r.set && (r.set != 0 || (x.pc == r.pc && x.pos == r.pos))
      | none => false)

/-- HANDLER_ENTRY: once the results of every lane of the entering set have arrived and its accesses are performed, the lanes
enter their handlers; a lane in a region first aborts and will resume at its fallback (R228, R237, R238). -/
def execHandlerEntry (g lane : Nat) (s : State) : Out :=
  match s.gangs.find? g with
  | none => .next s
  | some G =>
    match (G.thread lane).trap with
    | none => .next s
    | some r =>
      let ls := G.entrants r
      if !ls.contains lane || !ls.all (s.entryReady g) then .next s
      else if ls.any fun l => (G.thread l).handler || (G.thread l).trapvec == 0#32 then
        .next ((s.onLanes g (laneSet ls) fun _ t => { t with trap := none }).endFor g ⟨r.cause, r.lo, r.hi, laneSet ls, 0⟩ r.pc r.pos)
      else
        let inR := laneSet (ls.filter fun l => (G.thread l).inRegion)
        let s1 := s.abortLanes g inR 6 0
        .next ((s1.onLanes g (laneSet ls) fun l t =>
          match t.trap with
          | some x => t.enterHandler (if inLanes inR l then { x with pc := t.pc, pos := 0 } else x)
          | none => t).invalidateL1 (coreOf g))

/-! ## Fault records (R234 to R236) -/

/-- The bytes of a fault record (Table 10.3). -/
def FaultRec.bytes (r : FaultRec) : List Byte :=
  leBytes 1 r.cause ++ leBytes 1 ((if r.fatal then 1 else 0) + 2 * r.kind) ++ leBytes 1 r.word ++ leBytes 1 0 ++
  leBytes 4 r.ticket.toNat ++ leBytes 4 r.pc.toNat ++ leBytes 4 r.spawnId.toNat ++ leBytes 4 r.gang ++ leBytes 2 r.core ++
  leBytes 1 r.part ++ leBytes 1 0 ++ leBytes 8 r.va.toNat ++ leBytes 8 r.lanes.toNat ++ leBytes 4 r.clock.toNat ++
  List.replicate 20 0#8

/-- The fault queue's control block, and its ring slot for the next record, if it has one (Table 10.2, R234). -/
def State.faultSlot (s : State) : (Option Nat × Option Nat) × State :=
  if s.faultVa = 0 then ((none, none), s) else
  match s.sysKey 0 s.faultVa true 64 with
  | (.at_ k, s1) =>
    let base := s1.mem.num k 8
    let size := s1.mem.num (k + 8) 4
    let w := s1.mem.num (k + 0x10) 4
    if base % 64 ≠ 0 ∨ base / 2 ^ 61 ≠ 0 ∨ !ringSize size 64 65536 ∨ size ≤ ringUsed w (s1.mem.num (k + 0x14) 4) then ((some k, none), s1)
    else
      match s1.sysKey 0 (BitVec.ofNat 64 (base + 64 * (w % size))) true 64 with
      | (.at_ r, s2) => ((some k, some r), s2)
      | (_, s2) => ((some k, none), s2)
  | (_, s1) => ((none, none), s1)

/-- The records of a die in the order of their faults, up to the 64 of its holding store. -/
def State.heldRecords (s : State) (die : Nat) : List FaultRec := (s.faults.filter fun r => r.die == die && r.formed).take 64

/-- The oldest record of a die that is not formed is formed, with its ticket, or 0 where no gang is stopped for it (R234,
R306). -/
def State.formRecord (s : State) (die : Nat) : State :=
  match (s.faults.filter fun r => r.die == die && !r.formed).head? with
  | none => s
  | some r =>
    if 64 ≤ (s.heldRecords die).length then s
    else
      let (tk, s1) := if r.fatal || r.gangKey.isNone then (0, s) else s.newTicket
      let r' := { r with formed := true, ticket := tk }
      let s2 := { s1 with faults := s1.faults.map fun x => if x = r then r' else x }
      match r.gangKey with
      | some g => s2.onGang g fun G => { G with stop := G.stop.map fun st => { st with ticket := some tk } }
      | none => s2

/-- HELD and RESOLVE as the hardware keeps them in the control block (Table 10.2): the records that wait for ring space. -/
def State.writeHeld (s : State) (k : Nat) : State :=
  let held := (s.faults.filter (·.formed)).length
  if s.mem.num (k + 0x20) 4 = held ∧ s.mem.num (k + 0x18) 8 = s.resolvePort then s
  else (s.performBytes none (k + 0x18) (leBytes 8 s.resolvePort)).performBytes none (k + 0x20) (leBytes 4 held)

/-- FAULT_RECORD_WRITE: a die's oldest record is formed, and the oldest formed one is written where the ring has room; those that wait are
counted in HELD (R234, Table 10.2). -/
def execFaultRecordWrite (die : Nat) (s : State) : Out :=
  let s1 := s.formRecord die
  match (s1.heldRecords die).head? with
  | none => .next s1
  | some r =>
    match s1.faultSlot with
    | ((none, _), s2) => .next s2
    | ((some k, none), s2) => .next (s2.writeHeld k)
    | ((some k, some slot), s2) =>
      let w := s2.mem.num (k + 0x10) 4
      let s3 := { s2 with faults := s2.faults.filter (· != r) }
      .next (((s3.performBytes none slot r.bytes).performBytes none (k + 0x10) (leBytes 4 ((w + 1) % 2 ^ 32))).writeHeld k)

/-- The stopped gang that a ticket names, once its record is written: until then nothing can resume it (R234). -/
def State.ticketGang (s : State) (ticket : Word) : Option (Nat × Stop) :=
  if s.faults.any fun r => r.formed && r.ticket == ticket then none else
  s.gangs.findSome? fun e =>
    match e.2.stop with
    | some st => if st.ticket = some ticket then some (e.1, st) else none
    | none => none

/-- A resolve store's effect (R235, R236): 1 RETRY, 2 DELIVER, 3 ABORT; an unknown ticket is ignored. -/
def State.resolve (s : State) (ticket : Word) (action : Nat) : State :=
  match s.ticketGang ticket with
  | none => s
  | some (g, st) =>
    let s1 := s.onGang g fun G => { G with stop := none }
    let k : Cause := ⟨2, loOf st.va, hiOf st.va, st.lanes, st.kind⟩
    if action = 1 then
      s1.onGang g fun G => { G with replays := if G.replays = 0xFFFFFFFF#32 then G.replays else G.replays + 1#32 }
    else if action = 2 then
      let inR := s1.regionLanes g st.entering
      let s2 := s1.abortLanes g inR 6 0
      s2.enterOrEnd g st.entering k st.pc st.pos fun l =>
        ⟨2, (s2.thread g l).pc, (s2.thread g l).pos, k.lo, k.hi, false, 0⟩
    else if action = 3 then s1.endFor g k st.pc st.pos
    else s

/-- RESOLVE_RETRY. -/
def execResolveRetry (ticket : Word) (s : State) : Out := .next (s.resolve ticket 1)
/-- RESOLVE_DELIVER. -/
def execResolveDeliver (ticket : Word) (s : State) : Out := .next (s.resolve ticket 2)
/-- RESOLVE_ABORT. -/
def execResolveAbort (ticket : Word) (s : State) : Out := .next (s.resolve ticket 3)

/-! ## The end and the completion of a spawn (R241, R242, R316) -/

/-- The gangs of a spawn. -/
def State.gangsOf (s : State) (sp : Nat) : List (Nat × Gang) := s.gangs.filter fun e => e.2.spawn == sp

/-- A gang of an ending spawn (R241 steps 1 to 4): its regions abort, its outstanding results and queue entries are
discarded, its threads end; its buffered stores and atomics stay to be performed. -/
def State.stopGang (s : State) (g : Nat) : State :=
  let s1 := s.onGang g fun G =>
    { G with
      stop := none
      masks := G.masks.map fun _ => 0
      threads := G.threads.map fun t =>
        { (t.abort 6 0) with live := false, queues := [[], [], [], []], wait := none, grant := none, trap := none,
                             arrived := false, park := false, fence := none, waitSince := none, swTrap := none,
                             exiting := false, issued := none, held := [] } }
  { s1 with
    pending := s1.pending.filter (·.gang != g)
    accesses := s1.accesses.filter fun a => !(a.gang == g && (match a.kind with | .load _ _ => true | _ => false))
    scaleLoads := s1.scaleLoads.filter (·.gang != g)
    commits := s1.commits.filter (·.gang != g)
    xacqQueue := s1.xacqQueue.filter (· != g), axbQueue := s1.axbQueue.filter (· != g)
    exclQueue := s1.exclQueue.filter (·.1 != g), aacqQueue := s1.aacqQueue.filter fun e => e.1 != g
    watches := s1.watches.filter fun w => w.gang != g
    sync := { s1.sync with handovers := s1.sync.handovers.filter fun h => h.gang != g } }

/-- A copy of a spawn that has not started is to complete with CANCELLED (R241 step 5). -/
def Copy.cancel (sp : Nat) (c : Copy) : Copy :=
  if c.owner.any (·.spawn == sp) && !c.started then { c with ending := some (7, 0, 0) } else c

/-- SPAWN_END: the steps of R241 up to the cancelling of the engine operations that have not started; what has started
goes on, and the completion follows. -/
def execSpawnEnd (sp : Nat) (s : State) : Out :=
  match s.spawns.find? sp with
  | none => .next s
  | some p =>
    if p.ending.isNone || !p.issuing then .next s else
    let s1 := (s.gangsOf sp).foldl (fun s e => s.stopGang e.1) s
    .next { s1 with
      spawns := s1.spawns.put sp { p with issuing := false, unplaced := [], stopped := true }
      copies := s1.copies.map (Copy.cancel sp)
      commands := s1.commands.map fun c => if c.owner.spawn = sp then { c with cancelled := true } else c
      runs := s1.runs.map fun r => if r.owner.any (·.spawn == sp) && !r.started && r.doom.isNone then { r with doom := some 7 } else r
      transfers := s1.transfers.filter fun t =>
        match t.kind with | .atomic o _ _ _ _ _ _ => !(o.spawn == sp && !t.sent) | _ => true }

/-- A completion word (R316): the status and bits [23:0] of the spawn id. -/
def completionWord (status : Nat) (id : Word) : Nat := id.toNat % 2 ^ 24 * 256 + status % 256

/-- A completion word written at a control VA of a context, with whether that is done or the access is held; where it faults, a fatal
record is left (R316, R351). -/
def State.writeCompletion (s : State) (ctx : Nat) (cpl : DWord) (word : Nat) (id : Word) : Bool × State :=
  if cpl = 0 then (true, s) else
  match s.sysKey ctx cpl true 4 with
  | (.at_ k, s1) => (true, s1.performBytes none k (leBytes 4 word))
  | (.held, s1) => (false, s1)
  | (.missing code, s1) =>
    (true, { s1 with faults := s1.faults ++ [⟨0, code, true, 1, 0, 0, 0, id, 0, 0, 0, cpl, 0, loOf s.clk, false, none⟩] })

/-- SPAWN_TIMEOUT: the time limit, in µs from the start, has passed (R30, R241, R242). -/
def execSpawnTimeout (sp : Nat) (s : State) : Out :=
  match s.spawns.find? sp with
  | none => .next s
  | some p =>
    if p.record.limit = 0 ∨ (s.clk - p.start).toNat < 800 * p.record.limit ∨ p.ending.isSome then .next s
    else
      let s1 := s.beginEnd sp 0x12
      let die := match (s.gangsOf sp).head? with | some e => dieOf e.1 | none => 0
      .next { s1 with faults := s1.faults ++
        [⟨die, 0x12, true, 0, 0, 0, 0, p.id, 0, 0, 0, 0, 0, loOf s.clk, false, none⟩] }

/-! ## Soft errors and core health (R243 to R245, R277) -/

/-- The core that a datum's array lies in; the cluster's first for its tables. -/
def State.datumCore (_ : State) : Datum → Nat
  | .unit k => if isScratchKey k then (k - 2 ^ 52) / 2 ^ 20 else 0
  | .reg g _ _ => coreOf g
  | .accElem g _ _ => coreOf g
  | .scaleGroup p _ => p / 128
  | .l1Line core _ => core
  | .teamEntry k => k / 1024 * 8
  | .handleEntry h => h / 1024 * 8
  | .windowEntry k _ => if 65536 ≤ k then coreOf (k - 65536) / 8 * 8 else k / 1024 * 8
  | .syncState cl => cl * 8

/-- The offset of a core's record in the field log (Table 21.5). -/
def coreLog (core : Nat) : Nat := 0xC000 + 16 * core
/-- The offset of the record of a tensor key's pseudo-channel (R305, Table 21.5). -/
def channelLog (k : Nat) : Nat := 0x1000 + 16 * (160 * ((k - 2 ^ 50) / 2 ^ 36 % 8) + (k - 2 ^ 50) % 2 ^ 36 / 512 % 160)
/-- A counter of the field log raised by one, saturating (R376). -/
def State.countAt (s : State) (off : Nat) : State :=
  { s with health := { s.health with counts := bumpCount s.health.counts off 0xFFFFFFFF } }
/-- An error counted in a record: corrected or not, transient or lasting; one that ends in a retirement in LAST only (R244,
R306, R376). -/
def State.countError (s : State) (record : Nat) (uncorrected lasting retires : Bool) : State :=
  let s1 := if retires then s else s.countAt (record + if uncorrected then 4 else 0)
  s1.countAt (record + if lasting then 12 else 8)
/-- The field-log record that counts a datum's errors. -/
def State.datumLog (s : State) (d : Datum) : Nat :=
  match d with
  | .unit k => if isTensorKey k then channelLog k else coreLog (s.datumCore d)
  | _ => coreLog (s.datumCore d)

/-- A core is retired (R244). -/
def State.retireCore (s : State) (core : Nat) : State :=
  if s.health.retired.contains core then s
  else { s with health := { s.health with retired := s.health.retired ++ [core] } }

/-- The spawns of a list of gangs end with a status. -/
def State.endSpawns (s : State) (gs : List (Nat × Gang)) (status : Nat) : State :=
  gs.foldl (fun s e => s.endFor e.1 ⟨status, 0, 0, 0, 0⟩ e.2.bpc e.2.bpos) s

/-- SOFT_ERROR: a single-bit error is corrected and counted; a double-bit error poisons the datum, but that an L1 line is
fetched again, a team's spawns end and a handle raises POISON (R243, R277); a window entry and the sync engine's state are written back
with their value (R244; log 89). A lasting error takes a spare row or, where the array has none left, retires the core, or for the sync
engine the cluster; which of the two is free (R244, R277; log 7). -/
def execSoftError (d : Datum) (double lasting : Bool) (s : State) : Out :=
  let (n, s0) := if lasting then s.choose 2 else (0, s)
  let s1 := s0.countError (s.datumLog d) double lasting (n != 0)
  let s2 :=
    if !double then s1 else
    match d with
    | .l1Line core line => { s1 with l1 := s1.l1.erase (core * 2 ^ 43 + line) }
    | .teamEntry k => ({ s1 with teams := s1.teams.modify k fun T => { T with poisoned := true } }).endSpawns (s1.members k) 11
    | .handleEntry h => { s1 with handles := s1.handles.modify h fun x => { x with poisoned := true } }
    | .windowEntry _ _ => s1
    | .syncState _ => s1
    | .unit k => if s1.poison.contains (.unit (unitOf k)) then s1 else { s1 with poison := s1.poison ++ [.unit (unitOf k)] }
    | _ => if s1.poison.contains d then s1 else { s1 with poison := s1.poison ++ [d] }
  .next (if n = 0 then s2 else
    match d with
    | .syncState cl => { s2 with health := { s2.health with clusters := if s2.health.clusters.contains cl then s2.health.clusters else s2.health.clusters ++ [cl] } }
    | _ => s2.retireCore (s2.datumCore d))

/-- HANG_SAMPLE: a core with a gang that could issue and that has issued nothing for 1 ms is hung: its spawns end with
POISON and it is retired (R245). -/
def execHangSample (core : Nat) (s : State) : Out :=
  let mine := s.gangs.filter fun e => coreOf e.1 == core
  let idle := (s.clk - s.health.lastIssue.get 0 core).toNat
  let ready := mine.any fun e => match e.2.candSince with | some c => decide (800000 ≤ (s.clk - c).toNat) | none => false
  if ready ∧ 800000 ≤ idle ∧ !s.health.retired.contains core then
    .next (((s.endSpawns mine 11).retireCore core).countAt (coreLog core + 12))
  else .next s

/-! ## Fairness and grants -/

/-- FAIRNESS_TIMER_EXPIRY: with the progress promise on, once the count has reached the period the broadcast moves to the
thread that has waited longest, the lowest lane on a tie (R28, R30). -/
def execFairnessTimerExpiry (g : Nat) (s : State) : Out :=
  match s.gangs.find? g with
  | none => .next s
  | some G =>
    let count := match G.fairFrom with | some f => G.fairAcc + (s.clk - f).toNat | none => G.fairAcc
    let period := match s.spawns.find? G.spawn with | some p => p.record.fairTime | none => 0
    let ws := G.threads.filter G.waitsFetch
    if period = 0 ∨ count < period then .next s
    else
      match ws with
      | [] => .next s
      | h :: t =>
        let since : Thread → Nat := fun x => match x.waitSince with | some c => c.toNat | none => 2 ^ 64
        .next (s.onGang g (·.moveTo (t.foldl (fun (b x : Thread) => if since x < since b then x else b) h)))

/-- XACQ_GRANT: the gang that has waited longest in its partition acquires the block once there is room (R12, R159). -/
def execXacqGrant (g : Nat) (s : State) : Out :=
  match s.gangs.find? g with
  | none => .next s
  | some G =>
    if (s.xacqQueue.filter fun x => partKey x == partKey g).head? = some g ∧ (G.xblk ∨ s.xRoom g G) then
      .next { (s.onGang g Gang.acquireX).grantWaiters g (fun w => w == .xacq) 0 with
        xacqQueue := s.xacqQueue.filter (· != g) }
    else .next s

end Sys2Proof.Machine
end

