-- ==== Sys2Proof/Machine/Matrix.lean ====
section
/-! DEFINITION. Matrix, accumulator and scale words (08), and the steps by which they are accepted, completed and granted. -/

namespace Sys2Proof.Machine

open Sys2Proof

/-! ## Scale registers and bindings -/

/-- A rename-map entry that was never written (Table 8.1 reset values). -/
def Rename.blank : Rename := ⟨0, false, 0, 0⟩
/-- A binding entry that was never written (Table 8.2 reset values). -/
def Binding.blank : Binding := ⟨false, false, 0, 0, 0, 0, 0⟩

/-- The rename-map entry of an architectural scale register. -/
def Team.rename (T : Team) (n : Nat) : Rename := T.renames.get Rename.blank n
/-- The binding of a team slot. -/
def Team.binding (T : Team) (t : Nat) : Binding := T.bindings.get Binding.blank t
/-- The data generation of a team slot. -/
def Team.dgen (T : Team) (t : Nat) : Nat := T.dgens.get 0 t

/-- The binding of a slot is stale (R191). -/
def Team.stale (T : Team) (t : Nat) : Bool :=
  let b := T.binding t
  let r := T.rename b.sreg
  b.valid && (b.voided || !r.mapped || r.gen != b.sgen || T.dgen t != b.dgen)

/-- The team with the generation of a scale register advanced; a wrap voids the bindings that name it, those never written among them
(R189). -/
def Team.bumpGen (T : Team) (n : Nat) : Team :=
  let r := T.rename n
  let T1 := { T with renames := T.renames.set Rename.blank n { r with gen := (r.gen + 1) % 256 } }
  if r.gen = 255 then ((natsFrom 0 128).filter fun t => (T.binding t).sreg == n).foldl Team.void T1 else T1

/-- The number of the physical scale register that an entry names in a cluster (R187). -/
def Rename.phys (r : Rename) (cl : Nat) : Nat := (cl * 8 + r.core) * 128 + r.preg

/-- The bytes of an architectural scale register; unmapped it reads 0x00 (R188). -/
def State.scaleBytes (s : State) (cl : Nat) (T : Team) (n : Nat) : SMap Byte :=
  let r := T.rename n
  if r.mapped then s.scaleRegs.get [] (r.phys cl) else []

/-- A byte of a scale register. -/
def scaleByte (m : SMap Byte) (i : Nat) : Byte := m.get 0#8 i
/-- The 512 bytes of a scale register. -/
def scaleList (m : SMap Byte) : List Byte := (natsFrom 0 512).map (scaleByte m)
/-- A list of bytes as a scale register's table, from byte i on. -/
def scaleTable : Nat → List Byte → SMap Byte
  | _, [] => []
  | i, b :: t => if b = 0#8 then scaleTable (i + 1) t else (i, b) :: scaleTable (i + 1) t

/-- The free physical scale registers of a core. -/
def State.freeScales (s : State) (core : Nat) : List Nat :=
  (natsFrom (core * 128) 128).filter fun p => (s.scaleRegs.find? p).isNone

/-- An unmapped architectural register is mapped to a free physical one of a core, with bytes 0x00 (R188); which one is free
(log 7). None where the core has none. -/
def State.mapScale (s : State) (team core n : Nat) : Option State :=
  let r := (s.team team).rename n
  if r.mapped then some s else
  let free := s.freeScales core
  if free.isEmpty then none else
  let (i, s1) := s.choose free.length
  let p := nth 0 free i
  some { s1 with
    scaleRegs := s1.scaleRegs.put p []
    teams := s1.teams.modify team fun T =>
      { T with renames := T.renames.set Rename.blank n { r with mapped := true, core := core % 8, preg := p % 128 } }
    poison := s1.poison.filter fun d => match d with | .scaleGroup q _ => q != p | _ => true }

/-- A scale register's contents written: mapped first if need be, its generation advanced once, its poison cleared where the write is of
the whole register (R188, R189, R243). -/
def State.writeScale (s : State) (cl team core n : Nat) (whole : Bool) (f : SMap Byte → SMap Byte) : Option State :=
  (s.mapScale team core n).map fun s1 =>
    let p := ((s1.team team).rename n).phys cl
    { s1 with
      scaleRegs := s1.scaleRegs.put p (f (s1.scaleRegs.get [] p))
      teams := s1.teams.modify team fun T => T.bumpGen n
      poison := if whole then s1.poison.filter fun d => match d with | .scaleGroup q _ => q != p | _ => true else s1.poison }

/-- A physical scale register holds a poisoned group (R243). -/
def State.scalePoisoned (s : State) (cl : Nat) (T : Team) (n : Nat) : Bool :=
  let r := T.rename n
  r.mapped && s.poison.any fun d => match d with | .scaleGroup q _ => q == r.phys cl | _ => false

/-- The state as the words of a chain read it: the team's table and the scale registers from before the chain (R22, R194). -/
def State.beforeChain (s : State) (c : IssueCtx) (team : Nat) : State :=
  let s1 := match c.preTeam with | some T => { s with teams := s.teams.put team T } | none => s
  match c.preScale with | some m => { s1 with scaleRegs := m } | none => s1

/-! ## The frame of a gang-wide word (R183) -/

/-- What the effect of a gang-wide word answers: its result, a wait in the sense of R25, or a wait that is none. -/
inductive Effect where
  | done (v : DWord)
  | waits (w : Wait)
  | held
deriving DecidableEq, Repr

/-- A gang-wide word: its registers beside those of its shape, the cause with which a lane in a region leaves it, its
causes, whether it can take effect now, and its effect. -/
structure GangWide where
  word : WordSpec
  reads : List Nat := []
  writes : List Nat := []
  deny : Nat := 3
  check : IssueCtx → Gang → (Nat → Vals) → State → Option Cause := fun _ _ _ _ => none
  ready : IssueCtx → State → Bool := fun _ _ => true
  act : IssueCtx → Gang → (Nat → Vals) → State → Effect × State

/-- A gang-wide word takes effect once for the lanes that issue it (R183): it waits for the port, the scoreboard and the gang's scale
loads; it is tested in the order of R211; then its one effect. -/
def State.gangWide (s : State) (w : GangWide) : Out :=
  s.word fun c view =>
    s.tested c view (w.word.reads ++ w.reads) (w.word.writes ++ w.writes)
      (let (s0, c0) := s.admitOut c view (w.word.shape.needs w.word.fa w.word.fb)
       if c0.lanes = 0#64 then s0
       else if !w.ready c0 s0 then { s0 with ctx := some { c0 with blocked := c0.blocked ||| c0.lanes } }
       else
         let vals := fun l => w.word.vals (view.thread l) (s0.thread c0.gang l)
         match w.check c0 view vals (s0.beforeChain c0 view.team) with
         | some k => s0.raise c0 k
         | none =>
           let (s1, c1) := s0.screen c0 w.deny
           if c1.lanes = 0#64 then s1.retire c1 0 false
           else
             match w.act c1 view vals s1 with
             | (.held, s2) => { s2 with ctx := some { c1 with blocked := c1.blocked ||| c1.lanes } }
             | (.waits x, s2) =>
               { s2.onLanes c1.gang c1.lanes (fun _ t => { t.waitIn c1.pos x with grant := none }) with
                 ctx := some { c1 with lanes := 0, blocked := c1.blocked ||| c1.lanes } }
             | (.done v, s2) =>
               (s2.onLanes c1.gang c1.lanes fun _ t => t.completeIn c1.pos false 0).regEffect c1 view
                 { w.word with f := fun _ _ _ => ⟨v, []⟩ })

/-- A cause of a gang-wide word, in all its lanes (R183). -/
def gangCause (c : IssueCtx) (code : Nat) (lo hi : Word) : Option Cause := some ⟨code, lo, hi, c.lanes, 0⟩

/-- An operation is a product that the array has not accepted: it waits in its T port (R180). -/
def MatOp.waiting (o : MatOp) : Bool := !o.accepted && (match o.kind with | .product _ _ _ _ _ _ _ _ _ _ => true | _ => false)

/-- The gang's T port takes another word (R180); words of the same chain do not stand in one another's way. -/
def State.portFree (s : State) (c : IssueCtx) : Bool :=
  !(s.matOps.any fun o => o.gang == c.gang && o.waiting && decide (o.sn < c.since * 64))

/-- The gang has no scale load outstanding from before the chain (R194, R205). -/
def State.scalesSettled (s : State) (c : IssueCtx) : Bool :=
  !(s.scaleLoads.any fun x => x.gang == c.gang && decide (x.sn < c.since * 64))

/-- No class-A operation from before the chain still works on the accumulator (R18, R182). -/
def State.accSettled (s : State) (c : IssueCtx) (acc : Nat) (products : Bool) : Bool :=
  !(s.matOps.any fun o => o.gang == c.gang && o.acc == acc && decide (o.sn < c.since * 64) &&
    (products || !(match o.kind with | .product _ _ _ _ _ _ _ _ _ _ => true | _ => false)))

/-- The lowest live lane's FPC sets TRAPERR (R78). -/
def Gang.trapAll (G : Gang) : Bool :=
  match (laneList G.liveLanes).head? with | some l => bitsOf (G.thread l).fpc.toNat 5 1 == 1 | none => false

/-- A class-A operation queued by a word. -/
def State.addMatOp (s : State) (c : IssueCtx) (view : Gang) (acc : Nat) (kind : MatKind) : State :=
  { s with
    matOps := s.matOps ++ [⟨s.sn * 64, c.gang, view.team, acc, kind, false, c.pc, c.lanes, view.mask 0, view.trapAll, 0, 0, []⟩]
    sn := s.sn + 1 }

/-! ## Row groups (R184) -/

/-- The registers of a row group. -/
def rowRegs (n width : Nat) : List Nat :=
  if 56 ≤ n then [] else (natsFrom n (64 / width)).filter fun r => decide (r < 56)

/-- Row i's value of a row group; none where its lane does not issue the word. -/
def rowValue (view : Gang) (lanes : DWord) (n i : Nat) : Option Word :=
  let l := i % view.width
  let r := n + i / view.width
  if !inLanes lanes l then none
  else if 56 ≤ n ∨ 56 ≤ r then some 0
  else some ((view.thread l).src r)

/-! ## MMA and MMAG -/

/-- An operand of a product: its slot, its row (none for a whole slot), the address registers that report it, its format. -/
structure MatOperand where
  slot : Nat
  row : Option Nat
  lo : Word
  hi : Word
  fmt : ElemFmt
deriving DecidableEq, Repr

/-- The keys of an operand's bytes that are poisoned, or its handle is (R243, R277). -/
def State.operandPoisoned (s : State) (cl team : Nat) (T : Team) (x : MatOperand) : Bool :=
  let b := T.binding x.slot
  s.handlePoisoned team x.slot || (b.valid && s.scalePoisoned cl T b.sreg) ||
  (match s.scratchKey cl team (x.slot * 8192) with
   | none => false
   | some k =>
     let (lo, n) := match x.row with | some r => (k + 128 * r, 128) | none => (k, 8192)
     s.poison.any fun d => match d with | .unit u => decide (lo ≤ u ∧ u < lo + n) | _ => false)

/-- An accumulator of a gang holds a poisoned element (R243). -/
def State.accPoisoned (s : State) (g acc : Nat) : Bool :=
  s.poison.any fun d => match d with | .accElem g' a _ => g' == g && a == acc | _ => false

/-- The causes of a product in the order of R211 and R192. -/
def State.productCause (s : State) (c : IssueCtx) (view : Gang) (acc : Nat) (zero gather : Bool) (types : Nat)
    (xs : List MatOperand) : Option Cause :=
  let cl := clusterOf c.gang
  let T := s.team view.team
  match view.accs.find? acc with
  | none => gangCause c 8 0 0
  | some tile =>
    match xs.find? fun x => (s.scratchKey cl view.team (x.slot * 8192)).isNone with
    | some x => if gather then gangCause c 6 x.lo x.hi else gangCause c 6 0 0
    | none =>
      match xs.find? fun x => (T.binding x.slot).valid && (x.fmt.unscaled || (x.fmt.nibble && (T.binding x.slot).blen == 0)) with
      | some x => gangCause c 10 x.lo x.hi
      | none =>
        let int := (types == 4 || types == 6) && xs.all fun x => !(T.binding x.slot).valid
        if !zero && tile.int32 != int then gangCause c 10 0 (if gather then 65 else 2)
        else
          match xs.find? fun x => T.stale x.slot with
          | some x => gangCause c 9 x.lo x.hi
          | none =>
            if xs.any (s.operandPoisoned cl view.team T) || (!zero && s.accPoisoned c.gang acc) then gangCause c 11 0 0
            else none

/-- The scale bytes of a row, latched (R68, R193). -/
def State.latchRow (s : State) (cl : Nat) (T : Team) (slot row k : Nat) : Option RowScale :=
  let b := T.binding slot
  if !b.valid then none else
  let len := 16 * 2 ^ b.blen
  let m := s.scaleBytes cl T b.sreg
  some ⟨len, b.fmt, (natsFrom (row * (k / len)) (k / len)).map (scaleByte m)⟩

/-- The effect of a product at issue (R193, R195, R196). -/
def State.issueProduct (s : State) (c : IssueCtx) (view : Gang) (acc : Nat) (zero : Bool) (types : Nat) (sa : Option Nat)
    (rows : List (Option (Nat × Nat))) (sb : Nat) : State :=
  let cl := clusterOf c.gang
  let sv := s.beforeChain c view.team
  let T := sv.team view.team
  let (fa, fb) := matTypes types
  let slots := sb :: (sa.toList ++ rows.filterMap fun r => r.map (·.1))
  let int := (types == 4 || types == 6) && slots.all fun x => !(T.binding x).valid
  let keyOf := fun t => (sv.scratchKey cl view.team (t * 8192)).getD 0
  let aScale := (natsFrom 0 64).map fun i =>
    match sa, nth none rows i with
    | some t, _ => sv.latchRow cl T t i fa.count
    | none, some (t, r) => sv.latchRow cl T t r fa.count
    | none, none => none
  let gathered := match sa with
    | some _ => []
    | none => rows.map fun r => r.map fun (x : Nat × Nat) => s.mem.read (keyOf x.1 + 128 * x.2) 128
  let kind := MatKind.product types zero int (sa.map keyOf) gathered (keyOf sb)
    (sa.getD 128) sb aScale
    ((natsFrom 0 64).map fun j => sv.latchRow cl T sb j fb.count)
  let s1 := s.addMatOp c view acc kind
  if zero then s1.onGang c.gang fun G => { G with accs := G.accs.modify acc fun t => { t with int32 := int } } else s1

/-- A matrix word can issue: its port is free of every gang's word, its accumulator of all but products, its gang's scale
loads are done (R180, R182, R194). -/
def State.productReady (s : State) (acc : Nat) (c : IssueCtx) : Bool :=
  !(s.matOps.any fun o => partKey o.gang == partKey c.gang && o.waiting && decide (o.sn < c.since * 64)) &&
  s.accSettled c acc false && s.scalesSettled c

/-- MMA (R195). -/
def execMma (f : FmtMma) (s : State) : Out :=
  let types := f.types.toNat
  let acc := f.acc.toNat
  let zero := f.z == 1#1
  s.gangWide
    { word := { shape := { latch := false }, k := f.k }
      deny := 4
      check := fun c view _ sv =>
        if 10 ≤ types then gangCause c 1 (f.toWord 0x25) (BitVec.ofNat 32 c.pos)
        else
          sv.productCause c view acc zero false types
            [⟨f.sa.toNat, none, BitVec.ofNat 32 f.sa.toNat, 0, (matTypes types).1⟩,
             ⟨f.sb.toNat, none, BitVec.ofNat 32 f.sb.toNat, 1, (matTypes types).2⟩]
      ready := fun c s => s.productReady acc c
      act := fun c view _ s => (.done 0, s.issueProduct c view acc zero types (some f.sa.toNat) [] f.sb.toNat) }

/-- No scratch write of the gang from before the chain is still to be performed (R194, R196). -/
def State.gatherReady (s : State) (c : IssueCtx) : Bool :=
  !(s.accesses.any fun a => a.gang == c.gang && isScratchKey a.pa && decide (a.sn < c.since * 64) &&
    (match a.kind with | .load _ _ => false | _ => true)) &&
  !(s.matOps.any fun o => o.gang == c.gang && decide (o.sn < c.since * 64) &&
    (match o.kind with | .astore _ _ => true | _ => false))

/-- MMAG (R196): A's rows are gathered through a row group of indexes, in ascending lane order for the checks. -/
def execMmag (f : FmtMmag) (s : State) : Out :=
  let types := f.types.toNat
  let acc := f.acc.toNat
  let zero := f.z == 1#1
  let n := f.vi.toNat
  let width := s.gangNow.width
  let rowOf := fun (view : Gang) (lanes : DWord) i =>
    (rowValue view lanes n i).map fun v => (bitsOf v.toNat 8 7, bitsOf v.toNat 0 6)
  s.gangWide
    { word := { shape := { latch := false }, k := f.k }
      reads := rowRegs n width
      deny := 4
      check := fun c view _ sv =>
        if 10 ≤ types then gangCause c 1 (f.toWord 0x26) (BitVec.ofNat 32 c.pos)
        else
          let order := (laneList c.lanes).flatMap fun l => (natsFrom 0 (64 / view.width)).map fun k => k * view.width + l
          let gathered := order.filterMap fun i => (rowValue view c.lanes n i).map fun v =>
            (⟨bitsOf v.toNat 8 7, some (bitsOf v.toNat 0 6), v, BitVec.ofNat 32 i, (matTypes types).1⟩ : MatOperand)
          sv.productCause c view acc zero true types
            (gathered ++ [⟨f.sb.toNat, none, BitVec.ofNat 32 f.sb.toNat, 64, (matTypes types).2⟩])
      ready := fun c s => s.productReady acc c && s.gatherReady c
      act := fun c view _ s =>
        (.done 0, s.issueProduct c view acc zero types none ((natsFrom 0 64).map (rowOf view c.lanes)) f.sb.toNat) }

/-! ## Acceptance and completion of products -/

/-- An operation writes scratch space. -/
def MatOp.writesScratch (o : MatOp) : Bool := match o.kind with | .astore _ _ => true | _ => false

/-- The keys lie in a common slot. -/
def sameSlot (a b : Nat) : Bool := a / 8192 == b / 8192

/-- Nothing that the gang issued before an operation stands in the way of its reading, or writing, some slots (R194). -/
def State.scratchClear (s : State) (g sn : Nat) (keys : List Nat) (writes : Bool) : Bool :=
  !(s.accesses.any fun a => a.gang == g && decide (a.sn < sn) && keys.any (sameSlot a.pa) &&
    (writes || (match a.kind with | .load _ _ => false | _ => true))) &&
  !(s.matOps.any fun o => o.gang == g && decide (o.sn < sn) && (writes || o.writesScratch) &&
    o.kind.keys.any fun k => keys.any (sameSlot k))

/-- No operation of the gang on the same accumulator issued earlier and has not completed (R182). -/
def State.accFirst (s : State) (o : MatOp) : Bool :=
  !(s.matOps.any fun x => x.gang == o.gang && x.acc == o.acc && decide (x.sn < o.sn))

/-- The array of a core is occupied (R181). -/
def State.arrayBusy (s : State) (core : Nat) : Bool :=
  s.matOps.any fun o => coreOf o.gang == core && o.accepted && decide ((s.clk - o.start).toNat < o.busy)

/-- The words that wait for a core's array and whose operands can be read. -/
def State.arrayWaiting (s : State) (core : Nat) : List MatOp :=
  s.matOps.filter fun o => coreOf o.gang == core && o.waiting && s.scratchClear o.gang o.sn o.kind.keys false

/-- The word that a core's array accepts next: round-robin by partition, from the one after the last (R180). -/
def State.arrayNextOp (s : State) (core : Nat) : Option MatOp :=
  let last := s.arrayNext.get 7 core
  (sortBy (fun o => (partOf o.gang + 8 - (last + 1) % 8) % 8) (s.arrayWaiting core)).head?

/-- The tag under which the array retains a slot: team, team slot and its data generation now (R181). -/
def State.slotTag (s : State) (team slot : Nat) : Nat × Nat × Nat := (team, slot, (s.team team).dgen slot)

/-- The bytes that the array fetches for an operand in one place (R181): none where the retained slot's tag matches. -/
def State.fetchBytes (s : State) (core place : Nat) (key : Nat) (tag : Nat × Nat × Nat) : Nat :=
  if s.retained.find? (core * 2 + place) = some tag then 0
  else if (key - 2 ^ 52) / 2 ^ 20 = core then 8192 else 16384

/-- ARRAY_ACCEPT: the array of a core takes a waiting matrix word; it is occupied for max(C, ⌈F / 1,024⌉) clk, and the slots
that it fetches are retained (R180, R181). -/
def execArrayAccept (core : Nat) (s : State) : Out :=
  if s.arrayBusy core then .next s else
  match s.arrayNextOp core with
  | none => .next s
  | some o =>
    match o.kind with
    | .product types _ _ aKey _ bKey aTag bTag _ _ =>
      let fa := match aKey with | some k => s.fetchBytes core 0 k (s.slotTag o.team aTag) | none => 0
      let fetch := fa + s.fetchBytes core 1 bKey (s.slotTag o.team bTag)
      let busy := max (if types = 9 then 16 else 8) ((fetch + 1023) / 1024)
      let o' := { o with accepted := true, start := s.clk, busy := busy }
      let r1 := match aKey with
        | some _ => s.retained.put (core * 2) (s.slotTag o.team aTag)
        | none => s.retained
      .next { s with
        matOps := s.matOps.map fun x => if x.sn = o.sn then o' else x
        arrayNext := s.arrayNext.set 7 core (partOf o.gang)
        retained := r1.put (core * 2 + 1) (s.slotTag o.team bTag) }
    | _ => .next s

/-- Rows of 128 bytes. -/
def rowsOf : Nat → List Byte → List (List Byte)
  | 0, _ => []
  | n + 1, bs => bs.take 128 :: rowsOf n (bs.drop 128)

/-- Rows of 128 places: for each byte, with the values that it has had since the word issued. -/
def altRows (key : Nat) (olds : SMap (List Byte)) (rows : List (List Byte)) : List (List (Byte × List Byte)) :=
  mapNumbered (fun r bs => mapNumbered (fun k b => (b, if olds.isEmpty then [] else olds.get [] (key + 128 * r + k))) 0 bs) 0 rows

/-- A row as an element of the accumulator meets it: a byte that has been written since the word issued is one of its old values or
the new one (R193); which is free. -/
def mixRow (n : Nat) (row : List (Byte × List Byte)) : List Byte :=
  mapNumbered (fun k (e : Byte × List Byte) =>
    if e.2.isEmpty then e.1 else nth e.1 e.2 (Config.pick (n + k) % (e.2.length + 1))) 0 row

/-- What a product needs of one element: the formats, the path, the rows and their scales. -/
structure Product where
  types : Nat
  zero : Bool
  int : Bool
  a : List (Option (List (Byte × List Byte)))
  b : List (List (Byte × List Byte))
  aScale : List (Option RowScale)
  bScale : List (Option RowScale)
  free : Nat

/-- An element of the accumulator after a product; an absent row adds nothing (R76, R77, R196). -/
def Product.element (p : Product) (i j : Nat) (acc : Word) : FRes :=
  let acc0 := if p.zero then 0#32 else acc
  match nth none p.a i with
  | some row =>
    let (fa, fb) := matTypes p.types
    let n := p.free + (64 * i + j) * 256
    let a := fa.raw (mixRow n row)
    let b := fb.raw (mixRow (n + 128) (nth [] p.b j))
    if p.int then ⟨(intElement (a.map fa.int) (b.map fb.int) acc0).toNat, []⟩
    else matElement fa.count (a.map fa.value) (b.map fb.value) (nth none p.aScale i) (nth none p.bScale j) acc0
  | none => if p.int then ⟨acc0.toNat, []⟩ else matElement 1 [] [] none none acc0

/-- The records of a matrix instruction that completes: one for each cause, with the gang's lanes and the packet of the word; where its FPC
has TRAPERR, the lanes that still run take the trap now (R78, R80, R84). -/
def State.logMatrix (s : State) (o : MatOp) (causes : List Nat) : State :=
  match s.gangs.find? o.gang with
  | none => s
  | some G =>
    let item := fun code => (⟨o.sn / 64, code, o.m0, o.pc, true, if o.trapAll then o.m0 else 0, 0⟩ : LogItem)
    [fpInvalid, fpOverflow].foldl (fun s code =>
      if causes.contains code then
        let traps := laneSet ((item code).trapLanes G)
        (s.onGang o.gang fun G => { G with logs := G.logs ++ [{ item code with trap := traps }] }).trapLogged o.gang code traps o.pc
          (o.pc)
      else s) s

/-- The state with an accumulator written. -/
def State.setAcc (s : State) (g acc : Nat) (f : AccTile → AccTile) : State :=
  s.onGang g fun G => { G with accs := G.accs.modify acc f }

/-- The accumulator of an operation. -/
def State.accOf (s : State) (g acc : Nat) : AccTile :=
  match s.gangs.find? g with | some G => G.accs.get ⟨false, []⟩ acc | none => ⟨false, []⟩

/-- MATRIX_COMPLETE: an accepted product, 12 clk after its occupancy, writes its accumulator and completes (R76, R77, R182,
R193). -/
def execMatrixComplete (i : Nat) (s : State) : Out :=
  match s.matOps.find? fun o => o.sn == i with
  | none => .next s
  | some o =>
    match o.kind with
    | .product types zero int aKey aRows bKey _ _ aScale bScale =>
      if !o.accepted || !s.accFirst o || decide ((s.clk - o.start).toNat < o.busy + 12) then .next s else
      let p : Product :=
        { types := types, zero := zero, int := int
          a := match aKey with
            | some k => (altRows k o.olds (rowsOf 64 (s.mem.read k 8192))).map some
            | none => aRows.map fun r => r.map fun bs => bs.map fun b => (b, [])
          b := altRows bKey o.olds (rowsOf 64 (s.mem.read bKey 8192))
          aScale := aScale, bScale := bScale, free := s.free }
      let tile := s.accOf o.gang o.acc
      let rs := (natsFrom 0 4096).map fun n => p.element (n / 64) (n % 64) (tile.elems.get 0 n)
      let s1 := { s with
        matOps := s.matOps.filter fun x => x.sn != o.sn
        free := if o.olds.isEmpty then s.free else s.free + 4096 * 256 }
      let s2 := s1.setAcc o.gang o.acc fun t => { t with elems := elemsFrom 0 (rs.map fun r => BitVec.ofNat 32 r.bits) }
      .next (s2.logMatrix o (rs.flatMap (·.causes)))
    | _ => .next s

/-! ## ACC forms -/

/-- The register word of an ACC or SCALE form. -/
def tileForm (f : FmtA) (a d dst : Use) : WordSpec :=
  { shape := { d := d, a := a, dst := dst }, fd := f.d.toNat, fa := f.a.toNat, h := f.h.toNat, k := f.k }

/-- The accumulator that an ACC form names (R197). -/
def accNo (f : FmtA) : Nat := f.b.toNat % 4

/-- The tiles that a gang holds or has reserved in its partition (R185). -/
def Gang.tiles (G : Gang) : Nat := max G.accs.length G.accRes

/-- A gang may map another tile: one of its reservation, or one that no gang holds or has reserved (R185). -/
def State.tileFree (s : State) (g : Nat) : Bool :=
  match s.gangs.find? g with
  | none => false
  | some G =>
    let others := s.gangs.filter fun e => partKey e.1 == partKey g && e.1 != g
    let total := fun (f : Gang → Nat) => (others.map fun e => f e.2).foldl (· + ·) 0
    decide (total (·.accs.length) + G.accs.length < 4) &&
      (decide (G.accs.length < G.accRes) || decide (total Gang.tiles + G.accs.length < 4))

/-- A tile mapped for a gang, its elements +0 in fp32 mode (R185). -/
def State.mapTile (s : State) (g acc : Nat) : State :=
  { s.onGang g fun G => { G with accs := G.accs.put acc ⟨false, []⟩ } with
    poison := s.poison.filter fun d => match d with | .accElem g' a _ => !(g' == g && a == acc) | _ => true
    aacqQueue := s.aacqQueue.filter (· != (g, acc)) }

/-- AACQ: maps a free tile, or blocks until one is free (R185). -/
def execAacq (f : FmtA) (s : State) : Out :=
  let acc := accNo f
  s.gangWide
    { word := tileForm f .unused .unused .unused
      ready := fun c s => s.portFree c
      act := fun c _ _ s =>
        let held := match s.gangs.find? c.gang with | some G => (G.accs.find? acc).isSome | none => false
        let waiting := s.aacqQueue.filter fun e => partKey e.1 == partKey c.gang
        let mine := match s.gangs.find? c.gang with | some G => decide (G.accs.length < G.accRes) | none => false
        if held then (.done 0, s)
        else if s.tileFree c.gang && (mine || waiting.isEmpty || waiting.head? == some (c.gang, acc)) then
          (.done 0, s.mapTile c.gang acc)
        else (.waits (.aacq acc), if waiting.contains (c.gang, acc) then s else { s with aacqQueue := s.aacqQueue ++ [(c.gang, acc)] }) }

/-- ACC_TILE_GRANT: the AACQ of a partition that has waited longest gets the freed tile (R185). -/
def execAccTileGrant (g : Nat) (s : State) : Out :=
  match (s.aacqQueue.filter fun e => partKey e.1 == partKey g).head? with
  | none => .next s
  | some (g', acc) =>
    if g' = g ∧ s.tileFree g then .next ((s.mapTile g acc).grantWaiters g (fun w => w == .aacq acc) 0) else .next s

/-- AREL: waits for the class-A work on the accumulator, then unmaps its tile (R185). -/
def execArel (f : FmtA) (s : State) : Out :=
  let acc := accNo f
  s.gangWide
    { word := tileForm f .unused .unused .unused
      ready := fun c s => s.portFree c && s.accSettled c acc true
      act := fun c _ _ s => (.done 0, s.onGang c.gang fun G => { G with accs := G.accs.erase acc }) }

/-- An ACC form on a held accumulator (R197): its further causes and its effect, once earlier class-A work on the accumulator
is complete. -/
def accForm (w : WordSpec) (reads writes : List Nat) (acc deny : Nat)
    (check : IssueCtx → Gang → (Nat → Vals) → AccTile → State → Option Cause)
    (ready : IssueCtx → State → Bool)
    (act : IssueCtx → Gang → (Nat → Vals) → State → Option State) (s : State) : Out :=
  s.gangWide
    { word := w, reads := reads, writes := writes, deny := deny
      check := fun c view vals sv =>
        match view.accs.find? acc with
        | none => gangCause c 8 0 0
        | some tile => check c view vals tile sv
      ready := fun c s => s.portFree c && s.accSettled c acc true && ready c s
      act := fun c view vals s =>
        match act c view vals s with
        | some s1 => (.done 0, s1)
        | none => (.waits .scaleReg, s) }

/-- AZERO and AZERO.i: every element 0, the mode fp32 or INT32 (R198). -/
def execAzero (f : FmtA) (s : State) : Out :=
  accForm (tileForm f .unused .unused .unused) [] [] (accNo f) 3 (fun _ _ _ _ _ => none) (fun _ _ => true)
    (fun c view _ s => some (s.addMatOp c view (accNo f) (.azero (bitsOf f.b.toNat 2 1 == 1)))) s

/-- The rows of a lane with their group numbers: row k × W + l of lane l. -/
def laneRows (width l : Nat) : List (Nat × Nat) := (natsFrom 0 (64 / width)).map fun k => (k, k * width + l)

/-- AMOV: register vD + k of lane l := the raw element (k W + l, its column), class L (R199). A lane that reads a poisoned
element raises POISON (R243). -/
def execAmov (f : FmtA) (s : State) : Out :=
  let acc := accNo f
  let n := f.d.toNat
  accForm (tileForm f .reg .unused .unused) [] (rowRegs n s.gangNow.width) acc 3
    (fun c view vals _ sv =>
      let bad := (laneList c.lanes).filter fun l => (laneRows view.width l).any fun r =>
        sv.poison.contains (.accElem c.gang acc (64 * r.2 + (vals l).a32.toNat % 64))
      if bad.isEmpty then none else some ⟨11, 0, 0, laneSet bad, 0⟩)
    (fun _ _ => true)
    (fun c view vals s =>
      let tile := s.accOf c.gang acc
      some { s with
        pending := s.pending ++ (laneList c.lanes).map fun l =>
          (⟨s.sn * 64 + l, c.gang, l, n, some ((laneRows view.width l).map fun r => tile.elem r.2 ((vals l).a32.toNat % 64)),
            none⟩ : Pending)
        sn := s.sn + 1 }) s

/-- AMOVIN: element (k W + l, its column) := register vS + k of lane l, in ascending lane order (R199). -/
def execAmovin (f : FmtA) (s : State) : Out :=
  let n := f.d.toNat
  accForm (tileForm f .reg .unused .unused) (rowRegs n s.gangNow.width) [] (accNo f) 3 (fun _ _ _ _ _ => none) (fun _ _ => true)
    (fun c view vals s =>
      some (s.addMatOp c view (accNo f) (.movin ((laneList c.lanes).flatMap fun l =>
        (laneRows view.width l).map fun r =>
          (64 * r.2 + (vals l).a32.toNat % 64, (rowValue view c.lanes n r.2).getD 0))))) s

/-- ASCALE: every element of row i times 2^e_i (R200); TILE_FORMAT in INT32 mode. H = 01 pushes what it reads for A, each lane's register of
the group's first row (R16, R197). -/
def execAscale (f : FmtA) (s : State) : Out :=
  let n := f.a.toNat
  accForm (tileForm f (if n < 56 then .reg else .unused) .unused .unused) (rowRegs n s.gangNow.width) [] (accNo f) 3
    (fun c _ _ tile sv =>
      if tile.int32 then gangCause c 10 0 0
      else if sv.accPoisoned c.gang (accNo f) then gangCause c 11 0 0 else none)
    (fun _ _ => true)
    (fun c view _ s =>
      some (s.addMatOp c view (accNo f) (.ascale ((natsFrom 0 64).map fun i => (rowValue view c.lanes n i).getD 0)))) s

/-- The target of ASTORE: slot, half and scale register (R201). -/
structure StoreTarget where
  slot : Nat
  half : Nat
  sreg : Nat
deriving DecidableEq, Repr

/-- The target that A names. -/
def storeTarget (v : Vals) : StoreTarget := ⟨v.a32.toNat % 128, bitsOf v.a32.toNat 7 1, bitsOf v.a32.toNat 8 6⟩

/-- What an ASTORE writes to a slot's row, from the row's elements (Table 8.4): offset in the slot, bytes, causes. -/
def storeRow (fmt half i : Nat) (ws : List Word) : List (Nat × List Byte) × List Nat × Int :=
  let conv := fun (x : Fmt) => ws.map fun w => storeElement x (fp32.decode w.toNat)
  match fmt with
  | 0 => ([(128 * i, (ws.take 32).flatMap fun w => leBytes 4 w.toNat),
           (8192 + 128 * i, (ws.drop 32).flatMap fun w => leBytes 4 w.toNat)], [], 0)
  | 1 => ([(128 * i, (conv bf16).flatMap fun r => leBytes 2 r.bits)], (conv bf16).flatMap (·.causes), 0)
  | 2 => ([(128 * i, (conv fp16).flatMap fun r => leBytes 2 r.bits)], (conv fp16).flatMap (·.causes), 0)
  | _ =>
    let (e, rs) := storeRowE4m3 (ws.map fun w => fp32.decode w.toNat)
    ([(128 * i + 64 * half, rs.map fun r => BitVec.ofNat 8 r.bits)], rs.flatMap (·.causes), e)

/-- The binding of a slot with VALID cleared. -/
def Team.unbind (T : Team) (t : Nat) : Team :=
  { T with bindings := T.bindings.set Binding.blank t { T.binding t with valid := false } }

/-- The team with a slot bound afresh to a scale register (R202, R206). -/
def Team.bind (T : Team) (t blen fmt n : Nat) : Team :=
  let b : Binding := ⟨true, false, blen, fmt, n, (T.rename n).gen, T.dgen t⟩
  { T with bindings := T.bindings.set Binding.blank t b }

/-- ASTORE's effect at issue (R201, R202): the rows are converted, the data generations advance, the bindings are written,
and for E4M3 the scales; the bytes are performed when the word completes. -/
def State.issueStore (s : State) (c : IssueCtx) (view : Gang) (acc fmt : Nat) (x : StoreTarget) : Option State :=
  let cl := clusterOf c.gang
  let tile := s.accOf c.gang acc
  let keyOf := fun o => (s.scratchKey cl view.team (x.slot * 8192 + o)).getD 0
  let rows := (natsFrom 0 64).map fun i => storeRow fmt x.half i ((natsFrom 0 64).map (tile.elem i))
  let writes := rows.flatMap fun r => r.1.map fun (y : Nat × List Byte) => (keyOf y.1, y.2)
  let slots := if fmt = 0 then [x.slot, x.slot + 1] else [x.slot]
  let s1 := s.bumpSlots view.team slots
  let queued := fun (s : State) => s.addMatOp c view acc (.astore writes (rows.flatMap fun r => r.2.1))
  if fmt ≠ 3 then
    some (queued { s1 with teams := s1.teams.modify view.team fun T => slots.foldl Team.unbind T })
  else
    let scales := rows.map fun r => BitVec.ofInt 8 (127 + r.2.2)
    (s1.writeScale cl view.team (coreOf c.gang) x.sreg false fun m =>
      (mapNumbered (fun i b => (2 * i + x.half, b)) 0 scales).foldl (fun m e => m.set 0#8 e.1 e.2) m).map fun s2 =>
      queued { s2 with teams := s2.teams.modify view.team (Team.bind · x.slot 2 0 x.sreg) }

/-- ASTORE (R201, R202): SCRATCH_NOT_HELD for a slot that is not covered, TILE_FORMAT in INT32 mode unless `.f32`. -/
def execAstore (f : FmtA) (s : State) : Out :=
  let fmt := f.b.toNat / 8
  accForm (tileForm f .reg .unused .unused) [] [] (accNo f) 4
    (fun c view vals tile sv =>
      let x := storeTarget (vals (lowestLane c.lanes))
      let slots := if fmt = 0 then [x.slot, x.slot + 1] else [x.slot]
      if 4 ≤ fmt then gangCause c 1 (f.toWord 0x27 6) (BitVec.ofNat 32 c.pos)
      else if slots.any fun t => (sv.scratchKey (clusterOf c.gang) view.team (t * 8192)).isNone then gangCause c 6 0 0
      else if fmt ≠ 0 ∧ tile.int32 then gangCause c 10 0 0
      else if sv.accPoisoned c.gang (accNo f) || slots.any (sv.handlePoisoned view.team) then gangCause c 11 0 0
      else none)
    (fun c s => s.scalesSettled c)
    (fun c view vals s => s.issueStore c view (accNo f) fmt (storeTarget (vals (lowestLane c.lanes)))) s

/-- ALOAD and ALOAD.i (R203): SCRATCH_NOT_HELD if either slot is not covered. -/
def execAload (f : FmtA) (s : State) : Out :=
  let slotOf := fun (c : IssueCtx) (vals : Nat → Vals) => (vals (lowestLane c.lanes)).a32.toNat % 128
  let keyOf := fun (s : State) (c : IssueCtx) (view : Gang) t => s.scratchKey (clusterOf c.gang) view.team (t * 8192)
  accForm (tileForm f .reg .unused .unused) [] [] (accNo f) 4
    (fun c view vals _ sv =>
      let t := slotOf c vals
      match keyOf sv c view t, keyOf sv c view (t + 1) with
      | some k0, some k1 =>
        if sv.handlePoisoned view.team t || sv.handlePoisoned view.team (t + 1) ||
           sv.poison.any (fun d => match d with | .unit u => sameSlot u k0 || sameSlot u k1 | _ => false) then
          gangCause c 11 0 0
        else none
      | _, _ => gangCause c 6 0 0)
    (fun _ _ => true)
    (fun c view vals s =>
      let t := slotOf c vals
      some (s.addMatOp c view (accNo f)
        (.aload (bitsOf f.b.toNat 2 1 == 1) ((keyOf s c view t).getD 0) ((keyOf s c view (t + 1)).getD 0)))) s

/-- What an accumulator form does when it completes: the state, the new tile, whether its poison is cleared, its causes. -/
def State.accResult (s : State) (o : MatOp) (t : AccTile) : State × AccTile × Bool × List Nat :=
  match o.kind with
  | .azero i => (s, ⟨i, []⟩, true, [])
  | .movin ws => (s, ws.foldl (fun t e => t.setElem e.1 e.2) t, false, [])
  | .ascale es =>
    let rs := (natsFrom 0 4096).map fun n => scaleElement (t.elems.get 0 n) (nth 0#32 es (n / 64)).toInt
    (s, { t with elems := elemsFrom 0 (rs.map fun r => BitVec.ofNat 32 r.bits) }, false, rs.flatMap (·.causes))
  | .astore ws cs =>
    let s1 := ws.foldl (fun s e =>
      let s1 := (s.performBytes (some (coreOf o.gang)) e.1 e.2).orderOlds o.gang o.sn e.1 e.2.length
      { s1 with poison := s1.poison.filter fun d =>
          match d with | .unit u => !decide (e.1 ≤ u ∧ u + 16 ≤ e.1 + e.2.length) | _ => true }) s
    (s1, t, false, cs)
  | .aload i k0 k1 =>
    let ws := (natsFrom 0 64).flatMap fun r =>
      (words4 (s.mem.read (k0 + 128 * r) 128) ++ words4 (s.mem.read (k1 + 128 * r) 128)).map (BitVec.ofNat 32)
    (s, ⟨i, elemsFrom 0 ws⟩, true, [])
  | _ => (s, t, false, [])

/-- ACC_OP_COMPLETE: a class-A accumulator form takes effect and releases its accumulator (R18, R194, R198 to R203). -/
def execAccOpComplete (i : Nat) (s : State) : Out :=
  match s.matOps.find? fun o => o.sn == i with
  | none => .next s
  | some o =>
    if (match o.kind with | .product _ _ _ _ _ _ _ _ _ _ => true | _ => false) || !s.accFirst o ||
       !s.scratchClear o.gang o.sn o.kind.keys o.writesScratch then .next s else
    let (s1, t, cured, cs) := s.accResult o (s.accOf o.gang o.acc)
    let s2 := { s1.setAcc o.gang o.acc fun _ => t with
      matOps := s1.matOps.filter fun x => x.sn != o.sn
      poison := if cured then
          s1.poison.filter fun d => match d with | .accElem g a _ => !(g == o.gang && a == o.acc) | _ => true
        else s1.poison }
    .next (s2.logMatrix o cs)

/-! ## SCALE forms -/

/-- The scale register that the B literal names. -/
def scaleNo (f : FmtA) : Nat := f.b.toNat % 64

/-- A SCALE form that issues when the port is free and the gang's scale loads are done (R180, R194). -/
def scaleForm (w : WordSpec) (check : IssueCtx → Gang → (Nat → Vals) → State → Option Cause)
    (act : IssueCtx → Gang → (Nat → Vals) → State → Effect × State) (s : State) : Out :=
  s.gangWide { word := w, check := check, ready := fun c s => s.portFree c && s.scalesSettled c, act := act }

/-- A SCALE form that writes sN with the bytes a function gives for each byte of sN and of sM as they stood before the word's
chain (R22, R188, R189). -/
def scaleWrite (w : WordSpec) (n m : Nat) (readsN : Bool) (f : (Nat → Vals) → IssueCtx → Byte → Byte → Byte) (s : State) : Out :=
  scaleForm w
    (fun c view _ sv =>
      let T := sv.team view.team
      if (readsN && sv.scalePoisoned (clusterOf c.gang) T n) || sv.scalePoisoned (clusterOf c.gang) T m then
        gangCause c 11 0 0
      else none)
    (fun c view vals s =>
      let cl := clusterOf c.gang
      let sv := s.beforeChain c view.team
      let T := sv.team view.team
      let xn := scaleList (sv.scaleBytes cl T n)
      let xm := scaleList (sv.scaleBytes cl T m)
      match s.writeScale cl view.team (coreOf c.gang) n true fun _ => scaleTable 0 (List.zipWith (f vals c) xn xm) with
      | some s1 => (.done 0, s1)
      | none => (.waits .scaleReg, s)) s

/-- E8M0 x + a, clamped; NaN stays (R207). -/
def addScale (x : Byte) (a : Int) : Byte :=
  if x = 0xFF#8 then x else BitVec.ofInt 8 (max 0 (min 0xFE ((x.toNat : Int) + a)))

/-- SADD: adds an int32 to every byte of sN read as E8M0 (R207). -/
def execSadd (f : FmtA) (s : State) : Out :=
  scaleWrite (tileForm f .reg .unused .unused) (scaleNo f) (scaleNo f) true
    (fun vals c x _ => addScale x (vals (lowestLane c.lanes)).a32.toInt) s
/-- SMAX: the larger of the bytes of sN and sM (R207). -/
def execSmax (f : FmtA) (s : State) : Out :=
  scaleWrite (tileForm f .unused .unused .unused) (scaleNo f) (f.a.toNat % 64) true
    (fun _ _ x y => if x.toNat < y.toNat then y else x) s
/-- SMOV: sN := sM (Table 8.5). -/
def execSmov (f : FmtA) (s : State) : Out :=
  scaleWrite (tileForm f .unused .unused .unused) (scaleNo f) (f.a.toNat % 64) false (fun _ _ _ y => y) s

/-- The register word of SUNBIND or SCVT. -/
def tileFormS (f : FmtS) (a : Use) : WordSpec :=
  { shape := { a := a }, fa := f.a.toNat, h := f.h.toNat, k := f.k }

/-- E8M0 to UE5M3 (R208). -/
def toUe5m3 (x : Byte) : Byte :=
  if x = 0xFF#8 then x else
  let k : Int := (x.toNat : Int) - 127
  if 16 < k then 0xFF#8
  else if k < -17 then 0#8
  else if k < -14 then BitVec.ofNat 8 (2 ^ (k + 17).toNat)
  else BitVec.ofNat 8 (8 * (k + 15).toNat)

/-- UE5M3 to E8M0 (R208). -/
def toE8m0 (x : Byte) : Byte :=
  let e := x.toNat / 8
  let fr := x.toNat % 8
  if x = 0#8 then 0#8
  else if e = 0 then
    let k := Nat.log2 fr
    BitVec.ofNat 8 (110 + k + (if 3 * 2 ^ k ≤ 2 * fr then 1 else 0))
  else BitVec.ofNat 8 (112 + e + (if 4 ≤ fr then 1 else 0))

/-- SCVT.ue5m3 (R208). -/
def execScvtUe5m3 (f : FmtS) (s : State) : Out :=
  scaleWrite (tileFormS f .unused) (f.b.toNat % 64) (f.a.toNat % 64) false (fun _ _ _ y => toUe5m3 y) s
/-- SCVT.e8m0 (R208). -/
def execScvtE8m0 (f : FmtS) (s : State) : Out :=
  scaleWrite (tileFormS f .unused) (f.b.toNat % 64) (f.a.toNat % 64) false (fun _ _ _ y => toE8m0 y) s

/-- SBIND: binds the slot to sN with its generations as they stood before the chain (R206). -/
def execSbind (f : FmtA) (s : State) : Out :=
  let blen := f.d.toNat % 4
  scaleForm (tileForm f .reg .unused .unused)
    (fun c _ _ _ => if blen = 3 then gangCause c 1 (f.toWord 0x28 2) (BitVec.ofNat 32 c.pos) else none)
    (fun c view vals s =>
      let sv := (s.beforeChain c view.team).team view.team
      let t := (vals (lowestLane c.lanes)).a32.toNat % 128
      let n := scaleNo f
      let b : Binding := ⟨true, false, blen, bitsOf f.d.toNat 2 1, n, (sv.rename n).gen, sv.dgen t⟩
      (.done 0, { s with teams := s.teams.modify view.team fun T => { T with bindings := T.bindings.set Binding.blank t b } })) s

/-- SUNBIND: VALID := 0 for the slot (R206). -/
def execSunbind (f : FmtS) (s : State) : Out :=
  scaleForm (tileFormS f .reg) (fun _ _ _ _ => none)
    (fun c view vals s =>
      (.done 0, { s with teams := s.teams.modify view.team (Team.unbind · ((vals (lowestLane c.lanes)).a32.toNat % 128)) })) s

/-- A scale register is unmapped and its physical register freed (R188, R206). -/
def State.freeScale (s : State) (cl team n : Nat) : State :=
  let r := (s.team team).rename n
  if !r.mapped then s else
  { s with
    scaleRegs := s.scaleRegs.erase (r.phys cl)
    teams := s.teams.modify team fun T =>
      { T with renames := T.renames.set Rename.blank n { r with mapped := false, core := 0, preg := 0 } } }

/-- SUNBIND.reg: waits for the gang's class-A work, then unmaps sN (R206). -/
def execSunbindReg (f : FmtS) (s : State) : Out :=
  s.gangWide
    { word := tileFormS f .unused
      ready := fun c s => s.portFree c && s.scalesSettled c &&
        !(s.matOps.any fun o => o.gang == c.gang && decide (o.sn < c.since * 64))
      act := fun c view _ s => (.done 0, s.freeScale (clusterOf c.gang) view.team (f.b.toNat % 64)) }

/-- A binding entry as a word (Table 8.2). -/
def Binding.word (b : Binding) : Nat :=
  (if b.valid then 2 ^ 31 else 0) + (if b.voided then 2 ^ 30 else 0) + b.blen * 2 ^ 28 + b.fmt * 2 ^ 27 + b.sreg * 2 ^ 20 +
  b.sgen * 2 ^ 12 + b.dgen * 2 ^ 4
/-- A rename-map entry as a word (Table 8.1). -/
def Rename.word (r : Rename) : Nat :=
  r.gen * 2 ^ 16 + (if r.mapped then 2 ^ 15 else 0) + r.core * 2 ^ 7 + r.preg

/-- SQRY: D pair := a slot's binding and generations, or a register's rename-map entry (R209). -/
def execSqry (f : FmtA) (s : State) : Out :=
  scaleForm (tileForm f .reg .unused .pair) (fun _ _ _ _ => none)
    (fun c view vals s =>
      let T := (s.beforeChain c view.team).team view.team
      let q := (vals (lowestLane c.lanes)).a32.toNat
      let t := q % 128
      let b := T.binding t
      let v :=
        if bitsOf q 8 1 = 0 then
          b.word + 2 ^ 32 * (T.dgen t * 2 ^ 24 + (T.rename b.sreg).gen * 2 ^ 16 + (if T.stale t then 1 else 0))
        else (T.rename (q % 64)).word
      (.done (BitVec.ofNat 64 v), s)) s

/-! ## SLD and SST -/

/-- The target of SLD and SST (R205). -/
def scaleTarget (store : Bool) : Target :=
  { r := !store, w := store, size := 512, kind := if store then 1 else 0, load := !store, store := store }

/-- The cause of SLD or SST for its address, or the place it reaches (Table 6.2, R205). -/
def State.scalePlace (s : State) (c : IssueCtx) (view : Gang) (vals : Nat → Vals) (store : Bool) : Place' × State :=
  s.locate c.gang (lowestLane c.lanes) view (s.ctxOf c.gang) (scaleTarget store) (vals (lowestLane c.lanes)).a

/-- The causes of SLD and SST. -/
def scaleCause (store : Bool) (c : IssueCtx) (view : Gang) (vals : Nat → Vals) (sv : State) : Option Cause :=
  let va := (vals (lowestLane c.lanes)).a
  match (sv.scalePlace c view vals store).1 with
  | .cause _ code => some ⟨code, loOf va, hiOf va, laneBit (lowestLane c.lanes), if store then 1 else 0⟩
  | _ => none

/-- The cause with which lanes in regions leave SLD or SST (Table 9.1 rows 2 and 3). -/
def State.scaleDeny (s : State) (f : FmtA) : Nat :=
  match s.ctx with
  | none => 3
  | some c =>
    let t := (c.pre.getD s.gangNow).thread (lowestLane c.lanes)
    let va := (readField t t .pair f.a.toNat).1
    if va.toNat / 2 ^ 61 = 0 then 3 else 4

/-- A write of sN has a physical register: it is mapped, or the core has a free one (R188). -/
def State.scaleRoom (s : State) (team core n : Nat) : Bool :=
  ((s.team team).rename n).mapped || !(s.freeScales core).isEmpty

/-- SLD: 512 bytes are to be read into sN, which is mapped, if need be, and written as one write when they have returned (R188, R189,
R205). -/
def execSld (f : FmtA) (s : State) : Out :=
  s.gangWide
    { word := tileForm f .pair .unused .unused
      deny := s.scaleDeny f
      check := scaleCause false
      ready := fun c s => s.portFree c && s.scalesSettled c
      act := fun c view vals s =>
        match s.scalePlace c view vals false with
        | (.at_ key _ _, s1) =>
          if !s1.scaleRoom view.team (coreOf c.gang) (scaleNo f) then (.waits .scaleReg, s1)
          else
            let l := lowestLane c.lanes
            (.done 0, { s1 with
              scaleLoads := s1.scaleLoads ++
                [⟨s1.sn * 64 + l, c.gang, l, view.team, scaleNo f, key, (s1.thread c.gang l).gate c, []⟩]
              sn := s1.sn + 1 })
        | (_, s1) => (.held, s1) }

/-- SST: sN's 512 bytes are stored by the lowest lane's thread, as accesses of eight bytes each: the 512 are no single copy (R205). -/
def execSst (f : FmtA) (s : State) : Out :=
  s.gangWide
    { word := tileForm f .pair .unused .unused
      deny := s.scaleDeny f
      check := fun c view vals sv =>
        match scaleCause true c view vals sv with
        | some k => some k
        | none =>
          if sv.scalePoisoned (clusterOf c.gang) (sv.team view.team) (scaleNo f) then gangCause c 11 0 0 else none
      ready := fun c s => s.portFree c && s.scalesSettled c
      act := fun c view vals s =>
        match s.scalePlace c view vals true with
        | (.at_ key _ _, s1) =>
          let l := lowestLane c.lanes
          let sv := s1.beforeChain c view.team
          let data := leNat (scaleList (sv.scaleBytes (clusterOf c.gang) (sv.team view.team) (scaleNo f)))
          let va := (vals l).a
          let s2 := { s1 with
            accesses := s1.accesses ++ (natsFrom 0 64).map fun i =>
              { s1.access c view.team l (va + BitVec.ofNat 64 (8 * i)) (key + 8 * i) 8 .store (data / 2 ^ (64 * i) % 2 ^ 64) .none false true with
                sn := s1.sn * 64 + i }
            sn := s1.sn + 1 }
          (.done 0, s2.bumpSlots view.team (if isScratchKey key then [va.toNat % 2 ^ 20 / 8192] else []))
        | (_, s1) => (.held, s1) }

/-- SCALE_REG_GRANT: a physical scale register of the core is free again; a word of the gang that waits for one goes on
(R188). -/
def execScaleRegGrant (g : Nat) (s : State) : Out :=
  if (s.freeScales (coreOf g)).isEmpty then .next s else .next (s.grantWaiters g (fun w => w == .scaleReg) 0)

end Sys2Proof.Machine
end

