-- ==== Sys2Proof/Machine/Copy.lean ====
section
/-! DEFINITION. The tensor copy engine (14): what an engine reads and writes; TCOPY and TGATHER; the start, the blocks and the
completion of a copy. -/

namespace Sys2Proof.Machine

open Sys2Proof

/-! ## An engine's accesses -/

/-- Where an engine's byte goes: a key, of another package's tensor memory or not; held; or a status (Table 14.5). -/
inductive Spot where
  | at_ (key : Nat) (remote : Bool)
  | held
  | fail (status : Nat)
deriving DecidableEq, Repr

/-- Some handle that covers a physical slot holds an uncorrectable error (R277). -/
def State.slotHandleBad (s : State) (p : Nat) : Bool :=
  s.handles.any fun e => e.2.valid && e.2.poisoned && (e.2.slots (e.1 / 1024)).contains p

/-- An engine's run of n bytes within one 8 KiB block (R347, Table 14.5): scratch through the slots it was given; else through the
context's tables, with the engine bit and the permission it needs. -/
def State.engineSpot (s : State) (ctx : Nat) (slot : Nat → Option Nat) (write : Bool) (va n : Nat) : Spot × State :=
  if va / 2 ^ 61 = 2 then
    match slot (va % 2 ^ 20 / 8192) with
    | none => (.fail 2, s)
    | some p => if s.slotHandleBad p then (.fail 4, s) else (.at_ (slotKey p + va % 8192) false, s)
  else if 3 ≤ va / 2 ^ 61 then (.fail 5, s)
  else
    match s.xlate ctx (BitVec.ofNat 64 va) with
    | (.missing, s1) => (.fail 5, s1)
    | (.held _, s1) => (.held, s1)
    | (.leaf f, s1) =>
      let k := f.key va
      if !f.e || (if write then !f.w || inFlash k else !f.r) then (.fail 2, s1)
      else if k < 2 ^ 50 then
        match s1.regionHome (k / 2 ^ 35) with
        | none => (.fail 3, s1)
        | some h =>
          if h ≠ s1.podIndex ∧ s1.route h 0 = .none then (.fail 3, s1)
          else if k / 2 ^ 35 ≠ s1.podIndex ∧ !s1.aclAdmits h s1.podIndex (s1.tenant ctx) 4 none then (.fail 2, s1)
          else if s1.rebuilding.contains (k / 2 ^ 35) || s1.heldByOther none k n then (.held, s1)
          else (.at_ k false, s1)
      else (.at_ k (keyHome k != s1.podIndex), s1)

/-- A run of bytes with consecutive keys. -/
structure Piece where
  key : Nat
  len : Nat
  remote : Bool
deriving DecidableEq, Repr

/-- A range of bytes as an engine meets it. -/
inductive Span where
  | at_ (ps : List Piece)
  | held
  | fail (status : Nat)
deriving DecidableEq, Repr

/-- An address range cut at its 8 KiB boundaries, within which keys are consecutive; addresses wrap modulo 2^64 (R281). -/
def chunksOf : Nat → Nat → Nat → List (Nat × Nat)
  | 0, _, _ => []
  | fuel + 1, va, n =>
    if n = 0 then [] else
    let m := min n (8192 - va % 8192)
    (va % 2 ^ 64, m) :: chunksOf fuel (va + m) (n - m)

/-- A piece meets poison: a read of any poisoned unit, a write that covers a poisoned unit in part (R141). -/
def State.piecePoisoned (s : State) (write : Bool) (p : Piece) : Bool :=
  !p.remote && s.poison.any fun d => match d with
    | .unit u =>
      decide (u < p.key + p.len ∧ p.key < u + unitSize u) && !(write && decide (p.key ≤ u ∧ u + unitSize u ≤ p.key + p.len))
    | _ => false

/-- An engine's range as far as it goes (R291): the pieces up to the byte of lowest address that meets a cause or is held, and what
stops it there. -/
def State.engineRun (s : State) (ctx : Nat) (slot : Nat → Option Nat) (write : Bool) (va n : Nat) :
    (List Piece × Option (Option Nat)) × State :=
  (chunksOf (n / 8192 + 2) va n).foldl (fun (acc : (List Piece × Option (Option Nat)) × State) c =>
    match acc.1.2 with
    | none =>
      (match acc.2.engineSpot ctx slot write c.1 c.2 with
       | (.fail st, s1) => ((acc.1.1, some (some st)), s1)
       | (.held, s1) => ((acc.1.1, some none), s1)
       | (.at_ k r, s1) =>
         let p : Piece := ⟨k, c.2, r⟩
         if s1.piecePoisoned write p then ((acc.1.1, some (some 4)), s1) else ((acc.1.1 ++ [p], none), s1))
    | some _ => acc) (([], none), s)

/-- An engine's range (R291): the byte of lowest address that meets a cause decides; a package with no route is one. -/
def State.engineSpan (s : State) (ctx : Nat) (slot : Nat → Option Nat) (write : Bool) (va n : Nat) : Span × State :=
  let ((ps, stop), s1) := s.engineRun ctx slot write va n
  if ps.any fun p => p.remote && s1.route (keyHome p.key) 0 == .none then (.fail 3, s1)
  else
    match stop with
    | none => (.at_ ps, s1)
    | some none => (.held, s1)
    | some (some st) => (.fail st, s1)

/-- n free bytes (R7). -/
def State.freeBytes : Nat → State → List Byte × State
  | 0, s => ([], s)
  | n + 1, s =>
    let (v, s1) := s.freeVal
    let (t, s2) := State.freeBytes n s1
    (v.setWidth 8 :: t, s2)

/-- A range of an engine's destination is undefined: every byte of it that is in this package's memory and can be reached holds a free
value; a poisoned unit stays poisoned (R7). -/
def State.undefineRange (s : State) (ctx : Nat) (slot : Nat → Option Nat) (va n : Nat) : State :=
  (chunksOf (n / 8192 + 2) va n).foldl (fun (s : State) c =>
    match s.engineSpot ctx slot true c.1 c.2 with
    | (.at_ k false, s1) =>
      let (bs, s2) := State.freeBytes c.2 s1
      s2.engineBytes k bs
    | (_, s1) => s1) s

/-- The state with the poison of the units that a write covers cleared (R141). -/
def State.cureRange (s : State) (pa n : Nat) : State :=
  if s.poison.isEmpty then s else
  { s with poison := s.poison.filter fun d =>
      match d with | .unit u => !decide (pa ≤ u ∧ u + unitSize u ≤ pa + n) | _ => true }

/-- Bytes that an engine writes at one place. -/
def State.engineWrite (s : State) (pa : Nat) (bytes : List Byte) : State := (s.engineBytes pa bytes).cureRange pa bytes.length

/-! ## Descriptors (Table 14.1) -/

/-- The descriptor in 64 bytes. -/
def parseDesc (b : List Byte) (gather : Bool) : CopyDesc :=
  let v := leNat b
  let f := fun off n => bitsOf v (8 * off) (8 * n)
  let fmt := f 0x32 1
  let sctl := f 0x33 1
  { src := BitVec.ofNat 64 (f 0 8), dst := BitVec.ofNat 64 (f 8 8), ssrc := BitVec.ofNat 64 (f 0x10 8),
    sync := BitVec.ofNat 64 (f 0x18 8), cpl := BitVec.ofNat 64 (f 0x20 8), index := BitVec.ofNat 64 (f 0x28 8),
    rows := f 0x30 2, sfmt := fmt % 16, kind := fmt / 16, mode := sctl % 4, scaleFmt := bitsOf sctl 2 1, bl := bitsOf sctl 3 2,
    spray := f 0x34 1 % 2 == 1, zfill := bitsOf (f 0x34 1) 1 1 == 1, sreg := f 0x35 1 % 64, rbytes := f 0x36 2,
    sstride := f 0x38 4, dstride := f 0x3C 4, gather := gather }

/-- Bits of an element of a storage format (Table 14.2). -/
def CopyDesc.bits (d : CopyDesc) : Nat :=
  match d.sfmt with
  | 3 => 4 | 5 => 4 | 6 => 16 | 7 => 16 | 8 => 32 | 9 => 6 | 10 => 6 | 11 => 2
  | _ => 8
/-- Bits of an element of its canonical form. -/
def CopyDesc.canonBits (d : CopyDesc) : Nat := if 9 ≤ d.sfmt then 8 else d.bits
/-- Elements of a canonical row. -/
def CopyDesc.rowElems (d : CopyDesc) : Nat := 1024 / d.canonBits
/-- The block length of the scales. -/
def CopyDesc.blockLen (d : CopyDesc) : Nat := 16 * 2 ^ d.bl
/-- The copy carries scales. -/
def CopyDesc.scaled (d : CopyDesc) : Bool := d.mode != 0
/-- The copy writes canonical rows. -/
def CopyDesc.canon (d : CopyDesc) : Bool := d.kind == 1

/-- Source bytes of a format block (R291). -/
def CopyDesc.srcBlock (d : CopyDesc) : Nat :=
  if !d.canon then d.rbytes
  else if d.scaled then d.blockLen * d.bits / 8
  else if d.sfmt = 9 ∨ d.sfmt = 10 then 3
  else if d.sfmt = 11 then 8
  else if d.bits = 4 then 1
  else d.bits / 8
/-- Destination bytes of a format block. -/
def CopyDesc.dstBlock (d : CopyDesc) : Nat :=
  if !d.canon then d.rbytes
  else if d.scaled then d.blockLen * d.canonBits / 8
  else if d.sfmt = 9 ∨ d.sfmt = 10 then 4
  else if d.sfmt = 11 then 32
  else if d.bits = 4 then 1
  else d.bits / 8
/-- Format blocks of a row. -/
def CopyDesc.blocks (d : CopyDesc) : Nat := if d.canon then 128 / d.dstBlock else 1
/-- Destination bytes of a row. -/
def CopyDesc.rowBytes (d : CopyDesc) : Nat := if d.canon then 128 else d.rbytes
/-- The bytes that the descriptor would write in full (R293). -/
def CopyDesc.total (d : CopyDesc) : Nat := d.rows * d.rowBytes
/-- The row pitch of the scales (R281). -/
def CopyDesc.scalePitch (d : CopyDesc) : Nat := d.sstride * 8 / (d.bits * d.blockLen)
/-- Row 0's place in the destination slot (R283). -/
def CopyDesc.row0 (d : CopyDesc) : Nat := bitsOf d.dst.toNat 7 6
/-- The destination's team slot. -/
def CopyDesc.slot (d : CopyDesc) : Nat := bitsOf d.dst.toNat 13 7

/-- R286. -/
def CopyDesc.badField (d : CopyDesc) : Bool :=
  let b := d.bits
  decide (2 ≤ d.kind) || decide (12 ≤ d.sfmt) || (d.canon && d.sfmt == 0) || d.mode == 3 ||
  (d.scaled && (d.bl == 3 || !d.canon || d.zfill || d.sfmt == 0 || (decide (6 ≤ d.sfmt) && decide (d.sfmt ≤ 8)) ||
    ((d.sfmt == 3 || d.sfmt == 5) && d.bl == 0) || (d.sfmt == 11 && d.bl != 1) || d.sstride * 8 % (b * d.blockLen) != 0)) ||
  (d.canon && (d.rbytes != d.rowElems * b / 8 || decide (64 < d.row0 + d.rows) || d.dst.toNat % 128 != 0 ||
    (!d.zfill &&
      (((d.sfmt == 6 || d.sfmt == 7 || d.sfmt == 11) && (d.src.toNat % 2 != 0 || d.sstride % 2 != 0)) ||
       (d.sfmt == 8 && (d.src.toNat % 4 != 0 || d.sstride % 4 != 0)))))) ||
  d.sync.toNat % 16 != 0 || d.cpl.toNat % 16 != 0

/-- R287: a field's space is not allowed, or names scratch space where there is no team. -/
def CopyDesc.badSpace (d : CopyDesc) (team : Bool) : Bool :=
  let sp := fun (x : DWord) => x.toNat / 2 ^ 61
  let anySpace := fun x => decide (3 ≤ sp x) || (sp x == 2 && !team)
  (if d.canon then sp d.dst != 2 || !team else anySpace d.dst || sp d.dst == 0) ||
  (!d.zfill && (anySpace d.src || (d.gather && anySpace d.index))) || (d.scaled && anySpace d.ssrc) ||
  (d.sync != 0 && (sp d.sync != 2 || !team)) || (d.cpl != 0 && sp d.cpl != 0)

/-- The team slots of rows of n bytes. -/
def rowSlots (base rows stride n : Nat) : List Nat :=
  ((natsFrom 0 rows).flatMap fun r =>
    let o := (base + r * stride) % 2 ^ 20
    (natsFrom (o / 8192) ((o + max n 1 - 1) / 8192 - o / 8192 + 1)).map (· % 128)).eraseDups

/-- The team slots that are resolved at acceptance (R288, R290): every scratch field's; of TGATHER's source and scales the
base's alone. -/
def CopyDesc.needSlots (d : CopyDesc) : List Nat :=
  let scr := fun (x : DWord) => x.toNat / 2 ^ 61 = 2
  let rows := max d.rows 1
  ((if scr d.dst then (if d.canon then [d.slot] else rowSlots d.dst.toNat rows d.dstride d.rbytes) else []) ++
   (if !d.zfill && decide (scr d.src) then
      (if d.gather then rowSlots d.src.toNat 1 0 1 else rowSlots d.src.toNat rows d.sstride d.rbytes) else []) ++
   (if d.scaled && decide (scr d.ssrc) then
      (if d.gather then rowSlots d.ssrc.toNat 1 0 1 else rowSlots d.ssrc.toNat rows d.scalePitch d.blocks) else []) ++
   (if d.gather && !d.zfill && decide (scr d.index) then rowSlots d.index.toNat 1 0 (4 * d.rows) else []) ++
   (if d.sync ≠ 0 then rowSlots d.sync.toNat 1 0 1 else [])).eraseDups

/-! ## Acceptance (R278, R286 to R290) -/

/-- The number of descriptors a stream of a cluster holds; streams are numbered core × 2 + 0 or 1. -/
def State.streamLen (s : State) (cl st : Nat) : Nat := (s.copies.filter fun c => c.cluster == cl && c.stream == st).length

/-- The stream of a core that takes the next descriptor: the one that holds fewer, stream 0 on a tie (R278). -/
def State.streamFor (s : State) (core : Nat) : Nat :=
  let st := core % 8 * 2
  if s.streamLen (core / 8) st ≤ s.streamLen (core / 8) (st + 1) then st else st + 1

/-- The physical slot that a team slot names through a team's windows (R165). -/
def State.physSlot (s : State) (cl team t : Nat) : Option Nat :=
  (s.scratchKey cl team (t * 8192)).map fun k => (k - 2 ^ 52) / 8192

/-- Where a completion record goes (R288): its page's translation alone, held where its frame is to be zeroed; without a translation, or
without the right to write there, it goes nowhere. -/
def State.cplAt (s : State) (ctx : Nat) (va : DWord) : SysAt × State :=
  match s.xlate ctx va with
  | (.missing, s1) => (.missing 2, s1)
  | (.held _, s1) => (.held, s1)
  | (.leaf f, s1) =>
    let k := f.key va.toNat
    match s1.checkKey none ctx { w := true, size := 16, kind := 1, store := true, port := true } f k false with
    | .cause _ code => (.missing code, s1)
    | _ => (.at_ k, s1)

/-- A lane's earlier atomic or CAS to bytes of a block that it hands to an engine is not performed yet (R134). -/
def State.blockLate (s : State) (c : IssueCtx) (ps : List (Nat × Nat)) (size : Nat) : Bool :=
  ps.any fun e => s.accesses.any fun a =>
    a.of c.gang e.1 && decide (a.sn < c.since * 64) && overlaps a.pa a.size e.2 size &&
    (match a.kind with | .store => false | .load _ _ => false | _ => true)

/-- What an engine refuses or accepts: the code of Table 14.4, or a wait for a page to be zeroed. -/
inductive Accept where
  | code (n : Nat)
  | held
deriving DecidableEq, Repr

/-- A descriptor submitted to the engine of a core's cluster (R288, R290): refused with its code, or queued. -/
def State.acceptCopy (s : State) (core ctx : Nat) (team : Option Nat) (owner : Option OpOwner) (bundle : Option (Nat × Nat))
    (sn : Nat) (d : CopyDesc) : Accept × State :=
  let cl := core / 8
  let phys := fun t => team.bind fun k => s.physSlot cl k t
  if d.badField then (.code 2, s)
  else if d.badSpace team.isSome then (.code 3, s)
  else if d.needSlots.any fun t => (phys t).isNone then (.code 4, s)
  else
    match (if d.cpl = 0 then (.at_ 0, s) else s.cplAt ctx d.cpl) with
      | (.held, s1) => (.held, s1)
      | (.missing _, s1) => (.code 5, s1)
      | (.at_ k, s1) =>
        let st := s1.streamFor core
        if 16 ≤ s1.streamLen cl st then (.code 1, s1)
        else
          let slots := d.needSlots.foldl (fun (m : SMap Nat) t => match phys t with | some p => m.put t p | none => m) []
          let c : Copy :=
            { sn := sn, cluster := cl, stream := st, owner := owner, bundle := bundle, ctx := ctx
              team := team.getD 0, teamGen := match team with | some k => (s1.team k).gen | none => 0
              desc := d, slots := slots, cplKey := if d.cpl = 0 then none else some k, started := false, row := 0, blk := 0
              reg := none, sgen := 0, touched := [], ending := none, staged := [], asked := [], unacked := [] }
          (.code 0, { s1 with copies := s1.copies ++ [c] })

/-- TCOPY and TGATHER (R288, R289): each lane's descriptor is read and submitted in ascending lane order; D := the acceptance
code. -/
def submitCopies (f : FmtA) (gather : Bool) (s : State) : Out :=
  s.word fun c view =>
    let w : WordSpec := { shape := { a := .pair, dst := .reg }, fd := f.d.toNat, fa := f.a.toNat, h := f.h.toNat, k := f.k,
                          deny := 4 }
    s.tested c view w.reads w.writes
      (let vas := (laneList c.lanes).map fun l => (l, (w.vals (view.thread l) (s.thread c.gang l)).a)
       let x : Target := { r := true, size := 64, kind := 0, load := true }
       let (ps, s1) := s.locateAll c.gang view (s.ctxOf c.gang) x vas
       match s1.causeAmong c x.kind ps with
       | some cause => s1.raise c cause
       | none =>
         if (ps.any fun e => e.2.2 == .held) || s1.blockLate c (keysOf ps) 64 then
           { s1 with ctx := some { c with blocked := c.blocked ||| c.lanes } }
         else
           let (s2, c2) := s1.screen c 4
           let sn := s2.sn
           let submit := fun (acc : State × List (Nat × Accept)) (e : Nat × Nat) =>
             let owner : OpOwner := ⟨acc.1.spawnKey c2.gang, acc.1.tid c2.gang e.1, sn * 64 + e.1⟩
             let d := parseDesc (acc.1.visible c2.gang e.1 (sn * 64) e.2 64) gather
             let (r, st) := acc.1.acceptCopy (coreOf c2.gang) (acc.1.ctxOf c2.gang) (some view.team) (some owner) none
               (sn * 64 + e.1) d
             (st, acc.2 ++ [(e.1, r)])
           let (s3, rs) := ((keysOf ps).filter fun e => inLanes c2.lanes e.1).foldl submit ({ s2 with sn := sn + 1 }, [])
           if rs.any fun e => e.2 == .held then
             { s2 with ctx := some { c2 with blocked := c2.blocked ||| c2.lanes }, zeroing := s3.zeroing, tlb := s3.tlb, free := s3.free }
           else
             let codeOf := fun l => match (rs.find? fun (e : Nat × Accept) => e.1 == l).map Prod.snd with
               | some (.code n) => n
               | _ => 0
             s3.regEffect c2 view { w with deny := 0, f := fun l _ _ => ⟨BitVec.ofNat 64 (codeOf l), []⟩ })

/-- TCOPY: submits a copy descriptor for each lane (R288). -/
def execTcopy (f : FmtA) (s : State) : Out := submitCopies f false s
/-- TGATHER: submits a gathering descriptor for each lane (R288). -/
def execTgather (f : FmtA) (s : State) : Out := submitCopies f true s

/-! ## Execution -/

/-- The oldest copy of a stream. -/
def State.streamHead (s : State) (cl st : Nat) : Option Copy := s.copies.find? fun c => c.cluster == cl && c.stream == st

/-- The state with a copy replaced. -/
def State.putCopy (s : State) (c : Copy) : State := { s with copies := s.copies.map fun x => if x.sn = c.sn then c else x }

/-- What the owner issued before an operation is performed: its accesses, scale loads, matrix work and records (R288's release, R131). -/
def State.ownerSettled (s : State) (o : OpOwner) : Bool :=
  s.gangs.all fun e =>
    if e.2.spawn = o.spawn ∧ e.2.index = o.tid / e.2.width then
      let l := o.tid % e.2.width
      !(s.accesses.any fun a => a.of e.1 l && decide (a.sn < o.sn)) &&
      !(s.scaleLoads.any fun x => x.gang == e.1 && x.lane == l && decide (x.sn < o.sn)) &&
      !(s.matOps.any fun m => m.gang == e.1 && inLanes m.lanes l && decide (m.sn < o.sn)) && !(s.sentBefore e.1 l o.sn)
    else true

/-- The team of a copy, where it still is the team that issued it. -/
def State.copyTeam (s : State) (c : Copy) : Option Team :=
  let T := s.team c.team
  if T.valid && T.gen == c.teamGen && c.owner.isSome then some T else none

/-- How a scaled copy starts: with its register, its kind and generation; without one where its team is no more, its status unaffected;
or it fails with FORMAT (R284, R290). -/
inductive ScaleStart where
  | reg (s : State) (n : Nat) (auto : Bool) (gen : Nat)
  | noTeam
  | format

/-- The scale register of a scaled copy as it starts (R284): chosen, mapped, its generation advanced once (R189). -/
def State.copyScale (s : State) (c : Copy) : ScaleStart :=
  let d := c.desc
  let core := match c.slots.find? d.slot with | some p => p / 128 | none => 0
  match s.copyTeam c with
  | none => .noTeam
  | some T =>
    let auto := (natsFrom 0 64).find? fun n => !(T.rename n).mapped
    match (if d.mode = 2 then some d.sreg else auto) with
    | none => .format
    | some n =>
      match s.writeScale c.cluster c.team core n (d.mode == 1) id with
      | none => .format
      | some s1 => .reg s1 n (d.mode == 1) ((s1.team c.team).rename n).gen

/-- COPY_START: a stream starts its oldest descriptor once the stream is free and the issuing thread's earlier accesses are
performed; a scaled copy takes its register or ends with FORMAT (R278, R284, R288). -/
def execCopyStart (cl st : Nat) (s : State) : Out :=
  match s.streamHead cl st with
  | none => .next s
  | some c =>
    if c.started || c.ending.isSome || !(c.owner.all s.ownerSettled) then .next s
    else if !c.desc.scaled || c.desc.total = 0 then .next (s.putCopy { c with started := true })
    else
      match s.copyScale c with
      | .format => .next (s.putCopy { c with started := true, ending := some (6, 8, 0) })
      | .noTeam => .next (s.putCopy { c with started := true })
      | .reg s1 n auto gen => .next (s1.putCopy { c with started := true, reg := some (n, auto), sgen := gen })

/-- E2M3 to E4M3 and E3M2 to E5M2, exactly (R72, R283). -/
def widen6 (sfmt v : Nat) : Byte :=
  let sign := v / 32 * 128
  if sfmt = 9 then
    let e := bitsOf v 3 2
    let f := v % 8
    if e ≠ 0 then BitVec.ofNat 8 (sign + (e + 6) * 8 + f)
    else if f = 0 then BitVec.ofNat 8 sign
    else
      let k := Nat.log2 f
      BitVec.ofNat 8 (sign + (k + 4) * 8 + (f * 2 ^ (3 - k) - 8))
  else
    let e := bitsOf v 2 3
    let f := v % 4
    if e ≠ 0 then BitVec.ofNat 8 (sign + (e + 12) * 4 + f)
    else if f = 0 then BitVec.ofNat 8 sign
    else
      let k := Nat.log2 f
      BitVec.ofNat 8 (sign + (k + 11) * 4 + (f * 2 ^ (2 - k) - 4))

/-- Four six-bit elements from each three bytes (R65). -/
def widenAll (sfmt : Nat) : List Byte → List Byte
  | a :: b :: c :: t =>
    let v := a.toNat + 256 * b.toNat + 65536 * c.toNat
    widen6 sfmt (bitsOf v 0 6) :: widen6 sfmt (bitsOf v 6 6) :: widen6 sfmt (bitsOf v 12 6) :: widen6 sfmt (bitsOf v 18 6) ::
      widenAll sfmt t
  | _ => []

/-- The number of bits set in the low n bits. -/
def onesOf (v : Nat) : Nat → Nat
  | 0 => 0
  | n + 1 => v / 2 ^ n % 2 + onesOf v n

/-- The eight E4M3 weights of a DL2 index (R69, R70). -/
def dl2Index (i : Nat) : List Byte :=
  let c := bitsOf i 15 1
  let sg := bitsOf i 8 7
  let m := i % 256
  let parity := (onesOf sg 7 + onesOf m 8) % 2
  (natsFrom 0 8).map fun k =>
    let b := bitsOf m k 1
    let mag := if c = 0 then (if b = 1 then 0x3C else 0x30) else (if b = 1 then 0x38 else 0)
    let sgn := if k < 7 then bitsOf sg k 1 else parity
    BitVec.ofNat 8 (if mag = 0 then 0 else mag + 128 * sgn)

/-- A block's source bytes in canonical form (R283). -/
def CopyDesc.convert (d : CopyDesc) (bs : List Byte) : List Byte :=
  if !d.canon then bs
  else if d.sfmt = 9 ∨ d.sfmt = 10 then widenAll d.sfmt bs
  else if d.sfmt = 11 then (halves bs).flatMap dl2Index
  else bs

/-- The scratch slots of a field of a copy: as resolved at acceptance, but for a gathered row, through the team's windows
now (R290). -/
def State.copySlot (s : State) (c : Copy) (gathered : Bool) (t : Nat) : Option Nat :=
  if gathered then (if (s.copyTeam c).isSome then s.physSlot c.cluster c.team t else none) else c.slots.find? t

/-- A piece's bytes are at hand: in local memory, or returned from another package. -/
def Copy.has (c : Copy) (p : Piece) : Bool := !p.remote || (natsFrom p.key p.len).all fun k => (c.staged.find? k).isSome

/-- The bytes of pieces at hand, as they lie there. -/
def State.bytesAt (s : State) (c : Copy) (ps : List Piece) : List Byte :=
  ps.flatMap fun p => if p.remote then (natsFrom p.key p.len).map fun k => c.staged.get 0#8 k else s.mem.read p.key p.len

/-- A transfer's route as its relay. -/
def Route.relay : Route → Option Nat
  | .via p => some p
  | _ => Option.none

/-- A remote piece is asked for (R393), for a field of the block at an address. -/
def State.askFor (s : State) (c : Copy) (detail va : Nat) (p : Piece) : State :=
  let x := BitVec.ofNat 32 (s.sn * 64)
  { s with
    transfers := s.transfers ++ [{ xfer := x, dst := keyHome p.key, tenant := s.tenant c.ctx, kind := .read c.sn detail va p.key p.len }]
    sn := s.sn + 1
    copies := s.copies.map fun (y : Copy) => if y.sn = c.sn then { y with asked := y.asked ++ [x.toNat] } else y }

/-- What a field of a block holds: its bytes, a status that ends the copy, or a wait. -/
inductive FieldRead where
  | bytes (bs : List Byte)
  | fail (status : Nat)
  | wait
deriving DecidableEq, Repr

/-- A field of a block read (R291): its bytes from the lowest address on, each piece of another package asked for in its turn and
awaited, so that the byte of lowest address that meets a cause decides; NO_ROUTE where no route leads to a piece's package. -/
def State.readField (s : State) (c : Copy) (detail at_ : Nat) (gathered : Bool) (va n : Nat) : FieldRead × State :=
  let ((ps, stop), s1) := s.engineRun c.ctx (s.copySlot c gathered) false va n
  match ps.find? fun p => !c.has p with
  | some p =>
    if s1.transfers.any fun t => match t.kind with | .read m _ _ a _ => m == c.sn && a == p.key | _ => false then (.wait, s1)
    else if s1.route (keyHome p.key) 0 = .none then (.fail 3, s1)
    else (.wait, s1.askFor c detail at_ p)
  | none =>
    match stop with
    | none =>
      let (m, s2) := s1.asRead none ((ps.filter fun p => !p.remote).map fun p => (p.key, p.len))
      (.bytes ({ s2 with mem := m }.bytesAt c ps), s2)
    | some none => (.wait, s1)
    | some (some st) => (.fail st, s1)

/-- The remote pieces of a written span are sent (R393). -/
def State.sendPieces (s : State) (c : Copy) (row va src : Nat) (ps : List Piece) (bytes : List Byte) : State :=
  (ps.foldl (fun (acc : State × List Byte) p =>
    let s := acc.1
    let now := acc.2.take p.len
    let s1 :=
      if p.remote then
        let x := BitVec.ofNat 32 (s.sn * 64)
        { s with
          transfers := s.transfers ++ [{ xfer := x, dst := keyHome p.key, tenant := s.tenant c.ctx,
                                         kind := .piece c.sn row va ((src + bytes.length - acc.2.length) % 2 ^ 64) p.key now }]
          sn := s.sn + 1
          copies := s.copies.map fun (y : Copy) => if y.sn = c.sn then { y with unacked := y.unacked ++ [x.toNat] } else y }
      else
        let (bs, s2) := s.murkWrite none p.key now
        s2.engineWrite p.key bs
    (s1, acc.2.drop p.len)) (s, bytes)).1

/-- The copy ends at a failing block (R291, R293). -/
def State.endCopy (s : State) (c : Copy) (status detail va : Nat) : State :=
  s.putCopy { c with ending := some (status, detail, BitVec.ofNat 64 va) }

/-- The keys of a list of pieces. -/
def piecesKeys (ps : List Piece) : List Nat := ps.flatMap fun p => natsFrom p.key p.len

/-- The index of row r of a gathering copy, as memory holds it now. -/
def State.rowIndex (s : State) (c : Copy) (r : Nat) : Nat :=
  if !c.desc.gather then r else
  let ((ps, _), s1) := s.engineRun c.ctx (c.slots.find? ·) false ((c.desc.index.toNat + 4 * r) % 2 ^ 64) 4
  leNat (s1.bytesAt c ps)

/-- The source ranges of a RAW copy's rows, as they lie in memory now (R282). -/
def State.sourceRanges (s : State) (c : Copy) : List Piece :=
  let d := c.desc
  if d.canon || d.zfill then [] else
  (natsFrom 0 d.rows).flatMap fun r =>
    (s.engineRun c.ctx (s.copySlot c d.gather) false ((d.src.toNat + s.rowIndex c r * d.sstride) % 2 ^ 64) d.rbytes).1.1

/-- Bytes for a list of keys, of which those in the overlap of source and destination are free values (R282, R7). -/
def State.undefOverlap (s : State) (src : List Piece) (keys : List Nat) (bytes : List Byte) : State × List Byte :=
  (keys.zip bytes).foldl (fun (acc : State × List Byte) e =>
    if src.any fun p => decide (p.key ≤ e.1 ∧ e.1 < p.key + p.len) then
      let (v, s1) := acc.1.freeVal
      (s1, acc.2 ++ [v.setWidth 8])
    else (acc.1, acc.2 ++ [e.2])) (s, [])

/-- The data generations of the scratch slots that a block writes, advanced at the copy's first byte into each (R190,
R285). -/
def State.touchSlots (s : State) (c : Copy) (ps : List Piece) : State × Copy :=
  let phys := (ps.filterMap fun p => if isScratchKey p.key ∧ !p.remote then some ((p.key - 2 ^ 52) / 8192) else none).eraseDups
  let new := (c.slots.filter fun e => phys.contains e.2 && (c.touched.find? e.1).isNone).map (·.1)
  match s.copyTeam c with
  | none => (s, c)
  | some _ =>
    let s1 := s.bumpSlots c.team new
    (s1, { c with touched := new.foldl (fun m t => m.put t ((s1.team c.team).dgen t)) c.touched })

/-- The scale byte of a block written to the copy's register, raw (R284). -/
def State.copyScaleByte (s : State) (c : Copy) (v : Byte) : State :=
  match c.reg, s.copyTeam c with
  | some (n, _), some T =>
    let d := c.desc
    let r := T.rename n
    if r.mapped then
      let i := (d.row0 + c.row) * d.blocks + c.blk
      { s with scaleRegs := s.scaleRegs.modify (r.phys c.cluster) fun m => m.set 0#8 i v }
    else s
  | _, _ => s

/-- The first destination row of a RAW copy, before its first block is written, that lies on a package with no route, as the address of
the row: the copy ends with nothing written (R292). -/
def State.routeless (s : State) (c : Copy) : Option Nat :=
  let d := c.desc
  if d.canon || c.row ≠ 0 then none else
  ((natsFrom 0 d.rows).map fun r => (d.dst.toNat + r * d.dstride) % 2 ^ 64).find? fun va =>
    (s.engineRun c.ctx (s.copySlot c false) true va d.rbytes).1.1.any fun p => p.remote && s.route (keyHome p.key) 0 == .none

/-- A block written: its data generations, its bytes, its scale (R282 to R285, R291). -/
def State.writeBlock (s : State) (c : Copy) (dva sva : Nat) (dps : List Piece) (data scale : List Byte) : State :=
  let d := c.desc
  let (s1, c1) := s.touchSlots c dps
  let (s2, out) := s1.undefOverlap (s1.sourceRanges c) (piecesKeys dps) (if d.zfill then List.replicate d.dstBlock 0#8 else d.convert data)
  let s3 := match scale with | v :: _ => s2.copyScaleByte c v | [] => s2
  let c2 := if c.blk + 1 < d.blocks then { c1 with blk := c.blk + 1 } else { c1 with row := c.row + 1, blk := 0 }
  (s3.putCopy { c2 with staged := [], asked := [] }).sendPieces c2 c.row dva sva dps out

/-- One block of a started copy: every byte it needs is read, in the order of its fields; then the block is written; a cause ends the
copy there (R291). -/
def State.copyBlock (s : State) (c : Copy) : State :=
  let d := c.desc
  let iva := (d.index.toNat + 4 * c.row) % 2 ^ 64
  let (index, s1) := if d.gather && !d.zfill then s.readField c 4 iva false iva 4 else (.bytes [], s)
  match index with
  | .fail st => s1.endCopy c st 4 iva
  | .wait => s1
  | .bytes ib =>
    let x := if d.gather then leNat ib else c.row
    let rva := (d.src.toNat + x * d.sstride) % 2 ^ 64
    let sva := (rva + c.blk * d.srcBlock) % 2 ^ 64
    let (source, s2) := if d.zfill then (.bytes [], s1) else s1.readField c 1 sva d.gather sva d.srcBlock
    match source with
    | .fail st => s2.endCopy c st 1 (if d.gather && st == 2 && rva / 2 ^ 61 == 2 then rva else sva)
    | .wait => s2
    | .bytes sb =>
      let kva := (d.ssrc.toNat + x * d.scalePitch + c.blk) % 2 ^ 64
      let (scale, s3) := if d.scaled then s2.readField c 3 kva d.gather kva 1 else (.bytes [], s2)
      match scale with
      | .fail st => s3.endCopy c st 3 kva
      | .wait => s3
      | .bytes kb =>
        let dva := (d.dst.toNat + (if d.canon then 128 * c.row else c.row * d.dstride) + c.blk * d.dstBlock) % 2 ^ 64
        let ((dps, stop), s4) := s3.engineRun c.ctx (s3.copySlot c false) true dva d.dstBlock
        match stop with
        | some (some st) => s4.endCopy c st 2 dva
        | some none => s4
        | none =>
          match s4.routeless c with
          | some va => s4.endCopy c 3 2 va
          | none => s4.writeBlock c dva sva dps sb kb

/-- The copy has blocks left to write. -/
def Copy.more (c : Copy) : Bool := decide (c.row < c.desc.rows) && c.desc.total != 0

/-- COPY_BLOCK (R291). -/
def execCopyBlock (cl st : Nat) (s : State) : Out :=
  match s.streamHead cl st with
  | none => .next s
  | some c => if c.started && c.ending.isNone && c.more then .next (s.copyBlock c) else .next s

/-- A bundle member has a status (R315). -/
def State.memberDone (s : State) (b : Option (Nat × Nat)) (status : Nat) : State :=
  match b with
  | none => s
  | some (k, i) =>
    { s with front := { s.front with
        bundles := s.front.bundles.modify k fun x => { x with members := setNth x.members i (some status) } } }

/-- The 16 bytes of a completion record (Table 14.6). -/
def Copy.record (c : Copy) (status detail : Nat) (va : DWord) : List Byte :=
  let sreg := match c.reg with | some (n, true) => 128 + n | _ => 0
  let rows := if c.desc.total = 0 then c.desc.rows else c.row
  leBytes 1 (128 + status) ++ leBytes 1 detail ++ leBytes 1 sreg ++ leBytes 1 0 ++ leBytes 2 rows ++ leBytes 2 c.blk ++
  leBytes 8 va.toNat

/-- A saved handle with a SyncAdd applied at an offset of its contents (R276). -/
def SavedHandle.syncAdd (h : SavedHandle) (off n status : Nat) : SavedHandle :=
  { h with contents := h.contents.take off ++ syncStep ((h.contents.drop off).take 16) n status ++ h.contents.drop (off + 16) }

/-- A team's image with a SyncAdd applied to the word at an offset of its scratch space (R276). -/
def Image.syncAdd (x : Image) (off n status : Nat) : Image :=
  let w := (x.team.windows.map (·.2)).find? fun w => decide (w.base ≤ off / 8192 ∧ off / 8192 < w.base + w.count)
  match w with
  | none => x
  | some w =>
    { x with handles := x.handles.map fun h => if h.key = w.handle then h.syncAdd (off - w.base * 8192) n status else h }

/-- The team that issued a copy is no more: what the copy would do to it, it does not, and the message is counted (R261). -/
def State.copyStale (s : State) (c : Copy) : Bool := c.owner.isSome && (s.copyTeam c).isNone

/-- The SyncAdd of a copy (R293): at its slot, or, while its team is swapped out, in the team's image (R276); dropped where the team is
no more (R261). -/
def State.copySync (s : State) (c : Copy) (status : Nat) : State :=
  let d := c.desc
  if s.copyStale c then
    if d.sync = 0 ∧ !d.canon then s
    else { s with sync := { s.sync with staleDrops := bumpCount s.sync.staleDrops c.cluster 0xFFFFFFFF } }
  else if d.sync = 0 then s
  else if s.front.images.any fun e => e.2.key == c.team && (s.team c.team).swapped then
    { s with
      sync := { s.sync with redirects := bumpCount s.sync.redirects c.cluster 0xFFFF }
      front := { s.front with
        images := s.front.images.mapVals fun _ (x : Image) =>
          if x.key = c.team then x.syncAdd (d.sync.toNat % 2 ^ 20) d.total status else x } }
  else
    match c.slots.find? (bitsOf d.sync.toNat 13 7) with
    | some p => s.syncAdd none (slotKey p + d.sync.toNat % 8192) d.total status
    | none => s

/-- The line of a copy's completion record is held: by an exclusive attempt, or while its region is rebuilt (R226, R293). -/
def State.recordHeld (s : State) (c : Copy) : Bool :=
  match c.cplKey with
  | some k => s.heldByOther none k 16 || s.rebuilding.contains (k / 2 ^ 35)
  | none => false

/-- COPY_COMPLETE: every block is written, with every remote piece acknowledged, or the copy has ended: its binding, its
completion record and its SyncAdd, in that order (R285, R293). -/
def execCopyComplete (cl st : Nat) (s : State) : Out :=
  match s.streamHead cl st with
  | none => .next s
  | some c =>
    if (c.ending.isNone && (!c.started || c.more)) || !c.unacked.isEmpty || s.recordHeld c then .next s
    else
      let (status, detail, va) := c.ending.getD (0, 0, 0)
      let d := c.desc
      let s1 :=
        if status = 0 ∧ d.canon ∧ d.total ≠ 0 ∧ (s.copyTeam c).isSome then
          let b : Binding := match c.reg with
            | some (n, _) => ⟨true, false, d.bl, d.scaleFmt, n, c.sgen, c.touched.get 0 d.slot⟩
            | none => { (s.team c.team).binding d.slot with valid := false }
          { s with teams := s.teams.modify c.team fun T => { T with bindings := T.bindings.set Binding.blank d.slot b } }
        else s
      let s2 := match c.cplKey with | some k => s1.performBytes none k (c.record status detail va) | none => s1
      let s3 := s2.copySync c status
      .next { s3.memberDone c.bundle (0x40 + status) with
        copies := s3.copies.filter fun x => x.sn != c.sn
        transfers := s3.transfers.filter fun t => match t.kind with | .read n _ _ _ _ => n != c.sn | _ => true }

end Sys2Proof.Machine
end

