-- ==== Sys2Proof/Machine/Launch.lean ====
section
/-! DEFINITION. The launch path (16): submission queues and POST, spawn records, bundles, dispatch, completion. -/

namespace Sys2Proof.Machine

open Sys2Proof

/-! ## Submission queues (R308 to R310) -/

/-- The key of a queue's control block. -/
def State.qcb (s : State) (q : Nat) : Nat := s.qcbBase + 64 * q

/-- The queue's control block as it stands, where hardware may accept it: SEQ even, SIZE and BASE legal (R309). -/
def State.readQcb (s : State) (q : Nat) : Option QueueView :=
  let k := s.qcb q
  let f := fun off n => s.mem.num (k + off) n
  if f 0x14 4 % 2 = 0 ∧ ringSize (f 8 4) 16 65536 ∧ f 0 8 % 64 = 0 ∧ f 0 8 / 2 ^ 61 = 0 then
    some ⟨BitVec.ofNat 64 (f 0 8), f 8 4, f 0xC 2, f 0xE 2, f 0x10 1 % 4, f 0x11 1 % 2 == 1⟩
  else none

/-- The queue's current copy, read again at each use (R309). -/
def State.queueView (s : State) (q : Nat) : Option QueueView × State :=
  match s.readQcb q with
  | some v => (some v, { s with front := { s.front with queues := s.front.queues.put q v } })
  | none => (s.front.queues.find? q, s)

/-- The queue's TAIL and HEAD (Table 16.3). -/
def State.qTail (s : State) (q : Nat) : Nat := s.mem.num (s.qcb q + 0x18) 4
def State.qHead (s : State) (q : Nat) : Nat := s.mem.num (s.qcb q + 0x1C) 4

/-- The queue's access list admits a context: bit ctx of the list (log 16). -/
def State.queueAdmits (s : State) (v : QueueView) (ctx : Nat) : Bool :=
  bitsOf (s.mem.num (s.queueAclBase + 512 * v.acl + ctx / 8) 1) (ctx % 8) 1 == 1

/-- Where the front end finds a byte through a context's tables: a key whose leaf has the permission, held, or none. -/
def State.frontSpot (s : State) (ctx : Nat) (perm : Leaf → Bool) (read : Bool) (va : Nat) : Spot × State :=
  if 2 ≤ va / 2 ^ 61 then (.fail 5, s) else
  match s.xlate ctx (BitVec.ofNat 64 va) with
  | (.missing, s1) => (.fail 5, s1)
  | (.held _, s1) => (.held, s1)
  | (.leaf f, s1) =>
    let k := f.key va
    if !perm f then (.fail 2, s1)
    else if read && s1.unitPoisoned k then (.fail 4, s1)
    else if k < 2 ^ 50 then
      (match s1.regionHome (k / 2 ^ 35) with
       | none => (.fail 3, s1)
       | some h =>
         if h ≠ s1.podIndex ∧ s1.route h 0 = .none then (.fail 3, s1)
         else if k / 2 ^ 35 ≠ s1.podIndex ∧ !s1.aclAdmits h s1.podIndex (s1.tenant ctx) 4 none then (.fail 2, s1)
         else if s1.rebuilding.contains (k / 2 ^ 35) || s1.heldByOther none k 64 then (.held, s1)
         else (.at_ k false, s1))
    else if keyHome k = s1.podIndex then (.at_ k false, s1)
    else (.fail 3, s1)

/-- The key of the ring slot of a ticket (R308). -/
def State.slotSpot (s : State) (v : QueueView) (perm : Leaf → Bool) (t : Nat) : Spot × State :=
  s.frontSpot v.ctx perm false (v.base.toNat + 64 * (t % v.size))

/-- A list of places found in turn: all of them, or held, or a failure. -/
def spotAll (find : State → Nat → Spot × State) : List Nat → State → Option (Option (List Nat)) × State
  | [], s => (some (some []), s)
  | x :: t, s =>
    match find s x with
    | (.held, s1) => (none, s1)
    | (.fail _, s1) => (some none, s1)
    | (.at_ k _, s1) =>
      match spotAll find t s1 with
      | (some (some ks), s2) => (some (some (k :: ks)), s2)
      | r => r

/-- The bundle link of a record (R314): the VA of the linked records, their count, their kinds. -/
structure Link where
  va : Nat
  count : Nat
  copies : Nat
deriving DecidableEq, Repr

/-- A record's link. -/
def linkOf (rec : List Byte) : Link :=
  let v := leNat ((rec.drop 0x38).take 8)
  ⟨v / 64 * 64, v % 8, v / 8 % 8⟩

/-- Records written into consecutive slots, then TAIL (R310). -/
def State.writeSlots (s : State) (q n : Nat) (slots : List Nat) (recs : List (List Byte)) : State :=
  let s1 := (slots.zip recs).foldl (fun (s : State) e => s.performBytes none e.1 e.2) s
  s1.performBytes none (s1.qcb q + 0x18) (leBytes 4 ((s1.qTail q + n) % 2 ^ 32))

/-- A POST at the port of queue q (R310): its refusal code, or none while a page is still to be zeroed. -/
def State.acceptPost (s : State) (q : Nat) (allowed : QueueView → Bool) (rec : List Byte) : Option Nat × State :=
  match s.queueView q with
  | (none, s1) => (some 4, s1)
  | (some v, s1) =>
    let l := linkOf rec
    let n := 1 + l.count
    let tail := s1.qTail q
    if !v.enable then (some 4, s1)
    else if !allowed v then (some 2, s1)
    else if 3 < l.count then (some 3, s1)
    else if v.size < ringUsed tail (s1.qHead q) + n then (some 1, s1)
    else
      match spotAll (fun s i => s.frontSpot v.ctx Leaf.r true (l.va + 64 * i)) (natsFrom 0 l.count) s1 with
      | (none, s2) => (none, s2)
      | (some none, s2) => (some 2, s2)
      | (some (some linked), s2) =>
        match spotAll (fun s t => s.slotSpot v Leaf.w t) (natsFrom tail n) s2 with
        | (none, s3) => (none, s3)
        | (some none, s3) => (some 2, s3)
        | (some (some slots), s3) =>
          (some 0, s3.writeSlots q n slots (rec :: linked.map fun k => s3.mem.read k 64))

/-- The queue whose port a control key of this package is. -/
def State.portOf (s : State) (pa : Nat) : Option Nat :=
  if s.home + offPorts ≤ pa ∧ pa < s.home + 2 ^ 35 ∧ pa % 64 = 0 then some ((pa - (s.home + offPorts)) / 64) else none

/-- A thread's POST may leave: its earlier accesses are performed, no earlier POST of it and no POST of a lower lane of the
same word is before it (R133, R151). -/
def State.postReady (s : State) (p : PostMsg) : Bool :=
  !(s.accesses.any fun a => a.of p.gang p.lane && decide (a.sn < p.sn)) &&
  !(s.scaleLoads.any fun x => x.gang == p.gang && x.lane == p.lane && decide (x.sn < p.sn)) &&
  !(s.matOps.any fun o => o.gang == p.gang && inLanes o.lanes p.lane && decide (o.sn < p.sn)) &&
  !(s.posts.any fun x => decide (x.sn < p.sn) && x.gang == p.gang && (x.lane == p.lane || x.sn / 64 == p.sn / 64))

/-- The gang number that stands for the host cores among those that post; the lane is the host core's number. -/
def hostGang : Nat := 2 ^ 41
/-- The key of a host core's port among its answers: queue ports by number, then the run port. -/
def State.hostKey (s : State) (h pa : Nat) : Nat := h * 8192 + (match s.portOf pa with | some q => q | none => 4096)

/-- A POST answered: its code is on its way to D (R151); a host core's waits for its load (R356). -/
def State.answerPost (s : State) (p : PostMsg) (code : Nat) : State :=
  let s1 := { s with posts := s.posts.filter (·.sn != p.sn) }
  let w := BitVec.ofNat 32 code
  if p.gang = hostGang then
    let key := s.hostKey p.lane p.pa
    let c := s.care
    { s1 with care := { c with
        hostCodes := c.hostCodes.put key w
        hostReads := if c.hostWaits.contains key then c.hostReads.put p.lane w else c.hostReads
        hostWaits := c.hostWaits.filter (· != key) } }
  else { s1 with pending := s1.pending ++ [⟨p.sn, p.gang, p.lane, p.dest, some [w], none⟩] }

/-! ## Spawn records (R311 to R313) -/

/-- The record in 64 bytes (Table 16.4). -/
def parseRecord (b : List Byte) : Record :=
  let v := leNat b
  let f := fun off n => bitsOf v (8 * off) (8 * n)
  { code := BitVec.ofNat 64 (f 0 8), entry := BitVec.ofNat 32 (f 8 4), threads := f 0xC 4, width := f 0x10 1,
    flags := f 0x11 1 % 16, fair := f 0x12 2, team := f 0x14 2, slots := f 0x16 1, acc := f 0x17 1, prio := f 0x18 1 % 4,
    rung := f 0x19 1, limit := f 0x1C 4, arg := BitVec.ofNat 64 (f 0x20 8), affinity := BitVec.ofNat 64 (f 0x28 8),
    cpl := BitVec.ofNat 64 (f 0x30 8), link := BitVec.ofNat 64 (f 0x38 8) }

/-- The gang width of a record. -/
def Record.lanes (r : Record) : Nat := 16 * 2 ^ r.width
/-- The number of gangs. -/
def Record.gangs (r : Record) : Nat := (r.threads + r.lanes - 1) / r.lanes
/-- The gangs of an automatic team; one for a singleton. -/
def Record.teamGangs (r : Record) : Nat := if r.team = 0 then 1 else r.team / r.lanes

/-- The bytes of a partition's register file that the base blocks may take, where extended blocks are allowed (R159). -/
def Record.fileRoom (r : Record) : Nat := 262144 - (if bitsOf r.flags 2 1 = 1 then 96 * r.lanes else 0)
/-- The most gangs of the record that an empty partition holds (R158, R159, R185). -/
def Record.perPartition (r : Record) : Nat :=
  min (min 64 (r.fileRoom / (128 * r.lanes))) (if r.acc = 0 then 64 else 4 / r.acc)

/-- BAD_RECORD (Table 16.4, R312), where the cluster with the most of them has so many partitions in service. -/
def Record.bad (r : Record) (partitions : Nat) : Bool :=
  decide (2 < r.width) || decide (32768 < r.team) || decide (128 < r.slots) || decide (4 < r.acc) ||
  r.team % r.lanes != 0 || (r.team != 0 && decide (partitions * r.perPartition < min r.teamGangs r.gangs))

/-- The partitions of a cluster's cores in service (R244, R277). -/
def State.partsOf (s : State) (cl : Nat) : Nat :=
  if s.health.clusters.contains cl then 0
  else 8 * ((natsFrom (cl * 8) 8).filter fun core => !s.health.retired.contains core).length

/-- The most partitions in service that a cluster of the package has (R312). -/
def State.bestParts (s : State) : Nat := ((natsFrom 0 48).map s.partsOf).foldl max 0

/-- The spawn id counter's value, and the state that has moved it on (R313). -/
def State.takeId (s : State) : Word × State :=
  let n := s.spawnIdNext + 1#32
  (s.spawnIdNext, { s with spawnIdNext := if n.toNat % 2 ^ 24 = 0 then n + 1#32 else n })

/-! ## Placing gangs (R312, R317) -/

/-- The gang slot of a place, if the package has it. -/
def placeKey (p : Place) : Option Nat :=
  if p.core < 384 ∧ p.part < 8 ∧ p.slot < 64 then some ((p.core * 8 + p.part) * 64 + p.slot) else none

/-- The spawn of a gang allows extended blocks. -/
def State.mayExtend (s : State) (G : Gang) : Bool := s.xAllowed G

/-- The hardware takes a bind record at a gang slot (R158, R159, R185, R317): the slot is free, the core in service, the
partition's gangs of the same width, and there is room in its register file and its tile reservations. -/
def State.placeOk (s : State) (g : Nat) (r : Record) (acc : Nat) : Bool :=
  let there := s.gangs.filter fun e => partKey e.1 == partKey g
  let sum := fun (f : Gang → Nat) => (there.map fun e => f e.2).foldl (· + ·) 0
  let keep := there.foldl (fun m e => if s.mayExtend e.2 then max m (96 * e.2.width) else m)
    (if bitsOf r.flags 2 1 = 1 then 96 * r.lanes else 0)
  (s.gangs.find? g).isNone && !s.health.retired.contains (coreOf g) && !s.health.clusters.contains (clusterOf g) &&
  there.all (fun e => e.2.width == r.lanes) && decide (128 * r.lanes ≤ s.freePool (partKey g)) &&
  decide (sum (fun G => 128 * G.width) + 128 * r.lanes + keep ≤ 262144) && decide (sum (·.accRes) + acc ≤ 4)

/-- A thread as its gang starts (Table 1.1). -/
def startThread (r : Record) (tid : Nat) : Thread :=
  if r.threads ≤ tid then Thread.absent else
  let put := fun (m : SMap Word) k (v : Word) => m.set 0#32 k v
  { Thread.absent with
    populated := true, live := true, pc := r.entry
    regs := put (put (put (put [] 1 (BitVec.ofNat 32 tid)) 2 (loOf r.arg)) 3 (hiOf r.arg)) 4 (BitVec.ofNat 32 r.threads)
    fpc := if bitsOf r.flags 3 1 = 1 then 0x20#32 else 0 }

/-- A gang as it starts (Table 1.2); it is in no team yet. -/
def startGang (r : Record) (sp gi acc prio : Nat) : Gang :=
  let w := r.lanes
  let live := laneSet ((natsFrom 0 w).filter fun l => decide (gi * w + l < r.threads))
  { Gang.absent with
    width := w, spawn := sp, index := gi, team := 2 ^ 40
    threads := (natsFrom 0 w).map fun l => startThread r (gi * w + l)
    masks := live :: List.replicate 11 0#64
    bpc := r.entry, accRes := acc, prio := prio }

/-- The 128 bits of a slot-table entry (Table 16.5). -/
def bindWord (b : BindRec) (cmd : Nat) (valid : Bool) : Nat :=
  b.image.toNat * 2 ^ 70 + cmd * 2 ^ 68 + (if valid then 2 ^ 63 else 0) + b.width.toNat * 2 ^ 61 + b.accres.toNat * 2 ^ 58 +
  b.prio.toNat * 2 ^ 56 + b.gang.toNat * 2 ^ 28 + b.spawn.toNat * 2 ^ 16 + b.team.toNat

/-- A slot-table entry as it stands after its record was taken or refused. -/
def State.setSlot (s : State) (g word : Nat) : State :=
  { s with front := { s.front with slotTable := s.front.slotTable.put g word } }

/-- A slot-table entry; at reset it holds CMD 3 alone (Table 16.5). -/
def State.slotEntry (s : State) (g : Nat) : Nat := s.front.slotTable.get (3 * 2 ^ 68) g

/-- A refused record: counted in its die's dispatch error counter, and left in the slot table with VALID clear; the entry of a slot that
holds a gang stays (R317; log 90). -/
def State.refusePlace (s : State) (b : BindRec) (cmd : Nat) : State :=
  match placeKey b.place with
  | none => s
  | some g =>
    let s1 := if (s.gangs.find? g).isSome then s else s.setSlot g (bindWord b cmd false)
    { s1 with front := { s1.front with
        dispatchErrors := s1.front.dispatchErrors.put (dieOf g) (s1.front.dispatchErrors.get 0 (dieOf g) + 1) } }

/-- How the placing of gangs ends: done; a record that the hardware refuses; or no room for what the team needs beside. -/
inductive Placed where
  | done (s : State)
  | refused (b : BindRec)
  | waits

/-- Placing goes on from a state. -/
def Placed.andThen (p : Placed) (f : State → Placed) : Placed := match p with | .done s => f s | x => x
/-- Placing goes on with a step that may find no room. -/
def Placed.ofOption : Option State → Placed
  | some s => .done s
  | none => .waits

/-- The index of a spawn in the spawn table of a slot's die (R317). -/
def State.spawnIndex (s : State) (sp g : Nat) : Nat :=
  match s.spawns.find? sp with | some p => p.entries.get 0 (dieOf g) | none => 0

/-- A gang of a spawn placed in a slot, its slot-table entry with it; no poison is left in its registers and accumulators. -/
def State.placeGang (s : State) (sp gi g acc prio teamId : Nat) (r : Record) : Placed :=
  let e : BindRec :=
    ⟨⟨coreOf g, partOf g, g % 64⟩, 0, BitVec.ofNat 2 r.width, BitVec.ofNat 3 acc, BitVec.ofNat 2 prio, BitVec.ofNat 28 gi,
      BitVec.ofNat 12 (s.spawnIndex sp g), BitVec.ofNat 16 teamId⟩
  if s.placeOk g r acc then
    .done ({ s with
      gangs := s.gangs.put g (startGang r sp gi acc prio)
      poison := s.poison.filter fun d => match d with
        | .reg x _ _ => x != g
        | .accElem x _ _ => x != g
        | _ => true }.setSlot g (bindWord e 0 true))
  else .refused e

/-- The handle that a team made at spawn start is given: on the core of one of its gangs, mapped by window 0 at team slot
0, with no data generation changed (R267). None while no core has the run of zeroed slots. -/
def State.giveSlots (s : State) (team : Nat) (cores : List Nat) (n : Nat) : Option State :=
  if n = 0 then some s else
  let fits := cores.filter fun c =>
    match s.freeRun c n with
    | some p => !((natsFrom (c * 128 + p) n).any s.sync.returned.contains)
    | none => false
  if fits.isEmpty then none else
  let (i, s1) := s.choose fits.length
  let c := nth 0 fits i
  match s1.freeRun c n with
  | none => none
  | some p =>
    match s1.makeHandle (c / 8) c team p n with
    | (none, _) => none
    | (some k, s2) =>
      some { s2 with
        teams := s2.teams.modify team fun T => { T with windows := T.windows.put 0 ⟨k, 0, n, c % 8, p⟩ }
        handles := s2.handles.modify k fun x => { x with window := 0, mapped := true } }

/-- A new automatic team at a team-table entry (R253). -/
def State.newAutoTeam (s : State) (k : Nat) (r : Record) : State :=
  { s with teams := s.teams.put k { Team.blank with valid := true, gen := (s.team k).gen, cap := r.team, auto := true } }

/-- The gangs of one automatic team, or one singleton gang, placed and started (R253, R267, R312). -/
def State.startTeam (s : State) (sp acc prio : Nat) (r : Record) (gs : List (Nat × Nat)) : Placed :=
  match gs with
  | [] => .done s
  | (gi, g) :: _ =>
    if r.team = 0 then
      (s.placeGang sp gi g acc prio 0xFFFF r).andThen fun s1 =>
        .ofOption ((s1.ownTeam g).giveSlots (65536 + g) [coreOf g] r.slots)
    else
      let cl := clusterOf g
      let free := (natsFrom (cl * 1024) 1024).filter fun k => !(s.team k).valid
      if free.isEmpty || gs.any (fun e => clusterOf e.2 != cl) then .waits else
      let (n, s1) := s.choose free.length
      let k := nth 0 free n
      let s2 := s1.newAutoTeam k r
      (gs.foldl (fun (o : Placed) e => o.andThen fun st =>
        (st.placeGang sp e.1 e.2 acc prio ((st.team k).gen * 1024 + k % 1024) r).andThen fun st' => .done (st'.joinTeam e.2 k))
        (.done s2)).andThen fun s3 => .ofOption (s3.giveSlots k (gs.map fun e => coreOf e.2).eraseDups r.slots)

/-- A list cut into pieces of k. -/
def pieces {α : Type} (k : Nat) : Nat → List α → List (List α)
  | 0, _ => []
  | n + 1, l => if l.isEmpty then [] else l.take k :: pieces k n (l.drop k)

/-- The gangs of a spawn numbered from the first on, at a list of slots, team by team; a team's gangs are placed together
(R312). -/
def State.startGangs (s : State) (sp : Nat) (r : Record) (slots : List Nat) : Placed :=
  (pieces r.teamGangs slots.length ((natsFrom 0 slots.length).zip slots)).foldl
    (fun (o : Placed) gs => o.andThen fun st => st.startTeam sp r.acc r.prio r gs) (.done s)

/-! ## Bundles (R314, R315) -/

/-- How a bundle's start goes: with the slots left and the members' statuses; waiting; or a record is refused. -/
inductive Starting where
  | going (s : State) (slots : List Nat) (members : List (Option Nat))
  | waits
  | refused (b : BindRec)
deriving DecidableEq, Repr

/-- The lowest free index of a die's spawn table of 4,096 entries (R317). -/
def State.freeEntryOn (s : State) (die : Nat) : Option Nat :=
  (natsFrom 0 4096).find? fun i => !(s.spawns.any fun e => e.2.entries.find? die == some i)

/-- A spawn's indexes in the spawn tables of some dies; none while one of them is full. -/
def State.takeEntries (s : State) (dies : List Nat) : Option (SMap Nat) :=
  dies.foldl (fun m d => m.bind fun m => (s.freeEntryOn d).map fun i => m.put d i) (some [])

/-- A number for a new spawn. -/
def State.freeSpawn (s : State) : Option Nat := s.spawns.freeKey 0 16384

/-- A spawn in progress from its record. -/
def newSpawn (id : Word) (r : Record) (ctx : Nat) (clk : DWord) (rung : Nat) (bundle : Option (Nat × Nat))
    (command : Option Nat) (placed : Nat) (entries : SMap Nat) : Spawn :=
  { id := id, record := r, ctx := ctx, start := clk, issuing := true, unplaced := natsFrom placed (r.gangs - placed),
    ending := none, stopped := false, rung := rung, bundle := bundle, command := command, entries := entries }

/-- A spawn member: its id; BAD_RECORD, nothing to run, or every gang of it placed (R311 to R315). -/
def startSpawn (key i : Nat) (v : QueueView) (b : List Byte) (s : State) (slots : List Nat) (done : List (Option Nat)) : Starting :=
  let r0 := parseRecord b
  let r := { r0 with prio := min r0.prio v.prio }
  let (id, s1) := s.takeId
  if r.bad s.bestParts then .going s1 slots (done ++ [some 0x30])
  else if r.threads = 0 then .going s1 slots (done ++ [some 0])
  else
    let mine := slots.take r.gangs
    match s1.freeSpawn, s1.takeEntries (mine.map dieOf).eraseDups with
    | some sp, some entries =>
      if mine.length < r.gangs then .waits else
      let s2 := { s1 with spawns := s1.spawns.put sp (newSpawn id r v.ctx s1.clk 0 (some (key, i)) none r.gangs entries) }
      match s2.startGangs sp r mine with
      | .refused b => .refused b
      | .waits => .waits
      | .done s3 => .going s3 (slots.drop r.gangs) (done ++ [none])
    | _, _ => .waits

/-- The cluster nearest a tensor stack: one of the twelve of its die, which of them is free (R315, log 7). -/
def State.nearCluster (s : State) (key : Nat) : Nat × State :=
  let (n, s1) := s.choose 12
  (homeDie key * 12 + n, s1)

/-- A field of a copy names local tensor memory, whose key this is. -/
def State.localTensor (s : State) (ctx : Nat) (va : DWord) : Option Nat :=
  if va.toNat / 2 ^ 61 ≠ 1 then none else
  match (s.xlate ctx va).1 with
  | .leaf f => if keyHome (f.key va.toNat) = s.podIndex then some (f.key va.toNat) else none
  | .held f => if keyHome (f.key va.toNat) = s.podIndex then some (f.key va.toNat) else none
  | .missing => none

/-- The core that takes a linked copy (R315). -/
def State.copyCore (s : State) (ctx : Nat) (d : CopyDesc) : Nat × State :=
  let (cl, s1) := match s.localTensor ctx d.dst with
    | some k => s.nearCluster k
    | none => match s.localTensor ctx d.src with
      | some k => s.nearCluster k
      | none => (0, s)
  let load := fun c => s1.streamLen cl (c % 8 * 2) + s1.streamLen cl (c % 8 * 2 + 1)
  (cl * 8 + (sortBy load (natsFrom 0 8)).headD 0, s1)

/-- A copy member (R315). -/
def startMember (key i : Nat) (v : QueueView) (b : List Byte) (s : State) (slots : List Nat) (done : List (Option Nat)) :
    Starting :=
  let d := parseDesc b false
  let (core, s1) := s.copyCore v.ctx d
  match { s1 with sn := s1.sn + 1 }.acceptCopy core v.ctx none none (some (key, i)) (s1.sn * 64) d with
  | (.held, _) => .waits
  | (.code 0, s2) => .going s2 slots (done ++ [none])
  | (.code 1, _) => .waits
  | (.code n, s2) => .going s2 slots (done ++ [some (0x50 + n)])

/-- The members of a bundle in slot order: number, whether it is a copy, its bytes. -/
def startMembers (key : Nat) (v : QueueView) : List (Nat × Bool × List Byte) → Starting → Starting
  | [], x => x
  | (i, copy, b) :: t, .going s slots done =>
    startMembers key v t (if copy then startMember key i v b s slots done else startSpawn key i v b s slots done)
  | _, x => x

/-- The members of a bundle by its records. -/
def bundleMembers (recs : List (List Byte)) : List (Nat × Bool × List Byte) :=
  let l := linkOf (recs.headD [])
  mapNumbered (fun i b => (i, i != 0 && bitsOf l.copies (i - 1) 1 == 1, b)) 0 recs

/-- BUNDLE_START: the bundle at HEAD is placed and accepted as a whole, at the places that firmware's policy gives, and HEAD
advances; or it waits (R315, R317). -/
def execBundleStart (q : Nat) (places : List Place) (s : State) : Out :=
  match s.queueView q with
  | (none, s0) => .next s0
  | (some v, s0) =>
    let head := s0.qHead q
    if s0.qTail q = head then .next s0 else
    match s0.slotSpot v (fun _ => true) head with
    | (.at_ k0 _, s1) =>
      let n := min (1 + (linkOf (s1.mem.read k0 64)).count) (ringUsed (s1.qTail q) head)
      (match spotAll (fun s t => s.slotSpot v (fun _ => true) t) (natsFrom head n) s1 with
       | (some (some keys), s2) =>
         let recs := keys.map fun k => s2.mem.read k 64
         let key := s2.sn
         (match startMembers key v (bundleMembers recs)
             (.going { s2 with sn := s2.sn + 1 } (places.filterMap placeKey) []) with
          | .waits => .next s2
          | .refused b => .next (s2.refusePlace b 0)
          | .going s3 _ done =>
            let r := parseRecord (recs.headD [])
            .next ({ s3 with front := { s3.front with
              bundles := s3.front.bundles.put key ⟨r.cpl, v.ctx, s2.spawnIdNext, done⟩ } }.performBytes none
                (s3.qcb q + 0x1C) (leBytes 4 ((head + n) % 2 ^ 32))))
       | (_, s2) => .next s2)
    | (_, s1) => .next s1

/-- BUNDLE_RETIRE: once every member has a status, the bundle writes its completion word with the first that is not 0; a held write is
waited for (R315, R316, R351). -/
def execBundleRetire (i : Nat) (s : State) : Out :=
  match s.front.bundles.find? i with
  | none => .next s
  | some b =>
    if b.members.any (·.isNone) then .next s else
    let status := ((b.members.filterMap id).find? (· != 0)).getD 0
    match s.writeCompletion b.ctx b.cpl (completionWord status b.headId) b.headId with
    | (false, s1) => .next s1
    | (true, s1) => .next { s1 with front := { s1.front with bundles := s1.front.bundles.erase i } }

/-- The teams that a completed spawn's gangs made by TNEW: dissolved, or, while gangs are in them, once they are empty (R258). -/
def State.dissolveCreated (s : State) (sp : Nat) : State :=
  (s.teams.filter fun e => e.2.creator == some sp).foldl (fun s e =>
    State.dissolveEmpty { s with teams := s.teams.modify e.1 fun T => { T with creator := some creatorGone } } e.1 (e.1 / 1024) false) s

/-- The images of an ending spawn's teams are given up, and their entries freed (R241). -/
def State.dropImages (s : State) (sp : Nat) : State :=
  let mine := s.front.images.filter fun e => e.2.spawn == sp
  let s1 := mine.foldl (fun s e => if e.2.key < 65536 then s.dissolve e.2.key (e.2.key / 1024) else s) s
  { s1 with front := { s1.front with images := s1.front.images.filter fun e => e.2.spawn != sp } }

/-- A spawn has nothing left: no gang, none to place, no engine operation; no image, unless it is ending (R316, R241). -/
def State.spawnDone (s : State) (sp : Nat) (p : Spawn) : Bool :=
  (s.gangsOf sp).isEmpty && p.unplaced.isEmpty && !s.spawnBusy sp &&
  (match p.ending with
   | some _ => !p.issuing
   | none => !(s.front.images.any fun e => e.2.spawn == sp))

/-- The status reaches the bundle, or the refinement command, that started the spawn (R315, R328). -/
def State.reportSpawn (s : State) (sp status : Nat) (p : Spawn) : State :=
  let s1 := s.memberDone p.bundle status
  { s1 with commands := s1.commands.map fun c =>
      match c.stage with
      | .phase n x => if x = sp ∧ p.command = some c.sn then { c with stage := .ended n status } else c
      | _ => c }

/-- SPAWN_COMPLETION (R316, R241 step 8): the spawn's status goes to its bundle, whose retirement writes the completion word,
or to its command. -/
def execSpawnCompletion (sp : Nat) (s : State) : Out :=
  match s.spawns.find? sp with
  | none => .next s
  | some p =>
    if !s.spawnDone sp p then .next s else
    let s1 := (s.dropImages sp).dissolveCreated sp
    .next ({ s1 with spawns := s1.spawns.erase sp }.reportSpawn sp (p.ending.getD 0) p)

/-! ## Bind records (R317) -/

/-- The spawn that an index of a die's spawn table names (R317). -/
def State.spawnAt (s : State) (die i : Nat) : Option (Nat × Spawn) :=
  (s.spawns.filter fun e => e.2.entries.find? die == some i).head?

/-- The gang of a bind record placed and started: of a singleton; of an automatic team, whose first gang's record makes it (R253, R317). -/
def State.bindGang (s : State) (b : BindRec) (g sp : Nat) (p : Spawn) : Placed :=
  let r := p.record
  let gi := b.gang.toNat
  let acc := b.accres.toNat
  let prio := min b.prio.toNat r.prio
  let k := clusterOf g * 1024 + b.team.toNat % 1024
  let mine := fun (e : Nat × Gang) => e.2.spawn == sp && e.2.index / r.teamGangs == gi / r.teamGangs
  if !p.unplaced.contains gi || p.stopped || b.width.toNat != r.width then .refused b
  else if r.team = 0 then (if b.team.toNat = 0xFFFF then s.startTeam sp acc prio r [(gi, g)] else .refused b)
  else if b.team.toNat = 0xFFFF || (s.team k).gen != b.team.toNat / 1024 then .refused b
  else if (s.team k).valid then
    (if (s.members k).any mine then (s.placeGang sp gi g acc prio b.team.toNat r).andThen fun s1 => .done (s1.joinTeam g k)
     else .refused b)
  else if s.gangs.any mine then .refused b
  else
    ((s.newAutoTeam k r).placeGang sp gi g acc prio b.team.toNat r).andThen fun s1 =>
      .ofOption ((s1.joinTeam g k).giveSlots k [coreOf g] r.slots)

/-- BIND_START: a bind record with CMD start places a gang of a started spawn, at no more than its spawn's priority (R326); a record the
hardware refuses is counted (R317). A gang of an Axolotl phase sees every write of the phases before: its core's L1 tensor lines are
invalidated (R339). -/
def execBindStart (b : BindRec) (s : State) : Out :=
  match placeKey b.place with
  | none => .next s
  | some g =>
    match s.spawnAt (dieOf g) b.spawn.toNat with
    | none => .next (s.refusePlace b 0)
    | some (sp, p) =>
      match s.bindGang b g sp p with
      | .done s1 =>
        let s2 := { s1 with
          spawns := s1.spawns.modify sp fun p => { p with unplaced := p.unplaced.filter (· != b.gang.toNat) } }
        .next (if p.command.isSome then s2.invalidateL1 (coreOf g) else s2)
      | _ => .next (s.refusePlace b 0)

end Sys2Proof.Machine
end

