-- ==== Sys2Proof/Machine/Preempt.lean ====
section
/-! DEFINITION. Pre-emption (16): stopping and saving a team, its context image, its resumption; HBM errors and scrubbing;
crossbar errors. -/

namespace Sys2Proof.Machine

open Sys2Proof

/-! ## Stop and save (R319) -/

/-- A thread that is to issue its word again (R173, R275). -/
def Thread.again (t : Thread) : Thread := { t with wait := none, issued := none }

/-- A blocked thread that issues its word again after the restore: a place in a queue, an arrival or a slot's key is not
saved, while its arrival mark is (R173, R265, R275, R319). What it was granted it keeps. -/
def Thread.unblock (t : Thread) : Thread :=
  if t.grant.isSome then t else
  match t.wait with
  | some (.waitm _) => t.again
  | some (.rendezvous _ _ _ _ _ _) => t.again
  | some .xacq => t.again
  | some (.aacq _) => t.again
  | some (.axb _ _) => t.again
  | some .axe => t.again
  | some .commit => t.again
  | some .scaleReg => t.again
  | some (.handover _) => t.again
  | some (.syncw _ _) => t.again
  | some (.barrier _) => t.again
  | some .arriving => t.again
  | _ => t

/-- A gang of a team that is being saved stops (R173, R229, R236): its regions abort with PREEMPT, its blocked words are to
issue again, a replayable stop and its ticket are given up, its requests are withdrawn. -/
def State.haltGang (s : State) (g : Nat) : State :=
  let s1 := s.abortLanes g (s.regionLanes g 0xFFFFFFFFFFFFFFFF#64) 7 0
  let s2 := s1.onGang g fun G => { G with stop := none, threads := G.threads.map Thread.unblock }
  { s2 with
    faults := s2.faults.filter fun r => r.gangKey != some g
    commits := s2.commits.filter (·.gang != g)
    xacqQueue := s2.xacqQueue.filter (· != g), axbQueue := s2.axbQueue.filter (· != g)
    exclQueue := s2.exclQueue.filter (·.1 != g), aacqQueue := s2.aacqQueue.filter fun e => e.1 != g
    sync := { s2.sync with handovers := s2.sync.handovers.filter fun h => h.gang != g } }

/-- BIND_STOP_SAVE: a record with CMD 2 stands in the slot table; the first for a gang of a team stops the team, the others find it
stopping (R317, R319). -/
def execBindStopSave (b : BindRec) (s : State) : Out :=
  match placeKey b.place with
  | none => .next s
  | some g =>
    match s.gangs.find? g with
    | none => .next (s.refusePlace b 2)
    | some G =>
      let s0 := s.setSlot g (bindWord b 2 true)
      if s0.teamAway G.team then .next s0 else
      let s1 := (s0.members G.team).foldl (fun s e => s.haltGang e.1) s0
      .next { s1 with front := { s1.front with saves := s1.front.saves ++ [⟨G.team, b.image.toNat⟩] } }

/-- An engine operation's owner is a thread of a gang. -/
def OpOwner.ofGang (o : OpOwner) (G : Gang) : Bool := o.spawn == G.spawn && o.tid / G.width == G.index

/-- A stopped gang has drained: its stores, its results, its matrix work, its records and its engine operations are done (R81, R210,
R319). -/
def State.gangDrained (s : State) (g : Nat) (G : Gang) : Bool :=
  G.logs.isEmpty &&
  !(s.accesses.any (·.gang == g)) && !(s.pending.any (·.gang == g)) && !(s.posts.any (·.gang == g)) &&
  !(s.scaleLoads.any (·.gang == g)) && !(s.matOps.any (·.gang == g)) &&
  !(s.copies.any fun c => c.owner.any (·.ofGang G)) && !(s.commands.any fun c => c.owner.ofGang G) &&
  !(s.runs.any fun r => r.owner.any (·.ofGang G)) &&
  !(s.transfers.any fun t => match t.kind with
    | .atomic o _ _ _ _ _ _ => o.ofGang G
    | .post g' _ _ _ _ _ => g' == g
    | _ => false)

/-! ## The context image (Table 16.6) -/

/-- A gang as its image holds it: its fairness count summed, its loop buffers empty. -/
def Gang.saved (G : Gang) (clk : DWord) : Gang :=
  { G with
    fairAcc := G.fairAcc + (match G.fairFrom with | some f => (clk - f).toNat | none => 0)
    fairFrom := none, candSince := none, packets := []
    threads := G.threads.map fun t => { t with lbuf := [], waitSince := none } }

/-- A gang's poisoned data with the gang renamed, or none that is not of it. -/
def renamePoison (fromG toG : Nat) (d : Datum) : Option Datum :=
  match d with
  | .reg g l r => if g = fromG then some (.reg toG l r) else none
  | .accElem g a e => if g = fromG then some (.accElem toG a e) else none
  | _ => none

/-- A held handle with its contents. -/
def State.saveHandle (s : State) (e : Nat × Handle) : SavedHandle :=
  let first := slotKey (((e.1 / 1024) * 8 + e.2.core) * 128 + e.2.pfirst)
  let n := e.2.count * 8192
  { key := e.1, entry := e.2, contents := s.mem.read first n
    poisoned := s.poison.filterMap fun d => match d with
      | .unit k => if first ≤ k ∧ k < first + n then some (k - first) else none
      | _ => none }

/-- The image of a team whose gangs these are. -/
def State.makeImage (s : State) (k : Nat) (ms : List (Nat × Gang)) : Image :=
  let T := s.team k
  let cl := match ms with | e :: _ => clusterOf e.1 | [] => k / 1024
  { spawn := match ms with | e :: _ => e.2.spawn | [] => 0
    key := k, team := T
    gangs := ms.map fun e => (e.2.index, e.2.saved s.clk)
    scales := (T.renames.filter fun r => r.2.mapped).map fun r => (r.1, s.scaleRegs.get [] (r.2.phys cl))
    handles := (s.held k).map s.saveHandle
    watches := s.watches.filterMap fun w => (ms.find? fun e => e.1 == w.gang).map fun e => { w with gang := e.2.index }
    poison := s.poison.flatMap (fun d => (ms.filterMap fun e => renamePoison e.1 e.2.index d)) ++
      s.poison.filterMap (fun d => match d with
        | .scaleGroup p j =>
          (List.find? (fun (r : Nat × Rename) => r.2.mapped && r.2.phys cl == p) T.renames).map fun r => Datum.scaleGroup r.1 j
        | _ => none)
    placed := []
    offers := (s.handles.filter fun e => e.2.offer == some k).map (·.1) }

/-- The bytes of an image: its sections in the order of Table 16.6, each 64-byte aligned; their sizes are the model's (log 14). -/
def Image.size (x : Image) : Nat :=
  let sum := fun (l : List Nat) => l.foldl (· + ·) 0
  let threads := sum (x.gangs.map fun e => e.2.width)
  let tiles := sum (x.gangs.map fun e => e.2.accs.length)
  64 + 256 * x.gangs.length + 512 * threads + 16448 * tiles + (512 + 512 * x.scales.length + 1024 + 128) +
  (64 * x.team.windows.length + sum (x.handles.map fun h => 64 + h.contents.length) + 64) + (64 + 8 * x.gangs.length) +
  64 * x.watches.length

/-- The image's bytes in memory, from its first address on, through the tables of its spawn's context: the spec lays its sections out no
further, so each byte is a free value (R7, R319; log 14). -/
def State.writeImage (s : State) (ctx va n : Nat) : State :=
  (chunksOf (n / 8192 + 2) va n).foldl (fun (s : State) c =>
    match s.sysKey ctx (BitVec.ofNat 64 c.1) true c.2 with
    | (.at_ k, s1) =>
      let (bs, s2) := State.freeBytes c.2 s1
      s2.engineWrite k bs
    | (_, s1) => s1) s

/-- The gangs of a saved team leave the machine, with their watches, poison and slot-table entries. -/
def State.removeGangs (s : State) (gs : List Nat) : State :=
  { s with
    gangs := s.gangs.filter fun e => !gs.contains e.1
    watches := s.watches.filter fun w => !gs.contains w.gang
    poison := s.poison.filter fun d => match d with
      | .reg g _ _ => !gs.contains g
      | .accElem g _ _ => !gs.contains g
      | _ => true
    front := { s.front with
      slotTable := s.front.slotTable.filterMap fun e => some (if gs.contains e.1 then (e.1, slotEmpty e.2) else e) } }

/-- CONTEXT_IMAGE_WRITE: a stopped team that has drained is written to its image; its entry is marked SWAPPED and its
partitions, tiles, scale registers, slots and handles are freed, its retained slots discarded (R319, R210, R275). What the image says
is kept beside its bytes; an image that stood at the same place is lost to its team (log 14). -/
def execContextImageWrite (team : Nat) (s : State) : Out :=
  match s.front.saves.find? (·.team == team) with
  | none => .next s
  | some v =>
    let ms := s.members team
    if !(ms.all fun e => s.gangDrained e.1 e.2) then .next s else
    let saves := s.front.saves.filter (·.team != team)
    if ms.isEmpty then .next { s with front := { s.front with saves := saves } } else
    let x := s.makeImage team ms
    let cl := match ms with | e :: _ => clusterOf e.1 | [] => 0
    let ctx := match s.spawns.find? x.spawn with | some p => p.ctx | none => 0
    let s1 := (s.writeImage ctx (v.image * 64) x.size).removeGangs (ms.map (·.1))
    let s2 := (s1.held team).foldl (fun s e => s.freeHandle e.1) s1
    let phys := (x.team.renames.filter fun r => r.2.mapped).map fun r => r.2.phys cl
    let T : Team := { x.team with swapped := true, windows := [], renames := [], bindings := [], dgens := [] }
    let kept := match s2.front.images.find? v.image with
      | some y => s2.front.images.put (2 ^ 64 + s2.sn) y
      | none => s2.front.images
    .next { s2 with
      teams := if 65536 ≤ team then s2.teams.erase team else s2.teams.put team T
      scaleRegs := s2.scaleRegs.filter fun e => !phys.contains e.1
      poison := s2.poison.filter fun d => match d with | .scaleGroup p _ => !phys.contains p | _ => true
      retained := s2.retained.filter fun e => e.2.1 != team
      sn := s2.sn + 1
      front := { s2.front with saves := saves, images := kept.put v.image x } }

/-! ## Resume (R319, R210, R275) -/

/-- Offers to a team that moves to another entry: to the new one where the handle lies in its cluster; else they lapse (R270, R275). -/
def State.moveOffers (s : State) (old new : Nat) : State :=
  { s with
    handles := s.handles.filterMap fun e =>
      some (e.1, if e.2.offer = some old then { e.2 with offer := if e.1 / 1024 = new / 1024 then some new else none } else e.2)
    front := { s.front with images := s.front.images.mapVals fun _ (x : Image) =>
      { x with handles := x.handles.map fun (h : SavedHandle) =>
          { h with entry := if h.entry.offer = some old then
              { h.entry with offer := if h.key / 1024 = new / 1024 then some new else none } else h.entry } } } }

/-- The team entry that a resumed team takes in a cluster: the one it has, the same index and generation where it is free
there, else another (R275), with the offers made to it; a singleton's is its gang's. -/
def State.resumeKey (s : State) (x : Image) (g : Nat) : Option (Nat × State) :=
  let cl := clusterOf g
  if 65536 ≤ x.key then
    some (65536 + g, { s with teams := s.teams.put (65536 + g) { x.team with swapped := true } })
  else if x.key / 1024 = cl then some (x.key, s)
  else
    let same := cl * 1024 + x.key % 1024
    let free := (natsFrom (cl * 1024) 1024).filter fun k => !(s.team k).valid
    let old := s.teams.put x.key { Team.blank with gen := nextGen (x.key % 1024) x.team.gen }
    if !(s.team same).valid then
      some (same, State.moveOffers { s with teams := SMap.put old same { x.team with swapped := true } } x.key same)
    else if free.isEmpty then none
    else
      let (n, s1) := s.choose free.length
      let k := nth 0 free n
      some (k, State.moveOffers { s1 with teams := SMap.put old k { x.team with swapped := true, gen := (s.team k).gen } } x.key k)

/-- The partition has tiles free for the accumulators that a resumed gang held (R210). -/
def State.tilesFor (s : State) (g : Nat) (G : Gang) : Bool :=
  let there := s.gangs.filter fun e => partKey e.1 == partKey g
  decide ((there.map fun e => e.2.accs.length).foldl (· + ·) 0 + G.accs.length ≤ 4)

/-- The core of a cluster, the saved one first, for which a test holds. -/
def coreWhere (cl core : Nat) (p : Nat → Bool) : Option Nat := ((cl * 8 + core) :: natsFrom (cl * 8) 8).find? p

/-- A saved scale register back in a free physical one (R210). -/
def State.restoreScale (s : State) (cl k : Nat) (poison : List Datum) (e : Nat × SMap Byte) : Option State :=
  let r := (s.team k).rename e.1
  (coreWhere cl r.core fun c => !(s.freeScales c).isEmpty).map fun core =>
    let free := s.freeScales core
    let (i, s1) := s.choose free.length
    let p := nth 0 free i
    { s1 with
      scaleRegs := s1.scaleRegs.put p e.2
      teams := s1.teams.modify k fun T =>
        { T with renames := T.renames.set Rename.blank e.1 { r with mapped := true, core := core % 8, preg := p % 128 } }
      poison := s1.poison ++ poison.filterMap fun d => match d with
        | .scaleGroup n j => if n = e.1 then some (.scaleGroup p j) else none
        | _ => none }

/-- A saved handle back on a free run of slots, with its contents; its id is the saved one where the index is free. -/
def State.restoreHandle (s : State) (cl k : Nat) (sameCluster : Bool) (h : SavedHandle) : Option State :=
  let n := h.entry.count
  let clean := fun c => match s.freeRun c n with
    | some p => !((natsFrom (c * 128 + p) n).any s.sync.returned.contains)
    | none => false
  let same := cl * 1024 + h.key % 1024
  let free := (natsFrom (cl * 1024) 1024).filter fun x => !(s.handle x).valid
  match coreWhere cl h.entry.core clean with
  | none => none
  | some c =>
    match s.freeRun c n with
    | none => none
    | some p =>
      if free.isEmpty then none else
      let again := !(s.handle same).valid
      let (i, s1) := if again then (0, s) else s.choose free.length
      let key := if again then same else nth 0 free i
      let first := slotKey (c * 128 + p)
      let gen := if again then h.entry.gen else (s.handle key).gen
      let s2 := s1.performBytes none first h.contents
      some { s2 with
        handles := s2.handles.put key
          { h.entry with holder := k, gen := gen, pfirst := p, core := c % 8, offer := if sameCluster then h.entry.offer else none }
        poison := s2.poison ++ h.poisoned.map fun o => .unit (first + o)
        teams := s2.teams.modify k fun T =>
          { T with windows := T.windows.mapVals fun _ (w : Window) =>
              if w.handle = h.key then { w with handle := key, core := c % 8, pfirst := p } else w } }

/-- The saved watches armed again with their tokens, evaluated afresh, what had fired staying fired (R154, R304, Table 16.6). -/
def State.restoreWatches (s : State) (placed : List (Nat × Nat)) (ws : List Watch) : State :=
  ws.foldl (fun (s : State) w =>
    match placed.find? fun e => e.1 == w.gang with
    | none => s
    | some e =>
      let s1 := s.placeWatch { w with gang := e.2, die := dieOf e.2, slice := watchSlice w.pa } true
      { s1 with watches := s1.watches.map fun x => if x.token = w.token then { x with fired := x.fired || w.fired } else x }) s

/-- The last gang of a team is back: its scale registers, handles, slots, watches and poison follow, and the team runs
again (R210, R275, R304, R319: an acquire at pod scope). -/
def State.finishResume (s : State) (image : Nat) (x : Image) (oldCluster : Nat) : Option State :=
  let cl := match x.placed with | e :: _ => clusterOf e.2 | [] => 0
  let k := x.key
  let s0 := { s with teams := s.teams.modify k fun T =>
      { T with windows := x.team.windows, renames := x.team.renames.mapVals fun _ (r : Rename) => { r with mapped := false },
               bindings := x.team.bindings, dgens := x.team.dgens } }
  let s1 := x.scales.foldl (fun (o : Option State) e => o.bind fun st => st.restoreScale cl k x.poison e) (some s0)
  let s2 := x.handles.foldl (fun (o : Option State) h => o.bind fun st => st.restoreHandle cl k (oldCluster == cl) h) s1
  s2.map fun s3 =>
    let s4 := s3.restoreWatches x.placed x.watches
    let s5 := (x.placed.map fun e => coreOf e.2).eraseDups.foldl State.invalidateL1 s4
    { s5 with
      teams := s5.teams.modify k fun T => { T with swapped := false }
      retained := s5.retained.filter fun e => e.2.1 != k
      poison := s5.poison ++ x.poison.flatMap fun d => x.placed.filterMap fun e => renamePoison e.1 e.2 d
      front := { s5.front with images := s5.front.images.erase image } }

/-- A spawn has an index in a die's spawn table, its own or the lowest free one (R317). -/
def State.enterOn (s : State) (sp die : Nat) : Option State :=
  match s.spawns.find? sp with
  | none => none
  | some p =>
    if (p.entries.find? die).isSome then some s
    else (s.freeEntryOn die).map fun i => { s with spawns := s.spawns.put sp { p with entries := p.entries.put die i } }

/-- A gang of a saved team back in a slot, with its slot-table entry; with the last of them the team runs again (R319). -/
def State.resumeGang (s : State) (b : BindRec) (g : Nat) (x : Image) (p : Spawn) (G : Gang) : Option State :=
  let gi := b.gang.toNat
  let free := (x.placed.find? fun e => e.1 == gi).isNone
  let near := x.placed.all fun e => clusterOf e.2 == clusterOf g
  if !free || !near || p.stopped || !s.placeOk g p.record G.accRes || !s.tilesFor g G then none
  else
    (s.enterOn x.spawn (dieOf g)).bind fun s0 =>
      (if x.placed.isEmpty then s0.resumeKey x g else some (x.key, s0)).bind fun (k, s1) =>
        let e : BindRec := { b with width := BitVec.ofNat 2 p.record.width, prio := BitVec.ofNat 2 G.prio
                                    accres := BitVec.ofNat 3 G.accRes, spawn := BitVec.ofNat 12 (s1.spawnIndex x.spawn g) }
        let y : Image := { x with key := k, placed := x.placed ++ [(gi, g)] }
        let s2 := { s1 with gangs := s1.gangs.put g { G with team := k } }.setSlot g (bindWord e 1 true)
        let s3 := { s2 with front := { s2.front with images := s2.front.images.put b.image.toNat y } }
        if y.placed.length < y.gangs.length then some s3 else s3.finishResume b.image.toNat y (x.key / 1024)

/-- BIND_RESUME: a bind record with CMD resume brings a gang of a saved team back (R319). A record the hardware refuses is counted. -/
def execBindResume (b : BindRec) (s : State) : Out :=
  match placeKey b.place with
  | none => .next s
  | some g =>
    let done : Option State :=
      (s.front.images.find? b.image.toNat).bind fun x =>
        match s.spawns.find? x.spawn, x.gangs.find? fun e => e.1 == b.gang.toNat with
        | some p, some (_, G) => s.resumeGang b g x p G
        | _, _ => none
    .next (done.getD (s.refusePlace b 1))

/-! ## Memory and crossbar errors (R277, R306) -/

/-- The key of a line of the package's tensor memory. -/
def State.hbmLine (s : State) (line : Nat) : Nat := 2 ^ 50 + s.podIndex * 2 ^ 39 + line % 2 ^ 32 * 128

/-- The bank of a tensor line: its pseudo-channel and the bank of that (R305, R306; log 7). -/
def bankOf (k : Nat) : Nat := channelLog k * 64 + Config.hbmBank (k - 2 ^ 50) % 64

/-- HBM_ERROR: a burst error is corrected and counted; a lasting one takes one of its bank's four spare rows, or, when none remains, posts a
page-retirement record; an uncorrectable error that repeats poisons the line (R306). -/
def execHbmError (line : Nat) (uncorrectable lasting : Bool) (s : State) : Out :=
  let k := s.hbmLine line
  let used := s.health.spares.get 0 (bankOf k)
  let retire := lasting && decide (4 ≤ used)
  let s1 := s.countError (channelLog k) uncorrectable lasting retire
  if !lasting then .next s1 else
  let r : FaultRec := ⟨homeDie k, 11, false, 0, 0, 0, 0, 0, 0, 0, 0, BitVec.ofNat 64 (k - 2 ^ 50), 0, loOf s.clk, false, none⟩
  let s2 : State := if retire then { s1 with faults := s1.faults ++ [r] }
    else { s1 with health := { s1.health with spares := s1.health.spares.set 0 (bankOf k) (used + 1) } }
  .next (if uncorrectable ∧ !s2.poison.contains (.unit k) then { s2 with poison := s2.poison ++ [.unit k] } else s2)

/-- PATROL_SCRUB: the scrubber reads a stack; the errors it finds are HBM_ERROR's (R306). -/
def execPatrolScrub (_stack : Nat) (s : State) : Out := .next s

/-- CROSSBAR_FLIT_ERROR: counted; a lasting failure of a core's port retires the core, one of the sync engine the cluster,
so that firmware restores its teams elsewhere (R277). -/
def execCrossbarFlitError (cluster core : Nat) (lasting engine : Bool) (s : State) : Out :=
  let s1 := s.countError (coreLog (cluster * 8 + if engine then 0 else core % 8)) false lasting lasting
  if !lasting then .next s1
  else if engine then
    .next (if s1.health.clusters.contains cluster then s1
      else { s1 with health := { s1.health with clusters := s1.health.clusters ++ [cluster] } })
  else .next (s1.retireCore (cluster * 8 + core % 8))

end Sys2Proof.Machine
end

