-- ==== Sys2Proof/Machine/Sfu.lean ====
section
/-! DEFINITION. The special-function words (05 R125 to R127): division and roots, correctly rounded; and the approximated
functions, whose result is a free choice among the fp32 values inside the bound of Table 5.8 (log 9). -/

namespace Sys2Proof.Machine

open Sys2Proof

/-! ## Enclosures of exact values -/

/-- π × 2^320, ln 2 × 2^192 and log₂ e × 2^192, rounded down. -/
def piFix : Nat := 6710401180212168915155840974220003240804194089427148950727106424351713218671805380099500388914039
def ln2Fix : Nat := 4350955369971217654477563090224794165364344896676135745069
def log2eFix : Nat := 9055943544797870567083544809312461607371518589544137143473

/-- An exact real lies between two signed dyadic numbers. -/
structure Encl where
  lo : Dy
  hi : Dy
deriving DecidableEq, Repr

/-- A number with an error in units of 2^-192. -/
def around (m : Int) (err : Int) (e : Int) : Encl := ⟨⟨m - err, e⟩, ⟨m + err, e⟩⟩

/-- The sum over a series of n terms: a term follows from the last by a function of its number. -/
def series (next : Nat → Int → Int) : Nat → Nat → Int → Int → Int
  | 0, _, _, acc => acc
  | n + 1, k, term, acc => series next n (k + 1) (next k term) (acc + term)

/-- e^(y / 2^192) × 2^192 for 0 ≤ y < 2^192. -/
def expFix (y : Nat) : Int := series (fun k t => t * y / 2 ^ 192 / (k + 1)) 50 0 (2 ^ 192) 0

/-- The floor of a dyadic number. -/
def Dy.floor (d : Dy) : Int := if 0 ≤ d.e then d.m * 2 ^ d.e.toNat else d.m / 2 ^ (-d.e).toNat
/-- d × 2^192 rounded down. -/
def Dy.fix (d : Dy) : Int := Dy.floor ⟨d.m, d.e + 192⟩
/-- d is an integer. -/
def Dy.isInt (d : Dy) : Bool := decide (0 ≤ d.e) || decide (d.m % 2 ^ (-d.e).toNat = 0)

/-- 2^d for d from -300 up. -/
def pow2Encl (d : Dy) : Encl :=
  let n := d.floor
  let f := (d.fix - n * 2 ^ 192).toNat
  around (expFix (f * ln2Fix / 2 ^ 192)) 1000 (n - 192)

/-- atanh(z / 2^192) × 2^192 for 0 ≤ z ≤ 2^192 / 3. -/
def atanhFix (z : Nat) : Int :=
  ((natsFrom 0 66).foldl (fun (acc : Int × Nat) k => (acc.1 + (acc.2 / (2 * k + 1) : Nat), acc.2 * z / 2 ^ 192 * z / 2 ^ 192))
    (0, z)).1

/-- log₂ of m × 2^e, m > 0. -/
def log2Encl (m : Nat) (e : Int) : Encl :=
  let top := bitLen m - 1
  let z := (m - 2 ^ top) * 2 ^ 192 / (m + 2 ^ top)
  around (((top : Int) + e) * 2 ^ 192 + 2 * atanhFix z * log2eFix / 2 ^ 192) 2000 (-192)

/-- sin and cos of r / 2^192, each × 2^192, for 0 ≤ r < 2^193. -/
def sinFix (r : Nat) : Int := series (fun k t => -(t * r / 2 ^ 192 * r / 2 ^ 192 / ((2 * k + 2) * (2 * k + 3)))) 35 0 r 0
def cosFix (r : Nat) : Int := series (fun k t => -(t * r / 2 ^ 192 * r / 2 ^ 192 / ((2 * k + 1) * (2 * k + 2)))) 35 0 (2 ^ 192) 0

/-- The quadrant and remainder of m × 2^e radians, the remainder × 2^192. -/
def quadrant (m : Nat) (e : Int) : Nat × Nat :=
  let y := 2 * m * 2 ^ (e + 320).toNat
  (y / piFix % 4, y % piFix / 2 ^ 129)

/-- sin of m × 2^e moved on by q quadrants. -/
def sinEncl (m : Nat) (e : Int) (q : Nat) : Encl :=
  let (n, r) := quadrant m e
  let v := match (n + q) % 4 with
    | 0 => sinFix r
    | 1 => cosFix r
    | 2 => -sinFix r
    | _ => -cosFix r
  around v 2000 (-192)

/-- e^-(m × 2^e) × 2^192 from below and above; beyond 100 it is taken as between 0 and 2^-140. -/
def expNeg (m : Nat) (e : Int) : Nat × Nat :=
  if 100 ≤ Dy.floor ⟨m, e⟩ then (0, 2 ^ 52)
  else
    let p := pow2Encl ⟨-((m * log2eFix : Nat) : Int), e - 192⟩
    let v := Dy.fix p.lo
    ((v - 4000).toNat, (v + 4000).toNat)

/-! ## Values inside a bound -/

/-- An fp32 encoding's place in the order of values; both zeros have place 0. -/
def place32 (w : Nat) : Int := if 2 ^ 31 ≤ w then -((w - 2 ^ 31 : Nat) : Int) else (w : Int)
/-- The fp32 encoding at a place. -/
def atPlace (i : Int) : Nat := if i < 0 then 2 ^ 31 + i.natAbs else i.toNat

/-- The fp32 encoding of a dyadic number under a mode. -/
def Dy.fp (d : Dy) (rm : Nat) : Nat :=
  if d.m = 0 then 0 else (fp32.finish rm (decide (d.m < 0)) d.m.natAbs d.e false).bits

/-- A free choice among the fp32 values between two dyadic numbers; a fixed function of the operation and its operands
(R125). -/
def chooseBetween (op a b : Nat) (lo hi : Dy) : Nat :=
  let p := place32 (lo.fp 3)
  let q := place32 (hi.fp 2)
  atPlace (p + (Config.sfuChoice op a b % ((q - p).toNat + 1) : Nat))

/-- A bound of Table 5.8: a number of ulps, or absolute 2^-n. -/
inductive Bound where
  | ulps (n : Nat)
  | abs (n : Nat)
deriving DecidableEq, Repr

/-- The larger and the smaller of two dyadic numbers. -/
def Dy.max (x y : Dy) : Dy := if (x.add ⟨-y.m, y.e⟩).m < 0 then y else x
def Dy.min (x y : Dy) : Dy := if (x.add ⟨-y.m, y.e⟩).m < 0 then x else y

/-- The unit of an approximation's bound. -/
def Bound.unit (b : Bound) (x : Encl) : Dy :=
  match b with
  | .abs n => ⟨1, -(n : Int)⟩
  | .ulps n => ⟨n, Max.max ((bitLen x.hi.m.natAbs : Int) - 1 + x.hi.e - 23) (-149)⟩

/-- An approximated result: any value within the bound and the range; tiny results raise FP_UNDERFLOW (R112, R125). -/
def approximate (op a b : Nat) (x : Encl) (bound : Bound) (range : Option (Dy × Dy)) : FRes :=
  let u := bound.unit x
  let lo := x.lo.add ⟨-u.m, u.e⟩
  let hi := x.hi.add u
  let (lo, hi) := match range with | some r => (lo.max r.1, hi.min r.2) | none => (lo, hi)
  let small : Dy := ⟨1, -126⟩
  let tiny := decide ((x.hi.add ⟨-1, -126⟩).m < 0) && decide ((x.lo.add small).m > 0)
  ⟨chooseBetween op a b lo hi, if tiny then [fpUnderflow] else []⟩

/-- A positive magnitude with a sticky tail approximated within one ulp: either neighbour (R125). -/
def neighbours (op a : Nat) (neg : Bool) (q : Nat) (e : Int) (sticky : Bool) : FRes :=
  let r := fp32.roundMag 1 neg q e sticky
  if fp32.infBits ≤ r.bits then ⟨fp32.sign neg + fp32.infBits, [fpOverflow]⟩
  else if !r.inexact then ⟨fp32.sign neg + r.bits, []⟩
  else ⟨fp32.sign neg + r.bits + Config.sfuChoice op a 0 % 2, if r.tiny then [fpUnderflow] else []⟩

/-- The same where the exact value lies so close above a power of two that the value next below that power is within one ulp too (R125). -/
def neighboursBelow (op a : Nat) (q : Nat) (e : Int) : FRes :=
  let r := fp32.roundMag 1 false q e true
  ⟨r.bits - 1 + Config.sfuChoice op a 0 % 3, []⟩

/-! ## The functions -/

/-- 2^d (R125, R126): exact where d is an integer from -149 to 127. An exact subnormal result logs nothing unless FTZ flushes it: R112 and
R125 ask for an inexact result, R126's bullet can be read to log it (DESIGN CHOICE, log 9). -/
def exp2Of (op a b : Nat) (d : Dy) : FRes :=
  if (d.add ⟨-128, 0⟩).m ≥ 0 then ⟨fp32.infBits, [fpOverflow]⟩
  else if (d.add ⟨200, 0⟩).m < 0 then approximate op a b ⟨⟨0, 0⟩, ⟨1, -200⟩⟩ (.ulps 2) (some (⟨0, 0⟩, ⟨1, 0⟩))
  else if d.isInt ∧ (d.add ⟨149, 0⟩).m ≥ 0 then fp32.finish 0 false 1 d.floor false
  else approximate op a b (pow2Encl d) (.ulps 2) (some (⟨0, 0⟩, ⟨1, 128⟩))

/-- FRCP. -/
def frcp (a : FVal) (w : Nat) : FRes :=
  match a with
  | .nan s => ⟨fp32.nan, if s then [fpInvalid] else []⟩
  | .inf n => fp32.zero n
  | .fin n m e =>
    if m = 0 then ⟨fp32.sign n + fp32.infBits, [fpDivZero]⟩
    else
      let (q, g, st) := divMag 23 1 0 m e
      neighbours 0 w n q g st
/-- FRSQ; of 4^j (1 - 2^-24) three values lie within one ulp of the exact one (R125). -/
def frsq (a : FVal) (w : Nat) : FRes :=
  match a with
  | .nan s => ⟨fp32.nan, if s then [fpInvalid] else []⟩
  | .inf n => if n then ⟨fp32.nan, [fpInvalid]⟩ else fp32.zero false
  | .fin n m e =>
    if m = 0 then ⟨fp32.sign n + fp32.infBits, [fpDivZero]⟩
    else if n then ⟨fp32.nan, [fpInvalid]⟩
    else
      let odd := e % 2 != 0
      let m' := if odd then 2 * m else m
      let k := 28 + bitLen m'
      let r := isqrt (2 ^ (2 * k) / m')
      let at_ := -((if odd then e - 1 else e) / 2) - (k : Int)
      if m = 2 ^ 24 - 1 ∧ !odd then neighboursBelow 1 w r at_
      else neighbours 1 w false r at_ (decide (r * r * m' ≠ 2 ^ (2 * k)))
/-- FEXP2. -/
def fexp2 (a : FVal) (w : Nat) : FRes :=
  match a with
  | .nan s => ⟨fp32.nan, if s then [fpInvalid] else []⟩
  | .inf n => if n then ⟨0, []⟩ else ⟨fp32.infBits, []⟩
  | .fin n m e => exp2Of 4 w 0 (dyOf n m e)
/-- FLOG2. -/
def flog2 (a : FVal) (w : Nat) : FRes :=
  match a with
  | .nan s => ⟨fp32.nan, if s then [fpInvalid] else []⟩
  | .inf n => if n then ⟨fp32.nan, [fpInvalid]⟩ else ⟨fp32.infBits, []⟩
  | .fin n m e =>
    if m = 0 then ⟨fp32.sign true + fp32.infBits, [fpDivZero]⟩
    else if n then ⟨fp32.nan, [fpInvalid]⟩
    else if m = 2 ^ (bitLen m - 1) then fp32.encode 0 (intVal ((bitLen m : Int) - 1 + e))
    else
      let near := (Dy.add ⟨m, e⟩ ⟨-1, -1⟩).m ≥ 0 ∧ (Dy.add ⟨m, e⟩ ⟨-2, 0⟩).m ≤ 0
      approximate 5 w 0 (log2Encl m e) (if near then .abs 22 else .ulps 2) none

/-- The range [-1, 1], and its reflection of an enclosure. -/
def unitRange : Option (Dy × Dy) := some (⟨-1, 0⟩, ⟨1, 0⟩)
def Encl.reflect (x : Encl) (neg : Bool) : Encl := if neg then ⟨⟨-x.hi.m, x.hi.e⟩, ⟨-x.lo.m, x.lo.e⟩⟩ else x
/-- A result whose exact value lies just under its operand's magnitude is tiny where that is at most 2^-126. -/
def tinyOperand (m : Nat) (e : Int) (r : FRes) : FRes :=
  ⟨r.bits, if (Dy.add ⟨m, e⟩ ⟨-1, -126⟩).m ≤ 0 then [fpUnderflow] else []⟩

/-- FSIN and FCOS. -/
def fsin (a : FVal) (w : Nat) : FRes :=
  match a with
  | .nan s => ⟨fp32.nan, if s then [fpInvalid] else []⟩
  | .inf _ => ⟨fp32.nan, [fpInvalid]⟩
  | .fin n m e =>
    if m = 0 then fp32.zero n
    else tinyOperand m e (approximate 6 w 0 ((sinEncl m e 0).reflect n) (.abs 21) unitRange)
def fcos (a : FVal) (w : Nat) : FRes :=
  match a with
  | .nan s => ⟨fp32.nan, if s then [fpInvalid] else []⟩
  | .inf _ => ⟨fp32.nan, [fpInvalid]⟩
  | .fin _ m e => if m = 0 then ⟨0x3F800000, []⟩ else approximate 7 w 0 (sinEncl m e 1) (.abs 21) unitRange
/-- FTANH: (1 - t) / (1 + t) with t = e^(-2 |A|). -/
def ftanh (a : FVal) (w : Nat) : FRes :=
  match a with
  | .nan s => ⟨fp32.nan, if s then [fpInvalid] else []⟩
  | .inf n => ⟨fp32.sign n + 0x3F800000, []⟩
  | .fin n m e =>
    if m = 0 then fp32.zero n
    else
      let (tl, th) := expNeg m (e + 1)
      let one := 2 ^ 192
      let x : Encl := ⟨⟨((one - th) * one / (one + th) : Nat), -192⟩, ⟨((one - tl) * one / (one + tl) + 1 : Nat), -192⟩⟩
      tinyOperand m e (approximate 8 w 0 (x.reflect n) (.abs 21) unitRange)
/-- FSIGM: 1 / (1 + t), or t / (1 + t) below zero, with t = e^-|A|. -/
def fsigm (a : FVal) (w : Nat) : FRes :=
  match a with
  | .nan s => ⟨fp32.nan, if s then [fpInvalid] else []⟩
  | .inf n => ⟨if n then 0 else 0x3F800000, []⟩
  | .fin n m e =>
    if m = 0 then ⟨0x3F000000, []⟩
    else
      let (tl, th) := expNeg m e
      let one := 2 ^ 192
      let x : Encl :=
        if n then ⟨⟨(tl * one / (one + tl) : Nat), -192⟩, ⟨(th * one / (one + th) + 1 : Nat), -192⟩⟩
        else ⟨⟨(one * one / (one + th) : Nat), -192⟩, ⟨(one * one / (one + tl) + 1 : Nat), -192⟩⟩
      approximate 13 w 0 x (.abs 22) (some (⟨0, 0⟩, ⟨1, 0⟩))
/-- VEXPS (R126). -/
def vexps (a : FVal) (b : Word) (w : Nat) : FRes :=
  match a with
  | .nan s => ⟨fp32.nan, if s then [fpInvalid] else []⟩
  | .inf n => if n then ⟨0, []⟩ else ⟨fp32.infBits, []⟩
  | .fin n m e => exp2Of 11 w b.toNat ((dyOf n m e).add ⟨-b.toInt, 0⟩)
/-- VMAXE (R127): the larger of D and the clamped ceiling; a NaN leaves D. -/
def vmaxe (a : FVal) (d : Word) : FRes :=
  match a with
  | .nan _ => ⟨d.toNat, [fpInvalid]⟩
  | .inf n => ⟨if n then d.toNat else 0x7FFFFFFF, []⟩
  | .fin n m e =>
    let v : Int := integral 3 n m e
    let c := Min.min (Max.max (if n then -v else v) (-2147483648)) 2147483647
    ⟨(BitVec.ofInt 32 (Max.max d.toInt c)).toNat, []⟩

/-! ## The words -/

/-- An SFU word on fp32 operands: class L, its operands and FPC read at issue (R111, R125). -/
def sfu (f : FmtA) (ub ud : Use) (op : Thread → FVal → Vals → Res) : WordSpec :=
  { shape := { d := ud, a := .reg, b := ub, dst := .reg, classL := true },
    fd := f.d.toNat, fa := f.a.toNat, fb := f.b.toNat, h := f.h.toNat, k := f.k,
    f := fun _ t v => op t (t.fp v.a32) v }
/-- An SFU word on fp64 pairs. -/
def sfu64 (f : FmtA) (ub : Use) (op : Thread → FVal → FVal → Res) : WordSpec :=
  { shape := { a := .pair, b := ub, dst := .pair, classL := true },
    fd := f.d.toNat, fa := f.a.toNat, fb := f.b.toNat, h := f.h.toNat, k := f.k,
    f := fun _ t v => op t (fp64.decode v.a.toNat) (fp64.decode v.b.toNat) }
/-- The encoding of an operand as FTZ lets it read, on which a fixed function depends. -/
def FVal.word (a : FVal) : Nat := (fp32.encode 1 a).bits

/-- FRCP: D := 1 / A within 1 ulp. -/
def execFrcp (f : FmtA) (s : State) : Out := s.run (sfu f .unused .unused fun t a _ => t.fres32 (frcp a a.word))
/-- FRSQ: D := 1 / √A within 1 ulp. -/
def execFrsq (f : FmtA) (s : State) : Out := s.run (sfu f .unused .unused fun t a _ => t.fres32 (frsq a a.word))
/-- FSQRT: D := √A, correctly rounded. -/
def execFsqrt (f : FmtA) (s : State) : Out := s.run (sfu f .unused .unused fun t a _ => t.fres32 (fp32.sqrt t.rm a))
/-- FDIV: D := A / B, correctly rounded. -/
def execFdiv (f : FmtA) (s : State) : Out := s.run (sfu f .reg .unused fun t a v => t.fres32 (fp32.div t.rm a (t.fp v.b32)))
/-- FEXP2: D := 2^A within 2 ulp. -/
def execFexp2 (f : FmtA) (s : State) : Out := s.run (sfu f .unused .unused fun t a _ => t.fres32 (fexp2 a a.word))
/-- FLOG2: D := log₂ A. -/
def execFlog2 (f : FmtA) (s : State) : Out := s.run (sfu f .unused .unused fun t a _ => t.fres32 (flog2 a a.word))
/-- FSIN: D := sin A. -/
def execFsin (f : FmtA) (s : State) : Out := s.run (sfu f .unused .unused fun t a _ => t.fres32 (fsin a a.word))
/-- FCOS: D := cos A. -/
def execFcos (f : FmtA) (s : State) : Out := s.run (sfu f .unused .unused fun t a _ => t.fres32 (fcos a a.word))
/-- FTANH: D := tanh A. -/
def execFtanh (f : FmtA) (s : State) : Out := s.run (sfu f .unused .unused fun t a _ => t.fres32 (ftanh a a.word))
/-- DDIV: the D pair := A / B, correctly rounded. -/
def execDdiv (f : FmtA) (s : State) : Out := s.run (sfu64 f .pair fun t a b => t.fres (fp64.div t.rm a b))
/-- DSQRT: the D pair := √A, correctly rounded. -/
def execDsqrt (f : FmtA) (s : State) : Out := s.run (sfu64 f .unused fun t a _ => t.fres (fp64.sqrt t.rm a))
/-- VEXPS: D := 2^(A - B) within 2 ulp (R126). -/
def execVexps (f : FmtA) (s : State) : Out := s.run (sfu f .reg .unused fun t a v => t.fres32 (vexps a v.b32 a.word))
/-- VMAXE: D := max(D, Ceil(A)) as int32 (R127). -/
def execVmaxe (f : FmtA) (s : State) : Out := s.run (sfu f .unused .reg fun t a v => t.fres (vmaxe a v.d32))
/-- FSIGM: D := 1 / (1 + e^-A). -/
def execFsigm (f : FmtA) (s : State) : Out := s.run (sfu f .unused .unused fun t a _ => t.fres32 (fsigm a a.word))

end Sys2Proof.Machine
end

