-- ==== Sys2Proof/Machine/Rlc.lean ====
section
/-! DEFINITION. The refinement loop controllers (17): RLCGO, the phases of a command, the norm unit, the exits. -/

namespace Sys2Proof.Machine

open Sys2Proof

/-! ## The command block (Table 17.1) -/

/-- A field of a command block. -/
def blockField (b : List Byte) (off n : Nat) : Nat := leNat ((b.drop off).take n)

/-- A value is finite. -/
def FVal.finite : FVal → Bool
  | .fin _ _ _ => true
  | _ => false
/-- A value is finite and above 0. -/
def FVal.positive : FVal → Bool
  | .fin neg m _ => !neg && m != 0
  | _ => false
/-- A value is negative: below 0. -/
def FVal.below : FVal → Bool
  | .fin neg m _ => neg && m != 0
  | .inf neg => neg
  | .nan _ => false

/-- R323: BAD_FIELD. -/
def badBlock (b : List Byte) : Bool :=
  let f := blockField b
  let n := f 0xC8 4
  let nlad := f 0xCD 1 % 8
  let flt := fun off => fp32.decode (f off 4)
  let bn := fp64.decode (f 0xE8 8)
  n == 0 || decide (2 ^ 28 < n) || nlad == 0 || decide (4 < nlad) ||
  (natsFrom 0 nlad).any (fun k => decide (10 ≤ f (0xE0 + k) 1)) || f 0xCF 1 == 0 || f 0xDC 2 == 0 ||
  (flt 0xD0).below || !(flt 0xD0).finite || !(flt 0xD4).positive || !(flt 0xD8).positive ||
  (bitsOf (f 0xCC 1) 1 1 == 0 && (bn.below || !bn.finite)) || f 0xC0 8 % 8 != 0 || f 0xF8 8 % 4 != 0

/-- R323: BAD_SPACE; a vector with no translation is accepted. -/
def State.badBlockSpace (s : State) (ctx : Nat) (b : List Byte) : Bool :=
  let rvec := blockField b 0xC0 8
  let away := match (s.xlate ctx (BitVec.ofNat 64 rvec)).1 with
    | .leaf f => keyHome (f.key rvec) != s.podIndex
    | .held f => keyHome (f.key rvec) != s.podIndex
    | .missing => false
  rvec / 2 ^ 61 != 1 || away || blockField b 0xF8 8 / 2 ^ 61 != 0

/-- A command block submitted to a die's queue (R324, Table 17.2). -/
def State.acceptCommand (s : State) (g ctx : Nat) (owner : OpOwner) (va : DWord) (key : Nat) (b : List Byte) :
    Accept × State :=
  let cpl := BitVec.ofNat 64 (blockField b 0xF8 8)
  if badBlock b then (.code 2, s)
  else if s.badBlockSpace ctx b then (.code 3, s)
  else
    match (if cpl = 0 then (.at_ 0, s) else s.cplAt ctx cpl) with
      | (.held, s1) => (.held, s1)
      | (.missing _, s1) => (.code 4, s1)
      | (.at_ k, s1) =>
        if 8 ≤ (s1.commands.filter fun c => c.die == dieOf g).length then (.code 1, s1)
        else
          let prio := match s1.gangs.find? g with | some G => G.prio | none => 0
          let c : Command :=
            { sn := owner.sn, die := dieOf g, owner := owner, ctx := ctx, prio := prio, va := va, key := key
              cplKey := if cpl = 0 then none else some k, block := b, stage := .waiting, rung := 0, it := 0, rit := 0
              stag := 0, prev := none, bn := BitVec.ofNat 64 (blockField b 0xE8 8), final := none, cancelled := false }
          (.code 0, { s1 with commands := s1.commands ++ [c] })

/-- RLCGO: each lane's command block is read, checked and queued, in ascending lane order; D := the acceptance code
(R324). -/
def execRlcgo (f : FmtA) (s : State) : Out :=
  s.word fun c view =>
    let w : WordSpec := { shape := { a := .pair, dst := .reg }, fd := f.d.toNat, fa := f.a.toNat, h := f.h.toNat, k := f.k }
    s.tested c view w.reads w.writes
      (let vas := (laneList c.lanes).map fun l => (l, (w.vals (view.thread l) (s.thread c.gang l)).a)
       let x : Target := { tensor := false, scratch := false, r := true, size := 256, kind := 0, load := true }
       let (ps, s1) := s.locateAll c.gang view (s.ctxOf c.gang) x vas
       match s1.causeAmong c x.kind ps with
       | some cause => s1.raise c cause
       | none =>
         if (ps.any fun e => e.2.2 == .held) || s1.blockLate c (keysOf ps) 256 then
           { s1 with ctx := some { c with blocked := c.blocked ||| c.lanes } }
         else
           let (s2, c2) := s1.screen c 3
           let sn := s2.sn
           let submit := fun (acc : State × List (Nat × Accept)) (e : Nat × Nat) =>
             let owner : OpOwner := ⟨acc.1.spawnKey c2.gang, acc.1.tid c2.gang e.1, sn * 64 + e.1⟩
             let va := ((vas.find? fun (v : Nat × DWord) => v.1 == e.1).map Prod.snd).getD 0
             let (r, st) := acc.1.acceptCommand c2.gang (acc.1.ctxOf c2.gang) owner va e.2
               (acc.1.visible c2.gang e.1 (sn * 64) e.2 256)
             (st, acc.2 ++ [(e.1, r)])
           let (s3, rs) := ((keysOf ps).filter fun e => inLanes c2.lanes e.1).foldl submit ({ s2 with sn := sn + 1 }, [])
           if rs.any fun e => e.2 == .held then
             { s2 with ctx := some { c2 with blocked := c2.blocked ||| c2.lanes }, zeroing := s3.zeroing, tlb := s3.tlb, free := s3.free }
           else
             let codeOf := fun l => match (rs.find? fun (e : Nat × Accept) => e.1 == l).map Prod.snd with
               | some (.code n) => n
               | _ => 0
             s3.regEffect c2 view { w with f := fun l _ _ => ⟨BitVec.ofNat 64 (codeOf l), []⟩ })

/-! ## Exits (R329 to R333) -/

/-- The state with a command replaced. -/
def State.putCommand (s : State) (c : Command) : State :=
  { s with commands := s.commands.map fun x => if x.sn = c.sn then c else x }

/-- The canonical NaN of fp64. -/
def nan64 : DWord := BitVec.ofNat 64 fp64.nan

/-- The RLC_EXIT record (Table 17.4). -/
def Command.event (c : Command) (code phase pstatus : Nat) (id clock : Word) : List Byte :=
  leBytes 1 0x13 ++ leBytes 1 code ++ leBytes 1 c.rung ++ leBytes 1 (blockField c.block (0xE0 + c.rung) 1) ++
  leBytes 2 c.it ++ leBytes 1 phase ++ leBytes 1 pstatus ++ leBytes 8 c.va.toNat ++
  leBytes 8 (c.final.getD nan64).toNat ++ leBytes 4 id.toNat ++ leBytes 4 clock.toNat

/-- The command's event is posted and its entry is free; a held write of the event is waited for (R329, R332). -/
def State.leaveCommand (s : State) (c : Command) (event : List Byte) : State :=
  match s.writeRing c.ctx (s.ctxField c.ctx 0x10 8) event with
  | (true, s1) => { s1 with commands := s1.commands.filter (·.sn != c.sn) }
  | (false, s1) => s1.putCommand { c with stage := .leaving event }

/-- A command exits with a code (R329): PHASE, PSTATUS and FINAL, the completion word, the event, and its entry is free. -/
def State.exitCommand (s : State) (c : Command) (code phase pstatus : Nat) : State :=
  let s1 := (s.performBytes none (c.key + 0xE6) [BitVec.ofNat 8 phase]).performBytes none (c.key + 0xE7) [BitVec.ofNat 8 pstatus]
  let s2 := if c.final.isNone then s1.performBytes none (c.key + 0xF0) (leBytes 8 nan64.toNat) else s1
  let s3 := match c.cplKey with
    | some k => s2.performBytes none k (leBytes 4 (code + 256 * c.rung + 65536 * (c.it % 65536)))
    | none => s2
  let id := match s.spawns.find? c.owner.spawn with | some p => p.id | none => 0
  if bitsOf (blockField c.block 0xCE 1) (code - 1) 1 = 1 then s3.leaveCommand c (c.event code phase pstatus id (loOf s.clk))
  else { s3 with commands := s3.commands.filter (·.sn != c.sn) }

/-! ## Phases (R326, R328) -/

/-- The spawn record of a phase, its rung written into it and its priority clamped (R326). -/
def Command.record (c : Command) (p : Nat) : Record :=
  let r := parseRecord ((c.block.drop (64 * p)).take 64)
  { r with prio := min r.prio c.prio, rung := c.rung }

/-- RunPhase (R328): cancelled, or the phase's spawn starts, its gangs to be bound by firmware; a bad record or one with no
thread is done at once (R326); with the spawn table full the phase waits. -/
def State.runPhase (s : State) (c : Command) (p : Nat) : State :=
  if c.cancelled || s.mem.num (c.key + 0xE4) 2 != 0 then s.exitCommand c 6 0xFF 0
  else
    let r := c.record p
    let (id, s1) := s.takeId
    if r.bad s.bestParts then s1.putCommand { c with stage := .ended p 0x30 }
    else if r.threads = 0 then s1.putCommand { c with stage := .ended p 0 }
    else
      match s.freeSpawn, s.takeEntries ((natsFrom 0 4).filter fun d => (s.freeEntryOn d).isSome) with
      | some sp, some (e :: es) =>
        ({ s1 with spawns := s1.spawns.put sp (newSpawn id r c.ctx s1.clk c.rung none (some c.sn) 0 (e :: es)) }).putCommand
          { c with stage := .phase p sp }
      | _, _ => s.putCommand { c with stage := .next p }

/-- A command of a die that a controller runs. -/
def Command.running (c : Command) : Bool :=
  match c.stage with
  | .waiting => false
  | _ => true

/-- RLC_COMMAND_START: a cancelled command that waits exits; else a free controller of the die takes the oldest waiting
command, once its thread's earlier accesses are performed (R321, R324, R331). -/
def execRlcCommandStart (die : Nat) (s : State) : Out :=
  let mine := s.commands.filter fun c => c.die == die
  match mine.find? fun c => !c.running && c.cancelled with
  | some c => .next (s.exitCommand c 6 0xFF 0)
  | none =>
    if 2 ≤ (mine.filter Command.running).length then .next s else
    match mine.find? fun c => !c.running with
    | none => .next s
    | some c =>
      if !s.ownerSettled c.owner then .next s
      else if bitsOf (blockField c.block 0xCC 1) 1 1 = 1 then .next (s.putCommand { c with stage := .norm true })
      else .next (s.runPhase c 0)

/-- RLC_PHASE_COMPLETE: the controller observes the end of a phase: FAULT, the next phase, or the norm (R328, R330). -/
def execRlcPhaseComplete (i : Nat) (s : State) : Out :=
  match s.commands.find? (·.sn == i) with
  | none => .next s
  | some c =>
    match c.stage with
    | .next p => .next (s.runPhase c p)
    | .leaving event => .next (s.leaveCommand c event)
    | .ended p st =>
      if st ≠ 0 then .next (s.exitCommand c 5 p st)
      else if p < 2 then .next (s.runPhase c (p + 1))
      else .next (s.putCommand { c with stage := .norm false })
    | _ => .next s

/-! ## The norm unit (R327) -/

/-- The fp64 values in a list of bytes. -/
def doublesOf : List Byte → List Nat
  | b0 :: b1 :: b2 :: b3 :: b4 :: b5 :: b6 :: b7 :: t => leNat [b0, b1, b2, b3, b4, b5, b6, b7] :: doublesOf t
  | _ => []

/-- The norm of a vector (R327): NaN before infinity; the largest magnitude, or the root of the sum of squares that is exact
and rounded once. -/
def normOf (two : Bool) (xs : List Nat) : Nat :=
  let vs := xs.map fp64.decode
  if vs.any FVal.isNan then fp64.nan
  else if vs.any fun v => !v.finite then fp64.infBits
  else if two then
    let sum := finiteSum (vs.map fun v => v.mul v)
    let r := fp64.roundMag 0 false sum.m.toNat sum.e false
    if fp64.maxBits < r.bits then fp64.infBits else (fp64.sqrt 0 (fp64.decode r.bits)).bits
  else (xs.map fun x => x % 2 ^ 63).foldl max 0

/-- nr ≤ t × b on the exact product (R328); a NaN norm fails. -/
def normLe (nr : Nat) (t b : Nat) : Bool :=
  match fp64.decode nr, fp32.decode t, fp64.decode b with
  | .fin n m e, .fin n1 m1 e1, .fin n2 m2 e2 =>
    let d := (dyOf n m e).add (dyOf (!(n1 != n2)) (m1 * m2) (e1 + e2))
    decide (d.m ≤ 0)
  | _, _, _ => false

/-- What the controller decides on a norm (R328): an exit, or the next phase with the loop's variables. -/
inductive Decision where
  | exit (code : Nat)
  | go (c : Command) (p : Nat)
deriving DecidableEq, Repr

/-- The decision after an iteration's norm (R328). -/
def Command.decide' (c0 : Command) (nr : DWord) : Decision :=
  let f := blockField c0.block
  let n := nr.toNat
  if normLe n (f 0xD0 4) c0.bn.toNat then .exit 1
  else
    let above := fun off => match c0.prev with | some p => !normLe n (f off 4) p.toNat | none => false
    let diverged := !(fp64.decode n).finite || above 0xD8
    let stag := if diverged then c0.stag else if above 0xD4 then c0.stag + 1 else 0
    let stagnated := !diverged && Nat.ble (f 0xCF 1) stag
    let spent := !diverged && !stagnated && f 0xDE 2 != 0 && c0.rit == f 0xDE 2
    let top := c0.rung + 1 == f 0xCD 1 % 8
    if top && stagnated then .exit 2
    else if top && diverged then .exit 3
    else if c0.it == f 0xDC 2 || (top && spent) then .exit 4
    else if diverged || stagnated || spent then .go { c0 with rung := c0.rung + 1, rit := 0, stag := 0, prev := none } 0
    else .go { c0 with stag := stag, prev := some nr } 1

/-- What the norm unit reads (R323, R330): the bytes, held, or the status of the lowest byte that meets a cause; a page of
another package gives 6. -/
def State.normSpan (s : State) (ctx va n : Nat) : Span × State :=
  let ((ps, stop), s1) := s.engineRun ctx (fun _ => none) false va n
  if ps.any (·.remote) then (.fail 6, s1)
  else
    match stop with
    | none => (.at_ ps, s1)
    | some none => (.held, s1)
    | some (some st) => (.fail (if st = 1 ∨ st = 3 then 6 else st), s1)

/-- RLC_NORM_DONE: the norm unit has read the vector: a failure exits FAULT with PHASE 3; else the value goes to FINAL, and
to BNORM before the first phase, and the controller decides (R327, R328, R330). A page that is to be zeroed is waited for. -/
def execRlcNormDone (i : Nat) (s : State) : Out :=
  match s.commands.find? (·.sn == i) with
  | none => .next s
  | some c =>
    match c.stage with
    | .norm first =>
      let f := blockField c.block
      (match s.normSpan c.ctx (f 0xC0 8) (8 * f 0xC8 4) with
       | (.held, s1) => .next s1
       | (.fail st, s1) => .next (s1.exitCommand (if first then c else { c with it := c.it + 1 }) 5 3 st)
       | (.at_ ps, s1) =>
         let (m, s1) := s1.asRead none (ps.map fun p => (p.key, p.len))
         let nr := BitVec.ofNat 64 (normOf (f 0xCC 1 % 2 == 1) (doublesOf (ps.flatMap fun p => m.read p.key p.len)))
         let s2 := s1.performBytes none (c.key + 0xF0) (leBytes 8 nr.toNat)
         let c1 := { c with final := some nr }
         if first then
           let s3 := s2.performBytes none (c.key + 0xE8) (leBytes 8 nr.toNat)
           let c2 := { c1 with bn := nr }
           if !(fp64.decode nr.toNat).finite then .next (s3.exitCommand c2 5 3 6) else .next (s3.runPhase c2 0)
         else
           let c2 := { c1 with it := c1.it + 1, rit := c1.rit + 1 }
           match c2.decide' nr with
           | .exit code => .next (s2.exitCommand c2 code 0xFF 0)
           | .go c3 p => .next (s2.runPhase c3 p))
    | _ => .next s

end Sys2Proof.Machine
end

