-- ==== Sys2Proof/Machine/Links.lean ====
section
/-! DEFINITION. The links of the fabric (22): bundles, credits, replay, the flits a link takes and sends, route tables. -/

namespace Sys2Proof.Machine

open Sys2Proof

/-! ## Links, bundles and credits -/

/-- A link that nothing has come over. -/
def LinkSt.blank : LinkSt := ⟨0, [], 0, 0, [], 0⟩
/-- A bundle that has not been trained. -/
def BundleSt.blank : BundleSt := ⟨false, 0, false, false, 0xFFFF, 0, [], none, []⟩
/-- A sub-channel's counts at link training. -/
def Credit.blank : Credit := ⟨0, 0, 0⟩

/-- A link. -/
def State.link (s : State) (l : Nat) : LinkSt := s.fabric.links.get LinkSt.blank l
/-- A bundle of a link. -/
def State.bundle (s : State) (l k : Nat) : BundleSt := s.fabric.bundles.get BundleSt.blank (l * 16 + k)
/-- The counts of a sub-channel of a link. -/
def State.credit (s : State) (l sub : Nat) : Credit := s.fabric.credits.get Credit.blank (l * 64 + sub)
/-- The state with a link, a bundle or a sub-channel's counts replaced. -/
def State.putLink (s : State) (l : Nat) (x : LinkSt) : State :=
  { s with fabric := { s.fabric with links := s.fabric.links.put l x } }
def State.putBundle (s : State) (l k : Nat) (x : BundleSt) : State :=
  { s with fabric := { s.fabric with bundles := s.fabric.bundles.put (l * 16 + k) x } }
def State.putCredit (s : State) (l sub : Nat) (x : Credit) : State :=
  { s with fabric := { s.fabric with credits := s.fabric.credits.put (l * 64 + sub) x } }

/-- The package at the other end of a link (R377): links 0 to 31 are of the board tier, 32 to 63 of the pod tier. -/
def State.peerOf (s : State) (l : Nat) : Nat :=
  if l < 32 then s.podIndex / 32 * 32 + l else (l - 32) * 32 + s.podIndex % 32
/-- The link to a package that is one hop away. -/
def State.linkTo (s : State) (p : Nat) : Option Nat :=
  if p = s.podIndex then none
  else if p / 32 = s.podIndex / 32 then some (p % 32)
  else if p % 32 = s.podIndex % 32 then some (32 + p / 32)
  else none

/-- The key of a link's route-table entry (R388). -/
def State.entryOf (s : State) (l : Nat) : Nat :=
  s.home + (if l < 32 then offBoard + 4 * l else offPod + 4 * (l - 32))
/-- LINK of a link's entry. -/
def State.linkUp (s : State) (l : Nat) : Bool := bitsOf (s.mem.num (s.entryOf l) 4) 5 1 == 1
/-- LIVE of a link's entry. -/
def State.live (s : State) (l : Nat) : Bool := bitsOf (s.mem.num (s.entryOf l) 4) 7 1 == 1
/-- The links that are live. -/
def State.liveLinks (s : State) : List Nat := (natsFrom 0 64).filter s.live
/-- The LINK bits of a tier's table. -/
def State.linkBits (s : State) (pod : Bool) : Word :=
  BitVec.ofNat 32 (((natsFrom 0 32).map fun i => if s.linkUp (if pod then 32 + i else i) then 2 ^ i else 0).foldl (· + ·) 0)

/-- The data bundles of a link in service. -/
def State.dataUp (s : State) (l : Nat) : List Nat := (natsFrom 1 15).filter fun k => (s.bundle l k).up

/-- The sub-channel of a flit (R382): control 0 to 9, data from 10 on. -/
def subOf (data : Bool) (ch hop : Nat) : Nat := (if data then 10 else 0) + ch * 2 + hop
/-- The slots of a sub-channel's receive buffer (Table 22.3). -/
def subSlots (sub : Nat) : Nat := if sub < 8 then 32 else if sub < 10 then 8 else if sub < 12 then 64 else 8

/-- MaySend (R384). -/
def Credit.may (c : Credit) (sub : Nat) : Bool := decide ((c.sent + 2 ^ 32 - c.limit) % 2 ^ 32 < subSlots sub)

/-! ## Sending (R383, R385) -/

/-- The bundle that a message goes out on: bundle 0 for control, or the lowest data bundle while bundle 0 is out of service;
for data a data bundle in service with room for replay, which of them is free (R383, R385, R386; log 7). -/
def State.bundleFor (s : State) (l : Nat) (m : OutMsg) : Option Nat × State :=
  let ups := s.dataUp l
  let room := fun k => decide ((s.bundle l k).replay.length < 64)
  if m.data then
    let ok := ups.filter room
    if ok.isEmpty then (none, s) else
    let (i, s1) := s.choose ok.length
    (some (nth 0 ok i), s1)
  else
    let k := if (s.bundle l 0).up then some 0 else ups.head?
    (k.bind fun k => if room k then some k else none, s)

/-- The order in which a sender takes waiting messages (R383): hop-2 first; on the data plane the channels in turn after the one that
was last sent on. -/
def OutMsg.rank (turn : Nat) (m : OutMsg) : Nat :=
  (1 - m.hop) * 32 +
    (if m.data then (m.ch + 34 - (turn % 17 + 1)) % 17 else match m.ch with | 4 => 0 | 1 => 1 | 2 => 2 | 0 => 3 | _ => 4)

/-- A message of a link's backlog can go out: its sub-channel holds a credit and a bundle has room. -/
def State.canSend (s : State) (l : Nat) (m : OutMsg) : Bool :=
  let sub := subOf m.data m.ch m.hop
  (s.credit l sub).may sub && (s.bundleFor l m).1.isSome

/-- A list without its first element that is equal to a given one. -/
def dropFirst {α : Type} [DecidableEq α] (x : α) : List α → List α
  | [] => []
  | y :: t => if y = x then t else y :: dropFirst x t

/-- The state with a message sent on a link: it takes the bundle's next SEQ, a credit and a place for replay. -/
def State.sendOn (s : State) (l : Nat) (m : OutMsg) : State :=
  match s.bundleFor l m with
  | (none, _) => s
  | (some k, s1) =>
    let b := s1.bundle l k
    let sub := subOf m.data m.ch m.hop
    let c := s1.credit l sub
    let s2 := (s1.putBundle l k { b with tx := (b.tx + 1) % 2 ^ 16, replay := b.replay ++ [m] }).putCredit l sub
      { c with sent := (c.sent + 1) % 2 ^ 32 }
    let x := s2.link l
    { s2.putLink l { x with backlog := dropFirst m x.backlog, turn := if m.data then m.ch else x.turn } with
      transfers := s2.transfers.map fun t => if m.own = some t.xfer then { t with sent := true } else t }

/-- A link sends what it may, in the order of R383. -/
def State.pumpLink (l : Nat) : Nat → State → State
  | 0, s => s
  | n + 1, s =>
    match sortBy (OutMsg.rank (s.link l).turn) ((s.link l).backlog.filter (s.canSend l)) with
    | [] => s
    | m :: _ => State.pumpLink l n (s.sendOn l m)

/-- A link sends what it may. -/
def State.pump (s : State) (l : Nat) : State := State.pumpLink l (s.link l).backlog.length s

/-- The flits of a message: a record takes three, every other message one (R380; log 17). -/
def FMsg.flits (m : FMsg) : Nat := match m with | .post _ _ _ _ _ => 3 | _ => 1

/-- A message handed to a link, as its flits one behind the other (R380). -/
def State.pushLink (s : State) (l : Nat) (m : OutMsg) : State :=
  (s.putLink l { s.link l with
    backlog := (s.link l).backlog ++ (natsFrom 0 m.msg.flits).map fun i => { m with part := i } }).pump l

/-- A message on its way to a package by a path. -/
def State.postBy (s : State) (m : OutMsg) (r : Route) : State :=
  let next := match r with
    | .direct => some m.dst
    | .via p => some p
    | .none => Option.none
  match next.bind s.linkTo with
  | some l => s.pushLink l m
  | none => s

/-- A message on its way to a package, by the route that holds now; none where there is none (R390). -/
def State.post (s : State) (m : OutMsg) (xfer : Nat) : State := s.postBy m (s.route m.dst xfer)

/-- A message of CMGT on every live link. -/
def State.flood (s : State) (links : List Nat) (msg : FMsg) : State :=
  links.foldl (fun s l => s.pushLink l ⟨s.peerOf l, false, 4, 0, msg, none, 0⟩) s

/-- The packages of the pod that are live, this one first: known by the reach table and not lost (R349). -/
def State.livePackages (s : State) : List Nat :=
  s.podIndex :: (natsFrom 0 1024).filter fun p => p != s.podIndex && bitsOf (s.reach p) 0 1 == 1 && !s.lost p

/-- A message of CMGT for every live package of the pod: on every live link, and by their routes to those two hops away. -/
def State.broadcast (s : State) (msg : FMsg) : State :=
  (s.livePackages.filter fun p => p != s.podIndex && (s.linkTo p).isNone).foldl
    (fun s p => s.post ⟨p, false, 4, 0, msg, none, 0⟩ 0) (s.flood s.liveLinks msg)

/-! ## The state of a link (R387 to R389) -/

/-- A link's route entry follows its bundles and its peer's silence (Table 22.4); a change of LINK is broadcast (R389). -/
def State.refreshLink (s : State) (l : Nat) : State :=
  let k := s.entryOf l
  let data := (s.dataUp l).length
  let quiet := decide (80000 ≤ (s.clk - (s.link l).heard).toNat)
  let link := decide (1 ≤ data) && !quiet
  let peer := bitsOf (s.mem.num k 4) 6 1 == 1
  let word := data + (if (s.bundle l 0).up then 16 else 0) + (if link then 32 else 0) + (if peer then 64 else 0) +
    (if link && peer then 128 else 0)
  let s0 := s.performBytes none k (leBytes 4 word)
  let s1 := { s0 with fabric := { s0.fabric with
    alone := if s0.liveLinks.isEmpty then (match s0.fabric.alone with | some x => some x | none => some s0.clk) else none } }
  if link = s.linkUp l then s1
  else s1.broadcast (.linkState (s1.linkBits false) (s1.linkBits true))

/-- The record of a receive bundle in the field log (Table 21.5): by tier, the wavelength its peer is heard on, and
bundle. -/
def State.bundleLog (s : State) (l k : Nat) : Nat :=
  let w := if l < 32 then (s.podIndex % 32 + 32 - l) % 32 else (s.podIndex / 32 + 32 - (l - 32)) % 32
  0x8000 + 16 * (16 * (32 * (l / 32) + w) + k)

/-- A bundle goes out of service: its unacknowledged flits go to the link's other bundles (R386). -/
def State.dropBundle (s : State) (l k : Nat) : State :=
  let b := s.bundle l k
  let x := s.link l
  let s1 := (s.putBundle l k { b with up := false, replay := [], gap := false, failed := false, again := none }).putLink l
    { x with backlog := b.replay ++ x.backlog }
  (s1.refreshLink l).pump l

/-! ## Receiving (R380, R385, R386) -/

/-- A flit of a bundle meets its sequence: accepted, or dropped with a NAK; one that fails twice takes its bundle out of
service. An accepted flit frees its slot at once. -/
def State.takeFlit (s : State) (l k sub seq : Nat) (ok : Bool) : Bool × State :=
  let b := s.bundle l k
  if !b.up then (false, s) else
  let s0 := (s.putLink l { s.link l with heard := s.clk }).refreshLink l
  let b := s0.bundle l k
  if !ok then
    if b.failed && seq == b.rx then (false, s0.dropBundle l k)
    else (false, s0.putBundle l k { b with gap := true, failed := b.failed || !b.gap })
  else if seq ≠ b.rx then (false, s0.putBundle l k { b with gap := true })
  else
    let s1 := if b.failed then s0.countError (s0.bundleLog l k) false false false else s0
    let c := s1.credit l sub
    (true, (s1.putBundle l k { b with rx := (b.rx + 1) % 2 ^ 16, gap := false, failed := false }).putCredit l sub
      { c with freed := (c.freed + 1) % 2 ^ 32 })

/-- A flit that arrives for another package moves on to the hop-2 sub-channel of its channel; where the onward link is down
it cannot be forwarded (R382, R391). -/
def State.relay (s : State) (dst : Nat) (data : Bool) (ch : Nat) (msg : FMsg) : State :=
  match s.linkTo dst with
  | some l => if s.live l then s.pushLink l ⟨dst, data, ch, 1, msg, none, 0⟩ else s
  | none => s

/-- ACK: the flits up to SEQ are acknowledged and leave the replay buffer (R385). -/
def State.acknowledge (s : State) (l k n : Nat) : State :=
  let b := s.bundle l k
  if n ≤ b.replay.length then s.putBundle l k { b with replay := b.replay.drop n, again := none } else s

/-- How many kept flits come before a SEQ. -/
def BundleSt.before (b : BundleSt) (seq : Nat) : Nat := (seq + 2 ^ 16 + b.replay.length - b.tx) % 2 ^ 16

/-- ACK (R385). -/
def execAck (link bundle : Nat) (seq : BitVec 16) (s : State) : Out :=
  let b := s.bundle link bundle
  let n := (b.before seq.toNat + 1) % 2 ^ 16
  .next (((s.putLink link { s.link link with heard := s.clk }).acknowledge link bundle n).pump link)

/-- NAK: what comes before SEQ is acknowledged; the rest is sent again, from that SEQ on. A second NAK for one SEQ takes the
bundle out of service at its sender (R385, R386). -/
def execNak (link bundle : Nat) (seq : BitVec 16) (s : State) : Out :=
  let b := s.bundle link bundle
  let n := b.before seq.toNat
  if b.replay.length ≤ n then .next s
  else if b.again = some seq.toNat then .next (s.dropBundle link bundle)
  else
    let s1 := (s.putLink link { s.link link with heard := s.clk }).acknowledge link bundle n
    .next (s1.putBundle link bundle { s1.bundle link bundle with again := some seq.toNat })

/-- ACK_TIMER: the receiver acknowledges what it has accepted (R385). -/
def execAckTimer (link bundle : Nat) (s : State) : Out :=
  let b := s.bundle link bundle
  .next (if b.up then s.putBundle link bundle { b with acked := (b.rx + 0xFFFF) % 2 ^ 16 } else s)

/-- OnCreditValue for each pair of a flit (R384). -/
def State.takeCredits (s : State) (l : Nat) (pairs : List (Nat × BitVec 32)) : State :=
  (pairs.foldl (fun (s : State) p =>
    let c := s.credit l p.1
    if (p.2.toNat + 2 ^ 32 - c.limit) % 2 ^ 32 < 2 ^ 31 then s.putCredit l p.1 { c with limit := p.2.toNat } else s)
    (s.putLink l { s.link l with heard := s.clk })).pump l

/-- CREDIT (R384). -/
def execCredit (link : Nat) (pairs : List (Nat × BitVec 32)) (s : State) : Out := .next (s.takeCredits link pairs)
/-- CSYNC (R384). -/
def execCsync (link : Nat) (pairs : List (Nat × BitVec 32)) (s : State) : Out := .next (s.takeCredits link pairs)

/-- CSYNC_TIMER: the counts freed go out again (R384). -/
def execCsyncTimer (link : Nat) (s : State) : Out :=
  .next (if (s.dataUp link).isEmpty then s else s.putLink link { s.link link with csyncAt := s.clk })

/-- The fibre of a lane of a bundle, among both tiers' (R379). -/
def fibreOf (l k lane : Nat) : Nat := l / 32 * 64 + k * 4 + lane / 2

/-- BUNDLE_RETRAIN_DONE: a spare laser of the failing lane's fibre is tuned and the bundle returns to service; where it fails, no spare is
left there, or that lane was retrained before, it stays out, a lasting classification (R386). The receiver's counts name the lane: which
it is is free (log 7). The first training, at bring-up, takes no spare. -/
def execBundleRetrainDone (link bundle : Nat) (ok : Bool) (s : State) : Out :=
  let b := s.bundle link bundle
  let first := b.tx == 0 && b.rx == 0 && b.retrained.isEmpty
  if b.up then .next s
  else
    let (lane, s0) := if first then (0, s) else s.choose 8
    let fibre := fibreOf link bundle lane
    let left := s0.fabric.spares.get 2 fibre
    if ok && (first || (left != 0 && !b.retrained.contains lane)) then
      let s1 := s0.putBundle link bundle
        { b with up := true, rx := 0, gap := false, failed := false, acked := 0xFFFF, tx := 0, replay := [], again := none,
                 retrained := if first then b.retrained else b.retrained ++ [lane] }
      let s2 := if first then s1 else { s1 with fabric := { s1.fabric with spares := s1.fabric.spares.put fibre (left - 1) } }
      .next (((s2.putLink link { s2.link link with heard := s2.clk }).refreshLink link).pump link)
    else .next (s0.countError (s0.bundleLog link bundle) false true true)

/-- LINK_RETRAIN_TIMER: firmware retrains a down link: the counts of its sub-channels start anew (R384, R387); its bundles
return by BUNDLE_RETRAIN_DONE. -/
def execLinkRetrainTimer (link : Nat) (s : State) : Out :=
  if s.linkUp link ∨ (s.clk - (s.link link).trainedAt).toNat < 8000000 then .next s
  else
    .next { s.putLink link { s.link link with trainedAt := s.clk, parts := [] } with
      fabric := { (s.putLink link { s.link link with trainedAt := s.clk, parts := [] }).fabric with
        credits := s.fabric.credits.filter fun e => e.1 / 64 != link } }

end Sys2Proof.Machine
end

