-- ==== Sys2Proof/Machine/Translation.lean ====
section
/-! DEFINITION. Invalidation of translations, zeroing on allocation and the rebuilding of a directory (20, 22). -/

namespace Sys2Proof.Machine

open Sys2Proof

/-! ## Invalidation (R348 to R350) -/

/-- The key of a host core's invalidation block (Table 20.4). -/
def State.invalBlock (s : State) (h : Nat) : Nat := s.home + offInval + 64 * h

/-- An address range of an invalidation, in 64 KiB units of one space; a count of 0 is the whole space (Table 20.4). -/
def inRange (base : DWord) (count first n : Nat) (space : Nat) : Bool :=
  base.toNat / 2 ^ 61 == space &&
  (count == 0 || (decide (first < base.toNat % 2 ^ 48 / 65536 + count) && decide (base.toNat % 2 ^ 48 / 65536 < first + n)))

/-- The range covers a virtual address. -/
def coversVa (base : DWord) (count : Nat) (va : DWord) : Bool :=
  inRange base count (va.toNat % 2 ^ 48 / 65536) 1 (va.toNat / 2 ^ 61)

/-- An ASID is named: 0xFFFF names every one. -/
def asidHit (asid x : Nat) : Bool := asid == 0xFFFF || asid == x

/-- An entry, or a page of entries, of `bits` address bits that the buffers may hold is covered by an invalidation: a unit of the range
lies in it (Table 20.4). -/
def coversEntry (base : DWord) (count asid bits key : Nat) : Bool :=
  asidHit asid (key / 2 ^ 51) &&
  inRange base count (key % 2 ^ 48 / 65536) (2 ^ (bits - 16)) (key / 2 ^ 48 % 2)

/-- All that a page of entries covers lies in the range. -/
def coversPage (base : DWord) (count asid key : Nat) : Bool :=
  let level := keyLevel key
  let first := key % 2 ^ 48 / 65536
  asidHit asid (key / 2 ^ 51) && base.toNat / 2 ^ 61 == key / 2 ^ 48 % 2 &&
  (count == 0 || (decide (base.toNat % 2 ^ 48 / 65536 ≤ first) &&
    decide (first + 2 ^ (levelBits level + (if level = 0 then 5 else 9) - 16) ≤ base.toNat % 2 ^ 48 / 65536 + count)))

/-- An invalidation arrives (R349). -/
def State.takeInval (s : State) (base : DWord) (count asid : Nat) (src : Option (Nat × Nat)) : State :=
  { s with
    invals := s.invals ++ [{ base := base, count := count, asid := asid, sn := s.sn, src := src }]
    sn := s.sn + 1 }

/-- The buffers and walkers drop the entries, leaf or non-leaf, that an invalidation covers (R350). -/
def Tlb.drop (t : Tlb) (x : Inval) : Tlb :=
  { tables := (t.tables.mapVals fun _ ks => ks.filter fun k => !coversPage x.base x.count x.asid k).filter fun e => !e.2.isEmpty
    olds := t.olds.filter fun e => !coversEntry x.base x.count x.asid (levelBits (keyLevel e.1)) e.1 }

/-- A transfer was begun before an invalidation's buffers were dropped, and carries a part of a copy block or a read (R350). -/
def Transfer.olderBlock (t : Transfer) (x : Inval) : Bool :=
  (match t.kind with | .piece _ _ _ _ _ _ => true | .read _ _ _ _ _ => true | _ => false) &&
  decide ((BitVec.ofNat 32 (x.sn * 64) - t.xfer).toNat < 2 ^ 31)

/-- Nothing that used a dropped translation is outstanding (R350): accesses, and the loads and stores of regions still open, are
performed; no block of a copy is in progress; the copies and commands that hold the translation of their CPL have completed. -/
def State.invalDrained (s : State) (x : Inval) : Bool :=
  let hit := fun ctx => asidHit x.asid (s.asid ctx)
  !(s.accesses.any fun a => decide (a.sn < x.sn * 64) && hit (s.ctxOf a.gang) && coversVa x.base x.count a.va) &&
  !(s.scaleLoads.any fun a => decide (a.sn < x.sn * 64) && hit (s.ctxOf a.gang)) &&
  !(s.gangs.any fun e => hit (s.ctxOf e.1) && e.2.threads.any fun t =>
    match t.region with | some r => decide (r.born.1 < x.sn) && (!r.stores.isEmpty || !r.loads.isEmpty) | none => false) &&
  !(s.posts.any fun p => decide (p.sn < x.sn * 64) && p.away.isNone && hit p.ctx) &&
  !(s.transfers.any fun t => t.olderBlock x) &&
  !(s.copies.any fun c => hit c.ctx && !c.staged.isEmpty) &&
  !(s.copies.any fun c => decide (c.sn < x.sn * 64) && c.cplKey.isSome && hit c.ctx && coversVa x.base x.count c.desc.cpl) &&
  !(s.commands.any fun c => decide (c.sn < x.sn * 64) && c.cplKey.isSome && hit c.ctx &&
    coversVa x.base x.count (BitVec.ofNat 64 (leNat ((c.block.drop 0xF8).take 8))))

/-- The status bits and NACK of an invalidation block: BUSY and NACK as given, DONE and ERR as `old` leaves them and as set here; only
software clears ERR, and a GO that starts clears DONE (Table 20.4, R6; log 57). -/
def State.setInval (s : State) (h : Nat) (busy : Bool) (old set nack : Nat) : State :=
  let was := s.mem.num (s.invalBlock h + 0x14) 1
  s.performBytes none (s.invalBlock h + 0x14)
    [BitVec.ofNat 8 ((if busy then 1 else 0) + ((was &&& old) ||| set)), BitVec.ofNat 8 (min nack 255)]

/-- An acknowledgement for a block: DONE once every live package has answered (R350). -/
def State.ackInval (s : State) (h pkg : Nat) : State :=
  match s.invalWait.find? h with
  | none => s
  | some w =>
    let w' := w.filter (· != pkg)
    if w'.isEmpty then { s with invalWait := s.invalWait.erase h }.setInval h false 4 2 0
    else { s with invalWait := s.invalWait.put h w' }.setInval h true 4 0 w'.length

/-- INVALIDATION_GO: the range of a host core's block is sent to every live package; a GO while BUSY is ignored, a bad range
sets ERR (R349). -/
def execInvalidationGo (h : Nat) (s : State) : Out :=
  let k := s.invalBlock h
  let base := BitVec.ofNat 64 (s.mem.num k 8)
  let count := s.mem.num (k + 8) 4
  let asid := s.mem.num (k + 12) 2
  if 32 ≤ h ∨ s.mem.num (k + 0x14) 1 % 2 = 1 then .next s
  else if base.toNat % 65536 ≠ 0 ∨ 2 ≤ base.toNat / 2 ^ 61 then .next (s.setInval h false 6 4 0)
  else
    let live := s.livePackages
    let s1 := ({ s with invalWait := s.invalWait.put h live }).setInval h true 4 0 live.length
    let s2 := live.foldl (fun (s : State) p =>
      if p = s.podIndex then s else s.post ⟨p, false, 4, 0, .invalidate h base count asid, Option.none, 0⟩ 0) s1
    .next (s2.takeInval base count asid (some (s.podIndex, h)))

/-- INVALIDATION_REQUEST: a request is taken; one that has been taken drops what the buffers hold of its range, and is acknowledged
once nothing that used it is outstanding (R350). -/
def execInvalidationRequest (base : BitVec 64) (count : BitVec 32) (asid : BitVec 16) (s : State) : Out :=
  match s.invals.find? fun x => x.base == base && x.count == count.toNat && x.asid == asid.toNat with
  | none => .next (s.takeInval base count.toNat asid.toNat none)
  | some x =>
    if !x.dropped then
      .next { s with
        tlb := s.tlb.drop x
        invals := s.invals.map fun y => if y.sn = x.sn then { y with dropped := true, sn := s.sn } else y
        sn := s.sn + 1 }
    else if !s.invalDrained x then .next s else
    let s1 := { s with invals := s.invals.filter (·.sn != x.sn) }
    match x.src with
    | some (p, h) =>
      if p = s1.podIndex then .next (s1.ackInval h p)
      else .next (s1.post { dst := p, data := false, ch := 4, hop := 0, msg := .invalAck h } 0)
    | none => .next s1

/-- INVALIDATION_ACK: another package has acknowledged (R350). -/
def execInvalidationAck (h pkg : Nat) (s : State) : Out := .next (s.ackInval h pkg)

/-! ## Zeroing on allocation (R351, R352) -/

/-- The ranges of keys of a frame: one, or an eighth in each stack for a spread frame (R305). -/
def Zeroing.ranges (z : Zeroing) : List (Nat × Nat) :=
  if z.spread then (natsFrom 0 8).map fun i => (z.frame + i * 2 ^ 36, z.size / 8) else [(z.frame, z.size)]

/-- A key lies in one of a list of ranges. -/
def inRanges (rs : List (Nat × Nat)) (k : Nat) : Bool := rs.any fun r => decide (r.1 ≤ k ∧ k < r.1 + r.2)

/-- Two requests are for one frame, and the controller has taken both: it merges them (R352). -/
def Zeroing.merged (z y : Zeroing) : Bool := y.started && y.frame == z.frame && y.size == z.size && y.spread == z.spread

/-- The keys of some ranges are zero, with every cached copy of their lines invalid (R351). -/
def State.zeroRanges (s : State) (hit : Nat → Bool) (rs : List (Nat × Nat)) : State :=
  let m := s.mem.filter fun e => !hit e.1
  { s with
    mem := m
    rewritten := if s.spawns.isEmpty then s.rewritten else
      (s.mem.filter fun e => hit e.1 && decide (e.1 < 2 ^ 50)).foldl (fun w e => w.put e.1 (e.2, s.clk)) s.rewritten
    l1 := s.l1.filter fun e =>
      !rs.any fun r => let a := if isL1Tensor e.1 then 2 ^ 50 + e.1 % 2 ^ 42 * 128 else e.1 % 2 ^ 42 * 128
        overlaps a 128 r.1 r.2
    tlb := (s.mem.filter fun e => hit e.1).foldl (fun t e => t.changed s.mem m (e.1 / 8 * 8) 8) s.tlb
    watches := rs.foldl (fun ws r => evalWatches m none r.1 r.2 ws) s.watches }

/-- A part of a frame, which part is free, is zero before the rest: accesses through other mappings of the frame may come before or after
the zero at each byte (R352; log 7). -/
def State.zeroPart (s : State) (z : Zeroing) : State :=
  let (i, s1) := s.choose z.ranges.length
  let r := nth (z.frame, z.size) z.ranges i
  let (a, s2) := s1.choose r.2
  let (n, s3) := s2.choose (r.2 - a)
  let part := (r.1 + a, min (n + 1) (r.2 - a))
  let s4 := s3.zeroRanges (fun k => inRanges [part] k && !inRanges z.passed k) [part]
  { s4 with zeroing := s4.zeroing.map fun y => if z.merged y then { y with passed := y.passed ++ [part] } else y }

/-- ZEROING_REQUEST: a controller takes a frame; it merges requests for one frame and holds 64 at once; with one that it has taken it goes
on (R352). -/
def execZeroingRequest (i : Nat) (s : State) : Out :=
  match nth none (s.zeroing.map some) i with
  | none => .next s
  | some z =>
    let busy := s.zeroing.filter (·.started)
    if z.started then .next (s.zeroPart z)
    else if 64 ≤ (busy.map (·.frame)).eraseDups.length && !busy.any fun y => y.frame == z.frame then .next s
    else
      let passed := match busy.find? fun y => ({ z with started := true } : Zeroing).merged y with | some y => y.passed | none => []
      .next { s with zeroing := setNth s.zeroing i { z with started := true, passed := passed } }

/-- A frame is zero: every cached copy invalid, every byte that was not zeroed before 0, its poison cleared (R351, R141). -/
def State.zeroFrame (s : State) (z : Zeroing) : State :=
  let s1 := s.zeroRanges (fun k => inRanges z.ranges k && !inRanges z.passed k) z.ranges
  { s1 with poison := s1.poison.filter fun d => match d with | .unit k => !inRanges z.ranges k | _ => true }

/-- Z of the entry that a walk read is cleared by compare-and-swap (R351). -/
def State.clearZ (s : State) (z : Zeroing) : State :=
  if s.mem.num z.entryAt 8 = z.entry then
    s.performBytes none z.entryAt (leBytes 8 (if bitsOf z.entry 5 1 = 1 then z.entry - 32 else z.entry))
  else s

/-- ZEROING_COMPLETE: the frame is zeroed, Z is cleared by compare-and-swap on the entry that each of the merged requests' walks read, and
the held accesses walk again (R351, R352). -/
def execZeroingComplete (i : Nat) (s : State) : Out :=
  match nth none (s.zeroing.map some) i with
  | none => .next s
  | some z =>
    if !z.started then .next s else
    let s1 := (s.zeroing.filter z.merged).foldl State.clearZ (s.zeroFrame z)
    .next { s1 with zeroing := s1.zeroing.filter fun y => !z.merged y }

/-- DIRECTORY_REBUILD: the mirror has rebuilt a lost home's directory; the held accesses go on (R398). -/
def execDirectoryRebuild (pkg : Nat) (s : State) : Out :=
  .next { s with
    rebuilding := s.rebuilding.filter (· != pkg)
    fabric := { s.fabric with rebuilt := s.fabric.rebuilt.erase pkg } }

end Sys2Proof.Machine
end

