-- ==== Sys2Proof/Machine/Care.lean ====
section
/-! DEFINITION. Power, bring-up, reset, thermal gating, UNLOCK and the lifetime field log (21). -/

namespace Sys2Proof.Machine

open Sys2Proof

/-! ## Reset and power (R370, R373) -/

/-- The machine after a reset or a loss of power: every volatile state as after State.reset; the flash, what the field log
holds, the replaced rows of its memory, the identity of the package and the model's own counters stay (R373). -/
def State.restart (s : State) (dark : Bool) : State :=
  { State.reset with
    mem := s.mem.filter fun e => inFlash e.1
    podIndex := s.podIndex
    health := { State.reset.health with retired := s.care.loggedRetired, counts := s.care.logged, spares := s.health.spares }
    care := { State.reset.care with
      dark := dark, logged := s.care.logged, loggedRetired := s.care.loggedRetired, copy := s.care.copy }
    fabric := { State.reset.fabric with spares := s.fabric.spares }
    inputs := s.inputs, sn := s.sn, cycle := s.cycle, free := s.free }

/-- POWER_FAIL: the package stops at once and every volatile state is lost (R370). -/
def execPowerFail (s : State) : Out := .next (s.restart true)

/-- RESET: power is there and bring-up runs again (R373). -/
def execReset (s : State) : Out := .next (s.restart false)

/-! ## Bring-up (R372) -/

/-- The state at the end of the last step of bring-up: every scratchpad is zero (R373, R273). -/
def State.broughtUp (s : State) : State :=
  { s with
    mem := s.mem.filter fun e => !isScratchKey e.1
    poison := s.poison.filter fun d => match d with | .unit k => !isScratchKey k | _ => true
    care := { s.care with done := 6 } }

/-- BRING_UP: the next step of Table 21.2 has finished or failed: a failed boot falls back to the second image once and
then leaves the package dark; a failed step 2 or 3 keeps it out of the pod; a failure of a later step leaves bundles out of
service or peers unreached (R372). -/
def execBringUp (ok : Bool) (s : State) : Out :=
  let c := s.care
  let put := fun (x : Care) => ({ s with care := x } : State)
  .next (
    if c.dark || c.failed || decide (6 ≤ c.done) then s
    else if c.done = 0 then
      (if ok then put { c with done := 1 } else if c.tries = 0 then put { c with tries := 1 } else put { c with dark := true })
    else if c.done ≤ 2 then (if ok then put { c with done := c.done + 1 } else put { c with failed := true })
    else if c.done ≤ 4 then put { c with done := c.done + 1 }
    else s.broughtUp)

/-! ## Cooling (R371) -/

/-- THERMAL_SAMPLE: at 110 degrees the package stops; at 100 a die's issue is gated until it falls below 95. Gating changes
timing only. -/
def execThermalSample (die temp : Nat) (s : State) : Out :=
  let others := s.care.gated.filter (· != die)
  if 110 ≤ temp then .next (s.restart true)
  else if 100 ≤ temp then .next { s with care := { s.care with gated := others ++ [die] } }
  else if temp < 95 then .next { s with care := { s.care with gated := others } }
  else .next s

/-! ## UNLOCK (R374) -/

/-- A block's key (Table 21.4): 0 HBM controller, 1 dispatch and placement policy, 2 fabric interface, 3 power manager, 4
collective engine. -/
def blockKey (blk : Nat) : Option Nat :=
  match blk with
  | 0 => some 0x4B51
  | 1 => some 0x3D0E
  | 2 => some 0x7A26
  | 3 => some 0x1C93
  | 4 => some 0x6F02
  | _ => none

/-- A block's OPEN and BADKEY. -/
def State.unlockOf (s : State) (blk : Nat) : Bool × Nat := s.care.unlock.get (false, 0) blk
/-- A block's UNLOCK register as it reads (Table 21.3). -/
def State.unlockWord (s : State) (blk : Nat) : Nat :=
  (s.unlockOf blk).2 * 2 ^ 24 + if (s.unlockOf blk).1 then 2 ^ 16 else 0

/-- The control page of the collective engine, whose word 0 is its UNLOCK (R400). -/
def State.collPage (s : State) : Nat := s.home + offCollective + 0x40

/-- UNLOCK: the block's key opens it, 0 closes it, any other value closes it and is counted (Table 21.3). -/
def execUnlock (blk : Nat) (value : BitVec 32) (s : State) : Out :=
  match blockKey blk with
  | none => .next s
  | some key =>
    let v := value.toNat % 65536
    let bad := (s.unlockOf blk).2
    let r : Bool × Nat := if v = key then (true, bad) else if v = 0 then (false, bad) else (false, min 255 (bad + 1))
    let s1 : State := { s with care := { s.care with unlock := s.care.unlock.put blk r } }
    .next (if blk = 4 then s1.performBytes none s1.collPage (leBytes 4 (s1.unlockWord 4)) else s1)

/-! ## The lifetime field log (R375, R376) -/

/-- One step of CRC-32 (R376; the polynomial of R381, reflected as in IEEE 802.3). -/
def crcBit : Nat → Nat → Nat
  | 0, c => c
  | n + 1, c => crcBit n (if c % 2 = 1 then (c / 2) ^^^ 0xEDB88320 else c / 2)
/-- CRC-32 of a list of bytes. -/
def crc32 (bs : List Byte) : Nat := (bs.foldl (fun c b => crcBit 8 (c ^^^ b.toNat)) 0xFFFFFFFF) ^^^ 0xFFFFFFFF

/-- The bytes that Table 21.5 gives a copy. -/
def logSize : Nat := 0x14700

/-- A copy of the field log (Table 21.5) from the live counters, CRC as given. -/
def logCopy (counts : SMap Nat) (crc : Nat) : List Byte :=
  (natsFrom 0 (logSize / 4)).flatMap fun i =>
    leBytes 4 (if i = 0 then 0x4C514B39 else if i = 3 then crc else counts.get 0 (4 * i))

/-- The key of a copy: the two lie one after the other in the log's 4 MiB (R375). -/
def State.logKey (s : State) (copy : Nat) : Nat := s.home + 0x7F1C00000 + copy * 0x200000

/-- FIELD_LOG_WRITE: the live counters go to the older copy, with SEQ advanced and the copy's CRC (R376). -/
def execFieldLogWrite (s : State) : Out :=
  let counts := s.health.counts.set 0 4 ((s.health.counts.get 0 4 + 1) % 2 ^ 32)
  let copy := 1 - s.care.copy
  let bytes := logCopy counts (crc32 (logCopy counts 0))
  let s1 := s.performBytes none (s.logKey copy) bytes
  .next { s1 with
    health := { s1.health with counts := counts }
    care := { s1.care with logged := counts, loggedRetired := s1.health.retired, copy := copy } }

/-- Counters raised, one for each entry of a list, whose records stand a fixed number of bytes apart. -/
def State.countEach (s : State) (base apart : Nat) (bins : List Nat) : State :=
  (mapNumbered (fun i b => base + apart * i + 4 * b) 0 bins).foldl State.countAt s

/-- POWERED_HOURS: HOURS and one bin of each histogram advance, saturating (Table 21.5). -/
def execPoweredHours (bins : HourBins) (s : State) : Out :=
  let s1 := (s.countAt 8).countEach 0x10000 256 (bins.temp.map fun b => min b 63)
  .next ((((s1.countAt (0x10500 + 4 * min bins.vin 63)).countAt (0x10600 + 4 * (bins.state % 4))).countEach 0x10700 64
    (bins.laser.map fun b => min b 15)))

end Sys2Proof.Machine
end

