-- ==== Sys2Proof/Machine/Coll.lean ====
section
/-! DEFINITION. The collective engine (23): communicators and their graphs, runs, chunks, completion and failure. -/

namespace Sys2Proof.Machine

open Sys2Proof

/-! ## Communicator entries (Table 23.1) -/

/-- The key of a communicator's entry. -/
def State.comm (s : State) (k : Nat) : Nat := s.home + offCollective + 0x100 + 64 * k
/-- STATE: 0 EMPTY, 1 LOADING, 2 READY, 3 RUNNING, 4 FAILED. -/
def State.commState (s : State) (k : Nat) : Nat := bitsOf (s.mem.num (s.comm k + 0xA) 1) 4 3
/-- CTX. -/
def State.commCtx (s : State) (k : Nat) : Nat := s.mem.num (s.comm k + 8) 2
/-- RUNSEQ. -/
def State.runSeq (s : State) (k : Nat) : Nat := s.mem.num (s.comm k + 0xC) 4
/-- The state with STATE written. -/
def State.setComm (s : State) (k st : Nat) : State := s.performBytes none (s.comm k + 0xA) [BitVec.ofNat 8 (st * 16)]
/-- The state with LOADERR written. -/
def State.setLoadErr (s : State) (k e : Nat) : State := s.performBytes none (s.comm k + 0xB) [BitVec.ofNat 8 e]
/-- The state with RUNSEQ written. -/
def State.setRunSeq (s : State) (k n : Nat) : State := s.performBytes none (s.comm k + 0xC) (leBytes 4 (n % 2 ^ 32))
/-- A saturating count of an entry raised: DUPS at 0x10, STALE at 0x14. -/
def State.commCount (s : State) (k off : Nat) : State :=
  let v := s.mem.num (s.comm k + off) 4
  s.performBytes none (s.comm k + off) (leBytes 4 (if v < 0xFFFFFFFF then v + 1 else v))
/-- QUEUED follows the queue. -/
def State.setQueued (s : State) (k : Nat) : State :=
  s.performBytes none (s.comm k + 0x18)
    [BitVec.ofNat 8 (min 255 (s.runs.filter fun r => r.k == k && !r.started).length)]

/-! ## Graphs (R402) -/

/-- A range that the engine reads with a permission but without E: its pieces, held, or a failure. -/
def State.plainSpan (s : State) (ctx va n : Nat) : Span × State :=
  (chunksOf (n / 8192 + 2) va n).foldl (fun (acc : Span × State) c =>
    match acc.1 with
    | .at_ ps =>
      (match acc.2.frontSpot ctx Leaf.r true c.1 with
       | (.fail st, s1) => (.fail st, s1)
       | (.held, s1) => (.held, s1)
       | (.at_ k _, s1) =>
         if s1.piecePoisoned false ⟨k, c.2, false⟩ then (.fail 4, s1) else (.at_ (ps ++ [⟨k, c.2, false⟩]), s1))
    | x => (x, acc.2)) (.at_ [], s)

/-- The bytes of the pieces of a span in local memory. -/
def State.piecesBytes (s : State) (ps : List Piece) : List Byte := ps.flatMap fun p => s.mem.read p.key p.len

/-- The operation in 32 bytes (Table 23.3), its successors from the successor array. -/
def parseOp (succ : List Nat) (b : List Byte) : GraphOp :=
  let f := fun off n => leNat ((b.drop off).take n)
  { kind := f 0 1, dtype := f 1 1, peer := f 2 2, peerop := f 4 2, ndep := f 6 2, size := f 8 4, base := f 0xC 1 % 4
    srcBase := bitsOf (f 0xC 1) 4 2, off := f 0x10 4, off2 := f 0x14 4, succs := (succ.drop (f 0x18 4)).take (f 0xE 2) }

/-- The successors of an operation lie in the array. -/
def succsIn (nsucc : Nat) (b : List Byte) : Bool :=
  decide (leNat ((b.drop 0x18).take 4) + leNat ((b.drop 0xE).take 2) ≤ nsucc)

/-- The operation adds (R405). -/
def GraphOp.adds (o : GraphOp) : Bool := o.kind == 1 || o.kind == 3
/-- Bytes of an element. -/
def GraphOp.elem (o : GraphOp) : Nat := match o.dtype with | 1 => 2 | 3 => 8 | _ => 4
/-- The operation has a partner. -/
def GraphOp.paired (o : GraphOp) : Bool := decide (o.kind ≤ 2)

/-- The number of times an operation appears in successor lists. -/
def appears (ops : List GraphOp) (i : Nat) : Nat := (ops.flatMap (·.succs)).count i

/-- Rounds of removing operations without predecessors: the counts left, with removed operations at none. -/
def peelOnce (ops : List GraphOp) (left : List (Option Nat)) : List (Option Nat) :=
  let gone := (natsFrom 0 ops.length).filter fun i => nth none left i == some 0
  let hits := (gone.map fun i => (nth ⟨4, 0, 0, 0, 0, 0, 0, 0, 0, 0, []⟩ ops i).succs).flatten
  mapNumbered (fun i x => if gone.contains i then none else x.map fun n => n - hits.count i) 0 left
/-- The operations contain no cycle. -/
def acyclicFrom (ops : List GraphOp) : Nat → List (Option Nat) → Bool
  | 0, left => left.all (·.isNone)
  | n + 1, left => if left.all (·.isNone) then true else acyclicFrom ops n (peelOnce ops left)

/-- A bit of MEMBERS. -/
def memberBit (members p : Nat) : Bool := bitsOf members p 1 == 1

/-- The first of checks 1 to 5 that operations and successor indexes fail, 0 for none; check 3 where they are the whole image's (R402). -/
def graphErrorIn (whole : Bool) (self nops nsucc members : Nat) (raw : List (List Byte)) (succ : List Nat) (ops : List GraphOp) : Nat :=
  if nops = 0 ∨ 4096 < nops ∨ 16384 < nsucc then 1
  else if succ.any (fun i => decide (nops ≤ i)) || raw.any (fun b => !succsIn nsucc b) || ops.any fun o => decide (4096 ≤ o.peerop)
    then 2
  else if whole && ((mapNumbered (fun i (o : GraphOp) => o.ndep != appears ops i) 0 ops).any (· == true) ||
      !acyclicFrom ops nops (ops.map fun o => some o.ndep)) then 3
  else if ops.any fun o => decide (4 < o.kind) || (o.kind != 4 && decide (65536 < o.size)) ||
      (o.adds && (decide (3 < o.dtype) || o.size == 0 || o.size % o.elem != 0)) then 4
  else if !memberBit members self || ops.any fun o => o.paired && (!memberBit members o.peer || o.peer == self) then 5
  else 0

/-- The LOADERR of an image whose bytes could be read, 0 for none (R402). -/
def graphError := graphErrorIn true

/-- The bytes of a range of an image, where they can be read. -/
def State.imageBytes (s : State) (ctx va n : Nat) : Option (List Byte) :=
  match (s.plainSpan ctx (va % 2 ^ 64) n).1 with | .at_ ps => some (s.piecesBytes ps) | _ => none

/-- The LOADERR of an image whose header cannot be read whole: check 1 comes before check 6 (R402; log 72). -/
def State.headError (s : State) (ctx va : Nat) : Nat :=
  match s.imageBytes ctx va 4 with
  | none => 6
  | some b => if graphErrorIn false 0 (leNat (b.take 2)) (leNat (b.drop 2)) 0 [] [] [] = 1 then 1 else 6

/-- The LOADERR of an image whose operations or successors cannot all be read: the first check that what can be read fails, else 6
(R402; log 72). -/
def State.bodyError (s : State) (ctx va nops nsucc members : Nat) : Nat :=
  let raw := (natsFrom 0 nops).filterMap fun i => s.imageBytes ctx (va + 256 + 32 * i) 32
  let succ := (natsFrom 0 nsucc).filterMap fun i => (s.imageBytes ctx (va + 256 + 32 * nops + 2 * i) 2).map leNat
  match graphErrorIn false s.podIndex nops nsucc members raw succ (raw.map (parseOp [])) with
  | 0 => 6
  | e => e

/-- COMM_LOAD: in EMPTY or FAILED the communicator enters LOADING; else LOADERR becomes 7 (R401). -/
def execCommLoad (k : Nat) (s : State) : Out :=
  if 16 ≤ k then .next s
  else if s.commState k = 0 ∨ s.commState k = 4 then .next (s.setComm k 1)
  else .next (s.setLoadErr k 7)

/-- A load ends with an error, in EMPTY. -/
def State.loadFails (s : State) (k e : Nat) : State := (s.setComm k 0).setLoadErr k e

/-- COMM_LOAD_FINISH: the image has been read through CTX and checked: READY with RUNSEQ and LOADERR 0, or EMPTY with
LOADERR (R401, R402). A page that is to be zeroed is waited for. -/
def execCommLoadFinish (k : Nat) (s : State) : Out :=
  if 16 ≤ k ∨ s.commState k ≠ 1 then .next s else
  let va := s.mem.num (s.comm k) 8
  let ctx := s.commCtx k
  if va / 2 ^ 61 ≠ 0 then .next (s.loadFails k 6) else
  match s.plainSpan ctx va 256 with
  | (.held, s1) => .next s1
  | (.fail _, s1) => .next (s1.loadFails k (s1.headError ctx va))
  | (.at_ ps, s1) =>
    let head := s1.piecesBytes ps
    let nops := leNat (head.take 2)
    let nsucc := leNat ((head.drop 2).take 2)
    let members := leNat ((head.drop 0x10).take 128)
    if nops = 0 ∨ 4096 < nops ∨ 16384 < nsucc then .next (s1.loadFails k 1) else
    match s1.plainSpan ctx ((va + 256) % 2 ^ 64) (32 * nops + 2 * nsucc) with
    | (.held, s2) => .next s2
    | (.fail _, s2) => .next (s2.loadFails k (s2.bodyError ctx va nops nsucc members))
    | (.at_ qs, s2) =>
      let body := s2.piecesBytes qs
      let raw := pieces 32 nops (body.take (32 * nops))
      let succ := (pieces 2 nsucc (body.drop (32 * nops))).map leNat
      let ops := raw.map (parseOp succ)
      match graphError s2.podIndex nops nsucc members raw succ ops with
      | 0 =>
        .next (((({ s2 with coll := { s2.coll with graphs := s2.coll.graphs.put k ⟨members, ops⟩ } }).setComm k 2).setRunSeq k
          0).setLoadErr k 0)
      | e => .next (s2.loadFails k e)

/-- The graph of a communicator. -/
def State.graph (s : State) (k : Nat) : Graph := s.coll.graphs.get ⟨0, []⟩ k
/-- An operation of a graph. -/
def Graph.op (g : Graph) (i : Nat) : GraphOp := nth ⟨4, 0, 0, 0, 0, 0, 0, 0, 0, 0, []⟩ g.ops i

/-- COMM_FREE: in READY or FAILED with nothing queued the communicator becomes EMPTY; else LOADERR becomes 7 (R401). -/
def execCommFree (k : Nat) (s : State) : Out :=
  if 16 ≤ k then .next s
  else if (s.commState k = 2 ∨ s.commState k = 4) ∧ (s.runs.filter fun r => r.k == k && !r.started).isEmpty then
    .next ({ s with coll := { s.coll with graphs := s.coll.graphs.erase k } }.setComm k 0)
  else .next (s.setLoadErr k 7)

/-! ## Operations and chunks (R405) -/

/-- The chunks of an operation; SIZE 0 gives one of no bytes. -/
def GraphOp.chunks (o : GraphOp) : Nat := max 1 ((o.size + 4095) / 4096)
/-- The bytes of a chunk. -/
def GraphOp.chunkLen (o : GraphOp) (c : Nat) : Nat := min 4096 (o.size - 4096 * c)
/-- The address of a chunk's data, and of a LOCALADD's source. -/
def Run.dataVa (r : Run) (o : GraphOp) (c : Nat) : Nat := ((nth 0#64 r.bases o.base).toNat + o.off + 4096 * c) % 2 ^ 64
def Run.srcVa (r : Run) (o : GraphOp) (c : Nat) : Nat := ((nth 0#64 r.bases o.srcBase).toNat + o.off2 + 4096 * c) % 2 ^ 64

/-- The operation of a run is ready and has not completed. -/
def Run.ready (r : Run) (i : Nat) : Bool := r.pend.get 0 i == 0 && !r.complete.contains i

/-- The current run of a communicator. -/
def State.currentRun (s : State) (k : Nat) : Option Run := s.runs.find? fun r => r.k == k && r.started
/-- The state with a run replaced. -/
def State.putRun (s : State) (r : Run) : State := { s with runs := s.runs.map fun x => if x.sn = r.sn then r else x }

/-- A run with an operation completed: its successors' counts fall (R405). -/
def Run.finishOp (r : Run) (g : Graph) (i : Nat) : Run :=
  { r with
    complete := r.complete ++ [i]
    pend := (g.op i).succs.foldl (fun m j => m.set 0 j (m.get 0 j - 1)) r.pend }

/-- Every ready WAIT completes at once (R405). -/
def Run.runWaits (g : Graph) : Nat → Run → Run
  | 0, r => r
  | n + 1, r =>
    match (natsFrom 0 g.ops.length).find? fun i => (g.op i).kind == 4 && r.ready i with
    | none => r
    | some i => Run.runWaits g n (r.finishOp g i)

/-- A run after an operation's chunk is done: the operation completes with its last. -/
def Run.chunkDone (r : Run) (g : Graph) (i : Nat) : Run :=
  let r1 := { r with finished := r.finished.put i (r.finished.get 0 i + 1) }
  if r1.finished.get 0 i = (g.op i).chunks then (r1.finishOp g i).runWaits g g.ops.length else r1

/-- A transfer begun by the engine. -/
def State.addTransfer (s : State) (dst ctx : Nat) (kind : XferKind) : State :=
  let x := BitVec.ofNat 32 (s.sn * 64)
  { s with
    transfers := s.transfers ++ [{ xfer := x, dst := dst, tenant := s.tenant ctx, kind := kind }]
    sn := s.sn + 1 }

/-- The next receive chunk that needs a staging buffer: operation and chunk. -/
def Run.wantsBuffer (r : Run) (g : Graph) : Option (Nat × Nat) :=
  ((natsFrom 0 g.ops.length).find? fun i =>
    let o := g.op i
    (o.kind == 1 || o.kind == 2) && r.ready i && decide (r.begun.get 0 i < o.chunks)).map fun i => (i, r.begun.get 0 i)

/-- Staging buffers are reserved for ready receive operations, eight at most, each with its CLEAR to the peer (R405). -/
def State.reserveBuffers (k : Nat) : Nat → State → State
  | 0, s => s
  | n + 1, s =>
    match s.currentRun k with
    | none => s
    | some r =>
      if 8 ≤ r.buffers.length ∨ r.doom.isSome then s else
      match r.wantsBuffer (s.graph k) with
      | none => s
      | some (i, c) =>
        let s1 := s.putRun
          { r with begun := r.begun.put i (c + 1), buffers := r.buffers ++ [⟨i, c, [], none, false⟩] }
        State.reserveBuffers k n (s1.addTransfer ((s.graph k).op i).peer r.ctx (.clear k i c))

/-- The current run of a communicator goes on: buffers are reserved as they can be. -/
def State.runOn (s : State) (k : Nat) : State := State.reserveBuffers k 8 s

/-! ## Completion and failure (R409, R410) -/

/-- The destinations of a run that ends without completing are undefined (R401, R410). -/
def State.undefineRun (s : State) (r : Run) : State :=
  (s.graph r.k).ops.foldl (fun (s : State) o =>
    if r.started && (o.kind == 1 || o.kind == 2 || o.kind == 3) then s.undefineRange r.ctx (fun _ => none) (r.dataVa o 0) o.size else s) s

/-- The keys that others wrote during a run are undefined when it ends (R409). -/
def State.spoil (s : State) (r : Run) : State :=
  r.spoiled.foldl (fun (s : State) k =>
    let (bs, s1) := State.freeBytes 1 s
    s1.engineBytes k bs) s

/-- A run completes with a status: RUNSEQ, then the completion word (R409); what it still had under way is dropped. Where the word's
frame is to be zeroed, or its line is held, the run waits so (R351). -/
def State.completeRun (s : State) (r : Run) (status : Nat) : State :=
  let k := r.k
  let seq := s.runSeq k
  let (at_, s0) : Option SysAt × State := if r.cpl = 0 then (none, s) else
    match s.sysKey r.ctx r.cpl true 4 with | (p, s0) => (some p, s0)
  if at_ = some .held then s0.putRun { r with doom := some status, buffers := [] } else
  let s1 := (s0.spoil r).setRunSeq k (seq + 1)
  let s2 := match at_ with
    | some (.at_ key) => s1.performBytes none key (leBytes 4 (status + 256 * k + 65536 * (seq % 65536)))
    | _ => s1
  let s3 := if r.started && (s2.commState k == 3) then s2.setComm k 2 else s2
  { s3 with
    runs := s3.runs.filter (·.sn != r.sn)
    transfers := s3.transfers.filter fun t => match t.kind with
      | .chunk k' _ _ _ => !(r.started && k' == k)
      | .clear k' _ _ => !(r.started && k' == k)
      | _ => true
    coll := { s3.coll with clears := s3.coll.clears.filter fun c => !(r.started && c.k == k && c.runseq.toNat == seq) } }.setQueued k

/-- A started run completes once every operation has (R405). -/
def State.checkRun (s : State) (k : Nat) : State :=
  match s.currentRun k with
  | none => s
  | some r => if r.doom.isSome then s else if r.complete.length = (s.graph k).ops.length then s.completeRun r 0 else s.runOn k

/-- A run fails at this member: RUNFAIL goes to every other member, the run completes with the status, its destinations
undefined (R410). -/
def State.failRun (s : State) (r : Run) (status : Nat) (tell : Bool) : State :=
  match r.started, r.doom with
  | true, some st => s.completeRun r st
  | _, _ =>
  let members := (natsFrom 0 1024).filter fun p => p != s.podIndex && memberBit (s.graph r.k).members p
  let seq := BitVec.ofNat 32 (s.runSeq r.k)
  let s1 := if tell then
      members.foldl (fun (s : State) p => s.post ⟨p, false, 4, 0, .runfail r.k seq status, none, 0⟩ 0) s
    else s
  (s1.undefineRun r).completeRun r status

/-- COMM_ABORT: in RUNNING or READY every run of the communicator, queued and current, completes with CANCELLED (R401). -/
def execCommAbort (k : Nat) (s : State) : Out :=
  if 16 ≤ k then .next s
  else if s.commState k = 2 ∨ s.commState k = 3 then
    let mine := s.runs.filter fun r => r.k == k
    .next ((mine.foldl (fun (s : State) r => s.failRun r 7 false) s).setComm k 2)
  else .next (s.setLoadErr k 7)

/-- RUNFAIL: a member's run of that sequence, current or still to start, completes with the status (R410). -/
def execRunfail (k : Nat) (runseq : BitVec 32) (status : BitVec 4) (s : State) : Out :=
  let mine := s.runs.filter fun r => r.k == k
  let ahead := (runseq.toNat + 2 ^ 32 - s.runSeq k) % 2 ^ 32
  match nth none (mine.map some) ahead with
  | none => .next s
  | some r =>
    if ahead = 0 ∧ (r.started ∨ !(mine.any (·.started))) then .next (s.failRun r status.toNat false)
    else if r.doom.isSome then .next s
    else .next (s.putRun { r with doom := some status.toNat })

/-! ## Run requests and runs (R403, R404) -/

/-- A run request (Table 23.4) at the run port: its refusal code (R403). -/
def State.acceptRun (s : State) (owner : Option OpOwner) (ctx : Nat) (b : List Byte) : Nat × State :=
  let f := fun off n => leNat ((b.drop off).take n)
  let k := f 0 1 % 16
  if ctx ≠ s.commCtx k then (2, s)
  else if 64 ≤ (s.runs.filter fun r => !r.started).length then (1, s)
  else
    let r : Run :=
      { sn := s.sn, k := k, prio := f 1 1 % 4, cpl := BitVec.ofNat 64 (f 8 8)
        bases := (natsFrom 0 4).map fun i => BitVec.ofNat 64 (f (0x10 + 8 * i) 8), owner := owner, ctx := ctx
        started := false, pend := [], begun := [], finished := [], complete := [], applied := [], buffers := []
        doom := none, dests := [], spoiled := [] }
    let s1 : State := { s with runs := s.runs ++ [r], sn := s.sn + 1 }
    let st := s.commState k
    (0, if st = 0 then s1.completeRun r 6 else if st = 4 then s1.completeRun r 1 else s1.setQueued k)

/-- RUN_REQUEST: a POST to the run port of its own package is answered and joins the queue (R403). -/
def execRunRequest (i : Nat) (s : State) : Out :=
  match s.posts.find? (·.sn == i) with
  | none => .next s
  | some p =>
    if p.pa ≠ s.runPort ∨ p.away.isSome ∨ !s.postReady p then .next s else
    let owner : OpOwner := ⟨s.spawnKey p.gang, s.tid p.gang p.lane, p.sn⟩
    let (code, s1) := s.acceptRun (if p.gang = hostGang then none else some owner) p.ctx p.bytes
    .next (s1.answerPost p code)

/-- The bases that some operation of a graph names. -/
def Graph.basesUsed (g : Graph) : List Nat :=
  ((g.ops.filter fun o => o.kind != 4).flatMap fun o => if o.kind = 3 then [o.base, o.srcBase] else [o.base]).eraseDups

/-- A base of a run as its start finds it: a status, held, or good (R404). -/
def State.baseStatus (s : State) (ctx : Nat) (va : DWord) : Option Nat × State :=
  if va.toNat / 2 ^ 61 ≠ 1 then (some 6, s) else
  match s.xlate ctx va with
  | (.missing, s1) => (some 5, s1)
  | (.held f, s1) => (if keyHome (f.key va.toNat) ≠ s.podIndex then some 6 else none, s1)
  | (.leaf f, s1) => (some (if keyHome (f.key va.toNat) ≠ s.podIndex then 6 else 0), s1)

/-- The ranges of keys that the operations of a run write, as they translate at its start (R409). -/
def State.runDests (s : State) (r : Run) : List (Nat × Nat) × State :=
  (s.graph r.k).ops.foldl (fun (acc : List (Nat × Nat) × State) o =>
    if o.kind = 1 ∨ o.kind = 2 ∨ o.kind = 3 then
      let ((ps, _), s1) := acc.2.engineRun r.ctx (fun _ => none) true (r.dataVa o 0) o.size
      (acc.1 ++ ((ps.filter fun p => !p.remote && isTensorKey p.key).map fun p => (p.key, p.len)), s1)
    else acc) ([], s)

/-- RUN_START: the oldest run of a communicator starts once its predecessor has completed: its bases are translated, every
count set to NDEP, WAITs done and buffers reserved; or it fails (R404, R410). A run whose completion has had to wait completes. -/
def execRunStart (k : Nat) (s : State) : Out :=
  match s.currentRun k, s.runs.find? fun r => r.k == k with
  | some r, _ => .next (match r.doom with | some st => s.completeRun r st | none => s)
  | none, some r =>
    if s.commState k = 0 then .next (s.completeRun r 6)
    else if s.commState k = 4 then .next (s.completeRun r 1)
    else if s.commState k ≠ 2 then .next s
    else
      match r.doom with
      | some st => .next (s.completeRun r st)
      | none =>
        let g := s.graph k
        let (sts, s1) := g.basesUsed.foldl (fun (acc : List (Option Nat) × State) b =>
          let (st, s1) := acc.2.baseStatus r.ctx (nth 0#64 r.bases b)
          (acc.1 ++ [st], s1)) ([], s)
        let (dests, s1) := s1.runDests r
        let r1 := { r with
          started := true
          dests := dests
          pend := (mapNumbered (fun i (o : GraphOp) => (i, o.ndep)) 0 g.ops).filter fun e => e.2 != 0 }
        (match sts.find? fun x => x != some 0 with
         | some none => .next s1
         | some (some st) => .next ((s1.putRun r1).failRun r1 st true)
         | none => .next (((((s1.putRun (r1.runWaits g g.ops.length)).setComm k 3).setQueued k).checkRun k)))
  | _, _ => .next s

/-! ## Chunks (R405 to R408) -/

/-- The CLEAR of a SEND chunk has arrived. -/
def State.cleared (s : State) (k i c : Nat) : Bool :=
  s.coll.clears.any fun m => m.k == k && m.runseq.toNat == s.runSeq k && m.peerop == i && m.chunk == c

/-- An operation of a run has an eligible chunk (R405). -/
def State.eligible (s : State) (r : Run) (i : Nat) : Bool :=
  let o := (s.graph r.k).op i
  let c := r.begun.get 0 i
  r.doom.isNone && r.ready i && decide (c < o.chunks) && ((o.kind == 0 && s.cleared r.k i c) || o.kind == 3)

/-- The operations of a run with an eligible chunk, the one after the last served first (R406). -/
def State.eligibleOps (s : State) (r : Run) : List Nat :=
  let n := (s.graph r.k).ops.length
  let last := s.coll.lastOp.get (n - 1) r.k
  ((natsFrom 0 n).map fun j => (last + 1 + j) % n).filter (s.eligible r)

/-- The run whose chunk is started next (R406). -/
def State.nextRun (s : State) : Option Run :=
  let able := s.runs.filter fun r => r.started && !(s.eligibleOps r).isEmpty
  (sortBy (fun r => (3 - r.prio) * 16 + (r.k + 15 - s.coll.lastComm) % 16) able).head?

/-- Add by DTYPE on the elements of two lists of bytes (R405). -/
def addElems (o : GraphOp) : Nat → List Byte → List Byte → List Byte
  | 0, _, _ => []
  | n + 1, a, b =>
    let w := o.elem
    let x := leNat (a.take w)
    let y := leNat (b.take w)
    let v := match o.dtype with
      | 0 => fp32.plainAdd x y
      | 1 => bf16.plainAdd x y
      | 2 => (x + y) % 2 ^ 32
      | _ => fp64.plainAdd x y
    leBytes w v ++ addElems o n (a.drop w) (b.drop w)

/-- The pieces of a chunk's data: local memory alone (R404, R410). -/
def State.chunkSpan (s : State) (r : Run) (write : Bool) (va n : Nat) : Span × State :=
  match s.engineSpan r.ctx (fun _ => none) write va n with
  | (.at_ ps, s1) => if va / 2 ^ 61 ≠ 1 ∨ ps.any (·.remote) then (.fail 6, s1) else (.at_ ps, s1)
  | x => x

/-- The bytes of pieces as a run reads them (R409). -/
def State.runReads (s : State) (r : Run) (ps : List Piece) : List Byte × State :=
  let (m, s1) := s.asRead (some r.sn) (ps.map fun p => (p.key, p.len))
  ({ s1 with mem := m }.piecesBytes ps, s1)

/-- Bytes that a run writes over the pieces of a span. -/
def State.writePieces (s : State) (own : Nat) (ps : List Piece) (bytes : List Byte) : State :=
  (ps.foldl (fun (acc : State × List Byte) p =>
    let (bs, s1) := acc.1.murkWrite (some own) p.key (acc.2.take p.len)
    (s1.engineWrite p.key bs, acc.2.drop p.len)) (s, bytes)).1

/-- A chunk's bytes applied to its destination: added or written; or a failure, or held (R405, R410). -/
def State.applyBytes (s : State) (r : Run) (o : GraphOp) (c : Nat) (bytes : List Byte) : Sum Nat (Option State) :=
  let n := o.chunkLen c
  match s.chunkSpan r true (r.dataVa o c) n with
  | (.fail st, _) => .inl st
  | (.held, s1) => .inr (if s1.zeroing.length = s.zeroing.length then none else some s1)
  | (.at_ ps, s1) =>
    if o.adds && ps.any (s1.piecePoisoned false) then .inl 4
    else
      let (old, s2) := s1.runReads r ps
      .inr (some (s2.writePieces r.sn ps (if o.adds then addElems o (n / o.elem) old bytes else bytes)))

/-- CHUNK_START: the chunk that R406 chooses starts: a SEND's is read and sent, a LOCALADD's added; at most 256 are in
flight (R405, R406). -/
def execChunkStart (s : State) : Out :=
  let flying := (s.transfers.filter fun t => match t.kind with | .chunk _ _ _ _ => true | _ => false).length
  match s.nextRun with
  | none => .next s
  | some r =>
    match s.eligibleOps r with
    | [] => .next s
    | i :: _ =>
      if 256 ≤ flying then .next s else
      let k := r.k
      let g := s.graph k
      let o := g.op i
      let c := r.begun.get 0 i
      let served := fun (s : State) => { s with coll := { s.coll with lastComm := k, lastOp := s.coll.lastOp.put k i } }
      let r1 := { r with begun := r.begun.put i (c + 1) }
      let va := if o.kind = 3 then r.srcVa o c else r.dataVa o c
      match s.chunkSpan r false va (o.chunkLen c) with
      | (.held, s1) => .next s1
      | (.fail st, s1) => .next ((served s1).failRun r st true)
      | (.at_ ps, s1) =>
        let (bytes, s1) := s1.runReads r ps
        if o.kind = 0 then .next (((served s1).putRun r1).addTransfer o.peer r.ctx (.chunk k i c bytes))
        else
          match s1.applyBytes r o c bytes with
          | .inl st => .next ((served s1).failRun r st true)
          | .inr none => .next s1
          | .inr (some s2) =>
            if s2.zeroing.length ≠ s1.zeroing.length then .next s2
            else .next (((served s2).putRun (r1.chunkDone g i)).checkRun k)

/-- CLEAR: a peer has a staging buffer for a chunk; a chunk that this member's operation does not have fails the run (R405,
R410). -/
def execClear (m : ClearMsg) (s : State) : Out :=
  let bad := match s.currentRun m.k with
    | some r => m.runseq.toNat == s.runSeq m.k && decide (((s.graph m.k).op m.peerop).chunks ≤ m.chunk) && r.started
    | none => false
  if bad then
    match s.currentRun m.k with
    | some r => .next (s.failRun r 6 true)
    | none => .next s
  else .next (if s.coll.clears.contains m then s else { s with coll := { s.coll with clears := s.coll.clears ++ [m] } })

/-- CHUNK_APPLY: a chunk that is staged whole is added or written into its destination, its bit set, its transfer
acknowledged, its buffer free (R405, R408). -/
def execChunkApply (k op chunk : Nat) (s : State) : Out :=
  match s.currentRun k with
  | none => .next s
  | some r =>
    match r.buffers.find? fun b => b.op == op && b.chunk == chunk && b.whole with
    | none => .next s
    | some b =>
      let g := s.graph k
      let o := g.op op
      let n := o.chunkLen chunk
      match s.applyBytes r o chunk ((natsFrom 0 n).map fun i => b.data.get 0#8 i) with
      | .inl st => .next (s.failRun r st true)
      | .inr none => .next s
      | .inr (some s1) =>
        if s1.zeroing.length ≠ s.zeroing.length then .next s1 else
        let r1 := { r with applied := r.applied ++ [(op, chunk)], buffers := r.buffers.filter (· != b) }
        let s2 := match b.xfer with
          | some x => s1.post ⟨o.peer, false, 1, 0, .e2e x (BitVec.ofNat 64 n), none, 0⟩ x.toNat
          | none => s1
        .next ((s2.putRun (r1.chunkDone g op)).checkRun k)

end Sys2Proof.Machine
end

