-- ==== Sys2Proof/Machine/Fabric.lean ====
section
/-! DEFINITION. What travels on the fabric (22): transfers and their routes, arrivals of messages and data, remote atomics
and records, heartbeats, the loss of a peer. The operation codes and operand places of messages, which the spec does not
give, are the model's (log 17). -/

namespace Sys2Proof.Machine

open Sys2Proof

/-! ## Routes of transfers (R390, R391) -/

/-- The paths to another package that are there now. -/
def State.paths (s : State) (dst : Nat) : List Route :=
  let b := s.podIndex / 32
  let d := s.podIndex % 32
  let b' := dst / 32
  let d' := dst % 32
  let e := s.reach dst
  if bitsOf e 0 1 = 0 then []
  else if b' = b ∨ d' = d then
    if (if b' = b then s.linkLive false d' else s.linkLive true b') then [.direct]
    else if bitsOf e 8 1 = 1 then [.via (if b' = b then b * 32 + bitsOf e 9 5 else bitsOf e 9 5 * 32 + d)]
    else []
  else
    (if s.linkLive false d' && bitsOf e 2 1 == 1 then [.via (b * 32 + d')] else []) ++
    (if s.linkLive true b' && bitsOf e 1 1 == 1 then [.via (b' * 32 + d)] else [])

/-- The paths that a transfer was given to are still there. -/
def State.onPath (s : State) (t : Transfer) : Bool :=
  t.via.all fun x => (s.paths t.dst).contains (match x with | some r => .via r | none => .direct)

/-- The state with a transfer changed. -/
def State.onTransfer (s : State) (x : Word) (f : Transfer → Transfer) : State :=
  { s with transfers := s.transfers.map fun t => if t.xfer = x then f t else t }
/-- The state without a transfer. -/
def State.dropTransfer (s : State) (x : Word) : State := { s with transfers := s.transfers.filter (·.xfer != x) }

/-- The transfers of a copy that a test names are given up: no row that one of them carried bytes of counts as written (R293). -/
def State.giveUp (s : State) (n : Nat) (gone : Transfer → Bool) : State :=
  let mine := fun (t : Transfer) => (match t.kind with | .piece m _ _ _ _ _ => m == n | .read m _ _ _ _ => m == n | _ => false) && gone t
  let out := s.transfers.filter mine
  let rows := out.filterMap fun t => match t.kind with | .piece _ row _ _ _ _ => some row | _ => none
  { s with
    transfers := s.transfers.filter fun t => !mine t
    copies := s.copies.map fun (c : Copy) =>
      if c.sn = n then
        { c with row := rows.foldl min c.row, unacked := c.unacked.filter fun x => !(out.any fun t => t.xfer.toNat == x) }
      else c }

/-- A transfer is a piece of a copy that has already ended. -/
def State.copyOver (s : State) (t : Transfer) : Bool :=
  match t.kind with
  | .piece n _ _ _ _ _ => s.copies.any fun c => c.sn == n && c.ending.isSome
  | _ => false

/-- A piece's bytes as its source holds them now, where it is at hand (R391 step 2). -/
def State.readAgain (s : State) (k : XferKind) : XferKind :=
  match k with
  | .piece n row va src addr bytes =>
    (match s.copies.find? (·.sn == n) with
     | none => k
     | some c =>
       if c.desc.zfill then k else
       match (s.engineSpan c.ctx (s.copySlot c c.desc.gather) false src bytes.length).1 with
       | .at_ ps => if ps.any (·.remote) then k else .piece n row va src addr (s.piecesBytes ps)
       | _ => k)
  | k => k

/-- A transfer whose path is gone is taken back from the links, to be sent again: a message under its transfer id, a piece of
a copy, read anew, under a new one, unless its copy has ended already; the rest of a message that has begun to go out goes out (R380,
R391). -/
def State.takeBack (s : State) (t : Transfer) : State :=
  if !t.queued || s.onPath t then s
  else if s.copyOver t then s.giveUp (match t.kind with | .piece n _ _ _ _ _ => n | _ => 0) fun x => x.xfer == t.xfer
  else
  let (x, s0) : Word × State := match t.kind with
    | .piece n _ _ _ _ _ =>
      let x := BitVec.ofNat 32 (s.sn * 64)
      (x, { s with
        sn := s.sn + 1
        copies := s.copies.map fun (c : Copy) =>
          if c.sn = n then { c with unacked := c.unacked.map fun y => if y = t.xfer.toNat then x.toNat else y } else c })
    | _ => (t.xfer, s)
  let s1 := s0.onTransfer t.xfer fun t => { t with queued := false, xfer := x, kind := s.readAgain t.kind }
  { s1 with fabric := { s1.fabric with
      links := s1.fabric.links.mapVals fun _ (x : LinkSt) =>
        let begun := !(x.backlog.any fun m => m.own == some t.xfer && m.part == 0)
        { x with backlog := x.backlog.filter fun m => m.own != some t.xfer || (begun && m.part != 0) } } }

/-! ## What a transfer sends (R381, R393, R407) -/

/-- Data flits of a transfer: 448 bytes each, one of no bytes for none. -/
def dataFlits (self : Nat) (t : Transfer) (ch : Nat) (addrOf : Nat → Nat) (bytes : List Byte) : List DataFlit :=
  let ps := match pieces 448 (bytes.length / 448 + 1) bytes with | [] => [[]] | ps => ps
  mapNumbered (fun i (p : List Byte) =>
    { ty := 1, ch := BitVec.ofNat 8 ch, seq := 0, dst := BitVec.ofNat 16 t.dst, src := BitVec.ofNat 16 self,
      tenant := BitVec.ofNat 16 t.tenant, xfer := t.xfer, addr := BitVec.ofNat 64 (addrOf (448 * i)),
      offset := BitVec.ofNat 32 (448 * i), status := 0, request := 0, payload := p, crcOk := true }) 0 ps

/-- What a transfer sends: plane, channel, message. -/
def State.messages (s : State) (t : Transfer) : List (Bool × Nat × FMsg) :=
  match t.kind with
  | .atomic _ _ _ op addr operand _ => [(false, 3, .atomic ⟨s.podIndex, t.tenant, t.xfer, BitVec.ofNat 4 op, addr - 2 ^ 50, operand⟩)]
  | .post _ _ _ ctx pa bytes => [(false, 3, .post t.xfer t.tenant ((homeOff pa - offPorts) / 64) ctx bytes)]
  | .piece _ _ _ _ addr bytes => (dataFlits s.podIndex t 0 (fun i => addr - 2 ^ 50 + i) bytes).map fun f => (true, 0, .data f)
  | .read _ _ _ addr size =>
    (dataFlits s.podIndex t 0 (fun _ => addr - 2 ^ 50) []).map fun f =>
      (true, 0, .rdreq { f with ty := 2, request := BitVec.ofNat 32 size })
  | .chunk k op chunk bytes =>
    let tag := s.runSeq k % 2 ^ 16 * 2 ^ 48 + ((s.graph k).op op).peerop % 2 ^ 12 * 2 ^ 36 + k * 2 ^ 32 + chunk * 2 ^ 16
    (dataFlits s.podIndex t (1 + k) (fun _ => tag) bytes).map fun f => (true, 1 + k, .data f)
  | .clear k op chunk => [(false, 1, .clear t.xfer ⟨k, BitVec.ofNat 32 (s.runSeq k), ((s.graph k).op op).peerop, chunk⟩)]

/-! ## How operations end (R391, R397) -/

/-- A remote atomic's result reaches its thread (R147): the old value, 0 with any status but OK, which is kept for
EFENCE. -/
def State.atomicDone (s : State) (owner : OpOwner) (g l : Nat) (dest : Dest) (status old : Nat) : State :=
  let s1 := if status = 0 then s else s.onThread g l fun t => { t with statuses := t.statuses ++ [(owner.sn, status)] }
  { s1 with pending := s1.pending ++ answered owner.sn g l dest (if status = 0 then old else 0) }

/-- A POST's code reaches its thread (R151). -/
def State.postDone (s : State) (sn g l dest code : Nat) : State :=
  { s with pending := s.pending ++ [⟨sn, g, l, dest, some [BitVec.ofNat 32 code], none⟩] }

/-- Every byte of a copy's destination that is in this package is undefined (R7, R292). -/
def State.undefineCopy (s : State) (c : Copy) : State :=
  let d := c.desc
  (natsFrom 0 d.rows).foldl (fun (s : State) r =>
    s.undefineRange c.ctx (s.copySlot c false) ((d.dst.toNat + (if d.canon then 128 * r else r * d.dstride)) % 2 ^ 64) d.rowBytes) s

/-- A copy ends with a status that its transfers met, the first of them: what it has not handed to a link yet, and what a test names, is
given up; its pieces that are under way go on, and it completes after them (R293). -/
def State.failCopy (s : State) (n status detail va : Nat) (undef : Bool) (gone : Transfer → Bool) : State :=
  let s1 := s.giveUp n fun t => gone t || !t.queued || (match t.kind with | .read _ _ _ _ _ => true | _ => false)
  match s1.copies.find? (·.sn == n) with
  | none => s1
  | some c =>
    if c.ending.isSome then s1
    else (if undef then s1.undefineCopy c else s1).putCopy { c with ending := some (status, detail, BitVec.ofNat 64 va) }

/-- A transfer ends without its answer: a copy with a status and its destination undefined, a remote atomic with a status, a
POST with BAD_PORT, a chunk with its run. -/
def State.failTransfer (s : State) (t : Transfer) (copyStatus msgStatus : Nat) : State :=
  let s1 := s.dropTransfer t.xfer
  match t.kind with
  | .atomic o g l _ _ _ dest => s1.atomicDone o g l dest msgStatus 0
  | .post g l dest _ _ _ => s1.postDone t.xfer.toNat g l dest 4
  | .piece n _ va _ _ _ => s.failCopy n copyStatus 2 va true fun x => x.xfer == t.xfer
  | .read n detail va _ _ => s.failCopy n copyStatus detail va true fun x => x.xfer == t.xfer
  | .chunk k _ _ _ => match s1.currentRun k with | some r => s1.failRun r copyStatus true | none => s1
  | .clear k _ _ => match s1.currentRun k with | some r => s1.failRun r copyStatus true | none => s1

/-- The number that the path of a transfer is chosen by: a copy is one transfer (R390). -/
def Transfer.hashKey (t : Transfer) : Nat := match t.kind with | .piece n _ _ _ _ _ => n | _ => t.xfer.toNat

/-- The copy that a transfer belongs to. -/
def Transfer.copyOf (t : Transfer) : Nat := match t.kind with | .piece n _ _ _ _ _ => n | .read n _ _ _ _ => n | _ => 0

/-- The path of message i of a transfer: the pieces of a sprayed copy alternate where both paths are there, and which path takes the
first is open (R292, R390, R412; log 62). -/
def State.pathOf (s : State) (t : Transfer) (r : Route) (i : Nat) : Route :=
  let turn : Option Nat := match t.kind with
    | .piece n row _ _ _ bytes =>
      (s.copies.find? fun c => c.sn == n && c.desc.spray).map fun _ => row * ((bytes.length + 447) / 448) + i
    | .read n _ _ _ _ => (s.copies.find? fun c => c.sn == n && c.desc.spray).map fun c => c.asked.findIdx (· == t.xfer.toNat)
    | _ => none
  match turn, s.paths t.dst with
  | some k, [a, b] => if (k + Config.routeHash t.copyOf) % 2 = 0 then a else b
  | _, _ => r

/-- A transfer is handed to its link, if it is not there and has a route; a chunk or CLEAR that never had one fails its run
(R390, R410). -/
def State.sendTransfer (s : State) (x : Word) : State :=
  match s.transfers.find? (·.xfer == x) with
  | none => s
  | some t =>
    if t.queued || t.noRoute.isSome then s else
    match s.route t.dst t.hashKey with
    | .none =>
      let ofRun : Bool := match t.kind with | .chunk _ _ _ _ => true | .clear _ _ _ => true | _ => false
      if ofRun && !t.tried then s.failTransfer t 3 3 else s.onTransfer x fun t => { t with noRoute := some s.clk }
    | r =>
      let ms := mapNumbered (fun i m => (s.pathOf t r i, m)) 0 (s.messages t)
      let s1 := s.onTransfer x fun t => { t with queued := true, tried := true, via := (ms.map (·.1.relay)).eraseDups }
      ms.foldl (fun (s : State) e =>
        s.postBy { dst := t.dst, data := e.2.1, ch := e.2.2.1, hop := 0, msg := e.2.2.2, own := some x } e.1) s1

/-! ## Arrivals: remote atomics and records (R391, R393) -/

/-- The remembered result of a remote atomic or POST. -/
def State.remembered (s : State) (src : Nat) (x : Word) : Option Dedup := s.fabric.dedup.find? fun d => d.src == src && d.xfer == x
/-- The state with a result remembered. -/
def State.remember (s : State) (d : Dedup) : State := { s with fabric := { s.fabric with dedup := s.fabric.dedup ++ [d] } }

/-- An answer to another package. -/
def State.reply (s : State) (dst : Nat) (x : Word) (msg : FMsg) : State :=
  s.post { dst := dst, data := false, ch := 1, hop := 0, msg := msg } x.toNat

/-- An end-to-end acknowledgement: the bytes performed, or a message's result, and a status (log 17). -/
def State.e2e (s : State) (dst : Nat) (x : Word) (count status : Nat) : State :=
  s.reply dst x (.e2e x (BitVec.ofNat 64 (count % 2 ^ 32 + status * 2 ^ 32)))

/-- An arrival waits for its line. -/
def State.wait (s : State) (a : Arrival) : State :=
  if s.fabric.waiting.contains a then s else { s with fabric := { s.fabric with waiting := s.fabric.waiting ++ [a] } }

/-- A remote atomic: the remembered result again; else refused, poisoned, or performed once, its result remembered. -/
def State.atomicArrives (s : State) (m : RemoteAtomic) : State :=
  let key := 2 ^ 50 + m.addr
  let op := AtomOp.ofCode m.op.toNat
  let done := fun (s : State) (status old : Nat) =>
    (s.remember ⟨m.src, m.xfer, status, BitVec.ofNat 64 old, s.clk⟩).reply m.src m.xfer (.atomicResult m.xfer status (BitVec.ofNat 64 old))
  match s.remembered m.src m.xfer with
  | some d => s.reply m.src m.xfer (.atomicResult m.xfer d.status d.old)
  | none =>
    if keyHome key ≠ s.podIndex then s
    else if !s.aclAdmits s.podIndex m.src m.tenant 2 (some (m.addr % 2 ^ 39, op.size)) then done s 2 0
    else if s.unitPoisoned key then done s 4 0
    else if s.heldByOther none key op.size then s.wait (.atomic m)
    else
      let (bs, s1) := s.murk none key (s.mem.read key op.size)
      let (new, s2) := s1.murkWrite none key (leBytes op.size (op.apply (leNat bs) m.operand.toNat))
      done (s2.engineBytes key new) 0 (leNat bs)

/-- REMOTE_ATOMIC_ARRIVAL (R391, R393). -/
def execRemoteAtomicArrival (m : RemoteAtomic) (s : State) : Out := .next (s.atomicArrives m)

/-- A record of another package for a queue port here (R393): the remembered answer again; refused by the tenant's entry; or
it goes to its port. -/
def State.postArrives (s : State) (src tenant : Nat) (x : Word) (port ctx : Nat) (bytes : List Byte) : State :=
  match s.remembered src x with
  | some d => s.e2e src x d.status 0
  | none =>
    if !s.aclAdmits s.podIndex src tenant 3 none then (s.remember ⟨src, x, 2, 0, s.clk⟩).e2e src x 2 0
    else if s.posts.any fun p => p.away == some (src, tenant, x) then s
    else
      { s with
        posts := s.posts ++ [{ sn := s.sn * 64, gang := 2 ^ 40, lane := src, dest := 63, ctx := ctx,
                               pa := s.home + offPorts + 64 * port, bytes := bytes, away := some (src, tenant, x) }]
        sn := s.sn + 1 }

/-- A record's code goes to its thread, or to the package that sent it, which is remembered (R151, R391). -/
def State.answerRecord (s : State) (p : PostMsg) (code : Nat) : State :=
  match p.away with
  | none => s.answerPost p code
  | some (src, _, x) =>
    (({ s with posts := s.posts.filter (·.sn != p.sn) } : State).remember ⟨src, x, code, 0, s.clk⟩).e2e src x code 0

/-- QUEUE_POST_ARRIVAL: a record reaches its port and is accepted or refused (R310); one for another package goes over the
fabric, or is BAD_PORT where no port is named or no route is there (Table 6.6). The run port's are taken by RUN_REQUEST. -/
def execQueuePostArrival (i : Nat) (s : State) : Out :=
  match s.posts.find? (·.sn == i) with
  | none => .next s
  | some p =>
    if !s.postReady p || p.pa == s.runPort then .next s
    else if p.pa / 2 ^ 35 ≠ s.podIndex then
      let dst := p.pa / 2 ^ 35
      if homeOff p.pa < offPorts ∨ p.pa % 64 ≠ 0 ∨ s.route dst p.sn = .none then .next (s.answerPost p 4)
      else
        .next { s with
          posts := s.posts.filter (·.sn != p.sn)
          transfers := s.transfers ++ [{ xfer := BitVec.ofNat 32 p.sn, dst := dst, tenant := s.tenant p.ctx,
                                         kind := .post p.gang p.lane p.dest p.ctx p.pa p.bytes }] }
    else
      match s.portOf p.pa with
      | none => .next (s.answerRecord p 4)
      | some q =>
        match s.acceptPost q (fun v => s.queueAdmits v p.ctx) p.bytes with
        | (none, s1) => .next s1
        | (some code, s1) => .next (s1.answerRecord p code)

/-! ## Arrivals: data (R381, R393, R407, R408) -/

/-- The bytes of a transfer that have been performed here. -/
def State.arrivedOf (s : State) (src : Nat) (x : Word) : Nat := s.fabric.arrived.get 0 (src * 2 ^ 32 + x.toNat)

/-- The counts without those of a source's transfers of an earlier round of its transfer ids (R380). -/
def forget {α : Type} (src x : Nat) (m : SMap α) : SMap α :=
  m.filter fun e => e.1 / 2 ^ 32 != src || (let d := (x + 2 ^ 32 - e.1 % 2 ^ 32) % 2 ^ 32; decide (d < 2 ^ 30 ∨ 3 * 2 ^ 30 ≤ d))

/-- The data of a transfer begins to arrive: its tenant's entry is read, and judges all of it (R394). -/
def State.openTransfer (s : State) (f : DataFlit) : State :=
  let id := f.src.toNat * 2 ^ 32 + f.xfer.toNat
  if f.tenant = 0 || (s.fabric.entries.find? id).isSome then s
  else { s with fabric := { s.fabric with
    entries := (forget f.src.toNat f.xfer.toNat s.fabric.entries).put id (s.mem.read (s.aclKey s.podIndex f.tenant.toNat) 256) } }

/-- The entry that a transfer's data is judged by, or where it has none yet its tenant's, lets it write a range (R394). -/
def State.dataAdmits (s : State) (f : DataFlit) (range : Option (Nat × Nat)) : Bool :=
  match s.fabric.entries.find? (f.src.toNat * 2 ^ 32 + f.xfer.toNat) with
  | some e => f.tenant = 0 || entryAdmits (fun off n => leNat ((e.drop off).take n)) f.src.toNat 1 range
  | none => s.aclAdmits s.podIndex f.src.toNat f.tenant.toNat 1 range

/-- The poisoned units that data covers in part: whether they end before it, and their keys (R141). -/
def State.cutUnits (s : State) (key n : Nat) : List Nat :=
  s.poison.filterMap fun d => match d with
    | .unit u => if u < key + n ∧ key < u + unitSize u ∧ !(key ≤ u ∧ u + unitSize u ≤ key + n) then some u else none
    | _ => none

/-- What a transfer's data makes of the poisoned lines that it covers in part: the first half is noted, and the second completes the write
of the whole line, which clears its poison (R141). -/
def State.halfUnits (s : State) (id : Nat) (us : List Nat) : State :=
  us.foldl (fun (s : State) u =>
    if s.fabric.halves.find? u = some id then
      { s.cure (.unit u) with fabric := { s.fabric with halves := s.fabric.halves.erase u } }
    else { s with fabric := { s.fabric with halves := s.fabric.halves.put u id } }) s

/-- Data that is written here: refused, poisoned, or performed; the acknowledgement counts the transfer's bytes. A poisoned line that the
data covers in part is the transfer's as a whole: what comes before its first byte, or after its last, it does not cover; whether a flit of
448 bytes is its last is not told, and free (R141; log 7). -/
def State.writeArrives (s : State) (f : DataFlit) : State :=
  let ok := s.dataAdmits f (some (f.addr.toNat % 2 ^ 39, f.payload.length))
  let s := s.openTransfer f
  let addr := f.addr.toNat
  let key := 2 ^ 50 + addr
  let n := f.payload.length
  let src := f.src.toNat
  let sofar := s.arrivedOf src f.xfer
  let cut := s.cutUnits key n
  let before := f.offset = 0 && cut.any fun u => decide (u < key)
  let after := cut.any fun u => decide (key + n < u + unitSize u)
  let (i, s0) := if after && n == 448 && !before then s.choose 2 else (0, s)
  if !ok then s.e2e src f.xfer sofar 2
  else if s.heldByOther none key (max n 1) then s.wait (.data f)
  else if before || (after && i == 0) then s0.e2e src f.xfer sofar 4
  else
    let (bs, s1) := s0.murkWrite none key f.payload
    let s2 := (s1.engineWrite key bs).halfUnits (src * 2 ^ 32 + f.xfer.toNat) cut
    ({ s2 with fabric := { s2.fabric with
        arrived := (forget src f.xfer.toNat s2.fabric.arrived).put (src * 2 ^ 32 + f.xfer.toNat) (sofar + n) } }).e2e
      src f.xfer (sofar + n) 0

/-- Data that a copy here has asked for: staged, or the copy ends with its status (R291). -/
def State.readReturns (s : State) (f : DataFlit) : State :=
  match s.transfers.find? fun t => t.xfer == f.xfer && t.dst == f.src.toNat with
  | some t =>
    (match t.kind with
     | .read n detail va addr size =>
       if f.status ≠ 0 then s.failCopy n f.status.toNat detail va false fun x => x.xfer == t.xfer
       else
         let base := 2 ^ 50 + f.addr.toNat
         let stage := fun (c : Copy) =>
           { c with staged := (mapNumbered (fun i b => (base + i, b)) 0 f.payload).foldl (fun m e => m.put e.1 e.2) c.staged }
         let s1 : State := { s with copies := s.copies.map fun c => if c.sn = n then stage c else c }
         (match s1.copies.find? (·.sn == n) with
          | some c => if (natsFrom addr size).all fun k => (c.staged.find? k).isSome then s1.dropTransfer t.xfer else s1
          | none => s1.dropTransfer t.xfer)
     | _ => s)
  | none => s

/-- A chunk's data: stale, a duplicate, of another size than the operation's, refused, or staged (R407, R408, R410). -/
def State.chunkArrives (s : State) (f : DataFlit) : State :=
  let tag := f.addr.toNat
  let k := bitsOf tag 32 4
  let op := bitsOf tag 36 12
  let chunk := bitsOf tag 16 16
  let src := f.src.toNat
  let off := f.offset.toNat
  let n := f.payload.length
  let o := (s.graph k).op op
  let len := o.chunkLen chunk
  match s.currentRun k with
  | none => s.commCount k 0x14
  | some r =>
    if s.commState k ≠ 3 ∨ s.runSeq k % 2 ^ 16 ≠ bitsOf tag 48 16 then s.commCount k 0x14
    else if r.applied.contains (op, chunk) then (s.commCount k 0x10).e2e src f.xfer len 0
    else
      match r.buffers.find? fun b => b.op == op && b.chunk == chunk with
      | none => s
      | some b =>
        let spans : List Piece := match (s.chunkSpan r true (r.dataVa o chunk) len).1 with | .at_ ps => ps | _ => []
        let refused := !s.dataAdmits f none || spans.any fun p => !s.dataAdmits f (some ((p.key - 2 ^ 50) % 2 ^ 39, p.len))
        let s := s.openTransfer f
        if refused then s.e2e src f.xfer 0 2
        else if len < off + n ∨ (n < 448 ∧ off + n ≠ len) then s.failRun r 6 true
        else
          let old := if b.xfer = some f.xfer then b.data else []
          let data := (mapNumbered (fun i v => (off + i, v)) 0 f.payload).foldl (fun m e => m.put e.1 e.2) old
          let b' : Staging := { b with data := data, xfer := some f.xfer, whole := decide (data.length = len) }
          s.putRun { r with buffers := r.buffers.map fun x => if x.op = op ∧ x.chunk = chunk then b' else x }

/-- A request for bytes of this package's memory: refused, poisoned, or answered with data (R393). -/
def State.readArrives (s : State) (f : DataFlit) : State :=
  let addr := f.addr.toNat
  let n := f.request.toNat
  let src := f.src.toNat
  let answer := fun (s : State) (status : Nat) (bytes : List Byte) =>
    (dataFlits s.podIndex { xfer := f.xfer, dst := src, tenant := f.tenant.toNat, kind := .clear 0 0 0 } 0 (fun i => addr + i)
      bytes).foldl (fun (s : State) d =>
        s.post { dst := src, data := true, ch := 0, hop := 0, msg := .data { d with status := BitVec.ofNat 32 status } } f.xfer.toNat) s
  if keyHome (2 ^ 50 + addr) ≠ s.podIndex then s
  else if !s.aclAdmits s.podIndex src f.tenant.toNat 0 (some (addr % 2 ^ 39, n)) then answer s 2 []
  else if s.piecePoisoned false ⟨2 ^ 50 + addr, n, false⟩ then answer s 4 []
  else if s.heldByOther none (2 ^ 50 + addr) (max n 1) then s.wait (.data f)
  else
    let (bs, s1) := s.murk none (2 ^ 50 + addr) (s.mem.read (2 ^ 50 + addr) n)
    answer s1 0 bs

/-- A data flit for this package (R381). -/
def State.deliverData (s : State) (f : DataFlit) : State :=
  let ch := f.ch.toNat % 32
  if f.ty = 2 then s.readArrives f
  else if ch = 0 then (if keyHome (2 ^ 50 + f.addr.toNat) = s.podIndex then s.writeArrives f else s.readReturns f)
  else if ch ≤ 16 then s.chunkArrives f
  else s

/-- A data flit from a link: taken in its sequence, then delivered, or moved on to its second hop (R382, R385). A type that
Table 22.2 does not give counts as a CRC error. -/
def State.takeData (s : State) (l k : Nat) (f : DataFlit) : State :=
  let ch := f.ch.toNat % 32
  let hop := bitsOf f.ch.toNat 5 1
  match s.takeFlit l k (subOf true ch hop) f.seq.toNat (f.crcOk && (f.ty == 1 || f.ty == 2)) with
  | (false, s1) => s1
  | (true, s1) =>
    if f.dst.toNat = s1.podIndex then s1.deliverData f
    else if hop = 0 then s1.relay f.dst.toNat true ch (if f.ty = 2 then .rdreq f else .data f)
    else s1

/-- DATA (R381). -/
def execData (link bundle : Nat) (flit : DataFlit) (s : State) : Out := .next (s.takeData link bundle flit)
/-- RDREQ (R381). -/
def execRdreq (link bundle : Nat) (flit : DataFlit) (s : State) : Out := .next (s.takeData link bundle flit)

/-- What waited for a line is tried again; what this package has to send is sent (R226, R390). -/
def State.flush (s : State) : State :=
  if s.transfers.isEmpty && s.fabric.waiting.isEmpty then s else
  let s1 := s.fabric.waiting.foldl (fun (s : State) a => match a with
    | .atomic m => s.atomicArrives m
    | .data f => s.deliverData f) { s with fabric := { s.fabric with waiting := [] } }
  let s2 := s1.transfers.foldl State.takeBack s1
  (s2.transfers.map (·.xfer)).foldl State.sendTransfer s2

/-! ## Answers (R391, R147) -/

/-- An end-to-end acknowledgement arrives. -/
def State.e2eArrives (s : State) (x : Word) (result : DWord) : State :=
  let count := result.toNat % 2 ^ 32
  let status := bitsOf result.toNat 32 8
  match s.transfers.find? (·.xfer == x) with
  | none => s
  | some t =>
    match t.kind with
    | .piece n _ va _ _ bytes =>
      if status ≠ 0 then s.failCopy n status 2 va false fun y => y.xfer == x
      else if count < bytes.length then s
      else
        { s.dropTransfer x with
          copies := s.copies.map fun c => if c.sn = n then { c with unacked := c.unacked.filter (· != x.toNat) } else c }
    | .post g l dest _ _ _ => (s.dropTransfer x).postDone x.toNat g l dest count
    | .chunk k op _ _ =>
      (match s.currentRun k with
       | none => s.dropTransfer x
       | some r =>
         if status ≠ 0 then (s.dropTransfer x).failRun r status true
         else ((s.dropTransfer x).putRun (r.chunkDone (s.graph k) op)).checkRun k)
    | .clear _ _ _ => s.dropTransfer x
    | _ => s

/-- E2E_ACK (R391). -/
def execE2eAck (xfer : BitVec 32) (result : BitVec 64) (s : State) : Out := .next (s.e2eArrives xfer result)

/-- The result of a remote atomic arrives (R147). -/
def State.atomicAnswered (s : State) (x : Word) (status : Nat) (old : DWord) : State :=
  match s.transfers.find? (·.xfer == x) with
  | none => s
  | some t =>
    match t.kind with
    | .atomic o g l _ _ _ dest => (s.dropTransfer x).atomicDone o g l dest status old.toNat
    | _ => s

/-- REMOTE_ATOMIC_RESULT (R147). -/
def execRemoteAtomicResult (xfer : BitVec 32) (status : BitVec 4) (old : BitVec 64) (s : State) : Out :=
  .next (s.atomicAnswered xfer status.toNat old)

/-- ROUTE_RETRY_TIMER: a transfer without a route looks for one again (R391). -/
def execRouteRetryTimer (xfer : BitVec 32) (s : State) : Out :=
  match s.transfers.find? (·.xfer == xfer) with
  | none => .next s
  | some t =>
    match t.noRoute with
    | none => .next s
    | some since =>
      if (s.clk - since).toNat < 8000 ∨ s.route t.dst t.xfer.toNat = .none then .next s
      else .next (s.onTransfer xfer fun t => { t with noRoute := none })

/-- ROUTE_RETRY_EXPIRY: after 1 ms without a route a copy completes NO_ROUTE, its destination undefined, a message
INDETERMINATE (R391). -/
def execRouteRetryExpiry (xfer : BitVec 32) (s : State) : Out :=
  match s.transfers.find? (·.xfer == xfer) with
  | none => .next s
  | some t =>
    match t.noRoute with
    | none => .next s
    | some since => if (s.clk - since).toNat < 800000 then .next s else .next (s.failTransfer t 3 8)

/-- DEDUP_EXPIRY: results older than 2 ms are forgotten (R391). -/
def execDedupExpiry (s : State) : Out :=
  .next { s with fabric := { s.fabric with dedup := s.fabric.dedup.filter fun d => decide ((s.clk - d.at_).toNat < 1600000) } }

/-! ## Reach tables (R388, R389) -/

/-- The key of a destination's reach entry. -/
def State.reachKey (s : State) (p : Nat) : Nat := s.home + offReach + 2 * p
/-- The state with a reach entry written. -/
def State.setReach (s : State) (p v : Nat) : State := s.performBytes none (s.reachKey p) (leBytes 2 v)
/-- PEER of a route entry written, LIVE following (Table 22.4). -/
def State.setPeer (s : State) (p : Nat) (v : Bool) : State :=
  match s.linkTo p with
  | none => s
  | some l => (s.performBytes none (s.entryOf l) (leBytes 4 (setBits (s.mem.num (s.entryOf l) 4) 6 1 (if v then 1 else 0)))).refreshLink l

/-- A reach entry with the paths through one package set from that package's own links: VIABOARD or VIAPOD for a destination
two hops away, a detour for one that is one hop away (Table 22.5). -/
def State.throughRelay (s : State) (relay p : Nat) (up : Bool) (e : Nat) : Nat :=
  let b := s.podIndex / 32
  let d := s.podIndex % 32
  let bit := if up then 1 else 0
  let twoHop := p / 32 ≠ b ∧ p % 32 ≠ d
  let detour := fun (r : Nat) =>
    if up then (if bitsOf e 8 1 = 1 then e else setBits (setBits e 9 5 r) 8 1 1)
    else if bitsOf e 8 1 = 1 ∧ bitsOf e 9 5 = r then setBits e 8 1 0 else e
  if twoHop then
    if relay / 32 = b ∧ relay % 32 = p % 32 then setBits e 2 1 bit
    else if relay % 32 = d ∧ relay / 32 = p / 32 then setBits e 1 1 bit
    else e
  else if p / 32 = b ∧ relay / 32 = b then detour (relay % 32)
  else if p % 32 = d ∧ relay % 32 = d then detour (relay / 32)
  else e

/-- A package's links, as another package broadcast them, lead to a destination. -/
def leadsTo (pkg : Nat) (board pod : Word) (p : Nat) : Bool :=
  if p / 32 = pkg / 32 then board.getLsbD (p % 32) else p % 32 == pkg % 32 && pod.getLsbD (p / 32)

/-- The destinations that a package reaches in one hop. -/
def oneHop (p : Nat) : List Nat :=
  (((natsFrom 0 32).map fun i => p / 32 * 32 + i) ++ ((natsFrom 0 32).map fun i => i * 32 + p % 32)).filter (· != p)

/-- A broadcast of LINK bits arrives: firmware marks the package as a member and renews what is reached through it; a lost
package that is heard again has rejoined (R389, R399). -/
def State.linksHeard (s : State) (pkg : Nat) (board pod : Word) : State :=
  if pkg = s.podIndex ∨ 1024 ≤ pkg then s else
  let s1 := s.setReach pkg (setBits (s.reach pkg) 0 1 1)
  let k := s1.home + offPeerState + pkg / 8
  let s2 := (if s1.lost pkg then s1.performBytes none k [BitVec.ofNat 8 (setBits (s1.mem.num k 1) (pkg % 8) 1 0)] else s1).setPeer pkg true
  ((oneHop pkg).filter (· != s.podIndex)).foldl (fun (s : State) p =>
    s.setReach p (s.throughRelay pkg p (leadsTo pkg board pod p) (s.reach p))) s2

/-- LINK_STATE (R389). -/
def execLinkState (pkg : Nat) (board pod : BitVec 32) (s : State) : Out := .next (s.linksHeard pkg board pod)

/-- LINK_DOWN_TIMEOUT: a link whose peer has sent nothing for 100 µs is down (R387). -/
def execLinkDownTimeout (link : Nat) (s : State) : Out :=
  if (s.clk - (s.link link).heard).toNat < 80000 then .next s else .next (s.refreshLink link)

/-! ## Heartbeats and the loss of a peer (R396, R397) -/

/-- HEARTBEAT: every 100 µs a heartbeat goes out on every live link (R396). -/
def execHeartbeat (s : State) : Out :=
  if (s.clk - s.fabric.beatAt).toNat < 80000 then .next s
  else .next ({ s with fabric := { s.fabric with beatAt := s.clk } }.flood s.liveLinks .heartbeat)

/-- Two packages are direct peers. -/
def adjacent (a b : Nat) : Bool := a != b && (a / 32 == b / 32 || a % 32 == b % 32)

/-- A direct peer's link is down and it has been silent for 1 ms (R396). -/
def State.silent (s : State) (q : Nat) : Bool :=
  match s.linkTo q with
  | none => false
  | some l => !s.linkUp l && decide (800000 ≤ (s.clk - s.fabric.beats.get 0 q).toNat)

/-- The communicators that have a member fail (R397 step 4, R410). -/
def State.failComms (s : State) (q : Nat) : State :=
  ((natsFrom 0 16).filter fun k =>
      (s.commState k == 2 || s.commState k == 3) && memberBit (s.graph k).members q).foldl (fun (s : State) k =>
    (s.runs.filter fun r => r.k == k).foldl (fun (s : State) r => s.failRun r 1 false) (s.setComm k 4)) s

/-- The field of a copy that lies on a package, with the detail and the address of its current block there: 1 source,
3 scales, 4 index list, 2 destination. -/
def State.copyMeets (s : State) (c : Copy) (q : Nat) : Option (Nat × Nat) :=
  let d := c.desc
  let at_ := fun (va n : Nat) => (chunksOf (n / 8192 + 2) (va % 2 ^ 64) n).any fun e =>
    e.1 / 2 ^ 61 == 1 && (match (s.xlate c.ctx (BitVec.ofNat 64 e.1)).1 with
      | .leaf f => keyHome (f.key e.1) == q
      | _ => false)
  let rows := natsFrom 0 d.rows
  let x := fun r => s.rowIndex c r
  let now := min c.row (d.rows - 1)
  if d.gather && !d.zfill && at_ d.index.toNat (4 * d.rows) then some (4, d.index.toNat + 4 * now)
  else if !d.zfill && rows.any fun r => at_ (d.src.toNat + x r * d.sstride) (max 1 (d.srcBlock * d.blocks)) then
    some (1, d.src.toNat + x now * d.sstride + c.blk * d.srcBlock)
  else if d.scaled && rows.any fun r => at_ (d.ssrc.toNat + x r * d.scalePitch) d.blocks then
    some (3, d.ssrc.toNat + x now * d.scalePitch + c.blk)
  else if !d.canon && rows.any fun r => at_ (d.dst.toNat + r * d.dstride) (max 1 d.rbytes) then some (2, d.dst.toNat + now * d.dstride)
  else none

/-- The operations that involve a lost package end (R397 step 2). -/
def State.endWith (s : State) (q : Nat) : State :=
  let s1 := s.copies.foldl (fun (s : State) c =>
    match s.copyMeets c q with
    | some (detail, va) => s.failCopy c.sn 1 detail (va % 2 ^ 64) true fun t => t.dst == q
    | none => s) s
  (s1.transfers.filter (·.dst == q)).foldl (fun (s : State) t =>
    match t.kind with
    | .chunk _ _ _ _ => s
    | .clear _ _ _ => s
    | _ => if s.transfers.any (·.xfer == t.xfer) then s.failTransfer t 1 (if t.sent then 8 else 1) else s) s1

/-- The lines of control DRAM that a lost package may have owned are poisoned (R398): of this package's home region those that its
directory gave the package, if it has not written them back since; of another's, whose directory is not held, any that memory lists. No
L1 here holds such a line; which of them are poisoned is free (log 58). -/
def State.poisonOwned (s : State) (q : Nat) : State :=
  let here := (s.fabric.owners.filter fun e => e.2 == q).map (·.1)
  let away := ((s.mem.filter fun e => decide (e.1 < 2 ^ 50 ∧ homeOff e.1 < offFlash ∧ keyHome e.1 ≠ s.podIndex)).map
    fun e => e.1 / 128).eraseDups
  ((here ++ away).filter fun n => !(s.l1.any fun e => !isL1Tensor e.1 && e.1 % 2 ^ 42 == n)).foldl (fun (s : State) n =>
    let (i, s1) := s.choose 2
    if i = 0 then s1 else { s1 with poison := s1.poison ++ [.unit (n * 128)] }) s

/-- PEER_LOSS applied (R397): its steps in order; named itself, the package stops and resets (R396). -/
def State.losePeer (s : State) (q : Nat) : State :=
  if q = s.podIndex then s.restart false
  else if s.lost q ∨ 1024 ≤ q then s
  else
    let s0 := (s.setPeer q false).setReach q (setBits (s.reach q) 0 1 0)
    let s1 := (oneHop q).foldl (fun (s : State) p =>
      if p = s.podIndex then s else s.setReach p (s.throughRelay q p false (s.reach p))) s0
    let s2 := s1.endWith q
    let s3 := (s2.invalWait.map (·.1)).foldl (fun (s : State) h => s.ackInval h q) s2
    let s4 := s3.failComms q
    let k := s4.home + offPeerState
    let s5 := s4.performBytes none (k + q / 8) [BitVec.ofNat 8 (setBits (s4.mem.num (k + q / 8) 1) (q % 8) 1 1)]
    let s6 := (s5.performBytes none (k + 0x80) (leBytes 4 (s5.mem.num (k + 0x80) 4 + 1))).poisonOwned q
    let s7 : State := { s6 with fabric := { s6.fabric with suspects := s6.fabric.suspects.filter (·.pkg != q) } }
    if (s7.mirror.find? q).isSome then
      { s7 with
        rebuilding := s7.rebuilding ++ [q]
        fabric := { s7.fabric with rebuilt := s7.fabric.rebuilt.put q s7.clk } }
    else s7

/-- The loss of a package is flooded and applied (R396). -/
def State.floodLoss (s : State) (q : Nat) : State := (s.flood s.liveLinks (.peerLoss q)).losePeer q

/-- PEER_LOSS arrives: it is forwarded once, and applied (R396, R397). -/
def State.lossHeard (s : State) (q : Nat) (onward : List Nat) : State :=
  if s.lost q ∨ q = s.podIndex then s.losePeer q else (s.flood onward (.peerLoss q)).losePeer q

/-- PEER_LOSS (R397); the event does not say on which tier it came, so it goes on over both. -/
def execPeerLoss (pkg : Nat) (s : State) : Out := .next (s.lossHeard pkg s.liveLinks)

/-- HEARTBEAT_TIMEOUT: a direct peer that is silent is suspected and SUSPECT goes to the direct peers (R396). -/
def execHeartbeatTimeout (pkg : Nat) (s : State) : Out :=
  if !s.silent pkg || s.lost pkg || bitsOf (s.reach pkg) 0 1 == 0 || s.fabric.suspects.any (·.pkg == pkg) then .next s
  else
    let x := ((s.liveLinks.map s.peerOf).filter fun p => p != pkg && adjacent p pkg).length
    let s1 : State := { s with fabric := { s.fabric with suspects := s.fabric.suspects ++ [⟨pkg, s.clk, x, []⟩] } }
    .next (s1.flood s1.liveLinks (.suspect pkg))

/-- SUSPECT arrives: a package that has lost the peer too answers CONFIRM (R396). -/
def State.suspectHeard (s : State) (src q : Nat) : State :=
  if s.silent q then s.post { dst := src, data := false, ch := 4, hop := 0, msg := .confirm q } 0 else s

/-- SUSPECT (R396). -/
def execSuspect (src pkg : Nat) (s : State) : Out := .next (s.suspectHeard src pkg)

/-- CONFIRM arrives: with enough of them the loss is flooded (R396). -/
def State.confirmHeard (s : State) (src q : Nat) : State :=
  match s.fabric.suspects.find? (·.pkg == q) with
  | none => s
  | some x =>
    let cs := if x.confirms.contains src then x.confirms else x.confirms ++ [src]
    if 0 < x.x ∧ min 2 x.x ≤ cs.length then s.floodLoss q
    else { s with fabric := { s.fabric with
      suspects := s.fabric.suspects.map fun y => if y.pkg = q then { y with confirms := cs } else y } }

/-- CONFIRM (R396). -/
def execConfirm (src pkg : Nat) (s : State) : Out := .next (s.confirmHeard src pkg)

/-- SOLO_LOSS_TIMER: with no common peer, 2 ms more of silence decide (R396). -/
def execSoloLossTimer (pkg : Nat) (s : State) : Out :=
  match s.fabric.suspects.find? (·.pkg == pkg) with
  | none => .next s
  | some x => if x.x = 0 ∧ 1600000 ≤ (s.clk - x.since).toNat ∧ s.silent pkg then .next (s.floodLoss pkg) else .next s

/-- ISOLATION_TIMEOUT: with no live link for 1 ms while the reach table names another member, the package stops and resets
(R396). -/
def execIsolationTimeout (s : State) : Out :=
  let others := (natsFrom 0 1024).any fun p => p != s.podIndex && bitsOf (s.reach p) 0 1 == 1
  if s.liveLinks.isEmpty && decide (800000 ≤ (s.clk - s.fabric.alone.getD 0).toNat) && others then .next (s.restart false)
  else .next s

/-- A package is heard on CMGT: it is alive (R396). -/
def State.beat (s : State) (src : Nat) : State :=
  { s with fabric := { s.fabric with
      beats := s.fabric.beats.put src s.clk
      suspects := s.fabric.suspects.filter (·.pkg != src) } }

/-! ## Control messages (R380, R382) -/

/-- What an operation that always goes on leaves. -/
def stateOf (o : Out) (s : State) : State := match o with | .next t => t | _ => s

/-- A request of another package's slice for exclusive ownership of a line of this package's home region: the directory grants it (R354;
log 17, 68). -/
def State.ownLine (s : State) (src pa : Nat) : State :=
  if 2 ^ 50 ≤ pa ∨ keyHome pa ≠ s.podIndex ∨ offFlash ≤ homeOff pa then s
  else { s with fabric := { s.fabric with owners := s.fabric.owners.put (pa / 128) src } }

/-- A whole message for this package, from a link, on a channel. -/
def State.message (s : State) (l ch : Nat) (m : List Byte) : State :=
  let f := fun off n => leNat ((m.drop off).take n)
  let src := f 2 2
  let tenant := f 4 2
  let x := BitVec.ofNat 32 (f 6 4)
  let op := f 10 1
  match ch with
  | 0 => if op = 1 then s.ownLine src (f 11 8) else s
  | 1 =>
    (match op with
     | 0 => s.e2eArrives x (BitVec.ofNat 64 (f 11 8))
     | 1 => s.atomicAnswered x (f 11 1 % 16) (BitVec.ofNat 64 (f 12 8))
     | 2 => (stateOf (execClear (ClearMsg.mk (f 11 1 % 16) (BitVec.ofNat 32 (f 12 4)) (f 16 2) (f 18 2)) s) s).e2e src x 0 0
     | _ => s)
  | 3 =>
    if 26 < m.length then s.postArrives src tenant x (f 11 3 % 4096) (f 11 3 / 4096) ((m.drop 14).take 64)
    else s.atomicArrives ⟨src, tenant, x, BitVec.ofNat 4 op, f 11 7, BitVec.ofNat 64 (f 18 8)⟩
  | 4 =>
    let s1 := s.beat src
    (match op with
     | 1 => s1.linksHeard src (BitVec.ofNat 32 (f 11 4)) (BitVec.ofNat 32 (f 15 4))
     | 2 => s1.suspectHeard src (f 11 2)
     | 3 => s1.confirmHeard src (f 11 2)
     | 4 => s1.lossHeard (f 11 2) (s1.liveLinks.filter fun x => decide (x / 32 ≠ l / 32))
     | 5 => s1.takeInval (BitVec.ofNat 64 (f 12 8)) (f 20 4) (f 24 2) (some (src, f 11 1))
     | 6 => s1.ackInval (f 11 1) src
     | 7 => stateOf (execRunfail (f 11 1 % 16) (BitVec.ofNat 32 (f 12 4)) (BitVec.ofNat 4 (f 16 1)) s1) s1
     | _ => s1)
  | _ => s

/-- A message flit of a sub-channel that has been taken: the first names the destination and MORE how many follow; for
another package it moves on at once (R380, R382, R391). -/
def State.deliverCtl (s : State) (l : Nat) (f : CtlFlit) : State :=
  let ch := f.ch.toNat % 8
  let hop := bitsOf f.ch.toNat 3 1
  let sub := subOf false ch hop
  if 4 < ch then s else
  let x := s.link l
  let (dst, left, sofar) : Nat × Nat × List Byte := match x.parts.find? sub with
    | some p => p
    | none => (leNat (f.body.take 2), bitsOf f.ch.toNat 4 2 + 1, [])
  let mine := dst == s.podIndex
  let bytes := if mine then sofar ++ f.body else []
  let s1 := s.putLink l { x with
    parts := if left ≤ 1 then x.parts.erase sub else x.parts.put sub (dst, left - 1, bytes) }
  if mine then (if left ≤ 1 then s1.message l ch bytes else s1)
  else if hop = 0 then s1.relay dst false ch (.relay f)
  else s1

/-- The (sub-channel, FREED) pairs of a CREDIT or CSYNC flit (R384). -/
def creditPairs (body : List Byte) : List (Nat × BitVec 32) :=
  (pieces 5 4 (body.take 20)).map fun p => (leNat (p.take 1), BitVec.ofNat 32 (leNat ((p.drop 1).take 4)))

/-- A control flit that passed its check, by its type (Table 22.1). -/
def State.takeCtl (s : State) (l : Nat) (f : CtlFlit) : State :=
  let k := leNat (f.body.take 1)
  let seq := BitVec.ofNat 16 (leNat ((f.body.drop 1).take 2))
  match f.ty.toNat with
  | 1 => s.deliverCtl l f
  | 2 => stateOf (execAck l k seq s) s
  | 3 => stateOf (execNak l k seq s) s
  | 4 => s.takeCredits l (creditPairs f.body)
  | 5 => s.takeCredits l (creditPairs f.body)
  | _ => s

/-- MSG: a control flit is taken in its bundle's sequence and handled on its channel; flits of the other types have no
sequence, and unknown types count as CRC errors (R380, R385). -/
def execMsg (link bundle : Nat) (flit : CtlFlit) (s : State) : Out :=
  let ty := flit.ty.toNat
  if ty = 0 ∨ (2 ≤ ty ∧ ty ≤ 5) then .next (if flit.crcOk then s.takeCtl link flit else s)
  else
    match s.takeFlit link bundle (subOf false (flit.ch.toNat % 8) (bitsOf flit.ch.toNat 3 1)) flit.seq.toNat
        (flit.crcOk && ty == 1) with
    | (false, s1) => .next s1
    | (true, s1) => .next (s1.deliverCtl link flit)

/-- CTRLCARRY: a data flit of control flits, taken in its bundle's sequence; each is then handled in turn, its slot freed at
once (R386). -/
def execCtrlcarry (link bundle : Nat) (flit : DataFlit) (flits : List CtlFlit) (s : State) : Out :=
  match s.takeFlit link bundle (subOf true (flit.ch.toNat % 32) (bitsOf flit.ch.toNat 5 1)) flit.seq.toNat flit.crcOk with
  | (false, s1) => .next s1
  | (true, s1) =>
    .next ((flits.filter (·.crcOk)).foldl (fun (s : State) f =>
      let sub := subOf false (f.ch.toNat % 8) (bitsOf f.ch.toNat 3 1)
      let c := s.credit link sub
      (if f.ty = 1 then s.putCredit link sub { c with freed := (c.freed + 1) % 2 ^ 32 } else s).takeCtl link f) s1)

end Sys2Proof.Machine
end

