-- ==== Sys2Proof/Machine/Devices.lean ====
section
/-! DEFINITION. The device windows of the package's home region and what a store to them does (10, 16, 20 to 23); host cores'
ports; registers and tables that firmware writes. -/

namespace Sys2Proof.Machine

open Sys2Proof

/-! ## Stores to device windows -/

/-- A device window of a home region by its offset: which one, and the first offset of its block. -/
inductive Window' where
  | ignored
  | unlock
  | comm (k : Nat)
  | inval (h : Nat)
  | resolve
deriving DecidableEq, Repr

/-- The window that holds a control key: the ports, the route and reach tables and the peer-state block, through which stores
are ignored (R388, R389, R399; a port takes records alone, R308, R403); the collective engine's control page and entries
(R400); the invalidation blocks (R349); the resolve port (R235). -/
def State.windowOf (s : State) (pa : Nat) : Option Window' :=
  let o := homeOff pa
  if 2 ^ 50 ≤ pa then none
  else if s.resolvePort ≠ 0 ∧ pa / 64 = s.resolvePort / 64 then some .resolve
  else if o < offCollective then none
  else if o < offCollective + 0x40 then some .ignored
  else if o < offCollective + 0x80 then some .unlock
  else if offCollective + 0x100 ≤ o ∧ o < offCollective + 0x500 then some (.comm ((o - (offCollective + 0x100)) / 64))
  else if offPeerState ≤ o ∧ o < offPeerState + 0x84 then some .ignored
  else if offBoard ≤ o ∧ o < offBoard + 0x100 then some .ignored
  else if offReach ≤ o ∧ o < offReach + 0x800 then some .ignored
  else if offInval ≤ o ∧ o < offInval + 0x800 then some (.inval ((o - offInval) / 64))
  else if offPorts ≤ o then some .ignored
  else none

/-- The bytes of a store by the offset from a base; absent ones as none. -/
def storedByte (pa base : Nat) (bytes : List Byte) (i : Nat) : Option Byte :=
  if pa ≤ base + i then (bytes.drop (base + i - pa)).head? else none

/-- The fields of an invalidation block written: BASE, COUNT, ASID; DONE and ERR cleared by 1; then GO (Table 20.4, R6). -/
def State.storeInval (s : State) (h pa : Nat) (bytes : List Byte) : State :=
  let base := s.invalBlock h
  let put := fun (s : State) i => match storedByte pa base bytes i with
    | some v => s.performBytes none (base + i) [v]
    | none => s
  let s1 := (natsFrom 0 14).foldl put s
  let s2 := match storedByte pa base bytes 0x14 with
    | some v => s1.performBytes none (base + 0x14) [BitVec.ofNat 8 (s1.mem.num (base + 0x14) 1) &&& ~~~(v &&& 6#8)]
    | none => s1
  match storedByte pa base bytes 0x10 with
  | some v => if v.toNat % 2 = 1 then stateOf (execInvalidationGo h s2) s2 else s2
  | none => s2

/-- The fields of a communicator entry written: GRAPH and CTX in EMPTY and FAILED; DUPS and STALE cleared by 1; then CMD
(Table 23.1, R401, R6). -/
def State.storeComm (s : State) (k pa : Nat) (bytes : List Byte) : State :=
  let base := s.comm k
  let open_ := s.commState k == 0 || s.commState k == 4
  let put := fun (s : State) i => match storedByte pa base bytes i with
    | some v => s.performBytes none (base + i) [v]
    | none => s
  let s1 := if open_ then (natsFrom 0 10).foldl put s else s
  let clear := fun (s : State) i => match storedByte pa base bytes i with
    | some v => s.performBytes none (base + i) [BitVec.ofNat 8 (s.mem.num (base + i) 1) &&& ~~~v]
    | none => s
  let s2 := (natsFrom 0x10 8).foldl clear s1
  match storedByte pa base bytes 0xA with
  | some v =>
    (match v.toNat % 16 with
     | 1 => stateOf (execCommLoad k s2) s2
     | 2 => stateOf (execCommFree k s2) s2
     | 3 => stateOf (execCommAbort k s2) s2
     | _ => s2)
  | none => s2

/-- A store to a device window: what the device does with it. The windows of other packages' regions take no store here. A store of one
byte of the 16-bit KEY of UNLOCK is judged at once, with 0 for the byte that it lacks, on which the spec is silent (DESIGN CHOICE, log
91). -/
def State.deviceStore (s : State) (pa : Nat) (bytes : List Byte) : Option State :=
  match s.windowOf pa with
  | none => none
  | some .resolve =>
    some (if pa = s.resolvePort ∧ bytes.length = 8 then
        s.resolve (BitVec.ofNat 32 (leNat bytes)) (bitsOf (leNat bytes) 32 2)
      else s)
  | some w =>
    if pa / 2 ^ 35 ≠ s.podIndex then some s else
    match w with
    | .unlock =>
      some (match storedByte pa s.collPage bytes 0, storedByte pa s.collPage bytes 1 with
        | none, none => s
        | a, b => stateOf (execUnlock 4 (BitVec.ofNat 32 ((a.getD 0).toNat + 256 * (b.getD 0).toNat)) s) s)
    | .comm k => some (s.storeComm k pa bytes)
    | .inval h => some (s.storeInval h pa bytes)
    | _ => some s

/-! ## Host cores (R356) -/

/-- HOST_PORT_STORE: a host core's record sets out for a port as a POST does; ports 0 to 4095 are the queues', 4096 is the
run port (R356, R403). -/
def execHostPortStore (h port : Nat) (record : List (BitVec 8)) (s : State) : Out :=
  let pa := if port < 4096 then s.home + offPorts + 64 * port else s.runPort
  let bytes := (record ++ List.replicate 64 0#8).take 64
  let key := s.hostKey h pa
  .next { s with
    posts := s.posts ++ [{ sn := s.sn * 64, gang := hostGang, lane := h, dest := 63, ctx := 0, pa := pa, bytes := bytes }]
    sn := s.sn + 1
    care := { s.care with hostCodes := s.care.hostCodes.erase key } }

/-- HOST_PORT_LOAD: the code of the host core's last store to the port, once it has been answered; 0xFFFF_FFFF if there was
none (R356). -/
def execHostPortLoad (h port : Nat) (s : State) : Out :=
  let pa := if port < 4096 then s.home + offPorts + 64 * port else s.runPort
  let key := s.hostKey h pa
  let c := s.care
  if s.posts.any fun p => p.gang == hostGang && p.lane == h && p.pa == pa then
    .next { s with care := { c with hostWaits := c.hostWaits ++ [key] } }
  else .next { s with care := { c with hostReads := c.hostReads.put h (c.hostCodes.get 0xFFFFFFFF#32 key) } }

/-! ## Registers and tables that firmware writes -/

/-- A byte of a tenant's entry as the table takes it: its reserved bits read 0 (Table 22.8, R6). -/
def aclByte (i : Nat) (b : Byte) : Byte :=
  if i = 0 then b &&& 1#8 else if i ≤ 8 then b else if i = 9 then b &&& 0x1F#8 else if i < 128 then 0#8 else b

/-- Bytes on their way to memory, as the tenant tables take those that lie in one (R394). -/
def State.aclBytes (s : State) (pa : Nat) (bytes : List Byte) : List Byte :=
  s.aclBases.foldl (fun bs e =>
    if e.2 = 0 then bs else
    mapNumbered (fun i b => if e.2 ≤ pa + i ∧ pa + i < e.2 + 2 ^ 20 then aclByte ((pa + i - e.2) % 256) b else b) 0 bs) bytes

/-- STALEDROP and REDIRECTS of a cluster cleared where a 1 is written (Table 13.6, R6, R276). -/
def State.clearSync (s : State) (cl v : Nat) : State :=
  { s with sync := { s.sync with
      staleDrops := s.sync.staleDrops.set 0 cl ((s.sync.staleDrops.get 0 cl &&& (0xFFFFFFFF ^^^ bitsOf v 32 32)))
      redirects := s.sync.redirects.set 0 cl ((s.sync.redirects.get 0 cl &&& (0xFFFF ^^^ bitsOf v 16 16))) } }

/-- The places at which REGISTER_WRITE names the registers that the spec gives no address (log 18). -/
def regBase : Nat := 2 ^ 60

/-- A register of firmware written (R234, R307, R308, R309, R353, R394, R276). -/
def State.setRegister (s : State) (n v : Nat) : State :=
  match n with
  | 0 => { s with ctxBase := v }
  | 1 => { s with qcbBase := v }
  | 2 => { s with queueAclBase := v }
  | 3 => { s with resolvePort := v }
  | 4 => { s with faultVa := BitVec.ofNat 64 v }
  | 5 => { s with podIndex := v % 1024 }
  | _ =>
    if 0x400 ≤ n ∧ n < 0x800 then { s with aclBases := s.aclBases.set 0 (n - 0x400) v }
    else if 0x800 ≤ n ∧ n < 0xC00 then
      { s with mirror := if v < 1024 then s.mirror.put (n - 0x800) v else s.mirror.erase (n - 0x800) }
    else if 0xC00 ≤ n ∧ n < 0xC30 then s.clearSync (n - 0xC00) v
    else s

/-- The link whose route-table entry a key is (R388). -/
def State.linkAt (s : State) (pa : Nat) : Option Nat :=
  if s.home + offBoard ≤ pa ∧ pa < s.home + offBoard + 0x100 ∧ pa % 4 = 0 then some ((pa - (s.home + offBoard)) / 4) else none

/-- REGISTER_WRITE: firmware or host software writes a register or a table: a register of firmware; PEER of a route entry and
a reach entry while the fabric interface is open (R374, R388, R389); a device's field; else memory. -/
def execRegisterWrite (addr : Nat) (bytes : List (BitVec 8)) (s : State) : Out :=
  let v := leNat bytes
  let opened := (s.unlockOf 2).1
  if regBase ≤ addr then .next (s.setRegister ((addr - regBase) / 8) v)
  else
    match s.linkAt addr with
    | some l => .next (if opened then s.setPeer (s.peerOf l) (bitsOf v 6 1 == 1) else s)
    | none =>
      if s.home + offReach ≤ addr ∧ addr < s.home + offReach + 0x800 ∧ addr % 2 = 0 then
        .next (if opened then s.setReach ((addr - (s.home + offReach)) / 2) (v % 2 ^ 16 &&& 0x3F07) else s)
      else if inFlash addr then .next s
      else
        match s.deviceStore addr bytes with
        | some s1 => .next s1
        | none => .next (s.performBytes none addr (s.aclBytes addr bytes))

end Sys2Proof.Machine
end

