-- ==== Sys2Proof/Machine/Commit.lean ====
section
/-! DEFINITION. The commit engine of a core (R223 to R226): what it finds for a lane, what it writes, and its bounds. -/

namespace Sys2Proof.Machine

open Sys2Proof

/-- What the engine finds for a lane: the current values of its loads, and whether it aborts and why (R224). -/
def Region.verdict (r : Region) (m : Memory) : (Nat → DWord) × Option Nat :=
  let cur := fun i => match nth none (r.loads.map some) i with
    | some x => BitVec.ofNat 64 (m.num x.pa x.size)
    | none => 0
  let changed := r.loads.any fun x => BitVec.ofNat 64 (m.num x.pa x.size) != x.value
  if r.loads.any fun x => BitVec.ofNat 64 (m.num x.pa x.size) != x.value && x.pinned then (cur, some 1)
  else if changed && r.constraints.any (fun x => x.1.holds cur != x.2) then (cur, some 2)
  else (cur, none)

/-- The registers of a lane with every tag re-applied to the current values (R224). -/
def Region.reapply (r : Region) (cur : Nat → DWord) (t : Thread) : Thread :=
  r.marks.foldl (fun t e =>
    match e.2 with
    | .tag g =>
      let v := cur g.load + g.k
      if g.pair then (t.setReg e.1 (loOf v)).setReg (e.1 + 1) (hiOf v) else t.setReg e.1 (loOf v)
    | .rel _ => t) t

/-- Bytes performed: by the device whose window they go to, else in memory (R139, R224). -/
def State.writeOut (s : State) (core : Option Nat) (pa : Nat) (bytes : List Byte) : State :=
  match s.deviceStore pa bytes with
  | some s1 => s1
  | none =>
    let (bs, s1) := s.murkWrite none pa (s.aclBytes pa bytes)
    s1.performBytes core pa bs

/-- One lane's commit (R224): it aborts, or its stores are written in program order, its tagged registers take the
re-applied values, its tags are cleared, its status is reset and it is released. -/
def State.commitLane (g : Nat) (s : State) (l : Nat) : State :=
  match (s.thread g l).region with
  | none => s
  | some r =>
    let (cur, abort) := r.verdict s.mem
    match abort with
    | some why => s.abortLanes g (laneBit l) why 0
    | none =>
      let s1 := r.stores.foldl (fun s x =>
        let v := match x.tag with | some t => cur t.load + t.k | none => x.value
        s.writeOut (some (coreOf g)) x.pa (leBytes x.size v.toNat)) s
      s1.onThread g l fun t =>
        { r.reapply cur t with
          region := none, axCode := 0, axCount := 0, axCause := 0, grant := some (if r.exclusive then 1 else 0) }

/-- The engine can take every region line: none that an ordinary lane of the request needs is held by the exclusive attempt (R223,
R226). -/
def State.linesFree (s : State) (r : CommitReq) : Bool :=
  (laneList r.lanes).all fun l =>
    match (s.thread r.gang l).region with
    | some x => x.lines.all fun ln => !s.heldByOther (some (r.gang, l)) (ln * 128) 128
    | none => true

/-- Everything that an AXE comes after is done: the earlier accesses of its lanes are performed (R225), and what releases to them owe
(R140). -/
def State.commitReady (s : State) (r : CommitReq) : Bool :=
  (laneList r.lanes).all fun l => !s.unperformed r.gang l && !(s.posts.any fun p => p.gang == r.gang && p.lane == l) && !s.owes r.gang l 6 none

/-- A core's engine has been at its oldest request for 2,000 clk without every line (R223). -/
def CommitReq.overdue (r : CommitReq) (clk : DWord) : Bool := r.start.any fun t => decide (2000 ≤ (clk - t).toNat)

/-- COMMIT: the core's commit engine takes up its oldest AXE once every earlier access of its lanes has been performed, and serves it
when it has every line: the lanes in ascending order, as one step (R223 to R226). -/
def execCommit (core : Nat) (s : State) : Out :=
  match s.commits.find? fun r => r.core == core with
  | none => .next s
  | some r =>
    if !s.commitReady r then .next s
    else if !s.linesFree r then
      .next { s with commits := s.commits.map fun x => if x = r ∧ x.start = none then { x with start := some s.clk } else x }
    else
      let s1 := (laneList r.lanes).foldl (State.commitLane r.gang) s
      let done := (laneList r.lanes).filter fun l => (s1.thread r.gang l).grant.isSome
      let wrote := done.flatMap fun l => match (s.thread r.gang l).region with
        | some x => (x.stores.filter (·.whole)).map fun y => (y.pa, y.size)
        | none => []
      .next { s1.invalidateL1 core with
        commits := s1.commits.filter (· != r)
        poison := s1.poison.filter fun d => match d with | .unit u => !wholeUnit wrote u | _ => true }

/-- COMMIT_LINE_TIMEOUT: an engine that has not taken every line within 2,000 clk of starting gives up; every lane of the AXE aborts
with CONFLICT (R223, R226). -/
def execCommitLineTimeout (core : Nat) (s : State) : Out :=
  match s.commits.find? fun r => r.core == core with
  | none => .next s
  | some r =>
    if r.overdue s.clk && !s.linesFree r then
      .next { s.abortLanes r.gang r.lanes 1 0 with commits := s.commits.filter (· != r) }
    else .next s

end Sys2Proof.Machine
end

