-- ==== Sys2Proof/Machine/Perform.lean ====
section
/-! DEFINITION. What an issued access does when it is performed, and how results reach their registers and queues (01, 06,
08, 16): loads, stores, atomics, CAS, merges, SLD. -/

namespace Sys2Proof.Machine

open Sys2Proof

/-! ## When an access can be performed -/

/-- A plain load, which is served from its thread's own stores as well. -/
def Access.plainLoad (a : Access) : Bool := match a.kind with | .load acquire _ => !acquire | _ => false
/-- An atomic or CAS. -/
def Access.isAtomic (a : Access) : Bool := match a.kind with | .atom _ => true | .cas _ _ => true | _ => false
/-- A store. -/
def Access.isStore (a : Access) : Bool := match a.kind with | .store => true | _ => false
/-- Two accesses share a byte. -/
def Access.meets (a b : Access) : Bool := overlaps a.pa a.size b.pa b.size

/-- The earlier accesses that a release comes after: all of its thread at the pod; at a narrower scope those numbered below its bound,
but for plain stores, which its acquires wait for (R140, R148; log 19). -/
def Access.releases (a b : Access) : Bool :=
  a.release || (!b.isStore && match a.rel with | some (_, n) => decide (b.sn < n) | none => false)

/-- An access b comes before a: an earlier one of the same thread to the same byte, but for a store that a plain load is
served from (R134); the store or the atomic of a lower lane of the same gang issue cycle to the same byte (R133); an earlier
one of the thread where a is a release (R140). -/
def Access.after (a b : Access) : Bool :=
  if b.of a.gang a.lane then decide (b.sn < a.sn) && (a.releases b || (a.meets b && !(a.plainLoad && b.isStore)))
  else
    b.gang == a.gang && b.cycle == a.cycle && decide (b.lane < a.lane) && a.meets b &&
    ((a.isStore && b.isStore) || (a.isAtomic && b.isAtomic))

/-- The number below which a release comes after its thread's scale loads and matrix work (R140, R205). -/
def Access.bound (a : Access) : Nat := if a.release then a.sn else match a.rel with | some (_, n) => n | none => 0

/-- The T-pipe's work that an access comes after: for a release all that its lane issued before (R140); in scratch space the
gang's earlier words that still read, or write, the slot (R194); an SLD of the thread that reads its bytes (R134, R205). -/
def State.tensorFirst (s : State) (a : Access) : Bool :=
  let load := match a.kind with | .load _ _ => true | _ => false
  (s.scaleLoads.any (fun x => x.gang == a.gang && x.lane == a.lane && decide (x.sn < a.bound)) ||
    s.matOps.any fun o => o.gang == a.gang && inLanes o.lanes a.lane && decide (o.sn < a.bound)) ||
  (isScratchKey a.pa && s.matOps.any fun o =>
    o.gang == a.gang && decide (o.sn < a.sn) && (!load || o.writesScratch) &&
    o.kind.keys.any fun k => sameSlot k a.pa) ||
  s.scaleLoads.any fun x => x.gang == a.gang && x.lane == a.lane && decide (x.sn < a.sn) && overlaps a.pa a.size x.pa 512

/-- A line is held for an exclusive attempt, or its region's directory is being rebuilt (R226, R398). -/
def State.lineHeld (s : State) (g l pa n : Nat) : Bool :=
  s.heldByOther (some (g, l)) pa n || (decide (pa < 2 ^ 50) && s.rebuilding.contains (pa / 2 ^ 35))

/-- An LDA waits for what the releases of its location within its scope and theirs have left behind (R137, R140; log 19). -/
def State.acquireReady (s : State) (a : Access) : Bool :=
  match a.kind, a.rel with
  | .load true _, some (scope, _) => !s.owes a.gang a.lane scope (some (a.pa, a.size))
  | _, _ => true

/-- The access can be performed now; `packet` are those that travel with it (R301). -/
def State.performable (s : State) (a : Access) (packet : List Nat) : Bool :=
  a.into.isNone && !(s.accesses.any fun b => a.after b && !packet.contains b.sn) && !s.tensorFirst a &&
  s.gateOpen a.gang a.lane a.gate && s.acquireReady a && !s.lineHeld a.gang a.lane a.pa a.size

/-! ## Reading -/

/-- Bytes within one line as a core reads them by plain loads in tensor space: from a line in its L1, which may be stale, or
from memory, which the L1 then holds (R137, R167, R361). -/
def State.readL1 (s : State) (core pa n : Nat) : List Byte × State :=
  let key := s.lineKey core pa
  let line := s.mem.read (pa / 128 * 128) 128
  match s.l1.find? key with
  | none => ((line.drop (pa % 128)).take n, s.fillL1 key line)
  | some old =>
    let stale := (old.drop (pa % 128)).take n
    if stale = s.mem.read pa n then (stale, s)
    else
      let (i, s1) := s.choose 2
      if i = 0 then (stale, s1) else ((line.drop (pa % 128)).take n, s1.fillL1 key line)

/-- The L1 after a load of a control line: it holds the line (R167). -/
def State.holdControl (s : State) (core pa : Nat) : State :=
  if pa < 2 ^ 50 then s.fillL1 (s.lineKey core pa) [] else s

/-- The bytes of a range that a load of an access finds: its thread's own stores laid over memory, or over its core's L1
(R134); where a fence of its own chain comes before it, that fence's invalidation is done (R22, R137). -/
def State.loadBytes (s : State) (a : Access) (pa n : Nat) : List Byte × State :=
  let s0 := if a.gate.any (·.invalidate) then s.invalidateL1 a.core else s
  if a.plainLoad && isTensorKey pa then
    let (line, s1) := s0.readL1 a.core pa n
    let (bs, s1) := s1.murk none pa line
    (((s1.accesses.filter fun b => b.of a.gang a.lane && decide (b.sn < a.sn) && b.isStore && overlaps pa n b.pa b.size)).foldl
      (fun bs b => overlay pa bs b.pa (leBytes b.size b.data)) bs, s1)
  else
    let (bs, s1) := s0.murk none pa (s0.visible a.gang a.lane a.sn pa n)
    (bs, if a.plainLoad then s1.holdControl a.core pa else s1)

/-- The state without an access. -/
def State.dropAccess (s : State) (sn : Nat) : State := { s with accesses := s.accesses.filter (·.sn != sn) }

/-- An acquiring read takes its line out of its core's L1, and from cluster scope on every tensor line (R137). -/
def State.acquired (s : State) (a : Access) : State :=
  match a.kind with
  | .load true inval =>
    if inval then s.invalidateL1 a.core
    else if isTensorKey a.pa then { s with l1 := s.l1.erase (s.lineKey a.core a.pa) } else s
  | _ => s

/-- A load's read (R136): its value; or, for a 16-byte load of tensor or scratch space that is taken in two halves, none
yet. -/
def State.takeLoad (s : State) (a : Access) : Option Nat × State :=
  match a.half with
  | some (low, v) =>
    let (bs, s1) := s.loadBytes a (if low then a.pa + 8 else a.pa) 8
    (some (if low then v.toNat + 2 ^ 64 * leNat bs else leNat bs + 2 ^ 64 * v.toNat), s1.dropAccess a.sn)
  | none =>
    let (n, s0) := if a.size = 16 && decide (2 ^ 50 ≤ a.pa) then s.choose 3 else (0, s)
    if n = 0 then
      let (bs, s1) := s0.loadBytes a a.pa a.size
      (some (leNat bs), (s1.acquired a).dropAccess a.sn)
    else
      let low := n == 1
      let (bs, s1) := s0.loadBytes a (if low then a.pa else a.pa + 8) 8
      (none, { s1 with accesses := s1.accesses.map fun b =>
        if b.sn = a.sn then { b with half := some (low, BitVec.ofNat 64 (leNat bs)) } else b })

/-! ## Results (R18, R19, R138) -/

/-- The region with a result of the chain that opened it in its snapshot too: no abort takes it back (R220). -/
def Region.keep (r : Region) (t : Thread) (sn base : Nat) (ws : List Word) : Region :=
  if r.born.1 * 64 ≤ sn ∧ sn < r.born.2 * 64 then { r with snapshot := ({ t with regs := r.snapshot }.writeWords base ws).regs } else r

/-- A class-L result written: its words from its first register on, its mark in its thread's region, the registers' poison
gone (R19, R217, R243). -/
def State.writeResult (s : State) (p : Pending) (ws : List Word) : State :=
  let regs := if 56 ≤ p.dest then [] else natsFrom p.dest ws.length
  let s1 := s.onThread p.gang p.lane fun t =>
    let t1 := ((t.unmark regs).writeWords p.dest ws).onRegion fun r => r.keep t p.sn p.dest ws
    match p.mark with
    | some x => if 56 ≤ p.dest ∨ (p.dest = 0 ∧ ws.length = 1) then t1 else t1.onRegion fun r => { r with marks := r.marks.put p.dest x }
    | none => t1
  { s1 with pending := s1.pending.filter (·.sn != p.sn) }.cureRegs p.gang (laneBit p.lane) regs

/-- CLASS_L_RESULT_WRITE: a result that is there is written; a load's data is read first, and written then or later (R18,
R19). -/
def execClassLResultWrite (i : Nat) (s : State) : Out :=
  match s.pending.find? (·.sn == i) with
  | some p =>
    (match p.values with
     | some ws => .next (s.writeResult p ws)
     | none => .next s)
  | none =>
    match s.accesses.find? (·.sn == i) with
    | none => .next s
    | some a =>
      let load := match a.kind with | .load _ _ => a.classL | _ => false
      if !load || !s.performable a [] then .next s else
      match s.takeLoad a with
      | (none, s1) => .next s1
      | (some v, s1) =>
        let ws := loadValue a.dest v
        let p : Pending := ⟨a.sn, a.gang, a.lane, a.dest.base, some ws, none⟩
        let (n, s2) := s1.choose 2
        .next (if n = 0 then s2.writeResult p ws else { s2 with pending := s2.pending ++ [p] })

/-- A queue with the entries that an access reserved filled (R138). -/
def fillQueue (sn : Nat) (ws : List Word) (q : List QEntry) : List QEntry :=
  q.map fun e => match e with
    | .reserved n half => if n = sn then .filled (nth 0#32 ws half) else e
    | x => x

/-- QUEUE_ENTRY_ARRIVAL: an LDQ's data is read and fills its entries (R20, R138). -/
def execQueueEntryArrival (i : Nat) (s : State) : Out :=
  match s.accesses.find? (·.sn == i) with
  | none => .next s
  | some a =>
    match a.dest, a.kind with
    | .queue _ _, .load _ _ =>
      if !s.performable a [] then .next s else
      (match s.takeLoad a with
       | (none, s1) => .next s1
       | (some v, s1) =>
         .next (s1.onThread a.gang a.lane fun t => { t with queues := t.queues.map (fillQueue a.sn (loadValue a.dest v)) }))
    | _, _ => .next s

/-! ## Writing -/

/-- What a release narrower than the pod leaves behind when it is performed: the earlier stores of its thread that are not (R140). -/
def State.owe (s : State) (a : Access) : State :=
  match a.rel with
  | some (scope, n) =>
    if s.accesses.any fun b => b.of a.gang a.lane && decide (b.sn < n) && b.isStore then
      { s with owed := s.owed ++ [⟨a.gang, a.lane, n, scope, some (a.pa, a.size)⟩] }
    else s
  | none => s

/-- An access's bytes performed: by the device whose window they go to, else in memory (R139); the gang's later matrix words find them
(R194). -/
def State.performWrite (s : State) (a : Access) (bytes : List Byte) : State :=
  ((s.writeOut (some a.core) a.pa bytes).orderOlds a.gang a.sn a.pa bytes.length).owe a

/-- The poison of the units that a store word rewrote whole, once its last store to them is performed (R141). -/
def State.cureWhole (s : State) (a : Access) : State :=
  if !a.whole || s.poison.isEmpty then s else
  { s with poison := s.poison.filter fun d => match d with
    | .unit u =>
      !(overlaps a.pa a.size u (unitSize u)) ||
      s.accesses.any fun b => b.sn / 64 == a.sn / 64 && b.isStore && overlaps b.pa b.size u (unitSize u)
    | _ => true }

/-- STORE_PERFORM: a buffered store is performed at its point of coherence (R139 to R141). -/
def execStorePerform (i : Nat) (s : State) : Out :=
  match s.accesses.find? (·.sn == i) with
  | none => .next s
  | some a =>
    if !a.isStore || !s.performable a [] then .next s
    else .next (((s.dropAccess i).performWrite a (leBytes a.size a.data)).cureWhole a)

/-- A line that an atomic step bypasses leaves its core's L1 (R167). -/
def State.bypassL1 (s : State) (core pa : Nat) : State :=
  if isTensorKey pa then { s with l1 := s.l1.erase (s.lineKey core pa) } else s

/-- The old value of an atomic or CAS on its way to its thread. -/
def State.answerAtomic (s : State) (a : Access) (old : Nat) : State :=
  { s with pending := s.pending ++ answered a.sn a.gang a.lane a.dest old }

/-- A CAS word's first write of a slot advances its data generation (R190). -/
def State.countCas (s : State) (a : Access) : State :=
  let slot := a.va.toNat % 2 ^ 20 / 8192
  match a.kind with
  | .cas _ false =>
    if !isScratchKey a.pa then s else
    let s1 := s.bumpSlots a.team [slot]
    { s1 with accesses := s1.accesses.map fun b =>
        match b.kind with
        | .cas x false =>
          if b.sn / 64 = a.sn / 64 ∧ isScratchKey b.pa ∧ b.va.toNat % 2 ^ 20 / 8192 = slot then { b with kind := .cas x true } else b
        | _ => b }
  | _ => s

/-- The packets that travel with an access (R301). -/
def State.packetOf (s : State) (i : Nat) : List Nat := (s.accesses.filter fun b => b.into == some i).map (·.sn)

/-- ATOMIC_PERFORM: an atomic's operands are applied one after another, or a CAS compares and writes, in one step (R142,
R145, R302). -/
def execAtomicPerform (i : Nat) (s : State) : Out :=
  match s.accesses.find? (·.sn == i) with
  | none => .next s
  | some a =>
    if !a.isAtomic || !s.performable a (s.packetOf i) then .next s else
    let (bs, s) := s.murk none a.pa (s.mem.read a.pa a.size)
    let old := leNat bs
    let joined := s.accesses.filter fun b => b.into == some i
    let s1 := joined.foldl State.owe
      (({ s with accesses := s.accesses.filter fun b => b.sn != i && b.into != some i } : State).bypassL1 a.core a.pa)
    match a.kind with
    | .atom op => .next ((s1.performWrite a (leBytes a.size (op.applyAll old a.operands))).answerAtomic a old)
    | .cas expected _ =>
      if old = expected.toNat % 2 ^ (8 * a.size) then
        .next (((s1.performWrite a (leBytes a.size a.data)).countCas a).answerAtomic a old)
      else .next (s1.answerAtomic a old)
    | _ => .next s

/-! ## Merging (R301, R302) -/

/-- The F values that merge. -/
def AtomOp.merges (op : AtomOp) : Bool :=
  match op with
  | .sub => false | .xchg => false | .xchg64 => false | .fmin => false | .fmax => false
  | _ => true

/-- The operation keeps a list of operands, eight at most (R302). -/
def AtomOp.listed (op : AtomOp) : Bool := op == .fadd || op == .badd2

/-- An access's gang travels on the high channel for atomics (R300). -/
def State.highChannel (s : State) (g : Nat) : Bool := match s.gangs.find? g with | some G => decide (2 ≤ G.prio) | none => false

/-- ATOMN_MERGE: the packet of an ATOMN joins an older one that waits: the same address, operation, width and channel, on the
mesh; its operands follow the older's, and neither waits for anything but what travels with it (R301, R302, R133). -/
def execAtomnMerge (i j : Nat) (s : State) : Out :=
  match s.accesses.find? (·.sn == i), s.accesses.find? (·.sn == j) with
  | some a, some b =>
    (match a.kind, b.kind with
     | .atom op, .atom op' =>
       if i ≠ j ∧ op = op' ∧ op.merges ∧ a.dest = .none ∧ b.dest = .none ∧ a.pa = b.pa ∧ !isScratchKey a.pa ∧
          (isTensorKey a.pa ∨ dieOf a.gang = dieOf b.gang) ∧ s.highChannel a.gang = s.highChannel b.gang ∧
          (op.listed → a.operands.length + b.operands.length ≤ 8) ∧ s.performable a (s.packetOf i) ∧
          s.performable b (i :: j :: s.packetOf i ++ s.packetOf j) then
         .next { s with accesses := s.accesses.map fun x =>
           if x.sn = i then { x with operands := a.operands ++ b.operands }
           else if x.sn = j ∨ x.into = some j then { x with into := some i }
           else x }
       else .next s
     | _, _ => .next s)
  | _, _ => .next s

/-! ## SLD (R205) -/

/-- An SLD's bytes can be read: its thread's earlier accesses to them are done, its gang's matrix work that writes there too, and the
fences of its chain (R134, R148, R194). -/
def State.sldReady (s : State) (x : ScaleLoad) : Bool :=
  !(s.accesses.any fun a => a.of x.gang x.lane && decide (a.sn < x.sn) && overlaps a.pa a.size x.pa 512) &&
  !(isScratchKey x.pa && s.matOps.any fun o => o.gang == x.gang && decide (o.sn < x.sn) && o.writesScratch &&
    o.kind.keys.any fun k => sameSlot k x.pa) &&
  s.gateOpen x.gang x.lane x.gate && !s.lineHeld x.gang x.lane x.pa 512

/-- The eight-byte pieces of an SLD that are still to be read. -/
def ScaleLoad.left (x : ScaleLoad) : List Nat := (natsFrom 0 64).filter fun i => !(x.got.any fun e => e.1 == 8 * i)

/-- Pieces of an SLD read, each as one. -/
def State.readPieces (x : ScaleLoad) (s : State) (is : List Nat) : List (Nat × Byte) × State :=
  is.foldl (fun acc i =>
    let pa := x.pa + 8 * i
    let (line, s0) := if isTensorKey pa then acc.2.readL1 (coreOf x.gang) pa 8 else (acc.2.mem.read pa 8, acc.2)
    let (bs, s1) := s0.murk none pa line
    (acc.1 ++ mapNumbered (fun j b => (8 * i + j, b)) 0 bs, s1)) ([], s)

/-- SLD_SCALE_WRITE: SLD's data returns, all that is left of it or one piece, whichever comes, for the 512 bytes are no single copy; when
it is there it is written into its register as one write, once the core has one for it (R134, R188, R189, R205; log 7). -/
def execSldScaleWrite (i : Nat) (s : State) : Out :=
  match s.scaleLoads.find? (·.sn == i) with
  | none => .next s
  | some x =>
    if !s.sldReady x || !s.scaleRoom x.team (coreOf x.gang) x.sreg then .next s
    else
      let (n, s0) := s.choose (if x.left.length ≤ 1 then 1 else 1 + x.left.length)
      if n ≠ 0 then
        let (bs, s1) := State.readPieces x s0 [nth 0 x.left (n - 1)]
        .next { s1 with scaleLoads := s1.scaleLoads.map fun y => if y.sn = x.sn then { y with got := x.got ++ bs } else y }
      else
        let (bs, s1) := State.readPieces x { s0 with scaleLoads := s0.scaleLoads.filter (·.sn != i) } x.left
        let table := (x.got ++ bs).foldl (fun (m : SMap Byte) e => m.set 0#8 e.1 e.2) []
        .next ((s1.writeScale (clusterOf x.gang) x.team (coreOf x.gang) x.sreg true fun _ => table).getD s1)

end Sys2Proof.Machine
end

