-- ==== Sys2Proof/Machine/Dispatch.lean ====
section
/-! DEFINITION. What each instruction and each event does: one meaning for each constructor. -/

namespace Sys2Proof.Machine

open Sys2Proof

/-- The effect of an instruction or event. -/
def exec (i : Instr) (s : State) : Host.Outcome State Fault Refusal :=
  match i with
  | .nop f => Sys2Proof.Machine.execNop f s
  | .exit f => Sys2Proof.Machine.execExit f s
  | .trap f => Sys2Proof.Machine.execTrap f s
  | .brk f => Sys2Proof.Machine.execBrk f s
  | .eret f => Sys2Proof.Machine.execEret f s
  | .sread f => Sys2Proof.Machine.execSread f s
  | .swrite f => Sys2Proof.Machine.execSwrite f s
  | .yield f => Sys2Proof.Machine.execYield f s
  | .watch f => Sys2Proof.Machine.execWatch f s
  | .waitw f => Sys2Proof.Machine.execWaitw f s
  | .xacq f => Sys2Proof.Machine.execXacq f s
  | .xrel f => Sys2Proof.Machine.execXrel f s
  | .xtry f => Sys2Proof.Machine.execXtry f s
  | .add f => Sys2Proof.Machine.execAdd f s
  | .sub f => Sys2Proof.Machine.execSub f s
  | .mul f => Sys2Proof.Machine.execMul f s
  | .mulh f => Sys2Proof.Machine.execMulh f s
  | .mulhu f => Sys2Proof.Machine.execMulhu f s
  | .and f => Sys2Proof.Machine.execAnd f s
  | .or f => Sys2Proof.Machine.execOr f s
  | .xor f => Sys2Proof.Machine.execXor f s
  | .andn f => Sys2Proof.Machine.execAndn f s
  | .shl f => Sys2Proof.Machine.execShl f s
  | .shr f => Sys2Proof.Machine.execShr f s
  | .sra f => Sys2Proof.Machine.execSra f s
  | .rol f => Sys2Proof.Machine.execRol f s
  | .min f => Sys2Proof.Machine.execMin f s
  | .max f => Sys2Proof.Machine.execMax f s
  | .minu f => Sys2Proof.Machine.execMinu f s
  | .maxu f => Sys2Proof.Machine.execMaxu f s
  | .abs f => Sys2Proof.Machine.execAbs f s
  | .clz f => Sys2Proof.Machine.execClz f s
  | .popc f => Sys2Proof.Machine.execPopc f s
  | .brev f => Sys2Proof.Machine.execBrev f s
  | .sel f => Sys2Proof.Machine.execSel f s
  | .cmpeq f => Sys2Proof.Machine.execCmpeq f s
  | .cmpne f => Sys2Proof.Machine.execCmpne f s
  | .cmplt f => Sys2Proof.Machine.execCmplt f s
  | .cmple f => Sys2Proof.Machine.execCmple f s
  | .cmpltu f => Sys2Proof.Machine.execCmpltu f s
  | .cmpleu f => Sys2Proof.Machine.execCmpleu f s
  | .add64 f => Sys2Proof.Machine.execAdd64 f s
  | .sub64 f => Sys2Proof.Machine.execSub64 f s
  | .mul64 f => Sys2Proof.Machine.execMul64 f s
  | .mad f => Sys2Proof.Machine.execMad f s
  | .div f => Sys2Proof.Machine.execDiv f s
  | .divu f => Sys2Proof.Machine.execDivu f s
  | .rem f => Sys2Proof.Machine.execRem f s
  | .remu f => Sys2Proof.Machine.execRemu f s
  | .bfx f => Sys2Proof.Machine.execBfx f s
  | .bfxs f => Sys2Proof.Machine.execBfxs f s
  | .bfi f => Sys2Proof.Machine.execBfi f s
  | .shl64 f => Sys2Proof.Machine.execShl64 f s
  | .shr64 f => Sys2Proof.Machine.execShr64 f s
  | .sra64 f => Sys2Proof.Machine.execSra64 f s
  | .mulw f => Sys2Proof.Machine.execMulw f s
  | .mulwu f => Sys2Proof.Machine.execMulwu f s
  | .addi f => Sys2Proof.Machine.execAddi f s
  | .andi f => Sys2Proof.Machine.execAndi f s
  | .ori f => Sys2Proof.Machine.execOri f s
  | .xori f => Sys2Proof.Machine.execXori f s
  | .shli f => Sys2Proof.Machine.execShli f s
  | .shri f => Sys2Proof.Machine.execShri f s
  | .srai f => Sys2Proof.Machine.execSrai f s
  | .roli f => Sys2Proof.Machine.execRoli f s
  | .cmpiEq f => Sys2Proof.Machine.execCmpiEq f s
  | .cmpiNe f => Sys2Proof.Machine.execCmpiNe f s
  | .cmpiLt f => Sys2Proof.Machine.execCmpiLt f s
  | .cmpiLe f => Sys2Proof.Machine.execCmpiLe f s
  | .cmpiLtu f => Sys2Proof.Machine.execCmpiLtu f s
  | .cmpiLeu f => Sys2Proof.Machine.execCmpiLeu f s
  | .cmpiGt f => Sys2Proof.Machine.execCmpiGt f s
  | .cmpiGe f => Sys2Proof.Machine.execCmpiGe f s
  | .movl f => Sys2Proof.Machine.execMovl f s
  | .movh f => Sys2Proof.Machine.execMovh f s
  | .fadd f => Sys2Proof.Machine.execFadd f s
  | .fsub f => Sys2Proof.Machine.execFsub f s
  | .fmul f => Sys2Proof.Machine.execFmul f s
  | .ffma f => Sys2Proof.Machine.execFfma f s
  | .fmin f => Sys2Proof.Machine.execFmin f s
  | .fmax f => Sys2Proof.Machine.execFmax f s
  | .fcmpeq f => Sys2Proof.Machine.execFcmpeq f s
  | .fcmplt f => Sys2Proof.Machine.execFcmplt f s
  | .fcmple f => Sys2Proof.Machine.execFcmple f s
  | .fcmpun f => Sys2Proof.Machine.execFcmpun f s
  | .fabs f => Sys2Proof.Machine.execFabs f s
  | .fneg f => Sys2Proof.Machine.execFneg f s
  | .fcopysign f => Sys2Proof.Machine.execFcopysign f s
  | .ffms f => Sys2Proof.Machine.execFfms f s
  | .frnd f => Sys2Proof.Machine.execFrnd f s
  | .fsat f => Sys2Proof.Machine.execFsat f s
  | .hadd2 f => Sys2Proof.Machine.execHadd2 f s
  | .hsub2 f => Sys2Proof.Machine.execHsub2 f s
  | .hmul2 f => Sys2Proof.Machine.execHmul2 f s
  | .hfma2 f => Sys2Proof.Machine.execHfma2 f s
  | .hmin2 f => Sys2Proof.Machine.execHmin2 f s
  | .hmax2 f => Sys2Proof.Machine.execHmax2 f s
  | .hdot2 f => Sys2Proof.Machine.execHdot2 f s
  | .hcmplt2 f => Sys2Proof.Machine.execHcmplt2 f s
  | .dadd f => Sys2Proof.Machine.execDadd f s
  | .dsub f => Sys2Proof.Machine.execDsub f s
  | .dmul f => Sys2Proof.Machine.execDmul f s
  | .dfma f => Sys2Proof.Machine.execDfma f s
  | .dmin f => Sys2Proof.Machine.execDmin f s
  | .dmax f => Sys2Proof.Machine.execDmax f s
  | .dcmpeq f => Sys2Proof.Machine.execDcmpeq f s
  | .dcmplt f => Sys2Proof.Machine.execDcmplt f s
  | .dcmple f => Sys2Proof.Machine.execDcmple f s
  | .dabs f => Sys2Proof.Machine.execDabs f s
  | .dneg f => Sys2Proof.Machine.execDneg f s
  | .drnd f => Sys2Proof.Machine.execDrnd f s
  | .cvtfi f => Sys2Proof.Machine.execCvtfi f s
  | .cvtif f => Sys2Proof.Machine.execCvtif f s
  | .cvtfu f => Sys2Proof.Machine.execCvtfu f s
  | .cvtuf f => Sys2Proof.Machine.execCvtuf f s
  | .cvtfd f => Sys2Proof.Machine.execCvtfd f s
  | .cvtdf f => Sys2Proof.Machine.execCvtdf f s
  | .cvtdi f => Sys2Proof.Machine.execCvtdi f s
  | .cvtid f => Sys2Proof.Machine.execCvtid f s
  | .cvtfb f => Sys2Proof.Machine.execCvtfb f s
  | .cvtfh f => Sys2Proof.Machine.execCvtfh f s
  | .cvtbf f => Sys2Proof.Machine.execCvtbf f s
  | .cvthf f => Sys2Proof.Machine.execCvthf f s
  | .packe4 f => Sys2Proof.Machine.execPacke4 f s
  | .packe5 f => Sys2Proof.Machine.execPacke5 f s
  | .unpke4 f => Sys2Proof.Machine.execUnpke4 f s
  | .unpke5 f => Sys2Proof.Machine.execUnpke5 f s
  | .frcp f => Sys2Proof.Machine.execFrcp f s
  | .frsq f => Sys2Proof.Machine.execFrsq f s
  | .fsqrt f => Sys2Proof.Machine.execFsqrt f s
  | .fdiv f => Sys2Proof.Machine.execFdiv f s
  | .fexp2 f => Sys2Proof.Machine.execFexp2 f s
  | .flog2 f => Sys2Proof.Machine.execFlog2 f s
  | .fsin f => Sys2Proof.Machine.execFsin f s
  | .fcos f => Sys2Proof.Machine.execFcos f s
  | .ftanh f => Sys2Proof.Machine.execFtanh f s
  | .ddiv f => Sys2Proof.Machine.execDdiv f s
  | .dsqrt f => Sys2Proof.Machine.execDsqrt f s
  | .vexps f => Sys2Proof.Machine.execVexps f s
  | .vmaxe f => Sys2Proof.Machine.execVmaxe f s
  | .fsigm f => Sys2Proof.Machine.execFsigm f s
  | .beqz f => Sys2Proof.Machine.execBeqz f s
  | .bnez f => Sys2Proof.Machine.execBnez f s
  | .bltz f => Sys2Proof.Machine.execBltz f s
  | .bgez f => Sys2Proof.Machine.execBgez f s
  | .blez f => Sys2Proof.Machine.execBlez f s
  | .bgtz f => Sys2Proof.Machine.execBgtz f s
  | .bnez64 f => Sys2Proof.Machine.execBnez64 f s
  | .beqz64 f => Sys2Proof.Machine.execBeqz64 f s
  | .jmp f => Sys2Proof.Machine.execJmp f s
  | .jal f => Sys2Proof.Machine.execJal f s
  | .jr f => Sys2Proof.Machine.execJr f s
  | .jalr f => Sys2Proof.Machine.execJalr f s
  | .ld8 f => Sys2Proof.Machine.execLd8 f s
  | .ld8s f => Sys2Proof.Machine.execLd8s f s
  | .ld16 f => Sys2Proof.Machine.execLd16 f s
  | .ld16s f => Sys2Proof.Machine.execLd16s f s
  | .ld32 f => Sys2Proof.Machine.execLd32 f s
  | .ld64 f => Sys2Proof.Machine.execLd64 f s
  | .ld128 f => Sys2Proof.Machine.execLd128 f s
  | .lda32 f => Sys2Proof.Machine.execLda32 f s
  | .lda64 f => Sys2Proof.Machine.execLda64 f s
  | .ldq8 f => Sys2Proof.Machine.execLdq8 f s
  | .ldq8s f => Sys2Proof.Machine.execLdq8s f s
  | .ldq16 f => Sys2Proof.Machine.execLdq16 f s
  | .ldq16s f => Sys2Proof.Machine.execLdq16s f s
  | .ldq32 f => Sys2Proof.Machine.execLdq32 f s
  | .ldq64 f => Sys2Proof.Machine.execLdq64 f s
  | .st8 f => Sys2Proof.Machine.execSt8 f s
  | .st16 f => Sys2Proof.Machine.execSt16 f s
  | .st32 f => Sys2Proof.Machine.execSt32 f s
  | .st64 f => Sys2Proof.Machine.execSt64 f s
  | .st128 f => Sys2Proof.Machine.execSt128 f s
  | .stl32 f => Sys2Proof.Machine.execStl32 f s
  | .stl64 f => Sys2Proof.Machine.execStl64 f s
  | .atomAdd f => Sys2Proof.Machine.execAtomAdd f s
  | .atomSub f => Sys2Proof.Machine.execAtomSub f s
  | .atomAnd f => Sys2Proof.Machine.execAtomAnd f s
  | .atomOr f => Sys2Proof.Machine.execAtomOr f s
  | .atomXor f => Sys2Proof.Machine.execAtomXor f s
  | .atomMin f => Sys2Proof.Machine.execAtomMin f s
  | .atomMax f => Sys2Proof.Machine.execAtomMax f s
  | .atomMinu f => Sys2Proof.Machine.execAtomMinu f s
  | .atomMaxu f => Sys2Proof.Machine.execAtomMaxu f s
  | .atomXchg f => Sys2Proof.Machine.execAtomXchg f s
  | .atomFadd f => Sys2Proof.Machine.execAtomFadd f s
  | .atomFmin f => Sys2Proof.Machine.execAtomFmin f s
  | .atomFmax f => Sys2Proof.Machine.execAtomFmax f s
  | .atomAdd64 f => Sys2Proof.Machine.execAtomAdd64 f s
  | .atomXchg64 f => Sys2Proof.Machine.execAtomXchg64 f s
  | .atomBadd2 f => Sys2Proof.Machine.execAtomBadd2 f s
  | .atomnAdd f => Sys2Proof.Machine.execAtomnAdd f s
  | .atomnSub f => Sys2Proof.Machine.execAtomnSub f s
  | .atomnAnd f => Sys2Proof.Machine.execAtomnAnd f s
  | .atomnOr f => Sys2Proof.Machine.execAtomnOr f s
  | .atomnXor f => Sys2Proof.Machine.execAtomnXor f s
  | .atomnMin f => Sys2Proof.Machine.execAtomnMin f s
  | .atomnMax f => Sys2Proof.Machine.execAtomnMax f s
  | .atomnMinu f => Sys2Proof.Machine.execAtomnMinu f s
  | .atomnMaxu f => Sys2Proof.Machine.execAtomnMaxu f s
  | .atomnXchg f => Sys2Proof.Machine.execAtomnXchg f s
  | .atomnFadd f => Sys2Proof.Machine.execAtomnFadd f s
  | .atomnFmin f => Sys2Proof.Machine.execAtomnFmin f s
  | .atomnFmax f => Sys2Proof.Machine.execAtomnFmax f s
  | .atomnAdd64 f => Sys2Proof.Machine.execAtomnAdd64 f s
  | .atomnXchg64 f => Sys2Proof.Machine.execAtomnXchg64 f s
  | .atomnBadd2 f => Sys2Proof.Machine.execAtomnBadd2 f s
  | .cas32 f => Sys2Proof.Machine.execCas32 f s
  | .cas64 f => Sys2Proof.Machine.execCas64 f s
  | .fence f => Sys2Proof.Machine.execFence f s
  | .fenceAcq f => Sys2Proof.Machine.execFenceAcq f s
  | .fenceRel f => Sys2Proof.Machine.execFenceRel f s
  | .tfence f => Sys2Proof.Machine.execTfence f s
  | .efence f => Sys2Proof.Machine.execEfence f s
  | .fenceSp f => Sys2Proof.Machine.execFenceSp f s
  | .axb f => Sys2Proof.Machine.execAxb f s
  | .axe f => Sys2Proof.Machine.execAxe f s
  | .axa f => Sys2Proof.Machine.execAxa f s
  | .axs f => Sys2Proof.Machine.execAxs f s
  | .post f => Sys2Proof.Machine.execPost f s
  | .lxchPick f => Sys2Proof.Machine.execLxchPick f s
  | .lxchRot f => Sys2Proof.Machine.execLxchRot f s
  | .lxchStep f => Sys2Proof.Machine.execLxchStep f s
  | .lxchRefl f => Sys2Proof.Machine.execLxchRefl f s
  | .redadd f => Sys2Proof.Machine.execRedadd f s
  | .redmin f => Sys2Proof.Machine.execRedmin f s
  | .redmax f => Sys2Proof.Machine.execRedmax f s
  | .redminu f => Sys2Proof.Machine.execRedminu f s
  | .redmaxu f => Sys2Proof.Machine.execRedmaxu f s
  | .redand f => Sys2Proof.Machine.execRedand f s
  | .redor f => Sys2Proof.Machine.execRedor f s
  | .redxor f => Sys2Proof.Machine.execRedxor f s
  | .scanadd f => Sys2Proof.Machine.execScanadd f s
  | .scanaddx f => Sys2Proof.Machine.execScanaddx f s
  | .redfadd f => Sys2Proof.Machine.execRedfadd f s
  | .lany f => Sys2Proof.Machine.execLany f s
  | .lall f => Sys2Proof.Machine.execLall f s
  | .lmap f => Sys2Proof.Machine.execLmap f s
  | .lpeer f => Sys2Proof.Machine.execLpeer f s
  | .lfirst f => Sys2Proof.Machine.execLfirst f s
  | .lcount f => Sys2Proof.Machine.execLcount f s
  | .join f => Sys2Proof.Machine.execJoin f s
  | .leave f => Sys2Proof.Machine.execLeave f s
  | .waitm f => Sys2Proof.Machine.execWaitm f s
  | .mget f => Sys2Proof.Machine.execMget f s
  | .mset f => Sys2Proof.Machine.execMset f s
  | .mand f => Sys2Proof.Machine.execMand f s
  | .mor f => Sys2Proof.Machine.execMor f s
  | .mandn f => Sys2Proof.Machine.execMandn f s
  | .mclr f => Sys2Proof.Machine.execMclr f s
  | .tnew f => Sys2Proof.Machine.execTnew f s
  | .tfree f => Sys2Proof.Machine.execTfree f s
  | .tjoin f => Sys2Proof.Machine.execTjoin f s
  | .tleave f => Sys2Proof.Machine.execTleave f s
  | .tbar f => Sys2Proof.Machine.execTbar f s
  | .tarrive f => Sys2Proof.Machine.execTarrive f s
  | .twaitp f => Sys2Proof.Machine.execTwaitp f s
  | .mma f => Sys2Proof.Machine.execMma f s
  | .mmag f => Sys2Proof.Machine.execMmag f s
  | .aacq f => Sys2Proof.Machine.execAacq f s
  | .arel f => Sys2Proof.Machine.execArel f s
  | .azero f => Sys2Proof.Machine.execAzero f s
  | .amov f => Sys2Proof.Machine.execAmov f s
  | .amovin f => Sys2Proof.Machine.execAmovin f s
  | .ascale f => Sys2Proof.Machine.execAscale f s
  | .astore f => Sys2Proof.Machine.execAstore f s
  | .aload f => Sys2Proof.Machine.execAload f s
  | .sld f => Sys2Proof.Machine.execSld f s
  | .sst f => Sys2Proof.Machine.execSst f s
  | .sbind f => Sys2Proof.Machine.execSbind f s
  | .sunbind f => Sys2Proof.Machine.execSunbind f s
  | .sunbindReg f => Sys2Proof.Machine.execSunbindReg f s
  | .sadd f => Sys2Proof.Machine.execSadd f s
  | .smax f => Sys2Proof.Machine.execSmax f s
  | .scvtUe5m3 f => Sys2Proof.Machine.execScvtUe5m3 f s
  | .scvtE8m0 f => Sys2Proof.Machine.execScvtE8m0 f s
  | .smov f => Sys2Proof.Machine.execSmov f s
  | .sqry f => Sys2Proof.Machine.execSqry f s
  | .tcopy f => Sys2Proof.Machine.execTcopy f s
  | .tgather f => Sys2Proof.Machine.execTgather f s
  | .hnew f => Sys2Proof.Machine.execHnew f s
  | .hgive f => Sys2Proof.Machine.execHgive f s
  | .htake f => Sys2Proof.Machine.execHtake f s
  | .hqry f => Sys2Proof.Machine.execHqry f s
  | .hfree f => Sys2Proof.Machine.execHfree f s
  | .swinit f => Sys2Proof.Machine.execSwinit f s
  | .swwait f => Sys2Proof.Machine.execSwwait f s
  | .swadd f => Sys2Proof.Machine.execSwadd f s
  | .swgen f => Sys2Proof.Machine.execSwgen f s
  | .rlcgo f => Sys2Proof.Machine.execRlcgo f s
  | .pref f => Sys2Proof.Machine.execPref f s
  | .cpol f => Sys2Proof.Machine.execCpol f s
  | .prio f => Sys2Proof.Machine.execPrio f s
  | .hintRegionNop f => Sys2Proof.Machine.execHintRegionNop f s
  | .illegalWord w => Sys2Proof.Machine.execIllegalWord w s
  | .classLResultWrite x => Sys2Proof.Machine.execClassLResultWrite x s
  | .queueEntryArrival x => Sys2Proof.Machine.execQueueEntryArrival x s
  | .storePerform x => Sys2Proof.Machine.execStorePerform x s
  | .atomicPerform x => Sys2Proof.Machine.execAtomicPerform x s
  | .atomnMerge x j => Sys2Proof.Machine.execAtomnMerge x j s
  | .fairnessTimerExpiry g => Sys2Proof.Machine.execFairnessTimerExpiry g s
  | .spawnTimeout sp => Sys2Proof.Machine.execSpawnTimeout sp s
  | .xacqGrant g => Sys2Proof.Machine.execXacqGrant g s
  | .arithLogRecord x => Sys2Proof.Machine.execArithLogRecord x s
  | .arrayAccept core => Sys2Proof.Machine.execArrayAccept core s
  | .matrixComplete x => Sys2Proof.Machine.execMatrixComplete x s
  | .accOpComplete x => Sys2Proof.Machine.execAccOpComplete x s
  | .accTileGrant g => Sys2Proof.Machine.execAccTileGrant g s
  | .scaleRegGrant g => Sys2Proof.Machine.execScaleRegGrant g s
  | .sldScaleWrite x => Sys2Proof.Machine.execSldScaleWrite x s
  | .axbGrant g => Sys2Proof.Machine.execAxbGrant g s
  | .exclusiveAdmit => Sys2Proof.Machine.execExclusiveAdmit s
  | .commit core => Sys2Proof.Machine.execCommit core s
  | .commitLineTimeout core => Sys2Proof.Machine.execCommitLineTimeout core s
  | .faultRecordWrite die => Sys2Proof.Machine.execFaultRecordWrite die s
  | .resolveRetry ticket => Sys2Proof.Machine.execResolveRetry ticket s
  | .resolveDeliver ticket => Sys2Proof.Machine.execResolveDeliver ticket s
  | .resolveAbort ticket => Sys2Proof.Machine.execResolveAbort ticket s
  | .handlerEntry g lane => Sys2Proof.Machine.execHandlerEntry g lane s
  | .spawnEnd sp => Sys2Proof.Machine.execSpawnEnd sp s
  | .spawnCompletion sp => Sys2Proof.Machine.execSpawnCompletion sp s
  | .softError d double lasting => Sys2Proof.Machine.execSoftError d double lasting s
  | .hangSample core => Sys2Proof.Machine.execHangSample core s
  | .htakeHandover x => Sys2Proof.Machine.execHtakeHandover x s
  | .slotZeroing x => Sys2Proof.Machine.execSlotZeroing x s
  | .copyStart cl st => Sys2Proof.Machine.execCopyStart cl st s
  | .copyBlock cl st => Sys2Proof.Machine.execCopyBlock cl st s
  | .copyComplete cl st => Sys2Proof.Machine.execCopyComplete cl st s
  | .queuePostArrival x => Sys2Proof.Machine.execQueuePostArrival x s
  | .bundleStart q places => Sys2Proof.Machine.execBundleStart q places s
  | .bundleRetire x => Sys2Proof.Machine.execBundleRetire x s
  | .bindStart r => Sys2Proof.Machine.execBindStart r s
  | .bindResume r => Sys2Proof.Machine.execBindResume r s
  | .bindStopSave r => Sys2Proof.Machine.execBindStopSave r s
  | .contextImageWrite team => Sys2Proof.Machine.execContextImageWrite team s
  | .watchUpdate x value => Sys2Proof.Machine.execWatchUpdate x value s
  | .waitwTimeout g lane => Sys2Proof.Machine.execWaitwTimeout g lane s
  | .hbmError line uncorrectable lasting => Sys2Proof.Machine.execHbmError line uncorrectable lasting s
  | .patrolScrub stack => Sys2Proof.Machine.execPatrolScrub stack s
  | .rlcCommandStart die => Sys2Proof.Machine.execRlcCommandStart die s
  | .rlcPhaseComplete c => Sys2Proof.Machine.execRlcPhaseComplete c s
  | .rlcNormDone c => Sys2Proof.Machine.execRlcNormDone c s
  | .invalidationGo h => Sys2Proof.Machine.execInvalidationGo h s
  | .invalidationRequest base count asid => Sys2Proof.Machine.execInvalidationRequest base count asid s
  | .invalidationAck h pkg => Sys2Proof.Machine.execInvalidationAck h pkg s
  | .zeroingRequest x => Sys2Proof.Machine.execZeroingRequest x s
  | .zeroingComplete x => Sys2Proof.Machine.execZeroingComplete x s
  | .directoryRebuild pkg => Sys2Proof.Machine.execDirectoryRebuild pkg s
  | .hostPortStore h port record => Sys2Proof.Machine.execHostPortStore h port record s
  | .hostPortLoad h port => Sys2Proof.Machine.execHostPortLoad h port s
  | .unlock blk value => Sys2Proof.Machine.execUnlock blk value s
  | .registerWrite addr bytes => Sys2Proof.Machine.execRegisterWrite addr bytes s
  | .bringUp ok => Sys2Proof.Machine.execBringUp ok s
  | .powerFail => Sys2Proof.Machine.execPowerFail s
  | .thermalSample die temp => Sys2Proof.Machine.execThermalSample die temp s
  | .reset => Sys2Proof.Machine.execReset s
  | .fieldLogWrite => Sys2Proof.Machine.execFieldLogWrite s
  | .msg link bundle flit => Sys2Proof.Machine.execMsg link bundle flit s
  | .ack link bundle seq => Sys2Proof.Machine.execAck link bundle seq s
  | .nak link bundle seq => Sys2Proof.Machine.execNak link bundle seq s
  | .ackTimer link bundle => Sys2Proof.Machine.execAckTimer link bundle s
  | .credit link pairs => Sys2Proof.Machine.execCredit link pairs s
  | .csync link pairs => Sys2Proof.Machine.execCsync link pairs s
  | .csyncTimer link => Sys2Proof.Machine.execCsyncTimer link s
  | .data link bundle flit => Sys2Proof.Machine.execData link bundle flit s
  | .rdreq link bundle flit => Sys2Proof.Machine.execRdreq link bundle flit s
  | .ctrlcarry link bundle flit flits => Sys2Proof.Machine.execCtrlcarry link bundle flit flits s
  | .bundleRetrainDone link bundle ok => Sys2Proof.Machine.execBundleRetrainDone link bundle ok s
  | .linkRetrainTimer link => Sys2Proof.Machine.execLinkRetrainTimer link s
  | .linkState pkg board pod => Sys2Proof.Machine.execLinkState pkg board pod s
  | .e2eAck xfer result => Sys2Proof.Machine.execE2eAck xfer result s
  | .remoteAtomicArrival m => Sys2Proof.Machine.execRemoteAtomicArrival m s
  | .remoteAtomicResult xfer status old => Sys2Proof.Machine.execRemoteAtomicResult xfer status old s
  | .routeRetryTimer xfer => Sys2Proof.Machine.execRouteRetryTimer xfer s
  | .routeRetryExpiry xfer => Sys2Proof.Machine.execRouteRetryExpiry xfer s
  | .dedupExpiry => Sys2Proof.Machine.execDedupExpiry s
  | .heartbeat => Sys2Proof.Machine.execHeartbeat s
  | .heartbeatTimeout pkg => Sys2Proof.Machine.execHeartbeatTimeout pkg s
  | .suspect src pkg => Sys2Proof.Machine.execSuspect src pkg s
  | .confirm src pkg => Sys2Proof.Machine.execConfirm src pkg s
  | .soloLossTimer pkg => Sys2Proof.Machine.execSoloLossTimer pkg s
  | .isolationTimeout => Sys2Proof.Machine.execIsolationTimeout s
  | .peerLoss pkg => Sys2Proof.Machine.execPeerLoss pkg s
  | .commLoad k => Sys2Proof.Machine.execCommLoad k s
  | .commLoadFinish k => Sys2Proof.Machine.execCommLoadFinish k s
  | .commFree k => Sys2Proof.Machine.execCommFree k s
  | .commAbort k => Sys2Proof.Machine.execCommAbort k s
  | .runRequest x => Sys2Proof.Machine.execRunRequest x s
  | .runStart k => Sys2Proof.Machine.execRunStart k s
  | .chunkStart => Sys2Proof.Machine.execChunkStart s
  | .clear m => Sys2Proof.Machine.execClear m s
  | .chunkApply k op chunk => Sys2Proof.Machine.execChunkApply k op chunk s
  | .runfail k runseq status => Sys2Proof.Machine.execRunfail k runseq status s
  | .linkDownTimeout link => Sys2Proof.Machine.execLinkDownTimeout link s
  | .poweredHours bins => Sys2Proof.Machine.execPoweredHours bins s
  | .crossbarFlitError cluster core lasting engine => Sys2Proof.Machine.execCrossbarFlitError cluster core lasting engine s

end Sys2Proof.Machine
end

