-- ==== Sys2Proof/Machine/Due.lean ====
section
/-! DEFINITION. What a step may do: the events that what is outstanding makes due, the gangs that can issue, and how a word
of a packet is decoded and run. The order among them is free (R160, R367; log 7). -/

namespace Sys2Proof.Machine

open Sys2Proof

/-! ## What is due -/

/-- Due for the accesses and results of threads. -/
def State.accessDues (s : State) : List Due :=
  let free := s.accesses.filter (·.into.isNone)
  let atoms := free.filter fun a => a.isAtomic && a.dest == .none
  List.flatten [
    free.map fun a => if a.isStore then Due.store a.sn else if a.isAtomic then .atomic a.sn else match a.dest with
      | .queue _ _ => .queueEntry a.sn
      | _ => .result a.sn,
    atoms.flatMap fun a => (atoms.filter fun b => b.sn != a.sn && b.pa == a.pa).map fun b => Due.merge a.sn b.sn,
    (s.pending.filter (·.values.isSome)).map fun p => Due.result p.sn,
    s.posts.map fun p => if p.pa = s.runPort then Due.run p.sn else .post p.sn,
    s.scaleLoads.map fun x => Due.sld x.sn]

/-- Due for one gang. -/
def gangDues (g : Nat) (G : Gang) : List Due :=
  List.flatten [
    if G.fairFrom.isSome then [Due.fairness g] else [],
    match G.oldestLog with | some e => [Due.arith (g * 2 ^ 32 + e.sn % 2 ^ 32)] | none => [],
    if G.threads.any fun t => t.wait == some .scaleReg && t.grant.isNone then [Due.scaleReg g] else [],
    ((natsFrom 0 G.width).filter fun l => (G.thread l).trapDue && (G.thread l).live).map (Due.handler g),
    ((natsFrom 0 G.width).filter fun l => match (G.thread l).wait with
      | some (.watch _ _ limit) => limit != 0 && (G.thread l).grant.isNone
      | _ => false).map (Due.waitw g)]

/-- Due for the gangs' shared queues, the matrix arrays, regions and commits. -/
def State.coreDues (s : State) : List Due :=
  List.flatten [
    s.gangs.flatMap fun e => gangDues e.1 e.2,
    s.xacqQueue.map Due.xacq,
    s.aacqQueue.map fun e => Due.tile e.1,
    s.axbQueue.map Due.axb,
    if s.exclQueue.isEmpty && s.exclusive.isNone then [] else [Due.exclusive],
    s.commits.flatMap fun r => Due.commit r.core :: (if r.overdue s.clk then [Due.commitTimeout r.core] else []),
    ((s.matOps.filter (·.waiting)).map fun o => coreOf o.gang).eraseDups.map Due.array,
    (s.matOps.filter fun o => !o.waiting).map fun o => match o.kind with
      | .product _ _ _ _ _ _ _ _ _ _ => Due.matrix o.sn
      | _ => .accOp o.sn,
    (s.gangs.filter fun e => match e.2.candSince with | some c => decide (800000 ≤ (s.clk - c).toNat) | none => false).map
      fun e => Due.hang (coreOf e.1)]

/-- Due for a spawn. -/
def State.spawnDues (s : State) (sp : Nat) (p : Spawn) : List Due :=
  List.flatten [
    if p.ending.isSome && p.issuing then [Due.spawnEnd sp] else [],
    if s.spawnDone sp p then [Due.spawnDone sp] else [],
    if p.record.limit ≠ 0 ∧ 800 * p.record.limit ≤ (s.clk - p.start).toNat ∧ p.ending.isNone then [Due.timeout sp] else []]

/-- Due for a stream of a copy engine. -/
def State.streamDues (s : State) (cl st : Nat) : List Due :=
  match s.streamHead cl st with
  | none => []
  | some c =>
    if c.ending.isSome then [.copyDone cl st]
    else if !c.started then [.copyStart cl st]
    else if c.more then [.copyBlock cl st]
    else [.copyDone cl st]

/-- Due for spawns, records, the launch path and refinement commands. -/
def State.dieDues (s : State) : List Due :=
  List.flatten [
    (s.faults.map (·.die)).eraseDups.map Due.faultRecord,
    s.spawns.flatMap fun e => s.spawnDues e.1 e.2,
    (natsFrom 0 s.sync.handovers.length).map Due.handover,
    (natsFrom 0 s.sync.returned.length).map Due.zeroSlot,
    (s.copies.map fun c => (c.cluster, c.stream)).eraseDups.flatMap fun e => s.streamDues e.1 e.2,
    (s.front.bundles.filter fun e => e.2.members.all (·.isSome)).map fun e => Due.bundle e.1,
    s.front.saves.map fun v => Due.image v.team,
    (natsFrom 0 s.watches.length).filterMap fun i =>
      match nth none (s.watches.map some) i with
      | some w => if w.late then some (Due.watch i (BitVec.ofNat 32 (s.mem.num w.pa 4))) else none
      | none => none,
    ((s.commands.filter (·.stage == .waiting)).map (·.die)).eraseDups.map Due.rlcStart,
    s.commands.flatMap fun c => match c.stage with
      | .next _ => [Due.rlcPhase c.sn]
      | .ended _ _ => [Due.rlcPhase c.sn]
      | .norm _ => [Due.rlcNorm c.sn]
      | .leaving _ => [Due.rlcPhase c.sn]
      | _ => []]

/-- Due for translation. -/
def State.memoryDues (s : State) : List Due :=
  List.flatten [
    s.invals.map fun x => Due.inval x.base x.count x.asid,
    (natsFrom 0 s.zeroing.length).flatMap fun i => [Due.zeroReq i, Due.zeroDone i],
    s.rebuilding.map Due.rebuild]

/-- Due for one link. -/
def State.oneLinkDues (s : State) (l : Nat) (x : LinkSt) : List Due :=
  List.flatten [
    if s.linkUp l ∧ 80000 ≤ (s.clk - x.heard).toNat then [Due.linkDown l] else [],
    if s.silent (s.peerOf l) then [Due.silence (s.peerOf l)] else [],
    if !s.linkUp l ∧ 8000000 ≤ (s.clk - x.trainedAt).toNat then [Due.retrain l] else [],
    if 8000 ≤ (s.clk - x.csyncAt).toNat then [Due.csyncTimer l] else []]

/-- Due for the links, once any has been trained. -/
def State.linkDues (s : State) : List Due :=
  if s.fabric.links.isEmpty then [] else
  List.flatten [
    if 80000 ≤ (s.clk - s.fabric.beatAt).toNat then [Due.beat] else [],
    s.fabric.links.flatMap fun e => s.oneLinkDues e.1 e.2,
    (s.fabric.bundles.filter fun e => e.2.up && e.2.acked != (e.2.rx + 0xFFFF) % 2 ^ 16).map fun e =>
      Due.ackTimer (e.1 / 16) (e.1 % 16),
    s.fabric.suspects.map fun x => Due.solo x.pkg,
    if s.liveLinks.isEmpty ∧ 800000 ≤ (s.clk - s.fabric.alone.getD 0).toNat then [Due.isolation] else []]

/-- Due for transfers and the collective engine. -/
def State.fabricDues (s : State) : List Due :=
  List.flatten [
    s.transfers.flatMap fun t => match t.noRoute with
      | some since =>
        (if 8000 ≤ (s.clk - since).toNat then [Due.retry t.xfer] else []) ++
        (if 800000 ≤ (s.clk - since).toNat then [Due.expiry t.xfer] else [])
      | none => [],
    if s.fabric.dedup.any fun d => decide (1600000 ≤ (s.clk - d.at_).toNat) then [Due.dedup] else [],
    s.linkDues,
    ((natsFrom 0 16).filter fun k => s.commState k == 1).map Due.load,
    (s.runs.map (·.k)).eraseDups.flatMap fun k =>
      if (s.currentRun k).all (·.doom.isSome) then [Due.runStart k] else [],
    if s.nextRun.isSome then [Due.chunk] else [],
    s.runs.flatMap fun r => (r.buffers.filter (·.whole)).map fun b => Due.apply r.k b.op b.chunk]

/-- What may happen now beside the issue of a gang. -/
def State.dues (s : State) : List Due :=
  List.flatten [s.accessDues, s.coreDues, s.dieDues, s.memoryDues, s.fabricDues]

/-! ## Which gang issues (R160 to R162, R371) -/

/-- The gang's cycle, or that of its lone M-pipe word, would do something. -/
def State.wouldIssue (s : State) (run : WordRun) (alone : Bool) (g : Nat) : Bool :=
  match Sys2Proof.Machine.cycle run g alone s with
  | .next (_, did) => did
  | _ => true

/-- The gangs whose cycle would do something. -/
def State.candidates (s : State) (run : WordRun) : List Nat := (s.gangs.map (·.1)).filter (s.wouldIssue run false)

/-- Half of the issue cycles of a die that is too hot are gated: those of every other clk (R371). -/
def State.gatedNow (s : State) (g : Nat) : Bool := s.care.gated.contains (dieOf g) && s.clk.getLsbD 0

/-- The gangs among which the choice is free, each with whether its next word issues alone: in each partition the first of R160, and of
the others the first of those whose next word is an M-pipe word that is not chained (R162); none on a die whose issue is gated in this
clk. -/
def State.turns (s : State) (run : WordRun) (cands : List Nat) : List (Nat × Bool) :=
  let open_ := cands.filter fun g => !s.gatedNow g
  (open_.map partKey).eraseDups.flatMap fun p =>
    match s.firstOf (open_.filter fun g => partKey g == p) with
    | none => []
    | some first =>
      let alone := open_.filter fun g => partKey g == p && g != first &&
        (match s.gangs.find? g with | some G => s.aloneM g G && s.wouldIssue run true g | none => false)
      (first, false) :: ((s.firstOf alone).toList.map fun g => (g, true))

/-- Since when each gang has been a candidate (R160). -/
def State.markCandidates (s : State) (cands : List Nat) : State :=
  { s with gangs := s.gangs.mapVals fun g G =>
      { G with candSince := if cands.contains g then (match G.candSince with | some c => some c | none => some s.clk) else none } }

/-- The state after a gang has issued: the last selected of its partition, unless its word issued beside the selected gang's; and its
core's issue counter (R160, R162, R245). -/
def State.issued (s : State) (g : Nat) (alone : Bool) : State :=
  { s with
    lastGang := if alone then s.lastGang else s.lastGang.set 0 (partKey g) (g % 64)
    health := { s.health with lastIssue := s.health.lastIssue.set 0 (coreOf g) s.clk } }

/-! ## Progress (R30, R139, R160) -/

/-- The events that are due, those that have waited longest first. -/
def State.waitingDues (s : State) (ds : List Due) : List Due :=
  let old := s.dueQueue.filter ds.contains
  old ++ ds.filter fun d => !old.contains d

/-- In a gang's turn of the clk the choice is not free, so that what is due happens and every gang that can issue does so within a bounded
time: in every other stretch of 4,096 clk one clk of four is the longest waiting event's, and one the longest waiting gang's (R30;
log 93). -/
def State.forced (s : State) (ds : List Due) (gs : List (Nat × Bool)) : Option (Sum Due (Nat × Bool)) :=
  if !s.clk.getLsbD 12 then none
  else match (s.clk.toNat % 4) with
    | 0 => (s.waitingDues ds).head?.map Sum.inl
    | 1 =>
      let since := fun (e : Nat × Bool) => match (s.gangs.find? e.1).bind (·.candSince) with | some c => c.toNat | none => s.clk.toNat
      (sortBy since gs).head?.map Sum.inr
    | _ => none

/-! ## The end of a step -/

/-- What stands between two steps is settled, what has a route is sent, and a clk passes (log 1). -/
def State.finish (s : State) : State :=
  let s1 := s.flush.settle
  { s1 with clk := s1.clk + 1 }

/-- An outcome with its state finished. -/
def finished (o : Out) : Out := match o with | .next s => .next s.finish | r => r

/-! ## Placing an instruction to run -/

/-- A record of one thread in a gang of width 16, in code at address 0 (Table 16.4). -/
def soloRecord : Record :=
  { code := 0, entry := 0, threads := 1, width := 0, flags := 0, fair := 0, team := 0, slots := 0, acc := 0, prio := 0
    rung := 0, limit := 0, arg := 0, affinity := 0, cpl := 0, link := 0 }

/-- Memory with a context's entry at the start of a home region, tables that map the first 64 KiB of control space to the
second 64 KiB of the region with every permission, and a packet there: a word, and NOPs (R39, R345 to R347, Table 16.2). -/
def Memory.placed (m : Memory) (home w : Nat) : Memory :=
  let put := fun (m : Memory) off v => m.write (home + off) (leBytes 8 v)
  let m1 := put (put (put (put (put m 0 (home + 0x2000)) 0x2000 (home + 0x4001)) 0x4000 (home + 0x5001)) 0x5000 (home + 0x6001))
    0x6000 (home + 0x1001F)
  (m1.write (home + 0x10000) (leBytes 12 (w % 2 ^ 32))).write (home + 0x1A) [0, 0]

/-- The state in which one thread is about to run a word, with nothing else outstanding (log 6). -/
def State.placeWord (s : State) (w : Nat) : State :=
  ({ s with
    mem := Memory.placed s.mem s.home w
    poison := [], gangs := [(0, startGang soloRecord 0 0 0 0)], teams := [], handles := []
    sync := ⟨s.sync.staleDrops, s.sync.redirects, [], []⟩
    front := { s.front with bundles := [], images := [], saves := [] }
    spawns := [(0, newSpawn 1 soloRecord 0 s.clk 0 none none 1 [])]
    accesses := [], pending := [], posts := [], matOps := [], scaleLoads := [], aacqQueue := [], tlb := ⟨[], []⟩, zeroing := []
    watches := [], xacqQueue := [], axbQueue := [], exclQueue := [], exclusive := none, commits := [], owed := [], copies := []
    commands := [], transfers := [], runs := [], faults := [], invals := [], invalWait := []
    care := { s.care with done := 6, dark := false, failed := false, gated := [] }
    fabric := { s.fabric with links := [], dedup := [], waiting := [], halves := [], owners := [], entries := [] }
    ctxBase := s.home, rebuilding := [], ctx := none, inputs := [], dueQueue := [], rewritten := [] } : State).ownTeam 0

/-- The row RESET. -/
def isReset (i : Instr) : Bool := match i with | .reset => true | _ => false

/-! ## Words and events -/

noncomputable section

/-- The instruction of a word: the one it decodes to, else the illegal word (R54). -/
def instrOf (w : Word) : Instr := match decode w with | .ok i => i | .error _ => .illegalWord w

/-- How a word of a packet takes effect: it is decoded and executed. -/
def runWord (w : Word) (s : State) : Out := exec (instrOf w) s

/-- The row of the opcode table that an event is. -/
def Due.instr : Due → Instr
  | .result i => .classLResultWrite i
  | .queueEntry i => .queueEntryArrival i
  | .store i => .storePerform i
  | .atomic i => .atomicPerform i
  | .merge i j => .atomnMerge i j
  | .fairness g => .fairnessTimerExpiry g
  | .timeout sp => .spawnTimeout sp
  | .xacq g => .xacqGrant g
  | .arith i => .arithLogRecord i
  | .array core => .arrayAccept core
  | .matrix i => .matrixComplete i
  | .accOp i => .accOpComplete i
  | .tile g => .accTileGrant g
  | .scaleReg g => .scaleRegGrant g
  | .sld i => .sldScaleWrite i
  | .axb g => .axbGrant g
  | .exclusive => .exclusiveAdmit
  | .commit core => .commit core
  | .commitTimeout core => .commitLineTimeout core
  | .faultRecord die => .faultRecordWrite die
  | .handler g l => .handlerEntry g l
  | .spawnEnd sp => .spawnEnd sp
  | .spawnDone sp => .spawnCompletion sp
  | .hang core => .hangSample core
  | .handover i => .htakeHandover i
  | .zeroSlot i => .slotZeroing i
  | .copyStart cl st => .copyStart cl st
  | .copyBlock cl st => .copyBlock cl st
  | .copyDone cl st => .copyComplete cl st
  | .post i => .queuePostArrival i
  | .run i => .runRequest i
  | .bundle i => .bundleRetire i
  | .image team => .contextImageWrite team
  | .watch i v => .watchUpdate i v
  | .waitw g l => .waitwTimeout g l
  | .rlcStart die => .rlcCommandStart die
  | .rlcPhase i => .rlcPhaseComplete i
  | .rlcNorm i => .rlcNormDone i
  | .inval base count asid => .invalidationRequest base (BitVec.ofNat 32 count) (BitVec.ofNat 16 asid)
  | .zeroReq i => .zeroingRequest i
  | .zeroDone i => .zeroingComplete i
  | .rebuild p => .directoryRebuild p
  | .retry x => .routeRetryTimer x
  | .expiry x => .routeRetryExpiry x
  | .dedup => .dedupExpiry
  | .beat => .heartbeat
  | .silence p => .heartbeatTimeout p
  | .linkDown l => .linkDownTimeout l
  | .solo p => .soloLossTimer p
  | .isolation => .isolationTimeout
  | .retrain l => .linkRetrainTimer l
  | .ackTimer l k => .ackTimer l k
  | .csyncTimer l => .csyncTimer l
  | .load k => .commLoadFinish k
  | .runStart k => .runStart k
  | .chunk => .chunkStart
  | .apply k op c => .chunkApply k op c

/-- A gang's issue cycle as a step; a word that issues beside the selected gang's leaves its gang's time as a candidate as it is. -/
def State.issue (s : State) (g : Nat) (alone : Bool) : Out :=
  match Sys2Proof.Machine.cycle runWord g alone s with
  | .next (s1, _) =>
    let since := if alone then (s.gangs.find? g).bind (·.candSince) else none
    .next ((s1.onGang g fun G => { G with candSince := since }).issued g alone)
  | .fault f => .fault f
  | .refused r => .refused r

/-- An event that is due happens. -/
def State.serve (s : State) (d : Due) : Out := exec d.instr { s with dueQueue := s.dueQueue.filter (· != d) }

/-- A step of a package that is up: one of the events that are due or of the gangs that can issue; with neither, a clk
passes. -/
def State.advance (s : State) : Out :=
  let ds := s.dues
  let cands := s.candidates runWord
  let gs := s.turns runWord cands
  let s1 := { s.markCandidates cands with dueQueue := s.waitingDues ds }
  match s.forced ds gs with
  | some (.inl d) => s1.serve d
  | some (.inr e) => s1.issue e.1 e.2
  | none =>
    let (n, s2) := s1.choose (ds.length + gs.length)
    match nth none (ds.map some) n with
    | some d => s2.serve d
    | none =>
      match nth none (gs.map some) (n - ds.length) with
      | some e => s2.issue e.1 e.2
      | none => .next s2

/-- The next step: what comes from outside goes first; a package without power does nothing but take a reset; bring-up goes
on to its end; then the package advances (R370, R372). -/
def State.stepOnce (s : State) : Out :=
  match s.inputs with
  | i :: rest =>
    if s.care.dark && !isReset i then .fault .packageDark else exec i { s with inputs := rest }
  | [] =>
    if s.care.dark then .fault .packageDark
    else if s.care.failed then .next s
    else if s.care.done < 6 then
      let (n, s1) := s.choose 2
      exec (.bringUp (n == 0)) s1
    else s.advance

end

end Sys2Proof.Machine
end

