-- ==== Sys2Proof/Machine/Step.lean ====
section
/-! DEFINITION. One step of the machine, and how an instruction is placed to run next. -/

namespace Sys2Proof.Machine

open Sys2Proof

noncomputable section

/-- One step: something happens, what it leaves is settled, and a clk passes. -/
def step (s : State) : Host.Outcome State Fault Refusal := finished s.stepOnce

/-- The state in which the next step runs an instruction: bring-up is done; one spawn of one thread runs in context 0, whose
tables map the first 64 KiB of control space; its first packet holds the instruction in word 0 and NOPs; nothing else is
outstanding (log 6). -/
def State.withFetchWord (s : State) (nbits w : Nat) : State := s.placeWord (w % 2 ^ nbits)

end

end Sys2Proof.Machine
end

