-- ==== Sys2Proof/Safety.lean ====
section
/-! DEFINITION. What counts as a safe run, and the terms in which claims speak of a word that is executing: the places where it
runs, the operands it can read, what it leaves alone. -/

namespace Sys2Proof

open Sys2Proof.Machine

/-- n steps from a state, one after the other, lead to a state. -/
inductive Runs : Nat → State → State → Prop where
  | done (s : State) : Runs 0 s s
  | more {n : Nat} {s t u : State} : step s = .next t → Runs n t u → Runs (n + 1) s u

/-- The first n steps from a state neither fault nor are refused. -/
def SafeFor (n : Nat) (s : State) : Prop := ∃ t, Runs n s t

/-- A property that every step keeps. -/
def Kept (P : State → Prop) : Prop := ∀ s t, P s → step s = .next t → P t

/-- What every step keeps (log 3): memory's canonical form, and the gangs' table in the rising order of its keys, so that a gang
slot holds one gang. -/
structure Sound (s : State) : Prop where
  mem : Memory.wf s.mem = true
  gangs : SMap.risesFrom 0 s.gangs = true

/-- A word is executing in the lanes of a context of a gang (R22, R25): no earlier word of the chain has ended or trapped one
of them. -/
structure Issuing (s : State) (c : IssueCtx) (G : Gang) : Prop where
  sound : Sound s
  ctx : s.ctx = some c
  gang : s.gangs.find? c.gang = some G
  some : c.lanes ≠ 0#64
  lanes : ∀ l, inLanes c.lanes l = true → l < G.threads.length
  going : ∀ l, inLanes c.lanes l = true → (G.thread l).exiting = false ∧ (G.thread l).swTrap = none

/-- None of the word's lanes is in an atomic region. -/
def Outside (c : IssueCtx) (G : Gang) : Prop := ∀ l, inLanes c.lanes l = true → (G.thread l).region = none

/-- A word that reads these fields may issue where its lanes stand: in a region no word pops a queue (R213). -/
def Permitted (c : IssueCtx) (G : Gang) (fields : List Nat) : Prop := Outside c G ∨ ∀ e ∈ fields, e < 60

/-- The gang as the word reads it: as it stood before the chain, where the word is chained (R22). -/
def viewOf (c : IssueCtx) (G : Gang) : Gang := c.pre.getD G

/-- The registers a word names are in the gang's block (R13), and those it reads hold no uncorrectable error (R243). -/
structure Readable (s : State) (c : IssueCtx) (G : Gang) (reads writes : List Nat) : Prop where
  block : (viewOf c G).xblk = true ∨ ∀ r ∈ reads ++ writes, r < 32
  clean : ∀ l, inLanes c.lanes l = true → ∀ r ∈ reads, s.regPoisoned c.gang l r = false

/-- Every lane's queues hold, filled, the entries that the single-register fields of a word pop (R20): field 60 + q pops
queue q. -/
def Fed (c : IssueCtx) (G : Gang) (fields : List Nat) : Prop :=
  ∀ l, inLanes c.lanes l = true → ∀ q < 4, fields.count (60 + q) ≤ filledCount (nth [] (G.thread l).queues q)

/-- The poisoned data that are left once registers have been written in a set of lanes (R243). -/
def cured (s : State) (c : IssueCtx) (regs : List Nat) : List Datum :=
  s.poison.filter fun d => match d with
    | .reg g l r => !(g == c.gang && inLanes c.lanes l && regs.contains r)
    | _ => true

/-- The queues once fields have been read in their order: a queue name pops its head entry (R20). -/
def popped (fields : List Nat) (qs : List (List QEntry)) : List (List QEntry) :=
  fields.foldl (fun qs e => if 60 ≤ e then setNth qs (e - 60) ((nth [] qs (e - 60)).drop 1) else qs) qs

/-- The latch after a word: every entry loses one unit of life; a value that the word pushes has a life of the two words that
follow the chain, and the three youngest entries stay (R16, R17). -/
def latchAfter (rest : Nat) (push : Option Word) (latch : List (Word × Nat)) : List (Word × Nat) :=
  match push with
  | none => latch.map fun e => (e.1, e.2 - 1)
  | some v => ((v, 2 + rest) :: latch.map fun e => (e.1, e.2 - 1)).take 3

/-- What H pushes: nothing, the value read for A, for B, or the result (R16). -/
def pushOf (h : BitVec 2) (a b r : Word) : Option Word :=
  if h = 0#2 then none else some (if h = 1#2 then a else if h = 2#2 then b else r)

/-- A queue stall that has ended (R20). -/
def stallEnded : Option Wait → Option Wait
  | some (.queue _) => none
  | w => w

/-- The wait of a lane that has completed a word that reads these fields: one that popped a queue stalls no longer (R20). -/
def waitAfter (fields : List Nat) (w : Option Wait) : Option Wait := if fields.any (60 ≤ ·) then stallEnded w else w

/-- Where a thread stands once a word is done (R23, R39): after the last word of its chain at the jump it has taken, or else at
the next word, or the next packet after word 2; before that where it stood, with the jump kept. -/
def standing (c : IssueCtx) (jump : Option (Word × Nat)) (old : Thread) : Word × Nat × Option (Word × Nat) :=
  if c.rest = 0 then
    match jump with
    | some p => (p.1, p.2, none)
    | none => if 2 ≤ c.pos then (c.pc + 1#32, 0, none) else (c.pc, c.pos + 1, none)
  else (old.pc, old.pos, jump)

/-- A thread that has completed a word: beside its registers, of which a claim speaks apart, it stands further on, its latch has
aged and taken the word's push, the queues that the word read are popped, a queue stall has ended; its park bit (R19) and its
region's own records (R217, R220) may have changed; everything else is as it was. -/
def Onward (c : IssueCtx) (fields : List Nat) (push : Option Word) (jump : Option (Word × Nat)) (old new : Thread) : Prop :=
  new = { old with
    pc := (standing c jump old).1, pos := (standing c jump old).2.1, jump := (standing c jump old).2.2
    latch := latchAfter c.rest push old.latch, queues := popped fields old.queues, wait := waitAfter fields old.wait
    park := new.park, region := new.region, regs := new.regs } ∧
  new.region.isSome = old.region.isSome

/-- A thread whose blocking word, which reads these fields, has its answer: it no longer waits there; what its words were answered stays
until its chain is done (R22). -/
def resumed (c : IssueCtx) (fields : List Nat) (t : Thread) (held : List (Nat × DWord)) : Thread :=
  let u := { t with wait := waitAfter fields t.wait }
  if u.wait.isSome ∧ u.waitPos = c.pos then { u with wait := none, grant := none, held := held } else u

/-- The answer that the executing word of a lane has had already, if it has (R18, R22). -/
def answerOf (c : IssueCtx) (G : Gang) (l : Nat) : Option DWord := (G.thread l).answer c.pos

/-- No lane of the word waits, or has been granted or answered anything for it. -/
def Idle (c : IssueCtx) (G : Gang) : Prop :=
  ∀ l, inLanes c.lanes l = true → (G.thread l).wait = none ∧ (G.thread l).grant = none ∧ ∀ e ∈ (G.thread l).held, e.1 ≠ c.pos

/-- Every lane in a region has room for one more constraint (R213): 8 in a lane, 256 in a gang. -/
def Roomy (c : IssueCtx) (G : Gang) : Prop :=
  Outside c G ∨
  ((∀ l, inLanes c.lanes l = true → ∀ r, (G.thread l).region = some r → r.constraints.length < 8) ∧
    ((List.range 64).map fun l => match (G.thread l).region with | some r => r.constraints.length | none => 0).sum +
      (laneList c.lanes).length ≤ 256)

/-- The lanes of a set that are to trap for a logged cause: outside handlers, with TRAPERR set in the FPC that the word reads (R37, R84,
R111, R239). -/
def toTrap (c : IssueCtx) (G : Gang) (lanes : DWord) : DWord :=
  laneSet ((laneList lanes).filter fun l =>
    bitsOf ((viewOf c G).thread l).fpc.toNat 5 1 == 1 && !((viewOf c G).thread l).handler)

/-- The records of the arithmetic causes that a word logs (R80): one for each cause, in code order, with the lanes that raised
it. -/
def logItems (c : IssueCtx) (G : Gang) (sn : Nat) (causes : Nat → List Nat) : List LogItem :=
  mapNumbered (fun i (e : Nat × DWord) => ⟨sn + i, e.1, e.2, c.pc, false, toTrap c G e.2, 0⟩) 0
    ((([0x20, 0x21, 0x22, 0x23, 0x24] : List Nat).map fun code =>
      (code, laneSet ((laneList c.lanes).filter fun l => (causes l).contains code))).filter fun e => e.2 != 0#64)

/-- A word has completed in the lanes of its context: of the whole state only its gang's lanes have changed, each as a relation
says, beside the poison of the registers it wrote, the results it left outstanding and the causes it logged. A word that acts
on its gang changes it as chg says; a blocking word leaves its context with no lane blocked. -/
structure Completed (s t : State) (c : IssueCtx) (G : Gang) (writes : List Nat) (pend : List Pending)
    (causes : Nat → List Nat) (lane : Nat → Thread → Thread → Prop) (chg : Gang → Gang := id)
    (ctx : Option IssueCtx := s.ctx) : Prop where
  state : t = { s with
    gangs := t.gangs, poison := cured s c writes, pending := s.pending ++ pend, ctx := ctx,
    sn := s.sn + (if pend.isEmpty then 0 else 1) + (logItems c G 0 causes).length }
  others : ∀ g, g ≠ c.gang → t.gangs.find? g = s.gangs.find? g
  gang : ∃ G', t.gangs.find? c.gang = some G' ∧
    G' = { chg G with
      threads := G'.threads
      logs := G.logs ++ logItems c G (s.sn + if pend.isEmpty then 0 else 1) causes }
  outside : ∀ l, inLanes c.lanes l = false → t.thread c.gang l = G.thread l
  inside : ∀ l, inLanes c.lanes l = true → lane l (G.thread l) (t.thread c.gang l)

/-- No arithmetic cause. -/
def noCauses (_ : Nat) : List Nat := []

/-- The registers of a lane after a word that writes one register: v0 and the names from 56 on discard (R45). -/
def WroteReg (old new : Thread) (d : Nat) (v : Word) : Prop :=
  ∀ r, new.regs.get 0 r = if r = d ∧ d ≠ 0 ∧ d < 56 then v else old.regs.get 0 r

/-- The registers of a lane after a word that writes a pair: the even register the low word, v0 discarding (R46). -/
def WrotePair (old new : Thread) (d : Nat) (v : DWord) : Prop :=
  ∀ r, new.regs.get 0 r =
    if d < 56 ∧ r = d / 2 * 2 ∧ r ≠ 0 then loOf v else if d < 56 ∧ r = d / 2 * 2 + 1 then hiOf v else old.regs.get 0 r

/-- The value of a single-register field (R45, R20): a name from 60 on is the filled entry at a queue's head, which was the
second entry where the field read before it popped the same queue. -/
def operand (c : IssueCtx) (G : Gang) (l : Nat) (before : List Nat) (e : Nat) : Word :=
  if 60 ≤ e then
    match (nth [] (G.thread l).queues (e - 60)).drop (before.count e) with
    | .filled v :: _ => v
    | _ => 0
  else ((viewOf c G).thread l).src e
/-- The value of a register that a word reads in D (R45): D never pops. -/
def operandD (c : IssueCtx) (G : Gang) (l e : Nat) : Word := ((viewOf c G).thread l).src e
/-- The value of a pair (R46): the even register is the low word; names from 56 on read as zero. -/
def operandPair (c : IssueCtx) (G : Gang) (l e : Nat) : DWord :=
  if 56 ≤ e then 0
  else pairOf (((viewOf c G).thread l).src (e / 2 * 2)) (((viewOf c G).thread l).src (e / 2 * 2 + 1))

/-- A word that reads these single-register fields, these registers, and writes these registers can run. -/
structure Ready (s : State) (c : IssueCtx) (G : Gang) (fields reads writes : List Nat) : Prop where
  issuing : Issuing s c G
  readable : Readable s c G reads writes
  fed : Fed c G fields
  permitted : Permitted c G fields

/-- A word has written one register of each of its lanes, or nothing where D discards (R45), and has done no more. -/
def WritesWord (s t : State) (c : IssueCtx) (G : Gang) (fields : List Nat) (d : Nat) (push : Nat → Option Word)
    (result : Nat → Word) (causes : Nat → List Nat) : Prop :=
  Completed s t c G (Use.regs .reg d) [] causes fun l old new =>
    Onward c fields (push l) old.jump old new ∧ WroteReg old new d (result l)

/-- A word has written the pair that D names in each of its lanes, and has done no more. -/
def WritesPair (s t : State) (c : IssueCtx) (G : Gang) (fields : List Nat) (d : Nat) (push : Nat → Option Word)
    (result : Nat → DWord) (causes : Nat → List Nat) : Prop :=
  Completed s t c G (Use.regs .pair d) [] causes fun l old new =>
    Onward c fields (push l) old.jump old new ∧ WrotePair old new d (result l)

/-- A word that acts once for all its lanes, or that waited for its answer, has completed on a state that holds its effect: each
lane has the same answer, in the register that D names, and waits no longer. -/
def AnswersOnce (s t : State) (c : IssueCtx) (G : Gang) (fields : List Nat) (d : Nat) (push : Nat → Option Word) (v : Word)
    (ctx : Option IssueCtx := s.ctx) : Prop :=
  Completed s t c G (Use.regs .reg d) [] noCauses (fun l old new =>
    ∃ held, Onward c fields (push l) old.jump (resumed c fields old held) new ∧ WroteReg old new d v) id ctx

/-- A blocking word waits in every one of its lanes, which leave it: nothing else has changed. -/
structure Waits (s t : State) (c : IssueCtx) (G : Gang) (w : Nat → Wait) : Prop where
  state : t = { s with gangs := t.gangs, ctx := some { c with lanes := 0, blocked := c.blocked ||| c.lanes } }
  others : ∀ g, g ≠ c.gang → t.gangs.find? g = s.gangs.find? g
  gang : ∃ G', t.gangs.find? c.gang = some G' ∧ G' = { G with threads := G'.threads }
  outside : ∀ l, inLanes c.lanes l = false → t.thread c.gang l = G.thread l
  inside : ∀ l, inLanes c.lanes l = true → t.thread c.gang l = { G.thread l with wait := some (w l), waitPos := c.pos }

/-- A class-L word has left its results outstanding, one a lane, to be written at a later time (R18), and has done no more. -/
def LeavesResult (s t : State) (c : IssueCtx) (G : Gang) (fields : List Nat) (d : Nat) (push : Nat → Option Word)
    (result : Nat → List Word) (causes : Nat → List Nat) : Prop :=
  Completed s t c G [] ((laneList c.lanes).map fun l => ⟨s.sn * 64 + l, c.gang, l, d, some (result l), none⟩) causes
    fun l old new => Onward c fields (push l) old.jump old new ∧ new.regs = old.regs

/-- The lanes of a memory word reach places of this package: the addresses have been located, and none raises a cause or is held
(R129 to R132). s1 is the state with what the walks have left in the translation buffers. -/
structure Reaches (s s1 : State) (c : IssueCtx) (G : Gang) (x : Target) (a : Nat → DWord)
    (ps : List (Nat × DWord × Place')) : Prop where
  located : s.locateAll c.gang (viewOf c G) (s.ctxOf c.gang) x ((laneList c.lanes).map fun l => (l, a l)) = (ps, s1)
  placed : ∀ e ∈ ps, ∃ k b, e.2.2 = .at_ k false b

/-- One access for each place, in lane order. -/
def accessesOf (ps : List (Nat × DWord × Place')) (mk : Nat → DWord → Nat → Access) : List Access :=
  ps.filterMap fun e => match e.2.2 with | .at_ k _ _ => some (mk e.1 e.2.1 k) | _ => none

/-- A memory word has issued its accesses, which are performed later: beside them, its lanes' threads, the data generations of
the scratch slots that it writes (R190) and what its walks have left, nothing has changed; no byte of memory has. -/
structure Issued (s s1 t : State) (c : IssueCtx) (G : Gang) (new : List Access) (slots : List Nat)
    (lane : Nat → Thread → Thread → Prop) : Prop where
  walked : s1 = { s with tlb := s1.tlb, zeroing := s1.zeroing, free := s1.free }
  state : t = { s1 with gangs := t.gangs, teams := t.teams, accesses := s.accesses ++ new, sn := s.sn + 1 }
  teams : t.teams = (s.bumpSlots (viewOf c G).team slots).teams
  others : ∀ g, g ≠ c.gang → t.gangs.find? g = s.gangs.find? g
  gang : ∃ G', t.gangs.find? c.gang = some G' ∧ G' = { G with threads := G'.threads }
  outside : ∀ l, inLanes c.lanes l = false → t.thread c.gang l = G.thread l
  inside : ∀ l, inLanes c.lanes l = true → lane l (G.thread l) (t.thread c.gang l)

/-- Memory holds these bytes from a key on. -/
def Holds (t : State) (pa : Nat) (bytes : List Byte) : Prop := t.mem.read pa bytes.length = bytes

/-- Every byte of memory outside a range reads as before. -/
def StoresOnly (s t : State) (pa n : Nat) : Prop := ∀ k, k < pa ∨ pa + n ≤ k → t.mem.byte k = s.mem.byte k

/-- Only the threads of one gang have changed, each as a relation of its lane says. -/
def OnlyThreads (s t : State) (g : Nat) (lane : Nat → Thread → Thread → Prop) : Prop :=
  (∀ k, k ≠ g → t.gangs.find? k = s.gangs.find? k) ∧
  ∀ G, s.gangs.find? g = some G → ∃ G', t.gangs.find? g = some G' ∧ G' = { G with threads := G'.threads } ∧
    G'.threads.length = G.threads.length ∧ ∀ l < G.threads.length, lane l (G.thread l) (G'.thread l)

/-- A thread has entered its handler (R237, R238): the trap registers hold the cause, the resume point and the address, the next packet is
TRAPVEC's, and the latch is empty. A thread in a region has first aborted it with FAULT, and will resume at its fallback (R228). -/
def InHandler (cause : Word) (pc : Word) (pos : Nat) (lo hi : Word) (old new : Thread) : Prop :=
  (old.inRegion = false → new = { old with
    trapcause := cause, trappc := pc, trapLo := lo, trapHi := hi, resumePos := pos, handler := true, pc := old.trapvec, pos := 0
    latch := [], trap := none, wait := none, grant := none, fence := none, jump := none, issued := none, held := [] }) ∧
  ∀ r, old.region = some r → old.inRegion = true → new = { old with
    regs := r.snapshot, region := none, axCause := 6, axCode := 0, axCount := min 255 (old.axCount + 1), park := new.park
    trapcause := cause, trappc := r.fallback, trapLo := lo, trapHi := hi, resumePos := 0, handler := true, pc := old.trapvec, pos := 0
    latch := [], trap := none, wait := none, grant := none, fence := none, jump := none, issued := none, held := [] }

/-- The threads of a gang that wait in some way have been granted their answer. -/
def Granted (p : Wait → Prop) (v : DWord) (_ : Nat) (old new : Thread) : Prop :=
  ((∃ w, old.wait = some w ∧ p w) → new = { old with grant := some v }) ∧ ((∀ w, old.wait = some w → ¬p w) → new = old)

/-- The thread with a queue's tail extended by reserved entries of an access (R138). -/
def withReserved (t : Thread) (q sn n : Nat) : Thread :=
  { t with queues := setNth t.queues q (nth [] t.queues q ++ (List.range n).map (QEntry.reserved sn)) }

/-- Only memory and what follows it have changed: byte strings are written one after the other, and the watch tables, the L1 copies of
control lines, what the translation buffers keep of changed entries, the bytes that a fetch may still find, and what the bytes of operand
slots have held have followed them. -/
def Wrote (s t : State) (ws : List (Nat × List Byte)) : Prop :=
  t = { s with
    mem := ws.foldl (fun (m : Memory) e => Memory.write m e.1 e.2) s.mem, watches := t.watches, l1 := t.l1, tlb := t.tlb
    rewritten := t.rewritten, matOps := t.matOps } ∧
  t.matOps.map (fun o => { o with olds := [] }) = s.matOps.map fun o => { o with olds := [] }

/-- The bytes of the pieces of a range, in order. -/
def bytesOf (s : State) (ps : List Piece) : List Byte := ps.flatMap fun p => s.mem.read p.key p.len

/-- Memory with a string of bytes laid over the pieces of a range. -/
def laid (m : Memory) : List Piece → List Byte → Memory
  | [], _ => m
  | p :: ps, bs => laid (Memory.write m p.key (bs.take p.len)) ps (bs.drop p.len)

end Sys2Proof
end

