-- ==== Sys2Proof/Certificates/Slice0/Obligations.lean ====
section
/-! DEFINITION. The statements for the provers. -/

open Sys2Proof
open Sys2Proof.Machine

/-! ## Integer words -/

/-- R85, R88, R89, R91: a word of two single-register sources, a bit field that is read, and MAD and BFI, which read D as a
third source, write the result of their row in every lane and change nothing else. The offset of a field is B[4:0], its width
code B[12:8], and it is cut at bit 31. -/
def Obligations.SingleRegisterWordsWriteTheirResult : Prop :=
  (∀ p ∈ ([(.add, fun a b => a + b), (.sub, fun a b => a - b), (.mul, fun a b => a * b),
       (.mulh, fun a b => BitVec.ofInt 32 (a.toInt * b.toInt / 2 ^ 32)),
       (.mulhu, fun a b => BitVec.ofNat 32 (a.toNat * b.toNat / 2 ^ 32)),
       (.and, fun a b => a &&& b), (.or, fun a b => a ||| b), (.xor, fun a b => a ^^^ b), (.andn, fun a b => a &&& ~~~b),
       (.shl, fun a b => if b.toNat % 64 < 32 then a <<< (b.toNat % 64) else 0),
       (.shr, fun a b => if b.toNat % 64 < 32 then a >>> (b.toNat % 64) else 0),
       (.sra, fun a b => a.sshiftRight (min (b.toNat % 64) 31)),
       (.rol, fun a b => a <<< (b.toNat % 32) ||| a >>> (32 - b.toNat % 32)),
       (.min, fun a b => if a.slt b then a else b), (.max, fun a b => if b.slt a then a else b),
       (.minu, fun a b => if a.ult b then a else b), (.maxu, fun a b => if b.ult a then a else b),
       (.cmpeq, fun a b => if a = b then 1 else 0), (.cmpne, fun a b => if a = b then 0 else 1),
       (.cmplt, fun a b => if a.slt b then 1 else 0), (.cmple, fun a b => if b.slt a then 0 else 1),
       (.cmpltu, fun a b => if a.ult b then 1 else 0), (.cmpleu, fun a b => if b.ult a then 0 else 1)] :
       List ((FmtA → Instr) × (Word → Word → Word))),
   ∀ (f : FmtA) (s : State) (c : IssueCtx) (G : Gang),
     Ready s c G [f.a.toNat, f.b.toNat] (Use.regs .reg f.a.toNat ++ Use.regs .reg f.b.toNat) (Use.regs .reg f.d.toNat) →
     let A := fun l => operand c G l [] f.a.toNat
     let B := fun l => operand c G l [f.a.toNat] f.b.toNat
     let r := fun l => p.2 (A l) (B l)
     ∃ t, exec (p.1 f) s = .next t ∧
       WritesWord s t c G [f.a.toNat, f.b.toNat] f.d.toNat (fun l => pushOf f.h (A l) (B l) (r l)) r noCauses) ∧
  (∀ (f : FmtA) (s : State) (c : IssueCtx) (G : Gang),
     Ready s c G [f.a.toNat, f.b.toNat] (Use.regs .reg f.a.toNat ++ Use.regs .reg f.b.toNat) (Use.regs .reg f.d.toNat) →
     let A := fun l => operand c G l [] f.a.toNat
     let B := fun l => operand c G l [f.a.toNat] f.b.toNat
     let o := fun l => (B l).toNat % 32
     let w := fun l => if (B l).toNat / 256 % 32 = 0 then 32 else (B l).toNat / 256 % 32
     let e := fun l => min (w l) (32 - o l)
     let x := fun l => (A l).toNat / 2 ^ o l % 2 ^ e l
     (∀ r : Nat → Word, (∀ l, (r l).toNat = x l) →
       ∃ t, exec (.bfx f) s = .next t ∧
         WritesWord s t c G [f.a.toNat, f.b.toNat] f.d.toNat (fun l => pushOf f.h (A l) (B l) (r l)) r noCauses) ∧
     (∀ r : Nat → Word, (∀ l, (r l).toInt = if x l < 2 ^ (e l - 1) then (x l : Int) else x l - 2 ^ e l) →
       ∃ t, exec (.bfxs f) s = .next t ∧
         WritesWord s t c G [f.a.toNat, f.b.toNat] f.d.toNat (fun l => pushOf f.h (A l) (B l) (r l)) r noCauses)) ∧
  (∀ p ∈ ([(.mad, fun d a b r => r = a * b + d),
       (.bfi, fun d a b r =>
         let o := b.toNat % 32
         let w := if b.toNat / 256 % 32 = 0 then 32 else b.toNat / 256 % 32
         let e := min w (32 - o)
         ∀ k < 32, r.getLsbD k = if o ≤ k ∧ k < o + e then a.getLsbD (k - o) else d.getLsbD k)] :
       List ((FmtA → Instr) × (Word → Word → Word → Word → Prop))),
   ∀ (f : FmtA) (s : State) (c : IssueCtx) (G : Gang),
     Ready s c G [f.a.toNat, f.b.toNat]
       (Use.regs .reg f.d.toNat ++ Use.regs .reg f.a.toNat ++ Use.regs .reg f.b.toNat) (Use.regs .reg f.d.toNat) →
     let A := fun l => operand c G l [] f.a.toNat
     let B := fun l => operand c G l [f.a.toNat] f.b.toNat
     ∃ t r, exec (p.1 f) s = .next t ∧ (∀ l, p.2 (operandD c G l f.d.toNat) (A l) (B l) (r l)) ∧
       WritesWord s t c G [f.a.toNat, f.b.toNat] f.d.toNat (fun l => pushOf f.h (A l) (B l) (r l)) r noCauses)

/-- R89: the words of one source ignore B. R89, R219: SEL writes A where D is not zero and else B; where a lane is in a region
there is room for the constraint it may record (R213). R86, R89, R92, R93: the words whose result is a pair: pair sums and
products, pair shifts by a single register, and the exact products of two single registers. -/
def Obligations.UnarySelectAndPairWordsWriteTheirResult : Prop :=
  (∀ p ∈ ([(.abs, fun a r => r = if a.msb then 0 - a else a),
       (.clz, fun a r => r.toNat ≤ 32 ∧ a.toNat < 2 ^ (32 - r.toNat) ∧ (r.toNat < 32 → a.getLsbD (31 - r.toNat) = true)),
       (.popc, fun a r => r.toNat = ((List.range 32).filter fun k => a.getLsbD k).length),
       (.brev, fun a r => ∀ k < 32, r.getLsbD k = a.getLsbD (31 - k))] :
       List ((FmtA → Instr) × (Word → Word → Prop))),
   ∀ (f : FmtA) (s : State) (c : IssueCtx) (G : Gang),
     Ready s c G [f.a.toNat] (Use.regs .reg f.a.toNat) (Use.regs .reg f.d.toNat) →
     let A := fun l => operand c G l [] f.a.toNat
     ∃ t r, exec (p.1 f) s = .next t ∧ (∀ l, p.2 (A l) (r l)) ∧
       WritesWord s t c G [f.a.toNat] f.d.toNat (fun l => pushOf f.h (A l) 0 (r l)) r noCauses) ∧
  (∀ (f : FmtA) (s : State) (c : IssueCtx) (G : Gang),
     Ready s c G [f.a.toNat, f.b.toNat]
       (Use.regs .reg f.d.toNat ++ Use.regs .reg f.a.toNat ++ Use.regs .reg f.b.toNat) (Use.regs .reg f.d.toNat) →
     Roomy c G →
     let A := fun l => operand c G l [] f.a.toNat
     let B := fun l => operand c G l [f.a.toNat] f.b.toNat
     let r := fun l => if operandD c G l f.d.toNat = 0 then B l else A l
     ∃ t, exec (.sel f) s = .next t ∧
       WritesWord s t c G [f.a.toNat, f.b.toNat] f.d.toNat (fun l => pushOf f.h (A l) (B l) (r l)) r noCauses) ∧
  (∀ (f : FmtA) (s : State) (c : IssueCtx) (G : Gang),
     (∀ p ∈ ([(.add64, fun a b => a + b), (.sub64, fun a b => a - b), (.mul64, fun a b => a * b)] :
         List ((FmtA → Instr) × (DWord → DWord → DWord))),
       Ready s c G [] (Use.regs .pair f.a.toNat ++ Use.regs .pair f.b.toNat) (Use.regs .pair f.d.toNat) →
       let A := fun l => operandPair c G l f.a.toNat
       let B := fun l => operandPair c G l f.b.toNat
       let r := fun l => p.2 (A l) (B l)
       ∃ t, exec (p.1 f) s = .next t ∧
         WritesPair s t c G [] f.d.toNat (fun l => pushOf f.h (loOf (A l)) (loOf (B l)) (loOf (r l))) r noCauses) ∧
     (∀ p ∈ ([(.shl64, fun a n => a <<< n), (.shr64, fun a n => a >>> n), (.sra64, fun a n => a.sshiftRight n)] :
         List ((FmtA → Instr) × (DWord → Nat → DWord))),
       Ready s c G [f.b.toNat] (Use.regs .pair f.a.toNat ++ Use.regs .reg f.b.toNat) (Use.regs .pair f.d.toNat) →
       let A := fun l => operandPair c G l f.a.toNat
       let B := fun l => operand c G l [] f.b.toNat
       let r := fun l => p.2 (A l) ((B l).toNat % 64)
       ∃ t, exec (p.1 f) s = .next t ∧
         WritesPair s t c G [f.b.toNat] f.d.toNat (fun l => pushOf f.h (loOf (A l)) (B l) (loOf (r l))) r noCauses) ∧
     (∀ p ∈ ([(.mulw, fun a b => BitVec.ofInt 64 (a.toInt * b.toInt)), (.mulwu, fun a b => BitVec.ofNat 64 (a.toNat * b.toNat))] :
         List ((FmtA → Instr) × (Word → Word → DWord))),
       Ready s c G [f.a.toNat, f.b.toNat] (Use.regs .reg f.a.toNat ++ Use.regs .reg f.b.toNat) (Use.regs .pair f.d.toNat) →
       let A := fun l => operand c G l [] f.a.toNat
       let B := fun l => operand c G l [f.a.toNat] f.b.toNat
       let r := fun l => p.2 (A l) (B l)
       ∃ t, exec (p.1 f) s = .next t ∧
         WritesPair s t c G [f.a.toNat, f.b.toNat] f.d.toNat (fun l => pushOf f.h (A l) (B l) (loOf (r l))) r noCauses))

/-- R85, R90: a divide leaves its quotient or remainder outstanding as a class-L result; a zero divisor gives the all-ones
quotient and the dividend and logs INT_DIVZERO; signed overflow gives 0x8000_0000 and 0 and logs nothing. -/
def Obligations.DividesLeaveTheirResultOutstanding : Prop :=
  ∀ p ∈ ([(.div, fun a b => if b = 0 then 0xFFFFFFFF else if a = 0x80000000 ∧ b = 0xFFFFFFFF then 0x80000000
        else BitVec.ofInt 32 (a.toInt.tdiv b.toInt)),
      (.divu, fun a b => if b = 0 then 0xFFFFFFFF else BitVec.ofNat 32 (a.toNat / b.toNat)),
      (.rem, fun a b => if b = 0 then a else if a = 0x80000000 ∧ b = 0xFFFFFFFF then 0
        else BitVec.ofInt 32 (a.toInt - a.toInt.tdiv b.toInt * b.toInt)),
      (.remu, fun a b => if b = 0 then a else BitVec.ofNat 32 (a.toNat % b.toNat))] :
      List ((FmtA → Instr) × (Word → Word → Word))),
  ∀ (f : FmtA) (s : State) (c : IssueCtx) (G : Gang),
    Ready s c G [f.a.toNat, f.b.toNat] (Use.regs .reg f.a.toNat ++ Use.regs .reg f.b.toNat) (Use.regs .reg f.d.toNat) →
    let A := fun l => operand c G l [] f.a.toNat
    let B := fun l => operand c G l [f.a.toNat] f.b.toNat
    ∃ t, exec (p.1 f) s = .next t ∧
      LeavesResult s t c G [f.a.toNat, f.b.toNat] f.d.toNat (fun l => pushOf f.h (A l) (B l) 0)
        (fun l => [p.2 (A l) (B l)]) (fun l => if B l = 0 then [0x24] else [])

/-- R94 to R97: the immediate forms; they have no H field and push nothing. -/
def Obligations.ImmediateWordsWriteTheirResult : Prop :=
  ∀ (s : State) (c : IssueCtx) (G : Gang),
    (∀ p ∈ ([(.addi, fun a n => a + n.signExtend 32), (.andi, fun a n => a &&& n.setWidth 32),
        (.ori, fun a n => a ||| n.setWidth 32), (.xori, fun a n => a ^^^ n.setWidth 32)] :
        List ((FmtI → Instr) × (Word → BitVec 12 → Word))), ∀ f : FmtI,
      Ready s c G [f.a.toNat] (Use.regs .reg f.a.toNat) (Use.regs .reg f.d.toNat) →
      ∃ t, exec (p.1 f) s = .next t ∧
        WritesWord s t c G [f.a.toNat] f.d.toNat (fun _ => none) (fun l => p.2 (operand c G l [] f.a.toNat) f.imm) noCauses) ∧
    (∀ p ∈ ([(.shli, fun a n => if n < 32 then a <<< n else 0), (.shri, fun a n => if n < 32 then a >>> n else 0),
        (.srai, fun a n => a.sshiftRight (min n 31)), (.roli, fun a n => a <<< (n % 32) ||| a >>> (32 - n % 32))] :
        List ((FmtSh → Instr) × (Word → Nat → Word))), ∀ f : FmtSh,
      Ready s c G [f.a.toNat] (Use.regs .reg f.a.toNat) (Use.regs .reg f.d.toNat) →
      ∃ t, exec (p.1 f) s = .next t ∧
        WritesWord s t c G [f.a.toNat] f.d.toNat (fun _ => none) (fun l => p.2 (operand c G l [] f.a.toNat) f.n.toNat)
          noCauses) ∧
    (∀ p ∈ ([(.cmpiEq, fun a n => a = n), (.cmpiNe, fun a n => a ≠ n), (.cmpiLt, fun a n => a.toInt < n.toInt),
        (.cmpiLe, fun a n => a.toInt ≤ n.toInt), (.cmpiLtu, fun a n => a.toNat < n.toNat),
        (.cmpiLeu, fun a n => a.toNat ≤ n.toNat), (.cmpiGt, fun a n => n.toInt < a.toInt),
        (.cmpiGe, fun a n => n.toInt ≤ a.toInt)] : List ((FmtCmpi → Instr) × (Word → Word → Prop))), ∀ f : FmtCmpi,
      Ready s c G [f.a.toNat] (Use.regs .reg f.a.toNat) (Use.regs .reg f.d.toNat) →
      ∃ t r, exec (p.1 f) s = .next t ∧
        (∀ l, (p.2 (operand c G l [] f.a.toNat) (f.imm.signExtend 32) → r l = 1) ∧
          (¬p.2 (operand c G l [] f.a.toNat) (f.imm.signExtend 32) → r l = 0)) ∧
        WritesWord s t c G [f.a.toNat] f.d.toNat (fun _ => none) r noCauses) ∧
    (∀ f : FmtL, Ready s c G [] [] (Use.regs .reg f.d.toNat) →
      ∃ t, exec (.movl f) s = .next t ∧
        WritesWord s t c G [] f.d.toNat (fun _ => none) (fun _ => f.imm.setWidth 32) noCauses) ∧
    (∀ f : FmtL, Ready s c G [] (Use.regs .reg f.d.toNat) (Use.regs .reg f.d.toNat) →
      ∃ t, exec (.movh f) s = .next t ∧
        WritesWord s t c G [] f.d.toNat (fun _ => none)
          (fun l => BitVec.ofNat 32 (f.imm.toNat * 2 ^ 14 + (operandD c G l f.d.toNat).toNat % 2 ^ 14)) noCauses)

/-! ## Floating-point words -/

/-- R111, R113, R114: each FALU word reads its fp32 operands as its lane's FPC lets it (FTZ, RM) and writes the result of its
row of Table 5.2, logging the causes that FPC lets be logged. What the arithmetic itself computes is said by the statements on
rounding, sums and special values. R118 to R120: HALU words compute on the two halves of a register apart, in the format that
F[3] selects; HDOT2 sums two exact products and an fp32 D with one rounding. R113, R121: DALU words read pairs as fp64 and write
a pair, the compares a single register; FTZ has no effect. -/
def Obligations.FloatWordsWriteTheirResult : Prop :=
  (∀ (f : FmtA) (s : State) (c : IssueCtx) (G : Gang),
     let T := fun l => (viewOf c G).thread l
     let A := fun l => operand c G l [] f.a.toNat
     let B := fun l => operand c G l [f.a.toNat] f.b.toNat
     let D := fun l => operandD c G l f.d.toNat
     let a := fun l => (T l).fp (A l)
     let b := fun l => (T l).fp (B l)
     let d := fun l => (T l).fp (D l)
     (∀ p ∈ ([(.fadd, fun t a b => t.fres32 (fp32.add t.rm a b)), (.fsub, fun t a b => t.fres32 (fp32.add t.rm a b.negate)),
         (.fmul, fun t a b => t.fres32 (fp32.mul t.rm a b)), (.fmin, fun t a b => t.fres (fp32.minMax false a b)),
         (.fmax, fun t a b => t.fres (fp32.minMax true a b)), (.fcmpeq, fun t a b => t.cres (fcompare true (· == 0) a b)),
         (.fcmplt, fun t a b => t.cres (fcompare false (fun o => decide (o < 0)) a b)),
         (.fcmple, fun t a b => t.cres (fcompare false (fun o => decide (o ≤ 0)) a b)),
         (.fcmpun, fun t a b => t.cres (a.isNan || b.isNan, sigCause [a, b])),
         (.fcopysign, fun t a b => t.fres (fp32.withSign a b.neg (sigCause [a, b])))] :
         List ((FmtA → Instr) × (Thread → FVal → FVal → Res))),
       Ready s c G [f.a.toNat, f.b.toNat] (Use.regs .reg f.a.toNat ++ Use.regs .reg f.b.toNat) (Use.regs .reg f.d.toNat) →
       let r := fun l => p.2 (T l) (a l) (b l)
       ∃ t, exec (p.1 f) s = .next t ∧
         WritesWord s t c G [f.a.toNat, f.b.toNat] f.d.toNat (fun l => pushOf f.h (A l) (B l) (loOf (r l).val))
           (fun l => loOf (r l).val) (fun l => (r l).causes)) ∧
     (∀ p ∈ ([(.fabs, fun t a => t.fres (fp32.withSign a false (sigCause [a]))),
         (.fneg, fun t a => t.fres (fp32.withSign a (!a.neg) (sigCause [a]))),
         (.frnd, fun t a => t.fres (fp32.roundIntegral t.rm a)), (.fsat, fun t a => t.fres (saturate a))] :
         List ((FmtA → Instr) × (Thread → FVal → Res))),
       Ready s c G [f.a.toNat] (Use.regs .reg f.a.toNat) (Use.regs .reg f.d.toNat) →
       let r := fun l => p.2 (T l) (a l)
       ∃ t, exec (p.1 f) s = .next t ∧
         WritesWord s t c G [f.a.toNat] f.d.toNat (fun l => pushOf f.h (A l) 0 (loOf (r l).val))
           (fun l => loOf (r l).val) (fun l => (r l).causes)) ∧
     (∀ p ∈ ([(.ffma, fun t a b d => t.fres32 (fp32.fma t.rm a b d)),
         (.ffms, fun t a b d => t.fres32 (fp32.fma t.rm a.negate b d))] :
         List ((FmtA → Instr) × (Thread → FVal → FVal → FVal → Res))),
       Ready s c G [f.a.toNat, f.b.toNat]
         (Use.regs .reg f.d.toNat ++ Use.regs .reg f.a.toNat ++ Use.regs .reg f.b.toNat) (Use.regs .reg f.d.toNat) →
       let r := fun l => p.2 (T l) (a l) (b l) (d l)
       ∃ t, exec (p.1 f) s = .next t ∧
         WritesWord s t c G [f.a.toNat, f.b.toNat] f.d.toNat (fun l => pushOf f.h (A l) (B l) (loOf (r l).val))
           (fun l => loOf (r l).val) (fun l => (r l).causes))) ∧
  (∀ (f : FmtH) (s : State) (c : IssueCtx) (G : Gang),
     let x := if f.g = 1#1 then fp16 else bf16
     let T := fun l => (viewOf c G).thread l
     let A := fun l => operand c G l [] f.a.toNat
     let B := fun l => operand c G l [f.a.toNat] f.b.toNat
     let D := fun l => operandD c G l f.d.toNat
     let lo := fun (w : Word) => x.decode (w.toNat % 65536)
     let hi := fun (w : Word) => x.decode (w.toNat / 65536)
     (∀ p ∈ ([(.hadd2, fun rm a b => x.add rm a b), (.hsub2, fun rm a b => x.add rm a b.negate),
         (.hmul2, fun rm a b => x.mul rm a b), (.hmin2, fun _ a b => x.minMax false a b),
         (.hmax2, fun _ a b => x.minMax true a b),
         (.hcmplt2, fun _ a b =>
           ⟨if !(a.isNan || b.isNan) && decide (a.order b < 0) then 0xFFFF else 0,
             if a.isNan || b.isNan then [fpInvalid] else []⟩)] :
         List ((FmtH → Instr) × (Nat → FVal → FVal → FRes))),
       Ready s c G [f.a.toNat, f.b.toNat] (Use.regs .reg f.a.toNat ++ Use.regs .reg f.b.toNat) (Use.regs .reg f.d.toNat) →
       let rl := fun l => p.2 (T l).rm (lo (A l)) (lo (B l))
       let rh := fun l => p.2 (T l).rm (hi (A l)) (hi (B l))
       let r := fun l => BitVec.ofNat 32 ((rl l).bits + 65536 * (rh l).bits)
       ∃ t, exec (p.1 f) s = .next t ∧
         WritesWord s t c G [f.a.toNat, f.b.toNat] f.d.toNat (fun l => pushOf f.h (A l) (B l) (r l)) r
           (fun l => (T l).logged (joinCauses (rl l).causes (rh l).causes))) ∧
     (Ready s c G [f.a.toNat, f.b.toNat]
         (Use.regs .reg f.d.toNat ++ Use.regs .reg f.a.toNat ++ Use.regs .reg f.b.toNat) (Use.regs .reg f.d.toNat) →
       (let rl := fun l => x.fma (T l).rm (lo (A l)) (lo (B l)) (lo (D l))
        let rh := fun l => x.fma (T l).rm (hi (A l)) (hi (B l)) (hi (D l))
        let r := fun l => BitVec.ofNat 32 ((rl l).bits + 65536 * (rh l).bits)
        ∃ t, exec (.hfma2 f) s = .next t ∧
         WritesWord s t c G [f.a.toNat, f.b.toNat] f.d.toNat (fun l => pushOf f.h (A l) (B l) (r l)) r
           (fun l => (T l).logged (joinCauses (rl l).causes (rh l).causes))) ∧
       (let q := fun l => fp32.sum (T l).rm
           [(lo (A l)).mul (lo (B l)), (hi (A l)).mul (hi (B l)), ((T l).fp (D l)).term]
           (sigCause [lo (A l), hi (A l), lo (B l), hi (B l), (T l).fp (D l)])
        let r := fun l => (T l).fres32 (q l)
        ∃ t, exec (.hdot2 f) s = .next t ∧
         WritesWord s t c G [f.a.toNat, f.b.toNat] f.d.toNat (fun l => pushOf f.h (A l) (B l) (loOf (r l).val))
           (fun l => loOf (r l).val) (fun l => (r l).causes)))) ∧
  (∀ (f : FmtA) (s : State) (c : IssueCtx) (G : Gang),
     let T := fun l => (viewOf c G).thread l
     let A := fun l => operandPair c G l f.a.toNat
     let B := fun l => operandPair c G l f.b.toNat
     let D := fun l => operandPair c G l f.d.toNat
     let a := fun l => fp64.decode (A l).toNat
     let b := fun l => fp64.decode (B l).toNat
     let d := fun l => fp64.decode (D l).toNat
     let two := Use.regs .pair f.a.toNat ++ Use.regs .pair f.b.toNat
     (∀ p ∈ ([(.dadd, fun rm a b => fp64.add rm a b), (.dsub, fun rm a b => fp64.add rm a b.negate),
         (.dmul, fun rm a b => fp64.mul rm a b), (.dmin, fun _ a b => fp64.minMax false a b),
         (.dmax, fun _ a b => fp64.minMax true a b)] : List ((FmtA → Instr) × (Nat → FVal → FVal → FRes))),
       Ready s c G [] two (Use.regs .pair f.d.toNat) →
       let r := fun l => p.2 (T l).rm (a l) (b l)
       ∃ t, exec (p.1 f) s = .next t ∧
         WritesPair s t c G [] f.d.toNat
           (fun l => pushOf f.h (loOf (A l)) (loOf (B l)) (loOf (BitVec.ofNat 64 (r l).bits)))
           (fun l => BitVec.ofNat 64 (r l).bits) (fun l => (T l).logged (r l).causes)) ∧
     (∀ p ∈ ([(.dabs, fun _ a => fp64.withSign a false (sigCause [a])), (.dneg, fun _ a => fp64.withSign a (!a.neg) (sigCause [a])),
         (.drnd, fun rm a => fp64.roundIntegral rm a)] : List ((FmtA → Instr) × (Nat → FVal → FRes))),
       Ready s c G [] (Use.regs .pair f.a.toNat) (Use.regs .pair f.d.toNat) →
       let r := fun l => p.2 (T l).rm (a l)
       ∃ t, exec (p.1 f) s = .next t ∧
         WritesPair s t c G [] f.d.toNat (fun l => pushOf f.h (loOf (A l)) 0 (loOf (BitVec.ofNat 64 (r l).bits)))
           (fun l => BitVec.ofNat 64 (r l).bits) (fun l => (T l).logged (r l).causes)) ∧
     (Ready s c G [] (Use.regs .pair f.d.toNat ++ two) (Use.regs .pair f.d.toNat) →
       let r := fun l => fp64.fma (T l).rm (a l) (b l) (d l)
       ∃ t, exec (.dfma f) s = .next t ∧
         WritesPair s t c G [] f.d.toNat
           (fun l => pushOf f.h (loOf (A l)) (loOf (B l)) (loOf (BitVec.ofNat 64 (r l).bits)))
           (fun l => BitVec.ofNat 64 (r l).bits) (fun l => (T l).logged (r l).causes)) ∧
     (∀ p ∈ ([(.dcmpeq, true, fun o => o == 0), (.dcmplt, false, fun o => decide (o < 0)),
         (.dcmple, false, fun o => decide (o ≤ 0))] : List ((FmtA → Instr) × Bool × (Int → Bool))),
       Ready s c G [] two (Use.regs .reg f.d.toNat) →
       let q := fun l => fcompare p.2.1 p.2.2 (a l) (b l)
       let r := fun l => if (q l).1 then 1#32 else 0#32
       ∃ t, exec (p.1 f) s = .next t ∧
         WritesWord s t c G [] f.d.toNat (fun l => pushOf f.h (loOf (A l)) (loOf (B l)) (r l)) r
           (fun l => (T l).logged (q l).2)))

/-- R122 to R124: each conversion rounds RNE whatever RM holds and is not touched by FTZ. -/
def Obligations.ConversionsWriteTheirResult : Prop :=
  ∀ (f : FmtA) (s : State) (c : IssueCtx) (G : Gang),
    let T := fun l => (viewOf c G).thread l
    let A := fun l => operand c G l [] f.a.toNat
    let B := fun l => operand c G l [f.a.toNat] f.b.toNat
    let P := fun l => operandPair c G l f.a.toNat
    let ofInt := fun (r : Int × List Nat) => (⟨(BitVec.ofInt 32 r.1).toNat, r.2⟩ : FRes)
    let one := Use.regs .reg f.a.toNat
    (∀ p ∈ ([(.cvtfi, fun w => ofInt (toInteger (-2147483648) 2147483647 (fp32.decode w.toNat))),
        (.cvtif, fun w => fp32.convert (intVal w.toInt)), (.cvtfu, fun w => ofInt (toInteger 0 4294967295 (fp32.decode w.toNat))),
        (.cvtuf, fun w => fp32.convert (intVal w.toNat)), (.cvtfb, fun w => bf16.convert (fp32.decode w.toNat)),
        (.cvtfh, fun w => fp16.convert (fp32.decode w.toNat)), (.cvtbf, fun w => fp32.convert (bf16.decode (w.toNat % 65536))),
        (.cvthf, fun w => fp32.convert (fp16.decode (w.toNat % 65536))),
        (.unpke4, fun w => ⟨(bf16.convert (e4m3.decode (w.toNat % 256))).bits +
          65536 * (bf16.convert (e4m3.decode (w.toNat / 256 % 256))).bits, []⟩),
        (.unpke5, fun w => ⟨(bf16.convert (e5m2.decode (w.toNat % 256))).bits +
          65536 * (bf16.convert (e5m2.decode (w.toNat / 256 % 256))).bits, []⟩)] :
        List ((FmtA → Instr) × (Word → FRes))),
      Ready s c G [f.a.toNat] one (Use.regs .reg f.d.toNat) →
      let r := fun l => BitVec.ofNat 32 (p.2 (A l)).bits
      ∃ t, exec (p.1 f) s = .next t ∧
        WritesWord s t c G [f.a.toNat] f.d.toNat (fun l => pushOf f.h (A l) 0 (r l)) r
          (fun l => (T l).logged (p.2 (A l)).causes)) ∧
    (∀ p ∈ ([(.packe4, e4m3), (.packe5, e5m2)] : List ((FmtA → Instr) × Fmt)),
      Ready s c G [f.a.toNat, f.b.toNat] (one ++ Use.regs .reg f.b.toNat) (Use.regs .reg f.d.toNat) →
      let x := fun l => p.2.convert (fp32.decode (A l).toNat)
      let y := fun l => p.2.convert (fp32.decode (B l).toNat)
      let r := fun l => BitVec.ofNat 32 ((x l).bits + 256 * (y l).bits)
      ∃ t, exec (p.1 f) s = .next t ∧
        WritesWord s t c G [f.a.toNat, f.b.toNat] f.d.toNat (fun l => pushOf f.h (A l) (B l) (r l)) r
          (fun l => (T l).logged (joinCauses (x l).causes (y l).causes))) ∧
    (∀ p ∈ ([(.cvtfd, fun w => fp64.convert (fp32.decode w.toNat)), (.cvtid, fun w => fp64.convert (intVal w.toInt))] :
        List ((FmtA → Instr) × (Word → FRes))),
      Ready s c G [f.a.toNat] one (Use.regs .pair f.d.toNat) →
      let r := fun l => BitVec.ofNat 64 (p.2 (A l)).bits
      ∃ t, exec (p.1 f) s = .next t ∧
        WritesPair s t c G [f.a.toNat] f.d.toNat (fun l => pushOf f.h (A l) 0 (loOf (r l))) r
          (fun l => (T l).logged (p.2 (A l)).causes)) ∧
    (∀ p ∈ ([(.cvtdf, fun w => fp32.convert (fp64.decode w.toNat)),
        (.cvtdi, fun w => ofInt (toInteger (-2147483648) 2147483647 (fp64.decode w.toNat)))] :
        List ((FmtA → Instr) × (DWord → FRes))),
      Ready s c G [] (Use.regs .pair f.a.toNat) (Use.regs .reg f.d.toNat) →
      let r := fun l => BitVec.ofNat 32 (p.2 (P l)).bits
      ∃ t, exec (p.1 f) s = .next t ∧
        WritesWord s t c G [] f.d.toNat (fun l => pushOf f.h (loOf (P l)) 0 (r l)) r
          (fun l => (T l).logged (p.2 (P l)).causes))

/-- R125 to R127: each SFU word takes its operands, FPC and latch push at issue and leaves its result outstanding; the causes
belong to the issuing word; VMAXE of NaN leaves D and logs FP_INVALID. The values of the approximated functions inside their
bounds are the model's free choice (log 9). -/
def Obligations.SfuWordsLeaveTheirResultOutstanding : Prop :=
  ∀ (f : FmtA) (s : State) (c : IssueCtx) (G : Gang),
    let T := fun l => (viewOf c G).thread l
    let A := fun l => operand c G l [] f.a.toNat
    let B := fun l => operand c G l [f.a.toNat] f.b.toNat
    let D := fun l => operandD c G l f.d.toNat
    let P := fun l => operandPair c G l f.a.toNat
    let Q := fun l => operandPair c G l f.b.toNat
    let a := fun l => (T l).fp (A l)
    let one := Use.regs .reg f.a.toNat
    (∀ p ∈ ([(.frcp, fun _ a => frcp a a.word), (.frsq, fun _ a => frsq a a.word), (.fsqrt, fun rm a => fp32.sqrt rm a),
        (.fexp2, fun _ a => fexp2 a a.word), (.flog2, fun _ a => flog2 a a.word), (.fsin, fun _ a => fsin a a.word),
        (.fcos, fun _ a => fcos a a.word), (.ftanh, fun _ a => ftanh a a.word), (.fsigm, fun _ a => fsigm a a.word)] :
        List ((FmtA → Instr) × (Nat → FVal → FRes))),
      Ready s c G [f.a.toNat] one (Use.regs .reg f.d.toNat) →
      let r := fun l => (T l).fres32 (p.2 (T l).rm (a l))
      ∃ t, exec (p.1 f) s = .next t ∧
        LeavesResult s t c G [f.a.toNat] f.d.toNat (fun l => pushOf f.h (A l) 0 0) (fun l => [loOf (r l).val])
          (fun l => (r l).causes)) ∧
    (∀ p ∈ ([(.fdiv, fun t a b => fp32.div t.rm a (t.fp b)), (.vexps, fun _ a b => vexps a b a.word)] :
        List ((FmtA → Instr) × (Thread → FVal → Word → FRes))),
      Ready s c G [f.a.toNat, f.b.toNat] (one ++ Use.regs .reg f.b.toNat) (Use.regs .reg f.d.toNat) →
      let r := fun l => (T l).fres32 (p.2 (T l) (a l) (B l))
      ∃ t, exec (p.1 f) s = .next t ∧
        LeavesResult s t c G [f.a.toNat, f.b.toNat] f.d.toNat (fun l => pushOf f.h (A l) (B l) 0)
          (fun l => [loOf (r l).val]) (fun l => (r l).causes)) ∧
    (Ready s c G [] (Use.regs .pair f.a.toNat ++ Use.regs .pair f.b.toNat) (Use.regs .pair f.d.toNat) →
      let r := fun l => (T l).fres (fp64.div (T l).rm (fp64.decode (P l).toNat) (fp64.decode (Q l).toNat))
      ∃ t, exec (.ddiv f) s = .next t ∧
        LeavesResult s t c G [] (f.d.toNat / 2 * 2) (fun l => pushOf f.h (loOf (P l)) (loOf (Q l)) 0)
          (fun l => [loOf (r l).val, hiOf (r l).val]) (fun l => (r l).causes)) ∧
    (Ready s c G [] (Use.regs .pair f.a.toNat) (Use.regs .pair f.d.toNat) →
      let r := fun l => (T l).fres (fp64.sqrt (T l).rm (fp64.decode (P l).toNat))
      ∃ t, exec (.dsqrt f) s = .next t ∧
        LeavesResult s t c G [] (f.d.toNat / 2 * 2) (fun l => pushOf f.h (loOf (P l)) 0 0)
          (fun l => [loOf (r l).val, hiOf (r l).val]) (fun l => (r l).causes)) ∧
    (Ready s c G [f.a.toNat] (Use.regs .reg f.d.toNat ++ one) (Use.regs .reg f.d.toNat) →
      let v := fun l => match a l with
        | .nan _ => D l
        | .inf neg => if neg then D l else 0x7FFFFFFF#32
        | .fin neg m e =>
          BitVec.ofInt 32 (max (D l).toInt (min (max (⌈(if neg then -1 else 1) * (m : ℚ) * 2 ^ e⌉) (-2147483648)) 2147483647))
      ∃ t, exec (.vmaxe f) s = .next t ∧
        LeavesResult s t c G [f.a.toNat] f.d.toNat (fun l => pushOf f.h (A l) 0 0) (fun l => [v l])
          (fun l => if (a l).isNan then [0x20] else []))

/-- The exact value of a finite decoded number. -/
def exactOf : FVal → Option ℚ
  | .fin neg m e => some ((if neg then -1 else 1) * (m : ℚ) * 2 ^ e)
  | _ => none

/-- R73: an exact value is rounded to the value of the format that its mode names: the nearest for RNE, with the even fraction
on a tie; the next one towards zero, down or up for the others; where the rounded magnitude is above the largest finite value
the result is the infinity or the largest finite value that the mode gives, with FP_OVERFLOW. R112 to R114, R73: a sum, product
or multiply-add of finite operands is formed exactly and rounded once; a zero sum of unlike signs is -0 under RDN and else +0.
-/
def Obligations.RoundingFollowsItsMode : Prop :=
  (∀ x ∈ [fp64, fp32, bf16, fp16, e5m2], ∀ (rm : Nat) (neg : Bool) (m : Nat) (e : Int), rm < 4 → m ≠ 0 →
     let q : ℚ := (if neg then -1 else 1) * (m : ℚ) * 2 ^ e
     let r := x.encode rm (.fin neg m e)
     (∀ v, exactOf (x.decode r.bits) = some v → fpOverflow ∉ r.causes →
       (∀ w u, exactOf (x.decode w) = some u →
         (rm = 0 → |v - q| ≤ |u - q| ∧ (|v - q| = |u - q| → v ≠ u → r.bits % 2 = 0)) ∧
         (rm = 1 → |v| ≤ |q| ∧ (|u| ≤ |q| → |u| ≤ |v|)) ∧
         (rm = 2 → v ≤ q ∧ (u ≤ q → u ≤ v)) ∧
         (rm = 3 → q ≤ v ∧ (q ≤ u → v ≤ u)))) ∧
     (fpOverflow ∈ r.causes →
       (∀ w u, exactOf (x.decode w) = some u → |u| < |q|) ∧
       r.bits = (if neg then 2 ^ (x.e + x.f) else 0) +
         (if rm = 0 ∨ (rm = 2 ∧ neg) ∨ (rm = 3 ∧ !neg) then (2 ^ x.e - 1) * 2 ^ x.f else (2 ^ x.e - 1) * 2 ^ x.f - 1)) ∧
     (fpOverflow ∉ r.causes → (exactOf (x.decode r.bits)).isSome)) ∧
  (∀ x ∈ [fp64, fp32, bf16, fp16], ∀ (rm : Nat) (a b d : FVal) (p q u : ℚ),
     exactOf a = some p → exactOf b = some q → exactOf d = some u →
     (∀ (neg : Bool) (m : Nat) (e : Int), (if neg then -1 else 1) * (m : ℚ) * 2 ^ e = p + q → p + q ≠ 0 → x.add rm a b = x.encode rm (.fin neg m e)) ∧
     (∀ (neg : Bool) (m : Nat) (e : Int), (if neg then -1 else 1) * (m : ℚ) * 2 ^ e = p * q → p * q ≠ 0 → x.mul rm a b = x.encode rm (.fin neg m e)) ∧
     (∀ (neg : Bool) (m : Nat) (e : Int), (if neg then -1 else 1) * (m : ℚ) * 2 ^ e = p * q + u → p * q + u ≠ 0 →
       x.fma rm a b d = x.encode rm (.fin neg m e)) ∧
     (p + q = 0 → p ≠ 0 → x.add rm a b = ⟨if rm = 2 then 2 ^ (x.e + x.f) else 0, []⟩))

/-- R112, R115, R116: NaN operands give the canonical NaN, opposite infinities and zero times infinity are invalid, minimum and
maximum prefer the number and order the zeros, compares with NaN are false. -/
def Obligations.FloatSpecialValuesFollowTheRules : Prop :=
  ∀ x ∈ [fp64, fp32, bf16, fp16], ∀ (rm : Nat) (a b d : FVal),
    (a.isNan ∨ b.isNan →
      (x.add rm a b).bits = x.nan ∧ (x.mul rm a b).bits = x.nan ∧ (x.fma rm a b d).bits = x.nan ∧
      (fpInvalid ∈ (x.add rm a b).causes ↔ a.isSig ∨ b.isSig) ∧
      (∀ quiet test, (fcompare quiet test a b).1 = false ∧
        (fpInvalid ∈ (fcompare quiet test a b).2 ↔ quiet = false ∨ a.isSig ∨ b.isSig))) ∧
    (∀ n, a = .inf n → b = .inf (!n) → x.add rm a b = ⟨x.nan, [fpInvalid]⟩) ∧
    (∀ n k e, (a = .inf n ∧ b = .fin k 0 e) ∨ (b = .inf n ∧ a = .fin k 0 e) →
      x.mul rm a b = ⟨x.nan, [fpInvalid]⟩ ∧ x.fma rm a b d = ⟨x.nan, [fpInvalid]⟩) ∧
    (∀ larger, a.isNan → b.isNan = false → (x.minMax larger a b).bits = (x.encode 0 b).bits ∧
      (x.minMax larger b a).bits = (x.encode 0 b).bits) ∧
    (∀ larger, a.isNan → b.isNan → (x.minMax larger a b).bits = x.nan) ∧
    (∀ n e g, (x.minMax false (.fin n 0 e) (.fin (!n) 0 g)).bits = 2 ^ (x.e + x.f) ∧
      (x.minMax true (.fin n 0 e) (.fin (!n) 0 g)).bits = 0)

/-! ## Branches, jumps, hints -/

/-- R98, R99, Table 4.4: a branch whose condition holds goes to its packet plus the offset, at word 0; one whose condition does
not hold goes on. It changes no register and pushes nothing. R98, R100, R101: the jumps always go to their target; JAL leaves
the next packet's index in v31 and JALR in D, which it writes after it has read A. -/
def Obligations.BranchesAndJumpsGoToTheirTarget : Prop :=
  (∀ (f : FmtBr) (s : State) (c : IssueCtx) (G : Gang),
     let target := some (c.pc + f.off.signExtend 32, 0)
     (∀ p ∈ ([(.beqz, fun a => a = 0), (.bnez, fun a => a ≠ 0), (.bltz, fun a => a.toInt < 0), (.bgez, fun a => 0 ≤ a.toInt),
         (.blez, fun a => a.toInt ≤ 0), (.bgtz, fun a => 0 < a.toInt)] : List ((FmtBr → Instr) × (Word → Prop))),
       Ready s c G [f.a.toNat] (Use.regs .reg f.a.toNat) [] → Roomy c G →
       ∃ t, exec (p.1 f) s = .next t ∧ Completed s t c G [] [] noCauses fun l old new =>
         new.regs = old.regs ∧
         (p.2 (operand c G l [] f.a.toNat) → Onward c [f.a.toNat] none target old new) ∧
         (¬p.2 (operand c G l [] f.a.toNat) → Onward c [f.a.toNat] none old.jump old new)) ∧
     (∀ p ∈ ([(.bnez64, fun a => a ≠ 0), (.beqz64, fun a => a = 0)] : List ((FmtBr → Instr) × (DWord → Prop))),
       Ready s c G [] (Use.regs .pair f.a.toNat) [] → Roomy c G →
       ∃ t, exec (p.1 f) s = .next t ∧ Completed s t c G [] [] noCauses fun l old new =>
         new.regs = old.regs ∧
         (p.2 (operandPair c G l f.a.toNat) → Onward c [] none target old new) ∧
         (¬p.2 (operandPair c G l f.a.toNat) → Onward c [] none old.jump old new))) ∧
  (∀ (s : State) (c : IssueCtx) (G : Gang),
     (∀ f : FmtJ, Ready s c G [] [] [] →
       ∃ t, exec (.jmp f) s = .next t ∧ Completed s t c G [] [] noCauses fun _ old new =>
         Onward c [] none (some (c.pc + f.off.signExtend 32, 0)) old new ∧ new.regs = old.regs) ∧
     (∀ f : FmtJ, Ready s c G [] [] [31] →
       ∃ t, exec (.jal f) s = .next t ∧ Completed s t c G [31] [] noCauses fun _ old new =>
         Onward c [] none (some (c.pc + f.off.signExtend 32, 0)) old new ∧ WroteReg old new 31 (c.pc + 1)) ∧
     (∀ f : FmtA, Ready s c G [f.a.toNat] (Use.regs .reg f.a.toNat) [] →
       let A := fun l => operand c G l [] f.a.toNat
       ∃ t, exec (.jr f) s = .next t ∧ Completed s t c G [] [] noCauses fun l old new =>
         Onward c [f.a.toNat] (pushOf f.h (A l) 0 0) (some (A l, 0)) old new ∧ new.regs = old.regs) ∧
     (∀ f : FmtA, Ready s c G [f.a.toNat] (Use.regs .reg f.a.toNat) (Use.regs .reg f.d.toNat) →
       let A := fun l => operand c G l [] f.a.toNat
       ∃ t, exec (.jalr f) s = .next t ∧ Completed s t c G (Use.regs .reg f.d.toNat) [] noCauses fun l old new =>
         Onward c [f.a.toNat] (pushOf f.h (A l) 0 (c.pc + 1)) (some (A l, 0)) old new ∧
           WroteReg old new f.d.toNat (c.pc + 1)))

/-! ## SYS words -/

/-- R35, R36, R107, R240: SREAD writes the special register that its literal numbers; a number that is not assigned reads zero;
reading CLOCKLO keeps the high half, which CLOCKHI then reads. R35, R37, R107, R240: SWRITE writes FPC's bits [5:0], TRAPVEC or
TRAPSCR; a write of any other number is ignored. It may not issue in a region (Table 9.1). -/
def Obligations.SpecialRegistersAreReadAndWritten : Prop :=
  (∀ (f : FmtA) (s : State) (c : IssueCtx) (G : Gang) (sp : Spawn),
     Ready s c G [] [] (Use.regs .reg f.d.toNat) → s.spawns.find? (viewOf c G).spawn = some sp →
     let V := viewOf c G
     let n := f.b.toNat
     let value := fun l =>
       let T := V.thread l
       let num := BitVec.ofNat 32
       (match n with
       | 0 => num (V.index * V.width + l) | 1 => num l | 2 => num V.width | 3 => num V.index
       | 4 => num (c.gang / 64 / 8) | 5 => num (c.gang / 64 / 8 / 8) | 6 => num (c.gang / 64 / 8 / 96)
       | 7 => num s.podIndex | 8 => num (s.teamId V.team) | 9 => num sp.record.threads
       | 10 => loOf s.clk | 11 => T.clockHi.getD (hiOf s.clk) | 12 => T.fpc | 13 => num sp.rung | 14 => T.axStatus
       | 15 => T.trapcause | 16 => T.trappc | 17 => T.trapLo | 18 => T.trapHi | 19 => (if V.xblk then 1 else 0)
       | 20 => sp.id | 21 => num V.prio | 22 => T.trapvec | 23 => num sp.record.fairTime | 24 => num (sp.record.flags % 256)
       | 25 => num (T.resumePos + if T.handler then 256 else 0) | 26 => T.trapscr | 27 => V.replays | _ => 0 : Word)
     ∃ t, exec (.sread f) s = .next t ∧ Completed s t c G (Use.regs .reg f.d.toNat) [] noCauses fun l old new =>
       Onward c [] (pushOf f.h 0 0 (value l)) old.jump
           (if n = 10 then { old with clockHi := some (hiOf s.clk) } else old) new ∧
         WroteReg old new f.d.toNat (value l)) ∧
  (∀ (f : FmtA) (s : State) (c : IssueCtx) (G : Gang),
     Ready s c G [f.a.toNat] (Use.regs .reg f.a.toNat) [] → Outside c G →
     let A := fun l => operand c G l [] f.a.toNat
     let n := f.b.toNat
     ∃ t, exec (.swrite f) s = .next t ∧ Completed s t c G [] [] noCauses fun l old new =>
       Onward c [f.a.toNat] (pushOf f.h (A l) 0 0) old.jump
           { old with
             fpc := if n = 12 then A l &&& 0x3F else old.fpc
             trapvec := if n = 22 then A l else old.trapvec
             trapscr := if n = 26 then A l else old.trapscr } new ∧
         new.regs = old.regs)

/-- R53, R103, R156, R161: NOP and the reserved hints change nothing; CPOL keeps the cache policy of the thread's next memory
word, codes from 4 on acting as 0; PRIO sets the gang's issue preference, the highest lane's standing. R29, R108: YIELD sets the
yield mark of its threads, and the broadcast may move after the chain. That of several
lanes the highest stands is the model's reading (log 80). -/
def Obligations.HintsAndYieldChangeNothingElse : Prop :=
  (∀ (s : State) (c : IssueCtx) (G : Gang), Ready s c G [] [] [] →
     (∀ f : FmtA, ∃ t, exec (.nop f) s = .next t ∧ Completed s t c G [] [] noCauses fun _ old new =>
       Onward c [] none old.jump old new ∧ new.regs = old.regs) ∧
     (∀ f : FmtHint, ∃ t, exec (.hintRegionNop f) s = .next t ∧ Completed s t c G [] [] noCauses fun _ old new =>
       Onward c [] none old.jump old new ∧ new.regs = old.regs) ∧
     (∀ f : FmtCpol, ∃ t, exec (.cpol f) s = .next t ∧ Completed s t c G [] [] noCauses fun _ old new =>
       Onward c [] none old.jump { old with cpol := if f.b.toNat % 8 < 4 then f.b.toNat % 8 else 0 } new ∧
         new.regs = old.regs) ∧
     (∀ f : FmtI, ∀ top, inLanes c.lanes top = true → (∀ l, inLanes c.lanes l = true → l ≤ top) →
       (∀ m, G.prefBy = some m → m ≤ top) →
       ∃ t, exec (.prio f) s = .next t ∧ Completed s t c G [] [] noCauses (fun _ old new =>
         Onward c [] none old.jump old new ∧ new.regs = old.regs)
         (fun G => { G with pref := f.imm.toNat % 4, prefBy := some top }))) ∧
  (∀ (f : FmtA) (s : State) (c : IssueCtx) (G : Gang), Ready s c G [] [] [] →
     ∃ t, exec (.yield f) s = .next t ∧ Completed s t c G [] [] noCauses (fun _ old new =>
       Onward c [] none old.jump { old with yielded := true } new ∧ new.regs = old.regs)
       (fun G => { G with yieldNow := true }))

/-- R34, R104: EXIT of threads with nothing outstanding and no cause to be recorded ends them after their chain: they are no
longer live, their queue entries are discarded, their bits leave the masks at the end of the cycle, their watches are freed.
R22, R34: EXIT waits for the results that its thread had outstanding before its chain, and for the causes still to be recorded, those of
its gang's matrix instructions among them. -/
def Obligations.ExitEndsTheThreadOnceItsResultsAreThere : Prop :=
  (∀ (f : FmtA) (s : State) (c : IssueCtx) (G : Gang), Ready s c G [] [] [] → c.rest = 0 →
     (∀ l, inLanes c.lanes l = true →
       s.outstandingL c.gang l = false ∧ s.outstandingQ c.gang l = false ∧ s.causesOpen c.gang l = false) →
     ∃ t G', exec (.exit f) s = .next t ∧
       t = { s with
         gangs := t.gangs
         watches := s.watches.filter fun w => !(w.gang == c.gang && inLanes c.lanes w.lane) } ∧
       (∀ g, g ≠ c.gang → t.gangs.find? g = s.gangs.find? g) ∧ t.gangs.find? c.gang = some G' ∧
       G' = { G with threads := G'.threads, maskOps := G.maskOps ++ (laneList c.lanes).map fun l => (l, .exit) } ∧
       (∀ l, inLanes c.lanes l = false → t.thread c.gang l = G.thread l) ∧
       ∀ l, inLanes c.lanes l = true →
         (t.thread c.gang l).live = false ∧ (t.thread c.gang l).queues = [[], [], [], []] ∧
         (t.thread c.gang l).region = none ∧ (t.thread c.gang l).wait = none ∧ (t.thread c.gang l).regs = (G.thread l).regs) ∧
  (∀ (f : FmtA) (s : State) (c : IssueCtx) (G : Gang), Ready s c G [] [] [] → Idle c G →
     let before := s.beforeSn c.since
     (∀ l, inLanes c.lanes l = true →
       before.outstandingL c.gang l = true ∨ before.outstandingQ c.gang l = true ∨ before.causesOpen c.gang l = true) →
     ∃ t, exec (.exit f) s = .next t ∧ Waits s t c G fun _ => .exit) ∧
  (∀ (s : State) (g l : Nat) (o : MatOp), o ∈ s.matOps → o.gang = g → o.mayLog = true → inLanes o.lanes l = true →
     s.causesOpen g l = true)

/-- R105, R237, R238: TRAP and BRK, last in their chain, enter the handler in each of their lanes once nothing of theirs is
outstanding: the cause is 0x10 or 0x11, the resume point is the packet that the thread would enter next, at word 0, and the trap
address is the literal and the word's position. R106, R231, R239: ERET in handler mode clears it and resumes at the resume
point, the word position included; elsewhere it does nothing. R54, R231, R237, R238: an illegal word that stands alone enters
the handler in each of its lanes with the cause ILLEGAL_OPCODE, the word and its position as the address, and its own place as
the resume point; nothing else has changed. Chained, its cause is kept for the chain, and nothing else happens yet (R22). -/
def Obligations.TrapsEnterTheHandlerAndEretReturns : Prop :=
  (∀ p ∈ ([(.trap, 0x10), (.brk, 0x11)] : List ((FmtA → Instr) × Word)),
   ∀ (f : FmtA) (s : State) (c : IssueCtx) (G : Gang), Ready s c G [] [] [] → Outside c G → c.rest = 0 →
     (∀ l, inLanes c.lanes l = true → (G.thread l).handler = false ∧ (G.thread l).trapvec ≠ 0 ∧
       s.entryReady c.gang l = true) →
     ∃ t G', exec (p.1 f) s = .next t ∧
       t = { s with gangs := t.gangs, l1 := (s.invalidateL1 (coreOf c.gang)).l1 } ∧
       (∀ g, g ≠ c.gang → t.gangs.find? g = s.gangs.find? g) ∧ t.gangs.find? c.gang = some G' ∧
       G' = { G with threads := G'.threads } ∧
       (∀ l, inLanes c.lanes l = false → t.thread c.gang l = G.thread l) ∧
       ∀ l, inLanes c.lanes l = true → t.thread c.gang l =
         { G.thread l with
           trapcause := p.2, trappc := ((G.thread l).jump.getD (c.pc + 1, 0)).1, resumePos := 0
           trapLo := f.b.setWidth 32, trapHi := BitVec.ofNat 32 c.pos, handler := true
           pc := (G.thread l).trapvec, pos := 0, latch := [], park := false
           trap := none, wait := none, grant := none, fence := none, jump := none, issued := none, held := [] }) ∧
  (∀ (f : FmtA) (s : State) (c : IssueCtx) (G : Gang), Ready s c G [] [] [] →
     ∃ t, exec (.eret f) s = .next t ∧ Completed s t c G [] [] noCauses fun l old new =>
       new.regs = old.regs ∧
       (let T := (viewOf c G).thread l
        if T.handler then Onward c [] none (some (T.trappc, T.resumePos)) { old with handler := false } new
        else Onward c [] none old.jump old new)) ∧
  (∀ (w : Word) (s : State) (c : IssueCtx) (G : Gang), Issuing s c G → Outside c G →
     (c.chained = false →
       (∀ l, inLanes c.lanes l = true → (G.thread l).handler = false ∧ (G.thread l).trapvec ≠ 0 ∧
         s.entryReady c.gang l = true) →
       ∃ t G', exec (.illegalWord w) s = .next t ∧
         t = { s with
           gangs := t.gangs, l1 := (s.invalidateL1 (coreOf c.gang)).l1
           ctx := some { c with cause := some ⟨1, w, BitVec.ofNat 32 c.pos, c.lanes, 0⟩ } } ∧
         (∀ g, g ≠ c.gang → t.gangs.find? g = s.gangs.find? g) ∧ t.gangs.find? c.gang = some G' ∧
         G' = { G with threads := G'.threads } ∧
         (∀ l, inLanes c.lanes l = false → t.thread c.gang l = G.thread l) ∧
         ∀ l, inLanes c.lanes l = true → t.thread c.gang l =
           { G.thread l with
             trapcause := 1, trappc := c.pc, resumePos := c.first, trapLo := w, trapHi := BitVec.ofNat 32 c.pos
             handler := true, pc := (G.thread l).trapvec, pos := 0, latch := []
             trap := none, wait := none, grant := none, fence := none, jump := none, issued := none, held := [] }) ∧
     (c.chained = true →
       exec (.illegalWord w) s =
         .next { s with ctx := some { c with cause := some ⟨1, w, BitVec.ofNat 32 c.pos, c.lanes, 0⟩ } }))

/-- R237, R241: where a lane of the entering set is in handler mode or has no handler, no lane enters one: the spawn begins to
end with the cause as its status, and a fatal record is to be written. -/
def Obligations.ATrapInAHandlerEndsTheSpawn : Prop :=
  ∀ (w : Word) (s : State) (c : IssueCtx) (G : Gang) (sp : Spawn), Issuing s c G → Outside c G → c.chained = false →
    (∃ l, inLanes c.lanes l = true ∧ ((G.thread l).handler = true ∨ (G.thread l).trapvec = 0)) →
    s.spawns.find? G.spawn = some sp → sp.ending = none →
    ∃ t r, exec (.illegalWord w) s = .next t ∧
      t = { s with
        spawns := t.spawns, faults := s.faults ++ [r]
        ctx := some { c with cause := some ⟨1, w, BitVec.ofNat 32 c.pos, c.lanes, 0⟩ } } ∧
      (∀ k, t.spawns.find? k =
        if k = G.spawn then some { sp with ending := some 1, stopped := true } else s.spawns.find? k) ∧
      r.fatal = true ∧ r.cause = 1 ∧ r.pc = c.pc ∧ r.word = c.first ∧ r.lanes = c.lanes

/-! ## The extended block -/

/-- The registers of a thread with v32 to v55 zero. -/
def LowOnly (old new : Thread) : Prop := ∀ r, new.regs.get 0 r = if r < 32 then old.regs.get 0 r else 0

/-- R12, R13, R109: XACQ and XTRY acquire the block for the whole gang where the record allows it, there is room and no other gang waits
in XACQ: every lane's v32 to v55 then read zero. With the block already held XACQ changes nothing. XTRY writes 1 where the gang
then holds it. R12, R109: an XACQ that finds no room, or others waiting, waits in turn, and its whole chain with it; where the
record does not allow extended blocks it raises XBLOCK, here kept for its chain. R12, R109: XREL releases the block for the
whole gang: the contents of v32 to v55 are lost in every lane, those too that its chain still writes, and a result on its way to one of
them is discarded when it arrives, which the model says by sending it to the name 63, that discards. The name 63 is the model's way to
write the discard (log 79). -/
def Obligations.TheExtendedBlockIsAcquiredAndReleased : Prop :=
  (∀ (f : FmtA) (s : State) (c : IssueCtx) (G : Gang), c.pre = none → Outside c G →
     let tries := s.xAllowed G && s.xRoom c.gang G && !s.xWaiter c.gang
     let room := tries && !s.xacqQueue.contains c.gang
     (Ready s c G [] [] [] → s.xAllowed G = true → G.xblk = true →
       ∃ t, exec (.xacq f) s = .next t ∧ Completed s t c G [] [] noCauses fun _ old new =>
         ∃ held, Onward c [] none old.jump (resumed c [] old held) new ∧ new.regs = old.regs) ∧
     (Ready s c G [] [] [] → room = true → G.xblk = false →
       ∃ t G', exec (.xacq f) s = .next t ∧ t = { s with gangs := t.gangs } ∧
         t.gangs.find? c.gang = some G' ∧ G' = { G with threads := G'.threads, xblk := true } ∧
         (∀ g, g ≠ c.gang → t.gangs.find? g = s.gangs.find? g) ∧
         ∀ l, LowOnly (G.thread l) (G'.thread l) ∧
           (inLanes c.lanes l = true → ∃ held, Onward c [] none (G.thread l).jump (resumed c [] (G.thread l) held) (G'.thread l)) ∧
           (inLanes c.lanes l = false → G'.thread l = { G.thread l with regs := (G'.thread l).regs })) ∧
     (Ready s c G [] [] (Use.regs .reg f.d.toNat) → (G.xblk = true ∨ tries = false) →
       ∃ t, exec (.xtry f) s = .next t ∧
         Completed s t c G (Use.regs .reg f.d.toNat) [] noCauses fun _ old new =>
           Onward c [] none old.jump old new ∧ WroteReg old new f.d.toNat (if G.xblk then 1 else 0)) ∧
     (Ready s c G [] [] (Use.regs .reg f.d.toNat) → tries = true → G.xblk = false →
       ∃ t G', exec (.xtry f) s = .next t ∧
         t = { s with gangs := t.gangs, poison := cured s c (Use.regs .reg f.d.toNat) } ∧
         t.gangs.find? c.gang = some G' ∧ G' = { G with threads := G'.threads, xblk := true } ∧
         (∀ g, g ≠ c.gang → t.gangs.find? g = s.gangs.find? g) ∧
         (∀ l, inLanes c.lanes l = false →
           G'.thread l = { G.thread l with regs := (G'.thread l).regs } ∧ LowOnly (G.thread l) (G'.thread l)) ∧
         ∀ l, inLanes c.lanes l = true → Onward c [] none (G.thread l).jump (G.thread l) (G'.thread l) ∧
           ∀ r, (G'.thread l).regs.get 0 r =
             if r = f.d.toNat ∧ r ≠ 0 ∧ r < 56 then 1 else if r < 32 then (G.thread l).regs.get 0 r else 0)) ∧
  (∀ (f : FmtA) (s : State) (c : IssueCtx) (G : Gang), Ready s c G [] [] [] → Outside c G → c.pre = none →
     (s.xAllowed G = true → G.xblk = false →
       (s.xRoom c.gang G = false ∨ s.xWaiter c.gang = true ∨ c.gang ∈ s.xacqQueue) → Idle c G →
       ∃ t, exec (.xacq f) s = .next t ∧
         Waits { s with xacqQueue := if c.gang ∈ s.xacqQueue then s.xacqQueue else s.xacqQueue ++ [c.gang] } t c G fun _ => .xacq) ∧
     (s.xAllowed G = false → c.chained = true →
       exec (.xacq f) s = .next { s with ctx := some { c with cause := some ⟨7, 0, 0, c.lanes, 0⟩ } })) ∧
  (∀ (f : FmtA) (s : State) (c : IssueCtx) (G : Gang), Ready s c G [] [] [] → Outside c G → c.cause = none →
     ∃ t G', exec (.xrel f) s = .next t ∧
       t = { s with gangs := t.gangs, ctx := some { c with released := true } } ∧
       (∀ g, g ≠ c.gang → t.gangs.find? g = s.gangs.find? g) ∧
       t.gangs.find? c.gang = some G' ∧ G' = { G with threads := G'.threads, xblk := false } ∧
       ∀ l, LowOnly (G.thread l) (G'.thread l) ∧
         (inLanes c.lanes l = true → Onward c [] none (G.thread l).jump (G.thread l) (G'.thread l)) ∧
         (inLanes c.lanes l = false → G'.thread l = { G.thread l with regs := (G'.thread l).regs })) ∧
  (∀ (s : State) (before : Gang) (g : Nat) (x : Group) (c : IssueCtx), s.ctx = some c → c.released = true →
     let t := (s.endGroup before g x).1
     (∀ l r, 32 ≤ r → (t.thread g l).regs.get 0 r = 0) ∧
     (∀ p ∈ t.pending, p.gang = g → p.dest < 32 ∨ p.dest = 63) ∧ (∀ p ∈ t.posts, p.gang = g → p.dest < 32 ∨ p.dest = 63) ∧
     ∀ a ∈ t.accesses, a.gang = g → a.dest = a.dest.lowOnly)

/-! ## Memory words -/

/-- R129, R136: a load outside a region issues one access for each lane, of its size, at the base pair plus the scaled offset;
its result is outstanding, bound for the register, pair or quad that D names. R44, R137: LDA is a load that is an acquire at its
scope: the thread's later memory words wait until it has read, and from cluster scope on it invalidates the core's lines; it
forms its address from the base pair alone. R20, R138: LDQ reserves its entries at the tail of its queue, two for LDQ64, and
issues its loads into them. -/
def Obligations.LoadsIssueOneAccessALane : Prop :=
  (∀ p ∈ ([(.ld8, 1, .reg), (.ld8s, 1, .signed8), (.ld16, 2, .reg), (.ld16s, 2, .signed16), (.ld32, 4, .reg),
       (.ld64, 8, .pair), (.ld128, 16, .quad)] : List ((FmtM → Instr) × Nat × (Nat → Dest))),
   ∀ (f : FmtM) (s s1 : State) (c : IssueCtx) (G : Gang) (ps : List (Nat × DWord × Place')),
     Ready s c G [] (Use.regs .pair f.a.toNat) (p.2.2 f.d.toNat).regs → Outside c G →
     Reaches s s1 c G { r := true, size := p.2.1, kind := 0, load := true }
       (fun l => operandPair c G l f.a.toNat + BitVec.ofInt 64 (f.off.toInt * p.2.1)) ps →
     ∃ t, exec (p.1 f) s = .next t ∧
       Issued s s1 t c G
         (accessesOf ps fun l va k =>
           s.access c (viewOf c G).team l va k p.2.1 (.load false false) 0 (p.2.2 f.d.toNat) false false) []
         (fun _ old new => Onward c [] none old.jump { old with cpol := 0 } new ∧ new.regs = old.regs)) ∧
  (∀ p ∈ ([(.lda32, 4, .reg), (.lda64, 8, .pair)] : List ((FmtAcq → Instr) × Nat × (Nat → Dest))),
   ∀ (f : FmtAcq) (s s1 : State) (c : IssueCtx) (G : Gang) (ps : List (Nat × DWord × Place')),
     Ready s c G [] (Use.regs .pair f.a.toNat) (p.2.2 f.d.toNat).regs → Outside c G →
     Reaches s s1 c G { r := true, size := p.2.1, kind := 0, load := true } (fun l => operandPair c G l f.a.toNat) ps →
     ∃ t, exec (p.1 f) s = .next t ∧
       Issued s s1 t c G
         (accessesOf ps fun l va k =>
           { s.access c (viewOf c G).team l va k p.2.1 (.load true (decide (3 ≤ f.scope.toNat))) 0 (p.2.2 f.d.toNat) false false with
             rel := some (f.scope.toNat, 0) }) []
         (fun l old new =>
           Onward c [] none old.jump { old.addFence ⟨.lda, s.sn * 64 + l + 1, f.scope.toNat, false⟩ with cpol := 0 } new ∧
           new.regs = old.regs)) ∧
  (∀ p ∈ ([(.ldq8, 1, 0), (.ldq8s, 1, 1), (.ldq16, 2, 0), (.ldq16s, 2, 2), (.ldq32, 4, 0), (.ldq64, 8, 8)] :
       List ((FmtM → Instr) × Nat × Nat)),
   ∀ (f : FmtM) (s s1 : State) (c : IssueCtx) (G : Gang) (ps : List (Nat × DWord × Place')),
     let q := f.d.toNat % 4
     let n := if p.2.1 = 8 then 2 else 1
     Ready s c G [] (Use.regs .pair f.a.toNat) [] → Outside c G →
     (∀ l, inLanes c.lanes l = true → (nth [] (G.thread l).queues q).length + n ≤ 8) →
     Reaches s s1 c G { r := true, size := p.2.1, kind := 0, load := true }
       (fun l => operandPair c G l f.a.toNat + BitVec.ofInt 64 (f.off.toInt * p.2.1)) ps →
     ∃ t, exec (p.1 f) s = .next t ∧
       Issued s s1 t c G
         (accessesOf ps fun l va k =>
           s.access c (viewOf c G).team l va k p.2.1 (.load false false) 0 (.queue q p.2.2) false false) []
         (fun l old new =>
           Onward c [] none old.jump
             { withReserved old q (s.sn * 64 + l) n with cpol := 0, wait := if c.chained then old.wait else stallEnded old.wait } new ∧
           new.regs = old.regs))

/-- R129, R139, R140, R141: a store outside a region issues one buffered store for each lane, with the low bytes of its source,
a pair for 8 bytes and a quad for 16; STL is the same as a release at its scope, at the base pair alone. The data generations of the scratch
slots it writes advance (R190). -/
def Obligations.StoresIssueOneBufferedStoreALane : Prop :=
  ∀ (s s1 : State) (c : IssueCtx) (G : Gang) (ps : List (Nat × DWord × Place')),
    let issue := fun (i : Instr) (fields reads : List Nat) (size : Nat) (a : Nat → DWord) (data : Nat → Nat) (rel : Option Nat) =>
      Ready s c G fields reads [] → Outside c G →
      Reaches s s1 c G { w := true, size := size, kind := 1, store := true } a ps →
      (∀ e ∈ keysOf ps, s1.unitPoisoned e.2 = false) →
      let ranges := (keysOf ps).map fun e => (e.2, size)
      ∃ t, exec i s = .next t ∧
        Issued s s1 t c G
          (accessesOf ps fun l va k =>
            let a := s.access c (viewOf c G).team l va k size .store (data l) .none false (wholeUnit ranges (unitOf k))
            match rel with | some scope => a.releaseAt scope | none => a)
          (scratchSlots ps)
          (fun _ old new => Onward c fields none old.jump { old with cpol := 0 } new ∧ new.regs = old.regs)
    (∀ p ∈ ([(.st8, 1), (.st16, 2), (.st32, 4)] : List ((FmtM → Instr) × Nat)), ∀ f : FmtM,
      issue (p.1 f) [f.d.toNat] (Use.regs .pair f.a.toNat ++ Use.regs .reg f.d.toNat) p.2
        (fun l => operandPair c G l f.a.toNat + BitVec.ofInt 64 (f.off.toInt * p.2))
        (fun l => (operand c G l [] f.d.toNat).toNat % 2 ^ (8 * p.2)) none) ∧
    (∀ f : FmtM, issue (.st64 f) [] (Use.regs .pair f.a.toNat ++ Use.regs .pair f.d.toNat) 8
      (fun l => operandPair c G l f.a.toNat + BitVec.ofInt 64 (f.off.toInt * 8))
      (fun l => (operandPair c G l f.d.toNat).toNat) none) ∧
    (∀ f : FmtM, issue (.st128 f) [] (Use.regs .pair f.a.toNat ++ Use.regs .quad f.d.toNat) 16
      (fun l => operandPair c G l f.a.toNat + BitVec.ofInt 64 (f.off.toInt * 16))
      (fun l => (operandPair c G l (f.d.toNat / 4 * 4)).toNat +
        2 ^ 64 * if 56 ≤ f.d.toNat then 0 else (operandPair c G l (f.d.toNat / 4 * 4 + 2)).toNat) none) ∧
    (∀ f : FmtAcq, issue (.stl32 f) [f.d.toNat] (Use.regs .pair f.a.toNat ++ Use.regs .reg f.d.toNat) 4
      (fun l => operandPair c G l f.a.toNat) (fun l => (operand c G l [] f.d.toNat).toNat) (some f.scope.toNat)) ∧
    (∀ f : FmtAcq, issue (.stl64 f) [] (Use.regs .pair f.a.toNat ++ Use.regs .pair f.d.toNat) 8
      (fun l => operandPair c G l f.a.toNat) (fun l => (operandPair c G l f.d.toNat).toNat) (some f.scope.toNat))

/-- The atomics of Table 6.3 with their operations. -/
def atomForms : List ((FmtA → Instr) × (FmtA → Instr) × AtomOp) :=
  [(.atomAdd, .atomnAdd, .add), (.atomSub, .atomnSub, .sub), (.atomAnd, .atomnAnd, .and), (.atomOr, .atomnOr, .or),
   (.atomXor, .atomnXor, .xor), (.atomMin, .atomnMin, .min), (.atomMax, .atomnMax, .max), (.atomMinu, .atomnMinu, .minu),
   (.atomMaxu, .atomnMaxu, .maxu), (.atomXchg, .atomnXchg, .xchg), (.atomFadd, .atomnFadd, .fadd),
   (.atomFmin, .atomnFmin, .fmin), (.atomFmax, .atomnFmax, .fmax), (.atomAdd64, .atomnAdd64, .add64),
   (.atomXchg64, .atomnXchg64, .xchg64), (.atomBadd2, .atomnBadd2, .badd2)]

/-- R142, R18: ATOM and ATOMN on an address of this package issue one atomic access for each lane, with the operand read from B,
a pair for the 64-bit operations; ATOM's is bound for D and ATOMN's for nothing. H is ignored. R145: CAS issues one access for
each lane with the expected value, read from D at issue, and the new value from B; D receives the old value. -/
def Obligations.AtomicsIssueOneAccessALane : Prop :=
  (∀ p ∈ atomForms, ∀ (f : FmtA) (s s1 : State) (c : IssueCtx) (G : Gang) (ps : List (Nat × DWord × Place')),
     let wide := p.2.2 = .add64 ∨ p.2.2 = .xchg64
     let u : Use := if wide then .pair else .reg
     let fields := if wide then [] else [f.b.toNat]
     let size := if wide then 8 else 4
     let data := fun l => if wide then (operandPair c G l f.b.toNat).toNat else (operand c G l [] f.b.toNat).toNat
     let x : Target :=
       { remote := true, r := true, w := true, a := true, size := size, kind := 2, load := true, store := true }
     let issue := fun (i : Instr) (writes : List Nat) (dest : Dest) =>
       Ready s c G fields (Use.regs .pair f.a.toNat ++ u.regs f.b.toNat) writes → Outside c G →
       Reaches s s1 c G x (fun l => operandPair c G l f.a.toNat) ps →
       ∃ t, exec i s = .next t ∧
         Issued s s1 t c G
           (accessesOf ps fun l va k =>
             { s.access c (viewOf c G).team l va k size (.atom p.2.2) (data l) dest false false with operands := [data l] })
           (scratchSlots ps)
           (fun _ old new => Onward c fields none old.jump { old with cpol := 0 } new ∧ new.regs = old.regs)
     issue (p.1 f) (u.regs f.d.toNat) (if wide then .pair f.d.toNat else .reg f.d.toNat) ∧
     issue (p.2.1 f) [] .none) ∧
  (∀ p ∈ ([(.cas32, false), (.cas64, true)] : List ((FmtA → Instr) × Bool)),
   ∀ (f : FmtA) (s s1 : State) (c : IssueCtx) (G : Gang) (ps : List (Nat × DWord × Place')),
     let u : Use := if p.2 then .pair else .reg
     let fields := if p.2 then [] else [f.b.toNat]
     let size := if p.2 then 8 else 4
     let expected := fun l => if p.2 then operandPair c G l f.d.toNat else (operandD c G l f.d.toNat).setWidth 64
     let data := fun l => if p.2 then (operandPair c G l f.b.toNat).toNat else (operand c G l [] f.b.toNat).toNat
     Ready s c G fields (u.regs f.d.toNat ++ Use.regs .pair f.a.toNat ++ u.regs f.b.toNat) (u.regs f.d.toNat) → Outside c G →
     Reaches s s1 c G { r := true, w := true, a := true, size := size, kind := 2, load := true, store := true }
       (fun l => operandPair c G l f.a.toNat) ps →
     ∃ t, exec (p.1 f) s = .next t ∧
       Issued s s1 t c G
         (accessesOf ps fun l va k =>
           s.access c (viewOf c G).team l va k size (.cas (expected l) false) (data l)
             (if p.2 then .pair f.d.toNat else .reg f.d.toNat) false false) []
         (fun _ old new => Onward c fields none old.jump { old with cpol := 0 } new ∧ new.regs = old.regs))

/-- R129 to R132, Table 6.2: of an address, the space is judged first, then alignment, then, in scratch space, the window that
the team holds; a misaligned control or tensor address raises MISALIGNED before anything of its translation does. R22, R132,
R231: a memory word some of whose lanes raise a cause has none of its effect: here, chained, its cause is kept for the chain,
with the address of the lowest lane that raised the first cause in the order of Table 6.2. -/
def Obligations.AddressCausesComeInTheirOrder : Prop :=
  (∀ (s : State) (g l ctx : Nat) (G : Gang) (x : Target) (va : DWord),
     let p := (s.locate g l G ctx x va).1
     let space := va.toNat / 2 ^ 61
     (3 ≤ space → p = .cause 3 5) ∧
     (space = 2 → x.scratch = false → p = .cause 3 5) ∧
     (space = 1 → x.tensor = false → p = .cause 3 5) ∧
     (space = 0 → x.control = false → p = .cause 3 5) ∧
     (space = 2 → x.scratch = true → va.toNat % x.size ≠ 0 → p = .cause 4 4) ∧
     (space = 2 → x.scratch = true → va.toNat % x.size = 0 →
       s.scratchKey (clusterOf g) G.team (va.toNat % 2 ^ 20) = none → p = .cause 5 6) ∧
     (space = 0 → x.control = true → va.toNat % x.size ≠ 0 → p = .cause 4 4) ∧
     ((space = 0 ∨ space = 1) → p ≠ .cause 3 5 → va.toNat % x.size = 0 → (s.xlate ctx va).1 = .missing → p = .cause 6 2)) ∧
  (∀ p ∈ ([(.ld8, 1), (.ld16, 2), (.ld32, 4)] : List ((FmtM → Instr) × Nat)),
   ∀ (f : FmtM) (s s1 : State) (c : IssueCtx) (G : Gang) (ps : List (Nat × DWord × Place')) (k : Cause),
     Ready s c G [] (Use.regs .pair f.a.toNat) (Use.regs .reg f.d.toNat) → c.chained = true →
     s.locateAll c.gang (viewOf c G) (s.ctxOf c.gang) { r := true, size := p.2, kind := 0, load := true }
       ((laneList c.lanes).map fun l => (l, operandPair c G l f.a.toNat + BitVec.ofInt 64 (f.off.toInt * p.2))) = (ps, s1) →
     (Outside c G → s1.causeAmong c 0 ps = wordCause 0 ps) ∧
     (s1.causeAmong c 0 ps = some k →
       exec (p.1 f) s = .next { s1 with ctx := some { c with cause := some k } }) ∧
       s1 = { s with tlb := s1.tlb, zeroing := s1.zeroing, free := s1.free })

/-! ## Fences, POST, watches, prefetch -/

/-- R148, R149, Table 6.5: a fence completes at once and holds its thread's later memory words back until the accesses issued
before it, of its kind, are performed; once it is satisfied, FENCE and FENCE.ACQ from cluster scope on invalidate the core's lines. A
chain with a memory word that waits for a fence is not issued while the fence is not satisfied, unless a word of it raises a cause; a FENCE
narrower than the pod lets plain stores issue before the stores ahead of it are performed, which the acquires within its scope then wait for
(log 19). R137: an LDA's read is waited for in the same way. R149, R150, R325, R363: EFENCE waits while an engine operation that its
thread issued before its chain has not completed, a collective run's POST included; then D receives the first status that is not 0 of its
remote atomics, in issue order, and the statuses are discarded. -/
def Obligations.FencesHoldLaterWordsBack : Prop :=
  ((∀ p ∈ ([(.fence, .all, true), (.fenceAcq, .reads, true), (.fenceRel, .rel, false), (.tfence, .tfence, false),
       (.fenceSp, .scratch, false)] : List ((FmtA → Instr) × FenceKind × Bool)),
     ∀ (f : FmtA) (s : State) (c : IssueCtx) (G : Gang), Ready s c G [] [] [] → Outside c G →
       let scope := if p.2.1 = .scratch then 6 else f.b.toNat % 8
       ∃ t, exec (p.1 f) s = .next t ∧ Completed { s with sn := s.sn + 1 } t c G [] [] noCauses fun _ old new =>
         Onward c [] none old.jump (old.addFence ⟨p.2.1, s.sn * 64, scope, p.2.2 && decide (3 ≤ scope)⟩) new ∧
         new.regs = old.regs) ∧
   (∀ (t : Thread) (n : Fence), t.fence = none → t.addFence n = { t with fence := some n }) ∧
   (∀ (run : WordRun) (n : Nat) (c : IssueCtx) (ws : List (Nat × Word)) (s : State) (l : Nat) (f : Fence),
     (ws.any fun e => gatedWord e.2) = true → inLanes c.lanes l = true → (s.thread c.gang l).fence = some f →
     s.fenceOpen c.gang l f = false → (storesOnly ws && f.kind == .all && f.narrow) = false →
     (c.chained = false ∨ scanCause run c s ws = none) →
     runChain run (n + 1) c ws s = .next { s with ctx := some { c with blocked := c.lanes } }) ∧
   (∀ (s : State) (g l : Nat) (f : Fence) (a : Access), a ∈ s.accesses → a.gang = g → a.lane = l →
     (f.kind = .lda → a.sn + 1 = f.sn → s.fenceOpen g l f = false) ∧
     (a.sn < f.sn →
       (f.kind = .all ∨ ((f.kind = .rel ∨ f.kind = .tfence) ∧ (a.kind ≠ .store ∨ f.narrow = false)) ∨
         (f.kind = .tfence ∧ isTensorKey a.pa = true) ∨ (f.kind = .reads ∧ a.kind ≠ .store) ∨
         (f.kind = .scratch ∧ isScratchKey a.pa = true)) →
       s.fenceOpen g l f = false)) ∧
   (∀ (s : State) (g l : Nat) (lanes : DWord) (f : Fence), inLanes lanes l = true → (s.thread g l).fence = some f →
     s.fenceOpen g l f = true →
     ((s.endFences g lanes).thread g l).fence = none ∧
     (f.invalidate = true → (s.endFences g lanes).l1 = (s.invalidateL1 (coreOf g)).l1))) ∧
  (∀ (f : FmtA) (s : State) (c : IssueCtx) (G : Gang), Ready s c G [] [] (Use.regs .reg f.d.toNat) → Outside c G →
     let busy := fun l => s.engineBusy (s.spawnKey c.gang) (s.tid c.gang l) (c.since * 64)
     ((∀ l, inLanes c.lanes l = true → busy l = false ∧ answerOf c G l = none) →
       ∃ t, exec (.efence f) s = .next t ∧ Completed s t c G (Use.regs .reg f.d.toNat) [] noCauses fun _ old new =>
         ∃ held, Onward c [] none old.jump { resumed c [] old held with statuses := [] } new ∧
           WroteReg old new f.d.toNat (BitVec.ofNat 32 (firstStatus old.statuses))) ∧
     ((∀ l, inLanes c.lanes l = true → busy l = true) → Idle c G →
       ∃ t, exec (.efence f) s = .next t ∧ Waits s t c G fun _ => .efence s.sn)) ∧
  (∀ (s : State) (sp tid sn : Nat) (p : PostMsg), p ∈ s.posts → p.pa = s.runPort → p.sn < sn → p.of s sp tid = true →
     s.engineBusy sp tid sn = true)

/-- R152, R153, R303, R304: WATCH arms, for each lane that holds fewer than eight entries and whose slice has room, a free entry of the
slice with a token that no entry has had, evaluated at once once the lane's earlier accesses to the word are performed (R134); the token
goes to D, 0 where there is no entry. R154: WAITW answers 2 where its token names no entry
of the thread, and 1 once the entry is fired, which frees it and acts as an acquire; a lane that has been granted an answer
takes it; the others wait, with their limit. -/
def Obligations.WatchesAreArmedAndAwaited : Prop :=
  (∀ (f : FmtA) (s s1 : State) (c : IssueCtx) (G : Gang) (ps : List (Nat × DWord × Place')),
     Ready s c G [] (Use.regs .pair f.a.toNat ++ Use.regs .pair f.b.toNat) (Use.regs .reg f.d.toNat) → Outside c G →
     Reaches s s1 c G { scratch := false, r := true, size := 4, kind := 2 }
       (fun l => operandPair c G l f.a.toNat &&& ~~~3#64) ps →
     s.tokens.length + s.watches.length + 256 < 2 ^ 32 →
     (∀ e ∈ keysOf ps, ∀ a ∈ (s.beforeSn c.since).accesses, a.of c.gang e.1 = true → overlaps a.pa a.size e.2 4 = false) →
     ∃ (t : State) (new : List Watch) (tok : Nat → Word), exec (.watch f) s = .next t ∧
       s1 = { s with tlb := s1.tlb, zeroing := s1.zeroing, free := s1.free } ∧
       Completed { s1 with watches := s.watches ++ new, free := t.free, tokens := t.tokens, watchSeq := t.watchSeq } t c G
         (Use.regs .reg f.d.toNat) [] noCauses
         (fun l old new => Onward c [] none old.jump { old with cpol := 0 } new ∧ WroteReg old new f.d.toNat (tok l)) ∧
       (∀ w ∈ new, ∃ e ∈ keysOf ps, tok e.1 ≠ 0 ∧
         let A := operandPair c G e.1 f.a.toNat
         let B := operandPair c G e.1 f.b.toNat
         ∃ i n, i < 512 ∧
           let armed : Watch :=
             ⟨dieOf c.gang, watchSlice e.2, i, n, c.gang, e.1, tok e.1, e.2, A.toNat % 4, loOf B, hiOf B, false, false⟩
           (∀ x ∈ s.watches, x.die = dieOf c.gang → x.slice = watchSlice e.2 → x.entry ≠ i) ∧
           w = if s.accesses.any fun a => a.of c.gang e.1 && overlaps a.pa a.size e.2 4 then armed
             else armed.eval (BitVec.ofNat 32 (s.mem.num e.2 4))) ∧
       ∀ e ∈ keysOf ps,
         (tok e.1 ≠ 0 → (∃ w ∈ new, w.lane = e.1) ∧ (∀ w ∈ s.watches, w.token ≠ tok e.1) ∧ tok e.1 ∉ s.tokens ∧
           ∀ e' ∈ keysOf ps, e'.1 ≠ e.1 → tok e'.1 ≠ tok e.1) ∧
         (8 ≤ (s.watches.filter fun w => w.gang == c.gang && w.lane == e.1).length → tok e.1 = 0) ∧
         ((s.watches.filter fun w => w.gang == c.gang && w.lane == e.1).length < 8 →
           (s.watches.filter fun w => w.die == dieOf c.gang && w.slice == watchSlice e.2).length + 64 ≤ 512 → tok e.1 ≠ 0)) ∧
  (∀ (f : FmtA) (s : State) (c : IssueCtx) (G : Gang),
     Ready s c G [f.a.toNat, f.b.toNat] (Use.regs .reg f.a.toNat ++ Use.regs .reg f.b.toNat) (Use.regs .reg f.d.toNat) →
     Outside c G →
     let A := fun l => operand c G l [] f.a.toNat
     let B := fun l => operand c G l [f.a.toNat] f.b.toNat
     let fired := fun l => (answerOf c G l).isNone && (s.watchOf c.gang l (A l)).any (·.fired)
     let scope := fun l => if (s.watchOf c.gang l (A l)).any (isTensorKey ·.pa) then 5 else 6
     ((∀ l, inLanes c.lanes l = true →
         (answerOf c G l).isSome = true ∨ s.watchOf c.gang l (A l) = none ∨ fired l = true) →
       ∃ t, exec (.waitw f) s = .next t ∧
         Completed
           { s with watches := s.watches.filter fun w =>
               !(w.gang == c.gang && inLanes c.lanes w.lane && fired w.lane && w.token == A w.lane) }
           t c G (Use.regs .reg f.d.toNat) [] noCauses fun l old new => ∃ held,
             let on := resumed c [f.a.toNat, f.b.toNat] old held
             Onward c [f.a.toNat, f.b.toNat] none old.jump
               (if fired l then on.addFence ⟨.reads, s.sn * 64, scope l, true⟩ else on) new ∧
             WroteReg old new f.d.toNat
               (match answerOf c G l with | some v => loOf v | none => if fired l then 1 else 2)) ∧
     ((∀ l, inLanes c.lanes l = true → ∃ w, s.watchOf c.gang l (A l) = some w ∧ w.fired = false) → Idle c G →
       ∃ t, exec (.waitw f) s = .next t ∧ Waits s t c G fun l => .watch (A l) s.clk (B l)))

/-- R151: POST sends one record a lane, its sixteen registers from v16 or v32 on read now, little-endian; a literal other than
16 and 32 is an illegal word, here kept for its chain. R53, R155, R167: PREF changes nothing but its core's L1, and that only at
levels 0 and 2: a line there stays as it is or makes room for another, and a tensor line that it brings in holds the bytes of memory. Which
line of a full set goes is the model's free choice (log 7). -/
def Obligations.PostsAndPrefetchesLeave : Prop :=
  (∀ (f : FmtA) (s s1 : State) (c : IssueCtx) (G : Gang) (ps : List (Nat × DWord × Place')),
     let first := f.b.toNat
     let regs := (List.range 16).map (first + ·)
     (first = 16 ∨ first = 32 →
       Ready s c G [] (regs ++ Use.regs .pair f.a.toNat) (Use.regs .reg f.d.toNat) → Outside c G →
       Reaches s s1 c G { tensor := false, scratch := false, w := true, size := 64, kind := 1, port := true }
         (fun l => operandPair c G l f.a.toNat) ps →
       ∃ t, exec (.post f) s = .next t ∧
         t = { s1 with
           gangs := t.gangs, sn := s.sn + 1
           posts := s.posts ++ ps.filterMap fun e => match e.2.2 with
             | .at_ k _ _ => some ⟨s.sn * 64 + e.1, c.gang, e.1, (Dest.reg f.d.toNat).base, s.ctxOf c.gang, k,
                 regs.flatMap fun r => leBytes 4 (((viewOf c G).thread e.1).src r).toNat, none, (G.thread e.1).gate c⟩
             | _ => none } ∧
         s1 = { s with tlb := s1.tlb, zeroing := s1.zeroing, free := s1.free } ∧
         (∀ g, g ≠ c.gang → t.gangs.find? g = s.gangs.find? g) ∧
         (∀ l, inLanes c.lanes l = false → t.thread c.gang l = G.thread l) ∧
         ∀ l, inLanes c.lanes l = true →
           Onward c [] none (G.thread l).jump { G.thread l with cpol := 0 } (t.thread c.gang l) ∧
           (t.thread c.gang l).regs = (G.thread l).regs) ∧
     (first ≠ 16 → first ≠ 32 → Issuing s c G → c.chained = true →
       exec (.post f) s =
         .next { s with ctx := some { c with cause := some ⟨1, f.toWord 0x1E 0, BitVec.ofNat 32 c.pos, c.lanes, 0⟩ } })) ∧
  (∀ (f : FmtPref) (s : State) (c : IssueCtx) (G : Gang), Ready s c G [] [] [] →
     ∃ t, exec (.pref f) s = .next t ∧
       Completed { s with l1 := t.l1, free := t.free } t c G [] [] noCauses
         (fun _ old new => Onward c [] none old.jump old new ∧ new.regs = old.regs) ∧
       (f.l.toNat = 1 ∨ f.l.toNat = 3 → t.l1 = s.l1 ∧ t.free = s.free) ∧
       ∀ key, t.l1.find? key = s.l1.find? key ∨ t.l1.find? key = none ∨
         ∃ pa, isScratchKey pa = false ∧ key = s.lineKey (coreOf c.gang) pa ∧
           t.l1.find? key = some (if isTensorKey pa then s.mem.read (pa / 128 * 128) 128 else []))

/-! ## Words across the lanes of a gang -/

/-- The cross-lane words of format G with their codes, whether they read A, and whether their result is a pair. -/
def crossForms : List ((FmtG → Instr) × Nat × Bool × Bool) :=
  [(.redadd, 16, true, false), (.redmin, 17, true, false), (.redmax, 18, true, false), (.redminu, 19, true, false),
   (.redmaxu, 20, true, false), (.redand, 21, true, false), (.redor, 22, true, false), (.redxor, 23, true, false),
   (.scanadd, 24, true, false), (.scanaddx, 25, true, false), (.redfadd, 26, true, false), (.lany, 32, true, false),
   (.lall, 33, true, false), (.lmap, 34, true, true), (.lpeer, 35, true, true), (.lfirst, 36, false, false),
   (.lcount, 37, true, false)]

/-- R168, R169, R174 to R177: a cross-lane word completes in a lane that is outside its mask, with itself as the only
participant, or that has been granted its result; REDFADD logs the causes of its sum under each lane's own FPC. A lane in the
mask arrives, with the operands it has read, and waits. R168, R174, R175, R177, Tables 7.3 to 7.5: the results of the cross-lane
words among the participants, LXCH by source lane, XRED and XVOTE by what they compute; and a rendezvous at which every member
of its mask has arrived grants each the result of its own word. How a lane
waits and is granted its result is the model's form of blocking (log 12). -/
def Obligations.CrossLaneWordsMeetAtTheirMask : Prop :=
  (∀ (s : State) (c : IssueCtx) (G : Gang),
     let V := viewOf c G
     (∀ p ∈ crossForms, ∀ f : FmtG,
       let fields := if p.2.2.1 then [f.a.toNat] else []
       let A := fun l => if p.2.2.1 then operand c G l [] f.a.toNat else 0
       let u : Use := if p.2.2.2 then .pair else .reg
       let res := fun l => (answerOf c G l).getD (crossResult p.2.1 V.width [⟨l, A l, 0⟩] ⟨l, A l, 0⟩)
       Ready s c G fields (if p.2.2.1 then Use.regs .reg f.a.toNat else []) (u.regs f.d.toNat) →
       ((∀ l, inLanes c.lanes l = true →
           (answerOf c G l).isSome = true ∨ inLanes (V.mask f.m.toNat) l = false) →
         ∃ t, exec (p.1 f) s = .next t ∧
           Completed s t c G (u.regs f.d.toNat) []
             (fun l => if p.2.1 = 26 then crossCauses (V.thread l) (res l) else [])
             (fun l old new => ∃ held,
               Onward c fields (pushOf f.h (A l) 0 (loOf (res l))) old.jump (resumed c fields old held) new ∧
               (if p.2.2.2 then WrotePair old new f.d.toNat (res l) else WroteReg old new f.d.toNat (loOf (res l))))) ∧
       ((∀ l, inLanes c.lanes l = true → inLanes (V.mask f.m.toNat) l = true) → Idle c G →
         ∃ t, exec (p.1 f) s = .next t ∧
           Waits s t c G fun l => .rendezvous (maskNo f.m.toNat) c.pc c.pos p.2.1 (A l) 0)) ∧
     (∀ p ∈ ([(.lxchPick, 0), (.lxchRot, 1), (.lxchStep, 2), (.lxchRefl, 3)] : List ((FmtX → Instr) × Nat)), ∀ f : FmtX,
       let fields := [f.a.toNat, f.b.toNat]
       let A := fun l => operand c G l [] f.a.toNat
       let B := fun l => operand c G l [f.a.toNat] f.b.toNat
       Ready s c G fields (Use.regs .reg f.a.toNat ++ Use.regs .reg f.b.toNat) (Use.regs .reg f.d.toNat) →
       ((∀ l, inLanes c.lanes l = true →
           (answerOf c G l).isSome = true ∨ inLanes (V.mask f.m.toNat) l = false) →
         ∃ t, exec (p.1 f) s = .next t ∧ Completed s t c G (Use.regs .reg f.d.toNat) [] noCauses
           (fun l old new => ∃ held, Onward c fields none old.jump (resumed c fields old held) new ∧
             WroteReg old new f.d.toNat (match answerOf c G l with | some v => loOf v | none => A l))) ∧
       ((∀ l, inLanes c.lanes l = true → inLanes (V.mask f.m.toNat) l = true) → Idle c G →
         ∃ t, exec (p.1 f) s = .next t ∧
           Waits s t c G fun l => .rendezvous (maskNo f.m.toNat) c.pc c.pos p.2 (A l) (B l)))) ∧
  ((∀ (width : Nat) (ps : List Party) (p : Party), p ∈ ps → ps.Pairwise (fun a b => a.lane < b.lane) →
       (∀ q ∈ ps, q.lane < width) → 0 < width → width ≤ 64 →
     let word := fun code => loOf (crossResult code width ps p)
     let from' := fun code (i : Int) =>
       (∀ q ∈ ps, (q.lane : Int) = i → word code = q.a) ∧ ((∀ q ∈ ps, (q.lane : Int) ≠ i) → word code = p.a)
     from' 0 p.b.toNat ∧ from' 1 ((p.lane + p.b.toNat) % width : Nat) ∧ from' 2 (p.lane + p.b.toInt) ∧
     from' 3 (p.lane ^^^ p.b.toNat : Nat) ∧
     word 16 = (ps.map (·.a)).sum ∧
     ((∃ q ∈ ps, word 17 = q.a) ∧ ∀ q ∈ ps, (word 17).toInt ≤ q.a.toInt) ∧
     ((∃ q ∈ ps, word 18 = q.a) ∧ ∀ q ∈ ps, q.a.toInt ≤ (word 18).toInt) ∧
     ((∃ q ∈ ps, word 19 = q.a) ∧ ∀ q ∈ ps, (word 19).toNat ≤ q.a.toNat) ∧
     ((∃ q ∈ ps, word 20 = q.a) ∧ ∀ q ∈ ps, q.a.toNat ≤ (word 20).toNat) ∧
     (∀ i < 32, (word 21).getLsbD i = ps.all fun q => q.a.getLsbD i) ∧
     (∀ i < 32, (word 22).getLsbD i = ps.any fun q => q.a.getLsbD i) ∧
     (∀ i < 32, (word 23).getLsbD i = ((ps.filter fun q => q.a.getLsbD i).length % 2 == 1)) ∧
     word 24 = ((ps.filter fun q => q.lane ≤ p.lane).map (·.a)).sum ∧
     word 25 = ((ps.filter fun q => q.lane < p.lane).map (·.a)).sum ∧
     word 32 = (if ∃ q ∈ ps, q.a ≠ 0 then 1 else 0) ∧ word 33 = (if ∀ q ∈ ps, q.a ≠ 0 then 1 else 0) ∧
     (∀ l, inLanes (crossResult 34 width ps p) l = ps.any fun q => q.lane == l && q.a != 0) ∧
     (∀ l, inLanes (crossResult 35 width ps p) l = ps.any fun q => q.lane == l && q.a == p.a) ∧
     word 36 = (if ∀ q ∈ ps, p.lane ≤ q.lane then 1 else 0) ∧
     (word 37).toNat = (ps.filter fun q => q.a != 0).length) ∧
   (∀ (G : Gang) (late : DWord) (l m pos op : Nat) (pc a b : Word), (G.thread l).wait = some (.rendezvous m pc pos op a b) →
     (G.thread l).grant = none → (∀ k, inLanes (G.mask m) k = true → k < G.width ∧ k < 64 ∧ k < G.threads.length ∧
       ∃ o x y, (G.thread k).wait = some (.rendezvous m pc pos o x y) ∧ (G.thread k).grant = none) →
     laneSet ((G.parties m pc pos).map (·.lane)) &&& late = 0 →
     ∀ k o x y, inLanes (G.mask m) k = true → (G.thread k).wait = some (.rendezvous m pc pos o x y) →
       (G.completeAt late l).thread k =
         { G.thread k with grant := some (crossResult o G.width (G.parties m pc pos) ⟨k, x, y⟩) }))

/-- R31, R32, R178, R179: the mask forms note their change, which takes effect at the end of the gang issue cycle, lane by lane;
m0 ignores writes and every mask stays within it. MGET reads a mask. WAITM completes in a lane whose bit is clear, or that has
been released; the others wait. -/
def Obligations.MaskFormsTakeEffectAtTheEndOfTheCycle : Prop :=
  (∀ (s : State) (c : IssueCtx) (G : Gang) (f : FmtG),
    let m := maskNo f.m.toNat
    let M := (viewOf c G).mask f.a.toNat
    let N := (viewOf c G).mask f.m.toNat
    let noted := fun (i : Instr) (push : Nat → Option Word) (op : Nat → MaskOp) =>
      ∃ t, exec i s = .next t ∧ Completed s t c G [] [] noCauses
        (fun l old new => Onward c [] (push l) old.jump old new ∧ new.regs = old.regs)
        (fun G => { G with maskOps := G.maskOps ++ (laneList c.lanes).map fun l => (l, op l) })
    (Ready s c G [] [] [] → Outside c G →
      noted (.join f) (fun _ => pushOf f.h 0 0 0) (fun _ => .setBit m) ∧
      noted (.leave f) (fun _ => pushOf f.h 0 0 0) (fun _ => .clearBit m) ∧
      noted (.mand f) (fun _ => pushOf f.h 0 0 0) (fun _ => .and_ m M) ∧
      noted (.mor f) (fun _ => pushOf f.h 0 0 0) (fun _ => .or_ m M) ∧
      noted (.mandn f) (fun _ => pushOf f.h 0 0 0) (fun _ => .andn m M) ∧
      noted (.mclr f) (fun _ => pushOf f.h 0 0 0) (fun _ => .clear m)) ∧
    (Ready s c G [] (Use.regs .pair f.a.toNat) [] → Outside c G →
      noted (.mset f) (fun l => pushOf f.h (loOf (operandPair c G l f.a.toNat)) 0 0)
        (fun l => .assign m (operandPair c G l f.a.toNat))) ∧
    (Ready s c G [] [] (Use.regs .pair f.d.toNat) →
      ∃ t, exec (.mget f) s = .next t ∧
        WritesPair s t c G [] f.d.toNat (fun _ => pushOf f.h 0 0 (loOf N)) (fun _ => N) noCauses) ∧
    (Ready s c G [] [] [] → Outside c G →
      ((∀ l, inLanes c.lanes l = true → (answerOf c G l).isSome = true ∨ inLanes N l = false) →
        ∃ t, exec (.waitm f) s = .next t ∧ Completed s t c G [] [] noCauses fun _ old new =>
          ∃ held, Onward c [] (pushOf f.h 0 0 0) old.jump (resumed c [] old held) new ∧ new.regs = old.regs) ∧
      ((∀ l, inLanes c.lanes l = true → inLanes N l = true) → Idle c G →
        ∃ t, exec (.waitm f) s = .next t ∧ Waits s t c G fun _ => .waitm m))) ∧
  (∀ (G : Gang) (l m : Nat) (v : DWord), G.masks.length = 12 → m < 12 →
    let after := fun op => (G.applyOp (l, op)).mask
    let within := fun (x : DWord) => if m = 0 then G.mask 0 else x &&& G.mask 0
    after (.setBit m) m = within (G.mask m ||| laneBit l) ∧ after (.clearBit m) m = within (G.mask m &&& ~~~laneBit l) ∧
    after (.assign m v) m = within v ∧ after (.and_ m v) m = within (G.mask m &&& v) ∧
    after (.or_ m v) m = within (G.mask m ||| v) ∧ after (.andn m v) m = within (G.mask m &&& ~~~v) ∧
    after (.clear m) m = within 0 ∧
    ∀ k < 12, k ≠ m → after (.assign m v) k = G.mask k)

/-! ## Regions -/

/-- R212, R213, R220, R226: AXB opens a region in each lane once there is room: an exclusive attempt where a lane has aborted
four times at this packet, which waits to be admitted. Its registers are those after its chain; the count starts anew at another
packet. R221, R222, R225: AXE outside a region answers 2; in one it asks the core's commit engine once its results have arrived,
and waits, and a lane that has been granted its answer takes it. AXS leaves the region status word, a class-L result. AXA has no
effect outside a region. R214, R222, R226, Table 9.1: AXA, and a word that may not issue in a region, abort the region of each
of their lanes: the registers of its snapshot are back, the cause, the code and the count are noted, the thread stands at its fallback,
parked while results are outstanding, which its snapshot overrides. AXE asks for the commit of its lanes, or waits for their results. -/
def Obligations.RegionsOpenAndEnd : Prop :=
  (∀ (f : FmtI) (s : State) (c : IssueCtx) (G : Gang), Ready s c G [] [] [] → Outside c G →
     let fresh := fun l => inLanes c.lanes l = true ∧ answerOf c G l = none
     let excl := fun l => (answerOf c G l).any (·.getLsbD 0)
     ((∃ l, fresh l) →
       (G.inRegions = true ∨ (s.regionRoom c.gang = true ∧ ∀ g ∈ s.axbQueue, coreOf g ≠ coreOf c.gang)) ∧
       ∀ l, fresh l → (G.thread l).countAt c.pc < 4) →
     ∃ t, exec (.axb f) s = .next t ∧
       Completed s t c G [] [] noCauses fun l old new => ∃ held,
         let r : Region :=
           { opened := c.pc, fallback := c.pc + f.imm.signExtend 32, snapshot := old.regs, exclusive := excl l
             fresh := decide (c.rest ≠ 0), born := (c.since, if c.rest = 0 then s.sn else c.since)
             loads := [], stores := [], constraints := [], marks := [] }
         let on := resumed c [] old held
         let counted := if old.axLast = some c.pc then on else { on with axCode := 0, axCount := 0, axCause := 0 }
         Onward c [] none old.jump { counted with axLast := some c.pc, region := some r } new ∧ new.regs = old.regs ∧
         new.region = some r) ∧
  (∀ (f : FmtI) (s : State) (c : IssueCtx) (G : Gang), Ready s c G [] [] [] → Outside c G → Idle c G →
     let full := G.inRegions = false ∧ (s.regionRoom c.gang = false ∨ ∃ g ∈ s.axbQueue, coreOf g = coreOf c.gang)
     ((∀ l, inLanes c.lanes l = true → (G.thread l).countAt c.pc < 4) → full →
       ∃ t, exec (.axb f) s = .next t ∧
         Waits { s with axbQueue := if c.gang ∈ s.axbQueue then s.axbQueue else s.axbQueue ++ [c.gang] } t c G
           fun _ => .axb s.cycle false) ∧
     ((∃ l, inLanes c.lanes l = true ∧ 4 ≤ (G.thread l).countAt c.pc) → ¬full →
       ∃ t, exec (.axb f) s = .next t ∧
         Waits { s with exclQueue := s.exclQueue ++ [(c.gang, s.cycle)] } t c G fun _ => .axb s.cycle true)) ∧
  (∀ (f : FmtA) (s : State) (c : IssueCtx) (G : Gang), Outside c G →
     (Ready s c G [] [] (Use.regs .reg f.d.toNat) →
       ∃ t, exec (.axe f) s = .next t ∧
         Completed s t c G (Use.regs .reg f.d.toNat) [] noCauses fun l old new =>
           let v := loOf ((answerOf c G l).getD 2)
           ∃ held, Onward c [] (pushOf f.h 0 0 v) old.jump (resumed c [] old held) new ∧ WroteReg old new f.d.toNat v) ∧
     (Ready s c G [] [] (Use.regs .reg f.d.toNat) →
       ∃ t, exec (.axs f) s = .next t ∧ LeavesResult s t c G [] f.d.toNat (fun _ => pushOf f.h 0 0 0)
         (fun l => [((viewOf c G).thread l).axStatus]) noCauses) ∧
     (Ready s c G [] [] [] →
       ∃ t, exec (.axa f) s = .next t ∧ Completed s t c G [] [] noCauses fun _ old new =>
         Onward c [] (pushOf f.h 0 0 0) old.jump old new ∧ new.regs = old.regs)) ∧
  (∀ (f : FmtA) (s : State) (c : IssueCtx) (G : Gang),
     (∀ l, inLanes c.lanes l = true → ∃ r, (G.thread l).region = some r ∧ r.fresh = false) →
     (Ready s c G [] [] [] →
      ∀ p ∈ ([(.axa, 5, f.b.toNat, 0), (.fence, 3, 0, 1), (.fenceAcq, 3, 0, 1), (.fenceRel, 3, 0, 1), (.fenceSp, 3, 0, 1),
         (.tfence, 3, 0, 1)] : List ((FmtA → Instr) × Nat × Nat × Nat)),
       let lost := fun (l sn : Nat) =>
         inLanes c.lanes l && (G.thread l).region.any fun r => !decide (r.born.1 * 64 ≤ sn ∧ sn < r.born.2 * 64)
       ∃ t, exec (p.1 f) s = .next t ∧
         t = { s with
           gangs := t.gangs, pending := t.pending, accesses := t.accesses, posts := t.posts, transfers := t.transfers
           sn := s.sn + p.2.2.2, ctx := some { c with lanes := 0 } } ∧
         t.pending = (s.pending.map fun x =>
           if x.gang = c.gang ∧ lost x.lane x.sn = true then { x with dest := 63, mark := none } else x) ∧
         t.accesses = (s.accesses.map fun a =>
           if a.gang = c.gang ∧ lost a.lane a.sn = true then { a with dest := a.dest.toNowhere } else a) ∧
         t.posts = (s.posts.map fun x => if x.gang = c.gang ∧ lost x.lane x.sn = true then { x with dest := 63 } else x) ∧
         (∀ g l, t.outstandingL g l = s.outstandingL g l) ∧
         (∀ g, g ≠ c.gang → t.gangs.find? g = s.gangs.find? g) ∧
         (∀ l, inLanes c.lanes l = false → t.thread c.gang l = G.thread l) ∧
         ∀ l, inLanes c.lanes l = true → ∀ r, (G.thread l).region = some r → t.thread c.gang l =
           { G.thread l with
             regs := r.snapshot, latch := [], region := none, axCause := p.2.1, axCode := p.2.2.1
             axCount := min 255 ((G.thread l).axCount + 1)
             pc := r.fallback, pos := 0, jump := none, wait := none, grant := none, park := s.outstandingL c.gang l
             fence := none, issued := none, held := [] }) ∧
     (Ready s c G [] [] (Use.regs .reg f.d.toNat) → Idle c G →
       ((∀ l, inLanes c.lanes l = true → s.outstandingL c.gang l = false) →
         (∀ r ∈ s.commits, r.gang = c.gang → r.lanes &&& c.lanes = 0) →
         ∃ t, exec (.axe f) s = .next t ∧
           Waits { s with commits := s.commits ++ [⟨coreOf c.gang, c.gang, c.lanes, none⟩] } t c G fun _ => .commit) ∧
       ((∃ l, inLanes c.lanes l = true ∧ s.outstandingL c.gang l = true) →
         ∃ t, exec (.axe f) s = .next t ∧ Waits s t c G fun _ => .axe)))

/-! ## Teams, barriers, synchronisation words, handles -/

/-- R251, R257 to R259: TNEW makes a team in a free entry of its cluster; TFREE dissolves a team that no gang is in; TJOIN moves
the gang into a team that has room; each answers its status in D. TLEAVE moves the gang to a fresh singleton. Of several free
entries the model leaves open which is taken. The free choice is the model's (log 7). -/
def Obligations.TeamsAreMadeJoinedAndLeft : Prop :=
  ∀ (f : FmtA) (s : State) (c : IssueCtx) (G : Gang), Outside c G → Idle c G →
    let A := fun l => operand c G l [] f.a.toNat
    let a := (A (lowestLane c.lanes)).toNat
    let cl := clusterOf c.gang
    let id := a % 65536
    let key := cl * 1024 + id % 1024
    let named := (s.team key).valid = true ∧ (s.team key).gen = id / 1024 % 64
    let mine := liveCount (s.gangs.filter fun e => e.1 == c.gang)
    let room := liveCount (s.members key) + mine ≤ (s.team key).cap ∧ (s.members key).length + 1 ≤ 2048
    let answers := fun (i : Instr) (v : Word) (s2 : State) =>
      ∃ t G2, exec i s = .next t ∧ s2.gangs.find? c.gang = some G2 ∧
        AnswersOnce s2 t c G2 [f.a.toNat] f.d.toNat (fun l => pushOf f.h (A l) 0 v) v
    (Ready s c G [f.a.toNat] (Use.regs .reg f.a.toNat) (Use.regs .reg f.d.toNat) →
      (a = 0 ∨ 32768 < a → answers (.tnew f) 0xFFFFFFFE s) ∧
      (0 < a → a ≤ 32768 → (∀ k < 1024, (s.team (cl * 1024 + k)).valid = true) → answers (.tnew f) 0xFFFFFFFF s) ∧
      (0 < a → a ≤ 32768 → (∃ k < 1024, (s.team (cl * 1024 + k)).valid = false) →
        ∃ k < 1024, ∃ n, (s.team (cl * 1024 + k)).valid = false ∧
          let gen := (s.team (cl * 1024 + k)).gen
          answers (.tnew f) (BitVec.ofNat 32 (gen * 1024 + k))
            { s with
              free := n
              teams := s.teams.put (cl * 1024 + k)
                { Team.blank with valid := true, gen := gen, cap := a, creator := some G.spawn } }) ∧
      (¬named → answers (.tfree f) 1 (s.dropStale cl id) ∧ answers (.tjoin f) 1 (s.dropStale cl id)) ∧
      (named → (s.team key).swapped = true → answers (.tfree f) 4 s) ∧
      (named → (s.team key).swapped = false → s.members key ≠ [] → answers (.tfree f) 3 s) ∧
      (named → (s.team key).swapped = false → s.members key = [] → answers (.tfree f) 0 (s.dissolve key cl)) ∧
      (named → G.team = key → answers (.tjoin f) 0 s) ∧
      (named → G.team ≠ key → (s.team key).swapped = true → answers (.tjoin f) 4 s) ∧
      (named → G.team ≠ key → (s.team key).swapped = false → ¬room → answers (.tjoin f) 2 s) ∧
      (named → G.team ≠ key → (s.team key).swapped = false → room →
        answers (.tjoin f) 0 ((s.leaveTeam c.gang).joinTeam c.gang key))) ∧
    (Ready s c G [] [] [] →
      let s2 := if 65536 ≤ G.team then s else (s.leaveTeam c.gang).ownTeam c.gang
      ∃ t G2, exec (.tleave f) s = .next t ∧ s2.gangs.find? c.gang = some G2 ∧
        (G.team < 65536 → G2.team = 65536 + c.gang) ∧
        Completed s2 t c G2 [] [] noCauses fun _ old new =>
          Onward c [] (pushOf f.h 0 0 0) old.jump old new ∧ new.regs = old.regs)

/-- R254, R255, R260: TBAR marks its lanes as arrived in the current phase of their team and waits; once every live member
thread has arrived, the phase is one further, the marks are cleared, and the waiting lanes go on, which acts as an acquire.
TARRIVE marks its lanes and answers the phase without waiting for it; TWAITP waits for the phase that A names. -/
def Obligations.BarriersReleaseTheirPhase : Prop :=
  (∀ (s : State) (k : Nat) (T : Team), s.teams.find? k = some T → T.swapped = false →
    liveCount (s.members k) ≠ 0 → arrivedCount (s.members k) = liveCount (s.members k) →
    (s.checkBarrier k).teams.find? k = some { T with phase := T.phase + 1 } ∧
    ∀ g G, (s.checkBarrier k).gangs.find? g = some G → G.team = k → ∀ l, (G.thread l).arrived = false) ∧
  (∀ (f : FmtA) (s : State) (c : IssueCtx) (G : Gang), Outside c G →
    let k := G.team
    let phase := (s.team k).phase
    let settled := fun l => (s.beforeSn c.since).unperformed c.gang l = false
    let goesOn := fun (s2 t : State) (G2 : Gang) (fields : List Nat) (push : Nat → Option Word) =>
      Completed s2 t c G2 [] [] noCauses fun l old new => ∃ held,
        Onward c fields (push l) old.jump ((resumed c fields old held).addFence ⟨.reads, s.sn * 64, 3, true⟩) new ∧
        new.regs = old.regs
    let marked := s.onLanes c.gang c.lanes fun _ t => { t with arrived := true, wait := some (.barrier phase), waitPos := c.pos }
    (Ready s c G [] [] [] →
      let s1 := if c.chained then s else s.checkBarrier k
      (∀ l, inLanes c.lanes l = true → ∃ p, (G.thread l).wait = some (.barrier p) ∧ phaseDone (s1.team k).phase p = true) →
      ∃ t G1, exec (.tbar f) s = .next t ∧ s1.gangs.find? c.gang = some G1 ∧
        goesOn s1 t G1 [] fun _ => pushOf f.h 0 0 0) ∧
    (Ready s c G [] [] [] → Idle c G → (∀ l, inLanes c.lanes l = true → (G.thread l).arrived = true ∨ settled l) →
      (c.chained = true ∨ arrivedCount (marked.members k) ≠ liveCount (marked.members k)) →
      exec (.tbar f) s = .next { marked with ctx := some { c with lanes := 0, blocked := c.blocked ||| c.lanes } }) ∧
    (Ready s c G [] [] [] → Idle c G → (∀ l, inLanes c.lanes l = true → (G.thread l).arrived = false ∧ ¬settled l) →
      (c.chained = true ∨ arrivedCount (s.members k) ≠ liveCount (s.members k)) →
      ∃ t, exec (.tbar f) s = .next t ∧ Waits s t c G fun _ => .arriving) ∧
    (Ready s c G [] [] [] → Idle c G → (∀ l, inLanes c.lanes l = true → (G.thread l).arrived = true ∨ settled l) →
      c.chained = false → arrivedCount (marked.members k) = liveCount (marked.members k) → liveCount (marked.members k) ≠ 0 →
      (∃ T, s.teams.find? k = some T ∧ T.swapped = false) →
      ∃ t G1, exec (.tbar f) s = .next t ∧ (marked.checkBarrier k).gangs.find? c.gang = some G1 ∧
        goesOn (marked.checkBarrier k) t G1 [] fun _ => pushOf f.h 0 0 0) ∧
    (Ready s c G [] [] (Use.regs .reg f.d.toNat) →
      (∀ l, inLanes c.lanes l = true → (G.thread l).arrived = true ∨ settled l) →
      ∃ t, exec (.tarrive f) s = .next (if c.chained then t else t.checkBarrier k) ∧
        Completed s t c G (Use.regs .reg f.d.toNat) [] noCauses fun _ old new =>
          Onward c [] (pushOf f.h 0 0 phase) old.jump { old with arrived := true } new ∧ WroteReg old new f.d.toNat phase) ∧
    (Ready s c G [f.a.toNat] (Use.regs .reg f.a.toNat) [] →
      let A := fun l => operand c G l [] f.a.toNat
      ((∀ l, inLanes c.lanes l = true → phaseDone phase (A l) = true) →
        ∃ t, exec (.twaitp f) s = .next t ∧ goesOn s t G [f.a.toNat] fun l => pushOf f.h (A l) 0 0) ∧
      ((∀ l, inLanes c.lanes l = true → phaseDone phase (A l) = false) → Idle c G →
        ∃ t, exec (.twaitp f) s = .next t ∧ Waits s t c G fun l => .barrier (A l))))

/-- R263: SyncAdd adds to COUNT, which saturates; of an armed word with a target it takes whole targets out of COUNT and
advances GEN by as many; the first status that is not 0 is kept, and TARGET stays. R190, R263 to R265, Table 13.4: SWINIT and
SWADD act on their lanes' words in ascending lane order, SWADD once the lane's earlier accesses are performed, and D receives
GEN after the lane's own; they count as a write of their slots. SWGEN answers GEN, SWWAIT once GEN has passed B; both act as an
acquire. -/
def Obligations.SyncWordsAdvanceAndAnswerTheirGeneration : Prop :=
  (∀ (target count gen flags n status : Nat), target < 2 ^ 32 → count < 2 ^ 32 → gen < 2 ^ 32 → flags < 2 ^ 32 → status < 16 →
     let sum := min (count + n) (2 ^ 32 - 1)
     ∃ count' gen' flags',
       syncStep (leBytes 4 target ++ leBytes 4 count ++ leBytes 4 gen ++ leBytes 4 flags) n status =
         leBytes 4 target ++ leBytes 4 count' ++ leBytes 4 gen' ++ leBytes 4 flags' ∧
       (flags % 2 = 0 ∨ target = 0 → count' = sum ∧ gen' = gen) ∧
       (flags % 2 = 1 → 0 < target → count' < target ∧ ∃ k, sum = count' + k * target ∧ gen' = (gen + k) % 2 ^ 32) ∧
       (status = 0 ∨ flags / 2 % 2 = 1 → flags' = flags) ∧
       (status ≠ 0 → flags / 2 % 2 = 0 →
         flags' / 2 % 2 = 1 ∧ flags' / 16 % 16 = flags / 16 % 16 ∧ flags' / 256 % 16 = status ∧ flags' % 2 = flags % 2)) ∧
  (∀ (f : FmtA) (s s1 : State) (c : IssueCtx) (G : Gang) (ps : List (Nat × DWord × Place')),
     let P := fun l => operandPair c G l f.a.toNat
     let B := fun l => operand c G l [] f.b.toNat
     let core := some (coreOf c.gang)
     let key := fun l => (((keysOf ps).find? fun e => e.1 == l).map (·.2)).getD 0
     let before := s.beforeSn c.since
     let quiet := ∀ e ∈ keysOf ps, (∀ a ∈ before.accesses, a.of c.gang e.1 = true → overlaps a.pa a.size e.2 16 = false) ∧
       ∀ x ∈ before.scaleLoads, x.gang = c.gang → x.lane = e.1 → overlaps x.pa 512 e.2 16 = false
     let answers := fun (i : Instr) (base : State) (fields : List Nat) (acquires : Bool) (b v : Nat → Word) =>
       ∃ t, exec i s = .next t ∧ s1 = { s with tlb := s1.tlb, zeroing := s1.zeroing, free := s1.free } ∧
         Completed base t c G (Use.regs .reg f.d.toNat) [] noCauses (fun l old new =>
           Onward c fields (pushOf f.h (loOf (P l)) (b l) (v l)) old.jump
             (if acquires then old.addFence ⟨.reads, s.sn * 64, 3, true⟩ else old) new ∧
           WroteReg old new f.d.toNat (v l))
     Outside c G → Idle c G →
     Reaches s s1 c G { control := false, tensor := false, size := 16, kind := 2, load := true } P ps →
     (Ready s c G [f.b.toNat] (Use.regs .pair f.a.toNat ++ Use.regs .reg f.b.toNat) (Use.regs .reg f.d.toNat) →
       let run := fun (act : State → Nat → Word → State) (es : List (Nat × Nat)) => es.foldl (fun st e => act st e.2 (B e.1)) s1
       let value := fun act l => (run act ((keysOf ps).filter fun e => e.1 ≤ l)).syncGen (key l)
       let after := fun act => (run act (keysOf ps)).bumpSlots (viewOf c G).team (scratchSlots ps)
       (quiet →
         let act := fun st k b => State.syncInit st core k b
         answers (.swinit f) (after act) [f.b.toNat] false B (value act)) ∧
       ((∀ e ∈ keysOf ps, before.unperformed c.gang e.1 = false) →
         let act := fun st k (b : Word) => State.syncAdd st core k b.toNat 0
         answers (.swadd f) (after act) [f.b.toNat] false B (value act)) ∧
       (quiet →
         ((∀ e ∈ keysOf ps, phaseDone (s.syncGen e.2) (B e.1) = true) →
           answers (.swwait f) s1 [f.b.toNat] true B fun l => s.syncGen (key l)) ∧
         ((∀ e ∈ keysOf ps, phaseDone (s.syncGen e.2) (B e.1) = false) →
           ∃ t, exec (.swwait f) s = .next t ∧ Waits s1 t c G fun l => .syncw (key l) (B l)))) ∧
     (Ready s c G [] (Use.regs .pair f.a.toNat) (Use.regs .reg f.d.toNat) →
       quiet →
       answers (.swgen f) s1 [] true (fun _ => 0) fun l => s.syncGen (key l)))

/-- R266, R269, R272, R273: HNEW makes a handle on the lowest run of free slots of the chosen core, or answers why not, and
waits while a slot of the run is still to be zeroed; HFREE frees a handle of the gang's team once nothing works on its slots;
HQRY answers an entry or a window. R270, R271: HGIVE offers a handle that its team holds, or withdraws the offer; HTAKE maps a
handle that the team holds or is offered, in the order of its refusals, once the operations into the handle's slots are
complete, and acts as an acquire. A handle that moves has one window, one holder and no offer. R276: an offer to a team that is swapped out is recorded in its image. The waits are the
model's reading (log 35, 38, 40). -/
def Obligations.HandlesAreMadeFreedGivenAndTaken : Prop :=
  (∀ (f : FmtA) (s : State) (c : IssueCtx) (G : Gang), Outside c G → Idle c G →
     let A := fun l => operand c G l [] f.a.toNat
     let a := (A (lowestLane c.lanes)).toNat
     let cl := clusterOf c.gang
     let key := cl * 1024 + a % 1024
     let x := s.handle key
     let named := x.valid = true ∧ x.gen = a / 1024 % 64
     let answers := fun (i : Instr) (v : Word) (s2 : State) =>
       ∃ t, exec i s = .next t ∧ AnswersOnce s2 t c G [f.a.toNat] f.d.toNat (fun l => pushOf f.h (A l) 0 v) v
     let n := a % 256
     let core := if a / 2048 % 2 = 1 then coreOf c.gang else cl * 8 + a / 256 % 8
     let fits := fun p => p + n ≤ 128 ∧ ∀ i < n, s.slotFree (core * 128 + p + i) = true
     (Ready s c G [f.a.toNat] (Use.regs .reg f.a.toNat) (Use.regs .reg f.d.toNat) →
       (n = 0 ∨ 128 < n → answers (.hnew f) 0xFFFFFFFE s) ∧
       (0 < n → n ≤ 128 → (∀ p, ¬fits p) → answers (.hnew f) 0xFFFFFFFF s) ∧
       (∀ p, 0 < n → n ≤ 128 → fits p → (∀ q < p, ¬fits q) →
         (16 ≤ (s.held G.team).length → answers (.hnew f) 0xFFFFFFFD s) ∧
         ((s.held G.team).length < 16 → (∃ i < n, core * 128 + p + i ∈ s.sync.returned) →
           ∃ t, exec (.hnew f) s = .next t ∧ Waits s t c G fun _ => .engine) ∧
         ((s.held G.team).length < 16 → (∀ i < n, core * 128 + p + i ∉ s.sync.returned) →
           ((∀ k < 1024, (s.handle (cl * 1024 + k)).valid = true) → answers (.hnew f) 0xFFFFFFFF s) ∧
           ((∃ k < 1024, (s.handle (cl * 1024 + k)).valid = false) →
             ∃ k < 1024, ∃ free, (s.handle (cl * 1024 + k)).valid = false ∧
               let gen := (s.handle (cl * 1024 + k)).gen
               answers (.hnew f) (BitVec.ofNat 32 (gen * 1024 + k))
                 { s with
                   free := free
                   handles := s.handles.put (cl * 1024 + k)
                     { Handle.blank with valid := true, gen := gen, holder := G.team, count := n, pfirst := p, core := core % 8 } }))) ∧
       (¬named → answers (.hfree f) 1 s) ∧
       (named → x.holder ≠ G.team → answers (.hfree f) 2 s) ∧
       (named → x.holder = G.team → (∀ p ∈ x.slots cl, s.slotBusy p = false) → answers (.hfree f) 0 (s.freeHandle key)) ∧
       (named → x.holder = G.team → (∃ p ∈ x.slots cl, s.slotBusy p = true) →
         ∃ t, exec (.hfree f) s = .next t ∧ Waits s t c G fun _ => .engine)) ∧
     (Ready s c G [f.a.toNat] (Use.regs .reg f.a.toNat) (Use.regs .pair f.d.toNat) →
       let entry : Nat := s.teamIdOf x.offer * 2 ^ 48 + s.teamIdOf (some x.holder) * 2 ^ 32 + x.count * 2 ^ 24 +
         x.pfirst * 2 ^ 17 + x.core * 2 ^ 14 + (if x.mapped then x.window * 2 ^ 11 + 2 ^ 10 else 0) + 1
       let window : Nat := match (s.team G.team).windows.find? (a % 8) with
         | none => 0
         | some w => s.handleId w.handle * 2 ^ 48 + w.base * 2 ^ 33 + w.count * 2 ^ 25 + w.core * 2 ^ 22 + w.pfirst * 2 ^ 15 + 1
       let answersPair := fun (v : DWord) =>
         ∃ t, exec (.hqry f) s = .next t ∧ Completed s t c G (Use.regs .pair f.d.toNat) [] noCauses fun l old new =>
           Onward c [f.a.toNat] (pushOf f.h (A l) 0 (loOf v)) old.jump old new ∧ WrotePair old new f.d.toNat v
       (a / 65536 % 2 = 1 → answersPair (BitVec.ofNat 64 window)) ∧
       (a / 65536 % 2 = 0 → named → answersPair (BitVec.ofNat 64 entry)) ∧
       (a / 65536 % 2 = 0 → ¬named → answersPair 0))) ∧
  ((∀ (s : State) (team h w base : Nat) (T : Team) (x : Handle),
     s.teams.find? team = some T → s.handles.find? h = some x →
     let s2 := s.transfer team h w base
     s2.handles.find? h = some { x with holder := team, offer := none, window := w, mapped := true } ∧
     (∀ k, k ≠ h → s2.handles.find? k = s.handles.find? k) ∧ s2.mem = s.mem ∧
     ∃ T2, s2.teams.find? team = some T2 ∧ T2.windows.find? w = some ⟨h, base, x.count, x.core, x.pfirst⟩) ∧
   (∀ (f : FmtA) (s : State) (c : IssueCtx) (G : Gang), Outside c G → Idle c G →
     let A := fun l => operand c G l [] f.a.toNat
     let B := fun l => operand c G l [f.a.toNat] f.b.toNat
     let a := (A (lowestLane c.lanes)).toNat
     let b := (B (lowestLane c.lanes)).toNat
     let cl := clusterOf c.gang
     let key := cl * 1024 + a % 1024
     let x := s.handle key
     let named := x.valid = true ∧ x.gen = a / 1024 % 64
     let toKey := cl * 1024 + b % 1024
     let toNamed := b < 65536 ∧ (s.team toKey).valid = true ∧ (s.team toKey).gen = b / 1024 % 64
     let answers := fun (i : Instr) (acquires : Bool) (v : Word) (s2 : State) =>
       ∃ t, exec i s = .next t ∧ Completed s2 t c G (Use.regs .reg f.d.toNat) [] noCauses fun l old new =>
         Onward c [f.a.toNat, f.b.toNat] (pushOf f.h (A l) (B l) v) old.jump
           (if acquires then old.addFence ⟨.reads, s.sn * 64, 3, true⟩ else old) new ∧
         WroteReg old new f.d.toNat v
     let offered := fun (o : Option Nat) => { s with handles := s.handles.modify key fun y => { y with offer := o } }
     let settled := ∀ l, inLanes c.lanes l = true → (s.beforeSn c.since).unperformed c.gang l = false
     Ready s c G [f.a.toNat, f.b.toNat] (Use.regs .reg f.a.toNat ++ Use.regs .reg f.b.toNat) (Use.regs .reg f.d.toNat) →
     (¬named → answers (.hgive f) false 1 s ∧ answers (.htake f) true 1 s) ∧
     (named → x.holder ≠ G.team → answers (.hgive f) false 2 s) ∧
     (named → x.holder = G.team → settled → b = 0xFFFF → answers (.hgive f) false 0 (offered none)) ∧
     (named → x.holder = G.team → settled → b ≠ 0xFFFF → toNamed →
       answers (.hgive f) false 0
         (if (s.team toKey).swapped then (offered (some toKey)).recordOffer cl toKey key else offered (some toKey))) ∧
     (named → x.holder = G.team → settled → b ≠ 0xFFFF → ¬toNamed →
       answers (.hgive f) false 6 (if b < 65536 then s.dropStale cl b else s)) ∧
     (named →
       let window := b % 8
       let base := b / 256 % 128
       let taken := ∃ w, (s.team G.team).windows.find? window = some w ∧ w.handle ≠ key
       let clash := ∃ w ∈ (s.team G.team).windows, w.1 ≠ window ∧
         base < w.2.base + w.2.count ∧ w.2.base < base + x.count
       let mayTake := x.holder = G.team ∨ x.offer = some G.team
       (¬mayTake → answers (.htake f) true 7 s) ∧
       (mayTake → taken → answers (.htake f) true 3 s) ∧
       (mayTake → ¬taken → 128 < base + x.count → answers (.htake f) true 5 s) ∧
       (mayTake → ¬taken → base + x.count ≤ 128 → clash → answers (.htake f) true 4 s) ∧
       (mayTake → ¬taken → base + x.count ≤ 128 → ¬clash → s.takeReady key = true →
         answers (.htake f) true 0 (s.transfer G.team key window base)) ∧
       (mayTake → ¬taken → base + x.count ≤ 128 → ¬clash → s.takeReady key = false →
         let q : Handover := ⟨c.gang, G.team, key, window, base⟩
         ∃ t, exec (.htake f) s = .next t ∧
           Waits { s with sync := { s.sync with
               handovers := if q ∈ s.sync.handovers then s.sync.handovers else s.sync.handovers ++ [q] } }
             t c G fun _ => .handover 0))))

/-! ## Copies and refinement commands at issue -/

/-- What the acceptance of a list of submissions, lane by lane, leaves: the state and each lane's code. -/
def submitted (s : State) (take : State → Nat × Nat → Accept × State) (es : List (Nat × Nat)) : State × List (Nat × Accept) :=
  es.foldl (fun acc e => ((take acc.1 e).2, acc.2 ++ [(e.1, (take acc.1 e).1)])) (s, [])

/-- R278, R288, R289, Table 14.4: TCOPY and TGATHER submit each lane's descriptor, as its thread sees the bytes, in ascending
lane order, and D receives the code; a descriptor is refused for its fields, then its spaces, then a slot that the team does not
hold, then its completion address, then a full stream, and an accepted one joins the shorter stream of its core. RLCGO does the
same with command blocks. No byte of memory changes. -/
def Obligations.EngineCommandsAreAcceptedLaneByLane : Prop :=
  (∀ (f : FmtA) (s s1 : State) (c : IssueCtx) (G : Gang) (ps : List (Nat × DWord × Place')) (i : Instr) (x : Target)
      (take : State → Nat × Nat → Accept × State),
    let V := viewOf c G
    let P := fun l => operandPair c G l f.a.toNat
    let owner := fun l => (⟨G.spawn, G.index * G.width + l, s.sn * 64 + l⟩ : OpOwner)
    let copies := fun (gather : Bool) (st : State) (e : Nat × Nat) =>
      st.acceptCopy (coreOf c.gang) (s.ctxOf c.gang) (some V.team) (some (owner e.1)) none (s.sn * 64 + e.1)
        (parseDesc (s.visible c.gang e.1 (s.sn * 64) e.2 64) gather)
    let command := fun (st : State) (e : Nat × Nat) =>
      st.acceptCommand c.gang (s.ctxOf c.gang) (owner e.1) (P e.1) e.2 (s.visible c.gang e.1 (s.sn * 64) e.2 256)
    (i = .tcopy f ∧ x = { r := true, size := 64, kind := 0, load := true } ∧ take = copies false) ∨
    (i = .tgather f ∧ x = { r := true, size := 64, kind := 0, load := true } ∧ take = copies true) ∨
    (i = .rlcgo f ∧ x = { tensor := false, scratch := false, r := true, size := 256, kind := 0, load := true } ∧
      take = command) →
    Ready s c G [] (Use.regs .pair f.a.toNat) (Use.regs .reg f.d.toNat) → Outside c G → Reaches s s1 c G x P ps →
    s.blockLate c (keysOf ps) x.size = false →
    let r := submitted { s1 with sn := s.sn + 1 } take (keysOf ps)
    let code := fun l => match r.2.find? fun e => e.1 == l with | some (_, .code n) => BitVec.ofNat 32 n | _ => (0 : Word)
    (∀ e ∈ r.2, e.2 ≠ .held) →
    r.1.mem = s.mem ∧ r.1.gangs = s.gangs ∧
    ∃ t, exec i s = .next t ∧ Completed r.1 t c G (Use.regs .reg f.d.toNat) [] noCauses fun l old new =>
      Onward c [] (pushOf f.h (loOf (P l)) 0 (code l)) old.jump old new ∧ WroteReg old new f.d.toNat (code l)) ∧
  (∀ (s : State) (core ctx team sn : Nat) (o : Option OpOwner) (b : Option (Nat × Nat)) (d : CopyDesc),
    let r := s.acceptCopy core ctx (some team) o b sn d
    let covered := ∀ t ∈ d.needSlots, (s.physSlot (core / 8) team t).isSome = true
    (d.badField = true → r = (.code 2, s)) ∧
    (d.badField = false → d.badSpace true = true → r = (.code 3, s)) ∧
    (d.badField = false → d.badSpace true = false → ¬covered → r = (.code 4, s)) ∧
    (d.badField = false → d.badSpace true = false → covered → d.cpl = 0 →
      let st := s.streamFor core
      (16 ≤ s.streamLen (core / 8) st → r = (.code 1, s)) ∧
      (s.streamLen (core / 8) st < 16 → ∃ x : Copy, r = (.code 0, { s with copies := s.copies ++ [x] }) ∧
        x.sn = sn ∧ x.cluster = core / 8 ∧ x.stream = st ∧ x.owner = o ∧ x.desc = d ∧ x.team = team ∧ x.started = false ∧
        x.row = 0 ∧ x.blk = 0 ∧ x.cplKey = none)))

/-! ## Matrix words -/

/-- R192, R195, R196, R211: the causes of a product in their order: the accumulator is not held, a slot is not covered, a bound
slot's format does not take its scales, the accumulator is in the other mode, a binding is stale; of several slots the first in
the order of the word. R22, R180, R183, R193, R195, R196: MMA and MMAG without a cause issue one product for the gang, once its
port is free, and go on; with the flag z they set the accumulator's mode. A word that is not ready is tried again, before its causes are
looked for (R182); one with a cause has no effect, here kept for its chain. That poisoned
operands raise POISON last is the model's reading (log 43). -/
def Obligations.MatrixWordsIssueOneProduct : Prop :=
  (∀ (s : State) (c : IssueCtx) (V : Gang) (acc types : Nat) (zero gather : Bool) (xs : List MatOperand),
     let cl := clusterOf c.gang
     let T := s.team V.team
     let r := s.productCause c V acc zero gather types xs
     let uncovered := fun (x : MatOperand) => (s.scratchKey cl V.team (x.slot * 8192)).isNone = true
     let misfit := fun (x : MatOperand) => (T.binding x.slot).valid = true ∧
       (x.fmt.unscaled = true ∨ (x.fmt.nibble = true ∧ (T.binding x.slot).blen = 0))
     let first := fun (P : MatOperand → Prop) x => ∃ before after, xs = before ++ x :: after ∧ P x ∧ ∀ y ∈ before, ¬P y
     let int := (types == 4 || types == 6) && xs.all fun x => !(T.binding x.slot).valid
     (V.accs.find? acc = none → r = gangCause c 8 0 0) ∧
     ∀ tile, V.accs.find? acc = some tile →
       (∀ x, first uncovered x → r = gangCause c 6 (if gather then x.lo else 0) (if gather then x.hi else 0)) ∧
       ((∀ x ∈ xs, ¬uncovered x) → ∀ x, first misfit x → r = gangCause c 10 x.lo x.hi) ∧
       ((∀ x ∈ xs, ¬uncovered x ∧ ¬misfit x) → zero = false → tile.int32 ≠ int →
         r = gangCause c 10 0 (if gather then 65 else 2)) ∧
       ((∀ x ∈ xs, ¬uncovered x ∧ ¬misfit x) → (zero = true ∨ tile.int32 = int) →
         (∀ x, first (fun x => T.stale x.slot = true) x → r = gangCause c 9 x.lo x.hi) ∧
         ((∀ x ∈ xs, T.stale x.slot = false ∧ s.operandPoisoned cl V.team T x = false) → s.accPoisoned c.gang acc = false →
           r = none))) ∧
  (∀ (s : State) (c : IssueCtx) (G : Gang), Outside c G →
     let V := viewOf c G
     let sv := s.beforeChain c V.team
     let issue := fun (i : Instr) (acc : Nat) (k : Option Cause) (ready : Bool) (base : State) =>
       (k = none → ready = true →
         ∃ t G2 o, exec i s = .next t ∧ base.gangs.find? c.gang = some G2 ∧
           base = { s with gangs := base.gangs, matOps := s.matOps ++ [o], sn := s.sn + 1 } ∧
           o.gang = c.gang ∧ o.acc = acc ∧ o.accepted = false ∧ o.lanes = c.lanes ∧ o.sn = s.sn * 64 ∧
           Completed base t c G2 [] [] noCauses fun _ old new =>
             ∃ held, Onward c [] none old.jump (resumed c [] old held) new ∧ new.regs = old.regs) ∧
       (ready = false → exec i s = .next { s with ctx := some { c with blocked := c.blocked ||| c.lanes } }) ∧
       (∀ x, k = some x → ready = true → c.chained = true → exec i s = .next { s with ctx := some { c with cause := some x } })
     (∀ f : FmtMma, f.types.toNat < 10 → Ready s c G [] [] [] →
       let zero := f.z == 1#1
       issue (.mma f) f.acc.toNat
         (sv.productCause c V f.acc.toNat zero false f.types.toNat
           [⟨f.sa.toNat, none, BitVec.ofNat 32 f.sa.toNat, 0, (matTypes f.types.toNat).1⟩,
            ⟨f.sb.toNat, none, BitVec.ofNat 32 f.sb.toNat, 1, (matTypes f.types.toNat).2⟩])
         (s.productReady f.acc.toNat c)
         (s.issueProduct c V f.acc.toNat zero f.types.toNat (some f.sa.toNat) [] f.sb.toNat)) ∧
     (∀ f : FmtMmag, f.types.toNat < 10 → Ready s c G [] (rowRegs f.vi.toNat G.width) [] →
       let zero := f.z == 1#1
       let row := fun i => (rowValue V c.lanes f.vi.toNat i)
       let order := (laneList c.lanes).flatMap fun l => (natsFrom 0 (64 / V.width)).map fun k => k * V.width + l
       issue (.mmag f) f.acc.toNat
         (sv.productCause c V f.acc.toNat zero true f.types.toNat
           ((order.filterMap fun i => (row i).map fun v =>
             ⟨v.toNat / 256 % 128, some (v.toNat % 64), v, BitVec.ofNat 32 i, (matTypes f.types.toNat).1⟩) ++
            [⟨f.sb.toNat, none, BitVec.ofNat 32 f.sb.toNat, 64, (matTypes f.types.toNat).2⟩]))
         (s.productReady f.acc.toNat c && s.gatherReady c)
         (s.issueProduct c V f.acc.toNat zero f.types.toNat none
           ((natsFrom 0 64).map fun i => (row i).map fun v => (v.toNat / 256 % 128, v.toNat % 64)) f.sb.toNat)))

/-- R185, R197 to R203: AACQ maps a free tile for the gang or waits in turn; AREL unmaps it. AZERO, AMOVIN, ASCALE and ALOAD
issue one class-A operation with the operands they have read; AMOV leaves its rows' elements outstanding, a class-L result. A
word on an accumulator that is not held raises its cause, here kept for its chain. R190, R201, R202: ASTORE issues one class-A
operation that writes the converted rows; its slots' data generations advance and their bindings are cleared, and E4M3 writes
the scales of the bound register. It changes no byte of memory before the operation completes. -/
def Obligations.AccumulatorWordsActOnTheirTile : Prop :=
  (∀ (f : FmtA) (s : State) (c : IssueCtx) (G : Gang), Outside c G → c.pre = none →
     let acc := f.b.toNat % 4
     let A := fun l => operand c G l [] f.a.toNat
     let goesOn := fun (i : Instr) (base : State) (fields : List Nat) (push : Nat → Option Word) =>
       ∃ t G2, exec i s = .next t ∧ base.gangs.find? c.gang = some G2 ∧
         Completed base t c G2 [] [] noCauses fun l old new =>
           ∃ held, Onward c fields (push l) old.jump (resumed c fields old held) new ∧ new.regs = old.regs
     let none' := fun (_ : Nat) => pushOf f.h 0 0 0
     let rows := fun l => (List.range (64 / G.width)).map fun k => k * G.width + l
     let free := s.portFree c = true ∧ s.accSettled c acc true = true
     let waiting := s.aacqQueue.filter fun e => partKey e.1 == partKey c.gang
     (Ready s c G [] [] [] → s.portFree c = true →
       ((G.accs.find? acc).isSome = true → goesOn (.aacq f) s [] none') ∧
       (G.accs.find? acc = none → s.tileFree c.gang = true →
         (G.accs.length < G.accRes ∨ waiting = [] ∨ waiting.head? = some (c.gang, acc)) →
         goesOn (.aacq f) (s.mapTile c.gang acc) [] none') ∧
       (G.accs.find? acc = none → s.tileFree c.gang = false → Idle c G →
         ∃ t, exec (.aacq f) s = .next t ∧
           Waits { s with aacqQueue := if (c.gang, acc) ∈ waiting then s.aacqQueue else s.aacqQueue ++ [(c.gang, acc)] } t c G
             fun _ => .aacq acc)) ∧
     (Ready s c G [] [] [] → free →
       goesOn (.arel f) (s.onGang c.gang fun G => { G with accs := G.accs.erase acc }) [] none') ∧
     (G.accs.find? acc = none → c.chained = true → Ready s c G [] [] [] → free →
       exec (.azero f) s = .next { s with ctx := some { c with cause := some ⟨8, 0, 0, c.lanes, 0⟩ } }) ∧
     ∀ tile, G.accs.find? acc = some tile → free →
       (Ready s c G [] [] [] →
         goesOn (.azero f) (s.addMatOp c G acc (.azero (f.b.toNat / 4 % 2 == 1))) [] none') ∧
       (Ready s c G [f.a.toNat] (Use.regs .reg f.a.toNat) (rowRegs f.d.toNat G.width) →
         (∀ d ∈ s.poison, ∀ e, d ≠ .accElem c.gang acc e) →
         goesOn (.amov f)
           { s with
             sn := s.sn + 1
             pending := s.pending ++ (laneList c.lanes).map fun l =>
               ⟨s.sn * 64 + l, c.gang, l, f.d.toNat, some ((rows l).map fun r => tile.elem r ((A l).toNat % 64)), none⟩ }
           [f.a.toNat] fun l => pushOf f.h (A l) 0 0) ∧
       (Ready s c G [f.a.toNat] (Use.regs .reg f.a.toNat ++ rowRegs f.d.toNat G.width) [] →
         goesOn (.amovin f)
           (s.addMatOp c G acc (.movin ((laneList c.lanes).flatMap fun l => (rows l).map fun r =>
             (64 * r + (A l).toNat % 64, (rowValue G c.lanes f.d.toNat r).getD 0))))
           [f.a.toNat] fun l => pushOf f.h (A l) 0 0) ∧
       (Ready s c G [] (rowRegs f.a.toNat G.width) [] → tile.int32 = false →
         (∀ d ∈ s.poison, ∀ e, d ≠ .accElem c.gang acc e) →
         goesOn (.ascale f)
           (s.addMatOp c G acc (.ascale ((List.range 64).map fun i => (rowValue G c.lanes f.a.toNat i).getD 0))) []
           fun l => pushOf f.h (if f.a.toNat < 56 then A l else 0) 0 0) ∧
       (Ready s c G [f.a.toNat] (Use.regs .reg f.a.toNat) [] → ∀ k0 k1,
         let t := (A (lowestLane c.lanes)).toNat % 128
         s.scratchKey (clusterOf c.gang) G.team (t * 8192) = some k0 →
         s.scratchKey (clusterOf c.gang) G.team ((t + 1) * 8192) = some k1 → s.poison = [] →
         s.handlePoisoned G.team t = false → s.handlePoisoned G.team (t + 1) = false → c.preTeam = none → c.preScale = none →
         goesOn (.aload f) (s.addMatOp c G acc (.aload (f.b.toNat / 4 % 2 == 1) k0 k1)) [f.a.toNat]
           fun l => pushOf f.h (A l) 0 0)) ∧
  (∀ (f : FmtA) (s : State) (c : IssueCtx) (G : Gang) (tile : AccTile) (base : State),
     let acc := f.b.toNat % 4
     let fmt := f.b.toNat / 8
     let A := fun l => operand c G l [] f.a.toNat
     let a := (A (lowestLane c.lanes)).toNat
     let x : StoreTarget := ⟨a % 128, a / 128 % 2, a / 256 % 64⟩
     let slots := if fmt = 0 then [x.slot, x.slot + 1] else [x.slot]
     Ready s c G [f.a.toNat] (Use.regs .reg f.a.toNat) [] → Outside c G → c.pre = none → c.preTeam = none → c.preScale = none →
     fmt < 4 → G.accs.find? acc = some tile → (fmt ≠ 0 → tile.int32 = false) →
     (∀ t ∈ slots, (s.scratchKey (clusterOf c.gang) G.team (t * 8192)).isSome = true ∧ s.handlePoisoned G.team t = false) →
     s.accPoisoned c.gang acc = false →
     s.portFree c = true → s.accSettled c acc true = true → s.scalesSettled c = true →
     s.issueStore c G acc fmt x = some base →
     (∃ t, exec (.astore f) s = .next t ∧ Completed base t c G [] [] noCauses fun l old new =>
       ∃ held, Onward c [f.a.toNat] (pushOf f.h (A l) 0 0) old.jump (resumed c [f.a.toNat] old held) new ∧ new.regs = old.regs) ∧
     base = { s with
       matOps := base.matOps, teams := base.teams, scaleRegs := base.scaleRegs, poison := base.poison, free := base.free
       sn := s.sn + 1 } ∧
     (∃ o, base.matOps = s.matOps ++ [o] ∧ o.gang = c.gang ∧ o.acc = acc ∧ o.sn = s.sn * 64) ∧
     (fmt < 3 → ∀ T, s.teams.find? G.team = some T → ∀ t ∈ slots,
       (base.team G.team).dgen t = (T.dgen t + 1) % 256 ∧ ((base.team G.team).binding t).valid = false))

/-! ## Scale words -/

/-- R187 to R190, R206 to R209: SADD, SMAX, SMOV and SCVT write every byte of their register from the bytes before their chain,
its generation advances once; a register that is not mapped is mapped first, or the word waits for one. SBIND, SUNBIND and
SUNBIND.reg write the binding and the rename map; SQRY answers them. R205: SLD leaves a read of 512 bytes outstanding, once its
register is mapped or can be; SST issues the stores of its register's 512 bytes for the lowest lane, here as 64 of eight bytes each (log
85), and advances the data generation of a scratch slot. -/
def Obligations.ScaleWordsWriteTheirRegister : Prop :=
  (∀ (s : State) (c : IssueCtx) (G : Gang) (T : Team), Outside c G → c.pre = none → c.preTeam = none → c.preScale = none →
     s.teams.find? G.team = some T → s.poison = [] → s.portFree c = true → s.scalesSettled c = true →
     let cl := clusterOf c.gang
     let old := fun n i => scaleByte (s.scaleBytes cl T n) i
     let goesOn := fun (i : Instr) (base : State) (fields : List Nat) (push : Nat → Option Word) =>
       ∃ t, exec i s = .next t ∧ Completed base t c G [] [] noCauses fun l old new =>
         ∃ held, Onward c fields (push l) old.jump (resumed c fields old held) new ∧ new.regs = old.regs
     let writes := fun (i : Instr) (fields : List Nat) (push : Nat → Option Word) (n : Nat) (v : Nat → Byte) =>
       ((T.rename n).mapped = true ∨ s.freeScales (coreOf c.gang) ≠ [] →
         ∃ base T', goesOn i base fields push ∧ base.teams.find? G.team = some T' ∧
           base = { s with teams := base.teams, scaleRegs := base.scaleRegs, free := base.free } ∧
           (T'.rename n).gen = ((T.rename n).gen + 1) % 256 ∧ (T'.rename n).mapped = true ∧
           (∀ k, k ≠ n → T'.rename k = T.rename k) ∧ (∀ k, k ≠ G.team → base.teams.find? k = s.teams.find? k) ∧
           (∀ j < 512, scaleByte (base.scaleBytes cl T' n) j = v j) ∧
           ∀ p, p ≠ (T'.rename n).phys cl → base.scaleRegs.find? p = s.scaleRegs.find? p) ∧
       ((T.rename n).mapped = false → s.freeScales (coreOf c.gang) = [] → Idle c G →
         ∃ t, exec i s = .next t ∧ Waits s t c G fun _ => .scaleReg)
     (∀ f : FmtA,
       let n := f.b.toNat % 64
       let m := f.a.toNat % 64
       let A := fun l => operand c G l [] f.a.toNat
       let a := A (lowestLane c.lanes)
       let t := a.toNat % 128
       let team := fun (T' : Team) => { s with teams := s.teams.modify G.team fun _ => T' }
       (Ready s c G [f.a.toNat] (Use.regs .reg f.a.toNat) [] →
         writes (.sadd f) [f.a.toNat] (fun l => pushOf f.h (A l) 0 0) n (fun j => addScale (old n j) a.toInt) ∧
         (f.d.toNat % 4 ≠ 3 →
           goesOn (.sbind f)
             (let b : Binding := ⟨true, false, f.d.toNat % 4, f.d.toNat / 4 % 2, n, (T.rename n).gen, T.dgen t⟩
              team { T with bindings := T.bindings.set Binding.blank t b })
             [f.a.toNat] fun l => pushOf f.h (A l) 0 0) ∧
         (f.d.toNat % 4 = 3 → c.chained = true →
           exec (.sbind f) s =
             .next { s with ctx := some { c with cause := some ⟨1, f.toWord 0x28 2, BitVec.ofNat 32 c.pos, c.lanes, 0⟩ } })) ∧
       (Ready s c G [] [] [] →
         writes (.smax f) [] (fun _ => pushOf f.h 0 0 0) n
           (fun j => if (old n j).toNat < (old m j).toNat then old m j else old n j) ∧
         writes (.smov f) [] (fun _ => pushOf f.h 0 0 0) n (fun j => old m j)) ∧
       (Ready s c G [f.a.toNat] (Use.regs .reg f.a.toNat) (Use.regs .pair f.d.toNat) →
         let b := T.binding t
         let v : Nat :=
           if a.toNat / 256 % 2 = 0 then
             b.word + 2 ^ 32 * (T.dgen t * 2 ^ 24 + (T.rename b.sreg).gen * 2 ^ 16 + if T.stale t then 1 else 0)
           else (T.rename (a.toNat % 64)).word
         ∃ u, exec (.sqry f) s = .next u ∧ Completed s u c G (Use.regs .pair f.d.toNat) [] noCauses fun l old new =>
           (∃ held, Onward c [f.a.toNat] (pushOf f.h (A l) 0 (loOf (BitVec.ofNat 64 v))) old.jump
             (resumed c [f.a.toNat] old held) new) ∧
           WrotePair old new f.d.toNat (BitVec.ofNat 64 v))) ∧
     (∀ f : FmtS,
       let n := f.b.toNat % 64
       let m := f.a.toNat % 64
       let A := fun l => operand c G l [] f.a.toNat
       let t := (A (lowestLane c.lanes)).toNat % 128
       (Ready s c G [] [] [] →
         writes (.scvtUe5m3 f) [] (fun _ => pushOf f.h 0 0 0) n (fun j => toUe5m3 (old m j)) ∧
         writes (.scvtE8m0 f) [] (fun _ => pushOf f.h 0 0 0) n (fun j => toE8m0 (old m j)) ∧
         ((∀ o ∈ s.matOps, o.gang = c.gang → c.since * 64 ≤ o.sn) →
           let r := T.rename n
           let base := if r.mapped then
               { s with
                 scaleRegs := s.scaleRegs.erase (r.phys cl)
                 teams := s.teams.modify G.team fun _ =>
                   { T with renames := T.renames.set Rename.blank n { r with mapped := false, core := 0, preg := 0 } } }
             else s
           goesOn (.sunbindReg f) base [] fun _ => pushOf f.h 0 0 0)) ∧
       (Ready s c G [f.a.toNat] (Use.regs .reg f.a.toNat) [] →
         goesOn (.sunbind f) { s with teams := s.teams.modify G.team fun _ =>
             { T with bindings := T.bindings.set Binding.blank t { T.binding t with valid := false } } }
           [f.a.toNat] fun l => pushOf f.h (A l) 0 0))) ∧
  (∀ (f : FmtA) (s s1 : State) (c : IssueCtx) (G : Gang) (key : Nat) (b : Bool), Outside c G → c.pre = none → c.preTeam = none →
     c.preScale = none → s.portFree c = true → s.scalesSettled c = true →
     let P := fun l => operandPair c G l f.a.toNat
     let low := lowestLane c.lanes
     let n := f.b.toNat % 64
     let cl := clusterOf c.gang
     let goesOn := fun (i : Instr) (base : State) =>
       ∃ t, exec i s = .next t ∧ s1 = { s with tlb := s1.tlb, zeroing := s1.zeroing, free := s1.free } ∧
         Completed base t c G [] [] noCauses fun l old new =>
           ∃ held, Onward c [] (pushOf f.h (loOf (P l)) 0 0) old.jump (resumed c [] old held) new ∧ new.regs = old.regs
     Ready s c G [] (Use.regs .pair f.a.toNat) [] →
     (s.locate c.gang low G (s.ctxOf c.gang) { r := true, w := false, size := 512, kind := 0, load := true, store := false }
         (P low) = (.at_ key false b, s1) → s1.scaleRoom G.team (coreOf c.gang) n = true →
       goesOn (.sld f) { s1 with
         scaleLoads := s.scaleLoads ++ [⟨s.sn * 64 + low, c.gang, low, G.team, n, key, (G.thread low).gate c, []⟩]
         sn := s.sn + 1 }) ∧
     (s.locate c.gang low G (s.ctxOf c.gang) { r := false, w := true, size := 512, kind := 1, load := false, store := true }
         (P low) = (.at_ key false b, s1) → s.poison = [] →
       let data := leNat (scaleList (s.scaleBytes cl (s.team G.team) n))
       goesOn (.sst f)
         ({ s1 with
           accesses := s.accesses ++ (natsFrom 0 64).map fun i =>
             { s1.access c G.team low (P low + BitVec.ofNat 64 (8 * i)) (key + 8 * i) 8 .store (data / 2 ^ (64 * i) % 2 ^ 64) .none false true with
               sn := s.sn * 64 + i }
           sn := s.sn + 1 }.bumpSlots G.team (if isScratchKey key then [(P low).toNat % 2 ^ 20 / 8192] else []))))

/-! ## How accesses are performed -/

/-- Table 6.3, R142, R143: what the atomic operations compute from the location's value and the operand, in 32 or 64 bits. R139
to R142, R145, R301, R302: a buffered store writes its bytes; an atomic step writes what its operation makes of the old value
and each of its operands in turn, a CAS its new value where the old one is as expected, and the old value is on its way to D;
the packet of an ATOMN joins an older one to the same address. Every other byte reads as before. Reserved bits of a tenant's
table are not stored (R6); bytes that a run in progress writes are undefined to others (R409) and left out here. -/
def Obligations.StoresAndAtomicsArePerformed : Prop :=
  (∀ (m b : Nat), m < 2 ^ 64 → b < 2 ^ 64 →
     let x := BitVec.ofNat 32 m
     let y := BitVec.ofNat 32 b
     AtomOp.apply .add m b = (m + b) % 2 ^ 32 ∧ AtomOp.apply .sub m b = (m % 2 ^ 32 + 2 ^ 32 - b % 2 ^ 32) % 2 ^ 32 ∧
     (∀ i < 32, (AtomOp.apply .and m b).testBit i = (m.testBit i && b.testBit i)) ∧
     (∀ i < 32, (AtomOp.apply .or m b).testBit i = (m.testBit i || b.testBit i)) ∧
     (∀ i < 32, (AtomOp.apply .xor m b).testBit i = (m.testBit i != b.testBit i)) ∧
     (BitVec.ofNat 32 (AtomOp.apply .min m b)).toInt = min x.toInt y.toInt ∧
     (BitVec.ofNat 32 (AtomOp.apply .max m b)).toInt = max x.toInt y.toInt ∧
     AtomOp.apply .minu m b = min (m % 2 ^ 32) (b % 2 ^ 32) ∧ AtomOp.apply .maxu m b = max (m % 2 ^ 32) (b % 2 ^ 32) ∧
     AtomOp.apply .xchg m b = b % 2 ^ 32 ∧ AtomOp.apply .add64 m b = (m + b) % 2 ^ 64 ∧ AtomOp.apply .xchg64 m b = b ∧
     (∀ op : AtomOp, op ≠ .add64 → op ≠ .xchg64 → op.size = 4) ∧ AtomOp.size .add64 = 8 ∧ AtomOp.size .xchg64 = 8) ∧
  (∀ (s : State) (i : Nat) (a : Access), s.accesses.find? (·.sn == i) = some a →
     (∀ k, a.pa ≤ k → k < a.pa + a.size → s.inRun none k = false) →
     let written := fun (i : Instr) (t : State) (bytes : List Byte) (left : List Access) =>
       exec i s = .next t ∧ Holds t a.pa (s.aclBytes a.pa bytes) ∧ StoresOnly s t a.pa bytes.length ∧
       t = { s with
         mem := t.mem, l1 := t.l1, watches := t.watches, poison := t.poison, teams := t.teams, pending := t.pending
         accesses := t.accesses, tlb := t.tlb, rewritten := t.rewritten, matOps := t.matOps, owed := t.owed } ∧
       (t.matOps.map fun o => { o with olds := [] }) = (s.matOps.map fun o => { o with olds := [] }) ∧
       (isScratchKey a.pa = false → t.teams = s.teams ∧ t.accesses = left)
     let answer := if a.dest = .none then [] else
       [(⟨a.sn, a.gang, a.lane, a.dest.base, some (loadValue a.dest (s.mem.num a.pa a.size)), none⟩ : Pending)]
     let left := s.accesses.filter fun b => b.sn != i && b.into != some i
     (a.kind = .store → s.performable a [] = true → s.windowOf a.pa = none →
       ∃ t, written (.storePerform i) t (leBytes a.size a.data) (s.accesses.filter (·.sn != i)) ∧ t.pending = s.pending) ∧
     (∀ op, a.kind = .atom op → s.performable a (s.packetOf i) = true →
       s.windowOf a.pa = none →
       ∃ t, written (.atomicPerform i) t (leBytes a.size (a.operands.foldl op.apply (s.mem.num a.pa a.size))) left ∧
         t.pending = s.pending ++ answer) ∧
     (∀ expected counted, a.kind = .cas expected counted → s.performable a (s.packetOf i) = true →
       (s.mem.num a.pa a.size = expected.toNat % 2 ^ (8 * a.size) →
         s.windowOf a.pa = none →
         ∃ t, written (.atomicPerform i) t (leBytes a.size a.data) left ∧ t.pending = s.pending ++ answer) ∧
       (s.mem.num a.pa a.size ≠ expected.toNat % 2 ^ (8 * a.size) →
         ∃ t, exec (.atomicPerform i) s = .next t ∧ t = { s with
           accesses := left, pending := s.pending ++ answer, owed := t.owed
           l1 := if isTensorKey a.pa then s.l1.erase (s.lineKey a.core a.pa) else s.l1 })) ∧
     (∀ j b op, s.accesses.find? (·.sn == j) = some b → i ≠ j → a.kind = .atom op → b.kind = .atom op → op.merges = true →
       a.dest = .none → b.dest = .none → a.pa = b.pa → isScratchKey a.pa = false →
       (isTensorKey a.pa = true ∨ dieOf a.gang = dieOf b.gang) → s.highChannel a.gang = s.highChannel b.gang →
       (op = .fadd ∨ op = .badd2 → a.operands.length + b.operands.length ≤ 8) → s.performable a (s.packetOf i) = true →
       s.performable b (i :: j :: s.packetOf i ++ s.packetOf j) = true →
       let joined := fun (x : Access) =>
         if x.sn = i then { x with operands := a.operands ++ b.operands }
         else if x.sn = j ∨ x.into = some j then { x with into := some i } else x
       exec (.atomnMerge i j) s = .next { s with accesses := s.accesses.map joined }))

/-- R18, R19, R136, R138: a class-L result that is there is written to its registers, no others changing; a load of control or
scratch space reads the bytes that its thread sees, tensor space memory or its core's L1, and its result is written then or
later; an LDQ's data fills the entries reserved for it. No byte of memory changes. R189, R205: the 512 bytes of an SLD are
read at once or eight at a time, as they stand or as the core's L1 has them (log 85); when the last are there, all go into its mapped
register as one write: its generation advances once, and the other registers stay. -/
def Obligations.LoadsAreReadAndTheirResultsWritten : Prop :=
  ((∀ (s : State) (i : Nat) (p : Pending) (ws : List Word),
     s.pending.find? (·.sn == i) = some p → p.values = some ws → p.lane < 64 →
     ∃ t, exec (.classLResultWrite i) s = .next t ∧
       t = { s with gangs := t.gangs, poison := t.poison, pending := s.pending.filter (·.sn != i) } ∧
       OnlyThreads s t p.gang fun l old new =>
         new = { old with regs := new.regs, region := new.region } ∧ (l ≠ p.lane → new = old) ∧
         (l = p.lane → ∀ r, new.regs.get 0 r =
           if p.dest ≤ r ∧ r < p.dest + ws.length ∧ r ≠ 0 ∧ r < 56 then nth 0 ws (r - p.dest) else old.regs.get 0 r)) ∧
   (∀ (s : State) (i : Nat) (a : Access) (acquire inval : Bool),
     s.accesses.find? (·.sn == i) = some a → a.kind = .load acquire inval → s.performable a [] = true → a.half = none →
     (a.size ≠ 16 ∨ a.pa < 2 ^ 50) → (∀ k, a.pa ≤ k → k < a.pa + a.size → s.inRun none k = false) →
     let seen := leNat (s.visible a.gang a.lane a.sn a.pa a.size)
     let read := fun (v : Nat) =>
       (isTensorKey a.pa = false ∨ acquire = true → v = seen) ∧
       (isTensorKey a.pa = true → (∀ b ∈ s.accesses, b.of a.gang a.lane = true → b.isStore = false) →
         v = leNat (((s.mem.read (a.pa / 128 * 128) 128).drop (a.pa % 128)).take a.size) ∨ v = leNat (s.mem.read a.pa a.size) ∨
         ∃ line, s.l1.find? (s.lineKey a.core a.pa) = some line ∧ v = leNat ((line.drop (a.pa % 128)).take a.size))
     ((∀ q sx, a.dest ≠ .queue q sx) → s.pending.find? (·.sn == i) = none →
       ∃ (t s1 : State) (v : Nat), read v ∧ exec (.classLResultWrite i) s = .next t ∧
         s1 = { s with accesses := s.accesses.filter (·.sn != i), l1 := s1.l1, free := s1.free } ∧
         let p : Pending := ⟨i, a.gang, a.lane, a.dest.base, some (loadValue a.dest v), none⟩
         (t = { s1 with pending := s.pending ++ [p] } ∨ t = s1.writeResult p (loadValue a.dest v))) ∧
     (∀ q sx, a.dest = .queue q sx → a.lane < 64 →
       ∃ (t : State) (v : Nat), read v ∧ exec (.queueEntryArrival i) s = .next t ∧
         t = { s with gangs := t.gangs, accesses := s.accesses.filter (·.sn != i), l1 := t.l1, free := t.free } ∧
         OnlyThreads s t a.gang fun l old new =>
           (l ≠ a.lane → new = old) ∧
           (l = a.lane → new = { old with queues := old.queues.map fun es => es.map fun e => match e with
             | .reserved n half => if n = i then .filled (nth 0 (loadValue a.dest v) half) else e
             | .filled x => .filled x })))) ∧
  (∀ (s : State) (i : Nat) (x : ScaleLoad) (T : Team), s.scaleLoads.find? (·.sn == i) = some x →
     s.teams.find? x.team = some T → (T.rename x.sreg).mapped = true → s.sldReady x = true → x.pa % 8 = 0 →
     (∀ j < 512, s.inRun none (x.pa + j) = false) →
     let left := (List.range 64).filter fun n => !(x.got.any fun e => e.1 == 8 * n)
     let seen := fun (n : Nat) (bs : List Byte) =>
       bs = s.mem.read (x.pa + 8 * n) 8 ∨
       isTensorKey (x.pa + 8 * n) = true ∧ ∃ line, s.l1.find? (s.lineKey (coreOf x.gang) (x.pa + 8 * n)) = some line ∧
         bs = (line.drop ((x.pa + 8 * n) % 128)).take 8
     ∃ t, exec (.sldScaleWrite i) s = .next t ∧
       ((1 < left.length ∧ ∃ n ∈ left, ∃ bs, seen n bs ∧ t = { s with
           l1 := t.l1, free := t.free
           scaleLoads := s.scaleLoads.map fun y =>
             if y.sn = x.sn then { y with got := x.got ++ mapNumbered (fun j b => (8 * n + j, b)) 0 bs } else y }) ∨
        ∃ T', t.teams.find? x.team = some T' ∧
          t = { s with
            teams := t.teams, scaleRegs := t.scaleRegs, poison := t.poison, l1 := t.l1, free := t.free
            scaleLoads := s.scaleLoads.filter (·.sn != i) } ∧
          (T'.rename x.sreg).gen = ((T.rename x.sreg).gen + 1) % 256 ∧ (T'.rename x.sreg).phys = (T.rename x.sreg).phys ∧
          (∀ n, n ≠ x.sreg → T'.rename n = T.rename n) ∧
          (∀ n ∈ left, ∃ bs, seen n bs ∧
            ∀ k < 8, scaleByte (t.scaleBytes (clusterOf x.gang) T' x.sreg) (8 * n + k) = nth 0 bs k) ∧
          (∀ e ∈ x.got, e.1 / 8 ∉ left → (∀ e' ∈ x.got, e'.1 = e.1 → e' = e) →
            scaleByte (t.scaleBytes (clusterOf x.gang) T' x.sreg) e.1 = e.2) ∧
          ∀ p, p ≠ (T.rename x.sreg).phys (clusterOf x.gang) → t.scaleRegs.find? p = s.scaleRegs.find? p))

/-! ## Waits that end -/

/-- R12, R159, R185, R188, R213, R226: a wait ends when its turn comes: the extended block, an accumulator tile, a scale
register, a region place, the exclusive attempt. Each grants the waiting threads of its gang their answer, and takes the gang
from its queue. R28, R153, R154, R303: at the end of the fairness period the broadcast moves to the thread that has waited
longest, the lowest lane on a tie; a WAITW whose limit has passed with its entry unfired answers 0; a value that reaches a watch
entry late, or from the package at which its word is homed, is evaluated, and a fired entry stays fired. -/
def Obligations.WaitsEndWhenTheirTurnComes : Prop :=
  (∀ (s : State) (g : Nat) (G : Gang), s.gangs.find? g = some G →
     ((s.xacqQueue.filter fun x => partKey x == partKey g).head? = some g → (G.xblk = true ∨ s.xRoom g G = true) →
       ∃ t G', exec (.xacqGrant g) s = .next t ∧
         t = { s with gangs := t.gangs, xacqQueue := s.xacqQueue.filter (· != g) } ∧
         (∀ k, k ≠ g → t.gangs.find? k = s.gangs.find? k) ∧ t.gangs.find? g = some G' ∧
         G' = { G with threads := G'.threads, xblk := true } ∧
         ∀ l < G.threads.length,
           (G'.thread l).grant = (if (G.thread l).wait = some .xacq then some 0 else (G.thread l).grant)) ∧
     (∀ acc, (s.aacqQueue.filter fun e => partKey e.1 == partKey g).head? = some (g, acc) → s.tileFree g = true →
       ∃ t G', exec (.accTileGrant g) s = .next t ∧
         t = { s with gangs := t.gangs, poison := t.poison, aacqQueue := s.aacqQueue.filter (· != (g, acc)) } ∧
         (∀ k, k ≠ g → t.gangs.find? k = s.gangs.find? k) ∧ t.gangs.find? g = some G' ∧
         G' = { G with threads := G'.threads, accs := G'.accs } ∧ G'.accs.find? acc = some ⟨false, []⟩ ∧
         (∀ a, a ≠ acc → G'.accs.find? a = G.accs.find? a) ∧
         ∀ l < G.threads.length, Granted (· = .aacq acc) 0 l (G.thread l) (G'.thread l)) ∧
     (s.freeScales (coreOf g) ≠ [] →
       ∃ t, exec (.scaleRegGrant g) s = .next t ∧ t = { s with gangs := t.gangs } ∧
         OnlyThreads s t g (Granted (· = .scaleReg) 0)) ∧
     ((s.axbQueue.filter fun x => coreOf x == coreOf g).head? = some g → s.regionRoom g = true →
       ∃ t, exec (.axbGrant g) s = .next t ∧ t = { s with gangs := t.gangs, axbQueue := s.axbQueue.filter (· != g) } ∧
         OnlyThreads s t g (Granted (fun w => ∃ cycle, w = .axb cycle false) (axbAnswer false))) ∧
     (∀ q cycle, s.exclQueue = (g, cycle) :: q → s.exclusiveBusy = false →
       (s.attemptWaits g cycle = false → exec .exclusiveAdmit s = .next { s with exclusive := none, exclQueue := q }) ∧
       (s.attemptWaits g cycle = true → (G.inRegions = true ∨ s.regionRoom g = true) →
         ∃ t, exec .exclusiveAdmit s = .next t ∧ t = { s with gangs := t.gangs, exclusive := some g, exclQueue := q } ∧
           OnlyThreads s t g (Granted (· = .axb cycle true) (axbAnswer true))) ∧
       (s.attemptWaits g cycle = true → G.inRegions = false → s.regionRoom g = false →
         exec .exclusiveAdmit s = .next s)) ∧
     (s.exclQueue = [] → s.exclusiveBusy = false → exec .exclusiveAdmit s = .next { s with exclusive := none })) ∧
  ((∀ (s : State) (g l : Nat) (G : Gang) (sp : Spawn), s.gangs.find? g = some G → s.spawns.find? G.spawn = some sp →
     let count := match G.fairFrom with | some f => G.fairAcc + (s.clk - f).toNat | none => G.fairAcc
     let since := fun k => match (G.thread k).waitSince with | some w => w.toNat | none => 2 ^ 64
     sp.record.fairTime ≠ 0 → sp.record.fairTime ≤ count → l < G.threads.length → G.waitsFetch (G.thread l) = true →
     (∀ k < G.threads.length, G.waitsFetch (G.thread k) = true →
       since l < since k ∨ (since l = since k ∧ l ≤ k)) →
     ∃ t G', exec (.fairnessTimerExpiry g) s = .next t ∧ t = { s with gangs := t.gangs } ∧
       (∀ k, k ≠ g → t.gangs.find? k = s.gangs.find? k) ∧ t.gangs.find? g = some G' ∧
       G' = { G with
         threads := G'.threads, bpc := (G.thread l).pc, bpos := (G.thread l).pos, fairAcc := 0, fairFrom := none } ∧
       ∀ k < G.threads.length, G'.thread k = { G.thread k with yielded := (G'.thread k).yielded }) ∧
   (∀ (s : State) (g l : Nat) (token limit : Word) (since : DWord), l < 64 →
     (s.thread g l).wait = some (.watch token since limit) → (s.thread g l).grant = none → limit ≠ 0 →
     limit.toNat ≤ (s.clk - since).toNat → (s.watchOf g l token).any (·.fired) = false →
     ∃ t, exec (.waitwTimeout g l) s = .next t ∧ t = { s with gangs := t.gangs } ∧
       OnlyThreads s t g fun k old new => (k ≠ l → new = old) ∧ (k = l → new = { old with grant := some 0 })) ∧
   (∀ (s : State) (i : Nat) (w : Watch) (v : Word), s.watches[i]? = some w →
     let current := w.late = true ∧ v = BitVec.ofNat 32 (s.mem.num w.pa 4)
     let remote := w.pa < 2 ^ 50 ∧ w.pa / 2 ^ 35 ≠ s.podIndex
     current ∨ remote →
     let holds := match w.cmp with
       | 0 => v &&& w.mask = w.value &&& w.mask
       | 1 => v &&& w.mask ≠ w.value &&& w.mask
       | 2 => (w.value &&& w.mask).toNat ≤ (v &&& w.mask).toNat
       | _ => (v &&& w.mask).toNat < (w.value &&& w.mask).toNat
     ∃ t w', exec (.watchUpdate i v) s = .next t ∧
       t.watches.length = s.watches.length ∧ t.watches[i]? = some w' ∧
       (current → t = { s with watches := t.watches } ∧ ∀ j, j ≠ i → t.watches[j]? = s.watches[j]?) ∧
       (¬current → Wrote s t [(w.pa, leBytes 4 v.toNat)] ∧
         ∀ j, j ≠ i → ∀ x, s.watches[j]? = some x → ∃ late, t.watches[j]? = some { x with late := late }) ∧
       (w'.fired = true ↔ w.fired = true ∨ holds) ∧ w' = { w with fired := w'.fired, late := false }))

/-- R223 to R226: the commit engine of a core serves its oldest request once what comes before it is performed, lane by lane, and takes
its core's lines out of L1. A lane aborts with CONFLICT where a pinned load has changed, with CONSTRAINT where a recorded relation no
longer holds; else its stores are written in order, its registers take the re-applied values, and it is released. An engine that has not
had its lines for 2,000 clk gives up. An aborted lane goes on at its fallback with its snapshot; results that it still awaits are
discarded when they come, and it does not issue before (log 23); the causes are those of Table 9.3, FAULT where a TRAP of its chain has
run (R228). -/
def Obligations.RegionsCommitOrAbort : Prop :=
  (∀ (s : State) (core : Nat) (q : CommitReq), s.commits.find? (fun r => r.core == core) = some q →
    let prior := ∀ l, inLanes q.lanes l = true → s.unperformed q.gang l = false ∧
      (∀ p ∈ s.posts, ¬(p.gang = q.gang ∧ p.lane = l)) ∧ s.owes q.gang l 6 none = false
    let free := ∀ l, inLanes q.lanes l = true → ∀ r, (s.thread q.gang l).region = some r → ∀ ln ∈ r.lines,
      s.heldByOther (some (q.gang, l)) (ln * 128) 128 = false
    (¬prior → exec (.commit core) s = .next s) ∧
    (prior → free →
      let s1 := (laneList q.lanes).foldl (State.commitLane q.gang) s
      ∃ t, exec (.commit core) s = .next t ∧
        t = { s1 with l1 := (s1.invalidateL1 core).l1, commits := s1.commits.filter (· != q), poison := t.poison }) ∧
    (prior → ¬free → exec (.commit core) s = .next { s with
      commits := s.commits.map fun x => if x = q ∧ x.start = none then { x with start := some s.clk } else x }) ∧
    (¬free → (∃ t0, q.start = some t0 ∧ 2000 ≤ (s.clk - t0).toNat) →
      exec (.commitLineTimeout core) s =
        .next { s.abortLanes q.gang q.lanes 1 0 with commits := s.commits.filter (· != q) })) ∧
  (∀ (s : State) (g l : Nat) (G : Gang) (r : Region), s.gangs.find? g = some G → l < G.threads.length → l < 64 →
    (G.thread l).region = some r →
    (∀ x ∈ r.stores, s.windowOf x.pa = none ∧ ∀ k, x.pa ≤ k → k < x.pa + x.size → s.inRun none k = false) →
    let now := fun (x : TLoad) => BitVec.ofNat 64 (s.mem.num x.pa x.size)
    let cur := fun i => match r.loads[i]? with | some x => now x | none => 0
    let changed := fun x => now x ≠ x.value
    let conflict := ∃ x ∈ r.loads, changed x ∧ x.pinned = true
    let broken := (∃ x ∈ r.loads, changed x) ∧ ∃ y ∈ r.constraints, y.1.holds cur ≠ y.2
    let t := State.commitLane g s l
    (conflict → t = s.abortLanes g (laneBit l) 1 0) ∧ (¬conflict → broken → t = s.abortLanes g (laneBit l) 2 0) ∧
    (¬conflict → ¬broken →
      t = { s with
        mem := t.mem, l1 := t.l1, watches := t.watches, gangs := t.gangs, tlb := t.tlb, rewritten := t.rewritten
        matOps := t.matOps } ∧
      t.mem = r.stores.foldl (fun (m : Memory) (x : TStore) => m.write x.pa (s.aclBytes x.pa (leBytes x.size
        (match x.tag with | some y => cur y.load + y.k | none => x.value).toNat))) s.mem ∧
      OnlyThreads s t g fun k old new => (k ≠ l → new = old) ∧
        (k = l → new = { old with
          regs := new.regs, region := none, axCode := 0, axCount := 0, axCause := 0
          grant := some (if r.exclusive then 1 else 0) }) ∧
        (k = l → r.marks = [] → new.regs = old.regs))) ∧
  (∀ (s : State) (g l cause : Nat) (G : Gang) (r : Region), s.gangs.find? g = some G → l < G.threads.length → l < 64 →
    (G.thread l).region = some r → cause ≠ 5 →
    let late := fun (sn : Nat) => sn < r.born.1 * 64 ∨ r.born.2 * 64 ≤ sn
    let t := s.abortLanes g (laneBit l) cause 0
    t = { s with
      gangs := t.gangs, accesses := t.accesses, posts := t.posts, transfers := t.transfers
      pending := s.pending.map fun p =>
        if p.gang = g ∧ p.lane = l ∧ late p.sn then { p with dest := 63, mark := none } else p } ∧
    OnlyThreads s t g fun k old new => (k ≠ l → new = old) ∧
      (k = l → new = { old with
        regs := r.snapshot, latch := [], region := none, axCause := if old.swTrap.isSome then 6 else cause
        axCode := 0, axCount := min 255 (old.axCount + 1), pc := r.fallback, pos := 0, jump := none, wait := none, grant := none
        park := (s.redirectResults g l r.born).outstandingL g l, fence := none, issued := none, held := [] }))

/-! ## The matrix array -/

/-- R180, R181: the array of a core, once free, accepts of the waiting words whose operands can be read the one whose
partition's turn comes first; it is occupied for the larger of the word's own clk and those of its fetches, an operand that it has
retained at its slot's present data generation costing none. R76, R77, R182, R193, R196: 12 clk after its occupancy an accepted product
writes every element of its accumulator from the rows of its operands, each byte as it stands or as it has been since the word issued:
the integer path adds the exact sum of products modulo 2^32, the other the sum of R76 with the latched scales; a row of A that no lane
gathered adds nothing. R78, R80, R84: its causes are logged for the gang's lanes, and the lanes that trap take their trap. No byte of
memory changes. -/
def Obligations.TheArrayPerformsItsProducts : Prop :=
  (∀ (s : State) (core : Nat) (o : MatOp) (types : Nat) (zero int : Bool) (aKey : Option Nat)
     (aRows : List (Option (List Byte))) (bKey : Nat) (aTag bTag : Nat) (aScale bScale : List (Option RowScale)),
     s.arrayBusy core = false → s.arrayNextOp core = some o →
     o.kind = .product types zero int aKey aRows bKey aTag bTag aScale bScale →
     let turn := fun (x : MatOp) => (partOf x.gang + 8 - (s.arrayNext.get 7 core + 1) % 8) % 8
     let tag := fun (slot : Nat) => (o.team, slot, (s.team o.team).dgen slot)
     let fetch := fun (place key slot : Nat) =>
       if s.retained.find? (core * 2 + place) = some (tag slot) then 0
       else if (key - 2 ^ 52) / 2 ^ 20 = core then 8192 else 16384
     let total := (match aKey with | some k => fetch 0 k aTag | none => 0) + fetch 1 bKey bTag
     o ∈ s.arrayWaiting core ∧ (∀ x ∈ s.arrayWaiting core, turn o ≤ turn x) ∧
     ∃ t, exec (.arrayAccept core) s = .next t ∧
       t = { s with matOps := t.matOps, arrayNext := t.arrayNext, retained := t.retained } ∧
       t.matOps = (s.matOps.map fun x => if x.sn = o.sn then
         { o with accepted := true, start := s.clk, busy := max (if types = 9 then 16 else 8) ((total + 1023) / 1024) } else x) ∧
       t.arrayNext.get 7 core = partOf o.gang ∧ t.retained.find? (core * 2 + 1) = some (tag bTag) ∧
       ∀ k, aKey = some k → t.retained.find? (core * 2) = some (tag aTag)) ∧
  (∀ (s : State) (i : Nat) (o : MatOp) (G : Gang) (tile : AccTile) (types : Nat) (zero int : Bool) (aKey : Option Nat)
     (aRows : List (Option (List Byte))) (bKey : Nat) (aTag bTag : Nat) (aScale bScale : List (Option RowScale)),
     s.matOps.find? (·.sn == i) = some o → o.kind = .product types zero int aKey aRows bKey aTag bTag aScale bScale →
     o.accepted = true → s.accFirst o = true → o.busy + 12 ≤ (s.clk - o.start).toNat →
     s.gangs.find? o.gang = some G → G.accs.find? o.acc = some tile →
     let (fa, fb) := matTypes types
     let seen := fun (key : Nat) (bs : List Byte) => bs.length = 128 ∧ ∀ k < 128,
       nth 0 bs k = s.mem.byte (key + k) ∨ nth 0 bs k ∈ o.olds.get [] (key + k)
     let rowOf := fun (r : Nat) (bs : List Byte) => match aKey with
       | some k => seen (k + 128 * r) bs
       | none => nth none aRows r = some bs
     let absent := fun (r : Nat) => aKey = none ∧ nth none aRows r = none
     let old := fun r j => if zero then 0 else tile.elem r j
     let traps := if o.trapAll then
         laneSet ((laneList o.m0).filter fun l => (G.thread l).issues && !(G.thread l).handler) else 0
     ∃ t G' tile' new, exec (.matrixComplete i) s = .next t ∧
       t = { s with
         gangs := t.gangs, matOps := s.matOps.filter (·.sn != i), free := t.free, spawns := t.spawns, faults := t.faults } ∧
       (∀ g, g ≠ o.gang → t.gangs.find? g = s.gangs.find? g) ∧ t.gangs.find? o.gang = some G' ∧
       G' = { G with accs := G'.accs, logs := G.logs ++ new, threads := G'.threads } ∧ (int = true → new = []) ∧
       (∀ e ∈ new, (e.cause = fpInvalid ∨ e.cause = fpOverflow) ∧
         e = ⟨o.sn / 64, e.cause, o.m0, o.pc, true, traps, 0⟩) ∧
       ((∀ l, inLanes traps l = true → (G.thread l).trapvec ≠ 0) → t.spawns = s.spawns ∧ t.faults = s.faults ∧
         ∀ l < G.threads.length, G'.thread l = match new with
           | [] => G.thread l
           | e :: _ => if inLanes traps l then (G.thread l).holdTrap e.cause o.pc else G.thread l) ∧
       (∀ a, a ≠ o.acc → G'.accs.find? a = G.accs.find? a) ∧
       G'.accs.find? o.acc = some tile' ∧ tile'.int32 = tile.int32 ∧
       ∀ r < 64, ∀ j < 64,
         (¬absent r → ∃ a b, rowOf r a ∧ seen (bKey + 128 * j) b ∧
           tile'.elem r j =
             if int then
               BitVec.ofInt 32 ((old r j).toInt + (List.zipWith (· * ·) ((fa.raw a).map fa.int) ((fb.raw b).map fb.int)).sum)
             else BitVec.ofNat 32 (matElement fa.count ((fa.raw a).map fa.value) ((fb.raw b).map fb.value)
               (nth none aScale r) (nth none bScale j) (old r j)).bits) ∧
         (absent r → int = true → tile'.elem r j = old r j) ∧
         (absent r → int = false → tile'.elem r j = BitVec.ofNat 32 (matElement 1 [] [] none none (old r j)).bits))

/-- R194, R198 to R203: an accumulator form takes effect when it completes: AZERO zeroes the tile, AMOVIN writes its elements in
lane order, ASCALE scales every row, ALOAD takes the words of two slots, ASTORE writes its rows' bytes and nothing else. The causes of
ASCALE and ASTORE are logged then, and the lanes that trap take their trap (R78, R80, R84). -/
def Obligations.AccumulatorFormsComplete : Prop :=
  ∀ (s : State) (i : Nat) (o : MatOp) (G : Gang) (tile : AccTile),
    s.matOps.find? (·.sn == i) = some o → s.accFirst o = true →
    s.scratchClear o.gang o.sn o.kind.keys o.writesScratch = true →
    s.gangs.find? o.gang = some G → G.accs.find? o.acc = some tile →
    let completes := fun (causes : List Nat) (P : State → AccTile → Prop) =>
      ∃ t G' tile' new, exec (.accOpComplete i) s = .next t ∧
        t = { s with
          gangs := t.gangs, mem := t.mem, l1 := t.l1, watches := t.watches, poison := t.poison, tlb := t.tlb
          rewritten := t.rewritten, matOps := t.matOps, spawns := t.spawns, faults := t.faults, free := t.free } ∧
        (t.matOps.map fun x => { x with olds := [] }) =
          ((s.matOps.filter (·.sn != i)).map fun x => { x with olds := [] }) ∧
        (∀ g, g ≠ o.gang → t.gangs.find? g = s.gangs.find? g) ∧ t.gangs.find? o.gang = some G' ∧
        G' = { G with accs := G'.accs, logs := G.logs ++ new, threads := G'.threads } ∧
        (new.map fun e => (e.cause, e.lanes, e.pc, e.matrix)) =
          (([fpInvalid, fpOverflow].filter causes.contains).map fun k => (k, o.m0, o.pc, true)) ∧
        (new = [] ∨ o.trapAll = false → G'.threads = G.threads ∧ t.spawns = s.spawns ∧ t.faults = s.faults ∧ t.free = s.free) ∧
        (∀ a, a ≠ o.acc → G'.accs.find? a = G.accs.find? a) ∧
        G'.accs.find? o.acc = some tile' ∧ P t tile'
    (∀ m, o.kind = .azero m → completes [] fun t x => x.int32 = m ∧ (∀ r j, x.elem r j = 0) ∧ t.mem = s.mem) ∧
    (∀ ws, o.kind = .movin ws → completes [] fun t x => x.int32 = tile.int32 ∧ t.mem = s.mem ∧
      ∀ n, x.elems.get 0 n = (((ws.filter fun e => e.1 == n).getLast?).map (·.2)).getD (tile.elems.get 0 n)) ∧
    (∀ es, o.kind = .ascale es →
      completes ((List.range 4096).flatMap fun n => (scaleElement (tile.elems.get 0 n) (nth 0 es (n / 64)).toInt).causes)
        fun t x => x.int32 = tile.int32 ∧ t.mem = s.mem ∧
          ∀ r < 64, ∀ j < 64, x.elem r j = BitVec.ofNat 32 (scaleElement (tile.elem r j) (nth 0 es r).toInt).bits) ∧
    (∀ m k0 k1, o.kind = .aload m k0 k1 → completes [] fun t x => x.int32 = m ∧ t.mem = s.mem ∧
      ∀ r < 64, ∀ j < 32, x.elem r j = BitVec.ofNat 32 (s.mem.num (k0 + 128 * r + 4 * j) 4) ∧
        x.elem r (32 + j) = BitVec.ofNat 32 (s.mem.num (k1 + 128 * r + 4 * j) 4)) ∧
    (∀ ws cs, o.kind = .astore ws cs → completes cs fun t x => x = tile ∧
      (∀ k, (∀ e ∈ ws, k < e.1 ∨ e.1 + e.2.length ≤ k) → t.mem.byte k = s.mem.byte k) ∧
      ∀ e ∈ ws, (∀ e' ∈ ws, e' ≠ e → e.1 + e.2.length ≤ e'.1 ∨ e'.1 + e'.2.length ≤ e.1) → Holds t e.1 e.2)

/-! ## Traps, fault records, the end of a spawn -/

/-- R80 to R84, R237, R238: a gang's oldest logged cause is recorded once its record can be formed, in the issue order of the words, or
discarded where its context has no log, or counted as dropped where the ring is full; a record that is held is not formed yet. The lanes
that had TRAPERR set when the word issued trap, where they stand. The lanes of an entering set enter their handlers together once nothing
of theirs is outstanding. The PC that a record shows is the model's choice (log 13), entry together its reading (log 34). -/
def Obligations.LoggedCausesAndHandlersAreEntered : Prop :=
  (∀ (s : State) (i : Nat) (G : Gang) (e : LogItem),
    let g := i / 2 ^ 32
    let pc := if e.matrix then e.pc else match e.lane G with | some l => (G.thread l).pc | none => e.pc
    let traps := if e.matrix then e.trap
      else laneSet ((laneList e.trap).filter fun l => (G.thread l).issues && !(G.thread l).handler)
    let id := match s.spawnOf g with | some p => p.id | none => 0
    let record := logRecord e.cause (traps != 0) e.matrix pc id G.index e.lanes (loOf s.clk) (coreOf g)
    let taken := fun (t : Thread) =>
      match t.trap, t.wait with
      | some _, _ => t
      | none, none => { t with held := [], issued := none, trap := some ⟨e.cause, t.pc, t.pos, 0, 0, false, 0⟩ }
      | none, some (.queue _) => { t with wait := none, held := [], issued := none, trap := some ⟨e.cause, t.pc, t.pos, 0, 0, false, 0⟩ }
      | none, some .exit => { t with wait := none, held := [], issued := none, trap := some ⟨e.cause, t.pc, t.pos, 0, 0, false, 0⟩ }
      | none, some _ => { t with trap := some ⟨e.cause, t.pc, t.pos, 0, 0, true, 0⟩ }
    s.gangs.find? g = some G → G.oldestLog = some e → e.sn % 2 ^ 32 = i % 2 ^ 32 →
    (e.ready G = true ∨ s.teamAway G.team = true) → s.olderMatrix g e = false →
    (e.matrix = false → ∀ l, inLanes traps l = true → (G.thread l).trapvec ≠ 0) →
    ∃ done s1, s.writeLog (s.ctxOf g) record = (done, s1) ∧ s1 = { s with
        mem := s1.mem, watches := s1.watches, l1 := s1.l1, tlb := s1.tlb, rewritten := s1.rewritten, matOps := s1.matOps
        zeroing := s1.zeroing, free := s1.free } ∧
      (done = false → exec (.arithLogRecord i) s = .next s1) ∧
      (done = true → ∃ t G', exec (.arithLogRecord i) s = .next t ∧ t = { s1 with gangs := t.gangs } ∧
        (∀ k, k ≠ g → t.gangs.find? k = s.gangs.find? k) ∧ t.gangs.find? g = some G' ∧
        G' = { G with logs := G.logs.filter (· != e), threads := G'.threads } ∧
        ∀ l < G.threads.length, G'.thread l =
          if e.matrix = false ∧ inLanes traps l = true then taken (G.thread l) else G.thread l)) ∧
  (∀ (s : State) (ctx : Nat) (bytes : List Byte), bytes.length = 32 →
    let cb := s.ctxField ctx 8 8
    (cb = 0 → s.writeLog ctx bytes = (true, s)) ∧
    (∀ code s1, cb ≠ 0 → s.sysKey ctx (BitVec.ofNat 64 cb) true 64 = (.missing code, s1) → s.writeLog ctx bytes = (true, s1)) ∧
    (∀ s1, cb ≠ 0 → s.sysKey ctx (BitVec.ofNat 64 cb) true 64 = (.held, s1) → s.writeLog ctx bytes = (false, s1)) ∧
    ∀ k s1, cb ≠ 0 → s.sysKey ctx (BitVec.ofNat 64 cb) true 64 = (.at_ k, s1) →
      let base := s1.mem.num k 8
      let size := s1.mem.num (k + 8) 4
      let w := s1.mem.num (k + 0x10) 4
      let dropped := s1.mem.num (k + 0x18) 4
      let sound := base % 32 = 0 ∧ base / 2 ^ 61 = 0 ∧ ringSize size 16 65536 = true ∧
        ringUsed w (s1.mem.num (k + 0x14) 4) < size
      (¬sound → ∃ t, s.writeLog ctx bytes = (true, t) ∧
        Wrote s1 t [(k + 0x18, leBytes 4 (min 0xFFFFFFFF (dropped + 1)))]) ∧
      ∀ r s2, sound → s1.sysKey ctx (BitVec.ofNat 64 (base + 32 * (w % size))) true 32 = (.at_ r, s2) →
        ∃ t, s.writeLog ctx bytes = (true, t) ∧ Wrote s2 t [(r, bytes), (k + 0x10, leBytes 4 ((w + 1) % 2 ^ 32))]) ∧
  (∀ (s : State) (g l : Nat) (G : Gang) (r : TrapReq), s.gangs.find? g = some G → (G.thread l).trap = some r →
    let ls := G.entrants r
    l ∈ ls → G.width ≤ 64 → (∀ k ∈ ls, s.entryReady g k = true ∧ (G.thread k).handler = false ∧ (G.thread k).trapvec ≠ 0 ∧
      k < G.threads.length) →
    ∃ t, exec (.handlerEntry g l) s = .next t ∧
      t = { s with
        gangs := t.gangs, l1 := (s.invalidateL1 (coreOf g)).l1, pending := t.pending, accesses := t.accesses, posts := t.posts
        transfers := t.transfers } ∧
      ((∀ k ∈ ls, (G.thread k).inRegion = false) → t = { s with gangs := t.gangs, l1 := t.l1 }) ∧
      OnlyThreads s t g fun k old new => (k ∉ ls → new = old) ∧
        ∀ x, k ∈ ls → old.trap = some x → InHandler (BitVec.ofNat 32 x.cause) x.pc x.pos x.lo x.hi old new)

/-- R234 to R236: a die's oldest record is formed, with a ticket that no stop has had where a gang is stopped for it, and written to
the fault ring once there is room; HELD counts those that wait. A resolve store retries, delivers to the handlers of the entering set, or
ends the spawn; a ticket whose record is not written yet, or that names no stopped gang, changes nothing. -/
def Obligations.FaultRecordsAreWrittenAndResolved : Prop :=
  (∀ (s : State) (die g : Nat) (G : Gang) (st : Stop) (r : FaultRec),
    (s.faults.filter fun x => x.die == die && !x.formed).head? = some r → (s.heldRecords die).length < 64 → r.fatal = false →
    r.gangKey = some g → s.gangs.find? g = some G → G.stop = some st → s.tickets.length < 2 ^ 31 → s.faultVa = 0 →
    ∃ (t : State) (tk : Word), exec (.faultRecordWrite die) s = .next t ∧ tk ≠ 0 ∧ tk ∉ s.tickets ∧
      t = { s with faults := t.faults, gangs := t.gangs, free := t.free, tickets := tk :: s.tickets } ∧
      t.faults = (s.faults.map fun x => if x = r then { r with formed := true, ticket := tk } else x) ∧
      t.gangs.find? g = some { G with stop := some { st with ticket := some tk } } ∧
      ∀ k, k ≠ g → t.gangs.find? k = s.gangs.find? k) ∧
  (∀ (s s1 : State) (die k : Nat) (slot : Option Nat) (r : FaultRec), (∀ x ∈ s.faults, x.die = die → x.formed = true) →
    (s.heldRecords die).head? = some r → s.faultSlot = ((some k, slot), s1) →
    let w := s1.mem.num (k + 0x10) 4
    let left := match slot with | some _ => s.faults.filter (· != r) | none => s.faults
    let held := (left.filter (·.formed)).length
    let record := match slot with
      | some k' => [(k', r.bytes), (k + 0x10, leBytes 4 ((w + 1) % 2 ^ 32))]
      | none => []
    let m := record.foldl (fun (m : Memory) e => Memory.write m e.1 e.2) s1.mem
    let counts := if m.num (k + 0x20) 4 = held ∧ m.num (k + 0x18) 8 = s1.resolvePort then []
      else [(k + 0x18, leBytes 8 s1.resolvePort), (k + 0x20, leBytes 4 held)]
    ∃ t, exec (.faultRecordWrite die) s = .next t ∧ t.faults = left ∧ Wrote { s1 with faults := left } t (record ++ counts)) ∧
  (∀ (s : State) (ticket : Word), (∃ r ∈ s.faults, r.formed = true ∧ r.ticket = ticket) → s.ticketGang ticket = none) ∧
  (∀ (s : State) (ticket : Word), s.ticketGang ticket = none →
    exec (.resolveRetry ticket) s = .next s ∧ exec (.resolveDeliver ticket) s = .next s ∧
    exec (.resolveAbort ticket) s = .next s) ∧
  (∀ (s : State) (ticket : Word) (g : Nat) (st : Stop) (G : Gang) (sp : Spawn), s.ticketGang ticket = some (g, st) →
    s.gangs.find? g = some G → s.spawns.find? G.spawn = some sp → sp.ending = none → G.threads.length ≤ 64 →
    (∃ t, exec (.resolveRetry ticket) s = .next t ∧ t = { s with gangs := t.gangs } ∧
      t.gangs.find? g = some { G with stop := none, replays := if G.replays = 0xFFFFFFFF then G.replays else G.replays + 1 } ∧
      ∀ k, k ≠ g → t.gangs.find? k = s.gangs.find? k) ∧
    ((∀ l, inLanes st.entering l = true → l < G.threads.length ∧ (G.thread l).handler = false ∧ (G.thread l).trapvec ≠ 0 ∧
        s.entryReady g l = true) →
      ∃ t G', exec (.resolveDeliver ticket) s = .next t ∧
        t = { s with
          gangs := t.gangs, l1 := (s.invalidateL1 (coreOf g)).l1, pending := t.pending, accesses := t.accesses, posts := t.posts
          transfers := t.transfers } ∧
        ((∀ l, inLanes st.entering l = true → (G.thread l).inRegion = false) → t = { s with gangs := t.gangs, l1 := t.l1 }) ∧
        (∀ k, k ≠ g → t.gangs.find? k = s.gangs.find? k) ∧ t.gangs.find? g = some G' ∧
        G' = { G with threads := G'.threads, stop := none } ∧
        ∀ l < G.threads.length, (inLanes st.entering l = false → G'.thread l = G.thread l) ∧
          (inLanes st.entering l = true →
            InHandler 2 (G.thread l).pc (G.thread l).pos (loOf st.va) (hiOf st.va) (G.thread l) (G'.thread l))) ∧
    (∃ t r, exec (.resolveAbort ticket) s = .next t ∧
      t = { s with gangs := t.gangs, spawns := t.spawns, faults := s.faults ++ [r] } ∧
      t.gangs.find? g = some { G with stop := none } ∧ (∀ k, k ≠ g → t.gangs.find? k = s.gangs.find? k) ∧
      t.spawns.find? G.spawn = some { sp with ending := some 2, stopped := true } ∧
      (∀ k, k ≠ G.spawn → t.spawns.find? k = s.spawns.find? k) ∧ r.cause = 2 ∧ r.fatal = true ∧ r.lanes = st.lanes))

/-- R30, R241, R242, R316: a spawn whose time limit has passed begins to end; the gangs of an ending spawn stop: no thread of
them is live, their masks are clear and no load or result of theirs is left; once nothing of a spawn is left it is gone, and its
status has reached its bundle. -/
def Obligations.SpawnsEndAndComplete : Prop :=
  (∀ (s : State) (sp : Nat) (p : Spawn), s.spawns.find? sp = some p →
    (p.record.limit ≠ 0 → 800 * p.record.limit ≤ (s.clk - p.start).toNat → p.ending = none →
      ∃ t r, exec (.spawnTimeout sp) s = .next t ∧ t = { s with spawns := t.spawns, faults := s.faults ++ [r] } ∧
        t.spawns.find? sp = some { p with ending := some 0x12, stopped := true } ∧
        (∀ k, k ≠ sp → t.spawns.find? k = s.spawns.find? k) ∧
        r.cause = 0x12 ∧ r.fatal = true ∧ r.spawnId = p.id) ∧
    (Sound s → p.ending ≠ none → p.issuing = true →
      ∃ t, exec (.spawnEnd sp) s = .next t ∧ t.mem = s.mem ∧
        t.spawns.find? sp = some { p with issuing := false, unplaced := [], stopped := true } ∧
        (∀ k, k ≠ sp → t.spawns.find? k = s.spawns.find? k) ∧
        (∀ g G, s.gangs.find? g = some G → G.spawn ≠ sp → t.gangs.find? g = some G) ∧
        (∀ g G, s.gangs.find? g = some G → G.spawn = sp →
          (∃ G', t.gangs.find? g = some G' ∧ G'.stop = none ∧ (∀ m ∈ G'.masks, m = 0) ∧
            ∀ l, (G'.thread l).live = false ∧ (G'.thread l).region = none ∧ (G'.thread l).wait = none) ∧
          (∀ x ∈ t.pending, x.gang ≠ g) ∧ (∀ w ∈ t.watches, w.gang ≠ g) ∧
          ∀ a ∈ t.accesses, a.gang = g → ∀ acq inv, a.kind ≠ .load acq inv)) ∧
    (s.spawnDone sp p = true → (∀ e ∈ s.front.images, e.2.spawn ≠ sp) → (∀ e ∈ s.teams, e.2.creator ≠ some sp) →
      ∀ k i, p.bundle = some (k, i) → p.command = none →
      ∃ t, exec (.spawnCompletion sp) s = .next t ∧
        t = { s with spawns := s.spawns.erase sp, front := t.front, commands := t.commands } ∧ t.commands = s.commands ∧
        t.front = { s.front with bundles := t.front.bundles } ∧
        ∀ b, s.front.bundles.find? k = some b →
          t.front.bundles.find? k = some { b with members := setNth b.members i (some (p.ending.getD 0)) }))

/-! ## Copies, handles, the launch path -/

/-- R278, R284, R288, R291 to R293: a stream's oldest copy starts once the accesses before it are performed; with no scale
register free a MODE 1 copy ends with FORMAT, a MODE 2 copy takes the register it names; a block within local memory is read whole,
converted and written whole, and a cause ends the copy there; a copy with no block left writes its completion record, or binds the slot
that it filled, and is gone; where its team is no more it does nothing to it and is counted (R261). R271, R273, R290: a waiting HTAKE
takes its handle once no operation into it is left: the team holds it in its window, its offer is withdrawn, and each waiting thread gets
0; a returned slot with nothing left in it becomes zero, its poison gone. -/
def Obligations.CopiesRunAndHandlesMove : Prop :=
  (∀ (s : State) (cl st : Nat) (c : Copy), s.streamHead cl st = some c →
     let d := c.desc
     let replaced := fun (y : Copy) => s.copies.map fun x => if x.sn = c.sn then y else x
     (c.started = false → c.ending = none → c.owner.all s.ownerSettled = true → (d.mode = 0 ∨ d.total = 0) →
       exec (.copyStart cl st) s = .next { s with copies := replaced { c with started := true } }) ∧
     (∀ T, c.started = false → c.ending = none → c.owner.all s.ownerSettled = true → d.mode = 1 → d.total ≠ 0 →
       s.copyTeam c = some T → (∀ n < 64, (T.rename n).mapped = true) →
       exec (.copyStart cl st) s = .next { s with copies := replaced { c with started := true, ending := some (6, 8, 0) } }) ∧
     (∀ T, c.started = false → c.ending = none → c.owner.all s.ownerSettled = true → d.mode = 2 → d.total ≠ 0 →
       s.copyTeam c = some T → s.teams.find? c.team = some T → (T.rename d.sreg).mapped = true →
       let gen := ((T.rename d.sreg).gen + 1) % 256
       ∃ t T', exec (.copyStart cl st) s = .next t ∧
         t = { s with
           teams := t.teams, scaleRegs := t.scaleRegs, poison := s.poison
           copies := replaced { c with started := true, reg := some (d.sreg, false), sgen := gen } } ∧
         t.teams.find? c.team = some T' ∧ T'.rename d.sreg = { T.rename d.sreg with gen := gen } ∧
         (∀ n, n ≠ d.sreg → T'.rename n = T.rename n) ∧ (∀ k, k ≠ c.team → t.teams.find? k = s.teams.find? k) ∧
         ∀ p, t.scaleRegs.get [] p = s.scaleRegs.get [] p) ∧
     (let sva := (d.src.toNat + c.row * d.sstride + c.blk * d.srcBlock) % 2 ^ 64
      let dva := (d.dst.toNat + (if d.kind = 1 then 128 * c.row else c.row * d.dstride) + c.blk * d.dstBlock) % 2 ^ 64
      let from_ := s.engineRun c.ctx (s.copySlot c false) false sva d.srcBlock
      let to_ := from_.2.engineRun c.ctx (s.copySlot c false) true dva d.dstBlock
      let sps := from_.1.1
      let dps := to_.1.1
      c.started = true → c.ending = none → c.row < d.rows → d.total ≠ 0 → d.gather = false → d.zfill = false → d.mode = 0 →
      (∀ p ∈ sps, p.remote = false ∧ ∀ k, p.key ≤ k → k < p.key + p.len → s.inRun none k = false) →
      (∀ status, from_.1.2 = some (some status) →
        ∃ t, exec (.copyBlock cl st) s = .next t ∧
          t = { s with
            copies := replaced { c with ending := some (status, 1, BitVec.ofNat 64 sva) }
            tlb := t.tlb, zeroing := t.zeroing, free := t.free }) ∧
      (∀ status, from_.1.2 = none → to_.1.2 = some (some status) →
        ∃ t, exec (.copyBlock cl st) s = .next t ∧
          t = { s with
            copies := replaced { c with ending := some (status, 2, BitVec.ofNat 64 dva) }
            tlb := t.tlb, zeroing := t.zeroing, free := t.free }) ∧
      (from_.1.2 = none → to_.1.2 = none → to_.2.routeless c = none →
        (∀ p ∈ dps, p.remote = false ∧ ∀ k, p.key ≤ k → k < p.key + p.len → s.inRun none k = false ∧
          ∀ x ∈ (to_.2.touchSlots c dps).1.sourceRanges c, k < x.key ∨ x.key + x.len ≤ k) →
        ∃ t c', exec (.copyBlock cl st) s = .next t ∧
          t = { s with
            mem := t.mem, l1 := t.l1, watches := t.watches, poison := t.poison, teams := t.teams, copies := t.copies
            tlb := t.tlb, zeroing := t.zeroing, free := t.free, rewritten := t.rewritten, matOps := t.matOps } ∧
          t.mem = laid s.mem dps (d.convert (bytesOf s sps)) ∧ t.copies = replaced c' ∧
          c' = { c with
            row := if c.blk + 1 < d.blocks then c.row else c.row + 1
            blk := if c.blk + 1 < d.blocks then c.blk + 1 else 0
            touched := c'.touched, staged := [], asked := [] })) ∧
     (∀ k, c.ending = none → c.started = true → (d.rows ≤ c.row ∨ d.total = 0) → c.unacked = [] → c.bundle = none → d.sync = 0 →
       (d.kind ≠ 1 ∨ (d.total = 0 ∧ s.copyStale c = false)) → c.cplKey = some k → s.recordHeld c = false →
       ∃ t, exec (.copyComplete cl st) s = .next t ∧
         Wrote { s with copies := s.copies.filter (·.sn != c.sn), transfers := t.transfers } t
           [(k, leBytes 1 128 ++ leBytes 1 0 ++
             leBytes 1 (match c.reg with | some (n, true) => 128 + n | _ => 0) ++ leBytes 1 0 ++
             leBytes 2 (if d.total = 0 then d.rows else c.row) ++ leBytes 2 c.blk ++ leBytes 8 0)]) ∧
     (∀ T, c.ending = none → c.started = true → d.rows ≤ c.row → d.total ≠ 0 → c.unacked = [] → c.bundle = none → d.sync = 0 →
       c.cplKey = none → d.kind = 1 → s.copyTeam c = some T → s.teams.find? c.team = some T →
       ∃ t T', exec (.copyComplete cl st) s = .next t ∧
         t = { s with teams := t.teams, copies := s.copies.filter (·.sn != c.sn), transfers := t.transfers } ∧
         (∀ k, k ≠ c.team → t.teams.find? k = s.teams.find? k) ∧ t.teams.find? c.team = some T' ∧
         T' = { T with bindings := T'.bindings } ∧
         (∀ x, x ≠ d.slot → T'.binding x = T.binding x) ∧
         (c.reg = none → (T'.binding d.slot).valid = false) ∧
         ∀ n auto, c.reg = some (n, auto) →
           T'.binding d.slot = ⟨true, false, d.bl, d.scaleFmt, n, c.sgen, c.touched.get 0 d.slot⟩) ∧
     (c.ending = none → c.started = true → d.rows ≤ c.row → c.unacked = [] → c.bundle = none → c.cplKey = none →
       s.copyStale c = true → (d.sync ≠ 0 ∨ d.kind = 1) →
       ∃ t, exec (.copyComplete cl st) s = .next t ∧
         t = { s with
           copies := s.copies.filter (·.sn != c.sn), transfers := t.transfers
           sync := { s.sync with staleDrops := t.sync.staleDrops } } ∧
         (s.sync.staleDrops.get 0 c.cluster < 0xFFFFFFFF →
           t.sync.staleDrops.get 0 c.cluster = s.sync.staleDrops.get 0 c.cluster + 1))) ∧
  ((∀ (s : State) (i : Nat) (q : Handover) (T : Team) (x : Handle), s.sync.handovers[i]? = some q →
     s.takeReady q.handle = true → s.takeStatus q.team q.handle q.window q.base = 0 → s.teams.find? q.team = some T →
     s.handles.find? q.handle = some x →
     ∃ t T', exec (.htakeHandover i) s = .next t ∧
       t = { s with
         gangs := t.gangs, teams := t.teams, handles := t.handles
         sync := { s.sync with handovers := s.sync.handovers.filter (· != q) } } ∧
       t.handles.find? q.handle = some { x with holder := q.team, offer := none, window := q.window, mapped := true } ∧
       (∀ h, h ≠ q.handle → t.handles.find? h = s.handles.find? h) ∧
       t.teams.find? q.team = some T' ∧ T'.windows.find? q.window = some ⟨q.handle, q.base, x.count, x.core, x.pfirst⟩ ∧
       OnlyThreads s t q.gang (Granted (fun w => ∃ n, w = .handover n) 0)) ∧
   (∀ (s : State) (i p : Nat), s.sync.returned[i]? = some p → s.copyHolds p = false → s.slotBusy p = false →
     ∃ t, exec (.slotZeroing i) s = .next t ∧
       t = { s with
         mem := t.mem, watches := t.watches, matOps := t.matOps
         poison := s.poison.filter fun d => match d with | .unit k => !inSlot p k | _ => true
         sync := { s.sync with returned := s.sync.returned.filter (· != p) } } ∧
       (∀ j < 8192, t.mem.byte (slotKey p + j) = 0) ∧ StoresOnly s t (slotKey p) 8192))

/-- R309, R310, R151: a record at a port goes into the ring's slot of TAIL and TAIL advances, code 0; it is refused with 4 where
the queue is disabled, 2 where its list does not name the context, 1 where the ring is full. R311 to R317, Table 1.1: the
bundle at HEAD starts with its gangs at the places given, and HEAD advances; a bind record places a gang of a spawn in a free
slot, its threads as Table 1.1 starts them, at no more than its spawn's priority, and a refused one is counted and left in the slot table
with VALID clear; a bundle whose members have ended writes its completion word: the first status that is not 0, with the id; a word that
cannot be written leaves a fatal record. -/
def Obligations.BundlesStartAndRetire : Prop :=
  (∀ (s : State) (i q : Nat) (p : PostMsg) (v : QueueView), s.posts.find? (·.sn == i) = some p → s.postReady p = true →
     p.pa ≠ s.runPort → p.pa / 2 ^ 35 = s.podIndex → s.portOf p.pa = some q → p.away = none → p.gang ≠ hostGang →
     s.readQcb q = some v →
     let s0 : State := { s with front := { s.front with queues := s.front.queues.put q v } }
     let answered := fun (code : Nat) =>
       ({ s0 with
         posts := s.posts.filter (·.sn != p.sn)
         pending := s.pending ++ [⟨p.sn, p.gang, p.lane, p.dest, some [BitVec.ofNat 32 code], none⟩] } : State)
     (v.enable = false → exec (.queuePostArrival i) s = .next (answered 4)) ∧
     (v.enable = true → s.queueAdmits v p.ctx = false → exec (.queuePostArrival i) s = .next (answered 2)) ∧
     (v.enable = true → s.queueAdmits v p.ctx = true → (linkOf p.bytes).count = 0 →
       (v.size < ringUsed (s.qTail q) (s.qHead q) + 1 → exec (.queuePostArrival i) s = .next (answered 1)) ∧
       (ringUsed (s.qTail q) (s.qHead q) + 1 ≤ v.size →
         ∀ k r s1, s0.frontSpot v.ctx Leaf.w false (v.base.toNat + 64 * (s.qTail q % v.size)) = (.at_ k r, s1) →
         ∃ t, exec (.queuePostArrival i) s = .next t ∧
           t = { answered 0 with
             mem := t.mem, watches := t.watches, l1 := t.l1, tlb := t.tlb, rewritten := t.rewritten, matOps := t.matOps
             zeroing := t.zeroing, free := t.free } ∧
           (let m := Memory.write s.mem k p.bytes
            t.mem = Memory.write m (s.qcb q + 0x18) (leBytes 4 ((m.num (s.qcb q + 0x18) 4 + 1) % 2 ^ 32)))))) ∧
  ((∀ (s : State) (q g sp k n : Nat) (x : Bool) (s1 : State) (v : QueueView) (p : Place), s.readQcb q = some v →
     s.qTail q = (s.qHead q + 1) % 2 ^ 32 → s.qHead q < 2 ^ 32 → ringUsed (s.qTail q) (s.qHead q) = 1 →
     State.frontSpot { s with front := { s.front with queues := s.front.queues.put q v } } v.ctx (fun _ => true) false
       (v.base.toNat + 64 * (s.qHead q % v.size)) = (.at_ k x, s1) →
     State.frontSpot s1 v.ctx (fun _ => true) false (v.base.toNat + 64 * (s.qHead q % v.size)) = (.at_ k x, s1) →
     let r0 := parseRecord (s.mem.read k 64)
     let r := { r0 with prio := min r0.prio v.prio }
     let spawn := newSpawn s.spawnIdNext r v.ctx s.clk 0 (some (s.sn, 0)) none 1 [(dieOf g, n)]
     (linkOf (s.mem.read k 64)).count = 0 → r.bad s.bestParts = false → r.threads ≠ 0 → r.gangs = 1 → r.team = 0 → r.slots = 0 →
     s.freeSpawn = some sp → s.freeEntryOn (dieOf g) = some n → placeKey p = some g → (∀ e ∈ s.gangs, e.2.team ≠ 65536 + g) →
     State.placeOk { s1 with spawns := s1.spawns.put sp spawn } g r r.acc = true →
     ∃ t G, exec (.bundleStart q [p]) s = .next t ∧
       t = { s with
         gangs := s.gangs.put g G, teams := t.teams, front := t.front, mem := t.mem, watches := t.watches, sn := s.sn + 1
         spawns := s.spawns.put sp spawn, spawnIdNext := t.spawnIdNext, poison := t.poison, l1 := t.l1, tlb := t.tlb
         rewritten := t.rewritten, matOps := t.matOps, zeroing := t.zeroing, free := t.free } ∧
       G = { startGang r sp 0 r.acc r.prio with team := 65536 + g } ∧
       t.mem = Memory.write s.mem (s.qcb q + 0x1C) (leBytes 4 (s.qTail q)) ∧
       t.front.bundles.find? s.sn = some ⟨r0.cpl, v.ctx, s.spawnIdNext, [none]⟩ ∧
       t.front.slotTable.find? g = some (bindWord ⟨p, 0, BitVec.ofNat 2 r.width, BitVec.ofNat 3 r.acc, BitVec.ofNat 2 r.prio, 0,
         BitVec.ofNat 12 n, 0xFFFF⟩ 0 true)) ∧
   (∀ (s : State) (b : BindRec) (g sp : Nat) (p : Spawn), placeKey b.place = some g →
     s.spawnAt (dieOf g) b.spawn.toNat = some (sp, p) → s.spawns.find? sp = some p →
     (p.unplaced.contains b.gang.toNat = true → p.stopped = false → b.width.toNat = p.record.width → p.record.team = 0 →
       p.record.slots = 0 → b.team = 0xFFFF → (∀ e ∈ s.gangs, e.2.team ≠ 65536 + g) → s.placeOk g p.record b.accres.toNat = true →
       let prio := min b.prio.toNat p.record.prio
       ∃ t G, exec (.bindStart b) s = .next t ∧
         t = { s with
           gangs := s.gangs.put g G, teams := t.teams, poison := t.poison
           l1 := if p.command.isSome then (s.invalidateL1 (coreOf g)).l1 else s.l1
           front := { s.front with
             slotTable := s.front.slotTable.put g (bindWord { b with image := 0, prio := BitVec.ofNat 2 prio } 0 true) }
           spawns := s.spawns.modify sp fun p => { p with unplaced := p.unplaced.filter (· != b.gang.toNat) } } ∧
         G = { startGang p.record sp b.gang.toNat b.accres.toNat prio with team := 65536 + g } ∧
         ∀ l < G.width, (b.gang.toNat * G.width + l < p.record.threads →
           (G.thread l).live = true ∧ (G.thread l).pc = p.record.entry ∧
           (G.thread l).regs.get 0 1 = BitVec.ofNat 32 (b.gang.toNat * G.width + l) ∧
           (G.thread l).regs.get 0 2 = loOf p.record.arg ∧ (G.thread l).regs.get 0 3 = hiOf p.record.arg ∧
           (G.thread l).regs.get 0 4 = BitVec.ofNat 32 p.record.threads) ∧
           (p.record.threads ≤ b.gang.toNat * G.width + l → (G.thread l).live = false)) ∧
     (p.unplaced.contains b.gang.toNat = false →
       exec (.bindStart b) s = .next { s with front := { s.front with
         slotTable := if (s.gangs.find? g).isSome then s.front.slotTable else s.front.slotTable.put g (bindWord b 0 false)
         dispatchErrors := s.front.dispatchErrors.put (dieOf g) (s.front.dispatchErrors.get 0 (dieOf g) + 1) } })) ∧
   (∀ (s s1 : State) (i : Nat) (b : Bundle) (x : SysAt), s.front.bundles.find? i = some b → (∀ m ∈ b.members, m ≠ none) →
     b.cpl ≠ 0 → s.sysKey b.ctx b.cpl true 4 = (x, s1) →
     let gone := ({ s1 with front := { s.front with bundles := s.front.bundles.erase i } } : State)
     (x = .held → exec (.bundleRetire i) s = .next s1) ∧
     (∀ code, x = .missing code → ∃ t r, exec (.bundleRetire i) s = .next t ∧ t = { gone with faults := s.faults ++ [r] } ∧
       r.cause = code ∧ r.fatal = true ∧ r.va = b.cpl ∧ r.spawnId = b.headId) ∧
     ∀ k, x = .at_ k → ∃ (t : State) (status : Nat), exec (.bundleRetire i) s = .next t ∧
       (∀ n x : Nat, b.members[n]? = some (some x) → x ≠ 0 → (∀ j < n, b.members[j]? = some (some 0)) → status = x) ∧
       ((∀ m ∈ b.members, m = some 0) → status = 0) ∧
       Wrote gone t [(k, leBytes 4 (b.headId.toNat % 2 ^ 24 * 256 + status % 256))]))

/-- R319, R210, R229, R275: a team that is to be saved stops, its regions aborting with PREEMPT; once all that it has outstanding is
done it leaves the machine for its image, with the offers made to it; the bytes of the image are open (log 14); a bind record with CMD resume brings its gang back in a free slot with all its threads' state. -/
def Obligations.TeamsAreSavedAndResumed : Prop :=
  (∀ (s : State) (b : BindRec) (g : Nat) (G : Gang), Sound s → placeKey b.place = some g → s.gangs.find? g = some G →
    s.teamAway G.team = false →
    ∃ t, exec (.bindStopSave b) s = .next t ∧ t.mem = s.mem ∧ t.spawns = s.spawns ∧
      t.front = { s.front with
        slotTable := s.front.slotTable.put g (bindWord b 2 true), saves := s.front.saves ++ [⟨G.team, b.image.toNat⟩] } ∧
      (∀ k H, s.gangs.find? k = some H → H.team ≠ G.team → t.gangs.find? k = some H) ∧
      ∀ k H, s.gangs.find? k = some H → H.team = G.team → H.threads.length ≤ 64 →
        ∃ H', t.gangs.find? k = some H' ∧ H' = { H with stop := none, threads := H'.threads } ∧
          ∀ l < H.threads.length,
            ((H.thread l).inRegion = false →
              H'.thread l = { H.thread l with wait := (H'.thread l).wait, issued := (H'.thread l).issued } ∧
              ((H.thread l).wait = none → H'.thread l = H.thread l)) ∧
            ∀ r, (H.thread l).region = some r → (H.thread l).inRegion = true → (H.thread l).swTrap = none →
              (H'.thread l).region = none ∧ (H'.thread l).axCause = 7 ∧ (H'.thread l).pc = r.fallback ∧ (H'.thread l).pos = 0 ∧
              (H'.thread l).regs = r.snapshot) ∧
  (∀ (s : State) (team : Nat) (v : Save), s.front.saves.find? (·.team == team) = some v → s.members team ≠ [] →
    (∀ e ∈ s.members team, s.gangDrained e.1 e.2 = true) →
    ∃ t X ctx, exec (.contextImageWrite team) s = .next t ∧ t.front.images.find? v.image = some X ∧
      t.front.saves = s.front.saves.filter (·.team != team) ∧
      t.gangs = s.gangs.filter (fun e => !(((s.members team).map (·.1)).contains e.1)) ∧
      X.key = team ∧ X.team = s.team team ∧ X.gangs.map (·.1) = (s.members team).map (·.2.index) ∧
      (∀ e ∈ s.members team, ∃ H, (e.2.index, H) ∈ X.gangs ∧ H.masks = e.2.masks ∧
        H.threads = e.2.threads.map fun x => { x with lbuf := [], waitSince := none }) ∧
      (∀ h x, (h, x) ∈ s.handles → x.offer = some team → h ∈ X.offers) ∧
      t.spawns = s.spawns ∧ t.mem = (s.writeImage ctx (v.image * 64) X.size).mem ∧ (∀ e ∈ t.retained, e.2.1 ≠ team) ∧
      (team < 65536 → (t.team team).swapped = true)) ∧
  (∀ (s : State) (b : BindRec) (g : Nat) (X : Image) (p : Spawn) (G : Gang), placeKey b.place = some g →
    s.front.images.find? b.image.toNat = some X → s.spawns.find? X.spawn = some p → p.stopped = false →
    (p.entries.find? (dieOf g)).isSome = true →
    X.gangs = [(b.gang.toNat, G)] → X.placed = [] → X.scales = [] → X.handles = [] → X.watches = [] → X.poison = [] →
    65536 ≤ X.key → s.placeOk g p.record G.accRes = true → s.tilesFor g G = true →
    ∃ t, exec (.bindResume b) s = .next t ∧ t.gangs = s.gangs.put g { G with team := 65536 + g } ∧
      t.front.images = (s.front.images.put b.image.toNat { X with key := 65536 + g, placed := [(b.gang.toNat, g)] }).erase b.image.toNat ∧
      (t.team (65536 + g)).swapped = false ∧ t.mem = s.mem ∧ t.spawns = s.spawns ∧ t.accesses = s.accesses ∧
      (∀ e ∈ t.retained, e.2.1 ≠ 65536 + g) ∧ t.l1 = (s.invalidateL1 (coreOf g)).l1)

/-! ## Refinement loops, translation, care -/

/-- R321, R324 to R330: a free controller takes its die's oldest command: it starts phase 0's spawn, or the norm where the
command asks for it first; a phase that ended well is followed by the next, or by the norm, one that did not by the exit FAULT;
a norm within TOL of BNORM exits CONVERGED, with FINAL, PHASE, PSTATUS and the completion word written, and the command is gone; an exit
event whose write is held is waited for. -/
def Obligations.RefinementCommandsRun : Prop :=
  ∀ (s : State) (c : Command),
    let staged := fun (s : State) (st : CmdStage) =>
      ({ s with commands := s.commands.map fun x => if x.sn = c.sn then { c with stage := st } else x } : State)
    let starts := fun (t : State) (p sp : Nat) (es : SMap Nat) =>
      t = { staged s (.phase p sp) with
        spawns := s.spawns.put sp
          (newSpawn s.spawnIdNext (c.record p) c.ctx s.clk c.rung none (some c.sn) 0 es)
        spawnIdNext := t.spawnIdNext }
    let goes := fun (i : Instr) (p : Nat) =>
      c.cancelled = false → s.mem.num (c.key + 0xE4) 2 = 0 →
      (∀ sp es, (c.record p).bad s.bestParts = false → (c.record p).threads ≠ 0 → s.freeSpawn = some sp →
        s.takeEntries ((natsFrom 0 4).filter fun d => (s.freeEntryOn d).isSome) = some es → es ≠ [] →
        ∃ t, exec i s = .next t ∧ starts t p sp es) ∧
      ((c.record p).bad s.bestParts = true →
        ∃ t, exec i s = .next t ∧ t = { staged s (.ended p 0x30) with spawnIdNext := t.spawnIdNext }) ∧
      ((c.record p).bad s.bestParts = false → (c.record p).threads = 0 →
        ∃ t, exec i s = .next t ∧ t = { staged s (.ended p 0) with spawnIdNext := t.spawnIdNext })
    let left := fun (t : State) (writes : List (Nat × List Byte)) =>
      t.commands = s.commands.filter (·.sn != c.sn) ∧ t.gangs = s.gangs ∧ t.spawns = s.spawns ∧ t.accesses = s.accesses ∧
      t.mem = writes.foldl (fun (m : Memory) e => Memory.write m e.1 e.2) s.mem
    let word := fun (code it : Nat) => match c.cplKey with
      | some k => [(k, leBytes 4 (code + 256 * c.rung + 65536 * (it % 65536)))]
      | none => []
    (∀ die, ((s.commands.filter fun x => x.die == die).filter Command.running).length < 2 →
      (∀ x ∈ s.commands, x.die = die → x.running = false → x.cancelled = false) →
      (s.commands.filter fun x => x.die == die).find? (fun x => !x.running) = some c → s.ownerSettled c.owner = true →
      (bitsOf (blockField c.block 0xCC 1) 1 1 = 1 → exec (.rlcCommandStart die) s = .next (staged s (.norm true))) ∧
      (bitsOf (blockField c.block 0xCC 1) 1 1 = 0 → goes (.rlcCommandStart die) 0)) ∧
    (∀ i, s.commands.find? (·.sn == i) = some c →
      (∀ p < 2, c.stage = .ended p 0 → goes (.rlcPhaseComplete i) (p + 1)) ∧
      (c.stage = .ended 2 0 → exec (.rlcPhaseComplete i) s = .next (staged s (.norm false))) ∧
      (∀ event s1, c.stage = .leaving event →
        (s.writeRing c.ctx (s.ctxField c.ctx 0x10 8) event = (true, s1) →
          exec (.rlcPhaseComplete i) s = .next { s1 with commands := s1.commands.filter (·.sn != c.sn) }) ∧
        (s.writeRing c.ctx (s.ctxField c.ctx 0x10 8) event = (false, s1) →
          exec (.rlcPhaseComplete i) s = .next (staged s1 (.leaving event)))) ∧
      (∀ p st v, c.stage = .ended p st → st ≠ 0 → c.final = some v → bitsOf (blockField c.block 0xCE 1) 4 1 = 0 →
        ∃ t, exec (.rlcPhaseComplete i) s = .next t ∧
          left t ((c.key + 0xE6, [BitVec.ofNat 8 p]) :: (c.key + 0xE7, [BitVec.ofNat 8 st]) :: word 5 c.it)) ∧
      ∀ ps s1, c.stage = .norm false →
        s.normSpan c.ctx (blockField c.block 0xC0 8) (8 * blockField c.block 0xC8 4) = (.at_ ps, s1) →
        (∀ p ∈ ps, ∀ k, p.key ≤ k → k < p.key + p.len → s.inRun none k = false) →
        let nr := BitVec.ofNat 64 (normOf (blockField c.block 0xCC 1 % 2 == 1) (doublesOf (bytesOf s ps)))
        normLe nr.toNat (blockField c.block 0xD0 4) c.bn.toNat = true → bitsOf (blockField c.block 0xCE 1) 0 1 = 0 →
        ∃ t, exec (.rlcNormDone i) s = .next t ∧
          left t ((c.key + 0xF0, leBytes 8 nr.toNat) :: (c.key + 0xE6, [0xFF]) :: (c.key + 0xE7, [0]) :: word 1 (c.it + 1)))

/-- R348 to R352, R398: an invalidation is taken by every live package; the buffers drop what it covers; it is acknowledged once drained;
DONE comes with the last answer; a frame that a Z leaf names is taken by a controller, zeroed, in parts before the rest where it comes so,
and Z cleared in the entries of the merged requests that still are what their walks read; a rebuilt directory holds nothing back. -/
def Obligations.TranslationsAreInvalidatedAndFramesZeroed : Prop :=
  ∀ (s : State),
    (∀ h < 32,
      let k := s.invalBlock h
      let base := BitVec.ofNat 64 (s.mem.num k 8)
      let count := s.mem.num (k + 8) 4
      let asid := s.mem.num (k + 12) 2
      s.mem.num (k + 0x14) 1 % 2 = 0 →
      (base.toNat % 65536 = 0 → base.toNat / 2 ^ 61 < 2 →
        ∃ t, exec (.invalidationGo h) s = .next t ∧
          t = { s with
            mem := t.mem, watches := t.watches, fabric := t.fabric, transfers := t.transfers, free := t.free
            l1 := t.l1, tlb := t.tlb, rewritten := t.rewritten, matOps := t.matOps
            invals := s.invals ++ [⟨base, count, asid, s.sn, some (s.podIndex, h), false⟩]
            invalWait := s.invalWait.put h s.livePackages, sn := s.sn + 1 } ∧
          t.mem.byte (k + 0x14) = BitVec.ofNat 8 (1 + (s.mem.num (k + 0x14) 1 &&& 4)) ∧ t.mem.byte (k + 0x15) = BitVec.ofNat 8 (min s.livePackages.length 255) ∧
          StoresOnly s t (k + 0x14) 2) ∧
      (base.toNat % 65536 ≠ 0 ∨ 2 ≤ base.toNat / 2 ^ 61 →
        ∃ t, exec (.invalidationGo h) s = .next t ∧
          Wrote s t [(k + 0x14, [BitVec.ofNat 8 ((s.mem.num (k + 0x14) 1 &&& 6) ||| 4), 0])])) ∧
    (∀ (base : DWord) (count : Word) (asid : BitVec 16),
      (s.invals.find? (fun x => x.base == base && x.count == count.toNat && x.asid == asid.toNat) = none →
        exec (.invalidationRequest base count asid) s = .next { s with
          invals := s.invals ++ [⟨base, count.toNat, asid.toNat, s.sn, none, false⟩], sn := s.sn + 1 }) ∧
      ∀ x, s.invals.find? (fun x => x.base == base && x.count == count.toNat && x.asid == asid.toNat) = some x →
        (x.dropped = false → ∃ t, exec (.invalidationRequest base count asid) s = .next t ∧
          t = { s with
            tlb := t.tlb, sn := s.sn + 1
            invals := s.invals.map fun y => if y.sn = x.sn then { y with dropped := true, sn := s.sn } else y } ∧
          ∀ key, t.tlb.olds.find? key =
            if coversEntry base count.toNat asid.toNat (levelBits (keyLevel key)) key then none else s.tlb.olds.find? key) ∧
        (x.dropped = true → s.invalDrained x = false → exec (.invalidationRequest base count asid) s = .next s) ∧
        (x.dropped = true → s.invalDrained x = true → x.src = none →
          exec (.invalidationRequest base count asid) s = .next { s with invals := s.invals.filter (·.sn != x.sn) })) ∧
    (∀ h pkg w, s.invalWait.find? h = some w →
      ((∀ p ∈ w, p = pkg) → ∃ t, exec (.invalidationAck h pkg) s = .next t ∧
        Wrote { s with invalWait := s.invalWait.erase h } t
          [(s.invalBlock h + 0x14, [BitVec.ofNat 8 ((s.mem.num (s.invalBlock h + 0x14) 1 &&& 4) ||| 2), 0])]) ∧
      ∀ p ∈ w, p ≠ pkg → ∃ t, exec (.invalidationAck h pkg) s = .next t ∧
        Wrote { s with invalWait := s.invalWait.put h (w.filter (· != pkg)) } t
          [(s.invalBlock h + 0x14, [BitVec.ofNat 8 (1 + (s.mem.num (s.invalBlock h + 0x14) 1 &&& 4)), BitVec.ofNat 8 (min (w.filter (· != pkg)).length 255)])]) ∧
    (∀ (i : Nat) (z : Zeroing), s.zeroing[i]? = some z →
      let rs := if z.spread then (List.range 8).map fun n => (z.frame + n * 2 ^ 36, z.size / 8) else [(z.frame, z.size)]
      let within := fun (k : Nat) => ∃ r ∈ rs, r.1 ≤ k ∧ k < r.1 + r.2
      let ours := s.zeroing.filter z.merged
      (z.started = false → ((s.zeroing.filter (·.started)).map (·.frame)).eraseDups.length < 64 →
        ∃ ps, exec (.zeroingRequest i) s = .next
            { s with zeroing := setNth s.zeroing i { z with started := true, passed := ps } } ∧
          ((∀ y ∈ s.zeroing, y.frame = z.frame → y.started = false) → ps = [])) ∧
      (z.started = true →
        ∃ t, exec (.zeroingRequest i) s = .next t ∧
          t = { s with
            mem := t.mem, l1 := t.l1, watches := t.watches, tlb := t.tlb, rewritten := t.rewritten, free := t.free
            zeroing := t.zeroing } ∧
          ∀ k, t.mem.byte k = s.mem.byte k ∨ (within k ∧ inRanges z.passed k = false ∧ t.mem.byte k = 0)) ∧
      (z.started = true → (∀ y ∈ ours, y.entryAt % 8 = 0 ∧ ∀ r ∈ rs, y.entryAt + 8 ≤ r.1 ∨ r.1 + r.2 ≤ y.entryAt) →
        ∃ t, exec (.zeroingComplete i) s = .next t ∧
          t = { s with
            mem := t.mem, l1 := t.l1, poison := t.poison, watches := t.watches, tlb := t.tlb, rewritten := t.rewritten
            matOps := t.matOps, zeroing := s.zeroing.filter fun y => !z.merged y } ∧
          (∀ k, within k →
            t.mem.byte k = (if inRanges z.passed k then s.mem.byte k else 0) ∧ Datum.unit k ∉ t.poison) ∧
          (∀ y ∈ ours, s.mem.num y.entryAt 8 = y.entry → bitsOf y.entry 5 1 = 1 → t.mem.num y.entryAt 8 = y.entry - 32) ∧
          ∀ k, ¬within k → (∀ y ∈ ours, k < y.entryAt ∨ y.entryAt + 8 ≤ k ∨ s.mem.num y.entryAt 8 ≠ y.entry) →
            t.mem.byte k = s.mem.byte k)) ∧
    ∀ pkg, exec (.directoryRebuild pkg) s = .next { s with
      rebuilding := s.rebuilding.filter (· != pkg)
      fabric := { s.fabric with rebuilt := s.fabric.rebuilt.erase pkg } }

/-- R243 to R245, R277: a corrected error changes no datum; one that is not corrected poisons its datum; a hung core's spawns
begin to end and the core is retired. R277, R306, R370 to R374, R376: errors are counted, and lasting ones retire their unit or
poison their line; the loss of power, 110 degrees and a reset leave the flash alone; bring-up goes step by step; a block's key
opens it and a wrong one is counted; the field log goes to the older of its copies. R356, R6: a host core's record sets out for
its port, and a load returns the code of the last, FFFFFFFF where there was none; a write of firmware goes to the register that
its number names, or into memory where no device stands. -/
def Obligations.ThePackageIsCaredFor : Prop :=
  ((∀ (s : State) (d : Datum) (lasting : Bool),
     ∃ t, exec (.softError d false lasting) s = .next t ∧ t = { s with health := t.health, free := t.free } ∧
       ∀ c ∈ s.health.retired, c ∈ t.health.retired) ∧
   (∀ (s : State) (d : Datum) (lasting : Bool),
     (∃ k, d = .unit k) ∨ (∃ g l r, d = .reg g l r) ∨ (∃ g a e, d = .accElem g a e) ∨ (∃ p j, d = .scaleGroup p j) →
     ∃ t, exec (.softError d true lasting) s = .next t ∧
       t = { s with health := t.health, free := t.free, poison := t.poison } ∧
       (∀ x ∈ s.poison, x ∈ t.poison) ∧ (∀ k, d = .unit k → t.unitPoisoned k = true) ∧
       ((∀ k, d ≠ .unit k) → d ∈ t.poison)) ∧
   (∀ (s : State) (lasting : Bool),
     (∀ core line, ∃ t, exec (.softError (.l1Line core line) true lasting) s = .next t ∧
       t = { s with health := t.health, free := t.free, l1 := s.l1.erase (core * 2 ^ 43 + line) }) ∧
     (∀ h, ∃ t, exec (.softError (.handleEntry h) true lasting) s = .next t ∧
       t = { s with health := t.health, free := t.free, handles := s.handles.modify h fun x => { x with poisoned := true } }) ∧
     (∀ k w, ∃ t, exec (.softError (.windowEntry k w) true lasting) s = .next t ∧
       t = { s with health := t.health, free := t.free }) ∧
     ∀ cl, ∃ t, exec (.softError (.syncState cl) true lasting) s = .next t ∧ t = { s with health := t.health, free := t.free }) ∧
   (∀ (s : State) (core g : Nat) (G : Gang) (since : DWord) (sp : Spawn), (g, G) ∈ s.gangs → s.gangs.find? g = some G →
     coreOf g = core → G.candSince = some since → 800000 ≤ (s.clk - since).toNat →
     800000 ≤ (s.clk - s.health.lastIssue.get 0 core).toNat → core ∉ s.health.retired →
     s.spawns.find? G.spawn = some sp →
     ∃ t p', exec (.hangSample core) s = .next t ∧ t.mem = s.mem ∧ t.gangs = s.gangs ∧ core ∈ t.health.retired ∧
       t.spawns.find? G.spawn = some p' ∧ p'.stopped = true ∧ p'.ending.isSome = true)) ∧
  (∀ (s : State),
     let up := fun (n : Nat) => if n < 0xFFFFFFFF then n + 1 else 0xFFFFFFFF
     let restarted := fun (t : State) (dark : Bool) =>
       (∀ k, t.mem.byte k = if inFlash k then s.mem.byte k else 0) ∧ t.gangs = [] ∧ t.spawns = [] ∧ t.teams = [] ∧
       t.accesses = [] ∧ t.poison = [] ∧ t.care.done = 0 ∧ t.care.dark = dark ∧ t.podIndex = s.podIndex ∧ t.care.unlock = []
     let inCare := fun (t : State) (c : Care) => t = { s with care := c }
     (∀ line unc, let at_ := channelLog (s.hbmLine line) + 8
       (∃ t, exec (.hbmError line unc false) s = .next t ∧
         t = { s with health := { s.health with counts := t.health.counts } } ∧
         t.health.counts.get 0 at_ = up (s.health.counts.get 0 at_)) ∧
       let used := s.health.spares.get 0 (bankOf (s.hbmLine line))
       ∃ t, exec (.hbmError line true true) s = .next t ∧
         t = { s with
           health := { s.health with counts := t.health.counts, spares := t.health.spares }, poison := t.poison
           faults := t.faults } ∧
         Datum.unit (s.hbmLine line) ∈ t.poison ∧ (∀ d ∈ s.poison, d ∈ t.poison) ∧
         (used < 4 → t.faults = s.faults ∧ t.health.spares.get 0 (bankOf (s.hbmLine line)) = used + 1) ∧
         (4 ≤ used → t.health.spares = s.health.spares ∧ ∃ r, t.faults = s.faults ++ [r] ∧ r.cause = 11 ∧ r.fatal = false ∧
           r.va = BitVec.ofNat 64 (s.hbmLine line - 2 ^ 50))) ∧
     (∀ stack, exec (.patrolScrub stack) s = .next s) ∧
     (∀ cluster core, core < 8 →
       (∀ engine, ∃ t, exec (.crossbarFlitError cluster core false engine) s = .next t ∧
         t = { s with health := { s.health with counts := t.health.counts } }) ∧
       (∃ t, exec (.crossbarFlitError cluster core true false) s = .next t ∧
         t = { s with health := { s.health with counts := t.health.counts, retired := t.health.retired } } ∧
         ∀ x, x ∈ t.health.retired ↔ x ∈ s.health.retired ∨ x = cluster * 8 + core) ∧
       ∃ t, exec (.crossbarFlitError cluster core true true) s = .next t ∧
         t = { s with health := { s.health with counts := t.health.counts, clusters := t.health.clusters } } ∧
         ∀ x, x ∈ t.health.clusters ↔ x ∈ s.health.clusters ∨ x = cluster) ∧
     (∃ t, exec .powerFail s = .next t ∧ restarted t true) ∧
     (∃ t, exec .reset s = .next t ∧ restarted t false) ∧
     (∀ die temp,
       (110 ≤ temp → ∃ t, exec (.thermalSample die temp) s = .next t ∧ restarted t true) ∧
       (100 ≤ temp → temp < 110 → ∃ t, exec (.thermalSample die temp) s = .next t ∧
         inCare t { s.care with gated := t.care.gated } ∧ ∀ x, x ∈ t.care.gated ↔ x ∈ s.care.gated ∨ x = die) ∧
       (95 ≤ temp → temp < 100 → exec (.thermalSample die temp) s = .next s) ∧
       (temp < 95 → ∃ t, exec (.thermalSample die temp) s = .next t ∧
         inCare t { s.care with gated := t.care.gated } ∧ ∀ x, x ∈ t.care.gated ↔ x ∈ s.care.gated ∧ x ≠ die)) ∧
     (s.care.dark = false → s.care.failed = false →
       (s.care.done < 5 → exec (.bringUp true) s = .next { s with care := { s.care with done := s.care.done + 1 } }) ∧
       (s.care.done = 5 → ∃ t, exec (.bringUp true) s = .next t ∧
         t = { s with mem := t.mem, poison := t.poison, care := { s.care with done := 6 } } ∧
         ∀ k, t.mem.byte k = if isScratchKey k then 0 else s.mem.byte k) ∧
       (s.care.done = 0 → s.care.tries = 0 → exec (.bringUp false) s = .next { s with care := { s.care with tries := 1 } }) ∧
       (s.care.done = 0 → s.care.tries ≠ 0 → exec (.bringUp false) s = .next { s with care := { s.care with dark := true } }) ∧
       (s.care.done = 1 ∨ s.care.done = 2 →
         exec (.bringUp false) s = .next { s with care := { s.care with failed := true } })) ∧
     (∀ blk key value, blockKey blk = some key → blk ≠ 4 →
       let r := if value.toNat % 65536 = key then (true, (s.unlockOf blk).2)
         else if value.toNat % 65536 = 0 then (false, (s.unlockOf blk).2)
         else (false, min 255 ((s.unlockOf blk).2 + 1))
       exec (.unlock blk value) s = .next { s with care := { s.care with unlock := s.care.unlock.put blk r } }) ∧
     (∃ t, exec (.unlock 4 0x6F02) s = .next t ∧ (t.unlockOf 4).1 = true ∧ t.mem.num (s.collPage + 2) 1 % 2 = 1 ∧
       StoresOnly s t s.collPage 4) ∧
     (∃ t, exec .fieldLogWrite s = .next t ∧
       t = { s with
         mem := t.mem, watches := t.watches, l1 := t.l1, tlb := t.tlb, rewritten := t.rewritten, matOps := t.matOps
         health := t.health, care := t.care } ∧
       t.care.copy = 1 - s.care.copy ∧ t.mem.num (s.logKey (1 - s.care.copy)) 4 = 0x4C514B39 ∧
       t.mem.num (s.logKey (1 - s.care.copy) + 4) 4 = (s.health.counts.get 0 4 + 1) % 2 ^ 32 ∧
       StoresOnly s t (s.logKey (1 - s.care.copy)) logSize) ∧
     ∀ bins, ∃ t, exec (.poweredHours bins) s = .next t ∧
       t = { s with health := { s.health with counts := t.health.counts } } ∧
       t.health.counts.get 0 8 = up (s.health.counts.get 0 8)) ∧
  (∀ (s : State) (h port : Nat),
     let pa := if port < 4096 then s.home + offPorts + 64 * port else s.runPort
     (∀ record, record.length = 64 →
       exec (.hostPortStore h port record) s = .next { s with
         posts := s.posts ++ [⟨s.sn * 64, hostGang, h, 63, 0, pa, record, none, []⟩], sn := s.sn + 1
         care := { s.care with hostCodes := s.care.hostCodes.erase (s.hostKey h pa) } }) ∧
     ((∀ p ∈ s.posts, p.gang = hostGang → p.lane = h → p.pa ≠ pa) →
       ∃ t, exec (.hostPortLoad h port) s = .next t ∧
         t = { s with care := { s.care with hostReads := t.care.hostReads } } ∧
         t.care.hostReads.find? h = some (s.care.hostCodes.get 0xFFFFFFFF (s.hostKey h pa)) ∧
         ∀ x, x ≠ h → t.care.hostReads.find? x = s.care.hostReads.find? x) ∧
     ((∃ p ∈ s.posts, p.gang = hostGang ∧ p.lane = h ∧ p.pa = pa) →
       exec (.hostPortLoad h port) s = .next { s with care := { s.care with
         hostWaits := s.care.hostWaits ++ [s.hostKey h pa] } }) ∧
     ∀ bytes : List Byte,
       exec (.registerWrite (2 ^ 60) bytes) s = .next { s with ctxBase := leNat bytes } ∧
       exec (.registerWrite (2 ^ 60 + 8) bytes) s = .next { s with qcbBase := leNat bytes } ∧
       exec (.registerWrite (2 ^ 60 + 16) bytes) s = .next { s with queueAclBase := leNat bytes } ∧
       exec (.registerWrite (2 ^ 60 + 24) bytes) s = .next { s with resolvePort := leNat bytes } ∧
       exec (.registerWrite (2 ^ 60 + 32) bytes) s = .next { s with faultVa := BitVec.ofNat 64 (leNat bytes) } ∧
       (∀ cl < 48, ∃ t, exec (.registerWrite (2 ^ 60 + 8 * (0xC00 + cl)) bytes) s = .next t ∧
         t = { s with sync := { s.sync with staleDrops := t.sync.staleDrops, redirects := t.sync.redirects } } ∧
         t.sync.staleDrops.get 0 cl = s.sync.staleDrops.get 0 cl &&& (0xFFFFFFFF ^^^ (leNat bytes / 2 ^ 32 % 2 ^ 32)) ∧
         t.sync.redirects.get 0 cl = s.sync.redirects.get 0 cl &&& (0xFFFF ^^^ (leNat bytes / 2 ^ 16 % 2 ^ 16)) ∧
         ∀ k, k ≠ cl → t.sync.staleDrops.get 0 k = s.sync.staleDrops.get 0 k ∧
           t.sync.redirects.get 0 k = s.sync.redirects.get 0 k) ∧
       ∀ a, a < 2 ^ 60 → (a < s.home + offReach ∨ s.home + offReach + 0x800 ≤ a) →
         inFlash a = false → s.windowOf a = none → s.linkAt a = none →
         ∃ t, exec (.registerWrite a bytes) s = .next t ∧ Wrote s t [(a, s.aclBytes a bytes)])

/-! ## The fabric -/

/-- R384 to R387: what an ACK covers leaves the replay buffer, a NAK asks again from its SEQ; credits are taken modulo 2^32; the
timers send the last SEQ and the counts; a retrained bundle starts its sequence anew and its link is up, a spare laser of the failing
lane's fibre taken, unless that lane was retrained before or no spare is left; a link without a word
for 100 µs is down, and a retrained one counts anew. R380 to R385, R393: a flit of its bundle's next SEQ is taken: the SEQ
advances and its slot is free; another is dropped. Taken, a control flit is handed to its channel, a data flit writes its bytes
or asks for some, which are answered, and a flit of control flits hands each on. -/
def Obligations.LinksTakeFlitsInSequence : Prop :=
  (∀ (s : State) (l k : Nat),
     let b := s.bundle l k
     let x := s.link l
     let heard := s.fabric.links.put l { x with heard := s.clk }
     let bundled := fun (y : BundleSt) => s.fabric.bundles.put (l * 16 + k) y
     let entry := s.entryOf l
     (∀ seq : BitVec 16, x.backlog = [] →
       (let n := (b.before seq.toNat + 1) % 2 ^ 16
        n ≤ b.replay.length →
        exec (.ack l k seq) s = .next { s with fabric := { s.fabric with
          links := heard, bundles := bundled { b with replay := b.replay.drop n, again := none } } }) ∧
       (b.before seq.toNat < b.replay.length → b.again ≠ some seq.toNat →
        exec (.nak l k seq) s = .next { s with fabric := { s.fabric with
          links := heard
          bundles := bundled { b with replay := b.replay.drop (b.before seq.toNat), again := some seq.toNat } } })) ∧
     (b.up = true → exec (.ackTimer l k) s = .next { s with fabric := { s.fabric with
       bundles := bundled { b with acked := (b.rx + 0xFFFF) % 2 ^ 16 } } }) ∧
     (∀ (sub : Nat) (v : Word), x.backlog = [] →
       let c := s.credit l sub
       let taken := if (v.toNat + 2 ^ 32 - c.limit) % 2 ^ 32 < 2 ^ 31 then
           s.fabric.credits.put (l * 64 + sub) { c with limit := v.toNat }
         else s.fabric.credits
       exec (.credit l [(sub, v)]) s = .next { s with fabric := { s.fabric with links := heard, credits := taken } } ∧
       exec (.csync l [(sub, v)]) s = .next { s with fabric := { s.fabric with links := heard, credits := taken } }) ∧
     (s.dataUp l ≠ [] → exec (.csyncTimer l) s = .next { s with fabric := { s.fabric with
       links := s.fabric.links.put l { x with csyncAt := s.clk } } }) ∧
     (b.up = false → k < 16 →
       let first := b.tx = 0 ∧ b.rx = 0 ∧ b.retrained = []
       let back := fun (t : State) =>
         t = { s with
           mem := t.mem, watches := t.watches, l1 := t.l1, tlb := t.tlb, rewritten := t.rewritten, matOps := t.matOps
           fabric := t.fabric, transfers := t.transfers, free := t.free } ∧
         (t.bundle l k).up = true ∧ (t.bundle l k).rx = 0 ∧ (t.bundle l k).failed = false ∧
         StoresOnly s t entry 4 ∧ (1 ≤ k → bitsOf (t.mem.num entry 4) 5 1 = 1)
       (first → ∃ t, exec (.bundleRetrainDone l k true) s = .next t ∧ back t ∧ (t.bundle l k).retrained = [] ∧
         t.fabric.spares = s.fabric.spares) ∧
       (¬first → ∃ t lane, lane < 8 ∧ exec (.bundleRetrainDone l k true) s = .next t ∧
         let left := s.fabric.spares.get 2 (fibreOf l k lane)
         (left ≠ 0 → lane ∉ b.retrained → back t ∧ (t.bundle l k).retrained = b.retrained ++ [lane] ∧
           t.fabric.spares.get 2 (fibreOf l k lane) = left - 1) ∧
         (left = 0 ∨ lane ∈ b.retrained → t = { s with health := { s.health with counts := t.health.counts }, free := t.free })) ∧
       ∃ t, exec (.bundleRetrainDone l k false) s = .next t ∧
         t = { s with health := { s.health with counts := t.health.counts }, free := t.free }) ∧
     (s.linkUp l = false → 8000000 ≤ (s.clk - x.trainedAt).toNat →
       exec (.linkRetrainTimer l) s = .next { s with fabric := { s.fabric with
         links := s.fabric.links.put l { x with trainedAt := s.clk, parts := [] }
         credits := s.fabric.credits.filter fun e => e.1 / 64 != l } }) ∧
     (80000 ≤ (s.clk - x.heard).toNat → ∃ t, exec (.linkDownTimeout l) s = .next t ∧
       t = { s with
         mem := t.mem, watches := t.watches, l1 := t.l1, tlb := t.tlb, rewritten := t.rewritten, matOps := t.matOps
         fabric := t.fabric, transfers := t.transfers, free := t.free } ∧
       StoresOnly s t entry 4 ∧ bitsOf (t.mem.num entry 4) 5 1 = 0)) ∧
  ((∀ (s : State) (l k sub : Nat), (s.bundle l k).up = true →
     let b := s.bundle l k
     let r := s.takeFlit l k sub b.rx true
     r.1 = true ∧ (r.2.bundle l k).rx = (b.rx + 1) % 2 ^ 16 ∧ (r.2.credit l sub).freed = ((s.credit l sub).freed + 1) % 2 ^ 32 ∧
     r.2.gangs = s.gangs ∧ r.2.accesses = s.accesses ∧ StoresOnly s r.2 (s.entryOf l) 4 ∧
     ∀ seq, seq ≠ b.rx → (s.takeFlit l k sub seq true).1 = false ∧
       ((s.takeFlit l k sub seq true).2.bundle l k).rx = b.rx) ∧
   (∀ (s : State) (l k : Nat) (f : CtlFlit), f.ty = 1 →
     let r := s.takeFlit l k (subOf false (f.ch.toNat % 8) (bitsOf f.ch.toNat 3 1)) f.seq.toNat f.crcOk
     (r.1 = true → exec (.msg l k f) s = .next (r.2.deliverCtl l f)) ∧ (r.1 = false → exec (.msg l k f) s = .next r.2)) ∧
   (∀ (s : State) (l : Nat) (f : CtlFlit), f.ch = 4 → leNat (f.body.take 2) = s.podIndex →
     (s.link l).parts.find? 8 = none → leNat ((f.body.drop 10).take 1) = 0 →
     let src := leNat ((f.body.drop 2).take 2)
     s.deliverCtl l f = { s with fabric := { s.fabric with
       links := s.fabric.links.put l { s.link l with parts := (s.link l).parts.erase 8 }
       beats := s.fabric.beats.put src s.clk, suspects := s.fabric.suspects.filter (·.pkg != src) } }) ∧
   ∀ (s s1 : State) (l k : Nat) (f : DataFlit),
     let ch := f.ch.toNat % 32
     let key := 2 ^ 50 + f.addr.toNat
     let src := f.src.toNat
     s.takeFlit l k (subOf true ch (bitsOf f.ch.toNat 5 1)) f.seq.toNat f.crcOk = (true, s1) →
     (f.ty = 1 → f.dst.toNat = s1.podIndex → ch = 0 → keyHome key = s1.podIndex →
       s1.dataAdmits f (some (f.addr.toNat % 2 ^ 39, f.payload.length)) = true →
       s1.piecePoisoned true ⟨key, f.payload.length, false⟩ = false →
       s1.heldByOther none key (max f.payload.length 1) = false → (∀ j < f.payload.length, s1.inRun none (key + j) = false) →
       ∃ t, exec (.data l k f) s = .next t ∧
         t = { s1 with
           mem := t.mem, l1 := t.l1, watches := t.watches, poison := t.poison, fabric := t.fabric, transfers := t.transfers
           free := t.free, tlb := t.tlb, rewritten := t.rewritten, matOps := t.matOps } ∧
         Holds t key f.payload ∧ StoresOnly s1 t key f.payload.length ∧
         t.fabric.arrived.get 0 (src * 2 ^ 32 + f.xfer.toNat) = s1.arrivedOf src f.xfer + f.payload.length) ∧
     (f.ty = 2 → f.dst.toNat = s1.podIndex → keyHome key = s1.podIndex →
       let n := f.request.toNat
       s1.aclAdmits s1.podIndex src f.tenant.toNat 0 (some (f.addr.toNat % 2 ^ 39, n)) = true →
       s1.piecePoisoned false ⟨key, n, false⟩ = false → s1.heldByOther none key (max n 1) = false →
       (∀ j < n, s1.inRun none (key + j) = false) →
       let asked : Transfer := { xfer := f.xfer, dst := src, tenant := f.tenant.toNat, kind := .clear 0 0 0 }
       exec (.rdreq l k f) s = .next
         ((dataFlits s1.podIndex asked 0 (fun i => f.addr.toNat + i) (s1.mem.read key n)).foldl (fun (s : State) d =>
           s.post { dst := src, data := true, ch := 0, hop := 0, msg := .data { d with status := 0 } } f.xfer.toNat) s1)) ∧
     ∀ g : CtlFlit, g.crcOk = true → g.ty = 1 →
       let sub := subOf false (g.ch.toNat % 8) (bitsOf g.ch.toNat 3 1)
       let c := s1.credit l sub
       exec (.ctrlcarry l k f [g]) s = .next ((s1.putCredit l sub { c with freed := (c.freed + 1) % 2 ^ 32 }).deliverCtl l g) ∧
       exec (.ctrlcarry l k f []) s = .next s1)

/-- R147, R151, R391, R393: a remote atomic is performed once, and answered from memory of it when it comes again; its result, a
POST's answer or a piece's acknowledgement ends the transfer at its source; a transfer without a route looks for one again, and
after 1 ms gives up; what is remembered for 2 ms is forgotten. -/
def Obligations.TransfersAreAnswered : Prop :=
  ∀ (s : State),
    (∀ m : RemoteAtomic,
      let key := 2 ^ 50 + m.addr
      let op := AtomOp.ofCode m.op.toNat
      let old := s.mem.num key op.size
      (∀ d, s.remembered m.src m.xfer = some d → exec (.remoteAtomicArrival m) s =
        .next (s.reply m.src m.xfer (.atomicResult m.xfer d.status d.old))) ∧
      (s.remembered m.src m.xfer = none → keyHome key = s.podIndex →
        s.aclAdmits s.podIndex m.src m.tenant 2 (some (m.addr % 2 ^ 39, op.size)) = true → s.unitPoisoned key = false →
        s.heldByOther none key op.size = false → (∀ j < op.size, s.inRun none (key + j) = false) →
        ∃ t, exec (.remoteAtomicArrival m) s = .next t ∧
          t = { s with
            mem := t.mem, l1 := t.l1, watches := t.watches, fabric := t.fabric, transfers := t.transfers, free := t.free
            tlb := t.tlb, rewritten := t.rewritten, matOps := t.matOps } ∧
          Holds t key (leBytes op.size (op.apply old m.operand.toNat)) ∧ StoresOnly s t key op.size ∧
          t.fabric.dedup = s.fabric.dedup ++ [⟨m.src, m.xfer, 0, BitVec.ofNat 64 old, s.clk⟩])) ∧
    (∀ (x : Word) (t : Transfer), s.transfers.find? (·.xfer == x) = some t →
      let left := s.transfers.filter (·.xfer != x)
      (∀ n row va src addr bytes (count : Word), t.kind = .piece n row va src addr bytes → bytes.length ≤ count.toNat →
        exec (.e2eAck x (count.setWidth 64)) s = .next { s with
          transfers := left
          copies := s.copies.map fun c => if c.sn = n then { c with unacked := c.unacked.filter (· != x.toNat) } else c }) ∧
      (∀ g lane dest ctx pa bytes (code : Word), t.kind = .post g lane dest ctx pa bytes →
        exec (.e2eAck x (code.setWidth 64)) s = .next { s with
          transfers := left, pending := s.pending ++ [⟨x.toNat, g, lane, dest, some [code], none⟩] }) ∧
      (∀ o g lane op addr operand dest old, t.kind = .atomic o g lane op addr operand dest →
        exec (.remoteAtomicResult x 0 old) s = .next { s with
          transfers := left, pending := s.pending ++ answered o.sn g lane dest old.toNat } ∧
        ∀ status since, status ≠ 0 → lane < 64 →
          (∃ u, exec (.remoteAtomicResult x status old) s = .next u ∧
            u = { s with gangs := u.gangs, transfers := left, pending := s.pending ++ answered o.sn g lane dest 0 } ∧
            OnlyThreads s u g fun l old new =>
              new = if l = lane then { old with statuses := old.statuses ++ [(o.sn, status.toNat)] } else old) ∧
          (t.noRoute = some since → 800000 ≤ (s.clk - since).toNat →
            ∃ u, exec (.routeRetryExpiry x) s = .next u ∧
              u = { s with gangs := u.gangs, transfers := left, pending := s.pending ++ answered o.sn g lane dest 0 } ∧
              OnlyThreads s u g fun l old new =>
                new = if l = lane then { old with statuses := old.statuses ++ [(o.sn, 8)] } else old)) ∧
      ∀ since, t.noRoute = some since → 8000 ≤ (s.clk - since).toNat → s.route t.dst t.xfer.toNat ≠ .none →
        exec (.routeRetryTimer x) s = .next { s with
          transfers := s.transfers.map fun u => if u.xfer = x then { u with noRoute := none } else u }) ∧
    exec .dedupExpiry s = .next { s with fabric := { s.fabric with
      dedup := s.fabric.dedup.filter fun d => decide ((s.clk - d.at_).toNat < 1600000) } }

/-- R389, R396, R397, R399: heartbeats go out every 100 µs; a direct peer that is silent is suspected, its common peers asked,
and lost once enough of them confirm, or where there is none after 2 ms more; a lost package is marked, leaves the reach table,
and is reached again once it broadcasts its links; a package that hears of its own loss, or is alone, resets. -/
def Obligations.PeersAreSuspectedAndLost : Prop :=
  ∀ (s : State),
    (80000 ≤ (s.clk - s.fabric.beatAt).toNat → exec .heartbeat s =
      .next (({ s with fabric := { s.fabric with beatAt := s.clk } } : State).flood s.liveLinks .heartbeat)) ∧
    (∀ pkg, pkg < 1024 → pkg ≠ s.podIndex →
      let loss := ((s.flood s.liveLinks (.peerLoss pkg)).losePeer pkg)
      (s.silent pkg = true → s.lost pkg = false → bitsOf (s.reach pkg) 0 1 = 1 → (∀ x ∈ s.fabric.suspects, x.pkg ≠ pkg) →
        let common := (s.liveLinks.map s.peerOf).filter fun p => p != pkg && adjacent p pkg
        exec (.heartbeatTimeout pkg) s = .next
          (({ s with fabric := { s.fabric with
            suspects := s.fabric.suspects ++ [⟨pkg, s.clk, common.length, []⟩] } } : State).flood s.liveLinks (.suspect pkg))) ∧
      (∀ src, (s.silent pkg = true → exec (.suspect src pkg) s =
          .next (s.post { dst := src, data := false, ch := 4, hop := 0, msg := .confirm pkg } 0)) ∧
        (s.silent pkg = false → exec (.suspect src pkg) s = .next s) ∧
        ∀ x, s.fabric.suspects.find? (·.pkg == pkg) = some x → src ∉ x.confirms →
          (0 < x.x → min 2 x.x ≤ x.confirms.length + 1 → exec (.confirm src pkg) s = .next loss) ∧
          (x.x = 0 ∨ x.confirms.length + 1 < min 2 x.x → exec (.confirm src pkg) s = .next { s with
            fabric := { s.fabric with suspects := s.fabric.suspects.map fun y =>
              if y.pkg = pkg then { y with confirms := x.confirms ++ [src] } else y } })) ∧
      (∀ x, s.fabric.suspects.find? (·.pkg == pkg) = some x → x.x = 0 → 1600000 ≤ (s.clk - x.since).toNat →
        s.silent pkg = true → exec (.soloLossTimer pkg) s = .next loss) ∧
      (s.lost pkg = true → exec (.peerLoss pkg) s = .next s) ∧
      (s.lost pkg = false → exec (.peerLoss pkg) s = .next loss ∧ loss.lost pkg = true ∧
        (∀ x ∈ loss.fabric.suspects, x.pkg ≠ pkg) ∧ (s.runs = [] → bitsOf (loss.reach pkg) 0 1 = 0)) ∧
      ∀ board pod, s.podIndex < 1024 → ∃ t, exec (.linkState pkg board pod) s = .next t ∧ bitsOf (t.reach pkg) 0 1 = 1 ∧ t.lost pkg = false ∧
        t.gangs = s.gangs ∧ t.spawns = s.spawns ∧ t.accesses = s.accesses ∧ t.podIndex = s.podIndex ∧
        ∀ k, 2 ^ 50 ≤ k → t.mem.byte k = s.mem.byte k) ∧
    exec (.peerLoss s.podIndex) s = .next (s.restart false) ∧
    (s.liveLinks = [] → 800000 ≤ (s.clk - s.fabric.alone.getD 0).toNat →
      (∃ p < 1024, p ≠ s.podIndex ∧ bitsOf (s.reach p) 0 1 = 1) → exec .isolationTimeout s = .next (s.restart false))

/-! ## Collectives -/

/-- R401 to R404, R409, R410: LOAD in EMPTY or FAILED begins loading, and a whole graph without an error makes READY with RUNSEQ
0; FREE and ABORT leave EMPTY and READY; elsewhere they set LOADERR 7; a request joins its communicator's queue, or is refused
with 2 for its context or 1 for a full queue; the oldest run starts once its predecessor is done and its bases translate, its
counts at NDEP; a member's failure ends a queued run with that status at its turn, with RUNSEQ advanced and its completion word
written. R405 to R408: the next eligible chunk of the
run and operation whose turn it is starts: a SEND's bytes set out for its peer; a CLEAR is kept; a chunk staged whole is added
or copied into its destination, marked, and its buffer free. Which buffer is reserved next is
the model's choice (log 73). -/
def Obligations.CommunicatorsLoadAndRun : Prop :=
  (∀ (s : State) (k : Nat), k < 16 →
     let e := s.comm k
     let st := s.commState k
     (st = 0 ∨ st = 4 → ∃ t, exec (.commLoad k) s = .next t ∧ Wrote s t [(e + 0xA, [0x10])]) ∧
     (st ≠ 0 → st ≠ 4 → ∃ t, exec (.commLoad k) s = .next t ∧ Wrote s t [(e + 0xB, [7])]) ∧
     (st = 1 → 1 ≤ s.mem.num e 8 / 2 ^ 61 →
       ∃ t, exec (.commLoadFinish k) s = .next t ∧ Wrote s t [(e + 0xA, [0]), (e + 0xB, [6])]) ∧
     (st = 1 → s.mem.num e 8 / 2 ^ 61 = 0 → ∀ ps s1 qs s2, s.plainSpan (s.commCtx k) (s.mem.num e 8) 256 = (.at_ ps, s1) →
       let head := bytesOf s ps
       let nops := leNat (head.take 2)
       let nsucc := leNat ((head.drop 2).take 2)
       let members := leNat ((head.drop 0x10).take 128)
       s1.plainSpan (s.commCtx k) ((s.mem.num e 8 + 256) % 2 ^ 64) (32 * nops + 2 * nsucc) = (.at_ qs, s2) →
       let raw := pieces 32 nops ((bytesOf s qs).take (32 * nops))
       let succ := (pieces 2 nsucc ((bytesOf s qs).drop (32 * nops))).map leNat
       let ops := raw.map (parseOp succ)
       graphError s.podIndex nops nsucc members raw succ ops = 0 →
       ∃ t, exec (.commLoadFinish k) s = .next t ∧
         Wrote { s2 with coll := { s.coll with graphs := s.coll.graphs.put k ⟨members, ops⟩ } } t
           [(e + 0xA, [0x20]), (e + 0xC, leBytes 4 0), (e + 0xB, [0])]) ∧
     (st = 2 ∨ st = 4 → (∀ r ∈ s.runs, r.k = k → r.started = true) → ∃ t, exec (.commFree k) s = .next t ∧
       Wrote { s with coll := { s.coll with graphs := s.coll.graphs.erase k } } t [(e + 0xA, [0])]) ∧
     (st = 2 ∨ st = 3 → (∀ r ∈ s.runs, r.k = k → r.cpl = 0) →
       ∃ t, exec (.commAbort k) s = .next t ∧ (∀ r ∈ t.runs, r.k ≠ k) ∧ t.commState k = 2) ∧
     (st ≠ 2 → st ≠ 3 → ∃ t, exec (.commAbort k) s = .next t ∧ Wrote s t [(e + 0xB, [7])]) ∧
     (∀ i p, s.posts.find? (·.sn == i) = some p → p.pa = s.runPort → p.away = none → s.postReady p = true → p.gang ≠ hostGang →
       leNat (p.bytes.take 1) % 16 = k →
       let answered := fun (t : State) (code : Nat) =>
         t.posts = s.posts.filter (·.sn != i) ∧ t.gangs = s.gangs ∧
         t.pending = s.pending ++ [⟨p.sn, p.gang, p.lane, p.dest, some [BitVec.ofNat 32 code], none⟩]
       (p.ctx ≠ s.commCtx k → ∃ t, exec (.runRequest i) s = .next t ∧ answered t 2 ∧ t.runs = s.runs) ∧
       (p.ctx = s.commCtx k → 64 ≤ (s.runs.filter fun r => !r.started).length →
         ∃ t, exec (.runRequest i) s = .next t ∧ answered t 1 ∧ t.runs = s.runs) ∧
       (p.ctx = s.commCtx k → (s.runs.filter fun r => !r.started).length < 64 → st ≠ 0 → st ≠ 4 →
         ∃ t r, exec (.runRequest i) s = .next t ∧ answered t 0 ∧ t.runs = s.runs ++ [r] ∧ r.k = k ∧ r.started = false ∧
           r.prio = leNat ((p.bytes.drop 1).take 1) % 4 ∧ r.cpl = BitVec.ofNat 64 (leNat ((p.bytes.drop 8).take 8)) ∧
           ∀ n < 4, r.bases[n]? = some (BitVec.ofNat 64 (leNat ((p.bytes.drop (16 + 8 * n)).take 8))))) ∧
     (∀ r, s.currentRun k = none → s.runs.find? (fun r => r.k == k) = some r → st = 2 → r.doom = none → r.complete = [] → r.buffers = [] →
       let g := s.graph k
       (g.basesUsed.foldl (fun (acc : List (Option Nat) × State) b =>
         ((acc.1 ++ [(acc.2.baseStatus r.ctx (nth 0#64 r.bases b)).1]), (acc.2.baseStatus r.ctx (nth 0#64 r.bases b)).2))
         ([], s)).1.all (· == some 0) = true →
       g.ops ≠ [] → (∀ o ∈ g.ops, o.kind ≠ 4) →
       ∃ t r', exec (.runStart k) s = .next t ∧ t.currentRun k = some r' ∧ r'.sn = r.sn ∧ r'.started = true ∧
         r'.complete = [] ∧ (∀ n < g.ops.length, r'.pend.get 0 n = (g.op n).ndep) ∧ r'.buffers.length ≤ 8 ∧
         t.commState k = 3 ∧ t.gangs = s.gangs) ∧
     (∀ r status key s0, s.currentRun k = none → s.runs.find? (fun r => r.k == k) = some r → st = 2 → r.doom = some status →
       r.spoiled = [] → r.cpl ≠ 0 → s.sysKey r.ctx r.cpl true 4 = (.at_ key, s0) → (e + 64 ≤ key ∨ key + 4 ≤ e) →
       ∃ t, exec (.runStart k) s = .next t ∧
         t.mem.num key 4 = (status + 256 * k + 65536 * (s.runSeq k % 65536)) % 2 ^ 32 ∧
         t.runs = s.runs.filter (·.sn != r.sn) ∧ t.runSeq k = (s.runSeq k + 1) % 2 ^ 32 ∧ t.gangs = s.gangs) ∧
     ∀ (seq : Word) (status : BitVec 4),
       let mine := s.runs.filter fun r => r.k == k
       let ahead := (seq.toNat + 2 ^ 32 - s.runSeq k) % 2 ^ 32
       (mine.length ≤ ahead → exec (.runfail k seq status) s = .next s) ∧
       (∀ r, mine[ahead]? = some r → 0 < ahead → r.doom = none → exec (.runfail k seq status) s = .next { s with
         runs := s.runs.map fun x => if x.sn = r.sn then { r with doom := some status.toNat } else x }) ∧
       (∀ r, ahead = 0 → mine[0]? = some r → (∀ x ∈ mine, x.started = false) → r.cpl = 0 → r.spoiled = [] →
         ∃ t, exec (.runfail k seq status) s = .next t ∧
           t = { s with
             mem := t.mem, watches := t.watches, l1 := t.l1, tlb := t.tlb, rewritten := t.rewritten, matOps := t.matOps
             runs := s.runs.filter (·.sn != r.sn) } ∧
           t.runSeq k = (s.runSeq k + 1) % 2 ^ 32)) ∧
  (∀ (s : State),
     (∀ r i rest ps s1, s.nextRun = some r → s.eligibleOps r = i :: rest →
       (s.transfers.filter fun t => match t.kind with | .chunk _ _ _ _ => true | _ => false).length < 256 →
       let o := (s.graph r.k).op i
       let c := r.begun.get 0 i
       o.kind = 0 → s.chunkSpan r false (r.dataVa o c) (o.chunkLen c) = (.at_ ps, s1) →
       (∀ p ∈ ps, ∀ key, p.key ≤ key → key < p.key + p.len → s.inRun (some r.sn) key = false) →
       let kind : XferKind := .chunk r.k i c (bytesOf s ps)
       let sent : Transfer := { xfer := BitVec.ofNat 32 (s.sn * 64), dst := o.peer, tenant := s.tenant r.ctx, kind := kind }
       exec .chunkStart s = .next { s1 with
         coll := { s.coll with lastComm := r.k, lastOp := s.coll.lastOp.put r.k i }
         runs := s.runs.map fun x => if x.sn = r.sn then { r with begun := r.begun.put i (c + 1) } else x
         transfers := s.transfers ++ [sent], sn := s.sn + 1 }) ∧
     (∀ m : ClearMsg, (∀ r, s.currentRun m.k = some r → m.chunk < ((s.graph m.k).op m.peerop).chunks) → m ∉ s.coll.clears →
       exec (.clear m) s = .next { s with coll := { s.coll with clears := s.coll.clears ++ [m] } }) ∧
     ∀ k op chunk r b ps s1, s.currentRun k = some r →
       r.buffers.find? (fun b => b.op == op && b.chunk == chunk && b.whole) = some b → b.xfer = none →
       let o := (s.graph k).op op
       let n := o.chunkLen chunk
       let bytes := (natsFrom 0 n).map fun i => b.data.get 0#8 i
       s.chunkSpan r true (r.dataVa o chunk) n = (.at_ ps, s1) → s1.zeroing = s.zeroing →
       (∀ p ∈ ps, ∀ key, p.key ≤ key → key < p.key + p.len → s.inRun (some r.sn) key = false) →
       (o.adds = true → ∀ p ∈ ps, s1.piecePoisoned false p = false) → r.finished.get 0 op + 1 < o.chunks →
       r.complete.length ≠ (s.graph k).ops.length →
       ∃ t r', exec (.chunkApply k op chunk) s = .next t ∧
         t.mem = laid s.mem ps (if o.adds then addElems o (n / o.elem) (bytesOf s ps) bytes else bytes) ∧
         t.gangs = s.gangs ∧ t.currentRun k = some r' ∧ r'.applied = r.applied ++ [(op, chunk)] ∧ b ∉ r'.buffers ∧
         r'.finished.get 0 op = r.finished.get 0 op + 1)

/-! ## The machine's step -/

/-- R22, R24, R39, R40, R160, R162, R370 (derived; the order is the model's choice, log 1, 7, 93): a step runs what comes from outside
first; a package without power does nothing else, and bring-up goes on to its end; a package that is up then runs one event that is due
or one gang's issue cycle. In a cycle a group's packet is fetched at its code base plus 12 bytes for each packet and 4 for each word, a
code base outside control space raising SPACE; it enters the loop buffers where the broadcast fetched it, and each word is executed as
the instruction that it decodes to, the words of a chain one after the other; a chain in which a word meets a cause takes it on the state
before the chain; the broadcast then follows its lanes and the cycle ends. -/
def Obligations.StepsRunTheDecodedInstruction : Prop :=
  (∀ (s : State) (i : Instr) (rest : List Instr), s.inputs = i :: rest →
    (s.care.dark = false ∨ isReset i = true → step s = finished (exec i { s with inputs := rest })) ∧
    (s.care.dark = true → isReset i = false → step s = .fault .packageDark)) ∧
  (∀ s : State, s.inputs = [] →
    (s.care.dark = true → step s = .fault .packageDark) ∧
    (s.care.dark = false → s.care.failed = true → step s = finished (.next s)) ∧
    (s.care.dark = false → s.care.failed = false → s.care.done < 6 → ∀ n s1, s.choose 2 = (n, s1) →
      step s = finished (exec (.bringUp (n == 0)) s1))) ∧
  (∀ s : State, s.inputs = [] → s.care.dark = false → s.care.failed = false → 6 ≤ s.care.done →
    let ds := s.dues
    let cands := s.candidates runWord
    let gs := s.turns runWord cands
    let s1 := { s.markCandidates cands with dueQueue := s.waitingDues ds }
    (∀ d, s.forced ds gs = some (.inl d) → step s = finished (s1.serve d)) ∧
    (∀ e, s.forced ds gs = some (.inr e) → step s = finished (s1.issue e.1 e.2)) ∧
    (s.forced ds gs = none → ∀ n s2, s1.choose (ds.length + gs.length) = (n, s2) →
      (∀ d, ds[n]? = some d → step s = finished (s2.serve d)) ∧
      (∀ e, ds.length ≤ n → gs[n - ds.length]? = some e → step s = finished (s2.issue e.1 e.2)) ∧
      (ds.length + gs.length ≤ n → step s = finished (.next s2)))) ∧
  (∀ (s : State) (d : Due), s.serve d = exec d.instr { s with dueQueue := s.dueQueue.filter (· != d) }) ∧
  (∀ (s s1 : State) (g : Nat) (G : Gang) (lanes : DWord) (pc : Word) (keys : Nat → Nat) (b : Nat → Bool),
    let x : Target := { tensor := false, scratch := false, r := true, size := 1, kind := 3, load := true }
    let va := fun (k : Nat) => s.codeBase g + BitVec.ofNat 64 (12 * pc.toNat + 4 * k)
    let word := fun (k : Nat) => BitVec.ofNat 32 (s1.mem.num (keys k) 4)
    ((s.codeBase g).toNat / 2 ^ 61 ≠ 0 → s.fetch g G lanes pc = (.cause ⟨5, loOf (va 0), hiOf (va 0), lanes, 3⟩, s)) ∧
    ((s.codeBase g).toNat / 2 ^ 61 = 0 →
      s.locateAll g G (s.ctxOf g) x ([0, 1, 2].map fun k => (k, va k)) =
        ([0, 1, 2].map fun k => (k, va k, Place'.at_ (keys k) false (b k)), s1) →
      ∃ old, s.fetch g G lanes pc = (.words (word 0, word 1, word 2) old, s1) ∧
        (s1.rewritten = [] → old = (word 0, word 1, word 2)))) ∧
  (∀ (s s2 : State) (g : Nat) (G G' : Gang) (p : Spawn) (x : Group) (q : Packet) (w : Word),
    s.gangs.find? g = some G → s.excluded g G = false → G.groups = [x] → x.lanes ≠ 0#64 → s.spawnOf g = some p → p.stopped = false →
    let s1 := { s.onThreads g (fun u => { u with park := false }) with cycle := s.cycle + 1 }
    s1.gangs.find? g = some G' → s1.fetch g G' x.lanes x.pc = (.words q q, s2) →
    (∀ e, G'.packets.find? x.pc.toNat = some e → e = q) →
    chainWords [q.1, q.2.1, q.2.2] x.pos = [(x.pos, w)] →
    let fresh := x.subs && ((laneList x.lanes).any fun l =>
      (G'.thread l).issued.isNone && (((G'.thread l).wait.isNone && x.pos == 0) || !(G'.thread l).lbuf.contains x.pc))
    let s3 := if fresh then s2.onGang g fun G => G.deliver x.pc q else s1
    (gatedWord w = true → ∀ l, inLanes x.lanes l = true → (s3.thread g l).fence = none) →
    let now := { s3 with ctx := some (s3.groupCtx g ((s3.gangs.find? g).getD G') x 1) }
    (∀ t, exec (instrOf w) now = .next t →
      s.issue g false = .next ((((t.endGroup G' g x).1.endCycle g).onGang g fun G => { G with candSince := none }).issued g false)) ∧
    (∀ f, exec (instrOf w) now = .fault f → s.issue g false = .fault f) ∧
    (∀ r, exec (instrOf w) now = .refused r → s.issue g false = .refused r)) ∧
  (∀ (s t : State) (c x c' : IssueCtx) (k : Nat) (w : Word) (rest : List (Nat × Word)),
    s.ctx = some x → x.lanes ≠ 0#64 →
    exec (instrOf w) { s with ctx := some { c with lanes := x.lanes, pos := k, rest := rest.length, released := x.released } } = .next t →
    t.ctx = some c' → c'.cause = none → c'.blocked = 0 →
    runWords runWord c ((k, w) :: rest) s = runWords runWord c rest t) ∧
  (∀ (s s1 : State) (c c1 : IssueCtx) (ws : List (Nat × Word)) (n : Nat), c.chained = true → axeOf ws = none →
    (ws.any (fun e => gatedWord e.2) = true → ∀ l, inLanes c.lanes l = true → (s.thread c.gang l).fence = none) →
    runWords runWord c ws { s with ctx := some c } = .next s1 → s1.ctx = some c1 →
    (∀ k, c1.cause = some k →
      runChain runWord (n + 1) c ws s = .next { s.takeCause c k with ctx := some { c with cause := some k } }) ∧
    (c1.cause = none → c1.blocked = 0 → s1.overfull c.gang c.lanes = 0#64 → runChain runWord (n + 1) c ws s = .next s1)) ∧
  (∀ w : Word, (∀ i, decode w = .ok i → instrOf w = i) ∧ ((∀ i, decode w ≠ .ok i) → instrOf w = .illegalWord w))

/-! ## Decoding -/

/-- R35 to R54 (derived): the words that the spec writes out beside their assembly text decode to the instruction that they
stand for, with every field. -/
def Obligations.WordsOfEveryFamilyDecode : Prop :=
  decodeTableWord 32 0x00000001 = some (.exit ⟨0, 0, 0, 0, 0, 0⟩) ∧
  decodeTableWord 32 0x000001C2 = some (.trap ⟨0, 0, 0, 0, 7, 0⟩) ∧
  decodeTableWord 32 0x00100305 = some (.sread ⟨0, 0, 4, 0, 12, 0⟩) ∧
  decodeTableWord 32 0x00004306 = some (.swrite ⟨0, 0, 0, 4, 12, 0⟩) ∧
  decodeTableWord 32 0x01186280 = some (.add ⟨0, 0, 6, 6, 10, 0⟩) ∧
  decodeTableWord 32 0x0230838C = some (.add64 ⟨0, 0, 12, 8, 14, 0⟩) ∧
  decodeTableWord 32 0x432C1281 = some (.divu ⟨0, 1, 11, 1, 10, 0⟩) ∧
  decodeTableWord 32 0x08185002 = some (.shli ⟨0, 0, 6, 5, 0, 2⟩) ∧
  decodeTableWord 32 0x09345804 = some (.cmpiLtu ⟨0, 0, 13, 5, 4⟩) ∧
  decodeTableWord 32 0x0A1C0000 = some (.movl ⟨0, 0, 7, 0⟩) ∧
  decodeTableWord 32 0x0B1D0000 = some (.movh ⟨0, 0, 7, 0x10000⟩) ∧
  decodeTableWord 32 0x0C107253 = some (.ffma ⟨0, 0, 4, 7, 9, 1⟩) ∧
  decodeTableWord 32 0x0D20928B = some (.hfma2 ⟨0, 0, 8, 9, 10, 0, 1⟩) ∧
  decodeTableWord 32 0x0E28C383 = some (.dfma ⟨0, 0, 10, 12, 14, 0⟩) ∧
  decodeTableWord 32 0x0F1461CC = some (.packe4 ⟨0, 0, 5, 6, 7, 0⟩) ∧
  decodeTableWord 32 0x5051558B = some (.vexps ⟨0, 1, 20, 21, 22, 0⟩) ∧
  decodeTableWord 32 0x1114FFFD = some (.bnez ⟨0, 0, 5, 0x7FFD⟩) ∧
  decodeTableWord 32 0x12000003 = some (.jmp ⟨0, 0, 3⟩) ∧
  decodeTableWord 32 0x55206044 = some (.ld32 ⟨0, 1, 8, 6, 4⟩) ∧
  decodeTableWord 32 0x15206037 = some (.lda32 ⟨0, 0, 8, 6, 0, 3⟩) ∧
  decodeTableWord 32 0x17516005 = some (.st64 ⟨0, 0, 20, 22, 0⟩) ∧
  decodeTableWord 32 0x18106200 = some (.atomAdd ⟨0, 0, 4, 6, 8, 0⟩) ∧
  decodeTableWord 32 0x19016280 = some (.atomnAdd ⟨0, 0, 0, 22, 10, 0⟩) ∧
  decodeTableWord 32 0x1B000005 = some (.fenceSp ⟨0, 0, 0, 0, 0, 0⟩) ∧
  decodeTableWord 32 0x1D2C0000 = some (.axe ⟨0, 0, 11, 0, 0, 0⟩) ∧
  decodeTableWord 32 0x1E146400 = some (.post ⟨0, 0, 5, 6, 16, 0⟩) ∧
  decodeTableWord 32 0x201051B1 = some (.lxchRefl ⟨0, 0, 4, 5, 6, 1⟩) ∧
  decodeTableWord 32 0x222880C0 = some (.lpeer ⟨0, 0, 10, 8, 0, 0⟩) ∧
  decodeTableWord 32 0x23002141 = some (.mand ⟨0, 0, 0, 2, 0, 1⟩) ∧
  decodeTableWord 32 0x24000004 = some (.tbar ⟨0, 0, 0, 0, 0, 0⟩) ∧
  decodeTableWord 32 0x25420601 = some (.mma ⟨0, 0, 1, 4, 6, 0, 0, 1⟩) ∧
  decodeTableWord 32 0x27308083 = some (.amov ⟨0, 0, 12, 8, 2, 0⟩) ∧
  decodeTableWord 32 0x28058042 = some (.sbind ⟨0, 0, 1, 24, 1, 0⟩) ∧
  decodeTableWord 32 0x2934E000 = some (.tcopy ⟨0, 0, 13, 14, 0, 0⟩) ∧
  decodeTableWord 32 0x2B246200 = some (.swinit ⟨0, 0, 9, 6, 8, 0⟩) ∧
  decodeTableWord 32 0x2C106000 = some (.rlcgo ⟨0, 0, 4, 6, 0, 0⟩)

/-- R36 to R54 (derived): decoding the word of a well-formed instruction gives the instruction back, with every operand at every
value that the encoding admits; and the word of what a word decodes to is that word. -/
def Obligations.WellFormedInstructionsDecodeFromTheirWord : Prop :=
  (∀ (i : Instr) (w : Word), i.wellFormed = true → encode i = some w → decode w = .ok i) ∧
  (∀ (w : Word) (i : Instr), decode w = .ok i → encode i = some w)

/-! ## Reset, and what every step keeps -/

/-- R373 and the reset values of the tables (derived; the values of log 2, memory reading 0 among them, are the model's choice,
log 3): nothing runs and nothing is outstanding after a reset, spawn ids count from 1, bring-up is still to be done, and the
fields that the spec gives a reset value hold it. -/
def Obligations.TheResetStateIsAsTheSpecSays : Prop :=
  State.reset.gangs = [] ∧ State.reset.spawns = [] ∧ State.reset.teams = [] ∧ State.reset.handles = [] ∧
  State.reset.accesses = [] ∧ State.reset.copies = [] ∧ State.reset.runs = [] ∧ State.reset.transfers = [] ∧
  State.reset.poison = [] ∧ State.reset.clk = 0 ∧ State.reset.spawnIdNext = 1 ∧ State.reset.care.done = 0 ∧
  State.reset.care.dark = false ∧ State.reset.care.failed = false ∧ State.reset.exclusive = none ∧
  ∀ k, State.reset.mem.byte k = 0

/-- The model's canonical forms hold right after reset (derived; the forms are the model's, log 3). -/
def Obligations.TheResetStateIsSound : Prop :=
  Sound State.reset

/-- The model's canonical forms are kept by every step (derived; log 3): memory stays in its canonical form, whatever is stored,
performed, copied, zeroed or reset, and a gang slot holds one gang, whatever starts, ends, is saved or is resumed. -/
def Obligations.EveryStepKeepsTheStateSound : Prop :=
  ∀ s t, Sound s → step s = .next t → Sound t
end

