-- ==== Sys2Proof/Laws/Formats.lean ====
section
/-! SUPPORT. One lemma per word format: the word of the fields reads back as the fields, its major opcode and its selector. -/

set_option Elab.async false

namespace Sys2Proof

theorem toNat_fld (w : BitVec 32) (lo n : Nat) : (fld w lo n).toNat = w.toNat / 2 ^ lo % 2 ^ n := by
  rw [fld, BitVec.toNat_ofNat]

theorem FmtA.toWord_reads (f : FmtA) (op sel : Nat) (hop : op < 64) (hsel : sel < 16) :
    FmtA.ofWord (f.toWord op sel) = f ∧ fldN (f.toWord op sel) 24 6 = op ∧ fldN (f.toWord op sel) 0 4 = sel := by
  obtain ⟨c, k, d, a, b, h⟩ := f
  have h_c := c.isLt
  have h_k := k.isLt
  have h_d := d.isLt
  have h_a := a.isLt
  have h_b := b.isLt
  have h_h := h.isLt
  have hw : (FmtA.toWord op sel ⟨c, k, d, a, b, h⟩).toNat = c.toNat * 2 ^ 31 + k.toNat * 2 ^ 30 + op * 2 ^ 24 + d.toNat * 2 ^ 18 + a.toNat * 2 ^ 12 + b.toNat * 2 ^ 6 + h.toNat * 2 ^ 4 + sel * 2 ^ 0 := by
    rw [FmtA.toWord, BitVec.toNat_ofNat, Nat.mod_eq_of_lt]
    simp only [Nat.reducePow] at *; omega
  refine ⟨?_, ?_, ?_⟩
  · simp only [FmtA.ofWord, FmtA.mk.injEq]
    refine ⟨?_, ?_, ?_, ?_, ?_, ?_⟩ <;> apply BitVec.eq_of_toNat_eq <;> rw [toNat_fld, hw] <;> simp only [Nat.reducePow] at * <;> omega
  · rw [fldN, hw]; simp only [Nat.reducePow] at *; omega
  · rw [fldN, hw]; simp only [Nat.reducePow] at *; omega

theorem FmtH.toWord_reads (f : FmtH) (op sel : Nat) (hop : op < 64) (hsel : sel < 8) :
    FmtH.ofWord (f.toWord op sel) = f ∧ fldN (f.toWord op sel) 24 6 = op ∧ fldN (f.toWord op sel) 0 3 = sel := by
  obtain ⟨c, k, d, a, b, h, g⟩ := f
  have h_c := c.isLt
  have h_k := k.isLt
  have h_d := d.isLt
  have h_a := a.isLt
  have h_b := b.isLt
  have h_h := h.isLt
  have h_g := g.isLt
  have hw : (FmtH.toWord op sel ⟨c, k, d, a, b, h, g⟩).toNat = c.toNat * 2 ^ 31 + k.toNat * 2 ^ 30 + op * 2 ^ 24 + d.toNat * 2 ^ 18 + a.toNat * 2 ^ 12 + b.toNat * 2 ^ 6 + h.toNat * 2 ^ 4 + g.toNat * 2 ^ 3 + sel * 2 ^ 0 := by
    rw [FmtH.toWord, BitVec.toNat_ofNat, Nat.mod_eq_of_lt]
    simp only [Nat.reducePow] at *; omega
  refine ⟨?_, ?_, ?_⟩
  · simp only [FmtH.ofWord, FmtH.mk.injEq]
    refine ⟨?_, ?_, ?_, ?_, ?_, ?_, ?_⟩ <;> apply BitVec.eq_of_toNat_eq <;> rw [toNat_fld, hw] <;> simp only [Nat.reducePow] at * <;> omega
  · rw [fldN, hw]; simp only [Nat.reducePow] at *; omega
  · rw [fldN, hw]; simp only [Nat.reducePow] at *; omega

theorem FmtI.toWord_reads (f : FmtI) (op : Nat) (hop : op < 64) :
    FmtI.ofWord (f.toWord op) = f ∧ fldN (f.toWord op) 24 6 = op := by
  obtain ⟨c, k, d, a, imm⟩ := f
  have h_c := c.isLt
  have h_k := k.isLt
  have h_d := d.isLt
  have h_a := a.isLt
  have h_imm := imm.isLt
  have hw : (FmtI.toWord op ⟨c, k, d, a, imm⟩).toNat = c.toNat * 2 ^ 31 + k.toNat * 2 ^ 30 + op * 2 ^ 24 + d.toNat * 2 ^ 18 + a.toNat * 2 ^ 12 + imm.toNat * 2 ^ 0 := by
    rw [FmtI.toWord, BitVec.toNat_ofNat, Nat.mod_eq_of_lt]
    simp only [Nat.reducePow] at *; omega
  refine ⟨?_, ?_⟩
  · simp only [FmtI.ofWord, FmtI.mk.injEq]
    refine ⟨?_, ?_, ?_, ?_, ?_⟩ <;> apply BitVec.eq_of_toNat_eq <;> rw [toNat_fld, hw] <;> simp only [Nat.reducePow] at * <;> omega
  · rw [fldN, hw]; simp only [Nat.reducePow] at *; omega

theorem FmtSh.toWord_reads (f : FmtSh) (op sel : Nat) (hop : op < 64) (hsel : sel < 4) :
    FmtSh.ofWord (f.toWord op sel) = f ∧ fldN (f.toWord op sel) 24 6 = op ∧ fldN (f.toWord op sel) 6 2 = sel := by
  obtain ⟨c, k, d, a, x, n⟩ := f
  have h_c := c.isLt
  have h_k := k.isLt
  have h_d := d.isLt
  have h_a := a.isLt
  have h_x := x.isLt
  have h_n := n.isLt
  have hw : (FmtSh.toWord op sel ⟨c, k, d, a, x, n⟩).toNat = c.toNat * 2 ^ 31 + k.toNat * 2 ^ 30 + op * 2 ^ 24 + d.toNat * 2 ^ 18 + a.toNat * 2 ^ 12 + x.toNat * 2 ^ 8 + sel * 2 ^ 6 + n.toNat * 2 ^ 0 := by
    rw [FmtSh.toWord, BitVec.toNat_ofNat, Nat.mod_eq_of_lt]
    simp only [Nat.reducePow] at *; omega
  refine ⟨?_, ?_, ?_⟩
  · simp only [FmtSh.ofWord, FmtSh.mk.injEq]
    refine ⟨?_, ?_, ?_, ?_, ?_, ?_⟩ <;> apply BitVec.eq_of_toNat_eq <;> rw [toNat_fld, hw] <;> simp only [Nat.reducePow] at * <;> omega
  · rw [fldN, hw]; simp only [Nat.reducePow] at *; omega
  · rw [fldN, hw]; simp only [Nat.reducePow] at *; omega

theorem FmtCmpi.toWord_reads (f : FmtCmpi) (op sel : Nat) (hop : op < 64) (hsel : sel < 8) :
    FmtCmpi.ofWord (f.toWord op sel) = f ∧ fldN (f.toWord op sel) 24 6 = op ∧ fldN (f.toWord op sel) 9 3 = sel := by
  obtain ⟨c, k, d, a, imm⟩ := f
  have h_c := c.isLt
  have h_k := k.isLt
  have h_d := d.isLt
  have h_a := a.isLt
  have h_imm := imm.isLt
  have hw : (FmtCmpi.toWord op sel ⟨c, k, d, a, imm⟩).toNat = c.toNat * 2 ^ 31 + k.toNat * 2 ^ 30 + op * 2 ^ 24 + d.toNat * 2 ^ 18 + a.toNat * 2 ^ 12 + sel * 2 ^ 9 + imm.toNat * 2 ^ 0 := by
    rw [FmtCmpi.toWord, BitVec.toNat_ofNat, Nat.mod_eq_of_lt]
    simp only [Nat.reducePow] at *; omega
  refine ⟨?_, ?_, ?_⟩
  · simp only [FmtCmpi.ofWord, FmtCmpi.mk.injEq]
    refine ⟨?_, ?_, ?_, ?_, ?_⟩ <;> apply BitVec.eq_of_toNat_eq <;> rw [toNat_fld, hw] <;> simp only [Nat.reducePow] at * <;> omega
  · rw [fldN, hw]; simp only [Nat.reducePow] at *; omega
  · rw [fldN, hw]; simp only [Nat.reducePow] at *; omega

theorem FmtL.toWord_reads (f : FmtL) (op : Nat) (hop : op < 64) :
    FmtL.ofWord (f.toWord op) = f ∧ fldN (f.toWord op) 24 6 = op := by
  obtain ⟨c, k, d, imm⟩ := f
  have h_c := c.isLt
  have h_k := k.isLt
  have h_d := d.isLt
  have h_imm := imm.isLt
  have hw : (FmtL.toWord op ⟨c, k, d, imm⟩).toNat = c.toNat * 2 ^ 31 + k.toNat * 2 ^ 30 + op * 2 ^ 24 + d.toNat * 2 ^ 18 + imm.toNat * 2 ^ 0 := by
    rw [FmtL.toWord, BitVec.toNat_ofNat, Nat.mod_eq_of_lt]
    simp only [Nat.reducePow] at *; omega
  refine ⟨?_, ?_⟩
  · simp only [FmtL.ofWord, FmtL.mk.injEq]
    refine ⟨?_, ?_, ?_, ?_⟩ <;> apply BitVec.eq_of_toNat_eq <;> rw [toNat_fld, hw] <;> simp only [Nat.reducePow] at * <;> omega
  · rw [fldN, hw]; simp only [Nat.reducePow] at *; omega

theorem FmtBr.toWord_reads (f : FmtBr) (op sel : Nat) (hop : op < 64) (hsel : sel < 8) :
    FmtBr.ofWord (f.toWord op sel) = f ∧ fldN (f.toWord op sel) 24 6 = op ∧ fldN (f.toWord op sel) 15 3 = sel := by
  obtain ⟨c, k, a, off⟩ := f
  have h_c := c.isLt
  have h_k := k.isLt
  have h_a := a.isLt
  have h_off := off.isLt
  have hw : (FmtBr.toWord op sel ⟨c, k, a, off⟩).toNat = c.toNat * 2 ^ 31 + k.toNat * 2 ^ 30 + op * 2 ^ 24 + a.toNat * 2 ^ 18 + sel * 2 ^ 15 + off.toNat * 2 ^ 0 := by
    rw [FmtBr.toWord, BitVec.toNat_ofNat, Nat.mod_eq_of_lt]
    simp only [Nat.reducePow] at *; omega
  refine ⟨?_, ?_, ?_⟩
  · simp only [FmtBr.ofWord, FmtBr.mk.injEq]
    refine ⟨?_, ?_, ?_, ?_⟩ <;> apply BitVec.eq_of_toNat_eq <;> rw [toNat_fld, hw] <;> simp only [Nat.reducePow] at * <;> omega
  · rw [fldN, hw]; simp only [Nat.reducePow] at *; omega
  · rw [fldN, hw]; simp only [Nat.reducePow] at *; omega

theorem FmtJ.toWord_reads (f : FmtJ) (op : Nat) (hop : op < 64) :
    FmtJ.ofWord (f.toWord op) = f ∧ fldN (f.toWord op) 24 6 = op := by
  obtain ⟨c, k, off⟩ := f
  have h_c := c.isLt
  have h_k := k.isLt
  have h_off := off.isLt
  have hw : (FmtJ.toWord op ⟨c, k, off⟩).toNat = c.toNat * 2 ^ 31 + k.toNat * 2 ^ 30 + op * 2 ^ 24 + off.toNat * 2 ^ 0 := by
    rw [FmtJ.toWord, BitVec.toNat_ofNat, Nat.mod_eq_of_lt]
    simp only [Nat.reducePow] at *; omega
  refine ⟨?_, ?_⟩
  · simp only [FmtJ.ofWord, FmtJ.mk.injEq]
    refine ⟨?_, ?_, ?_⟩ <;> apply BitVec.eq_of_toNat_eq <;> rw [toNat_fld, hw] <;> simp only [Nat.reducePow] at * <;> omega
  · rw [fldN, hw]; simp only [Nat.reducePow] at *; omega

theorem FmtM.toWord_reads (f : FmtM) (op sel : Nat) (hop : op < 64) (hsel : sel < 16) :
    FmtM.ofWord (f.toWord op sel) = f ∧ fldN (f.toWord op sel) 24 6 = op ∧ fldN (f.toWord op sel) 0 4 = sel := by
  obtain ⟨c, k, d, a, off⟩ := f
  have h_c := c.isLt
  have h_k := k.isLt
  have h_d := d.isLt
  have h_a := a.isLt
  have h_off := off.isLt
  have hw : (FmtM.toWord op sel ⟨c, k, d, a, off⟩).toNat = c.toNat * 2 ^ 31 + k.toNat * 2 ^ 30 + op * 2 ^ 24 + d.toNat * 2 ^ 18 + a.toNat * 2 ^ 12 + off.toNat * 2 ^ 4 + sel * 2 ^ 0 := by
    rw [FmtM.toWord, BitVec.toNat_ofNat, Nat.mod_eq_of_lt]
    simp only [Nat.reducePow] at *; omega
  refine ⟨?_, ?_, ?_⟩
  · simp only [FmtM.ofWord, FmtM.mk.injEq]
    refine ⟨?_, ?_, ?_, ?_, ?_⟩ <;> apply BitVec.eq_of_toNat_eq <;> rw [toNat_fld, hw] <;> simp only [Nat.reducePow] at * <;> omega
  · rw [fldN, hw]; simp only [Nat.reducePow] at *; omega
  · rw [fldN, hw]; simp only [Nat.reducePow] at *; omega

theorem FmtAcq.toWord_reads (f : FmtAcq) (op sel : Nat) (hop : op < 64) (hsel : sel < 16) :
    FmtAcq.ofWord (f.toWord op sel) = f ∧ fldN (f.toWord op sel) 24 6 = op ∧ fldN (f.toWord op sel) 0 4 = sel := by
  obtain ⟨c, k, d, a, x, scope⟩ := f
  have h_c := c.isLt
  have h_k := k.isLt
  have h_d := d.isLt
  have h_a := a.isLt
  have h_x := x.isLt
  have h_scope := scope.isLt
  have hw : (FmtAcq.toWord op sel ⟨c, k, d, a, x, scope⟩).toNat = c.toNat * 2 ^ 31 + k.toNat * 2 ^ 30 + op * 2 ^ 24 + d.toNat * 2 ^ 18 + a.toNat * 2 ^ 12 + x.toNat * 2 ^ 7 + scope.toNat * 2 ^ 4 + sel * 2 ^ 0 := by
    rw [FmtAcq.toWord, BitVec.toNat_ofNat, Nat.mod_eq_of_lt]
    simp only [Nat.reducePow] at *; omega
  refine ⟨?_, ?_, ?_⟩
  · simp only [FmtAcq.ofWord, FmtAcq.mk.injEq]
    refine ⟨?_, ?_, ?_, ?_, ?_, ?_⟩ <;> apply BitVec.eq_of_toNat_eq <;> rw [toNat_fld, hw] <;> simp only [Nat.reducePow] at * <;> omega
  · rw [fldN, hw]; simp only [Nat.reducePow] at *; omega
  · rw [fldN, hw]; simp only [Nat.reducePow] at *; omega

theorem FmtX.toWord_reads (f : FmtX) (op sel : Nat) (hop : op < 64) (hsel : sel < 4) :
    FmtX.ofWord (f.toWord op sel) = f ∧ fldN (f.toWord op sel) 24 6 = op ∧ fldN (f.toWord op sel) 4 2 = sel := by
  obtain ⟨c, k, d, a, b, m⟩ := f
  have h_c := c.isLt
  have h_k := k.isLt
  have h_d := d.isLt
  have h_a := a.isLt
  have h_b := b.isLt
  have h_m := m.isLt
  have hw : (FmtX.toWord op sel ⟨c, k, d, a, b, m⟩).toNat = c.toNat * 2 ^ 31 + k.toNat * 2 ^ 30 + op * 2 ^ 24 + d.toNat * 2 ^ 18 + a.toNat * 2 ^ 12 + b.toNat * 2 ^ 6 + sel * 2 ^ 4 + m.toNat * 2 ^ 0 := by
    rw [FmtX.toWord, BitVec.toNat_ofNat, Nat.mod_eq_of_lt]
    simp only [Nat.reducePow] at *; omega
  refine ⟨?_, ?_, ?_⟩
  · simp only [FmtX.ofWord, FmtX.mk.injEq]
    refine ⟨?_, ?_, ?_, ?_, ?_, ?_⟩ <;> apply BitVec.eq_of_toNat_eq <;> rw [toNat_fld, hw] <;> simp only [Nat.reducePow] at * <;> omega
  · rw [fldN, hw]; simp only [Nat.reducePow] at *; omega
  · rw [fldN, hw]; simp only [Nat.reducePow] at *; omega

theorem FmtG.toWord_reads (f : FmtG) (op sel : Nat) (hop : op < 64) (hsel : sel < 64) :
    FmtG.ofWord (f.toWord op sel) = f ∧ fldN (f.toWord op sel) 24 6 = op ∧ fldN (f.toWord op sel) 6 6 = sel := by
  obtain ⟨c, k, d, a, h, m⟩ := f
  have h_c := c.isLt
  have h_k := k.isLt
  have h_d := d.isLt
  have h_a := a.isLt
  have h_h := h.isLt
  have h_m := m.isLt
  have hw : (FmtG.toWord op sel ⟨c, k, d, a, h, m⟩).toNat = c.toNat * 2 ^ 31 + k.toNat * 2 ^ 30 + op * 2 ^ 24 + d.toNat * 2 ^ 18 + a.toNat * 2 ^ 12 + sel * 2 ^ 6 + h.toNat * 2 ^ 4 + m.toNat * 2 ^ 0 := by
    rw [FmtG.toWord, BitVec.toNat_ofNat, Nat.mod_eq_of_lt]
    simp only [Nat.reducePow] at *; omega
  refine ⟨?_, ?_, ?_⟩
  · simp only [FmtG.ofWord, FmtG.mk.injEq]
    refine ⟨?_, ?_, ?_, ?_, ?_, ?_⟩ <;> apply BitVec.eq_of_toNat_eq <;> rw [toNat_fld, hw] <;> simp only [Nat.reducePow] at * <;> omega
  · rw [fldN, hw]; simp only [Nat.reducePow] at *; omega
  · rw [fldN, hw]; simp only [Nat.reducePow] at *; omega

theorem FmtS.toWord_reads (f : FmtS) (op bit sel : Nat) (hop : op < 64) (hbit : bit < 2) (hsel : sel < 16) :
    FmtS.ofWord (f.toWord op bit sel) = f ∧ fldN (f.toWord op bit sel) 24 6 = op ∧ fldN (f.toWord op bit sel) 18 1 = bit ∧ fldN (f.toWord op bit sel) 0 4 = sel := by
  obtain ⟨c, k, d, a, b, h⟩ := f
  have h_c := c.isLt
  have h_k := k.isLt
  have h_d := d.isLt
  have h_a := a.isLt
  have h_b := b.isLt
  have h_h := h.isLt
  have hw : (FmtS.toWord op bit sel ⟨c, k, d, a, b, h⟩).toNat = c.toNat * 2 ^ 31 + k.toNat * 2 ^ 30 + op * 2 ^ 24 + d.toNat * 2 ^ 19 + bit * 2 ^ 18 + a.toNat * 2 ^ 12 + b.toNat * 2 ^ 6 + h.toNat * 2 ^ 4 + sel * 2 ^ 0 := by
    rw [FmtS.toWord, BitVec.toNat_ofNat, Nat.mod_eq_of_lt]
    simp only [Nat.reducePow] at *; omega
  refine ⟨?_, ?_, ?_, ?_⟩
  · simp only [FmtS.ofWord, FmtS.mk.injEq]
    refine ⟨?_, ?_, ?_, ?_, ?_, ?_⟩ <;> apply BitVec.eq_of_toNat_eq <;> rw [toNat_fld, hw] <;> simp only [Nat.reducePow] at * <;> omega
  · rw [fldN, hw]; simp only [Nat.reducePow] at *; omega
  · rw [fldN, hw]; simp only [Nat.reducePow] at *; omega
  · rw [fldN, hw]; simp only [Nat.reducePow] at *; omega

theorem FmtMma.toWord_reads (f : FmtMma) (op : Nat) (hop : op < 64) :
    FmtMma.ofWord (f.toWord op) = f ∧ fldN (f.toWord op) 24 6 = op := by
  obtain ⟨c, k, acc, sa, sb, types, x, z⟩ := f
  have h_c := c.isLt
  have h_k := k.isLt
  have h_acc := acc.isLt
  have h_sa := sa.isLt
  have h_sb := sb.isLt
  have h_types := types.isLt
  have h_x := x.isLt
  have h_z := z.isLt
  have hw : (FmtMma.toWord op ⟨c, k, acc, sa, sb, types, x, z⟩).toNat = c.toNat * 2 ^ 31 + k.toNat * 2 ^ 30 + op * 2 ^ 24 + acc.toNat * 2 ^ 22 + sa.toNat * 2 ^ 15 + sb.toNat * 2 ^ 8 + types.toNat * 2 ^ 4 + x.toNat * 2 ^ 1 + z.toNat * 2 ^ 0 := by
    rw [FmtMma.toWord, BitVec.toNat_ofNat, Nat.mod_eq_of_lt]
    simp only [Nat.reducePow] at *; omega
  refine ⟨?_, ?_⟩
  · simp only [FmtMma.ofWord, FmtMma.mk.injEq]
    refine ⟨?_, ?_, ?_, ?_, ?_, ?_, ?_, ?_⟩ <;> apply BitVec.eq_of_toNat_eq <;> rw [toNat_fld, hw] <;> simp only [Nat.reducePow] at * <;> omega
  · rw [fldN, hw]; simp only [Nat.reducePow] at *; omega

theorem FmtMmag.toWord_reads (f : FmtMmag) (op : Nat) (hop : op < 64) :
    FmtMmag.ofWord (f.toWord op) = f ∧ fldN (f.toWord op) 24 6 = op := by
  obtain ⟨c, k, acc, vi, sb, types, x, z⟩ := f
  have h_c := c.isLt
  have h_k := k.isLt
  have h_acc := acc.isLt
  have h_vi := vi.isLt
  have h_sb := sb.isLt
  have h_types := types.isLt
  have h_x := x.isLt
  have h_z := z.isLt
  have hw : (FmtMmag.toWord op ⟨c, k, acc, vi, sb, types, x, z⟩).toNat = c.toNat * 2 ^ 31 + k.toNat * 2 ^ 30 + op * 2 ^ 24 + acc.toNat * 2 ^ 22 + vi.toNat * 2 ^ 16 + sb.toNat * 2 ^ 9 + types.toNat * 2 ^ 5 + x.toNat * 2 ^ 1 + z.toNat * 2 ^ 0 := by
    rw [FmtMmag.toWord, BitVec.toNat_ofNat, Nat.mod_eq_of_lt]
    simp only [Nat.reducePow] at *; omega
  refine ⟨?_, ?_⟩
  · simp only [FmtMmag.ofWord, FmtMmag.mk.injEq]
    refine ⟨?_, ?_, ?_, ?_, ?_, ?_, ?_, ?_⟩ <;> apply BitVec.eq_of_toNat_eq <;> rw [toNat_fld, hw] <;> simp only [Nat.reducePow] at * <;> omega
  · rw [fldN, hw]; simp only [Nat.reducePow] at *; omega

theorem FmtPref.toWord_reads (f : FmtPref) (op : Nat) (hop : op < 64) :
    FmtPref.ofWord (f.toWord op) = f ∧ fldN (f.toWord op) 24 6 = op := by
  obtain ⟨c, k, d, a, off, x, l⟩ := f
  have h_c := c.isLt
  have h_k := k.isLt
  have h_d := d.isLt
  have h_a := a.isLt
  have h_off := off.isLt
  have h_x := x.isLt
  have h_l := l.isLt
  have hw : (FmtPref.toWord op ⟨c, k, d, a, off, x, l⟩).toNat = c.toNat * 2 ^ 31 + k.toNat * 2 ^ 30 + op * 2 ^ 24 + d.toNat * 2 ^ 18 + a.toNat * 2 ^ 12 + off.toNat * 2 ^ 4 + x.toNat * 2 ^ 2 + l.toNat * 2 ^ 0 := by
    rw [FmtPref.toWord, BitVec.toNat_ofNat, Nat.mod_eq_of_lt]
    simp only [Nat.reducePow] at *; omega
  refine ⟨?_, ?_⟩
  · simp only [FmtPref.ofWord, FmtPref.mk.injEq]
    refine ⟨?_, ?_, ?_, ?_, ?_, ?_, ?_⟩ <;> apply BitVec.eq_of_toNat_eq <;> rw [toNat_fld, hw] <;> simp only [Nat.reducePow] at * <;> omega
  · rw [fldN, hw]; simp only [Nat.reducePow] at *; omega

theorem FmtCpol.toWord_reads (f : FmtCpol) (op : Nat) (hop : op < 64) :
    FmtCpol.ofWord (f.toWord op) = f ∧ fldN (f.toWord op) 24 6 = op := by
  obtain ⟨c, k, d, a, b, h, f⟩ := f
  have h_c := c.isLt
  have h_k := k.isLt
  have h_d := d.isLt
  have h_a := a.isLt
  have h_b := b.isLt
  have h_h := h.isLt
  have h_f := f.isLt
  have hw : (FmtCpol.toWord op ⟨c, k, d, a, b, h, f⟩).toNat = c.toNat * 2 ^ 31 + k.toNat * 2 ^ 30 + op * 2 ^ 24 + d.toNat * 2 ^ 18 + a.toNat * 2 ^ 12 + b.toNat * 2 ^ 6 + h.toNat * 2 ^ 4 + f.toNat * 2 ^ 0 := by
    rw [FmtCpol.toWord, BitVec.toNat_ofNat, Nat.mod_eq_of_lt]
    simp only [Nat.reducePow] at *; omega
  refine ⟨?_, ?_⟩
  · simp only [FmtCpol.ofWord, FmtCpol.mk.injEq]
    refine ⟨?_, ?_, ?_, ?_, ?_, ?_, ?_⟩ <;> apply BitVec.eq_of_toNat_eq <;> rw [toNat_fld, hw] <;> simp only [Nat.reducePow] at * <;> omega
  · rw [fldN, hw]; simp only [Nat.reducePow] at *; omega

theorem FmtHint.toWord_reads (f : FmtHint) (op : Nat) (hop : op < 64) :
    FmtHint.ofWord (f.toWord op) = f ∧ fldN (f.toWord op) 24 6 = op := by
  obtain ⟨c, k, x⟩ := f
  have h_c := c.isLt
  have h_k := k.isLt
  have h_x := x.isLt
  have hw : (FmtHint.toWord op ⟨c, k, x⟩).toNat = c.toNat * 2 ^ 31 + k.toNat * 2 ^ 30 + op * 2 ^ 24 + x.toNat * 2 ^ 0 := by
    rw [FmtHint.toWord, BitVec.toNat_ofNat, Nat.mod_eq_of_lt]
    simp only [Nat.reducePow] at *; omega
  refine ⟨?_, ?_⟩
  · simp only [FmtHint.ofWord, FmtHint.mk.injEq]
    refine ⟨?_, ?_, ?_⟩ <;> apply BitVec.eq_of_toNat_eq <;> rw [toNat_fld, hw] <;> simp only [Nat.reducePow] at * <;> omega
  · rw [fldN, hw]; simp only [Nat.reducePow] at *; omega

end Sys2Proof
end

