-- ==== Sys2Proof/Laws/Map.lean ====
section
/-! SUPPORT. Laws of sparse tables and of memory: what a read after a write gives, and that every operation keeps the
canonical form. -/

namespace Sys2Proof

variable {α : Type}

/-! ## Lookup -/

theorem SMap.find?_put (m : SMap α) (k k' : Nat) (v : α) :
    (m.put k v).find? k' = if k' = k then some v else m.find? k' := by
  induction m with
  | nil => simp [SMap.put, SMap.find?, eq_comm]
  | cons e t ih =>
    obtain ⟨a, x⟩ := e
    simp only [SMap.put]
    split
    · simp only [SMap.find?, eq_comm]
    · split
      · simp only [SMap.find?, ih]; grind
      · simp only [SMap.find?]; grind

theorem SMap.find?_put_self (m : SMap α) (k : Nat) (v : α) : (m.put k v).find? k = some v := by
  simp [SMap.find?_put]

theorem SMap.find?_put_ne (m : SMap α) {k k' : Nat} (v : α) (h : k' ≠ k) : (m.put k v).find? k' = m.find? k' := by
  simp [SMap.find?_put, h]

@[simp] theorem SMap.find?_modify (m : SMap α) (k k' : Nat) (f : α → α) :
    (m.modify k f).find? k' = if k' = k then (m.find? k').map f else m.find? k' := by
  induction m with
  | nil => simp [SMap.modify, SMap.find?]
  | cons e t ih =>
    obtain ⟨a, x⟩ := e
    simp only [SMap.modify]
    split
    · simp only [SMap.find?]; grind
    · simp only [SMap.find?, ih]; grind

theorem SMap.find?_erase (m : SMap α) (k k' : Nat) :
    (m.erase k).find? k' = if k' = k then none else m.find? k' := by
  induction m with
  | nil => simp [SMap.erase, SMap.find?]
  | cons e t ih =>
    obtain ⟨a, x⟩ := e
    simp only [SMap.erase]
    split
    · rw [ih]; simp only [SMap.find?]; grind
    · simp only [SMap.find?, ih]; grind

@[simp] theorem SMap.find?_mapVals {β : Type} (f : Nat → α → β) (m : SMap α) (k : Nat) :
    (SMap.mapVals f m).find? k = (m.find? k).map (f k) := by
  induction m with
  | nil => rfl
  | cons e t ih =>
    obtain ⟨a, x⟩ := e
    simp only [SMap.mapVals, SMap.find?, ih]
    split <;> simp_all

theorem SMap.get_set [DecidableEq α] (m : SMap α) (d : α) (k k' : Nat) (v : α) :
    (m.set d k v).get d k' = if k' = k then v else m.get d k' := by
  unfold SMap.set SMap.get
  split
  · rw [SMap.find?_erase]; grind
  · rw [SMap.find?_put]; grind

/-! ## The canonical form -/

theorem SMap.risesFrom_mono {m : SMap α} {a b : Nat} (h : SMap.risesFrom a m = true) (hb : b ≤ a) :
    SMap.risesFrom b m = true := by
  cases m with
  | nil => rfl
  | cons e t => obtain ⟨k, x⟩ := e; simp only [SMap.risesFrom, Bool.and_eq_true, decide_eq_true_eq] at *; exact ⟨by omega, h.2⟩

theorem SMap.risesFrom_put {m : SMap α} {lo k : Nat} (h : SMap.risesFrom lo m = true) (hk : lo ≤ k) (v : α) :
    SMap.risesFrom lo (m.put k v) = true := by
  induction m generalizing lo with
  | nil => simp [SMap.put, SMap.risesFrom, hk]
  | cons e t ih =>
    obtain ⟨a, x⟩ := e
    simp only [SMap.risesFrom, Bool.and_eq_true, decide_eq_true_eq] at h
    simp only [SMap.put]
    split
    · simp only [SMap.risesFrom, Bool.and_eq_true, decide_eq_true_eq]; exact ⟨hk, by omega, h.2⟩
    · split
      · simp only [SMap.risesFrom, Bool.and_eq_true, decide_eq_true_eq]; exact ⟨h.1, ih h.2 (by omega)⟩
      · simp only [SMap.risesFrom, Bool.and_eq_true, decide_eq_true_eq]
        obtain rfl : k = a := by omega
        exact ⟨hk, h.2⟩

theorem SMap.risesFrom_erase {m : SMap α} {lo : Nat} (h : SMap.risesFrom lo m = true) (k : Nat) :
    SMap.risesFrom lo (m.erase k) = true := by
  induction m generalizing lo with
  | nil => rfl
  | cons e t ih =>
    obtain ⟨a, x⟩ := e
    simp only [SMap.risesFrom, Bool.and_eq_true, decide_eq_true_eq] at h
    simp only [SMap.erase]
    split
    · exact SMap.risesFrom_mono (ih h.2) (by omega)
    · simp only [SMap.risesFrom, Bool.and_eq_true, decide_eq_true_eq]; exact ⟨h.1, ih h.2⟩

theorem SMap.mem_put {m : SMap α} {k : Nat} {v : α} {e : Nat × α} (h : e ∈ m.put k v) : e = (k, v) ∨ e ∈ m := by
  induction m with
  | nil => simpa [SMap.put] using h
  | cons a t ih =>
    obtain ⟨a, x⟩ := a
    simp only [SMap.put] at h
    split at h
    · simpa using h
    · split at h
      · rcases List.mem_cons.1 h with h | h
        · exact .inr (by simp [h])
        · rcases ih h with h | h
          · exact .inl h
          · exact .inr (by simp [h])
      · rcases List.mem_cons.1 h with h | h
        · exact .inl h
        · exact .inr (by simp [h])

theorem SMap.mem_erase {m : SMap α} {k : Nat} {e : Nat × α} (h : e ∈ m.erase k) : e ∈ m := by
  induction m with
  | nil => exact h
  | cons a t ih =>
    obtain ⟨a, x⟩ := a
    simp only [SMap.erase] at h
    split at h
    · exact .tail _ (ih h)
    · rcases List.mem_cons.1 h with h | h
      · simp [h]
      · exact .tail _ (ih h)

/-- Writing a key keeps the canonical form. -/
theorem SMap.wf_set [DecidableEq α] {d : α} {m : SMap α} (h : SMap.wf d m = true) (k : Nat) (v : α) :
    SMap.wf d (m.set d k v) = true := by
  simp only [SMap.wf, Bool.and_eq_true, List.all_eq_true, decide_eq_true_eq] at *
  unfold SMap.set
  split
  · exact ⟨SMap.risesFrom_erase h.1 k, fun e he => h.2 e (SMap.mem_erase he)⟩
  · refine ⟨SMap.risesFrom_put h.1 (by omega) v, fun e he => ?_⟩
    rcases SMap.mem_put he with rfl | he
    · assumption
    · exact h.2 e he

/-! ## Lists -/

@[simp] theorem natsFrom_length (lo n : Nat) : (natsFrom lo n).length = n := by
  induction n generalizing lo with
  | zero => rfl
  | succ n ih => simp [natsFrom, ih]

@[simp] theorem mem_natsFrom {lo n x : Nat} : x ∈ natsFrom lo n ↔ lo ≤ x ∧ x < lo + n := by
  induction n generalizing lo with
  | zero => simp [natsFrom]
  | succ n ih => simp only [natsFrom, List.mem_cons, ih]; omega

@[simp] theorem mapNumbered_length {β : Type} (f : Nat → α → β) (i : Nat) (l : List α) :
    (mapNumbered f i l).length = l.length := by
  induction l generalizing i with
  | nil => rfl
  | cons x t ih => simp [mapNumbered, ih]

theorem nth_mapNumbered (d : α) (f : Nat → α → α) (i n : Nat) (l : List α) (h : n < l.length) :
    nth d (mapNumbered f i l) n = f (i + n) (nth d l n) := by
  induction l generalizing i n with
  | nil => simp at h
  | cons x t ih =>
    cases n with
    | zero => rfl
    | succ n => simp only [mapNumbered, nth]; rw [ih _ _ (by simpa using h)]; congr 1; omega

theorem nth_of_le (d : α) (l : List α) (n : Nat) (h : l.length ≤ n) : nth d l n = d := by
  induction l generalizing n with
  | nil => rfl
  | cons x t ih =>
    cases n with
    | zero => simp at h
    | succ n => exact ih n (by simpa using h)

@[simp] theorem leBytes_length (n x : Nat) : (leBytes n x).length = n := by
  induction n generalizing x with
  | zero => rfl
  | succ n ih => simp [leBytes, ih]

theorem leNat_leBytes (n x : Nat) : leNat (leBytes n x) = x % 256 ^ n := by
  induction n generalizing x with
  | zero => simp [leBytes, leNat, Nat.mod_one]
  | succ n ih =>
    rw [leBytes, leNat, ih, BitVec.toNat_ofNat, pow_succ' 256 n, Nat.mod_mul (a := 256) (b := 256 ^ n)]

/-! ## Memory -/

theorem Memory.wf_setByte {m : Memory} (h : m.wf = true) (k : Nat) (v : Byte) : (m.setByte k v).wf = true :=
  SMap.wf_set h k v

/-- A write keeps memory's canonical form. -/
theorem Memory.wf_write {m : Memory} (h : m.wf = true) (k : Nat) (bs : List Byte) : (m.write k bs).wf = true := by
  induction bs generalizing m k with
  | nil => exact h
  | cons b t ih => exact ih (Memory.wf_setByte h k b) (k + 1)

/-- Filtering keeps memory's canonical form. -/
theorem SMap.risesFrom_filter {m : SMap α} {lo : Nat} (h : SMap.risesFrom lo m = true) (p : Nat × α → Bool) :
    SMap.risesFrom lo (m.filter p) = true := by
  induction m generalizing lo with
  | nil => rfl
  | cons e t ih =>
    obtain ⟨a, x⟩ := e
    simp only [SMap.risesFrom, Bool.and_eq_true, decide_eq_true_eq] at h
    simp only [List.filter]
    split
    · simp only [SMap.risesFrom, Bool.and_eq_true, decide_eq_true_eq]; exact ⟨h.1, ih h.2⟩
    · exact ih (SMap.risesFrom_mono h.2 (by omega))

theorem Memory.wf_filter {m : Memory} (h : m.wf = true) (p : Nat × Byte → Bool) : Memory.wf (List.filter p m) = true := by
  simp only [Memory.wf, SMap.wf, Bool.and_eq_true, List.all_eq_true] at *
  exact ⟨SMap.risesFrom_filter h.1 p, fun e he => h.2 e (List.mem_filter.1 he).1⟩

/-- A byte read after one byte is written. -/
theorem Memory.byte_setByte (m : Memory) (k k' : Nat) (v : Byte) :
    (m.setByte k v).byte k' = if k' = k then v else m.byte k' :=
  SMap.get_set m memDefault k k' v

/-- A byte outside the written range reads as before. -/
theorem Memory.byte_write_outside (m : Memory) (k : Nat) (bs : List Byte) (a : Nat)
    (ha : a < k ∨ k + bs.length ≤ a) : (m.write k bs).byte a = m.byte a := by
  induction bs generalizing m k with
  | nil => rfl
  | cons b t ih =>
    simp only [List.length_cons] at ha
    simp only [Memory.write]
    rw [ih _ (k + 1) (by omega), Memory.byte_setByte, if_neg (by omega)]

/-- A byte of the written range reads as written. -/
theorem Memory.byte_write_inside (m : Memory) (k : Nat) (bs : List Byte) (i : Nat) (hi : i < bs.length) :
    (m.write k bs).byte (k + i) = bs[i] := by
  induction bs generalizing m k i with
  | nil => simp at hi
  | cons b t ih =>
    simp only [Memory.write]
    cases i with
    | zero =>
      rw [Memory.byte_write_outside _ (k + 1) t (k + 0) (by omega), Memory.byte_setByte]; simp
    | succ i =>
      have := ih (m.setByte k b) (k + 1) i (by simpa using hi)
      rw [show k + (i + 1) = k + 1 + i by omega, this]; rfl

end Sys2Proof
end

