-- ==== Sys2Proof/Laws/PerInstr.lean ====
section
/-! SUPPORT. For every instruction: the word a well-formed instruction encodes to decodes back to it. -/

set_option Elab.async false

namespace Sys2Proof.Laws.Roundtrip

open Sys2Proof

/-- The word of a well-formed instruction decodes to it. -/
def Statement (i : Instr) : Prop := i.wellFormed = true → ∀ w, encode i = some w → decode w = .ok i

theorem nop (f : FmtA) : Statement (.nop f) := by
  intro _ w h
  obtain rfl := Option.some.inj h
  obtain ⟨h0, h1, h2⟩ := FmtA.toWord_reads f 0 0 (by decide) (by decide)
  rw [decode, h1, decodeMajor, h2, decodeMajor0, h0]

theorem exit (f : FmtA) : Statement (.exit f) := by
  intro _ w h
  obtain rfl := Option.some.inj h
  obtain ⟨h0, h1, h2⟩ := FmtA.toWord_reads f 0 1 (by decide) (by decide)
  rw [decode, h1, decodeMajor, h2, decodeMajor0, h0]

theorem trap (f : FmtA) : Statement (.trap f) := by
  intro _ w h
  obtain rfl := Option.some.inj h
  obtain ⟨h0, h1, h2⟩ := FmtA.toWord_reads f 0 2 (by decide) (by decide)
  rw [decode, h1, decodeMajor, h2, decodeMajor0, h0]

theorem brk (f : FmtA) : Statement (.brk f) := by
  intro _ w h
  obtain rfl := Option.some.inj h
  obtain ⟨h0, h1, h2⟩ := FmtA.toWord_reads f 0 3 (by decide) (by decide)
  rw [decode, h1, decodeMajor, h2, decodeMajor0, h0]

theorem eret (f : FmtA) : Statement (.eret f) := by
  intro _ w h
  obtain rfl := Option.some.inj h
  obtain ⟨h0, h1, h2⟩ := FmtA.toWord_reads f 0 4 (by decide) (by decide)
  rw [decode, h1, decodeMajor, h2, decodeMajor0, h0]

theorem sread (f : FmtA) : Statement (.sread f) := by
  intro _ w h
  obtain rfl := Option.some.inj h
  obtain ⟨h0, h1, h2⟩ := FmtA.toWord_reads f 0 5 (by decide) (by decide)
  rw [decode, h1, decodeMajor, h2, decodeMajor0, h0]

theorem swrite (f : FmtA) : Statement (.swrite f) := by
  intro _ w h
  obtain rfl := Option.some.inj h
  obtain ⟨h0, h1, h2⟩ := FmtA.toWord_reads f 0 6 (by decide) (by decide)
  rw [decode, h1, decodeMajor, h2, decodeMajor0, h0]

theorem yield (f : FmtA) : Statement (.yield f) := by
  intro _ w h
  obtain rfl := Option.some.inj h
  obtain ⟨h0, h1, h2⟩ := FmtA.toWord_reads f 0 7 (by decide) (by decide)
  rw [decode, h1, decodeMajor, h2, decodeMajor0, h0]

theorem watch (f : FmtA) : Statement (.watch f) := by
  intro _ w h
  obtain rfl := Option.some.inj h
  obtain ⟨h0, h1, h2⟩ := FmtA.toWord_reads f 0 8 (by decide) (by decide)
  rw [decode, h1, decodeMajor, h2, decodeMajor0, h0]

theorem waitw (f : FmtA) : Statement (.waitw f) := by
  intro _ w h
  obtain rfl := Option.some.inj h
  obtain ⟨h0, h1, h2⟩ := FmtA.toWord_reads f 0 9 (by decide) (by decide)
  rw [decode, h1, decodeMajor, h2, decodeMajor0, h0]

theorem xacq (f : FmtA) : Statement (.xacq f) := by
  intro _ w h
  obtain rfl := Option.some.inj h
  obtain ⟨h0, h1, h2⟩ := FmtA.toWord_reads f 0 10 (by decide) (by decide)
  rw [decode, h1, decodeMajor, h2, decodeMajor0, h0]

theorem xrel (f : FmtA) : Statement (.xrel f) := by
  intro _ w h
  obtain rfl := Option.some.inj h
  obtain ⟨h0, h1, h2⟩ := FmtA.toWord_reads f 0 11 (by decide) (by decide)
  rw [decode, h1, decodeMajor, h2, decodeMajor0, h0]

theorem xtry (f : FmtA) : Statement (.xtry f) := by
  intro _ w h
  obtain rfl := Option.some.inj h
  obtain ⟨h0, h1, h2⟩ := FmtA.toWord_reads f 0 12 (by decide) (by decide)
  rw [decode, h1, decodeMajor, h2, decodeMajor0, h0]

theorem add (f : FmtA) : Statement (.add f) := by
  intro _ w h
  obtain rfl := Option.some.inj h
  obtain ⟨h0, h1, h2⟩ := FmtA.toWord_reads f 1 0 (by decide) (by decide)
  rw [decode, h1, decodeMajor, h2, decodeMajor1, h0]

theorem sub (f : FmtA) : Statement (.sub f) := by
  intro _ w h
  obtain rfl := Option.some.inj h
  obtain ⟨h0, h1, h2⟩ := FmtA.toWord_reads f 1 1 (by decide) (by decide)
  rw [decode, h1, decodeMajor, h2, decodeMajor1, h0]

theorem mul (f : FmtA) : Statement (.mul f) := by
  intro _ w h
  obtain rfl := Option.some.inj h
  obtain ⟨h0, h1, h2⟩ := FmtA.toWord_reads f 1 2 (by decide) (by decide)
  rw [decode, h1, decodeMajor, h2, decodeMajor1, h0]

theorem mulh (f : FmtA) : Statement (.mulh f) := by
  intro _ w h
  obtain rfl := Option.some.inj h
  obtain ⟨h0, h1, h2⟩ := FmtA.toWord_reads f 1 3 (by decide) (by decide)
  rw [decode, h1, decodeMajor, h2, decodeMajor1, h0]

theorem mulhu (f : FmtA) : Statement (.mulhu f) := by
  intro _ w h
  obtain rfl := Option.some.inj h
  obtain ⟨h0, h1, h2⟩ := FmtA.toWord_reads f 1 4 (by decide) (by decide)
  rw [decode, h1, decodeMajor, h2, decodeMajor1, h0]

theorem and (f : FmtA) : Statement (.and f) := by
  intro _ w h
  obtain rfl := Option.some.inj h
  obtain ⟨h0, h1, h2⟩ := FmtA.toWord_reads f 1 5 (by decide) (by decide)
  rw [decode, h1, decodeMajor, h2, decodeMajor1, h0]

theorem or (f : FmtA) : Statement (.or f) := by
  intro _ w h
  obtain rfl := Option.some.inj h
  obtain ⟨h0, h1, h2⟩ := FmtA.toWord_reads f 1 6 (by decide) (by decide)
  rw [decode, h1, decodeMajor, h2, decodeMajor1, h0]

theorem xor (f : FmtA) : Statement (.xor f) := by
  intro _ w h
  obtain rfl := Option.some.inj h
  obtain ⟨h0, h1, h2⟩ := FmtA.toWord_reads f 1 7 (by decide) (by decide)
  rw [decode, h1, decodeMajor, h2, decodeMajor1, h0]

theorem andn (f : FmtA) : Statement (.andn f) := by
  intro _ w h
  obtain rfl := Option.some.inj h
  obtain ⟨h0, h1, h2⟩ := FmtA.toWord_reads f 1 8 (by decide) (by decide)
  rw [decode, h1, decodeMajor, h2, decodeMajor1, h0]

theorem shl (f : FmtA) : Statement (.shl f) := by
  intro _ w h
  obtain rfl := Option.some.inj h
  obtain ⟨h0, h1, h2⟩ := FmtA.toWord_reads f 1 9 (by decide) (by decide)
  rw [decode, h1, decodeMajor, h2, decodeMajor1, h0]

theorem shr (f : FmtA) : Statement (.shr f) := by
  intro _ w h
  obtain rfl := Option.some.inj h
  obtain ⟨h0, h1, h2⟩ := FmtA.toWord_reads f 1 10 (by decide) (by decide)
  rw [decode, h1, decodeMajor, h2, decodeMajor1, h0]

theorem sra (f : FmtA) : Statement (.sra f) := by
  intro _ w h
  obtain rfl := Option.some.inj h
  obtain ⟨h0, h1, h2⟩ := FmtA.toWord_reads f 1 11 (by decide) (by decide)
  rw [decode, h1, decodeMajor, h2, decodeMajor1, h0]

theorem rol (f : FmtA) : Statement (.rol f) := by
  intro _ w h
  obtain rfl := Option.some.inj h
  obtain ⟨h0, h1, h2⟩ := FmtA.toWord_reads f 1 12 (by decide) (by decide)
  rw [decode, h1, decodeMajor, h2, decodeMajor1, h0]

theorem min (f : FmtA) : Statement (.min f) := by
  intro _ w h
  obtain rfl := Option.some.inj h
  obtain ⟨h0, h1, h2⟩ := FmtA.toWord_reads f 1 13 (by decide) (by decide)
  rw [decode, h1, decodeMajor, h2, decodeMajor1, h0]

theorem max (f : FmtA) : Statement (.max f) := by
  intro _ w h
  obtain rfl := Option.some.inj h
  obtain ⟨h0, h1, h2⟩ := FmtA.toWord_reads f 1 14 (by decide) (by decide)
  rw [decode, h1, decodeMajor, h2, decodeMajor1, h0]

theorem minu (f : FmtA) : Statement (.minu f) := by
  intro _ w h
  obtain rfl := Option.some.inj h
  obtain ⟨h0, h1, h2⟩ := FmtA.toWord_reads f 1 15 (by decide) (by decide)
  rw [decode, h1, decodeMajor, h2, decodeMajor1, h0]

theorem maxu (f : FmtA) : Statement (.maxu f) := by
  intro _ w h
  obtain rfl := Option.some.inj h
  obtain ⟨h0, h1, h2⟩ := FmtA.toWord_reads f 2 0 (by decide) (by decide)
  rw [decode, h1, decodeMajor, h2, decodeMajor2, h0]

theorem abs (f : FmtA) : Statement (.abs f) := by
  intro _ w h
  obtain rfl := Option.some.inj h
  obtain ⟨h0, h1, h2⟩ := FmtA.toWord_reads f 2 1 (by decide) (by decide)
  rw [decode, h1, decodeMajor, h2, decodeMajor2, h0]

theorem clz (f : FmtA) : Statement (.clz f) := by
  intro _ w h
  obtain rfl := Option.some.inj h
  obtain ⟨h0, h1, h2⟩ := FmtA.toWord_reads f 2 2 (by decide) (by decide)
  rw [decode, h1, decodeMajor, h2, decodeMajor2, h0]

theorem popc (f : FmtA) : Statement (.popc f) := by
  intro _ w h
  obtain rfl := Option.some.inj h
  obtain ⟨h0, h1, h2⟩ := FmtA.toWord_reads f 2 3 (by decide) (by decide)
  rw [decode, h1, decodeMajor, h2, decodeMajor2, h0]

theorem brev (f : FmtA) : Statement (.brev f) := by
  intro _ w h
  obtain rfl := Option.some.inj h
  obtain ⟨h0, h1, h2⟩ := FmtA.toWord_reads f 2 4 (by decide) (by decide)
  rw [decode, h1, decodeMajor, h2, decodeMajor2, h0]

theorem sel (f : FmtA) : Statement (.sel f) := by
  intro _ w h
  obtain rfl := Option.some.inj h
  obtain ⟨h0, h1, h2⟩ := FmtA.toWord_reads f 2 5 (by decide) (by decide)
  rw [decode, h1, decodeMajor, h2, decodeMajor2, h0]

theorem cmpeq (f : FmtA) : Statement (.cmpeq f) := by
  intro _ w h
  obtain rfl := Option.some.inj h
  obtain ⟨h0, h1, h2⟩ := FmtA.toWord_reads f 2 6 (by decide) (by decide)
  rw [decode, h1, decodeMajor, h2, decodeMajor2, h0]

theorem cmpne (f : FmtA) : Statement (.cmpne f) := by
  intro _ w h
  obtain rfl := Option.some.inj h
  obtain ⟨h0, h1, h2⟩ := FmtA.toWord_reads f 2 7 (by decide) (by decide)
  rw [decode, h1, decodeMajor, h2, decodeMajor2, h0]

theorem cmplt (f : FmtA) : Statement (.cmplt f) := by
  intro _ w h
  obtain rfl := Option.some.inj h
  obtain ⟨h0, h1, h2⟩ := FmtA.toWord_reads f 2 8 (by decide) (by decide)
  rw [decode, h1, decodeMajor, h2, decodeMajor2, h0]

theorem cmple (f : FmtA) : Statement (.cmple f) := by
  intro _ w h
  obtain rfl := Option.some.inj h
  obtain ⟨h0, h1, h2⟩ := FmtA.toWord_reads f 2 9 (by decide) (by decide)
  rw [decode, h1, decodeMajor, h2, decodeMajor2, h0]

theorem cmpltu (f : FmtA) : Statement (.cmpltu f) := by
  intro _ w h
  obtain rfl := Option.some.inj h
  obtain ⟨h0, h1, h2⟩ := FmtA.toWord_reads f 2 10 (by decide) (by decide)
  rw [decode, h1, decodeMajor, h2, decodeMajor2, h0]

theorem cmpleu (f : FmtA) : Statement (.cmpleu f) := by
  intro _ w h
  obtain rfl := Option.some.inj h
  obtain ⟨h0, h1, h2⟩ := FmtA.toWord_reads f 2 11 (by decide) (by decide)
  rw [decode, h1, decodeMajor, h2, decodeMajor2, h0]

theorem add64 (f : FmtA) : Statement (.add64 f) := by
  intro _ w h
  obtain rfl := Option.some.inj h
  obtain ⟨h0, h1, h2⟩ := FmtA.toWord_reads f 2 12 (by decide) (by decide)
  rw [decode, h1, decodeMajor, h2, decodeMajor2, h0]

theorem sub64 (f : FmtA) : Statement (.sub64 f) := by
  intro _ w h
  obtain rfl := Option.some.inj h
  obtain ⟨h0, h1, h2⟩ := FmtA.toWord_reads f 2 13 (by decide) (by decide)
  rw [decode, h1, decodeMajor, h2, decodeMajor2, h0]

theorem mul64 (f : FmtA) : Statement (.mul64 f) := by
  intro _ w h
  obtain rfl := Option.some.inj h
  obtain ⟨h0, h1, h2⟩ := FmtA.toWord_reads f 2 14 (by decide) (by decide)
  rw [decode, h1, decodeMajor, h2, decodeMajor2, h0]

theorem mad (f : FmtA) : Statement (.mad f) := by
  intro _ w h
  obtain rfl := Option.some.inj h
  obtain ⟨h0, h1, h2⟩ := FmtA.toWord_reads f 2 15 (by decide) (by decide)
  rw [decode, h1, decodeMajor, h2, decodeMajor2, h0]

theorem div (f : FmtA) : Statement (.div f) := by
  intro _ w h
  obtain rfl := Option.some.inj h
  obtain ⟨h0, h1, h2⟩ := FmtA.toWord_reads f 3 0 (by decide) (by decide)
  rw [decode, h1, decodeMajor, h2, decodeMajor3, h0]

theorem divu (f : FmtA) : Statement (.divu f) := by
  intro _ w h
  obtain rfl := Option.some.inj h
  obtain ⟨h0, h1, h2⟩ := FmtA.toWord_reads f 3 1 (by decide) (by decide)
  rw [decode, h1, decodeMajor, h2, decodeMajor3, h0]

theorem rem (f : FmtA) : Statement (.rem f) := by
  intro _ w h
  obtain rfl := Option.some.inj h
  obtain ⟨h0, h1, h2⟩ := FmtA.toWord_reads f 3 2 (by decide) (by decide)
  rw [decode, h1, decodeMajor, h2, decodeMajor3, h0]

theorem remu (f : FmtA) : Statement (.remu f) := by
  intro _ w h
  obtain rfl := Option.some.inj h
  obtain ⟨h0, h1, h2⟩ := FmtA.toWord_reads f 3 3 (by decide) (by decide)
  rw [decode, h1, decodeMajor, h2, decodeMajor3, h0]

theorem bfx (f : FmtA) : Statement (.bfx f) := by
  intro _ w h
  obtain rfl := Option.some.inj h
  obtain ⟨h0, h1, h2⟩ := FmtA.toWord_reads f 3 4 (by decide) (by decide)
  rw [decode, h1, decodeMajor, h2, decodeMajor3, h0]

theorem bfxs (f : FmtA) : Statement (.bfxs f) := by
  intro _ w h
  obtain rfl := Option.some.inj h
  obtain ⟨h0, h1, h2⟩ := FmtA.toWord_reads f 3 5 (by decide) (by decide)
  rw [decode, h1, decodeMajor, h2, decodeMajor3, h0]

theorem bfi (f : FmtA) : Statement (.bfi f) := by
  intro _ w h
  obtain rfl := Option.some.inj h
  obtain ⟨h0, h1, h2⟩ := FmtA.toWord_reads f 3 6 (by decide) (by decide)
  rw [decode, h1, decodeMajor, h2, decodeMajor3, h0]

theorem shl64 (f : FmtA) : Statement (.shl64 f) := by
  intro _ w h
  obtain rfl := Option.some.inj h
  obtain ⟨h0, h1, h2⟩ := FmtA.toWord_reads f 3 7 (by decide) (by decide)
  rw [decode, h1, decodeMajor, h2, decodeMajor3, h0]

theorem shr64 (f : FmtA) : Statement (.shr64 f) := by
  intro _ w h
  obtain rfl := Option.some.inj h
  obtain ⟨h0, h1, h2⟩ := FmtA.toWord_reads f 3 8 (by decide) (by decide)
  rw [decode, h1, decodeMajor, h2, decodeMajor3, h0]

theorem sra64 (f : FmtA) : Statement (.sra64 f) := by
  intro _ w h
  obtain rfl := Option.some.inj h
  obtain ⟨h0, h1, h2⟩ := FmtA.toWord_reads f 3 9 (by decide) (by decide)
  rw [decode, h1, decodeMajor, h2, decodeMajor3, h0]

theorem mulw (f : FmtA) : Statement (.mulw f) := by
  intro _ w h
  obtain rfl := Option.some.inj h
  obtain ⟨h0, h1, h2⟩ := FmtA.toWord_reads f 3 10 (by decide) (by decide)
  rw [decode, h1, decodeMajor, h2, decodeMajor3, h0]

theorem mulwu (f : FmtA) : Statement (.mulwu f) := by
  intro _ w h
  obtain rfl := Option.some.inj h
  obtain ⟨h0, h1, h2⟩ := FmtA.toWord_reads f 3 11 (by decide) (by decide)
  rw [decode, h1, decodeMajor, h2, decodeMajor3, h0]

theorem addi (f : FmtI) : Statement (.addi f) := by
  intro _ w h
  obtain rfl := Option.some.inj h
  obtain ⟨h0, h1⟩ := FmtI.toWord_reads f 4 (by decide)
  rw [decode, h1, decodeMajor, h0]

theorem andi (f : FmtI) : Statement (.andi f) := by
  intro _ w h
  obtain rfl := Option.some.inj h
  obtain ⟨h0, h1⟩ := FmtI.toWord_reads f 5 (by decide)
  rw [decode, h1, decodeMajor, h0]

theorem ori (f : FmtI) : Statement (.ori f) := by
  intro _ w h
  obtain rfl := Option.some.inj h
  obtain ⟨h0, h1⟩ := FmtI.toWord_reads f 6 (by decide)
  rw [decode, h1, decodeMajor, h0]

theorem xori (f : FmtI) : Statement (.xori f) := by
  intro _ w h
  obtain rfl := Option.some.inj h
  obtain ⟨h0, h1⟩ := FmtI.toWord_reads f 7 (by decide)
  rw [decode, h1, decodeMajor, h0]

theorem shli (f : FmtSh) : Statement (.shli f) := by
  intro _ w h
  obtain rfl := Option.some.inj h
  obtain ⟨h0, h1, h2⟩ := FmtSh.toWord_reads f 8 0 (by decide) (by decide)
  rw [decode, h1, decodeMajor, h2, decodeMajor8, h0]

theorem shri (f : FmtSh) : Statement (.shri f) := by
  intro _ w h
  obtain rfl := Option.some.inj h
  obtain ⟨h0, h1, h2⟩ := FmtSh.toWord_reads f 8 1 (by decide) (by decide)
  rw [decode, h1, decodeMajor, h2, decodeMajor8, h0]

theorem srai (f : FmtSh) : Statement (.srai f) := by
  intro _ w h
  obtain rfl := Option.some.inj h
  obtain ⟨h0, h1, h2⟩ := FmtSh.toWord_reads f 8 2 (by decide) (by decide)
  rw [decode, h1, decodeMajor, h2, decodeMajor8, h0]

theorem roli (f : FmtSh) : Statement (.roli f) := by
  intro _ w h
  obtain rfl := Option.some.inj h
  obtain ⟨h0, h1, h2⟩ := FmtSh.toWord_reads f 8 3 (by decide) (by decide)
  rw [decode, h1, decodeMajor, h2, decodeMajor8, h0]

theorem cmpiEq (f : FmtCmpi) : Statement (.cmpiEq f) := by
  intro _ w h
  obtain rfl := Option.some.inj h
  obtain ⟨h0, h1, h2⟩ := FmtCmpi.toWord_reads f 9 0 (by decide) (by decide)
  rw [decode, h1, decodeMajor, h2, decodeMajor9, h0]

theorem cmpiNe (f : FmtCmpi) : Statement (.cmpiNe f) := by
  intro _ w h
  obtain rfl := Option.some.inj h
  obtain ⟨h0, h1, h2⟩ := FmtCmpi.toWord_reads f 9 1 (by decide) (by decide)
  rw [decode, h1, decodeMajor, h2, decodeMajor9, h0]

theorem cmpiLt (f : FmtCmpi) : Statement (.cmpiLt f) := by
  intro _ w h
  obtain rfl := Option.some.inj h
  obtain ⟨h0, h1, h2⟩ := FmtCmpi.toWord_reads f 9 2 (by decide) (by decide)
  rw [decode, h1, decodeMajor, h2, decodeMajor9, h0]

theorem cmpiLe (f : FmtCmpi) : Statement (.cmpiLe f) := by
  intro _ w h
  obtain rfl := Option.some.inj h
  obtain ⟨h0, h1, h2⟩ := FmtCmpi.toWord_reads f 9 3 (by decide) (by decide)
  rw [decode, h1, decodeMajor, h2, decodeMajor9, h0]

theorem cmpiLtu (f : FmtCmpi) : Statement (.cmpiLtu f) := by
  intro _ w h
  obtain rfl := Option.some.inj h
  obtain ⟨h0, h1, h2⟩ := FmtCmpi.toWord_reads f 9 4 (by decide) (by decide)
  rw [decode, h1, decodeMajor, h2, decodeMajor9, h0]

theorem cmpiLeu (f : FmtCmpi) : Statement (.cmpiLeu f) := by
  intro _ w h
  obtain rfl := Option.some.inj h
  obtain ⟨h0, h1, h2⟩ := FmtCmpi.toWord_reads f 9 5 (by decide) (by decide)
  rw [decode, h1, decodeMajor, h2, decodeMajor9, h0]

theorem cmpiGt (f : FmtCmpi) : Statement (.cmpiGt f) := by
  intro _ w h
  obtain rfl := Option.some.inj h
  obtain ⟨h0, h1, h2⟩ := FmtCmpi.toWord_reads f 9 6 (by decide) (by decide)
  rw [decode, h1, decodeMajor, h2, decodeMajor9, h0]

theorem cmpiGe (f : FmtCmpi) : Statement (.cmpiGe f) := by
  intro _ w h
  obtain rfl := Option.some.inj h
  obtain ⟨h0, h1, h2⟩ := FmtCmpi.toWord_reads f 9 7 (by decide) (by decide)
  rw [decode, h1, decodeMajor, h2, decodeMajor9, h0]

theorem movl (f : FmtL) : Statement (.movl f) := by
  intro _ w h
  obtain rfl := Option.some.inj h
  obtain ⟨h0, h1⟩ := FmtL.toWord_reads f 10 (by decide)
  rw [decode, h1, decodeMajor, h0]

theorem movh (f : FmtL) : Statement (.movh f) := by
  intro _ w h
  obtain rfl := Option.some.inj h
  obtain ⟨h0, h1⟩ := FmtL.toWord_reads f 11 (by decide)
  rw [decode, h1, decodeMajor, h0]

theorem fadd (f : FmtA) : Statement (.fadd f) := by
  intro _ w h
  obtain rfl := Option.some.inj h
  obtain ⟨h0, h1, h2⟩ := FmtA.toWord_reads f 12 0 (by decide) (by decide)
  rw [decode, h1, decodeMajor, h2, decodeMajor12, h0]

theorem fsub (f : FmtA) : Statement (.fsub f) := by
  intro _ w h
  obtain rfl := Option.some.inj h
  obtain ⟨h0, h1, h2⟩ := FmtA.toWord_reads f 12 1 (by decide) (by decide)
  rw [decode, h1, decodeMajor, h2, decodeMajor12, h0]

theorem fmul (f : FmtA) : Statement (.fmul f) := by
  intro _ w h
  obtain rfl := Option.some.inj h
  obtain ⟨h0, h1, h2⟩ := FmtA.toWord_reads f 12 2 (by decide) (by decide)
  rw [decode, h1, decodeMajor, h2, decodeMajor12, h0]

theorem ffma (f : FmtA) : Statement (.ffma f) := by
  intro _ w h
  obtain rfl := Option.some.inj h
  obtain ⟨h0, h1, h2⟩ := FmtA.toWord_reads f 12 3 (by decide) (by decide)
  rw [decode, h1, decodeMajor, h2, decodeMajor12, h0]

theorem fmin (f : FmtA) : Statement (.fmin f) := by
  intro _ w h
  obtain rfl := Option.some.inj h
  obtain ⟨h0, h1, h2⟩ := FmtA.toWord_reads f 12 4 (by decide) (by decide)
  rw [decode, h1, decodeMajor, h2, decodeMajor12, h0]

theorem fmax (f : FmtA) : Statement (.fmax f) := by
  intro _ w h
  obtain rfl := Option.some.inj h
  obtain ⟨h0, h1, h2⟩ := FmtA.toWord_reads f 12 5 (by decide) (by decide)
  rw [decode, h1, decodeMajor, h2, decodeMajor12, h0]

theorem fcmpeq (f : FmtA) : Statement (.fcmpeq f) := by
  intro _ w h
  obtain rfl := Option.some.inj h
  obtain ⟨h0, h1, h2⟩ := FmtA.toWord_reads f 12 6 (by decide) (by decide)
  rw [decode, h1, decodeMajor, h2, decodeMajor12, h0]

theorem fcmplt (f : FmtA) : Statement (.fcmplt f) := by
  intro _ w h
  obtain rfl := Option.some.inj h
  obtain ⟨h0, h1, h2⟩ := FmtA.toWord_reads f 12 7 (by decide) (by decide)
  rw [decode, h1, decodeMajor, h2, decodeMajor12, h0]

theorem fcmple (f : FmtA) : Statement (.fcmple f) := by
  intro _ w h
  obtain rfl := Option.some.inj h
  obtain ⟨h0, h1, h2⟩ := FmtA.toWord_reads f 12 8 (by decide) (by decide)
  rw [decode, h1, decodeMajor, h2, decodeMajor12, h0]

theorem fcmpun (f : FmtA) : Statement (.fcmpun f) := by
  intro _ w h
  obtain rfl := Option.some.inj h
  obtain ⟨h0, h1, h2⟩ := FmtA.toWord_reads f 12 9 (by decide) (by decide)
  rw [decode, h1, decodeMajor, h2, decodeMajor12, h0]

theorem fabs (f : FmtA) : Statement (.fabs f) := by
  intro _ w h
  obtain rfl := Option.some.inj h
  obtain ⟨h0, h1, h2⟩ := FmtA.toWord_reads f 12 10 (by decide) (by decide)
  rw [decode, h1, decodeMajor, h2, decodeMajor12, h0]

theorem fneg (f : FmtA) : Statement (.fneg f) := by
  intro _ w h
  obtain rfl := Option.some.inj h
  obtain ⟨h0, h1, h2⟩ := FmtA.toWord_reads f 12 11 (by decide) (by decide)
  rw [decode, h1, decodeMajor, h2, decodeMajor12, h0]

theorem fcopysign (f : FmtA) : Statement (.fcopysign f) := by
  intro _ w h
  obtain rfl := Option.some.inj h
  obtain ⟨h0, h1, h2⟩ := FmtA.toWord_reads f 12 12 (by decide) (by decide)
  rw [decode, h1, decodeMajor, h2, decodeMajor12, h0]

theorem ffms (f : FmtA) : Statement (.ffms f) := by
  intro _ w h
  obtain rfl := Option.some.inj h
  obtain ⟨h0, h1, h2⟩ := FmtA.toWord_reads f 12 13 (by decide) (by decide)
  rw [decode, h1, decodeMajor, h2, decodeMajor12, h0]

theorem frnd (f : FmtA) : Statement (.frnd f) := by
  intro _ w h
  obtain rfl := Option.some.inj h
  obtain ⟨h0, h1, h2⟩ := FmtA.toWord_reads f 12 14 (by decide) (by decide)
  rw [decode, h1, decodeMajor, h2, decodeMajor12, h0]

theorem fsat (f : FmtA) : Statement (.fsat f) := by
  intro _ w h
  obtain rfl := Option.some.inj h
  obtain ⟨h0, h1, h2⟩ := FmtA.toWord_reads f 12 15 (by decide) (by decide)
  rw [decode, h1, decodeMajor, h2, decodeMajor12, h0]

theorem hadd2 (f : FmtH) : Statement (.hadd2 f) := by
  intro _ w h
  obtain rfl := Option.some.inj h
  obtain ⟨h0, h1, h2⟩ := FmtH.toWord_reads f 13 0 (by decide) (by decide)
  rw [decode, h1, decodeMajor, h2, decodeMajor13, h0]

theorem hsub2 (f : FmtH) : Statement (.hsub2 f) := by
  intro _ w h
  obtain rfl := Option.some.inj h
  obtain ⟨h0, h1, h2⟩ := FmtH.toWord_reads f 13 1 (by decide) (by decide)
  rw [decode, h1, decodeMajor, h2, decodeMajor13, h0]

theorem hmul2 (f : FmtH) : Statement (.hmul2 f) := by
  intro _ w h
  obtain rfl := Option.some.inj h
  obtain ⟨h0, h1, h2⟩ := FmtH.toWord_reads f 13 2 (by decide) (by decide)
  rw [decode, h1, decodeMajor, h2, decodeMajor13, h0]

theorem hfma2 (f : FmtH) : Statement (.hfma2 f) := by
  intro _ w h
  obtain rfl := Option.some.inj h
  obtain ⟨h0, h1, h2⟩ := FmtH.toWord_reads f 13 3 (by decide) (by decide)
  rw [decode, h1, decodeMajor, h2, decodeMajor13, h0]

theorem hmin2 (f : FmtH) : Statement (.hmin2 f) := by
  intro _ w h
  obtain rfl := Option.some.inj h
  obtain ⟨h0, h1, h2⟩ := FmtH.toWord_reads f 13 4 (by decide) (by decide)
  rw [decode, h1, decodeMajor, h2, decodeMajor13, h0]

theorem hmax2 (f : FmtH) : Statement (.hmax2 f) := by
  intro _ w h
  obtain rfl := Option.some.inj h
  obtain ⟨h0, h1, h2⟩ := FmtH.toWord_reads f 13 5 (by decide) (by decide)
  rw [decode, h1, decodeMajor, h2, decodeMajor13, h0]

theorem hdot2 (f : FmtH) : Statement (.hdot2 f) := by
  intro _ w h
  obtain rfl := Option.some.inj h
  obtain ⟨h0, h1, h2⟩ := FmtH.toWord_reads f 13 6 (by decide) (by decide)
  rw [decode, h1, decodeMajor, h2, decodeMajor13, h0]

theorem hcmplt2 (f : FmtH) : Statement (.hcmplt2 f) := by
  intro _ w h
  obtain rfl := Option.some.inj h
  obtain ⟨h0, h1, h2⟩ := FmtH.toWord_reads f 13 7 (by decide) (by decide)
  rw [decode, h1, decodeMajor, h2, decodeMajor13, h0]

theorem dadd (f : FmtA) : Statement (.dadd f) := by
  intro _ w h
  obtain rfl := Option.some.inj h
  obtain ⟨h0, h1, h2⟩ := FmtA.toWord_reads f 14 0 (by decide) (by decide)
  rw [decode, h1, decodeMajor, h2, decodeMajor14, h0]

theorem dsub (f : FmtA) : Statement (.dsub f) := by
  intro _ w h
  obtain rfl := Option.some.inj h
  obtain ⟨h0, h1, h2⟩ := FmtA.toWord_reads f 14 1 (by decide) (by decide)
  rw [decode, h1, decodeMajor, h2, decodeMajor14, h0]

theorem dmul (f : FmtA) : Statement (.dmul f) := by
  intro _ w h
  obtain rfl := Option.some.inj h
  obtain ⟨h0, h1, h2⟩ := FmtA.toWord_reads f 14 2 (by decide) (by decide)
  rw [decode, h1, decodeMajor, h2, decodeMajor14, h0]

theorem dfma (f : FmtA) : Statement (.dfma f) := by
  intro _ w h
  obtain rfl := Option.some.inj h
  obtain ⟨h0, h1, h2⟩ := FmtA.toWord_reads f 14 3 (by decide) (by decide)
  rw [decode, h1, decodeMajor, h2, decodeMajor14, h0]

theorem dmin (f : FmtA) : Statement (.dmin f) := by
  intro _ w h
  obtain rfl := Option.some.inj h
  obtain ⟨h0, h1, h2⟩ := FmtA.toWord_reads f 14 4 (by decide) (by decide)
  rw [decode, h1, decodeMajor, h2, decodeMajor14, h0]

theorem dmax (f : FmtA) : Statement (.dmax f) := by
  intro _ w h
  obtain rfl := Option.some.inj h
  obtain ⟨h0, h1, h2⟩ := FmtA.toWord_reads f 14 5 (by decide) (by decide)
  rw [decode, h1, decodeMajor, h2, decodeMajor14, h0]

theorem dcmpeq (f : FmtA) : Statement (.dcmpeq f) := by
  intro _ w h
  obtain rfl := Option.some.inj h
  obtain ⟨h0, h1, h2⟩ := FmtA.toWord_reads f 14 6 (by decide) (by decide)
  rw [decode, h1, decodeMajor, h2, decodeMajor14, h0]

theorem dcmplt (f : FmtA) : Statement (.dcmplt f) := by
  intro _ w h
  obtain rfl := Option.some.inj h
  obtain ⟨h0, h1, h2⟩ := FmtA.toWord_reads f 14 7 (by decide) (by decide)
  rw [decode, h1, decodeMajor, h2, decodeMajor14, h0]

theorem dcmple (f : FmtA) : Statement (.dcmple f) := by
  intro _ w h
  obtain rfl := Option.some.inj h
  obtain ⟨h0, h1, h2⟩ := FmtA.toWord_reads f 14 8 (by decide) (by decide)
  rw [decode, h1, decodeMajor, h2, decodeMajor14, h0]

theorem dabs (f : FmtA) : Statement (.dabs f) := by
  intro _ w h
  obtain rfl := Option.some.inj h
  obtain ⟨h0, h1, h2⟩ := FmtA.toWord_reads f 14 9 (by decide) (by decide)
  rw [decode, h1, decodeMajor, h2, decodeMajor14, h0]

theorem dneg (f : FmtA) : Statement (.dneg f) := by
  intro _ w h
  obtain rfl := Option.some.inj h
  obtain ⟨h0, h1, h2⟩ := FmtA.toWord_reads f 14 10 (by decide) (by decide)
  rw [decode, h1, decodeMajor, h2, decodeMajor14, h0]

theorem drnd (f : FmtA) : Statement (.drnd f) := by
  intro _ w h
  obtain rfl := Option.some.inj h
  obtain ⟨h0, h1, h2⟩ := FmtA.toWord_reads f 14 11 (by decide) (by decide)
  rw [decode, h1, decodeMajor, h2, decodeMajor14, h0]

theorem cvtfi (f : FmtA) : Statement (.cvtfi f) := by
  intro _ w h
  obtain rfl := Option.some.inj h
  obtain ⟨h0, h1, h2⟩ := FmtA.toWord_reads f 15 0 (by decide) (by decide)
  rw [decode, h1, decodeMajor, h2, decodeMajor15, h0]

theorem cvtif (f : FmtA) : Statement (.cvtif f) := by
  intro _ w h
  obtain rfl := Option.some.inj h
  obtain ⟨h0, h1, h2⟩ := FmtA.toWord_reads f 15 1 (by decide) (by decide)
  rw [decode, h1, decodeMajor, h2, decodeMajor15, h0]

theorem cvtfu (f : FmtA) : Statement (.cvtfu f) := by
  intro _ w h
  obtain rfl := Option.some.inj h
  obtain ⟨h0, h1, h2⟩ := FmtA.toWord_reads f 15 2 (by decide) (by decide)
  rw [decode, h1, decodeMajor, h2, decodeMajor15, h0]

theorem cvtuf (f : FmtA) : Statement (.cvtuf f) := by
  intro _ w h
  obtain rfl := Option.some.inj h
  obtain ⟨h0, h1, h2⟩ := FmtA.toWord_reads f 15 3 (by decide) (by decide)
  rw [decode, h1, decodeMajor, h2, decodeMajor15, h0]

theorem cvtfd (f : FmtA) : Statement (.cvtfd f) := by
  intro _ w h
  obtain rfl := Option.some.inj h
  obtain ⟨h0, h1, h2⟩ := FmtA.toWord_reads f 15 4 (by decide) (by decide)
  rw [decode, h1, decodeMajor, h2, decodeMajor15, h0]

theorem cvtdf (f : FmtA) : Statement (.cvtdf f) := by
  intro _ w h
  obtain rfl := Option.some.inj h
  obtain ⟨h0, h1, h2⟩ := FmtA.toWord_reads f 15 5 (by decide) (by decide)
  rw [decode, h1, decodeMajor, h2, decodeMajor15, h0]

theorem cvtdi (f : FmtA) : Statement (.cvtdi f) := by
  intro _ w h
  obtain rfl := Option.some.inj h
  obtain ⟨h0, h1, h2⟩ := FmtA.toWord_reads f 15 6 (by decide) (by decide)
  rw [decode, h1, decodeMajor, h2, decodeMajor15, h0]

theorem cvtid (f : FmtA) : Statement (.cvtid f) := by
  intro _ w h
  obtain rfl := Option.some.inj h
  obtain ⟨h0, h1, h2⟩ := FmtA.toWord_reads f 15 7 (by decide) (by decide)
  rw [decode, h1, decodeMajor, h2, decodeMajor15, h0]

theorem cvtfb (f : FmtA) : Statement (.cvtfb f) := by
  intro _ w h
  obtain rfl := Option.some.inj h
  obtain ⟨h0, h1, h2⟩ := FmtA.toWord_reads f 15 8 (by decide) (by decide)
  rw [decode, h1, decodeMajor, h2, decodeMajor15, h0]

theorem cvtfh (f : FmtA) : Statement (.cvtfh f) := by
  intro _ w h
  obtain rfl := Option.some.inj h
  obtain ⟨h0, h1, h2⟩ := FmtA.toWord_reads f 15 9 (by decide) (by decide)
  rw [decode, h1, decodeMajor, h2, decodeMajor15, h0]

theorem cvtbf (f : FmtA) : Statement (.cvtbf f) := by
  intro _ w h
  obtain rfl := Option.some.inj h
  obtain ⟨h0, h1, h2⟩ := FmtA.toWord_reads f 15 10 (by decide) (by decide)
  rw [decode, h1, decodeMajor, h2, decodeMajor15, h0]

theorem cvthf (f : FmtA) : Statement (.cvthf f) := by
  intro _ w h
  obtain rfl := Option.some.inj h
  obtain ⟨h0, h1, h2⟩ := FmtA.toWord_reads f 15 11 (by decide) (by decide)
  rw [decode, h1, decodeMajor, h2, decodeMajor15, h0]

theorem packe4 (f : FmtA) : Statement (.packe4 f) := by
  intro _ w h
  obtain rfl := Option.some.inj h
  obtain ⟨h0, h1, h2⟩ := FmtA.toWord_reads f 15 12 (by decide) (by decide)
  rw [decode, h1, decodeMajor, h2, decodeMajor15, h0]

theorem packe5 (f : FmtA) : Statement (.packe5 f) := by
  intro _ w h
  obtain rfl := Option.some.inj h
  obtain ⟨h0, h1, h2⟩ := FmtA.toWord_reads f 15 13 (by decide) (by decide)
  rw [decode, h1, decodeMajor, h2, decodeMajor15, h0]

theorem unpke4 (f : FmtA) : Statement (.unpke4 f) := by
  intro _ w h
  obtain rfl := Option.some.inj h
  obtain ⟨h0, h1, h2⟩ := FmtA.toWord_reads f 15 14 (by decide) (by decide)
  rw [decode, h1, decodeMajor, h2, decodeMajor15, h0]

theorem unpke5 (f : FmtA) : Statement (.unpke5 f) := by
  intro _ w h
  obtain rfl := Option.some.inj h
  obtain ⟨h0, h1, h2⟩ := FmtA.toWord_reads f 15 15 (by decide) (by decide)
  rw [decode, h1, decodeMajor, h2, decodeMajor15, h0]

theorem frcp (f : FmtA) : Statement (.frcp f) := by
  intro _ w h
  obtain rfl := Option.some.inj h
  obtain ⟨h0, h1, h2⟩ := FmtA.toWord_reads f 16 0 (by decide) (by decide)
  rw [decode, h1, decodeMajor, h2, decodeMajor16, h0]

theorem frsq (f : FmtA) : Statement (.frsq f) := by
  intro _ w h
  obtain rfl := Option.some.inj h
  obtain ⟨h0, h1, h2⟩ := FmtA.toWord_reads f 16 1 (by decide) (by decide)
  rw [decode, h1, decodeMajor, h2, decodeMajor16, h0]

theorem fsqrt (f : FmtA) : Statement (.fsqrt f) := by
  intro _ w h
  obtain rfl := Option.some.inj h
  obtain ⟨h0, h1, h2⟩ := FmtA.toWord_reads f 16 2 (by decide) (by decide)
  rw [decode, h1, decodeMajor, h2, decodeMajor16, h0]

theorem fdiv (f : FmtA) : Statement (.fdiv f) := by
  intro _ w h
  obtain rfl := Option.some.inj h
  obtain ⟨h0, h1, h2⟩ := FmtA.toWord_reads f 16 3 (by decide) (by decide)
  rw [decode, h1, decodeMajor, h2, decodeMajor16, h0]

theorem fexp2 (f : FmtA) : Statement (.fexp2 f) := by
  intro _ w h
  obtain rfl := Option.some.inj h
  obtain ⟨h0, h1, h2⟩ := FmtA.toWord_reads f 16 4 (by decide) (by decide)
  rw [decode, h1, decodeMajor, h2, decodeMajor16, h0]

theorem flog2 (f : FmtA) : Statement (.flog2 f) := by
  intro _ w h
  obtain rfl := Option.some.inj h
  obtain ⟨h0, h1, h2⟩ := FmtA.toWord_reads f 16 5 (by decide) (by decide)
  rw [decode, h1, decodeMajor, h2, decodeMajor16, h0]

theorem fsin (f : FmtA) : Statement (.fsin f) := by
  intro _ w h
  obtain rfl := Option.some.inj h
  obtain ⟨h0, h1, h2⟩ := FmtA.toWord_reads f 16 6 (by decide) (by decide)
  rw [decode, h1, decodeMajor, h2, decodeMajor16, h0]

theorem fcos (f : FmtA) : Statement (.fcos f) := by
  intro _ w h
  obtain rfl := Option.some.inj h
  obtain ⟨h0, h1, h2⟩ := FmtA.toWord_reads f 16 7 (by decide) (by decide)
  rw [decode, h1, decodeMajor, h2, decodeMajor16, h0]

theorem ftanh (f : FmtA) : Statement (.ftanh f) := by
  intro _ w h
  obtain rfl := Option.some.inj h
  obtain ⟨h0, h1, h2⟩ := FmtA.toWord_reads f 16 8 (by decide) (by decide)
  rw [decode, h1, decodeMajor, h2, decodeMajor16, h0]

theorem ddiv (f : FmtA) : Statement (.ddiv f) := by
  intro _ w h
  obtain rfl := Option.some.inj h
  obtain ⟨h0, h1, h2⟩ := FmtA.toWord_reads f 16 9 (by decide) (by decide)
  rw [decode, h1, decodeMajor, h2, decodeMajor16, h0]

theorem dsqrt (f : FmtA) : Statement (.dsqrt f) := by
  intro _ w h
  obtain rfl := Option.some.inj h
  obtain ⟨h0, h1, h2⟩ := FmtA.toWord_reads f 16 10 (by decide) (by decide)
  rw [decode, h1, decodeMajor, h2, decodeMajor16, h0]

theorem vexps (f : FmtA) : Statement (.vexps f) := by
  intro _ w h
  obtain rfl := Option.some.inj h
  obtain ⟨h0, h1, h2⟩ := FmtA.toWord_reads f 16 11 (by decide) (by decide)
  rw [decode, h1, decodeMajor, h2, decodeMajor16, h0]

theorem vmaxe (f : FmtA) : Statement (.vmaxe f) := by
  intro _ w h
  obtain rfl := Option.some.inj h
  obtain ⟨h0, h1, h2⟩ := FmtA.toWord_reads f 16 12 (by decide) (by decide)
  rw [decode, h1, decodeMajor, h2, decodeMajor16, h0]

theorem fsigm (f : FmtA) : Statement (.fsigm f) := by
  intro _ w h
  obtain rfl := Option.some.inj h
  obtain ⟨h0, h1, h2⟩ := FmtA.toWord_reads f 16 13 (by decide) (by decide)
  rw [decode, h1, decodeMajor, h2, decodeMajor16, h0]

theorem beqz (f : FmtBr) : Statement (.beqz f) := by
  intro _ w h
  obtain rfl := Option.some.inj h
  obtain ⟨h0, h1, h2⟩ := FmtBr.toWord_reads f 17 0 (by decide) (by decide)
  rw [decode, h1, decodeMajor, h2, decodeMajor17, h0]

theorem bnez (f : FmtBr) : Statement (.bnez f) := by
  intro _ w h
  obtain rfl := Option.some.inj h
  obtain ⟨h0, h1, h2⟩ := FmtBr.toWord_reads f 17 1 (by decide) (by decide)
  rw [decode, h1, decodeMajor, h2, decodeMajor17, h0]

theorem bltz (f : FmtBr) : Statement (.bltz f) := by
  intro _ w h
  obtain rfl := Option.some.inj h
  obtain ⟨h0, h1, h2⟩ := FmtBr.toWord_reads f 17 2 (by decide) (by decide)
  rw [decode, h1, decodeMajor, h2, decodeMajor17, h0]

theorem bgez (f : FmtBr) : Statement (.bgez f) := by
  intro _ w h
  obtain rfl := Option.some.inj h
  obtain ⟨h0, h1, h2⟩ := FmtBr.toWord_reads f 17 3 (by decide) (by decide)
  rw [decode, h1, decodeMajor, h2, decodeMajor17, h0]

theorem blez (f : FmtBr) : Statement (.blez f) := by
  intro _ w h
  obtain rfl := Option.some.inj h
  obtain ⟨h0, h1, h2⟩ := FmtBr.toWord_reads f 17 4 (by decide) (by decide)
  rw [decode, h1, decodeMajor, h2, decodeMajor17, h0]

theorem bgtz (f : FmtBr) : Statement (.bgtz f) := by
  intro _ w h
  obtain rfl := Option.some.inj h
  obtain ⟨h0, h1, h2⟩ := FmtBr.toWord_reads f 17 5 (by decide) (by decide)
  rw [decode, h1, decodeMajor, h2, decodeMajor17, h0]

theorem bnez64 (f : FmtBr) : Statement (.bnez64 f) := by
  intro _ w h
  obtain rfl := Option.some.inj h
  obtain ⟨h0, h1, h2⟩ := FmtBr.toWord_reads f 17 6 (by decide) (by decide)
  rw [decode, h1, decodeMajor, h2, decodeMajor17, h0]

theorem beqz64 (f : FmtBr) : Statement (.beqz64 f) := by
  intro _ w h
  obtain rfl := Option.some.inj h
  obtain ⟨h0, h1, h2⟩ := FmtBr.toWord_reads f 17 7 (by decide) (by decide)
  rw [decode, h1, decodeMajor, h2, decodeMajor17, h0]

theorem jmp (f : FmtJ) : Statement (.jmp f) := by
  intro _ w h
  obtain rfl := Option.some.inj h
  obtain ⟨h0, h1⟩ := FmtJ.toWord_reads f 18 (by decide)
  rw [decode, h1, decodeMajor, h0]

theorem jal (f : FmtJ) : Statement (.jal f) := by
  intro _ w h
  obtain rfl := Option.some.inj h
  obtain ⟨h0, h1⟩ := FmtJ.toWord_reads f 19 (by decide)
  rw [decode, h1, decodeMajor, h0]

theorem jr (f : FmtA) : Statement (.jr f) := by
  intro _ w h
  obtain rfl := Option.some.inj h
  obtain ⟨h0, h1, h2⟩ := FmtA.toWord_reads f 20 0 (by decide) (by decide)
  rw [decode, h1, decodeMajor, h2, decodeMajor20, h0]

theorem jalr (f : FmtA) : Statement (.jalr f) := by
  intro _ w h
  obtain rfl := Option.some.inj h
  obtain ⟨h0, h1, h2⟩ := FmtA.toWord_reads f 20 1 (by decide) (by decide)
  rw [decode, h1, decodeMajor, h2, decodeMajor20, h0]

theorem ld8 (f : FmtM) : Statement (.ld8 f) := by
  intro _ w h
  obtain rfl := Option.some.inj h
  obtain ⟨h0, h1, h2⟩ := FmtM.toWord_reads f 21 0 (by decide) (by decide)
  rw [decode, h1, decodeMajor, h2, decodeMajor21, h0]

theorem ld8s (f : FmtM) : Statement (.ld8s f) := by
  intro _ w h
  obtain rfl := Option.some.inj h
  obtain ⟨h0, h1, h2⟩ := FmtM.toWord_reads f 21 1 (by decide) (by decide)
  rw [decode, h1, decodeMajor, h2, decodeMajor21, h0]

theorem ld16 (f : FmtM) : Statement (.ld16 f) := by
  intro _ w h
  obtain rfl := Option.some.inj h
  obtain ⟨h0, h1, h2⟩ := FmtM.toWord_reads f 21 2 (by decide) (by decide)
  rw [decode, h1, decodeMajor, h2, decodeMajor21, h0]

theorem ld16s (f : FmtM) : Statement (.ld16s f) := by
  intro _ w h
  obtain rfl := Option.some.inj h
  obtain ⟨h0, h1, h2⟩ := FmtM.toWord_reads f 21 3 (by decide) (by decide)
  rw [decode, h1, decodeMajor, h2, decodeMajor21, h0]

theorem ld32 (f : FmtM) : Statement (.ld32 f) := by
  intro _ w h
  obtain rfl := Option.some.inj h
  obtain ⟨h0, h1, h2⟩ := FmtM.toWord_reads f 21 4 (by decide) (by decide)
  rw [decode, h1, decodeMajor, h2, decodeMajor21, h0]

theorem ld64 (f : FmtM) : Statement (.ld64 f) := by
  intro _ w h
  obtain rfl := Option.some.inj h
  obtain ⟨h0, h1, h2⟩ := FmtM.toWord_reads f 21 5 (by decide) (by decide)
  rw [decode, h1, decodeMajor, h2, decodeMajor21, h0]

theorem ld128 (f : FmtM) : Statement (.ld128 f) := by
  intro _ w h
  obtain rfl := Option.some.inj h
  obtain ⟨h0, h1, h2⟩ := FmtM.toWord_reads f 21 6 (by decide) (by decide)
  rw [decode, h1, decodeMajor, h2, decodeMajor21, h0]

theorem lda32 (f : FmtAcq) : Statement (.lda32 f) := by
  intro _ w h
  obtain rfl := Option.some.inj h
  obtain ⟨h0, h1, h2⟩ := FmtAcq.toWord_reads f 21 7 (by decide) (by decide)
  rw [decode, h1, decodeMajor, h2, decodeMajor21, h0]

theorem lda64 (f : FmtAcq) : Statement (.lda64 f) := by
  intro _ w h
  obtain rfl := Option.some.inj h
  obtain ⟨h0, h1, h2⟩ := FmtAcq.toWord_reads f 21 8 (by decide) (by decide)
  rw [decode, h1, decodeMajor, h2, decodeMajor21, h0]

theorem ldq8 (f : FmtM) : Statement (.ldq8 f) := by
  intro _ w h
  obtain rfl := Option.some.inj h
  obtain ⟨h0, h1, h2⟩ := FmtM.toWord_reads f 22 0 (by decide) (by decide)
  rw [decode, h1, decodeMajor, h2, decodeMajor22, h0]

theorem ldq8s (f : FmtM) : Statement (.ldq8s f) := by
  intro _ w h
  obtain rfl := Option.some.inj h
  obtain ⟨h0, h1, h2⟩ := FmtM.toWord_reads f 22 1 (by decide) (by decide)
  rw [decode, h1, decodeMajor, h2, decodeMajor22, h0]

theorem ldq16 (f : FmtM) : Statement (.ldq16 f) := by
  intro _ w h
  obtain rfl := Option.some.inj h
  obtain ⟨h0, h1, h2⟩ := FmtM.toWord_reads f 22 2 (by decide) (by decide)
  rw [decode, h1, decodeMajor, h2, decodeMajor22, h0]

theorem ldq16s (f : FmtM) : Statement (.ldq16s f) := by
  intro _ w h
  obtain rfl := Option.some.inj h
  obtain ⟨h0, h1, h2⟩ := FmtM.toWord_reads f 22 3 (by decide) (by decide)
  rw [decode, h1, decodeMajor, h2, decodeMajor22, h0]

theorem ldq32 (f : FmtM) : Statement (.ldq32 f) := by
  intro _ w h
  obtain rfl := Option.some.inj h
  obtain ⟨h0, h1, h2⟩ := FmtM.toWord_reads f 22 4 (by decide) (by decide)
  rw [decode, h1, decodeMajor, h2, decodeMajor22, h0]

theorem ldq64 (f : FmtM) : Statement (.ldq64 f) := by
  intro _ w h
  obtain rfl := Option.some.inj h
  obtain ⟨h0, h1, h2⟩ := FmtM.toWord_reads f 22 5 (by decide) (by decide)
  rw [decode, h1, decodeMajor, h2, decodeMajor22, h0]

theorem st8 (f : FmtM) : Statement (.st8 f) := by
  intro _ w h
  obtain rfl := Option.some.inj h
  obtain ⟨h0, h1, h2⟩ := FmtM.toWord_reads f 23 0 (by decide) (by decide)
  rw [decode, h1, decodeMajor, h2, decodeMajor23, h0]

theorem st16 (f : FmtM) : Statement (.st16 f) := by
  intro _ w h
  obtain rfl := Option.some.inj h
  obtain ⟨h0, h1, h2⟩ := FmtM.toWord_reads f 23 2 (by decide) (by decide)
  rw [decode, h1, decodeMajor, h2, decodeMajor23, h0]

theorem st32 (f : FmtM) : Statement (.st32 f) := by
  intro _ w h
  obtain rfl := Option.some.inj h
  obtain ⟨h0, h1, h2⟩ := FmtM.toWord_reads f 23 4 (by decide) (by decide)
  rw [decode, h1, decodeMajor, h2, decodeMajor23, h0]

theorem st64 (f : FmtM) : Statement (.st64 f) := by
  intro _ w h
  obtain rfl := Option.some.inj h
  obtain ⟨h0, h1, h2⟩ := FmtM.toWord_reads f 23 5 (by decide) (by decide)
  rw [decode, h1, decodeMajor, h2, decodeMajor23, h0]

theorem st128 (f : FmtM) : Statement (.st128 f) := by
  intro _ w h
  obtain rfl := Option.some.inj h
  obtain ⟨h0, h1, h2⟩ := FmtM.toWord_reads f 23 6 (by decide) (by decide)
  rw [decode, h1, decodeMajor, h2, decodeMajor23, h0]

theorem stl32 (f : FmtAcq) : Statement (.stl32 f) := by
  intro _ w h
  obtain rfl := Option.some.inj h
  obtain ⟨h0, h1, h2⟩ := FmtAcq.toWord_reads f 23 7 (by decide) (by decide)
  rw [decode, h1, decodeMajor, h2, decodeMajor23, h0]

theorem stl64 (f : FmtAcq) : Statement (.stl64 f) := by
  intro _ w h
  obtain rfl := Option.some.inj h
  obtain ⟨h0, h1, h2⟩ := FmtAcq.toWord_reads f 23 8 (by decide) (by decide)
  rw [decode, h1, decodeMajor, h2, decodeMajor23, h0]

theorem atomAdd (f : FmtA) : Statement (.atomAdd f) := by
  intro _ w h
  obtain rfl := Option.some.inj h
  obtain ⟨h0, h1, h2⟩ := FmtA.toWord_reads f 24 0 (by decide) (by decide)
  rw [decode, h1, decodeMajor, h2, decodeMajor24, h0]

theorem atomSub (f : FmtA) : Statement (.atomSub f) := by
  intro _ w h
  obtain rfl := Option.some.inj h
  obtain ⟨h0, h1, h2⟩ := FmtA.toWord_reads f 24 1 (by decide) (by decide)
  rw [decode, h1, decodeMajor, h2, decodeMajor24, h0]

theorem atomAnd (f : FmtA) : Statement (.atomAnd f) := by
  intro _ w h
  obtain rfl := Option.some.inj h
  obtain ⟨h0, h1, h2⟩ := FmtA.toWord_reads f 24 2 (by decide) (by decide)
  rw [decode, h1, decodeMajor, h2, decodeMajor24, h0]

theorem atomOr (f : FmtA) : Statement (.atomOr f) := by
  intro _ w h
  obtain rfl := Option.some.inj h
  obtain ⟨h0, h1, h2⟩ := FmtA.toWord_reads f 24 3 (by decide) (by decide)
  rw [decode, h1, decodeMajor, h2, decodeMajor24, h0]

theorem atomXor (f : FmtA) : Statement (.atomXor f) := by
  intro _ w h
  obtain rfl := Option.some.inj h
  obtain ⟨h0, h1, h2⟩ := FmtA.toWord_reads f 24 4 (by decide) (by decide)
  rw [decode, h1, decodeMajor, h2, decodeMajor24, h0]

theorem atomMin (f : FmtA) : Statement (.atomMin f) := by
  intro _ w h
  obtain rfl := Option.some.inj h
  obtain ⟨h0, h1, h2⟩ := FmtA.toWord_reads f 24 5 (by decide) (by decide)
  rw [decode, h1, decodeMajor, h2, decodeMajor24, h0]

theorem atomMax (f : FmtA) : Statement (.atomMax f) := by
  intro _ w h
  obtain rfl := Option.some.inj h
  obtain ⟨h0, h1, h2⟩ := FmtA.toWord_reads f 24 6 (by decide) (by decide)
  rw [decode, h1, decodeMajor, h2, decodeMajor24, h0]

theorem atomMinu (f : FmtA) : Statement (.atomMinu f) := by
  intro _ w h
  obtain rfl := Option.some.inj h
  obtain ⟨h0, h1, h2⟩ := FmtA.toWord_reads f 24 7 (by decide) (by decide)
  rw [decode, h1, decodeMajor, h2, decodeMajor24, h0]

theorem atomMaxu (f : FmtA) : Statement (.atomMaxu f) := by
  intro _ w h
  obtain rfl := Option.some.inj h
  obtain ⟨h0, h1, h2⟩ := FmtA.toWord_reads f 24 8 (by decide) (by decide)
  rw [decode, h1, decodeMajor, h2, decodeMajor24, h0]

theorem atomXchg (f : FmtA) : Statement (.atomXchg f) := by
  intro _ w h
  obtain rfl := Option.some.inj h
  obtain ⟨h0, h1, h2⟩ := FmtA.toWord_reads f 24 9 (by decide) (by decide)
  rw [decode, h1, decodeMajor, h2, decodeMajor24, h0]

theorem atomFadd (f : FmtA) : Statement (.atomFadd f) := by
  intro _ w h
  obtain rfl := Option.some.inj h
  obtain ⟨h0, h1, h2⟩ := FmtA.toWord_reads f 24 10 (by decide) (by decide)
  rw [decode, h1, decodeMajor, h2, decodeMajor24, h0]

theorem atomFmin (f : FmtA) : Statement (.atomFmin f) := by
  intro _ w h
  obtain rfl := Option.some.inj h
  obtain ⟨h0, h1, h2⟩ := FmtA.toWord_reads f 24 11 (by decide) (by decide)
  rw [decode, h1, decodeMajor, h2, decodeMajor24, h0]

theorem atomFmax (f : FmtA) : Statement (.atomFmax f) := by
  intro _ w h
  obtain rfl := Option.some.inj h
  obtain ⟨h0, h1, h2⟩ := FmtA.toWord_reads f 24 12 (by decide) (by decide)
  rw [decode, h1, decodeMajor, h2, decodeMajor24, h0]

theorem atomAdd64 (f : FmtA) : Statement (.atomAdd64 f) := by
  intro _ w h
  obtain rfl := Option.some.inj h
  obtain ⟨h0, h1, h2⟩ := FmtA.toWord_reads f 24 13 (by decide) (by decide)
  rw [decode, h1, decodeMajor, h2, decodeMajor24, h0]

theorem atomXchg64 (f : FmtA) : Statement (.atomXchg64 f) := by
  intro _ w h
  obtain rfl := Option.some.inj h
  obtain ⟨h0, h1, h2⟩ := FmtA.toWord_reads f 24 14 (by decide) (by decide)
  rw [decode, h1, decodeMajor, h2, decodeMajor24, h0]

theorem atomBadd2 (f : FmtA) : Statement (.atomBadd2 f) := by
  intro _ w h
  obtain rfl := Option.some.inj h
  obtain ⟨h0, h1, h2⟩ := FmtA.toWord_reads f 24 15 (by decide) (by decide)
  rw [decode, h1, decodeMajor, h2, decodeMajor24, h0]

theorem atomnAdd (f : FmtA) : Statement (.atomnAdd f) := by
  intro _ w h
  obtain rfl := Option.some.inj h
  obtain ⟨h0, h1, h2⟩ := FmtA.toWord_reads f 25 0 (by decide) (by decide)
  rw [decode, h1, decodeMajor, h2, decodeMajor25, h0]

theorem atomnSub (f : FmtA) : Statement (.atomnSub f) := by
  intro _ w h
  obtain rfl := Option.some.inj h
  obtain ⟨h0, h1, h2⟩ := FmtA.toWord_reads f 25 1 (by decide) (by decide)
  rw [decode, h1, decodeMajor, h2, decodeMajor25, h0]

theorem atomnAnd (f : FmtA) : Statement (.atomnAnd f) := by
  intro _ w h
  obtain rfl := Option.some.inj h
  obtain ⟨h0, h1, h2⟩ := FmtA.toWord_reads f 25 2 (by decide) (by decide)
  rw [decode, h1, decodeMajor, h2, decodeMajor25, h0]

theorem atomnOr (f : FmtA) : Statement (.atomnOr f) := by
  intro _ w h
  obtain rfl := Option.some.inj h
  obtain ⟨h0, h1, h2⟩ := FmtA.toWord_reads f 25 3 (by decide) (by decide)
  rw [decode, h1, decodeMajor, h2, decodeMajor25, h0]

theorem atomnXor (f : FmtA) : Statement (.atomnXor f) := by
  intro _ w h
  obtain rfl := Option.some.inj h
  obtain ⟨h0, h1, h2⟩ := FmtA.toWord_reads f 25 4 (by decide) (by decide)
  rw [decode, h1, decodeMajor, h2, decodeMajor25, h0]

theorem atomnMin (f : FmtA) : Statement (.atomnMin f) := by
  intro _ w h
  obtain rfl := Option.some.inj h
  obtain ⟨h0, h1, h2⟩ := FmtA.toWord_reads f 25 5 (by decide) (by decide)
  rw [decode, h1, decodeMajor, h2, decodeMajor25, h0]

theorem atomnMax (f : FmtA) : Statement (.atomnMax f) := by
  intro _ w h
  obtain rfl := Option.some.inj h
  obtain ⟨h0, h1, h2⟩ := FmtA.toWord_reads f 25 6 (by decide) (by decide)
  rw [decode, h1, decodeMajor, h2, decodeMajor25, h0]

theorem atomnMinu (f : FmtA) : Statement (.atomnMinu f) := by
  intro _ w h
  obtain rfl := Option.some.inj h
  obtain ⟨h0, h1, h2⟩ := FmtA.toWord_reads f 25 7 (by decide) (by decide)
  rw [decode, h1, decodeMajor, h2, decodeMajor25, h0]

theorem atomnMaxu (f : FmtA) : Statement (.atomnMaxu f) := by
  intro _ w h
  obtain rfl := Option.some.inj h
  obtain ⟨h0, h1, h2⟩ := FmtA.toWord_reads f 25 8 (by decide) (by decide)
  rw [decode, h1, decodeMajor, h2, decodeMajor25, h0]

theorem atomnXchg (f : FmtA) : Statement (.atomnXchg f) := by
  intro _ w h
  obtain rfl := Option.some.inj h
  obtain ⟨h0, h1, h2⟩ := FmtA.toWord_reads f 25 9 (by decide) (by decide)
  rw [decode, h1, decodeMajor, h2, decodeMajor25, h0]

theorem atomnFadd (f : FmtA) : Statement (.atomnFadd f) := by
  intro _ w h
  obtain rfl := Option.some.inj h
  obtain ⟨h0, h1, h2⟩ := FmtA.toWord_reads f 25 10 (by decide) (by decide)
  rw [decode, h1, decodeMajor, h2, decodeMajor25, h0]

theorem atomnFmin (f : FmtA) : Statement (.atomnFmin f) := by
  intro _ w h
  obtain rfl := Option.some.inj h
  obtain ⟨h0, h1, h2⟩ := FmtA.toWord_reads f 25 11 (by decide) (by decide)
  rw [decode, h1, decodeMajor, h2, decodeMajor25, h0]

theorem atomnFmax (f : FmtA) : Statement (.atomnFmax f) := by
  intro _ w h
  obtain rfl := Option.some.inj h
  obtain ⟨h0, h1, h2⟩ := FmtA.toWord_reads f 25 12 (by decide) (by decide)
  rw [decode, h1, decodeMajor, h2, decodeMajor25, h0]

theorem atomnAdd64 (f : FmtA) : Statement (.atomnAdd64 f) := by
  intro _ w h
  obtain rfl := Option.some.inj h
  obtain ⟨h0, h1, h2⟩ := FmtA.toWord_reads f 25 13 (by decide) (by decide)
  rw [decode, h1, decodeMajor, h2, decodeMajor25, h0]

theorem atomnXchg64 (f : FmtA) : Statement (.atomnXchg64 f) := by
  intro _ w h
  obtain rfl := Option.some.inj h
  obtain ⟨h0, h1, h2⟩ := FmtA.toWord_reads f 25 14 (by decide) (by decide)
  rw [decode, h1, decodeMajor, h2, decodeMajor25, h0]

theorem atomnBadd2 (f : FmtA) : Statement (.atomnBadd2 f) := by
  intro _ w h
  obtain rfl := Option.some.inj h
  obtain ⟨h0, h1, h2⟩ := FmtA.toWord_reads f 25 15 (by decide) (by decide)
  rw [decode, h1, decodeMajor, h2, decodeMajor25, h0]

theorem cas32 (f : FmtA) : Statement (.cas32 f) := by
  intro _ w h
  obtain rfl := Option.some.inj h
  obtain ⟨h0, h1, h2⟩ := FmtA.toWord_reads f 26 0 (by decide) (by decide)
  rw [decode, h1, decodeMajor, h2, decodeMajor26, h0]

theorem cas64 (f : FmtA) : Statement (.cas64 f) := by
  intro _ w h
  obtain rfl := Option.some.inj h
  obtain ⟨h0, h1, h2⟩ := FmtA.toWord_reads f 26 1 (by decide) (by decide)
  rw [decode, h1, decodeMajor, h2, decodeMajor26, h0]

theorem fence (f : FmtA) : Statement (.fence f) := by
  intro _ w h
  obtain rfl := Option.some.inj h
  obtain ⟨h0, h1, h2⟩ := FmtA.toWord_reads f 27 0 (by decide) (by decide)
  rw [decode, h1, decodeMajor, h2, decodeMajor27, h0]

theorem fenceAcq (f : FmtA) : Statement (.fenceAcq f) := by
  intro _ w h
  obtain rfl := Option.some.inj h
  obtain ⟨h0, h1, h2⟩ := FmtA.toWord_reads f 27 1 (by decide) (by decide)
  rw [decode, h1, decodeMajor, h2, decodeMajor27, h0]

theorem fenceRel (f : FmtA) : Statement (.fenceRel f) := by
  intro _ w h
  obtain rfl := Option.some.inj h
  obtain ⟨h0, h1, h2⟩ := FmtA.toWord_reads f 27 2 (by decide) (by decide)
  rw [decode, h1, decodeMajor, h2, decodeMajor27, h0]

theorem tfence (f : FmtA) : Statement (.tfence f) := by
  intro _ w h
  obtain rfl := Option.some.inj h
  obtain ⟨h0, h1, h2⟩ := FmtA.toWord_reads f 27 3 (by decide) (by decide)
  rw [decode, h1, decodeMajor, h2, decodeMajor27, h0]

theorem efence (f : FmtA) : Statement (.efence f) := by
  intro _ w h
  obtain rfl := Option.some.inj h
  obtain ⟨h0, h1, h2⟩ := FmtA.toWord_reads f 27 4 (by decide) (by decide)
  rw [decode, h1, decodeMajor, h2, decodeMajor27, h0]

theorem fenceSp (f : FmtA) : Statement (.fenceSp f) := by
  intro _ w h
  obtain rfl := Option.some.inj h
  obtain ⟨h0, h1, h2⟩ := FmtA.toWord_reads f 27 5 (by decide) (by decide)
  rw [decode, h1, decodeMajor, h2, decodeMajor27, h0]

theorem axb (f : FmtI) : Statement (.axb f) := by
  intro _ w h
  obtain rfl := Option.some.inj h
  obtain ⟨h0, h1⟩ := FmtI.toWord_reads f 28 (by decide)
  rw [decode, h1, decodeMajor, h0]

theorem axe (f : FmtA) : Statement (.axe f) := by
  intro _ w h
  obtain rfl := Option.some.inj h
  obtain ⟨h0, h1, h2⟩ := FmtA.toWord_reads f 29 0 (by decide) (by decide)
  rw [decode, h1, decodeMajor, h2, decodeMajor29, h0]

theorem axa (f : FmtA) : Statement (.axa f) := by
  intro _ w h
  obtain rfl := Option.some.inj h
  obtain ⟨h0, h1, h2⟩ := FmtA.toWord_reads f 29 1 (by decide) (by decide)
  rw [decode, h1, decodeMajor, h2, decodeMajor29, h0]

theorem axs (f : FmtA) : Statement (.axs f) := by
  intro _ w h
  obtain rfl := Option.some.inj h
  obtain ⟨h0, h1, h2⟩ := FmtA.toWord_reads f 29 2 (by decide) (by decide)
  rw [decode, h1, decodeMajor, h2, decodeMajor29, h0]

theorem post (f : FmtA) : Statement (.post f) := by
  intro _ w h
  obtain rfl := Option.some.inj h
  obtain ⟨h0, h1, h2⟩ := FmtA.toWord_reads f 30 0 (by decide) (by decide)
  rw [decode, h1, decodeMajor, h2, decodeMajor30, h0]

theorem lxchPick (f : FmtX) : Statement (.lxchPick f) := by
  intro _ w h
  obtain rfl := Option.some.inj h
  obtain ⟨h0, h1, h2⟩ := FmtX.toWord_reads f 32 0 (by decide) (by decide)
  rw [decode, h1, decodeMajor, h2, decodeMajor32, h0]

theorem lxchRot (f : FmtX) : Statement (.lxchRot f) := by
  intro _ w h
  obtain rfl := Option.some.inj h
  obtain ⟨h0, h1, h2⟩ := FmtX.toWord_reads f 32 1 (by decide) (by decide)
  rw [decode, h1, decodeMajor, h2, decodeMajor32, h0]

theorem lxchStep (f : FmtX) : Statement (.lxchStep f) := by
  intro _ w h
  obtain rfl := Option.some.inj h
  obtain ⟨h0, h1, h2⟩ := FmtX.toWord_reads f 32 2 (by decide) (by decide)
  rw [decode, h1, decodeMajor, h2, decodeMajor32, h0]

theorem lxchRefl (f : FmtX) : Statement (.lxchRefl f) := by
  intro _ w h
  obtain rfl := Option.some.inj h
  obtain ⟨h0, h1, h2⟩ := FmtX.toWord_reads f 32 3 (by decide) (by decide)
  rw [decode, h1, decodeMajor, h2, decodeMajor32, h0]

theorem redadd (f : FmtG) : Statement (.redadd f) := by
  intro _ w h
  obtain rfl := Option.some.inj h
  obtain ⟨h0, h1, h2⟩ := FmtG.toWord_reads f 33 0 (by decide) (by decide)
  rw [decode, h1, decodeMajor, h2, decodeMajor33, h0]

theorem redmin (f : FmtG) : Statement (.redmin f) := by
  intro _ w h
  obtain rfl := Option.some.inj h
  obtain ⟨h0, h1, h2⟩ := FmtG.toWord_reads f 33 1 (by decide) (by decide)
  rw [decode, h1, decodeMajor, h2, decodeMajor33, h0]

theorem redmax (f : FmtG) : Statement (.redmax f) := by
  intro _ w h
  obtain rfl := Option.some.inj h
  obtain ⟨h0, h1, h2⟩ := FmtG.toWord_reads f 33 2 (by decide) (by decide)
  rw [decode, h1, decodeMajor, h2, decodeMajor33, h0]

theorem redminu (f : FmtG) : Statement (.redminu f) := by
  intro _ w h
  obtain rfl := Option.some.inj h
  obtain ⟨h0, h1, h2⟩ := FmtG.toWord_reads f 33 3 (by decide) (by decide)
  rw [decode, h1, decodeMajor, h2, decodeMajor33, h0]

theorem redmaxu (f : FmtG) : Statement (.redmaxu f) := by
  intro _ w h
  obtain rfl := Option.some.inj h
  obtain ⟨h0, h1, h2⟩ := FmtG.toWord_reads f 33 4 (by decide) (by decide)
  rw [decode, h1, decodeMajor, h2, decodeMajor33, h0]

theorem redand (f : FmtG) : Statement (.redand f) := by
  intro _ w h
  obtain rfl := Option.some.inj h
  obtain ⟨h0, h1, h2⟩ := FmtG.toWord_reads f 33 5 (by decide) (by decide)
  rw [decode, h1, decodeMajor, h2, decodeMajor33, h0]

theorem redor (f : FmtG) : Statement (.redor f) := by
  intro _ w h
  obtain rfl := Option.some.inj h
  obtain ⟨h0, h1, h2⟩ := FmtG.toWord_reads f 33 6 (by decide) (by decide)
  rw [decode, h1, decodeMajor, h2, decodeMajor33, h0]

theorem redxor (f : FmtG) : Statement (.redxor f) := by
  intro _ w h
  obtain rfl := Option.some.inj h
  obtain ⟨h0, h1, h2⟩ := FmtG.toWord_reads f 33 7 (by decide) (by decide)
  rw [decode, h1, decodeMajor, h2, decodeMajor33, h0]

theorem scanadd (f : FmtG) : Statement (.scanadd f) := by
  intro _ w h
  obtain rfl := Option.some.inj h
  obtain ⟨h0, h1, h2⟩ := FmtG.toWord_reads f 33 8 (by decide) (by decide)
  rw [decode, h1, decodeMajor, h2, decodeMajor33, h0]

theorem scanaddx (f : FmtG) : Statement (.scanaddx f) := by
  intro _ w h
  obtain rfl := Option.some.inj h
  obtain ⟨h0, h1, h2⟩ := FmtG.toWord_reads f 33 9 (by decide) (by decide)
  rw [decode, h1, decodeMajor, h2, decodeMajor33, h0]

theorem redfadd (f : FmtG) : Statement (.redfadd f) := by
  intro _ w h
  obtain rfl := Option.some.inj h
  obtain ⟨h0, h1, h2⟩ := FmtG.toWord_reads f 33 10 (by decide) (by decide)
  rw [decode, h1, decodeMajor, h2, decodeMajor33, h0]

theorem lany (f : FmtG) : Statement (.lany f) := by
  intro _ w h
  obtain rfl := Option.some.inj h
  obtain ⟨h0, h1, h2⟩ := FmtG.toWord_reads f 34 0 (by decide) (by decide)
  rw [decode, h1, decodeMajor, h2, decodeMajor34, h0]

theorem lall (f : FmtG) : Statement (.lall f) := by
  intro _ w h
  obtain rfl := Option.some.inj h
  obtain ⟨h0, h1, h2⟩ := FmtG.toWord_reads f 34 1 (by decide) (by decide)
  rw [decode, h1, decodeMajor, h2, decodeMajor34, h0]

theorem lmap (f : FmtG) : Statement (.lmap f) := by
  intro _ w h
  obtain rfl := Option.some.inj h
  obtain ⟨h0, h1, h2⟩ := FmtG.toWord_reads f 34 2 (by decide) (by decide)
  rw [decode, h1, decodeMajor, h2, decodeMajor34, h0]

theorem lpeer (f : FmtG) : Statement (.lpeer f) := by
  intro _ w h
  obtain rfl := Option.some.inj h
  obtain ⟨h0, h1, h2⟩ := FmtG.toWord_reads f 34 3 (by decide) (by decide)
  rw [decode, h1, decodeMajor, h2, decodeMajor34, h0]

theorem lfirst (f : FmtG) : Statement (.lfirst f) := by
  intro _ w h
  obtain rfl := Option.some.inj h
  obtain ⟨h0, h1, h2⟩ := FmtG.toWord_reads f 34 4 (by decide) (by decide)
  rw [decode, h1, decodeMajor, h2, decodeMajor34, h0]

theorem lcount (f : FmtG) : Statement (.lcount f) := by
  intro _ w h
  obtain rfl := Option.some.inj h
  obtain ⟨h0, h1, h2⟩ := FmtG.toWord_reads f 34 5 (by decide) (by decide)
  rw [decode, h1, decodeMajor, h2, decodeMajor34, h0]

theorem join (f : FmtG) : Statement (.join f) := by
  intro _ w h
  obtain rfl := Option.some.inj h
  obtain ⟨h0, h1, h2⟩ := FmtG.toWord_reads f 35 0 (by decide) (by decide)
  rw [decode, h1, decodeMajor, h2, decodeMajor35, h0]

theorem leave (f : FmtG) : Statement (.leave f) := by
  intro _ w h
  obtain rfl := Option.some.inj h
  obtain ⟨h0, h1, h2⟩ := FmtG.toWord_reads f 35 1 (by decide) (by decide)
  rw [decode, h1, decodeMajor, h2, decodeMajor35, h0]

theorem waitm (f : FmtG) : Statement (.waitm f) := by
  intro _ w h
  obtain rfl := Option.some.inj h
  obtain ⟨h0, h1, h2⟩ := FmtG.toWord_reads f 35 2 (by decide) (by decide)
  rw [decode, h1, decodeMajor, h2, decodeMajor35, h0]

theorem mget (f : FmtG) : Statement (.mget f) := by
  intro _ w h
  obtain rfl := Option.some.inj h
  obtain ⟨h0, h1, h2⟩ := FmtG.toWord_reads f 35 3 (by decide) (by decide)
  rw [decode, h1, decodeMajor, h2, decodeMajor35, h0]

theorem mset (f : FmtG) : Statement (.mset f) := by
  intro _ w h
  obtain rfl := Option.some.inj h
  obtain ⟨h0, h1, h2⟩ := FmtG.toWord_reads f 35 4 (by decide) (by decide)
  rw [decode, h1, decodeMajor, h2, decodeMajor35, h0]

theorem mand (f : FmtG) : Statement (.mand f) := by
  intro _ w h
  obtain rfl := Option.some.inj h
  obtain ⟨h0, h1, h2⟩ := FmtG.toWord_reads f 35 5 (by decide) (by decide)
  rw [decode, h1, decodeMajor, h2, decodeMajor35, h0]

theorem mor (f : FmtG) : Statement (.mor f) := by
  intro _ w h
  obtain rfl := Option.some.inj h
  obtain ⟨h0, h1, h2⟩ := FmtG.toWord_reads f 35 6 (by decide) (by decide)
  rw [decode, h1, decodeMajor, h2, decodeMajor35, h0]

theorem mandn (f : FmtG) : Statement (.mandn f) := by
  intro _ w h
  obtain rfl := Option.some.inj h
  obtain ⟨h0, h1, h2⟩ := FmtG.toWord_reads f 35 7 (by decide) (by decide)
  rw [decode, h1, decodeMajor, h2, decodeMajor35, h0]

theorem mclr (f : FmtG) : Statement (.mclr f) := by
  intro _ w h
  obtain rfl := Option.some.inj h
  obtain ⟨h0, h1, h2⟩ := FmtG.toWord_reads f 35 8 (by decide) (by decide)
  rw [decode, h1, decodeMajor, h2, decodeMajor35, h0]

theorem tnew (f : FmtA) : Statement (.tnew f) := by
  intro _ w h
  obtain rfl := Option.some.inj h
  obtain ⟨h0, h1, h2⟩ := FmtA.toWord_reads f 36 0 (by decide) (by decide)
  rw [decode, h1, decodeMajor, h2, decodeMajor36, h0]

theorem tfree (f : FmtA) : Statement (.tfree f) := by
  intro _ w h
  obtain rfl := Option.some.inj h
  obtain ⟨h0, h1, h2⟩ := FmtA.toWord_reads f 36 1 (by decide) (by decide)
  rw [decode, h1, decodeMajor, h2, decodeMajor36, h0]

theorem tjoin (f : FmtA) : Statement (.tjoin f) := by
  intro _ w h
  obtain rfl := Option.some.inj h
  obtain ⟨h0, h1, h2⟩ := FmtA.toWord_reads f 36 2 (by decide) (by decide)
  rw [decode, h1, decodeMajor, h2, decodeMajor36, h0]

theorem tleave (f : FmtA) : Statement (.tleave f) := by
  intro _ w h
  obtain rfl := Option.some.inj h
  obtain ⟨h0, h1, h2⟩ := FmtA.toWord_reads f 36 3 (by decide) (by decide)
  rw [decode, h1, decodeMajor, h2, decodeMajor36, h0]

theorem tbar (f : FmtA) : Statement (.tbar f) := by
  intro _ w h
  obtain rfl := Option.some.inj h
  obtain ⟨h0, h1, h2⟩ := FmtA.toWord_reads f 36 4 (by decide) (by decide)
  rw [decode, h1, decodeMajor, h2, decodeMajor36, h0]

theorem tarrive (f : FmtA) : Statement (.tarrive f) := by
  intro _ w h
  obtain rfl := Option.some.inj h
  obtain ⟨h0, h1, h2⟩ := FmtA.toWord_reads f 36 5 (by decide) (by decide)
  rw [decode, h1, decodeMajor, h2, decodeMajor36, h0]

theorem twaitp (f : FmtA) : Statement (.twaitp f) := by
  intro _ w h
  obtain rfl := Option.some.inj h
  obtain ⟨h0, h1, h2⟩ := FmtA.toWord_reads f 36 6 (by decide) (by decide)
  rw [decode, h1, decodeMajor, h2, decodeMajor36, h0]

theorem mma (f : FmtMma) : Statement (.mma f) := by
  intro hf w h
  obtain rfl := Option.some.inj h
  obtain ⟨h0, h1⟩ := FmtMma.toWord_reads f 37 (by decide)
  rw [decode, h1, decodeMajor, checked, h0]
  rw [if_pos (by simpa only [Instr.wellFormed] using hf)]

theorem mmag (f : FmtMmag) : Statement (.mmag f) := by
  intro hf w h
  obtain rfl := Option.some.inj h
  obtain ⟨h0, h1⟩ := FmtMmag.toWord_reads f 38 (by decide)
  rw [decode, h1, decodeMajor, checked, h0]
  rw [if_pos (by simpa only [Instr.wellFormed] using hf)]

theorem aacq (f : FmtA) : Statement (.aacq f) := by
  intro _ w h
  obtain rfl := Option.some.inj h
  obtain ⟨h0, h1, h2⟩ := FmtA.toWord_reads f 39 0 (by decide) (by decide)
  rw [decode, h1, decodeMajor, h2, decodeMajor39, h0]

theorem arel (f : FmtA) : Statement (.arel f) := by
  intro _ w h
  obtain rfl := Option.some.inj h
  obtain ⟨h0, h1, h2⟩ := FmtA.toWord_reads f 39 1 (by decide) (by decide)
  rw [decode, h1, decodeMajor, h2, decodeMajor39, h0]

theorem azero (f : FmtA) : Statement (.azero f) := by
  intro _ w h
  obtain rfl := Option.some.inj h
  obtain ⟨h0, h1, h2⟩ := FmtA.toWord_reads f 39 2 (by decide) (by decide)
  rw [decode, h1, decodeMajor, h2, decodeMajor39, h0]

theorem amov (f : FmtA) : Statement (.amov f) := by
  intro _ w h
  obtain rfl := Option.some.inj h
  obtain ⟨h0, h1, h2⟩ := FmtA.toWord_reads f 39 3 (by decide) (by decide)
  rw [decode, h1, decodeMajor, h2, decodeMajor39, h0]

theorem amovin (f : FmtA) : Statement (.amovin f) := by
  intro _ w h
  obtain rfl := Option.some.inj h
  obtain ⟨h0, h1, h2⟩ := FmtA.toWord_reads f 39 4 (by decide) (by decide)
  rw [decode, h1, decodeMajor, h2, decodeMajor39, h0]

theorem ascale (f : FmtA) : Statement (.ascale f) := by
  intro _ w h
  obtain rfl := Option.some.inj h
  obtain ⟨h0, h1, h2⟩ := FmtA.toWord_reads f 39 5 (by decide) (by decide)
  rw [decode, h1, decodeMajor, h2, decodeMajor39, h0]

theorem astore (f : FmtA) : Statement (.astore f) := by
  intro hf w h
  obtain rfl := Option.some.inj h
  obtain ⟨h0, h1, h2⟩ := FmtA.toWord_reads f 39 6 (by decide) (by decide)
  rw [decode, h1, decodeMajor, h2, decodeMajor39, checked, h0]
  rw [if_pos (by simpa only [Instr.wellFormed] using hf)]

theorem aload (f : FmtA) : Statement (.aload f) := by
  intro _ w h
  obtain rfl := Option.some.inj h
  obtain ⟨h0, h1, h2⟩ := FmtA.toWord_reads f 39 7 (by decide) (by decide)
  rw [decode, h1, decodeMajor, h2, decodeMajor39, h0]

theorem sld (f : FmtA) : Statement (.sld f) := by
  intro _ w h
  obtain rfl := Option.some.inj h
  obtain ⟨h0, h1, h2⟩ := FmtA.toWord_reads f 40 0 (by decide) (by decide)
  rw [decode, h1, decodeMajor, h2, decodeMajor40, h0]

theorem sst (f : FmtA) : Statement (.sst f) := by
  intro _ w h
  obtain rfl := Option.some.inj h
  obtain ⟨h0, h1, h2⟩ := FmtA.toWord_reads f 40 1 (by decide) (by decide)
  rw [decode, h1, decodeMajor, h2, decodeMajor40, h0]

theorem sbind (f : FmtA) : Statement (.sbind f) := by
  intro hf w h
  obtain rfl := Option.some.inj h
  obtain ⟨h0, h1, h2⟩ := FmtA.toWord_reads f 40 2 (by decide) (by decide)
  rw [decode, h1, decodeMajor, h2, decodeMajor40, checked, h0]
  rw [if_pos (by simpa only [Instr.wellFormed] using hf)]

theorem sunbind (f : FmtS) : Statement (.sunbind f) := by
  intro _ w h
  obtain rfl := Option.some.inj h
  obtain ⟨h0, h1, h2, h3⟩ := FmtS.toWord_reads f 40 0 3 (by decide) (by decide) (by decide)
  rw [decode, h1, decodeMajor, h3, decodeMajor40, h2]
  simp only [if_pos, reduceIte, Nat.one_ne_zero, h0]

theorem sunbindReg (f : FmtS) : Statement (.sunbindReg f) := by
  intro _ w h
  obtain rfl := Option.some.inj h
  obtain ⟨h0, h1, h2, h3⟩ := FmtS.toWord_reads f 40 1 3 (by decide) (by decide) (by decide)
  rw [decode, h1, decodeMajor, h3, decodeMajor40, h2]
  simp only [if_pos, reduceIte, Nat.one_ne_zero, h0]

theorem sadd (f : FmtA) : Statement (.sadd f) := by
  intro _ w h
  obtain rfl := Option.some.inj h
  obtain ⟨h0, h1, h2⟩ := FmtA.toWord_reads f 40 4 (by decide) (by decide)
  rw [decode, h1, decodeMajor, h2, decodeMajor40, h0]

theorem smax (f : FmtA) : Statement (.smax f) := by
  intro _ w h
  obtain rfl := Option.some.inj h
  obtain ⟨h0, h1, h2⟩ := FmtA.toWord_reads f 40 5 (by decide) (by decide)
  rw [decode, h1, decodeMajor, h2, decodeMajor40, h0]

theorem scvtUe5m3 (f : FmtS) : Statement (.scvtUe5m3 f) := by
  intro _ w h
  obtain rfl := Option.some.inj h
  obtain ⟨h0, h1, h2, h3⟩ := FmtS.toWord_reads f 40 0 6 (by decide) (by decide) (by decide)
  rw [decode, h1, decodeMajor, h3, decodeMajor40, h2]
  simp only [if_pos, reduceIte, Nat.one_ne_zero, h0]

theorem scvtE8m0 (f : FmtS) : Statement (.scvtE8m0 f) := by
  intro _ w h
  obtain rfl := Option.some.inj h
  obtain ⟨h0, h1, h2, h3⟩ := FmtS.toWord_reads f 40 1 6 (by decide) (by decide) (by decide)
  rw [decode, h1, decodeMajor, h3, decodeMajor40, h2]
  simp only [if_pos, reduceIte, Nat.one_ne_zero, h0]

theorem smov (f : FmtA) : Statement (.smov f) := by
  intro _ w h
  obtain rfl := Option.some.inj h
  obtain ⟨h0, h1, h2⟩ := FmtA.toWord_reads f 40 7 (by decide) (by decide)
  rw [decode, h1, decodeMajor, h2, decodeMajor40, h0]

theorem sqry (f : FmtA) : Statement (.sqry f) := by
  intro _ w h
  obtain rfl := Option.some.inj h
  obtain ⟨h0, h1, h2⟩ := FmtA.toWord_reads f 40 8 (by decide) (by decide)
  rw [decode, h1, decodeMajor, h2, decodeMajor40, h0]

theorem tcopy (f : FmtA) : Statement (.tcopy f) := by
  intro _ w h
  obtain rfl := Option.some.inj h
  obtain ⟨h0, h1, h2⟩ := FmtA.toWord_reads f 41 0 (by decide) (by decide)
  rw [decode, h1, decodeMajor, h2, decodeMajor41, h0]

theorem tgather (f : FmtA) : Statement (.tgather f) := by
  intro _ w h
  obtain rfl := Option.some.inj h
  obtain ⟨h0, h1, h2⟩ := FmtA.toWord_reads f 41 1 (by decide) (by decide)
  rw [decode, h1, decodeMajor, h2, decodeMajor41, h0]

theorem hnew (f : FmtA) : Statement (.hnew f) := by
  intro _ w h
  obtain rfl := Option.some.inj h
  obtain ⟨h0, h1, h2⟩ := FmtA.toWord_reads f 42 0 (by decide) (by decide)
  rw [decode, h1, decodeMajor, h2, decodeMajor42, h0]

theorem hgive (f : FmtA) : Statement (.hgive f) := by
  intro _ w h
  obtain rfl := Option.some.inj h
  obtain ⟨h0, h1, h2⟩ := FmtA.toWord_reads f 42 1 (by decide) (by decide)
  rw [decode, h1, decodeMajor, h2, decodeMajor42, h0]

theorem htake (f : FmtA) : Statement (.htake f) := by
  intro _ w h
  obtain rfl := Option.some.inj h
  obtain ⟨h0, h1, h2⟩ := FmtA.toWord_reads f 42 2 (by decide) (by decide)
  rw [decode, h1, decodeMajor, h2, decodeMajor42, h0]

theorem hqry (f : FmtA) : Statement (.hqry f) := by
  intro _ w h
  obtain rfl := Option.some.inj h
  obtain ⟨h0, h1, h2⟩ := FmtA.toWord_reads f 42 3 (by decide) (by decide)
  rw [decode, h1, decodeMajor, h2, decodeMajor42, h0]

theorem hfree (f : FmtA) : Statement (.hfree f) := by
  intro _ w h
  obtain rfl := Option.some.inj h
  obtain ⟨h0, h1, h2⟩ := FmtA.toWord_reads f 42 4 (by decide) (by decide)
  rw [decode, h1, decodeMajor, h2, decodeMajor42, h0]

theorem swinit (f : FmtA) : Statement (.swinit f) := by
  intro _ w h
  obtain rfl := Option.some.inj h
  obtain ⟨h0, h1, h2⟩ := FmtA.toWord_reads f 43 0 (by decide) (by decide)
  rw [decode, h1, decodeMajor, h2, decodeMajor43, h0]

theorem swwait (f : FmtA) : Statement (.swwait f) := by
  intro _ w h
  obtain rfl := Option.some.inj h
  obtain ⟨h0, h1, h2⟩ := FmtA.toWord_reads f 43 1 (by decide) (by decide)
  rw [decode, h1, decodeMajor, h2, decodeMajor43, h0]

theorem swadd (f : FmtA) : Statement (.swadd f) := by
  intro _ w h
  obtain rfl := Option.some.inj h
  obtain ⟨h0, h1, h2⟩ := FmtA.toWord_reads f 43 2 (by decide) (by decide)
  rw [decode, h1, decodeMajor, h2, decodeMajor43, h0]

theorem swgen (f : FmtA) : Statement (.swgen f) := by
  intro _ w h
  obtain rfl := Option.some.inj h
  obtain ⟨h0, h1, h2⟩ := FmtA.toWord_reads f 43 3 (by decide) (by decide)
  rw [decode, h1, decodeMajor, h2, decodeMajor43, h0]

theorem rlcgo (f : FmtA) : Statement (.rlcgo f) := by
  intro _ w h
  obtain rfl := Option.some.inj h
  obtain ⟨h0, h1, h2⟩ := FmtA.toWord_reads f 44 0 (by decide) (by decide)
  rw [decode, h1, decodeMajor, h2, decodeMajor44, h0]

theorem pref (f : FmtPref) : Statement (.pref f) := by
  intro _ w h
  obtain rfl := Option.some.inj h
  obtain ⟨h0, h1⟩ := FmtPref.toWord_reads f 56 (by decide)
  rw [decode, h1, decodeMajor, h0]

theorem cpol (f : FmtCpol) : Statement (.cpol f) := by
  intro _ w h
  obtain rfl := Option.some.inj h
  obtain ⟨h0, h1⟩ := FmtCpol.toWord_reads f 57 (by decide)
  rw [decode, h1, decodeMajor, h0]

theorem prio (f : FmtI) : Statement (.prio f) := by
  intro _ w h
  obtain rfl := Option.some.inj h
  obtain ⟨h0, h1⟩ := FmtI.toWord_reads f 58 (by decide)
  rw [decode, h1, decodeMajor, h0]

theorem hintRegionNop (f : FmtHint) : Statement (.hintRegionNop f) := by
  intro _ w h
  obtain rfl := Option.some.inj h
  obtain ⟨h0, h1⟩ := FmtHint.toWord_reads f 59 (by decide)
  rw [decode, h1, decodeMajor, h0]

theorem illegalWord (w : BitVec 32) : Statement (.illegalWord w) := fun _ _ h => nomatch h

theorem classLResultWrite (i : Nat) : Statement (.classLResultWrite i) := fun _ _ h => nomatch h

theorem queueEntryArrival (i : Nat) : Statement (.queueEntryArrival i) := fun _ _ h => nomatch h

theorem storePerform (i : Nat) : Statement (.storePerform i) := fun _ _ h => nomatch h

theorem atomicPerform (i : Nat) : Statement (.atomicPerform i) := fun _ _ h => nomatch h

theorem atomnMerge (i j : Nat) : Statement (.atomnMerge i j) := fun _ _ h => nomatch h

theorem fairnessTimerExpiry (g : Nat) : Statement (.fairnessTimerExpiry g) := fun _ _ h => nomatch h

theorem spawnTimeout (sp : Nat) : Statement (.spawnTimeout sp) := fun _ _ h => nomatch h

theorem xacqGrant (g : Nat) : Statement (.xacqGrant g) := fun _ _ h => nomatch h

theorem arithLogRecord (i : Nat) : Statement (.arithLogRecord i) := fun _ _ h => nomatch h

theorem arrayAccept (core : Nat) : Statement (.arrayAccept core) := fun _ _ h => nomatch h

theorem matrixComplete (i : Nat) : Statement (.matrixComplete i) := fun _ _ h => nomatch h

theorem accOpComplete (i : Nat) : Statement (.accOpComplete i) := fun _ _ h => nomatch h

theorem accTileGrant (g : Nat) : Statement (.accTileGrant g) := fun _ _ h => nomatch h

theorem scaleRegGrant (g : Nat) : Statement (.scaleRegGrant g) := fun _ _ h => nomatch h

theorem sldScaleWrite (i : Nat) : Statement (.sldScaleWrite i) := fun _ _ h => nomatch h

theorem axbGrant (g : Nat) : Statement (.axbGrant g) := fun _ _ h => nomatch h

theorem exclusiveAdmit : Statement (.exclusiveAdmit) := fun _ _ h => nomatch h

theorem commit (core : Nat) : Statement (.commit core) := fun _ _ h => nomatch h

theorem commitLineTimeout (core : Nat) : Statement (.commitLineTimeout core) := fun _ _ h => nomatch h

theorem faultRecordWrite (die : Nat) : Statement (.faultRecordWrite die) := fun _ _ h => nomatch h

theorem resolveRetry (ticket : BitVec 32) : Statement (.resolveRetry ticket) := fun _ _ h => nomatch h

theorem resolveDeliver (ticket : BitVec 32) : Statement (.resolveDeliver ticket) := fun _ _ h => nomatch h

theorem resolveAbort (ticket : BitVec 32) : Statement (.resolveAbort ticket) := fun _ _ h => nomatch h

theorem handlerEntry (g lane : Nat) : Statement (.handlerEntry g lane) := fun _ _ h => nomatch h

theorem spawnEnd (sp : Nat) : Statement (.spawnEnd sp) := fun _ _ h => nomatch h

theorem spawnCompletion (sp : Nat) : Statement (.spawnCompletion sp) := fun _ _ h => nomatch h

theorem softError (d : Datum) (double lasting : Bool) : Statement (.softError d double lasting) := fun _ _ h => nomatch h

theorem hangSample (core : Nat) : Statement (.hangSample core) := fun _ _ h => nomatch h

theorem htakeHandover (i : Nat) : Statement (.htakeHandover i) := fun _ _ h => nomatch h

theorem slotZeroing (i : Nat) : Statement (.slotZeroing i) := fun _ _ h => nomatch h

theorem copyStart (cl st : Nat) : Statement (.copyStart cl st) := fun _ _ h => nomatch h

theorem copyBlock (cl st : Nat) : Statement (.copyBlock cl st) := fun _ _ h => nomatch h

theorem copyComplete (cl st : Nat) : Statement (.copyComplete cl st) := fun _ _ h => nomatch h

theorem queuePostArrival (i : Nat) : Statement (.queuePostArrival i) := fun _ _ h => nomatch h

theorem bundleStart (q : Nat) (places : List Place) : Statement (.bundleStart q places) := fun _ _ h => nomatch h

theorem bundleRetire (i : Nat) : Statement (.bundleRetire i) := fun _ _ h => nomatch h

theorem bindStart (r : BindRec) : Statement (.bindStart r) := fun _ _ h => nomatch h

theorem bindResume (r : BindRec) : Statement (.bindResume r) := fun _ _ h => nomatch h

theorem bindStopSave (r : BindRec) : Statement (.bindStopSave r) := fun _ _ h => nomatch h

theorem contextImageWrite (team : Nat) : Statement (.contextImageWrite team) := fun _ _ h => nomatch h

theorem watchUpdate (i : Nat) (value : BitVec 32) : Statement (.watchUpdate i value) := fun _ _ h => nomatch h

theorem waitwTimeout (g lane : Nat) : Statement (.waitwTimeout g lane) := fun _ _ h => nomatch h

theorem hbmError (line : Nat) (uncorrectable lasting : Bool) : Statement (.hbmError line uncorrectable lasting) := fun _ _ h => nomatch h

theorem patrolScrub (stack : Nat) : Statement (.patrolScrub stack) := fun _ _ h => nomatch h

theorem rlcCommandStart (die : Nat) : Statement (.rlcCommandStart die) := fun _ _ h => nomatch h

theorem rlcPhaseComplete (c : Nat) : Statement (.rlcPhaseComplete c) := fun _ _ h => nomatch h

theorem rlcNormDone (c : Nat) : Statement (.rlcNormDone c) := fun _ _ h => nomatch h

theorem invalidationGo (h : Nat) : Statement (.invalidationGo h) := fun _ _ h => nomatch h

theorem invalidationRequest (base : BitVec 64) (count : BitVec 32) (asid : BitVec 16) : Statement (.invalidationRequest base count asid) := fun _ _ h => nomatch h

theorem invalidationAck (h pkg : Nat) : Statement (.invalidationAck h pkg) := fun _ _ h => nomatch h

theorem zeroingRequest (i : Nat) : Statement (.zeroingRequest i) := fun _ _ h => nomatch h

theorem zeroingComplete (i : Nat) : Statement (.zeroingComplete i) := fun _ _ h => nomatch h

theorem directoryRebuild (pkg : Nat) : Statement (.directoryRebuild pkg) := fun _ _ h => nomatch h

theorem hostPortStore (h port : Nat) (record : List (BitVec 8)) : Statement (.hostPortStore h port record) := fun _ _ h => nomatch h

theorem hostPortLoad (h port : Nat) : Statement (.hostPortLoad h port) := fun _ _ h => nomatch h

theorem unlock (blk : Nat) (value : BitVec 32) : Statement (.unlock blk value) := fun _ _ h => nomatch h

theorem registerWrite (addr : Nat) (bytes : List (BitVec 8)) : Statement (.registerWrite addr bytes) := fun _ _ h => nomatch h

theorem bringUp (ok : Bool) : Statement (.bringUp ok) := fun _ _ h => nomatch h

theorem powerFail : Statement (.powerFail) := fun _ _ h => nomatch h

theorem thermalSample (die temp : Nat) : Statement (.thermalSample die temp) := fun _ _ h => nomatch h

theorem reset : Statement (.reset) := fun _ _ h => nomatch h

theorem fieldLogWrite : Statement (.fieldLogWrite) := fun _ _ h => nomatch h

theorem msg (link bundle : Nat) (flit : CtlFlit) : Statement (.msg link bundle flit) := fun _ _ h => nomatch h

theorem ack (link bundle : Nat) (seq : BitVec 16) : Statement (.ack link bundle seq) := fun _ _ h => nomatch h

theorem nak (link bundle : Nat) (seq : BitVec 16) : Statement (.nak link bundle seq) := fun _ _ h => nomatch h

theorem ackTimer (link bundle : Nat) : Statement (.ackTimer link bundle) := fun _ _ h => nomatch h

theorem credit (link : Nat) (pairs : List (Nat × BitVec 32)) : Statement (.credit link pairs) := fun _ _ h => nomatch h

theorem csync (link : Nat) (pairs : List (Nat × BitVec 32)) : Statement (.csync link pairs) := fun _ _ h => nomatch h

theorem csyncTimer (link : Nat) : Statement (.csyncTimer link) := fun _ _ h => nomatch h

theorem data (link bundle : Nat) (flit : DataFlit) : Statement (.data link bundle flit) := fun _ _ h => nomatch h

theorem rdreq (link bundle : Nat) (flit : DataFlit) : Statement (.rdreq link bundle flit) := fun _ _ h => nomatch h

theorem ctrlcarry (link bundle : Nat) (flit : DataFlit) (flits : List CtlFlit) : Statement (.ctrlcarry link bundle flit flits) := fun _ _ h => nomatch h

theorem bundleRetrainDone (link bundle : Nat) (ok : Bool) : Statement (.bundleRetrainDone link bundle ok) := fun _ _ h => nomatch h

theorem linkRetrainTimer (link : Nat) : Statement (.linkRetrainTimer link) := fun _ _ h => nomatch h

theorem linkState (pkg : Nat) (board pod : BitVec 32) : Statement (.linkState pkg board pod) := fun _ _ h => nomatch h

theorem e2eAck (xfer : BitVec 32) (result : BitVec 64) : Statement (.e2eAck xfer result) := fun _ _ h => nomatch h

theorem remoteAtomicArrival (m : RemoteAtomic) : Statement (.remoteAtomicArrival m) := fun _ _ h => nomatch h

theorem remoteAtomicResult (xfer : BitVec 32) (status : BitVec 4) (old : BitVec 64) : Statement (.remoteAtomicResult xfer status old) := fun _ _ h => nomatch h

theorem routeRetryTimer (xfer : BitVec 32) : Statement (.routeRetryTimer xfer) := fun _ _ h => nomatch h

theorem routeRetryExpiry (xfer : BitVec 32) : Statement (.routeRetryExpiry xfer) := fun _ _ h => nomatch h

theorem dedupExpiry : Statement (.dedupExpiry) := fun _ _ h => nomatch h

theorem heartbeat : Statement (.heartbeat) := fun _ _ h => nomatch h

theorem heartbeatTimeout (pkg : Nat) : Statement (.heartbeatTimeout pkg) := fun _ _ h => nomatch h

theorem suspect (src pkg : Nat) : Statement (.suspect src pkg) := fun _ _ h => nomatch h

theorem confirm (src pkg : Nat) : Statement (.confirm src pkg) := fun _ _ h => nomatch h

theorem soloLossTimer (pkg : Nat) : Statement (.soloLossTimer pkg) := fun _ _ h => nomatch h

theorem isolationTimeout : Statement (.isolationTimeout) := fun _ _ h => nomatch h

theorem peerLoss (pkg : Nat) : Statement (.peerLoss pkg) := fun _ _ h => nomatch h

theorem commLoad (k : Nat) : Statement (.commLoad k) := fun _ _ h => nomatch h

theorem commLoadFinish (k : Nat) : Statement (.commLoadFinish k) := fun _ _ h => nomatch h

theorem commFree (k : Nat) : Statement (.commFree k) := fun _ _ h => nomatch h

theorem commAbort (k : Nat) : Statement (.commAbort k) := fun _ _ h => nomatch h

theorem runRequest (i : Nat) : Statement (.runRequest i) := fun _ _ h => nomatch h

theorem runStart (k : Nat) : Statement (.runStart k) := fun _ _ h => nomatch h

theorem chunkStart : Statement (.chunkStart) := fun _ _ h => nomatch h

theorem clear (m : ClearMsg) : Statement (.clear m) := fun _ _ h => nomatch h

theorem chunkApply (k op chunk : Nat) : Statement (.chunkApply k op chunk) := fun _ _ h => nomatch h

theorem runfail (k : Nat) (runseq : BitVec 32) (status : BitVec 4) : Statement (.runfail k runseq status) := fun _ _ h => nomatch h

theorem linkDownTimeout (link : Nat) : Statement (.linkDownTimeout link) := fun _ _ h => nomatch h

theorem poweredHours (bins : HourBins) : Statement (.poweredHours bins) := fun _ _ h => nomatch h

theorem crossbarFlitError (cluster core : Nat) (lasting engine : Bool) : Statement (.crossbarFlitError cluster core lasting engine) := fun _ _ h => nomatch h

end Sys2Proof.Laws.Roundtrip
end

