-- ==== Sys2Proof/Laws/State.lean ====
section
/-! SUPPORT. What each update of the state leaves in each of its fields: one lemma a field and update, true by definition, so
that no later proof unfolds a record update. -/

namespace Sys2Proof.Machine

open Sys2Proof

/-! ## State.onGang -/

@[simp] theorem State.onGang_mem (s : State) (g : Nat) (f : Gang → Gang) :
    (s.onGang g f).mem = s.mem := rfl
@[simp] theorem State.onGang_poison (s : State) (g : Nat) (f : Gang → Gang) :
    (s.onGang g f).poison = s.poison := rfl
@[simp] theorem State.onGang_clk (s : State) (g : Nat) (f : Gang → Gang) :
    (s.onGang g f).clk = s.clk := rfl
@[simp] theorem State.onGang_podIndex (s : State) (g : Nat) (f : Gang → Gang) :
    (s.onGang g f).podIndex = s.podIndex := rfl
@[simp] theorem State.onGang_gangs (s : State) (g : Nat) (f : Gang → Gang) :
    (s.onGang g f).gangs = s.gangs.modify g f := rfl
@[simp] theorem State.onGang_teams (s : State) (g : Nat) (f : Gang → Gang) :
    (s.onGang g f).teams = s.teams := rfl
@[simp] theorem State.onGang_handles (s : State) (g : Nat) (f : Gang → Gang) :
    (s.onGang g f).handles = s.handles := rfl
@[simp] theorem State.onGang_sync (s : State) (g : Nat) (f : Gang → Gang) :
    (s.onGang g f).sync = s.sync := rfl
@[simp] theorem State.onGang_front (s : State) (g : Nat) (f : Gang → Gang) :
    (s.onGang g f).front = s.front := rfl
@[simp] theorem State.onGang_spawns (s : State) (g : Nat) (f : Gang → Gang) :
    (s.onGang g f).spawns = s.spawns := rfl
@[simp] theorem State.onGang_accesses (s : State) (g : Nat) (f : Gang → Gang) :
    (s.onGang g f).accesses = s.accesses := rfl
@[simp] theorem State.onGang_pending (s : State) (g : Nat) (f : Gang → Gang) :
    (s.onGang g f).pending = s.pending := rfl
@[simp] theorem State.onGang_posts (s : State) (g : Nat) (f : Gang → Gang) :
    (s.onGang g f).posts = s.posts := rfl
@[simp] theorem State.onGang_matOps (s : State) (g : Nat) (f : Gang → Gang) :
    (s.onGang g f).matOps = s.matOps := rfl
@[simp] theorem State.onGang_scaleLoads (s : State) (g : Nat) (f : Gang → Gang) :
    (s.onGang g f).scaleLoads = s.scaleLoads := rfl
@[simp] theorem State.onGang_scaleRegs (s : State) (g : Nat) (f : Gang → Gang) :
    (s.onGang g f).scaleRegs = s.scaleRegs := rfl
@[simp] theorem State.onGang_arrayNext (s : State) (g : Nat) (f : Gang → Gang) :
    (s.onGang g f).arrayNext = s.arrayNext := rfl
@[simp] theorem State.onGang_retained (s : State) (g : Nat) (f : Gang → Gang) :
    (s.onGang g f).retained = s.retained := rfl
@[simp] theorem State.onGang_aacqQueue (s : State) (g : Nat) (f : Gang → Gang) :
    (s.onGang g f).aacqQueue = s.aacqQueue := rfl
@[simp] theorem State.onGang_l1 (s : State) (g : Nat) (f : Gang → Gang) :
    (s.onGang g f).l1 = s.l1 := rfl
@[simp] theorem State.onGang_fused (s : State) (g : Nat) (f : Gang → Gang) :
    (s.onGang g f).fused = s.fused := rfl
@[simp] theorem State.onGang_tlb (s : State) (g : Nat) (f : Gang → Gang) :
    (s.onGang g f).tlb = s.tlb := rfl
@[simp] theorem State.onGang_zeroing (s : State) (g : Nat) (f : Gang → Gang) :
    (s.onGang g f).zeroing = s.zeroing := rfl
@[simp] theorem State.onGang_watches (s : State) (g : Nat) (f : Gang → Gang) :
    (s.onGang g f).watches = s.watches := rfl
@[simp] theorem State.onGang_watchSeq (s : State) (g : Nat) (f : Gang → Gang) :
    (s.onGang g f).watchSeq = s.watchSeq := rfl
@[simp] theorem State.onGang_tokens (s : State) (g : Nat) (f : Gang → Gang) :
    (s.onGang g f).tokens = s.tokens := rfl
@[simp] theorem State.onGang_xacqQueue (s : State) (g : Nat) (f : Gang → Gang) :
    (s.onGang g f).xacqQueue = s.xacqQueue := rfl
@[simp] theorem State.onGang_axbQueue (s : State) (g : Nat) (f : Gang → Gang) :
    (s.onGang g f).axbQueue = s.axbQueue := rfl
@[simp] theorem State.onGang_exclQueue (s : State) (g : Nat) (f : Gang → Gang) :
    (s.onGang g f).exclQueue = s.exclQueue := rfl
@[simp] theorem State.onGang_exclusive (s : State) (g : Nat) (f : Gang → Gang) :
    (s.onGang g f).exclusive = s.exclusive := rfl
@[simp] theorem State.onGang_commits (s : State) (g : Nat) (f : Gang → Gang) :
    (s.onGang g f).commits = s.commits := rfl
@[simp] theorem State.onGang_owed (s : State) (g : Nat) (f : Gang → Gang) :
    (s.onGang g f).owed = s.owed := rfl
@[simp] theorem State.onGang_copies (s : State) (g : Nat) (f : Gang → Gang) :
    (s.onGang g f).copies = s.copies := rfl
@[simp] theorem State.onGang_commands (s : State) (g : Nat) (f : Gang → Gang) :
    (s.onGang g f).commands = s.commands := rfl
@[simp] theorem State.onGang_transfers (s : State) (g : Nat) (f : Gang → Gang) :
    (s.onGang g f).transfers = s.transfers := rfl
@[simp] theorem State.onGang_runs (s : State) (g : Nat) (f : Gang → Gang) :
    (s.onGang g f).runs = s.runs := rfl
@[simp] theorem State.onGang_faults (s : State) (g : Nat) (f : Gang → Gang) :
    (s.onGang g f).faults = s.faults := rfl
@[simp] theorem State.onGang_health (s : State) (g : Nat) (f : Gang → Gang) :
    (s.onGang g f).health = s.health := rfl
@[simp] theorem State.onGang_invals (s : State) (g : Nat) (f : Gang → Gang) :
    (s.onGang g f).invals = s.invals := rfl
@[simp] theorem State.onGang_invalWait (s : State) (g : Nat) (f : Gang → Gang) :
    (s.onGang g f).invalWait = s.invalWait := rfl
@[simp] theorem State.onGang_care (s : State) (g : Nat) (f : Gang → Gang) :
    (s.onGang g f).care = s.care := rfl
@[simp] theorem State.onGang_fabric (s : State) (g : Nat) (f : Gang → Gang) :
    (s.onGang g f).fabric = s.fabric := rfl
@[simp] theorem State.onGang_coll (s : State) (g : Nat) (f : Gang → Gang) :
    (s.onGang g f).coll = s.coll := rfl
@[simp] theorem State.onGang_spawnIdNext (s : State) (g : Nat) (f : Gang → Gang) :
    (s.onGang g f).spawnIdNext = s.spawnIdNext := rfl
@[simp] theorem State.onGang_ctxBase (s : State) (g : Nat) (f : Gang → Gang) :
    (s.onGang g f).ctxBase = s.ctxBase := rfl
@[simp] theorem State.onGang_qcbBase (s : State) (g : Nat) (f : Gang → Gang) :
    (s.onGang g f).qcbBase = s.qcbBase := rfl
@[simp] theorem State.onGang_queueAclBase (s : State) (g : Nat) (f : Gang → Gang) :
    (s.onGang g f).queueAclBase = s.queueAclBase := rfl
@[simp] theorem State.onGang_aclBases (s : State) (g : Nat) (f : Gang → Gang) :
    (s.onGang g f).aclBases = s.aclBases := rfl
@[simp] theorem State.onGang_mirror (s : State) (g : Nat) (f : Gang → Gang) :
    (s.onGang g f).mirror = s.mirror := rfl
@[simp] theorem State.onGang_rebuilding (s : State) (g : Nat) (f : Gang → Gang) :
    (s.onGang g f).rebuilding = s.rebuilding := rfl
@[simp] theorem State.onGang_resolvePort (s : State) (g : Nat) (f : Gang → Gang) :
    (s.onGang g f).resolvePort = s.resolvePort := rfl
@[simp] theorem State.onGang_faultVa (s : State) (g : Nat) (f : Gang → Gang) :
    (s.onGang g f).faultVa = s.faultVa := rfl
@[simp] theorem State.onGang_ctx (s : State) (g : Nat) (f : Gang → Gang) :
    (s.onGang g f).ctx = s.ctx := rfl
@[simp] theorem State.onGang_inputs (s : State) (g : Nat) (f : Gang → Gang) :
    (s.onGang g f).inputs = s.inputs := rfl
@[simp] theorem State.onGang_sn (s : State) (g : Nat) (f : Gang → Gang) :
    (s.onGang g f).sn = s.sn := rfl
@[simp] theorem State.onGang_cycle (s : State) (g : Nat) (f : Gang → Gang) :
    (s.onGang g f).cycle = s.cycle := rfl
@[simp] theorem State.onGang_free (s : State) (g : Nat) (f : Gang → Gang) :
    (s.onGang g f).free = s.free := rfl
@[simp] theorem State.onGang_lastGang (s : State) (g : Nat) (f : Gang → Gang) :
    (s.onGang g f).lastGang = s.lastGang := rfl
@[simp] theorem State.onGang_dueQueue (s : State) (g : Nat) (f : Gang → Gang) :
    (s.onGang g f).dueQueue = s.dueQueue := rfl
@[simp] theorem State.onGang_rewritten (s : State) (g : Nat) (f : Gang → Gang) :
    (s.onGang g f).rewritten = s.rewritten := rfl
@[simp] theorem State.onGang_tickets (s : State) (g : Nat) (f : Gang → Gang) :
    (s.onGang g f).tickets = s.tickets := rfl

/-! ## State.onLanes -/

@[simp] theorem State.onLanes_mem (s : State) (g : Nat) (lanes : DWord) (f : Nat → Thread → Thread) :
    (s.onLanes g lanes f).mem = s.mem := rfl
@[simp] theorem State.onLanes_poison (s : State) (g : Nat) (lanes : DWord) (f : Nat → Thread → Thread) :
    (s.onLanes g lanes f).poison = s.poison := rfl
@[simp] theorem State.onLanes_clk (s : State) (g : Nat) (lanes : DWord) (f : Nat → Thread → Thread) :
    (s.onLanes g lanes f).clk = s.clk := rfl
@[simp] theorem State.onLanes_podIndex (s : State) (g : Nat) (lanes : DWord) (f : Nat → Thread → Thread) :
    (s.onLanes g lanes f).podIndex = s.podIndex := rfl
@[simp] theorem State.onLanes_gangs (s : State) (g : Nat) (lanes : DWord) (f : Nat → Thread → Thread) :
    (s.onLanes g lanes f).gangs = s.gangs.modify g (·.onLanes lanes f) := rfl
@[simp] theorem State.onLanes_teams (s : State) (g : Nat) (lanes : DWord) (f : Nat → Thread → Thread) :
    (s.onLanes g lanes f).teams = s.teams := rfl
@[simp] theorem State.onLanes_handles (s : State) (g : Nat) (lanes : DWord) (f : Nat → Thread → Thread) :
    (s.onLanes g lanes f).handles = s.handles := rfl
@[simp] theorem State.onLanes_sync (s : State) (g : Nat) (lanes : DWord) (f : Nat → Thread → Thread) :
    (s.onLanes g lanes f).sync = s.sync := rfl
@[simp] theorem State.onLanes_front (s : State) (g : Nat) (lanes : DWord) (f : Nat → Thread → Thread) :
    (s.onLanes g lanes f).front = s.front := rfl
@[simp] theorem State.onLanes_spawns (s : State) (g : Nat) (lanes : DWord) (f : Nat → Thread → Thread) :
    (s.onLanes g lanes f).spawns = s.spawns := rfl
@[simp] theorem State.onLanes_accesses (s : State) (g : Nat) (lanes : DWord) (f : Nat → Thread → Thread) :
    (s.onLanes g lanes f).accesses = s.accesses := rfl
@[simp] theorem State.onLanes_pending (s : State) (g : Nat) (lanes : DWord) (f : Nat → Thread → Thread) :
    (s.onLanes g lanes f).pending = s.pending := rfl
@[simp] theorem State.onLanes_posts (s : State) (g : Nat) (lanes : DWord) (f : Nat → Thread → Thread) :
    (s.onLanes g lanes f).posts = s.posts := rfl
@[simp] theorem State.onLanes_matOps (s : State) (g : Nat) (lanes : DWord) (f : Nat → Thread → Thread) :
    (s.onLanes g lanes f).matOps = s.matOps := rfl
@[simp] theorem State.onLanes_scaleLoads (s : State) (g : Nat) (lanes : DWord) (f : Nat → Thread → Thread) :
    (s.onLanes g lanes f).scaleLoads = s.scaleLoads := rfl
@[simp] theorem State.onLanes_scaleRegs (s : State) (g : Nat) (lanes : DWord) (f : Nat → Thread → Thread) :
    (s.onLanes g lanes f).scaleRegs = s.scaleRegs := rfl
@[simp] theorem State.onLanes_arrayNext (s : State) (g : Nat) (lanes : DWord) (f : Nat → Thread → Thread) :
    (s.onLanes g lanes f).arrayNext = s.arrayNext := rfl
@[simp] theorem State.onLanes_retained (s : State) (g : Nat) (lanes : DWord) (f : Nat → Thread → Thread) :
    (s.onLanes g lanes f).retained = s.retained := rfl
@[simp] theorem State.onLanes_aacqQueue (s : State) (g : Nat) (lanes : DWord) (f : Nat → Thread → Thread) :
    (s.onLanes g lanes f).aacqQueue = s.aacqQueue := rfl
@[simp] theorem State.onLanes_l1 (s : State) (g : Nat) (lanes : DWord) (f : Nat → Thread → Thread) :
    (s.onLanes g lanes f).l1 = s.l1 := rfl
@[simp] theorem State.onLanes_fused (s : State) (g : Nat) (lanes : DWord) (f : Nat → Thread → Thread) :
    (s.onLanes g lanes f).fused = s.fused := rfl
@[simp] theorem State.onLanes_tlb (s : State) (g : Nat) (lanes : DWord) (f : Nat → Thread → Thread) :
    (s.onLanes g lanes f).tlb = s.tlb := rfl
@[simp] theorem State.onLanes_zeroing (s : State) (g : Nat) (lanes : DWord) (f : Nat → Thread → Thread) :
    (s.onLanes g lanes f).zeroing = s.zeroing := rfl
@[simp] theorem State.onLanes_watches (s : State) (g : Nat) (lanes : DWord) (f : Nat → Thread → Thread) :
    (s.onLanes g lanes f).watches = s.watches := rfl
@[simp] theorem State.onLanes_watchSeq (s : State) (g : Nat) (lanes : DWord) (f : Nat → Thread → Thread) :
    (s.onLanes g lanes f).watchSeq = s.watchSeq := rfl
@[simp] theorem State.onLanes_tokens (s : State) (g : Nat) (lanes : DWord) (f : Nat → Thread → Thread) :
    (s.onLanes g lanes f).tokens = s.tokens := rfl
@[simp] theorem State.onLanes_xacqQueue (s : State) (g : Nat) (lanes : DWord) (f : Nat → Thread → Thread) :
    (s.onLanes g lanes f).xacqQueue = s.xacqQueue := rfl
@[simp] theorem State.onLanes_axbQueue (s : State) (g : Nat) (lanes : DWord) (f : Nat → Thread → Thread) :
    (s.onLanes g lanes f).axbQueue = s.axbQueue := rfl
@[simp] theorem State.onLanes_exclQueue (s : State) (g : Nat) (lanes : DWord) (f : Nat → Thread → Thread) :
    (s.onLanes g lanes f).exclQueue = s.exclQueue := rfl
@[simp] theorem State.onLanes_exclusive (s : State) (g : Nat) (lanes : DWord) (f : Nat → Thread → Thread) :
    (s.onLanes g lanes f).exclusive = s.exclusive := rfl
@[simp] theorem State.onLanes_commits (s : State) (g : Nat) (lanes : DWord) (f : Nat → Thread → Thread) :
    (s.onLanes g lanes f).commits = s.commits := rfl
@[simp] theorem State.onLanes_owed (s : State) (g : Nat) (lanes : DWord) (f : Nat → Thread → Thread) :
    (s.onLanes g lanes f).owed = s.owed := rfl
@[simp] theorem State.onLanes_copies (s : State) (g : Nat) (lanes : DWord) (f : Nat → Thread → Thread) :
    (s.onLanes g lanes f).copies = s.copies := rfl
@[simp] theorem State.onLanes_commands (s : State) (g : Nat) (lanes : DWord) (f : Nat → Thread → Thread) :
    (s.onLanes g lanes f).commands = s.commands := rfl
@[simp] theorem State.onLanes_transfers (s : State) (g : Nat) (lanes : DWord) (f : Nat → Thread → Thread) :
    (s.onLanes g lanes f).transfers = s.transfers := rfl
@[simp] theorem State.onLanes_runs (s : State) (g : Nat) (lanes : DWord) (f : Nat → Thread → Thread) :
    (s.onLanes g lanes f).runs = s.runs := rfl
@[simp] theorem State.onLanes_faults (s : State) (g : Nat) (lanes : DWord) (f : Nat → Thread → Thread) :
    (s.onLanes g lanes f).faults = s.faults := rfl
@[simp] theorem State.onLanes_health (s : State) (g : Nat) (lanes : DWord) (f : Nat → Thread → Thread) :
    (s.onLanes g lanes f).health = s.health := rfl
@[simp] theorem State.onLanes_invals (s : State) (g : Nat) (lanes : DWord) (f : Nat → Thread → Thread) :
    (s.onLanes g lanes f).invals = s.invals := rfl
@[simp] theorem State.onLanes_invalWait (s : State) (g : Nat) (lanes : DWord) (f : Nat → Thread → Thread) :
    (s.onLanes g lanes f).invalWait = s.invalWait := rfl
@[simp] theorem State.onLanes_care (s : State) (g : Nat) (lanes : DWord) (f : Nat → Thread → Thread) :
    (s.onLanes g lanes f).care = s.care := rfl
@[simp] theorem State.onLanes_fabric (s : State) (g : Nat) (lanes : DWord) (f : Nat → Thread → Thread) :
    (s.onLanes g lanes f).fabric = s.fabric := rfl
@[simp] theorem State.onLanes_coll (s : State) (g : Nat) (lanes : DWord) (f : Nat → Thread → Thread) :
    (s.onLanes g lanes f).coll = s.coll := rfl
@[simp] theorem State.onLanes_spawnIdNext (s : State) (g : Nat) (lanes : DWord) (f : Nat → Thread → Thread) :
    (s.onLanes g lanes f).spawnIdNext = s.spawnIdNext := rfl
@[simp] theorem State.onLanes_ctxBase (s : State) (g : Nat) (lanes : DWord) (f : Nat → Thread → Thread) :
    (s.onLanes g lanes f).ctxBase = s.ctxBase := rfl
@[simp] theorem State.onLanes_qcbBase (s : State) (g : Nat) (lanes : DWord) (f : Nat → Thread → Thread) :
    (s.onLanes g lanes f).qcbBase = s.qcbBase := rfl
@[simp] theorem State.onLanes_queueAclBase (s : State) (g : Nat) (lanes : DWord) (f : Nat → Thread → Thread) :
    (s.onLanes g lanes f).queueAclBase = s.queueAclBase := rfl
@[simp] theorem State.onLanes_aclBases (s : State) (g : Nat) (lanes : DWord) (f : Nat → Thread → Thread) :
    (s.onLanes g lanes f).aclBases = s.aclBases := rfl
@[simp] theorem State.onLanes_mirror (s : State) (g : Nat) (lanes : DWord) (f : Nat → Thread → Thread) :
    (s.onLanes g lanes f).mirror = s.mirror := rfl
@[simp] theorem State.onLanes_rebuilding (s : State) (g : Nat) (lanes : DWord) (f : Nat → Thread → Thread) :
    (s.onLanes g lanes f).rebuilding = s.rebuilding := rfl
@[simp] theorem State.onLanes_resolvePort (s : State) (g : Nat) (lanes : DWord) (f : Nat → Thread → Thread) :
    (s.onLanes g lanes f).resolvePort = s.resolvePort := rfl
@[simp] theorem State.onLanes_faultVa (s : State) (g : Nat) (lanes : DWord) (f : Nat → Thread → Thread) :
    (s.onLanes g lanes f).faultVa = s.faultVa := rfl
@[simp] theorem State.onLanes_ctx (s : State) (g : Nat) (lanes : DWord) (f : Nat → Thread → Thread) :
    (s.onLanes g lanes f).ctx = s.ctx := rfl
@[simp] theorem State.onLanes_inputs (s : State) (g : Nat) (lanes : DWord) (f : Nat → Thread → Thread) :
    (s.onLanes g lanes f).inputs = s.inputs := rfl
@[simp] theorem State.onLanes_sn (s : State) (g : Nat) (lanes : DWord) (f : Nat → Thread → Thread) :
    (s.onLanes g lanes f).sn = s.sn := rfl
@[simp] theorem State.onLanes_cycle (s : State) (g : Nat) (lanes : DWord) (f : Nat → Thread → Thread) :
    (s.onLanes g lanes f).cycle = s.cycle := rfl
@[simp] theorem State.onLanes_free (s : State) (g : Nat) (lanes : DWord) (f : Nat → Thread → Thread) :
    (s.onLanes g lanes f).free = s.free := rfl
@[simp] theorem State.onLanes_lastGang (s : State) (g : Nat) (lanes : DWord) (f : Nat → Thread → Thread) :
    (s.onLanes g lanes f).lastGang = s.lastGang := rfl
@[simp] theorem State.onLanes_dueQueue (s : State) (g : Nat) (lanes : DWord) (f : Nat → Thread → Thread) :
    (s.onLanes g lanes f).dueQueue = s.dueQueue := rfl
@[simp] theorem State.onLanes_rewritten (s : State) (g : Nat) (lanes : DWord) (f : Nat → Thread → Thread) :
    (s.onLanes g lanes f).rewritten = s.rewritten := rfl
@[simp] theorem State.onLanes_tickets (s : State) (g : Nat) (lanes : DWord) (f : Nat → Thread → Thread) :
    (s.onLanes g lanes f).tickets = s.tickets := rfl

/-! ## State.onThread -/

@[simp] theorem State.onThread_mem (s : State) (g l : Nat) (f : Thread → Thread) :
    (s.onThread g l f).mem = s.mem := rfl
@[simp] theorem State.onThread_poison (s : State) (g l : Nat) (f : Thread → Thread) :
    (s.onThread g l f).poison = s.poison := rfl
@[simp] theorem State.onThread_clk (s : State) (g l : Nat) (f : Thread → Thread) :
    (s.onThread g l f).clk = s.clk := rfl
@[simp] theorem State.onThread_podIndex (s : State) (g l : Nat) (f : Thread → Thread) :
    (s.onThread g l f).podIndex = s.podIndex := rfl
@[simp] theorem State.onThread_gangs (s : State) (g l : Nat) (f : Thread → Thread) :
    (s.onThread g l f).gangs = s.gangs.modify g (·.onLanes (laneBit l) fun _ => f) := rfl
@[simp] theorem State.onThread_teams (s : State) (g l : Nat) (f : Thread → Thread) :
    (s.onThread g l f).teams = s.teams := rfl
@[simp] theorem State.onThread_handles (s : State) (g l : Nat) (f : Thread → Thread) :
    (s.onThread g l f).handles = s.handles := rfl
@[simp] theorem State.onThread_sync (s : State) (g l : Nat) (f : Thread → Thread) :
    (s.onThread g l f).sync = s.sync := rfl
@[simp] theorem State.onThread_front (s : State) (g l : Nat) (f : Thread → Thread) :
    (s.onThread g l f).front = s.front := rfl
@[simp] theorem State.onThread_spawns (s : State) (g l : Nat) (f : Thread → Thread) :
    (s.onThread g l f).spawns = s.spawns := rfl
@[simp] theorem State.onThread_accesses (s : State) (g l : Nat) (f : Thread → Thread) :
    (s.onThread g l f).accesses = s.accesses := rfl
@[simp] theorem State.onThread_pending (s : State) (g l : Nat) (f : Thread → Thread) :
    (s.onThread g l f).pending = s.pending := rfl
@[simp] theorem State.onThread_posts (s : State) (g l : Nat) (f : Thread → Thread) :
    (s.onThread g l f).posts = s.posts := rfl
@[simp] theorem State.onThread_matOps (s : State) (g l : Nat) (f : Thread → Thread) :
    (s.onThread g l f).matOps = s.matOps := rfl
@[simp] theorem State.onThread_scaleLoads (s : State) (g l : Nat) (f : Thread → Thread) :
    (s.onThread g l f).scaleLoads = s.scaleLoads := rfl
@[simp] theorem State.onThread_scaleRegs (s : State) (g l : Nat) (f : Thread → Thread) :
    (s.onThread g l f).scaleRegs = s.scaleRegs := rfl
@[simp] theorem State.onThread_arrayNext (s : State) (g l : Nat) (f : Thread → Thread) :
    (s.onThread g l f).arrayNext = s.arrayNext := rfl
@[simp] theorem State.onThread_retained (s : State) (g l : Nat) (f : Thread → Thread) :
    (s.onThread g l f).retained = s.retained := rfl
@[simp] theorem State.onThread_aacqQueue (s : State) (g l : Nat) (f : Thread → Thread) :
    (s.onThread g l f).aacqQueue = s.aacqQueue := rfl
@[simp] theorem State.onThread_l1 (s : State) (g l : Nat) (f : Thread → Thread) :
    (s.onThread g l f).l1 = s.l1 := rfl
@[simp] theorem State.onThread_fused (s : State) (g l : Nat) (f : Thread → Thread) :
    (s.onThread g l f).fused = s.fused := rfl
@[simp] theorem State.onThread_tlb (s : State) (g l : Nat) (f : Thread → Thread) :
    (s.onThread g l f).tlb = s.tlb := rfl
@[simp] theorem State.onThread_zeroing (s : State) (g l : Nat) (f : Thread → Thread) :
    (s.onThread g l f).zeroing = s.zeroing := rfl
@[simp] theorem State.onThread_watches (s : State) (g l : Nat) (f : Thread → Thread) :
    (s.onThread g l f).watches = s.watches := rfl
@[simp] theorem State.onThread_watchSeq (s : State) (g l : Nat) (f : Thread → Thread) :
    (s.onThread g l f).watchSeq = s.watchSeq := rfl
@[simp] theorem State.onThread_tokens (s : State) (g l : Nat) (f : Thread → Thread) :
    (s.onThread g l f).tokens = s.tokens := rfl
@[simp] theorem State.onThread_xacqQueue (s : State) (g l : Nat) (f : Thread → Thread) :
    (s.onThread g l f).xacqQueue = s.xacqQueue := rfl
@[simp] theorem State.onThread_axbQueue (s : State) (g l : Nat) (f : Thread → Thread) :
    (s.onThread g l f).axbQueue = s.axbQueue := rfl
@[simp] theorem State.onThread_exclQueue (s : State) (g l : Nat) (f : Thread → Thread) :
    (s.onThread g l f).exclQueue = s.exclQueue := rfl
@[simp] theorem State.onThread_exclusive (s : State) (g l : Nat) (f : Thread → Thread) :
    (s.onThread g l f).exclusive = s.exclusive := rfl
@[simp] theorem State.onThread_commits (s : State) (g l : Nat) (f : Thread → Thread) :
    (s.onThread g l f).commits = s.commits := rfl
@[simp] theorem State.onThread_owed (s : State) (g l : Nat) (f : Thread → Thread) :
    (s.onThread g l f).owed = s.owed := rfl
@[simp] theorem State.onThread_copies (s : State) (g l : Nat) (f : Thread → Thread) :
    (s.onThread g l f).copies = s.copies := rfl
@[simp] theorem State.onThread_commands (s : State) (g l : Nat) (f : Thread → Thread) :
    (s.onThread g l f).commands = s.commands := rfl
@[simp] theorem State.onThread_transfers (s : State) (g l : Nat) (f : Thread → Thread) :
    (s.onThread g l f).transfers = s.transfers := rfl
@[simp] theorem State.onThread_runs (s : State) (g l : Nat) (f : Thread → Thread) :
    (s.onThread g l f).runs = s.runs := rfl
@[simp] theorem State.onThread_faults (s : State) (g l : Nat) (f : Thread → Thread) :
    (s.onThread g l f).faults = s.faults := rfl
@[simp] theorem State.onThread_health (s : State) (g l : Nat) (f : Thread → Thread) :
    (s.onThread g l f).health = s.health := rfl
@[simp] theorem State.onThread_invals (s : State) (g l : Nat) (f : Thread → Thread) :
    (s.onThread g l f).invals = s.invals := rfl
@[simp] theorem State.onThread_invalWait (s : State) (g l : Nat) (f : Thread → Thread) :
    (s.onThread g l f).invalWait = s.invalWait := rfl
@[simp] theorem State.onThread_care (s : State) (g l : Nat) (f : Thread → Thread) :
    (s.onThread g l f).care = s.care := rfl
@[simp] theorem State.onThread_fabric (s : State) (g l : Nat) (f : Thread → Thread) :
    (s.onThread g l f).fabric = s.fabric := rfl
@[simp] theorem State.onThread_coll (s : State) (g l : Nat) (f : Thread → Thread) :
    (s.onThread g l f).coll = s.coll := rfl
@[simp] theorem State.onThread_spawnIdNext (s : State) (g l : Nat) (f : Thread → Thread) :
    (s.onThread g l f).spawnIdNext = s.spawnIdNext := rfl
@[simp] theorem State.onThread_ctxBase (s : State) (g l : Nat) (f : Thread → Thread) :
    (s.onThread g l f).ctxBase = s.ctxBase := rfl
@[simp] theorem State.onThread_qcbBase (s : State) (g l : Nat) (f : Thread → Thread) :
    (s.onThread g l f).qcbBase = s.qcbBase := rfl
@[simp] theorem State.onThread_queueAclBase (s : State) (g l : Nat) (f : Thread → Thread) :
    (s.onThread g l f).queueAclBase = s.queueAclBase := rfl
@[simp] theorem State.onThread_aclBases (s : State) (g l : Nat) (f : Thread → Thread) :
    (s.onThread g l f).aclBases = s.aclBases := rfl
@[simp] theorem State.onThread_mirror (s : State) (g l : Nat) (f : Thread → Thread) :
    (s.onThread g l f).mirror = s.mirror := rfl
@[simp] theorem State.onThread_rebuilding (s : State) (g l : Nat) (f : Thread → Thread) :
    (s.onThread g l f).rebuilding = s.rebuilding := rfl
@[simp] theorem State.onThread_resolvePort (s : State) (g l : Nat) (f : Thread → Thread) :
    (s.onThread g l f).resolvePort = s.resolvePort := rfl
@[simp] theorem State.onThread_faultVa (s : State) (g l : Nat) (f : Thread → Thread) :
    (s.onThread g l f).faultVa = s.faultVa := rfl
@[simp] theorem State.onThread_ctx (s : State) (g l : Nat) (f : Thread → Thread) :
    (s.onThread g l f).ctx = s.ctx := rfl
@[simp] theorem State.onThread_inputs (s : State) (g l : Nat) (f : Thread → Thread) :
    (s.onThread g l f).inputs = s.inputs := rfl
@[simp] theorem State.onThread_sn (s : State) (g l : Nat) (f : Thread → Thread) :
    (s.onThread g l f).sn = s.sn := rfl
@[simp] theorem State.onThread_cycle (s : State) (g l : Nat) (f : Thread → Thread) :
    (s.onThread g l f).cycle = s.cycle := rfl
@[simp] theorem State.onThread_free (s : State) (g l : Nat) (f : Thread → Thread) :
    (s.onThread g l f).free = s.free := rfl
@[simp] theorem State.onThread_lastGang (s : State) (g l : Nat) (f : Thread → Thread) :
    (s.onThread g l f).lastGang = s.lastGang := rfl
@[simp] theorem State.onThread_dueQueue (s : State) (g l : Nat) (f : Thread → Thread) :
    (s.onThread g l f).dueQueue = s.dueQueue := rfl
@[simp] theorem State.onThread_rewritten (s : State) (g l : Nat) (f : Thread → Thread) :
    (s.onThread g l f).rewritten = s.rewritten := rfl
@[simp] theorem State.onThread_tickets (s : State) (g l : Nat) (f : Thread → Thread) :
    (s.onThread g l f).tickets = s.tickets := rfl

/-! ## State.maskOp -/

@[simp] theorem State.maskOp_mem (s : State) (g l : Nat) (op : MaskOp) :
    (s.maskOp g l op).mem = s.mem := rfl
@[simp] theorem State.maskOp_poison (s : State) (g l : Nat) (op : MaskOp) :
    (s.maskOp g l op).poison = s.poison := rfl
@[simp] theorem State.maskOp_clk (s : State) (g l : Nat) (op : MaskOp) :
    (s.maskOp g l op).clk = s.clk := rfl
@[simp] theorem State.maskOp_podIndex (s : State) (g l : Nat) (op : MaskOp) :
    (s.maskOp g l op).podIndex = s.podIndex := rfl
@[simp] theorem State.maskOp_gangs (s : State) (g l : Nat) (op : MaskOp) :
    (s.maskOp g l op).gangs = s.gangs.modify g fun G => { G with maskOps := G.maskOps ++ [(l, op)] } := rfl
@[simp] theorem State.maskOp_teams (s : State) (g l : Nat) (op : MaskOp) :
    (s.maskOp g l op).teams = s.teams := rfl
@[simp] theorem State.maskOp_handles (s : State) (g l : Nat) (op : MaskOp) :
    (s.maskOp g l op).handles = s.handles := rfl
@[simp] theorem State.maskOp_sync (s : State) (g l : Nat) (op : MaskOp) :
    (s.maskOp g l op).sync = s.sync := rfl
@[simp] theorem State.maskOp_front (s : State) (g l : Nat) (op : MaskOp) :
    (s.maskOp g l op).front = s.front := rfl
@[simp] theorem State.maskOp_spawns (s : State) (g l : Nat) (op : MaskOp) :
    (s.maskOp g l op).spawns = s.spawns := rfl
@[simp] theorem State.maskOp_accesses (s : State) (g l : Nat) (op : MaskOp) :
    (s.maskOp g l op).accesses = s.accesses := rfl
@[simp] theorem State.maskOp_pending (s : State) (g l : Nat) (op : MaskOp) :
    (s.maskOp g l op).pending = s.pending := rfl
@[simp] theorem State.maskOp_posts (s : State) (g l : Nat) (op : MaskOp) :
    (s.maskOp g l op).posts = s.posts := rfl
@[simp] theorem State.maskOp_matOps (s : State) (g l : Nat) (op : MaskOp) :
    (s.maskOp g l op).matOps = s.matOps := rfl
@[simp] theorem State.maskOp_scaleLoads (s : State) (g l : Nat) (op : MaskOp) :
    (s.maskOp g l op).scaleLoads = s.scaleLoads := rfl
@[simp] theorem State.maskOp_scaleRegs (s : State) (g l : Nat) (op : MaskOp) :
    (s.maskOp g l op).scaleRegs = s.scaleRegs := rfl
@[simp] theorem State.maskOp_arrayNext (s : State) (g l : Nat) (op : MaskOp) :
    (s.maskOp g l op).arrayNext = s.arrayNext := rfl
@[simp] theorem State.maskOp_retained (s : State) (g l : Nat) (op : MaskOp) :
    (s.maskOp g l op).retained = s.retained := rfl
@[simp] theorem State.maskOp_aacqQueue (s : State) (g l : Nat) (op : MaskOp) :
    (s.maskOp g l op).aacqQueue = s.aacqQueue := rfl
@[simp] theorem State.maskOp_l1 (s : State) (g l : Nat) (op : MaskOp) :
    (s.maskOp g l op).l1 = s.l1 := rfl
@[simp] theorem State.maskOp_fused (s : State) (g l : Nat) (op : MaskOp) :
    (s.maskOp g l op).fused = s.fused := rfl
@[simp] theorem State.maskOp_tlb (s : State) (g l : Nat) (op : MaskOp) :
    (s.maskOp g l op).tlb = s.tlb := rfl
@[simp] theorem State.maskOp_zeroing (s : State) (g l : Nat) (op : MaskOp) :
    (s.maskOp g l op).zeroing = s.zeroing := rfl
@[simp] theorem State.maskOp_watches (s : State) (g l : Nat) (op : MaskOp) :
    (s.maskOp g l op).watches = s.watches := rfl
@[simp] theorem State.maskOp_watchSeq (s : State) (g l : Nat) (op : MaskOp) :
    (s.maskOp g l op).watchSeq = s.watchSeq := rfl
@[simp] theorem State.maskOp_tokens (s : State) (g l : Nat) (op : MaskOp) :
    (s.maskOp g l op).tokens = s.tokens := rfl
@[simp] theorem State.maskOp_xacqQueue (s : State) (g l : Nat) (op : MaskOp) :
    (s.maskOp g l op).xacqQueue = s.xacqQueue := rfl
@[simp] theorem State.maskOp_axbQueue (s : State) (g l : Nat) (op : MaskOp) :
    (s.maskOp g l op).axbQueue = s.axbQueue := rfl
@[simp] theorem State.maskOp_exclQueue (s : State) (g l : Nat) (op : MaskOp) :
    (s.maskOp g l op).exclQueue = s.exclQueue := rfl
@[simp] theorem State.maskOp_exclusive (s : State) (g l : Nat) (op : MaskOp) :
    (s.maskOp g l op).exclusive = s.exclusive := rfl
@[simp] theorem State.maskOp_commits (s : State) (g l : Nat) (op : MaskOp) :
    (s.maskOp g l op).commits = s.commits := rfl
@[simp] theorem State.maskOp_owed (s : State) (g l : Nat) (op : MaskOp) :
    (s.maskOp g l op).owed = s.owed := rfl
@[simp] theorem State.maskOp_copies (s : State) (g l : Nat) (op : MaskOp) :
    (s.maskOp g l op).copies = s.copies := rfl
@[simp] theorem State.maskOp_commands (s : State) (g l : Nat) (op : MaskOp) :
    (s.maskOp g l op).commands = s.commands := rfl
@[simp] theorem State.maskOp_transfers (s : State) (g l : Nat) (op : MaskOp) :
    (s.maskOp g l op).transfers = s.transfers := rfl
@[simp] theorem State.maskOp_runs (s : State) (g l : Nat) (op : MaskOp) :
    (s.maskOp g l op).runs = s.runs := rfl
@[simp] theorem State.maskOp_faults (s : State) (g l : Nat) (op : MaskOp) :
    (s.maskOp g l op).faults = s.faults := rfl
@[simp] theorem State.maskOp_health (s : State) (g l : Nat) (op : MaskOp) :
    (s.maskOp g l op).health = s.health := rfl
@[simp] theorem State.maskOp_invals (s : State) (g l : Nat) (op : MaskOp) :
    (s.maskOp g l op).invals = s.invals := rfl
@[simp] theorem State.maskOp_invalWait (s : State) (g l : Nat) (op : MaskOp) :
    (s.maskOp g l op).invalWait = s.invalWait := rfl
@[simp] theorem State.maskOp_care (s : State) (g l : Nat) (op : MaskOp) :
    (s.maskOp g l op).care = s.care := rfl
@[simp] theorem State.maskOp_fabric (s : State) (g l : Nat) (op : MaskOp) :
    (s.maskOp g l op).fabric = s.fabric := rfl
@[simp] theorem State.maskOp_coll (s : State) (g l : Nat) (op : MaskOp) :
    (s.maskOp g l op).coll = s.coll := rfl
@[simp] theorem State.maskOp_spawnIdNext (s : State) (g l : Nat) (op : MaskOp) :
    (s.maskOp g l op).spawnIdNext = s.spawnIdNext := rfl
@[simp] theorem State.maskOp_ctxBase (s : State) (g l : Nat) (op : MaskOp) :
    (s.maskOp g l op).ctxBase = s.ctxBase := rfl
@[simp] theorem State.maskOp_qcbBase (s : State) (g l : Nat) (op : MaskOp) :
    (s.maskOp g l op).qcbBase = s.qcbBase := rfl
@[simp] theorem State.maskOp_queueAclBase (s : State) (g l : Nat) (op : MaskOp) :
    (s.maskOp g l op).queueAclBase = s.queueAclBase := rfl
@[simp] theorem State.maskOp_aclBases (s : State) (g l : Nat) (op : MaskOp) :
    (s.maskOp g l op).aclBases = s.aclBases := rfl
@[simp] theorem State.maskOp_mirror (s : State) (g l : Nat) (op : MaskOp) :
    (s.maskOp g l op).mirror = s.mirror := rfl
@[simp] theorem State.maskOp_rebuilding (s : State) (g l : Nat) (op : MaskOp) :
    (s.maskOp g l op).rebuilding = s.rebuilding := rfl
@[simp] theorem State.maskOp_resolvePort (s : State) (g l : Nat) (op : MaskOp) :
    (s.maskOp g l op).resolvePort = s.resolvePort := rfl
@[simp] theorem State.maskOp_faultVa (s : State) (g l : Nat) (op : MaskOp) :
    (s.maskOp g l op).faultVa = s.faultVa := rfl
@[simp] theorem State.maskOp_ctx (s : State) (g l : Nat) (op : MaskOp) :
    (s.maskOp g l op).ctx = s.ctx := rfl
@[simp] theorem State.maskOp_inputs (s : State) (g l : Nat) (op : MaskOp) :
    (s.maskOp g l op).inputs = s.inputs := rfl
@[simp] theorem State.maskOp_sn (s : State) (g l : Nat) (op : MaskOp) :
    (s.maskOp g l op).sn = s.sn := rfl
@[simp] theorem State.maskOp_cycle (s : State) (g l : Nat) (op : MaskOp) :
    (s.maskOp g l op).cycle = s.cycle := rfl
@[simp] theorem State.maskOp_free (s : State) (g l : Nat) (op : MaskOp) :
    (s.maskOp g l op).free = s.free := rfl
@[simp] theorem State.maskOp_lastGang (s : State) (g l : Nat) (op : MaskOp) :
    (s.maskOp g l op).lastGang = s.lastGang := rfl
@[simp] theorem State.maskOp_dueQueue (s : State) (g l : Nat) (op : MaskOp) :
    (s.maskOp g l op).dueQueue = s.dueQueue := rfl
@[simp] theorem State.maskOp_rewritten (s : State) (g l : Nat) (op : MaskOp) :
    (s.maskOp g l op).rewritten = s.rewritten := rfl
@[simp] theorem State.maskOp_tickets (s : State) (g l : Nat) (op : MaskOp) :
    (s.maskOp g l op).tickets = s.tickets := rfl

/-! ## State.markCandidates -/

@[simp] theorem State.markCandidates_mem (s : State) (cands : List Nat) :
    (s.markCandidates cands).mem = s.mem := rfl
@[simp] theorem State.markCandidates_poison (s : State) (cands : List Nat) :
    (s.markCandidates cands).poison = s.poison := rfl
@[simp] theorem State.markCandidates_clk (s : State) (cands : List Nat) :
    (s.markCandidates cands).clk = s.clk := rfl
@[simp] theorem State.markCandidates_podIndex (s : State) (cands : List Nat) :
    (s.markCandidates cands).podIndex = s.podIndex := rfl
@[simp] theorem State.markCandidates_teams (s : State) (cands : List Nat) :
    (s.markCandidates cands).teams = s.teams := rfl
@[simp] theorem State.markCandidates_handles (s : State) (cands : List Nat) :
    (s.markCandidates cands).handles = s.handles := rfl
@[simp] theorem State.markCandidates_sync (s : State) (cands : List Nat) :
    (s.markCandidates cands).sync = s.sync := rfl
@[simp] theorem State.markCandidates_front (s : State) (cands : List Nat) :
    (s.markCandidates cands).front = s.front := rfl
@[simp] theorem State.markCandidates_spawns (s : State) (cands : List Nat) :
    (s.markCandidates cands).spawns = s.spawns := rfl
@[simp] theorem State.markCandidates_accesses (s : State) (cands : List Nat) :
    (s.markCandidates cands).accesses = s.accesses := rfl
@[simp] theorem State.markCandidates_pending (s : State) (cands : List Nat) :
    (s.markCandidates cands).pending = s.pending := rfl
@[simp] theorem State.markCandidates_posts (s : State) (cands : List Nat) :
    (s.markCandidates cands).posts = s.posts := rfl
@[simp] theorem State.markCandidates_matOps (s : State) (cands : List Nat) :
    (s.markCandidates cands).matOps = s.matOps := rfl
@[simp] theorem State.markCandidates_scaleLoads (s : State) (cands : List Nat) :
    (s.markCandidates cands).scaleLoads = s.scaleLoads := rfl
@[simp] theorem State.markCandidates_scaleRegs (s : State) (cands : List Nat) :
    (s.markCandidates cands).scaleRegs = s.scaleRegs := rfl
@[simp] theorem State.markCandidates_arrayNext (s : State) (cands : List Nat) :
    (s.markCandidates cands).arrayNext = s.arrayNext := rfl
@[simp] theorem State.markCandidates_retained (s : State) (cands : List Nat) :
    (s.markCandidates cands).retained = s.retained := rfl
@[simp] theorem State.markCandidates_aacqQueue (s : State) (cands : List Nat) :
    (s.markCandidates cands).aacqQueue = s.aacqQueue := rfl
@[simp] theorem State.markCandidates_l1 (s : State) (cands : List Nat) :
    (s.markCandidates cands).l1 = s.l1 := rfl
@[simp] theorem State.markCandidates_fused (s : State) (cands : List Nat) :
    (s.markCandidates cands).fused = s.fused := rfl
@[simp] theorem State.markCandidates_tlb (s : State) (cands : List Nat) :
    (s.markCandidates cands).tlb = s.tlb := rfl
@[simp] theorem State.markCandidates_zeroing (s : State) (cands : List Nat) :
    (s.markCandidates cands).zeroing = s.zeroing := rfl
@[simp] theorem State.markCandidates_watches (s : State) (cands : List Nat) :
    (s.markCandidates cands).watches = s.watches := rfl
@[simp] theorem State.markCandidates_watchSeq (s : State) (cands : List Nat) :
    (s.markCandidates cands).watchSeq = s.watchSeq := rfl
@[simp] theorem State.markCandidates_tokens (s : State) (cands : List Nat) :
    (s.markCandidates cands).tokens = s.tokens := rfl
@[simp] theorem State.markCandidates_xacqQueue (s : State) (cands : List Nat) :
    (s.markCandidates cands).xacqQueue = s.xacqQueue := rfl
@[simp] theorem State.markCandidates_axbQueue (s : State) (cands : List Nat) :
    (s.markCandidates cands).axbQueue = s.axbQueue := rfl
@[simp] theorem State.markCandidates_exclQueue (s : State) (cands : List Nat) :
    (s.markCandidates cands).exclQueue = s.exclQueue := rfl
@[simp] theorem State.markCandidates_exclusive (s : State) (cands : List Nat) :
    (s.markCandidates cands).exclusive = s.exclusive := rfl
@[simp] theorem State.markCandidates_commits (s : State) (cands : List Nat) :
    (s.markCandidates cands).commits = s.commits := rfl
@[simp] theorem State.markCandidates_owed (s : State) (cands : List Nat) :
    (s.markCandidates cands).owed = s.owed := rfl
@[simp] theorem State.markCandidates_copies (s : State) (cands : List Nat) :
    (s.markCandidates cands).copies = s.copies := rfl
@[simp] theorem State.markCandidates_commands (s : State) (cands : List Nat) :
    (s.markCandidates cands).commands = s.commands := rfl
@[simp] theorem State.markCandidates_transfers (s : State) (cands : List Nat) :
    (s.markCandidates cands).transfers = s.transfers := rfl
@[simp] theorem State.markCandidates_runs (s : State) (cands : List Nat) :
    (s.markCandidates cands).runs = s.runs := rfl
@[simp] theorem State.markCandidates_faults (s : State) (cands : List Nat) :
    (s.markCandidates cands).faults = s.faults := rfl
@[simp] theorem State.markCandidates_health (s : State) (cands : List Nat) :
    (s.markCandidates cands).health = s.health := rfl
@[simp] theorem State.markCandidates_invals (s : State) (cands : List Nat) :
    (s.markCandidates cands).invals = s.invals := rfl
@[simp] theorem State.markCandidates_invalWait (s : State) (cands : List Nat) :
    (s.markCandidates cands).invalWait = s.invalWait := rfl
@[simp] theorem State.markCandidates_care (s : State) (cands : List Nat) :
    (s.markCandidates cands).care = s.care := rfl
@[simp] theorem State.markCandidates_fabric (s : State) (cands : List Nat) :
    (s.markCandidates cands).fabric = s.fabric := rfl
@[simp] theorem State.markCandidates_coll (s : State) (cands : List Nat) :
    (s.markCandidates cands).coll = s.coll := rfl
@[simp] theorem State.markCandidates_spawnIdNext (s : State) (cands : List Nat) :
    (s.markCandidates cands).spawnIdNext = s.spawnIdNext := rfl
@[simp] theorem State.markCandidates_ctxBase (s : State) (cands : List Nat) :
    (s.markCandidates cands).ctxBase = s.ctxBase := rfl
@[simp] theorem State.markCandidates_qcbBase (s : State) (cands : List Nat) :
    (s.markCandidates cands).qcbBase = s.qcbBase := rfl
@[simp] theorem State.markCandidates_queueAclBase (s : State) (cands : List Nat) :
    (s.markCandidates cands).queueAclBase = s.queueAclBase := rfl
@[simp] theorem State.markCandidates_aclBases (s : State) (cands : List Nat) :
    (s.markCandidates cands).aclBases = s.aclBases := rfl
@[simp] theorem State.markCandidates_mirror (s : State) (cands : List Nat) :
    (s.markCandidates cands).mirror = s.mirror := rfl
@[simp] theorem State.markCandidates_rebuilding (s : State) (cands : List Nat) :
    (s.markCandidates cands).rebuilding = s.rebuilding := rfl
@[simp] theorem State.markCandidates_resolvePort (s : State) (cands : List Nat) :
    (s.markCandidates cands).resolvePort = s.resolvePort := rfl
@[simp] theorem State.markCandidates_faultVa (s : State) (cands : List Nat) :
    (s.markCandidates cands).faultVa = s.faultVa := rfl
@[simp] theorem State.markCandidates_ctx (s : State) (cands : List Nat) :
    (s.markCandidates cands).ctx = s.ctx := rfl
@[simp] theorem State.markCandidates_inputs (s : State) (cands : List Nat) :
    (s.markCandidates cands).inputs = s.inputs := rfl
@[simp] theorem State.markCandidates_sn (s : State) (cands : List Nat) :
    (s.markCandidates cands).sn = s.sn := rfl
@[simp] theorem State.markCandidates_cycle (s : State) (cands : List Nat) :
    (s.markCandidates cands).cycle = s.cycle := rfl
@[simp] theorem State.markCandidates_free (s : State) (cands : List Nat) :
    (s.markCandidates cands).free = s.free := rfl
@[simp] theorem State.markCandidates_lastGang (s : State) (cands : List Nat) :
    (s.markCandidates cands).lastGang = s.lastGang := rfl
@[simp] theorem State.markCandidates_dueQueue (s : State) (cands : List Nat) :
    (s.markCandidates cands).dueQueue = s.dueQueue := rfl
@[simp] theorem State.markCandidates_rewritten (s : State) (cands : List Nat) :
    (s.markCandidates cands).rewritten = s.rewritten := rfl
@[simp] theorem State.markCandidates_tickets (s : State) (cands : List Nat) :
    (s.markCandidates cands).tickets = s.tickets := rfl

/-! ## State.orderOlds -/

@[simp] theorem State.orderOlds_mem (s : State) (g sn pa n : Nat) :
    (s.orderOlds g sn pa n).mem = s.mem := rfl
@[simp] theorem State.orderOlds_poison (s : State) (g sn pa n : Nat) :
    (s.orderOlds g sn pa n).poison = s.poison := rfl
@[simp] theorem State.orderOlds_clk (s : State) (g sn pa n : Nat) :
    (s.orderOlds g sn pa n).clk = s.clk := rfl
@[simp] theorem State.orderOlds_podIndex (s : State) (g sn pa n : Nat) :
    (s.orderOlds g sn pa n).podIndex = s.podIndex := rfl
@[simp] theorem State.orderOlds_gangs (s : State) (g sn pa n : Nat) :
    (s.orderOlds g sn pa n).gangs = s.gangs := rfl
@[simp] theorem State.orderOlds_teams (s : State) (g sn pa n : Nat) :
    (s.orderOlds g sn pa n).teams = s.teams := rfl
@[simp] theorem State.orderOlds_handles (s : State) (g sn pa n : Nat) :
    (s.orderOlds g sn pa n).handles = s.handles := rfl
@[simp] theorem State.orderOlds_sync (s : State) (g sn pa n : Nat) :
    (s.orderOlds g sn pa n).sync = s.sync := rfl
@[simp] theorem State.orderOlds_front (s : State) (g sn pa n : Nat) :
    (s.orderOlds g sn pa n).front = s.front := rfl
@[simp] theorem State.orderOlds_spawns (s : State) (g sn pa n : Nat) :
    (s.orderOlds g sn pa n).spawns = s.spawns := rfl
@[simp] theorem State.orderOlds_accesses (s : State) (g sn pa n : Nat) :
    (s.orderOlds g sn pa n).accesses = s.accesses := rfl
@[simp] theorem State.orderOlds_pending (s : State) (g sn pa n : Nat) :
    (s.orderOlds g sn pa n).pending = s.pending := rfl
@[simp] theorem State.orderOlds_posts (s : State) (g sn pa n : Nat) :
    (s.orderOlds g sn pa n).posts = s.posts := rfl
@[simp] theorem State.orderOlds_scaleLoads (s : State) (g sn pa n : Nat) :
    (s.orderOlds g sn pa n).scaleLoads = s.scaleLoads := rfl
@[simp] theorem State.orderOlds_scaleRegs (s : State) (g sn pa n : Nat) :
    (s.orderOlds g sn pa n).scaleRegs = s.scaleRegs := rfl
@[simp] theorem State.orderOlds_arrayNext (s : State) (g sn pa n : Nat) :
    (s.orderOlds g sn pa n).arrayNext = s.arrayNext := rfl
@[simp] theorem State.orderOlds_retained (s : State) (g sn pa n : Nat) :
    (s.orderOlds g sn pa n).retained = s.retained := rfl
@[simp] theorem State.orderOlds_aacqQueue (s : State) (g sn pa n : Nat) :
    (s.orderOlds g sn pa n).aacqQueue = s.aacqQueue := rfl
@[simp] theorem State.orderOlds_l1 (s : State) (g sn pa n : Nat) :
    (s.orderOlds g sn pa n).l1 = s.l1 := rfl
@[simp] theorem State.orderOlds_fused (s : State) (g sn pa n : Nat) :
    (s.orderOlds g sn pa n).fused = s.fused := rfl
@[simp] theorem State.orderOlds_tlb (s : State) (g sn pa n : Nat) :
    (s.orderOlds g sn pa n).tlb = s.tlb := rfl
@[simp] theorem State.orderOlds_zeroing (s : State) (g sn pa n : Nat) :
    (s.orderOlds g sn pa n).zeroing = s.zeroing := rfl
@[simp] theorem State.orderOlds_watches (s : State) (g sn pa n : Nat) :
    (s.orderOlds g sn pa n).watches = s.watches := rfl
@[simp] theorem State.orderOlds_watchSeq (s : State) (g sn pa n : Nat) :
    (s.orderOlds g sn pa n).watchSeq = s.watchSeq := rfl
@[simp] theorem State.orderOlds_tokens (s : State) (g sn pa n : Nat) :
    (s.orderOlds g sn pa n).tokens = s.tokens := rfl
@[simp] theorem State.orderOlds_xacqQueue (s : State) (g sn pa n : Nat) :
    (s.orderOlds g sn pa n).xacqQueue = s.xacqQueue := rfl
@[simp] theorem State.orderOlds_axbQueue (s : State) (g sn pa n : Nat) :
    (s.orderOlds g sn pa n).axbQueue = s.axbQueue := rfl
@[simp] theorem State.orderOlds_exclQueue (s : State) (g sn pa n : Nat) :
    (s.orderOlds g sn pa n).exclQueue = s.exclQueue := rfl
@[simp] theorem State.orderOlds_exclusive (s : State) (g sn pa n : Nat) :
    (s.orderOlds g sn pa n).exclusive = s.exclusive := rfl
@[simp] theorem State.orderOlds_commits (s : State) (g sn pa n : Nat) :
    (s.orderOlds g sn pa n).commits = s.commits := rfl
@[simp] theorem State.orderOlds_owed (s : State) (g sn pa n : Nat) :
    (s.orderOlds g sn pa n).owed = s.owed := rfl
@[simp] theorem State.orderOlds_copies (s : State) (g sn pa n : Nat) :
    (s.orderOlds g sn pa n).copies = s.copies := rfl
@[simp] theorem State.orderOlds_commands (s : State) (g sn pa n : Nat) :
    (s.orderOlds g sn pa n).commands = s.commands := rfl
@[simp] theorem State.orderOlds_transfers (s : State) (g sn pa n : Nat) :
    (s.orderOlds g sn pa n).transfers = s.transfers := rfl
@[simp] theorem State.orderOlds_runs (s : State) (g sn pa n : Nat) :
    (s.orderOlds g sn pa n).runs = s.runs := rfl
@[simp] theorem State.orderOlds_faults (s : State) (g sn pa n : Nat) :
    (s.orderOlds g sn pa n).faults = s.faults := rfl
@[simp] theorem State.orderOlds_health (s : State) (g sn pa n : Nat) :
    (s.orderOlds g sn pa n).health = s.health := rfl
@[simp] theorem State.orderOlds_invals (s : State) (g sn pa n : Nat) :
    (s.orderOlds g sn pa n).invals = s.invals := rfl
@[simp] theorem State.orderOlds_invalWait (s : State) (g sn pa n : Nat) :
    (s.orderOlds g sn pa n).invalWait = s.invalWait := rfl
@[simp] theorem State.orderOlds_care (s : State) (g sn pa n : Nat) :
    (s.orderOlds g sn pa n).care = s.care := rfl
@[simp] theorem State.orderOlds_fabric (s : State) (g sn pa n : Nat) :
    (s.orderOlds g sn pa n).fabric = s.fabric := rfl
@[simp] theorem State.orderOlds_coll (s : State) (g sn pa n : Nat) :
    (s.orderOlds g sn pa n).coll = s.coll := rfl
@[simp] theorem State.orderOlds_spawnIdNext (s : State) (g sn pa n : Nat) :
    (s.orderOlds g sn pa n).spawnIdNext = s.spawnIdNext := rfl
@[simp] theorem State.orderOlds_ctxBase (s : State) (g sn pa n : Nat) :
    (s.orderOlds g sn pa n).ctxBase = s.ctxBase := rfl
@[simp] theorem State.orderOlds_qcbBase (s : State) (g sn pa n : Nat) :
    (s.orderOlds g sn pa n).qcbBase = s.qcbBase := rfl
@[simp] theorem State.orderOlds_queueAclBase (s : State) (g sn pa n : Nat) :
    (s.orderOlds g sn pa n).queueAclBase = s.queueAclBase := rfl
@[simp] theorem State.orderOlds_aclBases (s : State) (g sn pa n : Nat) :
    (s.orderOlds g sn pa n).aclBases = s.aclBases := rfl
@[simp] theorem State.orderOlds_mirror (s : State) (g sn pa n : Nat) :
    (s.orderOlds g sn pa n).mirror = s.mirror := rfl
@[simp] theorem State.orderOlds_rebuilding (s : State) (g sn pa n : Nat) :
    (s.orderOlds g sn pa n).rebuilding = s.rebuilding := rfl
@[simp] theorem State.orderOlds_resolvePort (s : State) (g sn pa n : Nat) :
    (s.orderOlds g sn pa n).resolvePort = s.resolvePort := rfl
@[simp] theorem State.orderOlds_faultVa (s : State) (g sn pa n : Nat) :
    (s.orderOlds g sn pa n).faultVa = s.faultVa := rfl
@[simp] theorem State.orderOlds_ctx (s : State) (g sn pa n : Nat) :
    (s.orderOlds g sn pa n).ctx = s.ctx := rfl
@[simp] theorem State.orderOlds_inputs (s : State) (g sn pa n : Nat) :
    (s.orderOlds g sn pa n).inputs = s.inputs := rfl
@[simp] theorem State.orderOlds_sn (s : State) (g sn pa n : Nat) :
    (s.orderOlds g sn pa n).sn = s.sn := rfl
@[simp] theorem State.orderOlds_cycle (s : State) (g sn pa n : Nat) :
    (s.orderOlds g sn pa n).cycle = s.cycle := rfl
@[simp] theorem State.orderOlds_free (s : State) (g sn pa n : Nat) :
    (s.orderOlds g sn pa n).free = s.free := rfl
@[simp] theorem State.orderOlds_lastGang (s : State) (g sn pa n : Nat) :
    (s.orderOlds g sn pa n).lastGang = s.lastGang := rfl
@[simp] theorem State.orderOlds_dueQueue (s : State) (g sn pa n : Nat) :
    (s.orderOlds g sn pa n).dueQueue = s.dueQueue := rfl
@[simp] theorem State.orderOlds_rewritten (s : State) (g sn pa n : Nat) :
    (s.orderOlds g sn pa n).rewritten = s.rewritten := rfl
@[simp] theorem State.orderOlds_tickets (s : State) (g sn pa n : Nat) :
    (s.orderOlds g sn pa n).tickets = s.tickets := rfl

/-! ## State.invalidateL1 -/

@[simp] theorem State.invalidateL1_mem (s : State) (core : Nat) :
    (s.invalidateL1 core).mem = s.mem := rfl
@[simp] theorem State.invalidateL1_poison (s : State) (core : Nat) :
    (s.invalidateL1 core).poison = s.poison := rfl
@[simp] theorem State.invalidateL1_clk (s : State) (core : Nat) :
    (s.invalidateL1 core).clk = s.clk := rfl
@[simp] theorem State.invalidateL1_podIndex (s : State) (core : Nat) :
    (s.invalidateL1 core).podIndex = s.podIndex := rfl
@[simp] theorem State.invalidateL1_gangs (s : State) (core : Nat) :
    (s.invalidateL1 core).gangs = s.gangs := rfl
@[simp] theorem State.invalidateL1_teams (s : State) (core : Nat) :
    (s.invalidateL1 core).teams = s.teams := rfl
@[simp] theorem State.invalidateL1_handles (s : State) (core : Nat) :
    (s.invalidateL1 core).handles = s.handles := rfl
@[simp] theorem State.invalidateL1_sync (s : State) (core : Nat) :
    (s.invalidateL1 core).sync = s.sync := rfl
@[simp] theorem State.invalidateL1_front (s : State) (core : Nat) :
    (s.invalidateL1 core).front = s.front := rfl
@[simp] theorem State.invalidateL1_spawns (s : State) (core : Nat) :
    (s.invalidateL1 core).spawns = s.spawns := rfl
@[simp] theorem State.invalidateL1_accesses (s : State) (core : Nat) :
    (s.invalidateL1 core).accesses = s.accesses := rfl
@[simp] theorem State.invalidateL1_pending (s : State) (core : Nat) :
    (s.invalidateL1 core).pending = s.pending := rfl
@[simp] theorem State.invalidateL1_posts (s : State) (core : Nat) :
    (s.invalidateL1 core).posts = s.posts := rfl
@[simp] theorem State.invalidateL1_matOps (s : State) (core : Nat) :
    (s.invalidateL1 core).matOps = s.matOps := rfl
@[simp] theorem State.invalidateL1_scaleLoads (s : State) (core : Nat) :
    (s.invalidateL1 core).scaleLoads = s.scaleLoads := rfl
@[simp] theorem State.invalidateL1_scaleRegs (s : State) (core : Nat) :
    (s.invalidateL1 core).scaleRegs = s.scaleRegs := rfl
@[simp] theorem State.invalidateL1_arrayNext (s : State) (core : Nat) :
    (s.invalidateL1 core).arrayNext = s.arrayNext := rfl
@[simp] theorem State.invalidateL1_retained (s : State) (core : Nat) :
    (s.invalidateL1 core).retained = s.retained := rfl
@[simp] theorem State.invalidateL1_aacqQueue (s : State) (core : Nat) :
    (s.invalidateL1 core).aacqQueue = s.aacqQueue := rfl
@[simp] theorem State.invalidateL1_l1 (s : State) (core : Nat) :
    (s.invalidateL1 core).l1 = s.l1.filter fun e => !(isL1Tensor e.1 && (s.l1Group core).contains (e.1 / 2 ^ 43)) := rfl
@[simp] theorem State.invalidateL1_fused (s : State) (core : Nat) :
    (s.invalidateL1 core).fused = s.fused := rfl
@[simp] theorem State.invalidateL1_tlb (s : State) (core : Nat) :
    (s.invalidateL1 core).tlb = s.tlb := rfl
@[simp] theorem State.invalidateL1_zeroing (s : State) (core : Nat) :
    (s.invalidateL1 core).zeroing = s.zeroing := rfl
@[simp] theorem State.invalidateL1_watches (s : State) (core : Nat) :
    (s.invalidateL1 core).watches = s.watches := rfl
@[simp] theorem State.invalidateL1_watchSeq (s : State) (core : Nat) :
    (s.invalidateL1 core).watchSeq = s.watchSeq := rfl
@[simp] theorem State.invalidateL1_tokens (s : State) (core : Nat) :
    (s.invalidateL1 core).tokens = s.tokens := rfl
@[simp] theorem State.invalidateL1_xacqQueue (s : State) (core : Nat) :
    (s.invalidateL1 core).xacqQueue = s.xacqQueue := rfl
@[simp] theorem State.invalidateL1_axbQueue (s : State) (core : Nat) :
    (s.invalidateL1 core).axbQueue = s.axbQueue := rfl
@[simp] theorem State.invalidateL1_exclQueue (s : State) (core : Nat) :
    (s.invalidateL1 core).exclQueue = s.exclQueue := rfl
@[simp] theorem State.invalidateL1_exclusive (s : State) (core : Nat) :
    (s.invalidateL1 core).exclusive = s.exclusive := rfl
@[simp] theorem State.invalidateL1_commits (s : State) (core : Nat) :
    (s.invalidateL1 core).commits = s.commits := rfl
@[simp] theorem State.invalidateL1_owed (s : State) (core : Nat) :
    (s.invalidateL1 core).owed = s.owed := rfl
@[simp] theorem State.invalidateL1_copies (s : State) (core : Nat) :
    (s.invalidateL1 core).copies = s.copies := rfl
@[simp] theorem State.invalidateL1_commands (s : State) (core : Nat) :
    (s.invalidateL1 core).commands = s.commands := rfl
@[simp] theorem State.invalidateL1_transfers (s : State) (core : Nat) :
    (s.invalidateL1 core).transfers = s.transfers := rfl
@[simp] theorem State.invalidateL1_runs (s : State) (core : Nat) :
    (s.invalidateL1 core).runs = s.runs := rfl
@[simp] theorem State.invalidateL1_faults (s : State) (core : Nat) :
    (s.invalidateL1 core).faults = s.faults := rfl
@[simp] theorem State.invalidateL1_health (s : State) (core : Nat) :
    (s.invalidateL1 core).health = s.health := rfl
@[simp] theorem State.invalidateL1_invals (s : State) (core : Nat) :
    (s.invalidateL1 core).invals = s.invals := rfl
@[simp] theorem State.invalidateL1_invalWait (s : State) (core : Nat) :
    (s.invalidateL1 core).invalWait = s.invalWait := rfl
@[simp] theorem State.invalidateL1_care (s : State) (core : Nat) :
    (s.invalidateL1 core).care = s.care := rfl
@[simp] theorem State.invalidateL1_fabric (s : State) (core : Nat) :
    (s.invalidateL1 core).fabric = s.fabric := rfl
@[simp] theorem State.invalidateL1_coll (s : State) (core : Nat) :
    (s.invalidateL1 core).coll = s.coll := rfl
@[simp] theorem State.invalidateL1_spawnIdNext (s : State) (core : Nat) :
    (s.invalidateL1 core).spawnIdNext = s.spawnIdNext := rfl
@[simp] theorem State.invalidateL1_ctxBase (s : State) (core : Nat) :
    (s.invalidateL1 core).ctxBase = s.ctxBase := rfl
@[simp] theorem State.invalidateL1_qcbBase (s : State) (core : Nat) :
    (s.invalidateL1 core).qcbBase = s.qcbBase := rfl
@[simp] theorem State.invalidateL1_queueAclBase (s : State) (core : Nat) :
    (s.invalidateL1 core).queueAclBase = s.queueAclBase := rfl
@[simp] theorem State.invalidateL1_aclBases (s : State) (core : Nat) :
    (s.invalidateL1 core).aclBases = s.aclBases := rfl
@[simp] theorem State.invalidateL1_mirror (s : State) (core : Nat) :
    (s.invalidateL1 core).mirror = s.mirror := rfl
@[simp] theorem State.invalidateL1_rebuilding (s : State) (core : Nat) :
    (s.invalidateL1 core).rebuilding = s.rebuilding := rfl
@[simp] theorem State.invalidateL1_resolvePort (s : State) (core : Nat) :
    (s.invalidateL1 core).resolvePort = s.resolvePort := rfl
@[simp] theorem State.invalidateL1_faultVa (s : State) (core : Nat) :
    (s.invalidateL1 core).faultVa = s.faultVa := rfl
@[simp] theorem State.invalidateL1_ctx (s : State) (core : Nat) :
    (s.invalidateL1 core).ctx = s.ctx := rfl
@[simp] theorem State.invalidateL1_inputs (s : State) (core : Nat) :
    (s.invalidateL1 core).inputs = s.inputs := rfl
@[simp] theorem State.invalidateL1_sn (s : State) (core : Nat) :
    (s.invalidateL1 core).sn = s.sn := rfl
@[simp] theorem State.invalidateL1_cycle (s : State) (core : Nat) :
    (s.invalidateL1 core).cycle = s.cycle := rfl
@[simp] theorem State.invalidateL1_free (s : State) (core : Nat) :
    (s.invalidateL1 core).free = s.free := rfl
@[simp] theorem State.invalidateL1_lastGang (s : State) (core : Nat) :
    (s.invalidateL1 core).lastGang = s.lastGang := rfl
@[simp] theorem State.invalidateL1_dueQueue (s : State) (core : Nat) :
    (s.invalidateL1 core).dueQueue = s.dueQueue := rfl
@[simp] theorem State.invalidateL1_rewritten (s : State) (core : Nat) :
    (s.invalidateL1 core).rewritten = s.rewritten := rfl
@[simp] theorem State.invalidateL1_tickets (s : State) (core : Nat) :
    (s.invalidateL1 core).tickets = s.tickets := rfl

/-! ## State.cure -/

@[simp] theorem State.cure_mem (s : State) (d : Datum) :
    (s.cure d).mem = s.mem := rfl
@[simp] theorem State.cure_poison (s : State) (d : Datum) :
    (s.cure d).poison = s.poison.filter (· != d) := rfl
@[simp] theorem State.cure_clk (s : State) (d : Datum) :
    (s.cure d).clk = s.clk := rfl
@[simp] theorem State.cure_podIndex (s : State) (d : Datum) :
    (s.cure d).podIndex = s.podIndex := rfl
@[simp] theorem State.cure_gangs (s : State) (d : Datum) :
    (s.cure d).gangs = s.gangs := rfl
@[simp] theorem State.cure_teams (s : State) (d : Datum) :
    (s.cure d).teams = s.teams := rfl
@[simp] theorem State.cure_handles (s : State) (d : Datum) :
    (s.cure d).handles = s.handles := rfl
@[simp] theorem State.cure_sync (s : State) (d : Datum) :
    (s.cure d).sync = s.sync := rfl
@[simp] theorem State.cure_front (s : State) (d : Datum) :
    (s.cure d).front = s.front := rfl
@[simp] theorem State.cure_spawns (s : State) (d : Datum) :
    (s.cure d).spawns = s.spawns := rfl
@[simp] theorem State.cure_accesses (s : State) (d : Datum) :
    (s.cure d).accesses = s.accesses := rfl
@[simp] theorem State.cure_pending (s : State) (d : Datum) :
    (s.cure d).pending = s.pending := rfl
@[simp] theorem State.cure_posts (s : State) (d : Datum) :
    (s.cure d).posts = s.posts := rfl
@[simp] theorem State.cure_matOps (s : State) (d : Datum) :
    (s.cure d).matOps = s.matOps := rfl
@[simp] theorem State.cure_scaleLoads (s : State) (d : Datum) :
    (s.cure d).scaleLoads = s.scaleLoads := rfl
@[simp] theorem State.cure_scaleRegs (s : State) (d : Datum) :
    (s.cure d).scaleRegs = s.scaleRegs := rfl
@[simp] theorem State.cure_arrayNext (s : State) (d : Datum) :
    (s.cure d).arrayNext = s.arrayNext := rfl
@[simp] theorem State.cure_retained (s : State) (d : Datum) :
    (s.cure d).retained = s.retained := rfl
@[simp] theorem State.cure_aacqQueue (s : State) (d : Datum) :
    (s.cure d).aacqQueue = s.aacqQueue := rfl
@[simp] theorem State.cure_l1 (s : State) (d : Datum) :
    (s.cure d).l1 = s.l1 := rfl
@[simp] theorem State.cure_fused (s : State) (d : Datum) :
    (s.cure d).fused = s.fused := rfl
@[simp] theorem State.cure_tlb (s : State) (d : Datum) :
    (s.cure d).tlb = s.tlb := rfl
@[simp] theorem State.cure_zeroing (s : State) (d : Datum) :
    (s.cure d).zeroing = s.zeroing := rfl
@[simp] theorem State.cure_watches (s : State) (d : Datum) :
    (s.cure d).watches = s.watches := rfl
@[simp] theorem State.cure_watchSeq (s : State) (d : Datum) :
    (s.cure d).watchSeq = s.watchSeq := rfl
@[simp] theorem State.cure_tokens (s : State) (d : Datum) :
    (s.cure d).tokens = s.tokens := rfl
@[simp] theorem State.cure_xacqQueue (s : State) (d : Datum) :
    (s.cure d).xacqQueue = s.xacqQueue := rfl
@[simp] theorem State.cure_axbQueue (s : State) (d : Datum) :
    (s.cure d).axbQueue = s.axbQueue := rfl
@[simp] theorem State.cure_exclQueue (s : State) (d : Datum) :
    (s.cure d).exclQueue = s.exclQueue := rfl
@[simp] theorem State.cure_exclusive (s : State) (d : Datum) :
    (s.cure d).exclusive = s.exclusive := rfl
@[simp] theorem State.cure_commits (s : State) (d : Datum) :
    (s.cure d).commits = s.commits := rfl
@[simp] theorem State.cure_owed (s : State) (d : Datum) :
    (s.cure d).owed = s.owed := rfl
@[simp] theorem State.cure_copies (s : State) (d : Datum) :
    (s.cure d).copies = s.copies := rfl
@[simp] theorem State.cure_commands (s : State) (d : Datum) :
    (s.cure d).commands = s.commands := rfl
@[simp] theorem State.cure_transfers (s : State) (d : Datum) :
    (s.cure d).transfers = s.transfers := rfl
@[simp] theorem State.cure_runs (s : State) (d : Datum) :
    (s.cure d).runs = s.runs := rfl
@[simp] theorem State.cure_faults (s : State) (d : Datum) :
    (s.cure d).faults = s.faults := rfl
@[simp] theorem State.cure_health (s : State) (d : Datum) :
    (s.cure d).health = s.health := rfl
@[simp] theorem State.cure_invals (s : State) (d : Datum) :
    (s.cure d).invals = s.invals := rfl
@[simp] theorem State.cure_invalWait (s : State) (d : Datum) :
    (s.cure d).invalWait = s.invalWait := rfl
@[simp] theorem State.cure_care (s : State) (d : Datum) :
    (s.cure d).care = s.care := rfl
@[simp] theorem State.cure_fabric (s : State) (d : Datum) :
    (s.cure d).fabric = s.fabric := rfl
@[simp] theorem State.cure_coll (s : State) (d : Datum) :
    (s.cure d).coll = s.coll := rfl
@[simp] theorem State.cure_spawnIdNext (s : State) (d : Datum) :
    (s.cure d).spawnIdNext = s.spawnIdNext := rfl
@[simp] theorem State.cure_ctxBase (s : State) (d : Datum) :
    (s.cure d).ctxBase = s.ctxBase := rfl
@[simp] theorem State.cure_qcbBase (s : State) (d : Datum) :
    (s.cure d).qcbBase = s.qcbBase := rfl
@[simp] theorem State.cure_queueAclBase (s : State) (d : Datum) :
    (s.cure d).queueAclBase = s.queueAclBase := rfl
@[simp] theorem State.cure_aclBases (s : State) (d : Datum) :
    (s.cure d).aclBases = s.aclBases := rfl
@[simp] theorem State.cure_mirror (s : State) (d : Datum) :
    (s.cure d).mirror = s.mirror := rfl
@[simp] theorem State.cure_rebuilding (s : State) (d : Datum) :
    (s.cure d).rebuilding = s.rebuilding := rfl
@[simp] theorem State.cure_resolvePort (s : State) (d : Datum) :
    (s.cure d).resolvePort = s.resolvePort := rfl
@[simp] theorem State.cure_faultVa (s : State) (d : Datum) :
    (s.cure d).faultVa = s.faultVa := rfl
@[simp] theorem State.cure_ctx (s : State) (d : Datum) :
    (s.cure d).ctx = s.ctx := rfl
@[simp] theorem State.cure_inputs (s : State) (d : Datum) :
    (s.cure d).inputs = s.inputs := rfl
@[simp] theorem State.cure_sn (s : State) (d : Datum) :
    (s.cure d).sn = s.sn := rfl
@[simp] theorem State.cure_cycle (s : State) (d : Datum) :
    (s.cure d).cycle = s.cycle := rfl
@[simp] theorem State.cure_free (s : State) (d : Datum) :
    (s.cure d).free = s.free := rfl
@[simp] theorem State.cure_lastGang (s : State) (d : Datum) :
    (s.cure d).lastGang = s.lastGang := rfl
@[simp] theorem State.cure_dueQueue (s : State) (d : Datum) :
    (s.cure d).dueQueue = s.dueQueue := rfl
@[simp] theorem State.cure_rewritten (s : State) (d : Datum) :
    (s.cure d).rewritten = s.rewritten := rfl
@[simp] theorem State.cure_tickets (s : State) (d : Datum) :
    (s.cure d).tickets = s.tickets := rfl

/-! ## State.performBytes -/

@[simp] theorem State.performBytes_mem (s : State) (core : Option Nat) (pa : Nat) (bytes : List Byte) :
    (s.performBytes core pa bytes).mem = s.mem.write pa bytes := rfl
@[simp] theorem State.performBytes_poison (s : State) (core : Option Nat) (pa : Nat) (bytes : List Byte) :
    (s.performBytes core pa bytes).poison = s.poison := rfl
@[simp] theorem State.performBytes_clk (s : State) (core : Option Nat) (pa : Nat) (bytes : List Byte) :
    (s.performBytes core pa bytes).clk = s.clk := rfl
@[simp] theorem State.performBytes_podIndex (s : State) (core : Option Nat) (pa : Nat) (bytes : List Byte) :
    (s.performBytes core pa bytes).podIndex = s.podIndex := rfl
@[simp] theorem State.performBytes_gangs (s : State) (core : Option Nat) (pa : Nat) (bytes : List Byte) :
    (s.performBytes core pa bytes).gangs = s.gangs := rfl
@[simp] theorem State.performBytes_teams (s : State) (core : Option Nat) (pa : Nat) (bytes : List Byte) :
    (s.performBytes core pa bytes).teams = s.teams := rfl
@[simp] theorem State.performBytes_handles (s : State) (core : Option Nat) (pa : Nat) (bytes : List Byte) :
    (s.performBytes core pa bytes).handles = s.handles := rfl
@[simp] theorem State.performBytes_sync (s : State) (core : Option Nat) (pa : Nat) (bytes : List Byte) :
    (s.performBytes core pa bytes).sync = s.sync := rfl
@[simp] theorem State.performBytes_front (s : State) (core : Option Nat) (pa : Nat) (bytes : List Byte) :
    (s.performBytes core pa bytes).front = s.front := rfl
@[simp] theorem State.performBytes_spawns (s : State) (core : Option Nat) (pa : Nat) (bytes : List Byte) :
    (s.performBytes core pa bytes).spawns = s.spawns := rfl
@[simp] theorem State.performBytes_accesses (s : State) (core : Option Nat) (pa : Nat) (bytes : List Byte) :
    (s.performBytes core pa bytes).accesses = s.accesses := rfl
@[simp] theorem State.performBytes_pending (s : State) (core : Option Nat) (pa : Nat) (bytes : List Byte) :
    (s.performBytes core pa bytes).pending = s.pending := rfl
@[simp] theorem State.performBytes_posts (s : State) (core : Option Nat) (pa : Nat) (bytes : List Byte) :
    (s.performBytes core pa bytes).posts = s.posts := rfl
@[simp] theorem State.performBytes_matOps (s : State) (core : Option Nat) (pa : Nat) (bytes : List Byte) :
    (s.performBytes core pa bytes).matOps = s.noteOlds pa bytes := rfl
@[simp] theorem State.performBytes_scaleLoads (s : State) (core : Option Nat) (pa : Nat) (bytes : List Byte) :
    (s.performBytes core pa bytes).scaleLoads = s.scaleLoads := rfl
@[simp] theorem State.performBytes_scaleRegs (s : State) (core : Option Nat) (pa : Nat) (bytes : List Byte) :
    (s.performBytes core pa bytes).scaleRegs = s.scaleRegs := rfl
@[simp] theorem State.performBytes_arrayNext (s : State) (core : Option Nat) (pa : Nat) (bytes : List Byte) :
    (s.performBytes core pa bytes).arrayNext = s.arrayNext := rfl
@[simp] theorem State.performBytes_retained (s : State) (core : Option Nat) (pa : Nat) (bytes : List Byte) :
    (s.performBytes core pa bytes).retained = s.retained := rfl
@[simp] theorem State.performBytes_aacqQueue (s : State) (core : Option Nat) (pa : Nat) (bytes : List Byte) :
    (s.performBytes core pa bytes).aacqQueue = s.aacqQueue := rfl
@[simp] theorem State.performBytes_l1 (s : State) (core : Option Nat) (pa : Nat) (bytes : List Byte) :
    (s.performBytes core pa bytes).l1 = s.l1After core pa bytes := rfl
@[simp] theorem State.performBytes_fused (s : State) (core : Option Nat) (pa : Nat) (bytes : List Byte) :
    (s.performBytes core pa bytes).fused = s.fused := rfl
@[simp] theorem State.performBytes_tlb (s : State) (core : Option Nat) (pa : Nat) (bytes : List Byte) :
    (s.performBytes core pa bytes).tlb = s.tlb.changed s.mem (s.mem.write pa bytes) pa bytes.length := rfl
@[simp] theorem State.performBytes_zeroing (s : State) (core : Option Nat) (pa : Nat) (bytes : List Byte) :
    (s.performBytes core pa bytes).zeroing = s.zeroing := rfl
@[simp] theorem State.performBytes_watches (s : State) (core : Option Nat) (pa : Nat) (bytes : List Byte) :
    (s.performBytes core pa bytes).watches = evalWatches (s.mem.write pa bytes) (core.map (· / 96)) pa bytes.length s.watches := rfl
@[simp] theorem State.performBytes_watchSeq (s : State) (core : Option Nat) (pa : Nat) (bytes : List Byte) :
    (s.performBytes core pa bytes).watchSeq = s.watchSeq := rfl
@[simp] theorem State.performBytes_tokens (s : State) (core : Option Nat) (pa : Nat) (bytes : List Byte) :
    (s.performBytes core pa bytes).tokens = s.tokens := rfl
@[simp] theorem State.performBytes_xacqQueue (s : State) (core : Option Nat) (pa : Nat) (bytes : List Byte) :
    (s.performBytes core pa bytes).xacqQueue = s.xacqQueue := rfl
@[simp] theorem State.performBytes_axbQueue (s : State) (core : Option Nat) (pa : Nat) (bytes : List Byte) :
    (s.performBytes core pa bytes).axbQueue = s.axbQueue := rfl
@[simp] theorem State.performBytes_exclQueue (s : State) (core : Option Nat) (pa : Nat) (bytes : List Byte) :
    (s.performBytes core pa bytes).exclQueue = s.exclQueue := rfl
@[simp] theorem State.performBytes_exclusive (s : State) (core : Option Nat) (pa : Nat) (bytes : List Byte) :
    (s.performBytes core pa bytes).exclusive = s.exclusive := rfl
@[simp] theorem State.performBytes_commits (s : State) (core : Option Nat) (pa : Nat) (bytes : List Byte) :
    (s.performBytes core pa bytes).commits = s.commits := rfl
@[simp] theorem State.performBytes_owed (s : State) (core : Option Nat) (pa : Nat) (bytes : List Byte) :
    (s.performBytes core pa bytes).owed = s.owed := rfl
@[simp] theorem State.performBytes_copies (s : State) (core : Option Nat) (pa : Nat) (bytes : List Byte) :
    (s.performBytes core pa bytes).copies = s.copies := rfl
@[simp] theorem State.performBytes_commands (s : State) (core : Option Nat) (pa : Nat) (bytes : List Byte) :
    (s.performBytes core pa bytes).commands = s.commands := rfl
@[simp] theorem State.performBytes_transfers (s : State) (core : Option Nat) (pa : Nat) (bytes : List Byte) :
    (s.performBytes core pa bytes).transfers = s.transfers := rfl
@[simp] theorem State.performBytes_runs (s : State) (core : Option Nat) (pa : Nat) (bytes : List Byte) :
    (s.performBytes core pa bytes).runs = s.runs := rfl
@[simp] theorem State.performBytes_faults (s : State) (core : Option Nat) (pa : Nat) (bytes : List Byte) :
    (s.performBytes core pa bytes).faults = s.faults := rfl
@[simp] theorem State.performBytes_health (s : State) (core : Option Nat) (pa : Nat) (bytes : List Byte) :
    (s.performBytes core pa bytes).health = s.health := rfl
@[simp] theorem State.performBytes_invals (s : State) (core : Option Nat) (pa : Nat) (bytes : List Byte) :
    (s.performBytes core pa bytes).invals = s.invals := rfl
@[simp] theorem State.performBytes_invalWait (s : State) (core : Option Nat) (pa : Nat) (bytes : List Byte) :
    (s.performBytes core pa bytes).invalWait = s.invalWait := rfl
@[simp] theorem State.performBytes_care (s : State) (core : Option Nat) (pa : Nat) (bytes : List Byte) :
    (s.performBytes core pa bytes).care = s.care := rfl
@[simp] theorem State.performBytes_fabric (s : State) (core : Option Nat) (pa : Nat) (bytes : List Byte) :
    (s.performBytes core pa bytes).fabric = s.fabric := rfl
@[simp] theorem State.performBytes_coll (s : State) (core : Option Nat) (pa : Nat) (bytes : List Byte) :
    (s.performBytes core pa bytes).coll = s.coll := rfl
@[simp] theorem State.performBytes_spawnIdNext (s : State) (core : Option Nat) (pa : Nat) (bytes : List Byte) :
    (s.performBytes core pa bytes).spawnIdNext = s.spawnIdNext := rfl
@[simp] theorem State.performBytes_ctxBase (s : State) (core : Option Nat) (pa : Nat) (bytes : List Byte) :
    (s.performBytes core pa bytes).ctxBase = s.ctxBase := rfl
@[simp] theorem State.performBytes_qcbBase (s : State) (core : Option Nat) (pa : Nat) (bytes : List Byte) :
    (s.performBytes core pa bytes).qcbBase = s.qcbBase := rfl
@[simp] theorem State.performBytes_queueAclBase (s : State) (core : Option Nat) (pa : Nat) (bytes : List Byte) :
    (s.performBytes core pa bytes).queueAclBase = s.queueAclBase := rfl
@[simp] theorem State.performBytes_aclBases (s : State) (core : Option Nat) (pa : Nat) (bytes : List Byte) :
    (s.performBytes core pa bytes).aclBases = s.aclBases := rfl
@[simp] theorem State.performBytes_mirror (s : State) (core : Option Nat) (pa : Nat) (bytes : List Byte) :
    (s.performBytes core pa bytes).mirror = s.mirror := rfl
@[simp] theorem State.performBytes_rebuilding (s : State) (core : Option Nat) (pa : Nat) (bytes : List Byte) :
    (s.performBytes core pa bytes).rebuilding = s.rebuilding := rfl
@[simp] theorem State.performBytes_resolvePort (s : State) (core : Option Nat) (pa : Nat) (bytes : List Byte) :
    (s.performBytes core pa bytes).resolvePort = s.resolvePort := rfl
@[simp] theorem State.performBytes_faultVa (s : State) (core : Option Nat) (pa : Nat) (bytes : List Byte) :
    (s.performBytes core pa bytes).faultVa = s.faultVa := rfl
@[simp] theorem State.performBytes_ctx (s : State) (core : Option Nat) (pa : Nat) (bytes : List Byte) :
    (s.performBytes core pa bytes).ctx = s.ctx := rfl
@[simp] theorem State.performBytes_inputs (s : State) (core : Option Nat) (pa : Nat) (bytes : List Byte) :
    (s.performBytes core pa bytes).inputs = s.inputs := rfl
@[simp] theorem State.performBytes_sn (s : State) (core : Option Nat) (pa : Nat) (bytes : List Byte) :
    (s.performBytes core pa bytes).sn = s.sn := rfl
@[simp] theorem State.performBytes_cycle (s : State) (core : Option Nat) (pa : Nat) (bytes : List Byte) :
    (s.performBytes core pa bytes).cycle = s.cycle := rfl
@[simp] theorem State.performBytes_free (s : State) (core : Option Nat) (pa : Nat) (bytes : List Byte) :
    (s.performBytes core pa bytes).free = s.free := rfl
@[simp] theorem State.performBytes_lastGang (s : State) (core : Option Nat) (pa : Nat) (bytes : List Byte) :
    (s.performBytes core pa bytes).lastGang = s.lastGang := rfl
@[simp] theorem State.performBytes_dueQueue (s : State) (core : Option Nat) (pa : Nat) (bytes : List Byte) :
    (s.performBytes core pa bytes).dueQueue = s.dueQueue := rfl
@[simp] theorem State.performBytes_rewritten (s : State) (core : Option Nat) (pa : Nat) (bytes : List Byte) :
    (s.performBytes core pa bytes).rewritten = s.oldBytes pa bytes := rfl
@[simp] theorem State.performBytes_tickets (s : State) (core : Option Nat) (pa : Nat) (bytes : List Byte) :
    (s.performBytes core pa bytes).tickets = s.tickets := rfl

/-! ## State.bumpSlots -/

@[simp] theorem State.bumpSlots_mem (s : State) (team : Nat) (slots : List Nat) :
    (s.bumpSlots team slots).mem = s.mem := rfl
@[simp] theorem State.bumpSlots_poison (s : State) (team : Nat) (slots : List Nat) :
    (s.bumpSlots team slots).poison = s.poison := rfl
@[simp] theorem State.bumpSlots_clk (s : State) (team : Nat) (slots : List Nat) :
    (s.bumpSlots team slots).clk = s.clk := rfl
@[simp] theorem State.bumpSlots_podIndex (s : State) (team : Nat) (slots : List Nat) :
    (s.bumpSlots team slots).podIndex = s.podIndex := rfl
@[simp] theorem State.bumpSlots_gangs (s : State) (team : Nat) (slots : List Nat) :
    (s.bumpSlots team slots).gangs = s.gangs := rfl
@[simp] theorem State.bumpSlots_teams (s : State) (team : Nat) (slots : List Nat) :
    (s.bumpSlots team slots).teams = s.teams.modify team fun T => slots.foldl Team.bump T := rfl
@[simp] theorem State.bumpSlots_handles (s : State) (team : Nat) (slots : List Nat) :
    (s.bumpSlots team slots).handles = s.handles := rfl
@[simp] theorem State.bumpSlots_sync (s : State) (team : Nat) (slots : List Nat) :
    (s.bumpSlots team slots).sync = s.sync := rfl
@[simp] theorem State.bumpSlots_front (s : State) (team : Nat) (slots : List Nat) :
    (s.bumpSlots team slots).front = s.front := rfl
@[simp] theorem State.bumpSlots_spawns (s : State) (team : Nat) (slots : List Nat) :
    (s.bumpSlots team slots).spawns = s.spawns := rfl
@[simp] theorem State.bumpSlots_accesses (s : State) (team : Nat) (slots : List Nat) :
    (s.bumpSlots team slots).accesses = s.accesses := rfl
@[simp] theorem State.bumpSlots_pending (s : State) (team : Nat) (slots : List Nat) :
    (s.bumpSlots team slots).pending = s.pending := rfl
@[simp] theorem State.bumpSlots_posts (s : State) (team : Nat) (slots : List Nat) :
    (s.bumpSlots team slots).posts = s.posts := rfl
@[simp] theorem State.bumpSlots_matOps (s : State) (team : Nat) (slots : List Nat) :
    (s.bumpSlots team slots).matOps = s.matOps := rfl
@[simp] theorem State.bumpSlots_scaleLoads (s : State) (team : Nat) (slots : List Nat) :
    (s.bumpSlots team slots).scaleLoads = s.scaleLoads := rfl
@[simp] theorem State.bumpSlots_scaleRegs (s : State) (team : Nat) (slots : List Nat) :
    (s.bumpSlots team slots).scaleRegs = s.scaleRegs := rfl
@[simp] theorem State.bumpSlots_arrayNext (s : State) (team : Nat) (slots : List Nat) :
    (s.bumpSlots team slots).arrayNext = s.arrayNext := rfl
@[simp] theorem State.bumpSlots_retained (s : State) (team : Nat) (slots : List Nat) :
    (s.bumpSlots team slots).retained = s.retained := rfl
@[simp] theorem State.bumpSlots_aacqQueue (s : State) (team : Nat) (slots : List Nat) :
    (s.bumpSlots team slots).aacqQueue = s.aacqQueue := rfl
@[simp] theorem State.bumpSlots_l1 (s : State) (team : Nat) (slots : List Nat) :
    (s.bumpSlots team slots).l1 = s.l1 := rfl
@[simp] theorem State.bumpSlots_fused (s : State) (team : Nat) (slots : List Nat) :
    (s.bumpSlots team slots).fused = s.fused := rfl
@[simp] theorem State.bumpSlots_tlb (s : State) (team : Nat) (slots : List Nat) :
    (s.bumpSlots team slots).tlb = s.tlb := rfl
@[simp] theorem State.bumpSlots_zeroing (s : State) (team : Nat) (slots : List Nat) :
    (s.bumpSlots team slots).zeroing = s.zeroing := rfl
@[simp] theorem State.bumpSlots_watches (s : State) (team : Nat) (slots : List Nat) :
    (s.bumpSlots team slots).watches = s.watches := rfl
@[simp] theorem State.bumpSlots_watchSeq (s : State) (team : Nat) (slots : List Nat) :
    (s.bumpSlots team slots).watchSeq = s.watchSeq := rfl
@[simp] theorem State.bumpSlots_tokens (s : State) (team : Nat) (slots : List Nat) :
    (s.bumpSlots team slots).tokens = s.tokens := rfl
@[simp] theorem State.bumpSlots_xacqQueue (s : State) (team : Nat) (slots : List Nat) :
    (s.bumpSlots team slots).xacqQueue = s.xacqQueue := rfl
@[simp] theorem State.bumpSlots_axbQueue (s : State) (team : Nat) (slots : List Nat) :
    (s.bumpSlots team slots).axbQueue = s.axbQueue := rfl
@[simp] theorem State.bumpSlots_exclQueue (s : State) (team : Nat) (slots : List Nat) :
    (s.bumpSlots team slots).exclQueue = s.exclQueue := rfl
@[simp] theorem State.bumpSlots_exclusive (s : State) (team : Nat) (slots : List Nat) :
    (s.bumpSlots team slots).exclusive = s.exclusive := rfl
@[simp] theorem State.bumpSlots_commits (s : State) (team : Nat) (slots : List Nat) :
    (s.bumpSlots team slots).commits = s.commits := rfl
@[simp] theorem State.bumpSlots_owed (s : State) (team : Nat) (slots : List Nat) :
    (s.bumpSlots team slots).owed = s.owed := rfl
@[simp] theorem State.bumpSlots_copies (s : State) (team : Nat) (slots : List Nat) :
    (s.bumpSlots team slots).copies = s.copies := rfl
@[simp] theorem State.bumpSlots_commands (s : State) (team : Nat) (slots : List Nat) :
    (s.bumpSlots team slots).commands = s.commands := rfl
@[simp] theorem State.bumpSlots_transfers (s : State) (team : Nat) (slots : List Nat) :
    (s.bumpSlots team slots).transfers = s.transfers := rfl
@[simp] theorem State.bumpSlots_runs (s : State) (team : Nat) (slots : List Nat) :
    (s.bumpSlots team slots).runs = s.runs := rfl
@[simp] theorem State.bumpSlots_faults (s : State) (team : Nat) (slots : List Nat) :
    (s.bumpSlots team slots).faults = s.faults := rfl
@[simp] theorem State.bumpSlots_health (s : State) (team : Nat) (slots : List Nat) :
    (s.bumpSlots team slots).health = s.health := rfl
@[simp] theorem State.bumpSlots_invals (s : State) (team : Nat) (slots : List Nat) :
    (s.bumpSlots team slots).invals = s.invals := rfl
@[simp] theorem State.bumpSlots_invalWait (s : State) (team : Nat) (slots : List Nat) :
    (s.bumpSlots team slots).invalWait = s.invalWait := rfl
@[simp] theorem State.bumpSlots_care (s : State) (team : Nat) (slots : List Nat) :
    (s.bumpSlots team slots).care = s.care := rfl
@[simp] theorem State.bumpSlots_fabric (s : State) (team : Nat) (slots : List Nat) :
    (s.bumpSlots team slots).fabric = s.fabric := rfl
@[simp] theorem State.bumpSlots_coll (s : State) (team : Nat) (slots : List Nat) :
    (s.bumpSlots team slots).coll = s.coll := rfl
@[simp] theorem State.bumpSlots_spawnIdNext (s : State) (team : Nat) (slots : List Nat) :
    (s.bumpSlots team slots).spawnIdNext = s.spawnIdNext := rfl
@[simp] theorem State.bumpSlots_ctxBase (s : State) (team : Nat) (slots : List Nat) :
    (s.bumpSlots team slots).ctxBase = s.ctxBase := rfl
@[simp] theorem State.bumpSlots_qcbBase (s : State) (team : Nat) (slots : List Nat) :
    (s.bumpSlots team slots).qcbBase = s.qcbBase := rfl
@[simp] theorem State.bumpSlots_queueAclBase (s : State) (team : Nat) (slots : List Nat) :
    (s.bumpSlots team slots).queueAclBase = s.queueAclBase := rfl
@[simp] theorem State.bumpSlots_aclBases (s : State) (team : Nat) (slots : List Nat) :
    (s.bumpSlots team slots).aclBases = s.aclBases := rfl
@[simp] theorem State.bumpSlots_mirror (s : State) (team : Nat) (slots : List Nat) :
    (s.bumpSlots team slots).mirror = s.mirror := rfl
@[simp] theorem State.bumpSlots_rebuilding (s : State) (team : Nat) (slots : List Nat) :
    (s.bumpSlots team slots).rebuilding = s.rebuilding := rfl
@[simp] theorem State.bumpSlots_resolvePort (s : State) (team : Nat) (slots : List Nat) :
    (s.bumpSlots team slots).resolvePort = s.resolvePort := rfl
@[simp] theorem State.bumpSlots_faultVa (s : State) (team : Nat) (slots : List Nat) :
    (s.bumpSlots team slots).faultVa = s.faultVa := rfl
@[simp] theorem State.bumpSlots_ctx (s : State) (team : Nat) (slots : List Nat) :
    (s.bumpSlots team slots).ctx = s.ctx := rfl
@[simp] theorem State.bumpSlots_inputs (s : State) (team : Nat) (slots : List Nat) :
    (s.bumpSlots team slots).inputs = s.inputs := rfl
@[simp] theorem State.bumpSlots_sn (s : State) (team : Nat) (slots : List Nat) :
    (s.bumpSlots team slots).sn = s.sn := rfl
@[simp] theorem State.bumpSlots_cycle (s : State) (team : Nat) (slots : List Nat) :
    (s.bumpSlots team slots).cycle = s.cycle := rfl
@[simp] theorem State.bumpSlots_free (s : State) (team : Nat) (slots : List Nat) :
    (s.bumpSlots team slots).free = s.free := rfl
@[simp] theorem State.bumpSlots_lastGang (s : State) (team : Nat) (slots : List Nat) :
    (s.bumpSlots team slots).lastGang = s.lastGang := rfl
@[simp] theorem State.bumpSlots_dueQueue (s : State) (team : Nat) (slots : List Nat) :
    (s.bumpSlots team slots).dueQueue = s.dueQueue := rfl
@[simp] theorem State.bumpSlots_rewritten (s : State) (team : Nat) (slots : List Nat) :
    (s.bumpSlots team slots).rewritten = s.rewritten := rfl
@[simp] theorem State.bumpSlots_tickets (s : State) (team : Nat) (slots : List Nat) :
    (s.bumpSlots team slots).tickets = s.tickets := rfl

/-! ## State.putRun -/

@[simp] theorem State.putRun_mem (s : State) (r : Run) :
    (s.putRun r).mem = s.mem := rfl
@[simp] theorem State.putRun_poison (s : State) (r : Run) :
    (s.putRun r).poison = s.poison := rfl
@[simp] theorem State.putRun_clk (s : State) (r : Run) :
    (s.putRun r).clk = s.clk := rfl
@[simp] theorem State.putRun_podIndex (s : State) (r : Run) :
    (s.putRun r).podIndex = s.podIndex := rfl
@[simp] theorem State.putRun_gangs (s : State) (r : Run) :
    (s.putRun r).gangs = s.gangs := rfl
@[simp] theorem State.putRun_teams (s : State) (r : Run) :
    (s.putRun r).teams = s.teams := rfl
@[simp] theorem State.putRun_handles (s : State) (r : Run) :
    (s.putRun r).handles = s.handles := rfl
@[simp] theorem State.putRun_sync (s : State) (r : Run) :
    (s.putRun r).sync = s.sync := rfl
@[simp] theorem State.putRun_front (s : State) (r : Run) :
    (s.putRun r).front = s.front := rfl
@[simp] theorem State.putRun_spawns (s : State) (r : Run) :
    (s.putRun r).spawns = s.spawns := rfl
@[simp] theorem State.putRun_accesses (s : State) (r : Run) :
    (s.putRun r).accesses = s.accesses := rfl
@[simp] theorem State.putRun_pending (s : State) (r : Run) :
    (s.putRun r).pending = s.pending := rfl
@[simp] theorem State.putRun_posts (s : State) (r : Run) :
    (s.putRun r).posts = s.posts := rfl
@[simp] theorem State.putRun_matOps (s : State) (r : Run) :
    (s.putRun r).matOps = s.matOps := rfl
@[simp] theorem State.putRun_scaleLoads (s : State) (r : Run) :
    (s.putRun r).scaleLoads = s.scaleLoads := rfl
@[simp] theorem State.putRun_scaleRegs (s : State) (r : Run) :
    (s.putRun r).scaleRegs = s.scaleRegs := rfl
@[simp] theorem State.putRun_arrayNext (s : State) (r : Run) :
    (s.putRun r).arrayNext = s.arrayNext := rfl
@[simp] theorem State.putRun_retained (s : State) (r : Run) :
    (s.putRun r).retained = s.retained := rfl
@[simp] theorem State.putRun_aacqQueue (s : State) (r : Run) :
    (s.putRun r).aacqQueue = s.aacqQueue := rfl
@[simp] theorem State.putRun_l1 (s : State) (r : Run) :
    (s.putRun r).l1 = s.l1 := rfl
@[simp] theorem State.putRun_fused (s : State) (r : Run) :
    (s.putRun r).fused = s.fused := rfl
@[simp] theorem State.putRun_tlb (s : State) (r : Run) :
    (s.putRun r).tlb = s.tlb := rfl
@[simp] theorem State.putRun_zeroing (s : State) (r : Run) :
    (s.putRun r).zeroing = s.zeroing := rfl
@[simp] theorem State.putRun_watches (s : State) (r : Run) :
    (s.putRun r).watches = s.watches := rfl
@[simp] theorem State.putRun_watchSeq (s : State) (r : Run) :
    (s.putRun r).watchSeq = s.watchSeq := rfl
@[simp] theorem State.putRun_tokens (s : State) (r : Run) :
    (s.putRun r).tokens = s.tokens := rfl
@[simp] theorem State.putRun_xacqQueue (s : State) (r : Run) :
    (s.putRun r).xacqQueue = s.xacqQueue := rfl
@[simp] theorem State.putRun_axbQueue (s : State) (r : Run) :
    (s.putRun r).axbQueue = s.axbQueue := rfl
@[simp] theorem State.putRun_exclQueue (s : State) (r : Run) :
    (s.putRun r).exclQueue = s.exclQueue := rfl
@[simp] theorem State.putRun_exclusive (s : State) (r : Run) :
    (s.putRun r).exclusive = s.exclusive := rfl
@[simp] theorem State.putRun_commits (s : State) (r : Run) :
    (s.putRun r).commits = s.commits := rfl
@[simp] theorem State.putRun_owed (s : State) (r : Run) :
    (s.putRun r).owed = s.owed := rfl
@[simp] theorem State.putRun_copies (s : State) (r : Run) :
    (s.putRun r).copies = s.copies := rfl
@[simp] theorem State.putRun_commands (s : State) (r : Run) :
    (s.putRun r).commands = s.commands := rfl
@[simp] theorem State.putRun_transfers (s : State) (r : Run) :
    (s.putRun r).transfers = s.transfers := rfl
@[simp] theorem State.putRun_runs (s : State) (r : Run) :
    (s.putRun r).runs = s.runs.map fun x => if x.sn = r.sn then r else x := rfl
@[simp] theorem State.putRun_faults (s : State) (r : Run) :
    (s.putRun r).faults = s.faults := rfl
@[simp] theorem State.putRun_health (s : State) (r : Run) :
    (s.putRun r).health = s.health := rfl
@[simp] theorem State.putRun_invals (s : State) (r : Run) :
    (s.putRun r).invals = s.invals := rfl
@[simp] theorem State.putRun_invalWait (s : State) (r : Run) :
    (s.putRun r).invalWait = s.invalWait := rfl
@[simp] theorem State.putRun_care (s : State) (r : Run) :
    (s.putRun r).care = s.care := rfl
@[simp] theorem State.putRun_fabric (s : State) (r : Run) :
    (s.putRun r).fabric = s.fabric := rfl
@[simp] theorem State.putRun_coll (s : State) (r : Run) :
    (s.putRun r).coll = s.coll := rfl
@[simp] theorem State.putRun_spawnIdNext (s : State) (r : Run) :
    (s.putRun r).spawnIdNext = s.spawnIdNext := rfl
@[simp] theorem State.putRun_ctxBase (s : State) (r : Run) :
    (s.putRun r).ctxBase = s.ctxBase := rfl
@[simp] theorem State.putRun_qcbBase (s : State) (r : Run) :
    (s.putRun r).qcbBase = s.qcbBase := rfl
@[simp] theorem State.putRun_queueAclBase (s : State) (r : Run) :
    (s.putRun r).queueAclBase = s.queueAclBase := rfl
@[simp] theorem State.putRun_aclBases (s : State) (r : Run) :
    (s.putRun r).aclBases = s.aclBases := rfl
@[simp] theorem State.putRun_mirror (s : State) (r : Run) :
    (s.putRun r).mirror = s.mirror := rfl
@[simp] theorem State.putRun_rebuilding (s : State) (r : Run) :
    (s.putRun r).rebuilding = s.rebuilding := rfl
@[simp] theorem State.putRun_resolvePort (s : State) (r : Run) :
    (s.putRun r).resolvePort = s.resolvePort := rfl
@[simp] theorem State.putRun_faultVa (s : State) (r : Run) :
    (s.putRun r).faultVa = s.faultVa := rfl
@[simp] theorem State.putRun_ctx (s : State) (r : Run) :
    (s.putRun r).ctx = s.ctx := rfl
@[simp] theorem State.putRun_inputs (s : State) (r : Run) :
    (s.putRun r).inputs = s.inputs := rfl
@[simp] theorem State.putRun_sn (s : State) (r : Run) :
    (s.putRun r).sn = s.sn := rfl
@[simp] theorem State.putRun_cycle (s : State) (r : Run) :
    (s.putRun r).cycle = s.cycle := rfl
@[simp] theorem State.putRun_free (s : State) (r : Run) :
    (s.putRun r).free = s.free := rfl
@[simp] theorem State.putRun_lastGang (s : State) (r : Run) :
    (s.putRun r).lastGang = s.lastGang := rfl
@[simp] theorem State.putRun_dueQueue (s : State) (r : Run) :
    (s.putRun r).dueQueue = s.dueQueue := rfl
@[simp] theorem State.putRun_rewritten (s : State) (r : Run) :
    (s.putRun r).rewritten = s.rewritten := rfl
@[simp] theorem State.putRun_tickets (s : State) (r : Run) :
    (s.putRun r).tickets = s.tickets := rfl

/-! ## State.putCopy -/

@[simp] theorem State.putCopy_mem (s : State) (c : Copy) :
    (s.putCopy c).mem = s.mem := rfl
@[simp] theorem State.putCopy_poison (s : State) (c : Copy) :
    (s.putCopy c).poison = s.poison := rfl
@[simp] theorem State.putCopy_clk (s : State) (c : Copy) :
    (s.putCopy c).clk = s.clk := rfl
@[simp] theorem State.putCopy_podIndex (s : State) (c : Copy) :
    (s.putCopy c).podIndex = s.podIndex := rfl
@[simp] theorem State.putCopy_gangs (s : State) (c : Copy) :
    (s.putCopy c).gangs = s.gangs := rfl
@[simp] theorem State.putCopy_teams (s : State) (c : Copy) :
    (s.putCopy c).teams = s.teams := rfl
@[simp] theorem State.putCopy_handles (s : State) (c : Copy) :
    (s.putCopy c).handles = s.handles := rfl
@[simp] theorem State.putCopy_sync (s : State) (c : Copy) :
    (s.putCopy c).sync = s.sync := rfl
@[simp] theorem State.putCopy_front (s : State) (c : Copy) :
    (s.putCopy c).front = s.front := rfl
@[simp] theorem State.putCopy_spawns (s : State) (c : Copy) :
    (s.putCopy c).spawns = s.spawns := rfl
@[simp] theorem State.putCopy_accesses (s : State) (c : Copy) :
    (s.putCopy c).accesses = s.accesses := rfl
@[simp] theorem State.putCopy_pending (s : State) (c : Copy) :
    (s.putCopy c).pending = s.pending := rfl
@[simp] theorem State.putCopy_posts (s : State) (c : Copy) :
    (s.putCopy c).posts = s.posts := rfl
@[simp] theorem State.putCopy_matOps (s : State) (c : Copy) :
    (s.putCopy c).matOps = s.matOps := rfl
@[simp] theorem State.putCopy_scaleLoads (s : State) (c : Copy) :
    (s.putCopy c).scaleLoads = s.scaleLoads := rfl
@[simp] theorem State.putCopy_scaleRegs (s : State) (c : Copy) :
    (s.putCopy c).scaleRegs = s.scaleRegs := rfl
@[simp] theorem State.putCopy_arrayNext (s : State) (c : Copy) :
    (s.putCopy c).arrayNext = s.arrayNext := rfl
@[simp] theorem State.putCopy_retained (s : State) (c : Copy) :
    (s.putCopy c).retained = s.retained := rfl
@[simp] theorem State.putCopy_aacqQueue (s : State) (c : Copy) :
    (s.putCopy c).aacqQueue = s.aacqQueue := rfl
@[simp] theorem State.putCopy_l1 (s : State) (c : Copy) :
    (s.putCopy c).l1 = s.l1 := rfl
@[simp] theorem State.putCopy_fused (s : State) (c : Copy) :
    (s.putCopy c).fused = s.fused := rfl
@[simp] theorem State.putCopy_tlb (s : State) (c : Copy) :
    (s.putCopy c).tlb = s.tlb := rfl
@[simp] theorem State.putCopy_zeroing (s : State) (c : Copy) :
    (s.putCopy c).zeroing = s.zeroing := rfl
@[simp] theorem State.putCopy_watches (s : State) (c : Copy) :
    (s.putCopy c).watches = s.watches := rfl
@[simp] theorem State.putCopy_watchSeq (s : State) (c : Copy) :
    (s.putCopy c).watchSeq = s.watchSeq := rfl
@[simp] theorem State.putCopy_tokens (s : State) (c : Copy) :
    (s.putCopy c).tokens = s.tokens := rfl
@[simp] theorem State.putCopy_xacqQueue (s : State) (c : Copy) :
    (s.putCopy c).xacqQueue = s.xacqQueue := rfl
@[simp] theorem State.putCopy_axbQueue (s : State) (c : Copy) :
    (s.putCopy c).axbQueue = s.axbQueue := rfl
@[simp] theorem State.putCopy_exclQueue (s : State) (c : Copy) :
    (s.putCopy c).exclQueue = s.exclQueue := rfl
@[simp] theorem State.putCopy_exclusive (s : State) (c : Copy) :
    (s.putCopy c).exclusive = s.exclusive := rfl
@[simp] theorem State.putCopy_commits (s : State) (c : Copy) :
    (s.putCopy c).commits = s.commits := rfl
@[simp] theorem State.putCopy_owed (s : State) (c : Copy) :
    (s.putCopy c).owed = s.owed := rfl
@[simp] theorem State.putCopy_copies (s : State) (c : Copy) :
    (s.putCopy c).copies = s.copies.map fun x => if x.sn = c.sn then c else x := rfl
@[simp] theorem State.putCopy_commands (s : State) (c : Copy) :
    (s.putCopy c).commands = s.commands := rfl
@[simp] theorem State.putCopy_transfers (s : State) (c : Copy) :
    (s.putCopy c).transfers = s.transfers := rfl
@[simp] theorem State.putCopy_runs (s : State) (c : Copy) :
    (s.putCopy c).runs = s.runs := rfl
@[simp] theorem State.putCopy_faults (s : State) (c : Copy) :
    (s.putCopy c).faults = s.faults := rfl
@[simp] theorem State.putCopy_health (s : State) (c : Copy) :
    (s.putCopy c).health = s.health := rfl
@[simp] theorem State.putCopy_invals (s : State) (c : Copy) :
    (s.putCopy c).invals = s.invals := rfl
@[simp] theorem State.putCopy_invalWait (s : State) (c : Copy) :
    (s.putCopy c).invalWait = s.invalWait := rfl
@[simp] theorem State.putCopy_care (s : State) (c : Copy) :
    (s.putCopy c).care = s.care := rfl
@[simp] theorem State.putCopy_fabric (s : State) (c : Copy) :
    (s.putCopy c).fabric = s.fabric := rfl
@[simp] theorem State.putCopy_coll (s : State) (c : Copy) :
    (s.putCopy c).coll = s.coll := rfl
@[simp] theorem State.putCopy_spawnIdNext (s : State) (c : Copy) :
    (s.putCopy c).spawnIdNext = s.spawnIdNext := rfl
@[simp] theorem State.putCopy_ctxBase (s : State) (c : Copy) :
    (s.putCopy c).ctxBase = s.ctxBase := rfl
@[simp] theorem State.putCopy_qcbBase (s : State) (c : Copy) :
    (s.putCopy c).qcbBase = s.qcbBase := rfl
@[simp] theorem State.putCopy_queueAclBase (s : State) (c : Copy) :
    (s.putCopy c).queueAclBase = s.queueAclBase := rfl
@[simp] theorem State.putCopy_aclBases (s : State) (c : Copy) :
    (s.putCopy c).aclBases = s.aclBases := rfl
@[simp] theorem State.putCopy_mirror (s : State) (c : Copy) :
    (s.putCopy c).mirror = s.mirror := rfl
@[simp] theorem State.putCopy_rebuilding (s : State) (c : Copy) :
    (s.putCopy c).rebuilding = s.rebuilding := rfl
@[simp] theorem State.putCopy_resolvePort (s : State) (c : Copy) :
    (s.putCopy c).resolvePort = s.resolvePort := rfl
@[simp] theorem State.putCopy_faultVa (s : State) (c : Copy) :
    (s.putCopy c).faultVa = s.faultVa := rfl
@[simp] theorem State.putCopy_ctx (s : State) (c : Copy) :
    (s.putCopy c).ctx = s.ctx := rfl
@[simp] theorem State.putCopy_inputs (s : State) (c : Copy) :
    (s.putCopy c).inputs = s.inputs := rfl
@[simp] theorem State.putCopy_sn (s : State) (c : Copy) :
    (s.putCopy c).sn = s.sn := rfl
@[simp] theorem State.putCopy_cycle (s : State) (c : Copy) :
    (s.putCopy c).cycle = s.cycle := rfl
@[simp] theorem State.putCopy_free (s : State) (c : Copy) :
    (s.putCopy c).free = s.free := rfl
@[simp] theorem State.putCopy_lastGang (s : State) (c : Copy) :
    (s.putCopy c).lastGang = s.lastGang := rfl
@[simp] theorem State.putCopy_dueQueue (s : State) (c : Copy) :
    (s.putCopy c).dueQueue = s.dueQueue := rfl
@[simp] theorem State.putCopy_rewritten (s : State) (c : Copy) :
    (s.putCopy c).rewritten = s.rewritten := rfl
@[simp] theorem State.putCopy_tickets (s : State) (c : Copy) :
    (s.putCopy c).tickets = s.tickets := rfl

/-! ## State.dropAccess -/

@[simp] theorem State.dropAccess_mem (s : State) (sn : Nat) :
    (s.dropAccess sn).mem = s.mem := rfl
@[simp] theorem State.dropAccess_poison (s : State) (sn : Nat) :
    (s.dropAccess sn).poison = s.poison := rfl
@[simp] theorem State.dropAccess_clk (s : State) (sn : Nat) :
    (s.dropAccess sn).clk = s.clk := rfl
@[simp] theorem State.dropAccess_podIndex (s : State) (sn : Nat) :
    (s.dropAccess sn).podIndex = s.podIndex := rfl
@[simp] theorem State.dropAccess_gangs (s : State) (sn : Nat) :
    (s.dropAccess sn).gangs = s.gangs := rfl
@[simp] theorem State.dropAccess_teams (s : State) (sn : Nat) :
    (s.dropAccess sn).teams = s.teams := rfl
@[simp] theorem State.dropAccess_handles (s : State) (sn : Nat) :
    (s.dropAccess sn).handles = s.handles := rfl
@[simp] theorem State.dropAccess_sync (s : State) (sn : Nat) :
    (s.dropAccess sn).sync = s.sync := rfl
@[simp] theorem State.dropAccess_front (s : State) (sn : Nat) :
    (s.dropAccess sn).front = s.front := rfl
@[simp] theorem State.dropAccess_spawns (s : State) (sn : Nat) :
    (s.dropAccess sn).spawns = s.spawns := rfl
@[simp] theorem State.dropAccess_accesses (s : State) (sn : Nat) :
    (s.dropAccess sn).accesses = s.accesses.filter (·.sn != sn) := rfl
@[simp] theorem State.dropAccess_pending (s : State) (sn : Nat) :
    (s.dropAccess sn).pending = s.pending := rfl
@[simp] theorem State.dropAccess_posts (s : State) (sn : Nat) :
    (s.dropAccess sn).posts = s.posts := rfl
@[simp] theorem State.dropAccess_matOps (s : State) (sn : Nat) :
    (s.dropAccess sn).matOps = s.matOps := rfl
@[simp] theorem State.dropAccess_scaleLoads (s : State) (sn : Nat) :
    (s.dropAccess sn).scaleLoads = s.scaleLoads := rfl
@[simp] theorem State.dropAccess_scaleRegs (s : State) (sn : Nat) :
    (s.dropAccess sn).scaleRegs = s.scaleRegs := rfl
@[simp] theorem State.dropAccess_arrayNext (s : State) (sn : Nat) :
    (s.dropAccess sn).arrayNext = s.arrayNext := rfl
@[simp] theorem State.dropAccess_retained (s : State) (sn : Nat) :
    (s.dropAccess sn).retained = s.retained := rfl
@[simp] theorem State.dropAccess_aacqQueue (s : State) (sn : Nat) :
    (s.dropAccess sn).aacqQueue = s.aacqQueue := rfl
@[simp] theorem State.dropAccess_l1 (s : State) (sn : Nat) :
    (s.dropAccess sn).l1 = s.l1 := rfl
@[simp] theorem State.dropAccess_fused (s : State) (sn : Nat) :
    (s.dropAccess sn).fused = s.fused := rfl
@[simp] theorem State.dropAccess_tlb (s : State) (sn : Nat) :
    (s.dropAccess sn).tlb = s.tlb := rfl
@[simp] theorem State.dropAccess_zeroing (s : State) (sn : Nat) :
    (s.dropAccess sn).zeroing = s.zeroing := rfl
@[simp] theorem State.dropAccess_watches (s : State) (sn : Nat) :
    (s.dropAccess sn).watches = s.watches := rfl
@[simp] theorem State.dropAccess_watchSeq (s : State) (sn : Nat) :
    (s.dropAccess sn).watchSeq = s.watchSeq := rfl
@[simp] theorem State.dropAccess_tokens (s : State) (sn : Nat) :
    (s.dropAccess sn).tokens = s.tokens := rfl
@[simp] theorem State.dropAccess_xacqQueue (s : State) (sn : Nat) :
    (s.dropAccess sn).xacqQueue = s.xacqQueue := rfl
@[simp] theorem State.dropAccess_axbQueue (s : State) (sn : Nat) :
    (s.dropAccess sn).axbQueue = s.axbQueue := rfl
@[simp] theorem State.dropAccess_exclQueue (s : State) (sn : Nat) :
    (s.dropAccess sn).exclQueue = s.exclQueue := rfl
@[simp] theorem State.dropAccess_exclusive (s : State) (sn : Nat) :
    (s.dropAccess sn).exclusive = s.exclusive := rfl
@[simp] theorem State.dropAccess_commits (s : State) (sn : Nat) :
    (s.dropAccess sn).commits = s.commits := rfl
@[simp] theorem State.dropAccess_owed (s : State) (sn : Nat) :
    (s.dropAccess sn).owed = s.owed := rfl
@[simp] theorem State.dropAccess_copies (s : State) (sn : Nat) :
    (s.dropAccess sn).copies = s.copies := rfl
@[simp] theorem State.dropAccess_commands (s : State) (sn : Nat) :
    (s.dropAccess sn).commands = s.commands := rfl
@[simp] theorem State.dropAccess_transfers (s : State) (sn : Nat) :
    (s.dropAccess sn).transfers = s.transfers := rfl
@[simp] theorem State.dropAccess_runs (s : State) (sn : Nat) :
    (s.dropAccess sn).runs = s.runs := rfl
@[simp] theorem State.dropAccess_faults (s : State) (sn : Nat) :
    (s.dropAccess sn).faults = s.faults := rfl
@[simp] theorem State.dropAccess_health (s : State) (sn : Nat) :
    (s.dropAccess sn).health = s.health := rfl
@[simp] theorem State.dropAccess_invals (s : State) (sn : Nat) :
    (s.dropAccess sn).invals = s.invals := rfl
@[simp] theorem State.dropAccess_invalWait (s : State) (sn : Nat) :
    (s.dropAccess sn).invalWait = s.invalWait := rfl
@[simp] theorem State.dropAccess_care (s : State) (sn : Nat) :
    (s.dropAccess sn).care = s.care := rfl
@[simp] theorem State.dropAccess_fabric (s : State) (sn : Nat) :
    (s.dropAccess sn).fabric = s.fabric := rfl
@[simp] theorem State.dropAccess_coll (s : State) (sn : Nat) :
    (s.dropAccess sn).coll = s.coll := rfl
@[simp] theorem State.dropAccess_spawnIdNext (s : State) (sn : Nat) :
    (s.dropAccess sn).spawnIdNext = s.spawnIdNext := rfl
@[simp] theorem State.dropAccess_ctxBase (s : State) (sn : Nat) :
    (s.dropAccess sn).ctxBase = s.ctxBase := rfl
@[simp] theorem State.dropAccess_qcbBase (s : State) (sn : Nat) :
    (s.dropAccess sn).qcbBase = s.qcbBase := rfl
@[simp] theorem State.dropAccess_queueAclBase (s : State) (sn : Nat) :
    (s.dropAccess sn).queueAclBase = s.queueAclBase := rfl
@[simp] theorem State.dropAccess_aclBases (s : State) (sn : Nat) :
    (s.dropAccess sn).aclBases = s.aclBases := rfl
@[simp] theorem State.dropAccess_mirror (s : State) (sn : Nat) :
    (s.dropAccess sn).mirror = s.mirror := rfl
@[simp] theorem State.dropAccess_rebuilding (s : State) (sn : Nat) :
    (s.dropAccess sn).rebuilding = s.rebuilding := rfl
@[simp] theorem State.dropAccess_resolvePort (s : State) (sn : Nat) :
    (s.dropAccess sn).resolvePort = s.resolvePort := rfl
@[simp] theorem State.dropAccess_faultVa (s : State) (sn : Nat) :
    (s.dropAccess sn).faultVa = s.faultVa := rfl
@[simp] theorem State.dropAccess_ctx (s : State) (sn : Nat) :
    (s.dropAccess sn).ctx = s.ctx := rfl
@[simp] theorem State.dropAccess_inputs (s : State) (sn : Nat) :
    (s.dropAccess sn).inputs = s.inputs := rfl
@[simp] theorem State.dropAccess_sn (s : State) (sn : Nat) :
    (s.dropAccess sn).sn = s.sn := rfl
@[simp] theorem State.dropAccess_cycle (s : State) (sn : Nat) :
    (s.dropAccess sn).cycle = s.cycle := rfl
@[simp] theorem State.dropAccess_free (s : State) (sn : Nat) :
    (s.dropAccess sn).free = s.free := rfl
@[simp] theorem State.dropAccess_lastGang (s : State) (sn : Nat) :
    (s.dropAccess sn).lastGang = s.lastGang := rfl
@[simp] theorem State.dropAccess_dueQueue (s : State) (sn : Nat) :
    (s.dropAccess sn).dueQueue = s.dueQueue := rfl
@[simp] theorem State.dropAccess_rewritten (s : State) (sn : Nat) :
    (s.dropAccess sn).rewritten = s.rewritten := rfl
@[simp] theorem State.dropAccess_tickets (s : State) (sn : Nat) :
    (s.dropAccess sn).tickets = s.tickets := rfl

/-! ## State.onTransfer -/

@[simp] theorem State.onTransfer_mem (s : State) (x : Word) (f : Transfer → Transfer) :
    (s.onTransfer x f).mem = s.mem := rfl
@[simp] theorem State.onTransfer_poison (s : State) (x : Word) (f : Transfer → Transfer) :
    (s.onTransfer x f).poison = s.poison := rfl
@[simp] theorem State.onTransfer_clk (s : State) (x : Word) (f : Transfer → Transfer) :
    (s.onTransfer x f).clk = s.clk := rfl
@[simp] theorem State.onTransfer_podIndex (s : State) (x : Word) (f : Transfer → Transfer) :
    (s.onTransfer x f).podIndex = s.podIndex := rfl
@[simp] theorem State.onTransfer_gangs (s : State) (x : Word) (f : Transfer → Transfer) :
    (s.onTransfer x f).gangs = s.gangs := rfl
@[simp] theorem State.onTransfer_teams (s : State) (x : Word) (f : Transfer → Transfer) :
    (s.onTransfer x f).teams = s.teams := rfl
@[simp] theorem State.onTransfer_handles (s : State) (x : Word) (f : Transfer → Transfer) :
    (s.onTransfer x f).handles = s.handles := rfl
@[simp] theorem State.onTransfer_sync (s : State) (x : Word) (f : Transfer → Transfer) :
    (s.onTransfer x f).sync = s.sync := rfl
@[simp] theorem State.onTransfer_front (s : State) (x : Word) (f : Transfer → Transfer) :
    (s.onTransfer x f).front = s.front := rfl
@[simp] theorem State.onTransfer_spawns (s : State) (x : Word) (f : Transfer → Transfer) :
    (s.onTransfer x f).spawns = s.spawns := rfl
@[simp] theorem State.onTransfer_accesses (s : State) (x : Word) (f : Transfer → Transfer) :
    (s.onTransfer x f).accesses = s.accesses := rfl
@[simp] theorem State.onTransfer_pending (s : State) (x : Word) (f : Transfer → Transfer) :
    (s.onTransfer x f).pending = s.pending := rfl
@[simp] theorem State.onTransfer_posts (s : State) (x : Word) (f : Transfer → Transfer) :
    (s.onTransfer x f).posts = s.posts := rfl
@[simp] theorem State.onTransfer_matOps (s : State) (x : Word) (f : Transfer → Transfer) :
    (s.onTransfer x f).matOps = s.matOps := rfl
@[simp] theorem State.onTransfer_scaleLoads (s : State) (x : Word) (f : Transfer → Transfer) :
    (s.onTransfer x f).scaleLoads = s.scaleLoads := rfl
@[simp] theorem State.onTransfer_scaleRegs (s : State) (x : Word) (f : Transfer → Transfer) :
    (s.onTransfer x f).scaleRegs = s.scaleRegs := rfl
@[simp] theorem State.onTransfer_arrayNext (s : State) (x : Word) (f : Transfer → Transfer) :
    (s.onTransfer x f).arrayNext = s.arrayNext := rfl
@[simp] theorem State.onTransfer_retained (s : State) (x : Word) (f : Transfer → Transfer) :
    (s.onTransfer x f).retained = s.retained := rfl
@[simp] theorem State.onTransfer_aacqQueue (s : State) (x : Word) (f : Transfer → Transfer) :
    (s.onTransfer x f).aacqQueue = s.aacqQueue := rfl
@[simp] theorem State.onTransfer_l1 (s : State) (x : Word) (f : Transfer → Transfer) :
    (s.onTransfer x f).l1 = s.l1 := rfl
@[simp] theorem State.onTransfer_fused (s : State) (x : Word) (f : Transfer → Transfer) :
    (s.onTransfer x f).fused = s.fused := rfl
@[simp] theorem State.onTransfer_tlb (s : State) (x : Word) (f : Transfer → Transfer) :
    (s.onTransfer x f).tlb = s.tlb := rfl
@[simp] theorem State.onTransfer_zeroing (s : State) (x : Word) (f : Transfer → Transfer) :
    (s.onTransfer x f).zeroing = s.zeroing := rfl
@[simp] theorem State.onTransfer_watches (s : State) (x : Word) (f : Transfer → Transfer) :
    (s.onTransfer x f).watches = s.watches := rfl
@[simp] theorem State.onTransfer_watchSeq (s : State) (x : Word) (f : Transfer → Transfer) :
    (s.onTransfer x f).watchSeq = s.watchSeq := rfl
@[simp] theorem State.onTransfer_tokens (s : State) (x : Word) (f : Transfer → Transfer) :
    (s.onTransfer x f).tokens = s.tokens := rfl
@[simp] theorem State.onTransfer_xacqQueue (s : State) (x : Word) (f : Transfer → Transfer) :
    (s.onTransfer x f).xacqQueue = s.xacqQueue := rfl
@[simp] theorem State.onTransfer_axbQueue (s : State) (x : Word) (f : Transfer → Transfer) :
    (s.onTransfer x f).axbQueue = s.axbQueue := rfl
@[simp] theorem State.onTransfer_exclQueue (s : State) (x : Word) (f : Transfer → Transfer) :
    (s.onTransfer x f).exclQueue = s.exclQueue := rfl
@[simp] theorem State.onTransfer_exclusive (s : State) (x : Word) (f : Transfer → Transfer) :
    (s.onTransfer x f).exclusive = s.exclusive := rfl
@[simp] theorem State.onTransfer_commits (s : State) (x : Word) (f : Transfer → Transfer) :
    (s.onTransfer x f).commits = s.commits := rfl
@[simp] theorem State.onTransfer_owed (s : State) (x : Word) (f : Transfer → Transfer) :
    (s.onTransfer x f).owed = s.owed := rfl
@[simp] theorem State.onTransfer_copies (s : State) (x : Word) (f : Transfer → Transfer) :
    (s.onTransfer x f).copies = s.copies := rfl
@[simp] theorem State.onTransfer_commands (s : State) (x : Word) (f : Transfer → Transfer) :
    (s.onTransfer x f).commands = s.commands := rfl
@[simp] theorem State.onTransfer_transfers (s : State) (x : Word) (f : Transfer → Transfer) :
    (s.onTransfer x f).transfers = s.transfers.map fun t => if t.xfer = x then f t else t := rfl
@[simp] theorem State.onTransfer_runs (s : State) (x : Word) (f : Transfer → Transfer) :
    (s.onTransfer x f).runs = s.runs := rfl
@[simp] theorem State.onTransfer_faults (s : State) (x : Word) (f : Transfer → Transfer) :
    (s.onTransfer x f).faults = s.faults := rfl
@[simp] theorem State.onTransfer_health (s : State) (x : Word) (f : Transfer → Transfer) :
    (s.onTransfer x f).health = s.health := rfl
@[simp] theorem State.onTransfer_invals (s : State) (x : Word) (f : Transfer → Transfer) :
    (s.onTransfer x f).invals = s.invals := rfl
@[simp] theorem State.onTransfer_invalWait (s : State) (x : Word) (f : Transfer → Transfer) :
    (s.onTransfer x f).invalWait = s.invalWait := rfl
@[simp] theorem State.onTransfer_care (s : State) (x : Word) (f : Transfer → Transfer) :
    (s.onTransfer x f).care = s.care := rfl
@[simp] theorem State.onTransfer_fabric (s : State) (x : Word) (f : Transfer → Transfer) :
    (s.onTransfer x f).fabric = s.fabric := rfl
@[simp] theorem State.onTransfer_coll (s : State) (x : Word) (f : Transfer → Transfer) :
    (s.onTransfer x f).coll = s.coll := rfl
@[simp] theorem State.onTransfer_spawnIdNext (s : State) (x : Word) (f : Transfer → Transfer) :
    (s.onTransfer x f).spawnIdNext = s.spawnIdNext := rfl
@[simp] theorem State.onTransfer_ctxBase (s : State) (x : Word) (f : Transfer → Transfer) :
    (s.onTransfer x f).ctxBase = s.ctxBase := rfl
@[simp] theorem State.onTransfer_qcbBase (s : State) (x : Word) (f : Transfer → Transfer) :
    (s.onTransfer x f).qcbBase = s.qcbBase := rfl
@[simp] theorem State.onTransfer_queueAclBase (s : State) (x : Word) (f : Transfer → Transfer) :
    (s.onTransfer x f).queueAclBase = s.queueAclBase := rfl
@[simp] theorem State.onTransfer_aclBases (s : State) (x : Word) (f : Transfer → Transfer) :
    (s.onTransfer x f).aclBases = s.aclBases := rfl
@[simp] theorem State.onTransfer_mirror (s : State) (x : Word) (f : Transfer → Transfer) :
    (s.onTransfer x f).mirror = s.mirror := rfl
@[simp] theorem State.onTransfer_rebuilding (s : State) (x : Word) (f : Transfer → Transfer) :
    (s.onTransfer x f).rebuilding = s.rebuilding := rfl
@[simp] theorem State.onTransfer_resolvePort (s : State) (x : Word) (f : Transfer → Transfer) :
    (s.onTransfer x f).resolvePort = s.resolvePort := rfl
@[simp] theorem State.onTransfer_faultVa (s : State) (x : Word) (f : Transfer → Transfer) :
    (s.onTransfer x f).faultVa = s.faultVa := rfl
@[simp] theorem State.onTransfer_ctx (s : State) (x : Word) (f : Transfer → Transfer) :
    (s.onTransfer x f).ctx = s.ctx := rfl
@[simp] theorem State.onTransfer_inputs (s : State) (x : Word) (f : Transfer → Transfer) :
    (s.onTransfer x f).inputs = s.inputs := rfl
@[simp] theorem State.onTransfer_sn (s : State) (x : Word) (f : Transfer → Transfer) :
    (s.onTransfer x f).sn = s.sn := rfl
@[simp] theorem State.onTransfer_cycle (s : State) (x : Word) (f : Transfer → Transfer) :
    (s.onTransfer x f).cycle = s.cycle := rfl
@[simp] theorem State.onTransfer_free (s : State) (x : Word) (f : Transfer → Transfer) :
    (s.onTransfer x f).free = s.free := rfl
@[simp] theorem State.onTransfer_lastGang (s : State) (x : Word) (f : Transfer → Transfer) :
    (s.onTransfer x f).lastGang = s.lastGang := rfl
@[simp] theorem State.onTransfer_dueQueue (s : State) (x : Word) (f : Transfer → Transfer) :
    (s.onTransfer x f).dueQueue = s.dueQueue := rfl
@[simp] theorem State.onTransfer_rewritten (s : State) (x : Word) (f : Transfer → Transfer) :
    (s.onTransfer x f).rewritten = s.rewritten := rfl
@[simp] theorem State.onTransfer_tickets (s : State) (x : Word) (f : Transfer → Transfer) :
    (s.onTransfer x f).tickets = s.tickets := rfl

/-! ## State.dropTransfer -/

@[simp] theorem State.dropTransfer_mem (s : State) (x : Word) :
    (s.dropTransfer x).mem = s.mem := rfl
@[simp] theorem State.dropTransfer_poison (s : State) (x : Word) :
    (s.dropTransfer x).poison = s.poison := rfl
@[simp] theorem State.dropTransfer_clk (s : State) (x : Word) :
    (s.dropTransfer x).clk = s.clk := rfl
@[simp] theorem State.dropTransfer_podIndex (s : State) (x : Word) :
    (s.dropTransfer x).podIndex = s.podIndex := rfl
@[simp] theorem State.dropTransfer_gangs (s : State) (x : Word) :
    (s.dropTransfer x).gangs = s.gangs := rfl
@[simp] theorem State.dropTransfer_teams (s : State) (x : Word) :
    (s.dropTransfer x).teams = s.teams := rfl
@[simp] theorem State.dropTransfer_handles (s : State) (x : Word) :
    (s.dropTransfer x).handles = s.handles := rfl
@[simp] theorem State.dropTransfer_sync (s : State) (x : Word) :
    (s.dropTransfer x).sync = s.sync := rfl
@[simp] theorem State.dropTransfer_front (s : State) (x : Word) :
    (s.dropTransfer x).front = s.front := rfl
@[simp] theorem State.dropTransfer_spawns (s : State) (x : Word) :
    (s.dropTransfer x).spawns = s.spawns := rfl
@[simp] theorem State.dropTransfer_accesses (s : State) (x : Word) :
    (s.dropTransfer x).accesses = s.accesses := rfl
@[simp] theorem State.dropTransfer_pending (s : State) (x : Word) :
    (s.dropTransfer x).pending = s.pending := rfl
@[simp] theorem State.dropTransfer_posts (s : State) (x : Word) :
    (s.dropTransfer x).posts = s.posts := rfl
@[simp] theorem State.dropTransfer_matOps (s : State) (x : Word) :
    (s.dropTransfer x).matOps = s.matOps := rfl
@[simp] theorem State.dropTransfer_scaleLoads (s : State) (x : Word) :
    (s.dropTransfer x).scaleLoads = s.scaleLoads := rfl
@[simp] theorem State.dropTransfer_scaleRegs (s : State) (x : Word) :
    (s.dropTransfer x).scaleRegs = s.scaleRegs := rfl
@[simp] theorem State.dropTransfer_arrayNext (s : State) (x : Word) :
    (s.dropTransfer x).arrayNext = s.arrayNext := rfl
@[simp] theorem State.dropTransfer_retained (s : State) (x : Word) :
    (s.dropTransfer x).retained = s.retained := rfl
@[simp] theorem State.dropTransfer_aacqQueue (s : State) (x : Word) :
    (s.dropTransfer x).aacqQueue = s.aacqQueue := rfl
@[simp] theorem State.dropTransfer_l1 (s : State) (x : Word) :
    (s.dropTransfer x).l1 = s.l1 := rfl
@[simp] theorem State.dropTransfer_fused (s : State) (x : Word) :
    (s.dropTransfer x).fused = s.fused := rfl
@[simp] theorem State.dropTransfer_tlb (s : State) (x : Word) :
    (s.dropTransfer x).tlb = s.tlb := rfl
@[simp] theorem State.dropTransfer_zeroing (s : State) (x : Word) :
    (s.dropTransfer x).zeroing = s.zeroing := rfl
@[simp] theorem State.dropTransfer_watches (s : State) (x : Word) :
    (s.dropTransfer x).watches = s.watches := rfl
@[simp] theorem State.dropTransfer_watchSeq (s : State) (x : Word) :
    (s.dropTransfer x).watchSeq = s.watchSeq := rfl
@[simp] theorem State.dropTransfer_tokens (s : State) (x : Word) :
    (s.dropTransfer x).tokens = s.tokens := rfl
@[simp] theorem State.dropTransfer_xacqQueue (s : State) (x : Word) :
    (s.dropTransfer x).xacqQueue = s.xacqQueue := rfl
@[simp] theorem State.dropTransfer_axbQueue (s : State) (x : Word) :
    (s.dropTransfer x).axbQueue = s.axbQueue := rfl
@[simp] theorem State.dropTransfer_exclQueue (s : State) (x : Word) :
    (s.dropTransfer x).exclQueue = s.exclQueue := rfl
@[simp] theorem State.dropTransfer_exclusive (s : State) (x : Word) :
    (s.dropTransfer x).exclusive = s.exclusive := rfl
@[simp] theorem State.dropTransfer_commits (s : State) (x : Word) :
    (s.dropTransfer x).commits = s.commits := rfl
@[simp] theorem State.dropTransfer_owed (s : State) (x : Word) :
    (s.dropTransfer x).owed = s.owed := rfl
@[simp] theorem State.dropTransfer_copies (s : State) (x : Word) :
    (s.dropTransfer x).copies = s.copies := rfl
@[simp] theorem State.dropTransfer_commands (s : State) (x : Word) :
    (s.dropTransfer x).commands = s.commands := rfl
@[simp] theorem State.dropTransfer_transfers (s : State) (x : Word) :
    (s.dropTransfer x).transfers = s.transfers.filter (·.xfer != x) := rfl
@[simp] theorem State.dropTransfer_runs (s : State) (x : Word) :
    (s.dropTransfer x).runs = s.runs := rfl
@[simp] theorem State.dropTransfer_faults (s : State) (x : Word) :
    (s.dropTransfer x).faults = s.faults := rfl
@[simp] theorem State.dropTransfer_health (s : State) (x : Word) :
    (s.dropTransfer x).health = s.health := rfl
@[simp] theorem State.dropTransfer_invals (s : State) (x : Word) :
    (s.dropTransfer x).invals = s.invals := rfl
@[simp] theorem State.dropTransfer_invalWait (s : State) (x : Word) :
    (s.dropTransfer x).invalWait = s.invalWait := rfl
@[simp] theorem State.dropTransfer_care (s : State) (x : Word) :
    (s.dropTransfer x).care = s.care := rfl
@[simp] theorem State.dropTransfer_fabric (s : State) (x : Word) :
    (s.dropTransfer x).fabric = s.fabric := rfl
@[simp] theorem State.dropTransfer_coll (s : State) (x : Word) :
    (s.dropTransfer x).coll = s.coll := rfl
@[simp] theorem State.dropTransfer_spawnIdNext (s : State) (x : Word) :
    (s.dropTransfer x).spawnIdNext = s.spawnIdNext := rfl
@[simp] theorem State.dropTransfer_ctxBase (s : State) (x : Word) :
    (s.dropTransfer x).ctxBase = s.ctxBase := rfl
@[simp] theorem State.dropTransfer_qcbBase (s : State) (x : Word) :
    (s.dropTransfer x).qcbBase = s.qcbBase := rfl
@[simp] theorem State.dropTransfer_queueAclBase (s : State) (x : Word) :
    (s.dropTransfer x).queueAclBase = s.queueAclBase := rfl
@[simp] theorem State.dropTransfer_aclBases (s : State) (x : Word) :
    (s.dropTransfer x).aclBases = s.aclBases := rfl
@[simp] theorem State.dropTransfer_mirror (s : State) (x : Word) :
    (s.dropTransfer x).mirror = s.mirror := rfl
@[simp] theorem State.dropTransfer_rebuilding (s : State) (x : Word) :
    (s.dropTransfer x).rebuilding = s.rebuilding := rfl
@[simp] theorem State.dropTransfer_resolvePort (s : State) (x : Word) :
    (s.dropTransfer x).resolvePort = s.resolvePort := rfl
@[simp] theorem State.dropTransfer_faultVa (s : State) (x : Word) :
    (s.dropTransfer x).faultVa = s.faultVa := rfl
@[simp] theorem State.dropTransfer_ctx (s : State) (x : Word) :
    (s.dropTransfer x).ctx = s.ctx := rfl
@[simp] theorem State.dropTransfer_inputs (s : State) (x : Word) :
    (s.dropTransfer x).inputs = s.inputs := rfl
@[simp] theorem State.dropTransfer_sn (s : State) (x : Word) :
    (s.dropTransfer x).sn = s.sn := rfl
@[simp] theorem State.dropTransfer_cycle (s : State) (x : Word) :
    (s.dropTransfer x).cycle = s.cycle := rfl
@[simp] theorem State.dropTransfer_free (s : State) (x : Word) :
    (s.dropTransfer x).free = s.free := rfl
@[simp] theorem State.dropTransfer_lastGang (s : State) (x : Word) :
    (s.dropTransfer x).lastGang = s.lastGang := rfl
@[simp] theorem State.dropTransfer_dueQueue (s : State) (x : Word) :
    (s.dropTransfer x).dueQueue = s.dueQueue := rfl
@[simp] theorem State.dropTransfer_rewritten (s : State) (x : Word) :
    (s.dropTransfer x).rewritten = s.rewritten := rfl
@[simp] theorem State.dropTransfer_tickets (s : State) (x : Word) :
    (s.dropTransfer x).tickets = s.tickets := rfl

/-! ## State.putLink -/

@[simp] theorem State.putLink_mem (s : State) (l : Nat) (x : LinkSt) :
    (s.putLink l x).mem = s.mem := rfl
@[simp] theorem State.putLink_poison (s : State) (l : Nat) (x : LinkSt) :
    (s.putLink l x).poison = s.poison := rfl
@[simp] theorem State.putLink_clk (s : State) (l : Nat) (x : LinkSt) :
    (s.putLink l x).clk = s.clk := rfl
@[simp] theorem State.putLink_podIndex (s : State) (l : Nat) (x : LinkSt) :
    (s.putLink l x).podIndex = s.podIndex := rfl
@[simp] theorem State.putLink_gangs (s : State) (l : Nat) (x : LinkSt) :
    (s.putLink l x).gangs = s.gangs := rfl
@[simp] theorem State.putLink_teams (s : State) (l : Nat) (x : LinkSt) :
    (s.putLink l x).teams = s.teams := rfl
@[simp] theorem State.putLink_handles (s : State) (l : Nat) (x : LinkSt) :
    (s.putLink l x).handles = s.handles := rfl
@[simp] theorem State.putLink_sync (s : State) (l : Nat) (x : LinkSt) :
    (s.putLink l x).sync = s.sync := rfl
@[simp] theorem State.putLink_front (s : State) (l : Nat) (x : LinkSt) :
    (s.putLink l x).front = s.front := rfl
@[simp] theorem State.putLink_spawns (s : State) (l : Nat) (x : LinkSt) :
    (s.putLink l x).spawns = s.spawns := rfl
@[simp] theorem State.putLink_accesses (s : State) (l : Nat) (x : LinkSt) :
    (s.putLink l x).accesses = s.accesses := rfl
@[simp] theorem State.putLink_pending (s : State) (l : Nat) (x : LinkSt) :
    (s.putLink l x).pending = s.pending := rfl
@[simp] theorem State.putLink_posts (s : State) (l : Nat) (x : LinkSt) :
    (s.putLink l x).posts = s.posts := rfl
@[simp] theorem State.putLink_matOps (s : State) (l : Nat) (x : LinkSt) :
    (s.putLink l x).matOps = s.matOps := rfl
@[simp] theorem State.putLink_scaleLoads (s : State) (l : Nat) (x : LinkSt) :
    (s.putLink l x).scaleLoads = s.scaleLoads := rfl
@[simp] theorem State.putLink_scaleRegs (s : State) (l : Nat) (x : LinkSt) :
    (s.putLink l x).scaleRegs = s.scaleRegs := rfl
@[simp] theorem State.putLink_arrayNext (s : State) (l : Nat) (x : LinkSt) :
    (s.putLink l x).arrayNext = s.arrayNext := rfl
@[simp] theorem State.putLink_retained (s : State) (l : Nat) (x : LinkSt) :
    (s.putLink l x).retained = s.retained := rfl
@[simp] theorem State.putLink_aacqQueue (s : State) (l : Nat) (x : LinkSt) :
    (s.putLink l x).aacqQueue = s.aacqQueue := rfl
@[simp] theorem State.putLink_l1 (s : State) (l : Nat) (x : LinkSt) :
    (s.putLink l x).l1 = s.l1 := rfl
@[simp] theorem State.putLink_fused (s : State) (l : Nat) (x : LinkSt) :
    (s.putLink l x).fused = s.fused := rfl
@[simp] theorem State.putLink_tlb (s : State) (l : Nat) (x : LinkSt) :
    (s.putLink l x).tlb = s.tlb := rfl
@[simp] theorem State.putLink_zeroing (s : State) (l : Nat) (x : LinkSt) :
    (s.putLink l x).zeroing = s.zeroing := rfl
@[simp] theorem State.putLink_watches (s : State) (l : Nat) (x : LinkSt) :
    (s.putLink l x).watches = s.watches := rfl
@[simp] theorem State.putLink_watchSeq (s : State) (l : Nat) (x : LinkSt) :
    (s.putLink l x).watchSeq = s.watchSeq := rfl
@[simp] theorem State.putLink_tokens (s : State) (l : Nat) (x : LinkSt) :
    (s.putLink l x).tokens = s.tokens := rfl
@[simp] theorem State.putLink_xacqQueue (s : State) (l : Nat) (x : LinkSt) :
    (s.putLink l x).xacqQueue = s.xacqQueue := rfl
@[simp] theorem State.putLink_axbQueue (s : State) (l : Nat) (x : LinkSt) :
    (s.putLink l x).axbQueue = s.axbQueue := rfl
@[simp] theorem State.putLink_exclQueue (s : State) (l : Nat) (x : LinkSt) :
    (s.putLink l x).exclQueue = s.exclQueue := rfl
@[simp] theorem State.putLink_exclusive (s : State) (l : Nat) (x : LinkSt) :
    (s.putLink l x).exclusive = s.exclusive := rfl
@[simp] theorem State.putLink_commits (s : State) (l : Nat) (x : LinkSt) :
    (s.putLink l x).commits = s.commits := rfl
@[simp] theorem State.putLink_owed (s : State) (l : Nat) (x : LinkSt) :
    (s.putLink l x).owed = s.owed := rfl
@[simp] theorem State.putLink_copies (s : State) (l : Nat) (x : LinkSt) :
    (s.putLink l x).copies = s.copies := rfl
@[simp] theorem State.putLink_commands (s : State) (l : Nat) (x : LinkSt) :
    (s.putLink l x).commands = s.commands := rfl
@[simp] theorem State.putLink_transfers (s : State) (l : Nat) (x : LinkSt) :
    (s.putLink l x).transfers = s.transfers := rfl
@[simp] theorem State.putLink_runs (s : State) (l : Nat) (x : LinkSt) :
    (s.putLink l x).runs = s.runs := rfl
@[simp] theorem State.putLink_faults (s : State) (l : Nat) (x : LinkSt) :
    (s.putLink l x).faults = s.faults := rfl
@[simp] theorem State.putLink_health (s : State) (l : Nat) (x : LinkSt) :
    (s.putLink l x).health = s.health := rfl
@[simp] theorem State.putLink_invals (s : State) (l : Nat) (x : LinkSt) :
    (s.putLink l x).invals = s.invals := rfl
@[simp] theorem State.putLink_invalWait (s : State) (l : Nat) (x : LinkSt) :
    (s.putLink l x).invalWait = s.invalWait := rfl
@[simp] theorem State.putLink_care (s : State) (l : Nat) (x : LinkSt) :
    (s.putLink l x).care = s.care := rfl
@[simp] theorem State.putLink_fabric (s : State) (l : Nat) (x : LinkSt) :
    (s.putLink l x).fabric = { s.fabric with links := s.fabric.links.put l x } := rfl
@[simp] theorem State.putLink_coll (s : State) (l : Nat) (x : LinkSt) :
    (s.putLink l x).coll = s.coll := rfl
@[simp] theorem State.putLink_spawnIdNext (s : State) (l : Nat) (x : LinkSt) :
    (s.putLink l x).spawnIdNext = s.spawnIdNext := rfl
@[simp] theorem State.putLink_ctxBase (s : State) (l : Nat) (x : LinkSt) :
    (s.putLink l x).ctxBase = s.ctxBase := rfl
@[simp] theorem State.putLink_qcbBase (s : State) (l : Nat) (x : LinkSt) :
    (s.putLink l x).qcbBase = s.qcbBase := rfl
@[simp] theorem State.putLink_queueAclBase (s : State) (l : Nat) (x : LinkSt) :
    (s.putLink l x).queueAclBase = s.queueAclBase := rfl
@[simp] theorem State.putLink_aclBases (s : State) (l : Nat) (x : LinkSt) :
    (s.putLink l x).aclBases = s.aclBases := rfl
@[simp] theorem State.putLink_mirror (s : State) (l : Nat) (x : LinkSt) :
    (s.putLink l x).mirror = s.mirror := rfl
@[simp] theorem State.putLink_rebuilding (s : State) (l : Nat) (x : LinkSt) :
    (s.putLink l x).rebuilding = s.rebuilding := rfl
@[simp] theorem State.putLink_resolvePort (s : State) (l : Nat) (x : LinkSt) :
    (s.putLink l x).resolvePort = s.resolvePort := rfl
@[simp] theorem State.putLink_faultVa (s : State) (l : Nat) (x : LinkSt) :
    (s.putLink l x).faultVa = s.faultVa := rfl
@[simp] theorem State.putLink_ctx (s : State) (l : Nat) (x : LinkSt) :
    (s.putLink l x).ctx = s.ctx := rfl
@[simp] theorem State.putLink_inputs (s : State) (l : Nat) (x : LinkSt) :
    (s.putLink l x).inputs = s.inputs := rfl
@[simp] theorem State.putLink_sn (s : State) (l : Nat) (x : LinkSt) :
    (s.putLink l x).sn = s.sn := rfl
@[simp] theorem State.putLink_cycle (s : State) (l : Nat) (x : LinkSt) :
    (s.putLink l x).cycle = s.cycle := rfl
@[simp] theorem State.putLink_free (s : State) (l : Nat) (x : LinkSt) :
    (s.putLink l x).free = s.free := rfl
@[simp] theorem State.putLink_lastGang (s : State) (l : Nat) (x : LinkSt) :
    (s.putLink l x).lastGang = s.lastGang := rfl
@[simp] theorem State.putLink_dueQueue (s : State) (l : Nat) (x : LinkSt) :
    (s.putLink l x).dueQueue = s.dueQueue := rfl
@[simp] theorem State.putLink_rewritten (s : State) (l : Nat) (x : LinkSt) :
    (s.putLink l x).rewritten = s.rewritten := rfl
@[simp] theorem State.putLink_tickets (s : State) (l : Nat) (x : LinkSt) :
    (s.putLink l x).tickets = s.tickets := rfl

/-! ## State.putBundle -/

@[simp] theorem State.putBundle_mem (s : State) (l k : Nat) (x : BundleSt) :
    (s.putBundle l k x).mem = s.mem := rfl
@[simp] theorem State.putBundle_poison (s : State) (l k : Nat) (x : BundleSt) :
    (s.putBundle l k x).poison = s.poison := rfl
@[simp] theorem State.putBundle_clk (s : State) (l k : Nat) (x : BundleSt) :
    (s.putBundle l k x).clk = s.clk := rfl
@[simp] theorem State.putBundle_podIndex (s : State) (l k : Nat) (x : BundleSt) :
    (s.putBundle l k x).podIndex = s.podIndex := rfl
@[simp] theorem State.putBundle_gangs (s : State) (l k : Nat) (x : BundleSt) :
    (s.putBundle l k x).gangs = s.gangs := rfl
@[simp] theorem State.putBundle_teams (s : State) (l k : Nat) (x : BundleSt) :
    (s.putBundle l k x).teams = s.teams := rfl
@[simp] theorem State.putBundle_handles (s : State) (l k : Nat) (x : BundleSt) :
    (s.putBundle l k x).handles = s.handles := rfl
@[simp] theorem State.putBundle_sync (s : State) (l k : Nat) (x : BundleSt) :
    (s.putBundle l k x).sync = s.sync := rfl
@[simp] theorem State.putBundle_front (s : State) (l k : Nat) (x : BundleSt) :
    (s.putBundle l k x).front = s.front := rfl
@[simp] theorem State.putBundle_spawns (s : State) (l k : Nat) (x : BundleSt) :
    (s.putBundle l k x).spawns = s.spawns := rfl
@[simp] theorem State.putBundle_accesses (s : State) (l k : Nat) (x : BundleSt) :
    (s.putBundle l k x).accesses = s.accesses := rfl
@[simp] theorem State.putBundle_pending (s : State) (l k : Nat) (x : BundleSt) :
    (s.putBundle l k x).pending = s.pending := rfl
@[simp] theorem State.putBundle_posts (s : State) (l k : Nat) (x : BundleSt) :
    (s.putBundle l k x).posts = s.posts := rfl
@[simp] theorem State.putBundle_matOps (s : State) (l k : Nat) (x : BundleSt) :
    (s.putBundle l k x).matOps = s.matOps := rfl
@[simp] theorem State.putBundle_scaleLoads (s : State) (l k : Nat) (x : BundleSt) :
    (s.putBundle l k x).scaleLoads = s.scaleLoads := rfl
@[simp] theorem State.putBundle_scaleRegs (s : State) (l k : Nat) (x : BundleSt) :
    (s.putBundle l k x).scaleRegs = s.scaleRegs := rfl
@[simp] theorem State.putBundle_arrayNext (s : State) (l k : Nat) (x : BundleSt) :
    (s.putBundle l k x).arrayNext = s.arrayNext := rfl
@[simp] theorem State.putBundle_retained (s : State) (l k : Nat) (x : BundleSt) :
    (s.putBundle l k x).retained = s.retained := rfl
@[simp] theorem State.putBundle_aacqQueue (s : State) (l k : Nat) (x : BundleSt) :
    (s.putBundle l k x).aacqQueue = s.aacqQueue := rfl
@[simp] theorem State.putBundle_l1 (s : State) (l k : Nat) (x : BundleSt) :
    (s.putBundle l k x).l1 = s.l1 := rfl
@[simp] theorem State.putBundle_fused (s : State) (l k : Nat) (x : BundleSt) :
    (s.putBundle l k x).fused = s.fused := rfl
@[simp] theorem State.putBundle_tlb (s : State) (l k : Nat) (x : BundleSt) :
    (s.putBundle l k x).tlb = s.tlb := rfl
@[simp] theorem State.putBundle_zeroing (s : State) (l k : Nat) (x : BundleSt) :
    (s.putBundle l k x).zeroing = s.zeroing := rfl
@[simp] theorem State.putBundle_watches (s : State) (l k : Nat) (x : BundleSt) :
    (s.putBundle l k x).watches = s.watches := rfl
@[simp] theorem State.putBundle_watchSeq (s : State) (l k : Nat) (x : BundleSt) :
    (s.putBundle l k x).watchSeq = s.watchSeq := rfl
@[simp] theorem State.putBundle_tokens (s : State) (l k : Nat) (x : BundleSt) :
    (s.putBundle l k x).tokens = s.tokens := rfl
@[simp] theorem State.putBundle_xacqQueue (s : State) (l k : Nat) (x : BundleSt) :
    (s.putBundle l k x).xacqQueue = s.xacqQueue := rfl
@[simp] theorem State.putBundle_axbQueue (s : State) (l k : Nat) (x : BundleSt) :
    (s.putBundle l k x).axbQueue = s.axbQueue := rfl
@[simp] theorem State.putBundle_exclQueue (s : State) (l k : Nat) (x : BundleSt) :
    (s.putBundle l k x).exclQueue = s.exclQueue := rfl
@[simp] theorem State.putBundle_exclusive (s : State) (l k : Nat) (x : BundleSt) :
    (s.putBundle l k x).exclusive = s.exclusive := rfl
@[simp] theorem State.putBundle_commits (s : State) (l k : Nat) (x : BundleSt) :
    (s.putBundle l k x).commits = s.commits := rfl
@[simp] theorem State.putBundle_owed (s : State) (l k : Nat) (x : BundleSt) :
    (s.putBundle l k x).owed = s.owed := rfl
@[simp] theorem State.putBundle_copies (s : State) (l k : Nat) (x : BundleSt) :
    (s.putBundle l k x).copies = s.copies := rfl
@[simp] theorem State.putBundle_commands (s : State) (l k : Nat) (x : BundleSt) :
    (s.putBundle l k x).commands = s.commands := rfl
@[simp] theorem State.putBundle_transfers (s : State) (l k : Nat) (x : BundleSt) :
    (s.putBundle l k x).transfers = s.transfers := rfl
@[simp] theorem State.putBundle_runs (s : State) (l k : Nat) (x : BundleSt) :
    (s.putBundle l k x).runs = s.runs := rfl
@[simp] theorem State.putBundle_faults (s : State) (l k : Nat) (x : BundleSt) :
    (s.putBundle l k x).faults = s.faults := rfl
@[simp] theorem State.putBundle_health (s : State) (l k : Nat) (x : BundleSt) :
    (s.putBundle l k x).health = s.health := rfl
@[simp] theorem State.putBundle_invals (s : State) (l k : Nat) (x : BundleSt) :
    (s.putBundle l k x).invals = s.invals := rfl
@[simp] theorem State.putBundle_invalWait (s : State) (l k : Nat) (x : BundleSt) :
    (s.putBundle l k x).invalWait = s.invalWait := rfl
@[simp] theorem State.putBundle_care (s : State) (l k : Nat) (x : BundleSt) :
    (s.putBundle l k x).care = s.care := rfl
@[simp] theorem State.putBundle_fabric (s : State) (l k : Nat) (x : BundleSt) :
    (s.putBundle l k x).fabric = { s.fabric with bundles := s.fabric.bundles.put (l * 16 + k) x } := rfl
@[simp] theorem State.putBundle_coll (s : State) (l k : Nat) (x : BundleSt) :
    (s.putBundle l k x).coll = s.coll := rfl
@[simp] theorem State.putBundle_spawnIdNext (s : State) (l k : Nat) (x : BundleSt) :
    (s.putBundle l k x).spawnIdNext = s.spawnIdNext := rfl
@[simp] theorem State.putBundle_ctxBase (s : State) (l k : Nat) (x : BundleSt) :
    (s.putBundle l k x).ctxBase = s.ctxBase := rfl
@[simp] theorem State.putBundle_qcbBase (s : State) (l k : Nat) (x : BundleSt) :
    (s.putBundle l k x).qcbBase = s.qcbBase := rfl
@[simp] theorem State.putBundle_queueAclBase (s : State) (l k : Nat) (x : BundleSt) :
    (s.putBundle l k x).queueAclBase = s.queueAclBase := rfl
@[simp] theorem State.putBundle_aclBases (s : State) (l k : Nat) (x : BundleSt) :
    (s.putBundle l k x).aclBases = s.aclBases := rfl
@[simp] theorem State.putBundle_mirror (s : State) (l k : Nat) (x : BundleSt) :
    (s.putBundle l k x).mirror = s.mirror := rfl
@[simp] theorem State.putBundle_rebuilding (s : State) (l k : Nat) (x : BundleSt) :
    (s.putBundle l k x).rebuilding = s.rebuilding := rfl
@[simp] theorem State.putBundle_resolvePort (s : State) (l k : Nat) (x : BundleSt) :
    (s.putBundle l k x).resolvePort = s.resolvePort := rfl
@[simp] theorem State.putBundle_faultVa (s : State) (l k : Nat) (x : BundleSt) :
    (s.putBundle l k x).faultVa = s.faultVa := rfl
@[simp] theorem State.putBundle_ctx (s : State) (l k : Nat) (x : BundleSt) :
    (s.putBundle l k x).ctx = s.ctx := rfl
@[simp] theorem State.putBundle_inputs (s : State) (l k : Nat) (x : BundleSt) :
    (s.putBundle l k x).inputs = s.inputs := rfl
@[simp] theorem State.putBundle_sn (s : State) (l k : Nat) (x : BundleSt) :
    (s.putBundle l k x).sn = s.sn := rfl
@[simp] theorem State.putBundle_cycle (s : State) (l k : Nat) (x : BundleSt) :
    (s.putBundle l k x).cycle = s.cycle := rfl
@[simp] theorem State.putBundle_free (s : State) (l k : Nat) (x : BundleSt) :
    (s.putBundle l k x).free = s.free := rfl
@[simp] theorem State.putBundle_lastGang (s : State) (l k : Nat) (x : BundleSt) :
    (s.putBundle l k x).lastGang = s.lastGang := rfl
@[simp] theorem State.putBundle_dueQueue (s : State) (l k : Nat) (x : BundleSt) :
    (s.putBundle l k x).dueQueue = s.dueQueue := rfl
@[simp] theorem State.putBundle_rewritten (s : State) (l k : Nat) (x : BundleSt) :
    (s.putBundle l k x).rewritten = s.rewritten := rfl
@[simp] theorem State.putBundle_tickets (s : State) (l k : Nat) (x : BundleSt) :
    (s.putBundle l k x).tickets = s.tickets := rfl

/-! ## State.putCredit -/

@[simp] theorem State.putCredit_mem (s : State) (l sub : Nat) (x : Credit) :
    (s.putCredit l sub x).mem = s.mem := rfl
@[simp] theorem State.putCredit_poison (s : State) (l sub : Nat) (x : Credit) :
    (s.putCredit l sub x).poison = s.poison := rfl
@[simp] theorem State.putCredit_clk (s : State) (l sub : Nat) (x : Credit) :
    (s.putCredit l sub x).clk = s.clk := rfl
@[simp] theorem State.putCredit_podIndex (s : State) (l sub : Nat) (x : Credit) :
    (s.putCredit l sub x).podIndex = s.podIndex := rfl
@[simp] theorem State.putCredit_gangs (s : State) (l sub : Nat) (x : Credit) :
    (s.putCredit l sub x).gangs = s.gangs := rfl
@[simp] theorem State.putCredit_teams (s : State) (l sub : Nat) (x : Credit) :
    (s.putCredit l sub x).teams = s.teams := rfl
@[simp] theorem State.putCredit_handles (s : State) (l sub : Nat) (x : Credit) :
    (s.putCredit l sub x).handles = s.handles := rfl
@[simp] theorem State.putCredit_sync (s : State) (l sub : Nat) (x : Credit) :
    (s.putCredit l sub x).sync = s.sync := rfl
@[simp] theorem State.putCredit_front (s : State) (l sub : Nat) (x : Credit) :
    (s.putCredit l sub x).front = s.front := rfl
@[simp] theorem State.putCredit_spawns (s : State) (l sub : Nat) (x : Credit) :
    (s.putCredit l sub x).spawns = s.spawns := rfl
@[simp] theorem State.putCredit_accesses (s : State) (l sub : Nat) (x : Credit) :
    (s.putCredit l sub x).accesses = s.accesses := rfl
@[simp] theorem State.putCredit_pending (s : State) (l sub : Nat) (x : Credit) :
    (s.putCredit l sub x).pending = s.pending := rfl
@[simp] theorem State.putCredit_posts (s : State) (l sub : Nat) (x : Credit) :
    (s.putCredit l sub x).posts = s.posts := rfl
@[simp] theorem State.putCredit_matOps (s : State) (l sub : Nat) (x : Credit) :
    (s.putCredit l sub x).matOps = s.matOps := rfl
@[simp] theorem State.putCredit_scaleLoads (s : State) (l sub : Nat) (x : Credit) :
    (s.putCredit l sub x).scaleLoads = s.scaleLoads := rfl
@[simp] theorem State.putCredit_scaleRegs (s : State) (l sub : Nat) (x : Credit) :
    (s.putCredit l sub x).scaleRegs = s.scaleRegs := rfl
@[simp] theorem State.putCredit_arrayNext (s : State) (l sub : Nat) (x : Credit) :
    (s.putCredit l sub x).arrayNext = s.arrayNext := rfl
@[simp] theorem State.putCredit_retained (s : State) (l sub : Nat) (x : Credit) :
    (s.putCredit l sub x).retained = s.retained := rfl
@[simp] theorem State.putCredit_aacqQueue (s : State) (l sub : Nat) (x : Credit) :
    (s.putCredit l sub x).aacqQueue = s.aacqQueue := rfl
@[simp] theorem State.putCredit_l1 (s : State) (l sub : Nat) (x : Credit) :
    (s.putCredit l sub x).l1 = s.l1 := rfl
@[simp] theorem State.putCredit_fused (s : State) (l sub : Nat) (x : Credit) :
    (s.putCredit l sub x).fused = s.fused := rfl
@[simp] theorem State.putCredit_tlb (s : State) (l sub : Nat) (x : Credit) :
    (s.putCredit l sub x).tlb = s.tlb := rfl
@[simp] theorem State.putCredit_zeroing (s : State) (l sub : Nat) (x : Credit) :
    (s.putCredit l sub x).zeroing = s.zeroing := rfl
@[simp] theorem State.putCredit_watches (s : State) (l sub : Nat) (x : Credit) :
    (s.putCredit l sub x).watches = s.watches := rfl
@[simp] theorem State.putCredit_watchSeq (s : State) (l sub : Nat) (x : Credit) :
    (s.putCredit l sub x).watchSeq = s.watchSeq := rfl
@[simp] theorem State.putCredit_tokens (s : State) (l sub : Nat) (x : Credit) :
    (s.putCredit l sub x).tokens = s.tokens := rfl
@[simp] theorem State.putCredit_xacqQueue (s : State) (l sub : Nat) (x : Credit) :
    (s.putCredit l sub x).xacqQueue = s.xacqQueue := rfl
@[simp] theorem State.putCredit_axbQueue (s : State) (l sub : Nat) (x : Credit) :
    (s.putCredit l sub x).axbQueue = s.axbQueue := rfl
@[simp] theorem State.putCredit_exclQueue (s : State) (l sub : Nat) (x : Credit) :
    (s.putCredit l sub x).exclQueue = s.exclQueue := rfl
@[simp] theorem State.putCredit_exclusive (s : State) (l sub : Nat) (x : Credit) :
    (s.putCredit l sub x).exclusive = s.exclusive := rfl
@[simp] theorem State.putCredit_commits (s : State) (l sub : Nat) (x : Credit) :
    (s.putCredit l sub x).commits = s.commits := rfl
@[simp] theorem State.putCredit_owed (s : State) (l sub : Nat) (x : Credit) :
    (s.putCredit l sub x).owed = s.owed := rfl
@[simp] theorem State.putCredit_copies (s : State) (l sub : Nat) (x : Credit) :
    (s.putCredit l sub x).copies = s.copies := rfl
@[simp] theorem State.putCredit_commands (s : State) (l sub : Nat) (x : Credit) :
    (s.putCredit l sub x).commands = s.commands := rfl
@[simp] theorem State.putCredit_transfers (s : State) (l sub : Nat) (x : Credit) :
    (s.putCredit l sub x).transfers = s.transfers := rfl
@[simp] theorem State.putCredit_runs (s : State) (l sub : Nat) (x : Credit) :
    (s.putCredit l sub x).runs = s.runs := rfl
@[simp] theorem State.putCredit_faults (s : State) (l sub : Nat) (x : Credit) :
    (s.putCredit l sub x).faults = s.faults := rfl
@[simp] theorem State.putCredit_health (s : State) (l sub : Nat) (x : Credit) :
    (s.putCredit l sub x).health = s.health := rfl
@[simp] theorem State.putCredit_invals (s : State) (l sub : Nat) (x : Credit) :
    (s.putCredit l sub x).invals = s.invals := rfl
@[simp] theorem State.putCredit_invalWait (s : State) (l sub : Nat) (x : Credit) :
    (s.putCredit l sub x).invalWait = s.invalWait := rfl
@[simp] theorem State.putCredit_care (s : State) (l sub : Nat) (x : Credit) :
    (s.putCredit l sub x).care = s.care := rfl
@[simp] theorem State.putCredit_fabric (s : State) (l sub : Nat) (x : Credit) :
    (s.putCredit l sub x).fabric = { s.fabric with credits := s.fabric.credits.put (l * 64 + sub) x } := rfl
@[simp] theorem State.putCredit_coll (s : State) (l sub : Nat) (x : Credit) :
    (s.putCredit l sub x).coll = s.coll := rfl
@[simp] theorem State.putCredit_spawnIdNext (s : State) (l sub : Nat) (x : Credit) :
    (s.putCredit l sub x).spawnIdNext = s.spawnIdNext := rfl
@[simp] theorem State.putCredit_ctxBase (s : State) (l sub : Nat) (x : Credit) :
    (s.putCredit l sub x).ctxBase = s.ctxBase := rfl
@[simp] theorem State.putCredit_qcbBase (s : State) (l sub : Nat) (x : Credit) :
    (s.putCredit l sub x).qcbBase = s.qcbBase := rfl
@[simp] theorem State.putCredit_queueAclBase (s : State) (l sub : Nat) (x : Credit) :
    (s.putCredit l sub x).queueAclBase = s.queueAclBase := rfl
@[simp] theorem State.putCredit_aclBases (s : State) (l sub : Nat) (x : Credit) :
    (s.putCredit l sub x).aclBases = s.aclBases := rfl
@[simp] theorem State.putCredit_mirror (s : State) (l sub : Nat) (x : Credit) :
    (s.putCredit l sub x).mirror = s.mirror := rfl
@[simp] theorem State.putCredit_rebuilding (s : State) (l sub : Nat) (x : Credit) :
    (s.putCredit l sub x).rebuilding = s.rebuilding := rfl
@[simp] theorem State.putCredit_resolvePort (s : State) (l sub : Nat) (x : Credit) :
    (s.putCredit l sub x).resolvePort = s.resolvePort := rfl
@[simp] theorem State.putCredit_faultVa (s : State) (l sub : Nat) (x : Credit) :
    (s.putCredit l sub x).faultVa = s.faultVa := rfl
@[simp] theorem State.putCredit_ctx (s : State) (l sub : Nat) (x : Credit) :
    (s.putCredit l sub x).ctx = s.ctx := rfl
@[simp] theorem State.putCredit_inputs (s : State) (l sub : Nat) (x : Credit) :
    (s.putCredit l sub x).inputs = s.inputs := rfl
@[simp] theorem State.putCredit_sn (s : State) (l sub : Nat) (x : Credit) :
    (s.putCredit l sub x).sn = s.sn := rfl
@[simp] theorem State.putCredit_cycle (s : State) (l sub : Nat) (x : Credit) :
    (s.putCredit l sub x).cycle = s.cycle := rfl
@[simp] theorem State.putCredit_free (s : State) (l sub : Nat) (x : Credit) :
    (s.putCredit l sub x).free = s.free := rfl
@[simp] theorem State.putCredit_lastGang (s : State) (l sub : Nat) (x : Credit) :
    (s.putCredit l sub x).lastGang = s.lastGang := rfl
@[simp] theorem State.putCredit_dueQueue (s : State) (l sub : Nat) (x : Credit) :
    (s.putCredit l sub x).dueQueue = s.dueQueue := rfl
@[simp] theorem State.putCredit_rewritten (s : State) (l sub : Nat) (x : Credit) :
    (s.putCredit l sub x).rewritten = s.rewritten := rfl
@[simp] theorem State.putCredit_tickets (s : State) (l sub : Nat) (x : Credit) :
    (s.putCredit l sub x).tickets = s.tickets := rfl

end Sys2Proof.Machine
end

