-- ==== Sys2Proof/Laws/Words.lean ====
section
/-! SUPPORT. What a word of a gang does, once for every register word: its frame, its lanes' threads, its retirement. -/

namespace Sys2Proof.Machine

open Sys2Proof

/-! ## Lanes -/

theorem inLanes_laneBit (l x : Nat) (h : l < 64) : inLanes (laneBit l) x = decide (x = l) := by
  unfold inLanes laneBit
  rw [BitVec.getLsbD_ofNat, Nat.testBit_two_pow]
  by_cases hx : l = x
  · subst hx; simp [h]
  · simp [hx, Ne.symm hx]

theorem inLanes_zero (x : Nat) : inLanes 0#64 x = false := by simp [inLanes]

theorem mem_laneList {lanes : DWord} {l : Nat} : l ∈ laneList lanes ↔ inLanes lanes l = true := by
  unfold laneList
  simp only [List.mem_filter, mem_natsFrom, inLanes, and_iff_right_iff_imp]
  intro h
  have := BitVec.lt_of_getLsbD h
  omega

theorem inLanes_lt {lanes : DWord} {l : Nat} (h : inLanes lanes l = true) : l < 64 := BitVec.lt_of_getLsbD h

theorem natsFrom_nodup (lo n : Nat) : (natsFrom lo n).Nodup := by
  induction n generalizing lo with
  | zero => simp [natsFrom]
  | succ n ih => simp only [natsFrom, List.nodup_cons, mem_natsFrom, ih, and_true]; omega

theorem laneList_nodup (lanes : DWord) : (laneList lanes).Nodup := (natsFrom_nodup 0 64).filter _

theorem inLanes_foldl_laneBit (l : List Nat) (m : DWord) (x : Nat) (h : ∀ y ∈ l, y < 64) :
    inLanes (l.foldl (fun m x => m ||| laneBit x) m) x = (inLanes m x || decide (x ∈ l)) := by
  induction l generalizing m with
  | nil => simp
  | cons a t ih =>
    rw [List.foldl_cons, ih _ (fun y hy => h y (by simp [hy]))]
    have := inLanes_laneBit a x (h a (by simp))
    simp only [inLanes, BitVec.getLsbD_or] at *
    rw [this]; by_cases hx : x = a <;> simp [hx]

theorem inLanes_laneSet (l : List Nat) (x : Nat) (h : ∀ y ∈ l, y < 64) : inLanes (laneSet l) x = decide (x ∈ l) := by
  unfold laneSet; rw [inLanes_foldl_laneBit l _ x h]; simp [inLanes]

theorem laneSet_eq_zero (l : List Nat) (h : l = []) : laneSet l = 0#64 := by subst h; rfl

theorem lanes_ext {a b : DWord} (h : ∀ l, inLanes a l = inLanes b l) : a = b :=
  BitVec.eq_of_getLsbD_eq fun i _ => h i

theorem laneSet_filter_self (lanes : DWord) (p : Nat → Bool) (h : ∀ l, inLanes lanes l = true → p l = true) :
    laneSet ((laneList lanes).filter p) = lanes := by
  apply lanes_ext
  intro l
  rw [inLanes_laneSet _ _ fun y hy => inLanes_lt (mem_laneList.1 (List.mem_filter.1 hy).1)]
  cases hl : inLanes lanes l with
  | false => simp [mem_laneList, hl]
  | true => simp [mem_laneList, hl, h l hl]

/-! ## Gangs and threads -/

theorem SMap.modify_modify {α : Type} (m : SMap α) (k : Nat) (f g : α → α) :
    (SMap.modify m k f).modify k g = SMap.modify m k fun x => g (f x) := by
  induction m with
  | nil => rfl
  | cons e t ih => obtain ⟨a, x⟩ := e; simp only [SMap.modify]; split <;> simp_all [SMap.modify]

theorem SMap.modify_congr {α : Type} (m : SMap α) (k : Nat) (f g : α → α) (h : ∀ x, m.find? k = some x → f x = g x) :
    SMap.modify m k f = SMap.modify m k g := by
  induction m with
  | nil => rfl
  | cons e t ih =>
    obtain ⟨a, x⟩ := e
    simp only [SMap.modify, SMap.find?] at *
    split <;> simp_all

theorem SMap.modify_id {α : Type} (m : SMap α) (k : Nat) (f : α → α) (h : ∀ x, m.find? k = some x → f x = x) :
    SMap.modify m k f = m := by
  induction m with
  | nil => rfl
  | cons e t ih =>
    obtain ⟨a, x⟩ := e
    simp only [SMap.modify, SMap.find?] at *
    split <;> simp_all

@[simp] theorem Gang.onLanes_threads (G : Gang) (lanes : DWord) (f : Nat → Thread → Thread) :
    (G.onLanes lanes f).threads = mapNumbered (fun l t => if inLanes lanes l then f l t else t) 0 G.threads := rfl

@[simp] theorem Gang.onLanes_length (G : Gang) (lanes : DWord) (f : Nat → Thread → Thread) :
    (G.onLanes lanes f).threads.length = G.threads.length := by simp

theorem Gang.thread_onLanes (G : Gang) (lanes : DWord) (f : Nat → Thread → Thread) (l : Nat) (h : l < G.threads.length) :
    (G.onLanes lanes f).thread l = if inLanes lanes l then f l (G.thread l) else G.thread l := by
  simp only [Gang.thread, Gang.onLanes_threads]
  rw [nth_mapNumbered _ _ _ _ _ h, Nat.zero_add]

theorem Gang.thread_onLanes_out (G : Gang) (lanes : DWord) (f : Nat → Thread → Thread) (l : Nat)
    (h : inLanes lanes l = false) : (G.onLanes lanes f).thread l = G.thread l := by
  by_cases hl : l < G.threads.length
  · rw [Gang.thread_onLanes G lanes f l hl, h]; rfl
  · simp only [Gang.thread]
    rw [nth_of_le _ _ _ (by simp; omega), nth_of_le _ _ _ (by omega)]

theorem mapNumbered_comp {α : Type} (f g : Nat → α → α) (i : Nat) (l : List α) :
    mapNumbered g i (mapNumbered f i l) = mapNumbered (fun n x => g n (f n x)) i l := by
  induction l generalizing i with
  | nil => rfl
  | cons x t ih => simp [mapNumbered, ih]

theorem mapNumbered_congr {α β : Type} (f g : Nat → α → β) (i : Nat) (l : List α)
    (h : ∀ n x, f n x = g n x) : mapNumbered f i l = mapNumbered g i l := by
  induction l generalizing i with
  | nil => rfl
  | cons x t ih => simp [mapNumbered, ih, h]

theorem mapNumbered_congr_nth {α : Type} (d : α) (f g : Nat → α → α) (i : Nat) (l : List α)
    (h : ∀ n, n < l.length → f (i + n) (nth d l n) = g (i + n) (nth d l n)) : mapNumbered f i l = mapNumbered g i l := by
  induction l generalizing i with
  | nil => rfl
  | cons x t ih =>
    simp only [mapNumbered]
    have h0 := h 0 (by simp)
    simp only [Nat.add_zero, nth] at h0
    rw [h0, ih (i + 1) fun n hn => ?_]
    have := h (n + 1) (by simpa using hn)
    simpa [nth, Nat.add_assoc, Nat.add_comm 1 n] using this

theorem mapNumbered_id {α : Type} (i : Nat) (l : List α) : mapNumbered (fun _ x => x) i l = l := by
  induction l generalizing i with
  | nil => rfl
  | cons x t ih => simp [mapNumbered, ih]

theorem State.thread_eq {s : State} {g : Nat} {G : Gang} (h : s.gangs.find? g = some G) (l : Nat) :
    s.thread g l = G.thread l := by simp [State.thread, h]

theorem State.onGang_find {s : State} {g : Nat} {G : Gang} (h : s.gangs.find? g = some G) (f : Gang → Gang) :
    (s.onGang g f).gangs.find? g = some (f G) := by simp [h]

theorem State.onLanes_find {s : State} {g : Nat} {G : Gang} (h : s.gangs.find? g = some G) (lanes : DWord)
    (f : Nat → Thread → Thread) : (s.onLanes g lanes f).gangs.find? g = some (G.onLanes lanes f) := by simp [h]

theorem State.thread_onLanes {s : State} {g : Nat} {G : Gang} (h : s.gangs.find? g = some G) (lanes : DWord)
    (f : Nat → Thread → Thread) (l : Nat) (hl : l < G.threads.length) :
    (s.onLanes g lanes f).thread g l = if inLanes lanes l then f l (G.thread l) else G.thread l := by
  rw [State.thread_eq (State.onLanes_find h lanes f), Gang.thread_onLanes G lanes f l hl]

theorem State.onLanes_congr {s : State} {g : Nat} (lanes : DWord) (f f' : Nat → Thread → Thread)
    (h : ∀ G, s.gangs.find? g = some G → ∀ l, l < G.threads.length → inLanes lanes l = true → f l (G.thread l) = f' l (G.thread l)) :
    s.onLanes g lanes f = s.onLanes g lanes f' := by
  unfold State.onLanes State.onGang
  rw [SMap.modify_congr _ _ _ _ fun G hG => ?_]
  unfold Gang.onLanes
  congr 1
  refine mapNumbered_congr_nth Thread.absent _ _ 0 _ fun n hn => ?_
  split
  · rename_i hi; simpa [Gang.thread] using h G hG n hn (by simpa using hi)
  · rfl

theorem State.onLanes_onLanes (s : State) (g : Nat) (a b : DWord) (f f' : Nat → Thread → Thread) :
    (s.onLanes g a f).onLanes g b f' = s.onLanes g (a ||| b) fun l t =>
      let u := if inLanes a l then f l t else t
      if inLanes b l then f' l u else u := by
  unfold State.onLanes State.onGang Gang.onLanes
  simp only
  rw [SMap.modify_modify]
  congr 2
  funext G
  simp only
  congr 1
  rw [mapNumbered_comp]
  refine mapNumbered_congr _ _ _ _ fun n x => ?_
  by_cases ha : inLanes a n = true <;> by_cases hb : inLanes b n = true <;>
    simp_all [inLanes, BitVec.getLsbD_or]

theorem State.onLanes_zero (s : State) (g : Nat) (f : Nat → Thread → Thread) : s.onLanes g 0#64 f = s := by
  unfold State.onLanes State.onGang
  rw [SMap.modify_id]
  intro G _
  unfold Gang.onLanes
  simp only [inLanes_zero, Bool.false_eq_true, if_false, mapNumbered_id]

/-! ## Retirement -/

/-- A thread that has gone on from its chain (R19, R23, R39). -/
def Thread.gone (c : IssueCtx) (sn : Nat) (waits : Bool) (t : Thread) : Thread :=
  { t.goTo (t.jump.getD (if 2 ≤ c.pos then (c.pc + 1#32, 0) else (c.pc, c.pos + 1))) (c.since, sn) with park := t.park && waits }

theorem State.advanceLane_eq {c : IssueCtx} {s : State} {l : Nat} (h : (s.thread c.gang l).exiting = false) (hl : l < 64) :
    State.advanceLane c s l = s.onLanes c.gang (laneBit l) fun _ t => t.gone c s.sn (s.outstandingL c.gang l) := by
  unfold State.advanceLane
  simp only [h, Bool.false_eq_true, if_false]
  unfold State.onThread
  refine State.onLanes_congr _ _ _ fun G hG n _ hi => ?_
  rw [inLanes_laneBit l n hl] at hi
  obtain rfl : n = l := by simpa using hi
  simp only [Thread.gone, State.thread_eq hG]

theorem State.outstandingL_onLanes (s : State) (g : Nat) (lanes : DWord) (f : Nat → Thread → Thread) (g' l : Nat) :
    (s.onLanes g lanes f).outstandingL g' l = s.outstandingL g' l := rfl

/-- Lanes that neither exit nor trap go on together. -/
theorem State.foldl_advance {c : IssueCtx} (ls : List Nat) (hn : ls.Nodup) (s : State) {G : Gang}
    (hG : s.gangs.find? c.gang = some G) (hs : ∀ l ∈ ls, l < 64 ∧ l < G.threads.length ∧ (G.thread l).exiting = false) :
    ls.foldl (State.advanceLane c) s =
      s.onLanes c.gang (laneSet ls) fun l t => t.gone c s.sn (s.outstandingL c.gang l) := by
  induction ls generalizing s G with
  | nil => simp [laneSet, State.onLanes_zero]
  | cons a t ih =>
    obtain ⟨ha1, ha2, ha3⟩ := hs a (by simp)
    rw [List.nodup_cons] at hn
    rw [List.foldl_cons, State.advanceLane_eq (by rw [State.thread_eq hG]; exact ha3) ha1]
    rw [ih hn.2 _ (State.onLanes_find hG _ _)]
    · rw [State.onLanes_onLanes]
      have he : laneBit a ||| laneSet t = laneSet (a :: t) := by
        apply lanes_ext; intro l
        have h1 := inLanes_laneSet t l fun y hy => (hs y (by simp [hy])).1
        have h2 := inLanes_laneSet (a :: t) l fun y hy => (hs y hy).1
        have h3 := inLanes_laneBit a l ha1
        rw [h2]; simp only [inLanes, BitVec.getLsbD_or] at *; rw [h1, h3]; simp
      rw [he]
      refine State.onLanes_congr _ _ _ fun G' _ l _ _ => ?_
      simp only [State.outstandingL_onLanes, State.onLanes_sn]
      have h1 := inLanes_laneSet t l fun y hy => (hs y (by simp [hy])).1
      have h3 := inLanes_laneBit a l ha1
      have h2 := inLanes_laneSet (a :: t) l fun y hy => (hs y hy).1
      rename_i hi
      rw [h2] at hi
      rw [h1, h3]
      by_cases hla : l = a
      · subst hla; simp [hn.1]
      · have : l ∈ t := by simpa [hla] using hi
        simp [hla, this]
    · intro l hl
      obtain ⟨h1, h2, h3⟩ := hs l (by simp [hl])
      refine ⟨h1, by simpa using h2, ?_⟩
      rw [Gang.thread_onLanes _ _ _ _ h2, inLanes_laneBit a l ha1]
      have : l ≠ a := fun h => hn.1 (h ▸ hl)
      simp [this, h3]

theorem laneSet_laneList (lanes : DWord) : laneSet (laneList lanes) = lanes := by
  have := laneSet_filter_self lanes (fun _ => true) (by simp)
  simpa using this

/-- The thread a lane has once it has completed a word: it takes the park bit, and after the last word of its chain it goes
on. -/
def Thread.left (c : IssueCtx) (sn : Nat) (park waits : Bool) (t : Thread) : Thread :=
  let u := if park then { t with park := true } else t
  if c.rest = 0 then u.gone c sn waits else u

/-- The retirement of lanes that neither exit nor take a software trap. -/
theorem State.retire_eq {c : IssueCtx} {s : State} {done : DWord} {park : Bool} {G : Gang}
    (hG : s.gangs.find? c.gang = some G)
    (hs : ∀ l, inLanes done l = true → l < G.threads.length ∧ (G.thread l).exiting = false ∧ (G.thread l).swTrap = none) :
    s.retire c done park = s.onLanes c.gang done fun l t => t.left c s.sn park (s.outstandingL c.gang l) := by
  unfold State.retire
  set s1 := if park = true then s.onLanes c.gang done fun _ t => { t with park := true } else s with hs1
  have e1 : s1 = s.onLanes c.gang done fun _ t => if park then { t with park := true } else t := by
    cases park
    · simp only [hs1, Bool.false_eq_true, if_false]
      have : s.onLanes c.gang done (fun _ t => t) = s := by
        unfold State.onLanes State.onGang
        rw [SMap.modify_id]
        intro G _; unfold Gang.onLanes; simp only [ite_self, mapNumbered_id]
      exact this.symm
    · simp [hs1]
  have hG1 : s1.gangs.find? c.gang = some (G.onLanes done fun _ t => if park then { t with park := true } else t) := by
    rw [e1]; exact State.onLanes_find hG _ _
  have hth : ∀ l, inLanes done l = true → (s1.thread c.gang l).exiting = false ∧ (s1.thread c.gang l).swTrap = none := by
    intro l hl
    obtain ⟨h1, h2, h3⟩ := hs l hl
    rw [State.thread_eq hG1, Gang.thread_onLanes _ _ _ _ h1, hl]
    cases park <;> simp [h2, h3]
  by_cases hr : c.rest = 0
  · simp only [hr, if_true]
    have hsw : s1.swTraps c done = [] := by
      unfold State.swTraps
      rw [List.filterMap_eq_nil_iff]
      intro l hl
      obtain ⟨h1, h2⟩ := hth l (mem_laneList.1 hl)
      simp [h1, h2]
    rw [hsw]
    simp only [State.takeSwTraps]
    rw [State.foldl_advance (laneList done) (laneList_nodup done) s1 hG1, laneSet_laneList, e1, State.onLanes_onLanes]
    · simp only [BitVec.or_self, State.outstandingL_onLanes, State.onLanes_sn]
      refine State.onLanes_congr _ _ _ fun G' _ l _ hl => ?_
      simp only [hl, if_true, Thread.left, hr]
    · intro l hl
      rw [mem_laneList] at hl
      have := hth l hl
      rw [State.thread_eq hG1] at this
      exact ⟨inLanes_lt hl, by simpa using (hs l hl).1, this.1⟩
  · simp only [hr, if_false]
    rw [e1]
    refine State.onLanes_congr _ _ _ fun G' _ l _ hl => ?_
    simp only [Thread.left, hr, if_false]

end Sys2Proof.Machine
end

