-- ==== Sys2Proof/Laws/Run.lean ====
section
/-! SUPPORT. The one law of the register words: what State.run leaves, for a word that is executing, in its gang's threads and
in the rest of the state. -/

namespace Sys2Proof.Machine

open Sys2Proof

variable {s : State} {c : IssueCtx} {G : Gang}

theorem tested_eq {view : Gang} {reads writes : List Nat} {go : State}
    (hx : view.xblk = true ∨ ∀ r ∈ reads ++ writes, r < 32)
    (hp : ∀ l, inLanes c.lanes l = true → ∀ r ∈ reads, s.regPoisoned c.gang l r = false) :
    s.tested c view reads writes go = go := by
  unfold State.tested
  have h1 : xblockRaised view (reads ++ writes) = false := by
    unfold xblockRaised
    rcases hx with hx | hx
    · simp [hx]
    · simp only [Bool.and_eq_false_iff, List.any_eq_false, decide_eq_true_eq]
      exact .inr fun r hr => by have := hx r hr; omega
  have h2 : s.poisonedReads c.gang c.lanes reads = [] := by
    unfold State.poisonedReads
    split
    · rfl
    · rw [List.filterMap_eq_nil_iff]
      intro l hl
      have := hp l (mem_laneList.1 hl)
      rw [List.find?_eq_none.2 (by simpa using this)]; rfl
  rw [h1, h2]; rfl

theorem regionLanes_zero (hG : s.gangs.find? c.gang = some G)
    (ho : ∀ l, inLanes c.lanes l = true → (G.thread l).region = none) : s.regionLanes c.gang c.lanes = 0#64 := by
  unfold State.regionLanes
  apply laneSet_eq_zero
  rw [List.filter_eq_nil_iff]
  intro l hl
  rw [State.thread_eq hG]; simp [Thread.inRegion, ho l (mem_laneList.1 hl)]

/-! ## Fields that pop -/

theorem Shape.needs_met (sh : Shape) (fa fb : Nat) (t : Thread) (ha : fa < 64) (hb : fb < 64)
    (h : ∀ q < 4, ((if sh.a = .reg then [fa] else []) ++ (if sh.b = .reg then [fb] else [])).count (60 + q) ≤
      filledCount (nth [] t.queues q)) : (sh.needs fa fb).all t.met = true := by
  have key : ∀ e n, 60 ≤ e → e < 64 →
      n ≤ ((if sh.a = .reg then [fa] else []) ++ (if sh.b = .reg then [fb] else [])).count e →
      t.met (e - 60, n) = true := by
    intro e n h1 h2 h3
    have := h (e - 60) (by omega)
    rw [show 60 + (e - 60) = e by omega] at this
    unfold Thread.met
    simp only [show e - 60 < 4 by omega, if_true, decide_eq_true_eq]; omega
  have hp : ∀ (u : Use) e, u.pops e = true ↔ u = .reg ∧ 60 ≤ e := by intro u e; cases u <;> simp [Use.pops]
  unfold Shape.needs
  split <;> rename_i h1 h2
  · rw [hp] at h1 h2
    simp only [h1.1, h2.1, if_true] at key
    split
    · rename_i heq
      simp only [List.all_cons, List.all_nil, Bool.and_true]
      exact key _ _ h1.2 ha (by subst heq; simp)
    · simp only [List.all_cons, List.all_nil, Bool.and_true, Bool.and_eq_true]
      exact ⟨key _ _ h1.2 ha (by simp), key _ _ h2.2 hb (by simp)⟩
  · rw [hp] at h1
    simp only [h1.1, if_true] at key
    simp only [List.all_cons, List.all_nil, Bool.and_true]
    exact key _ _ h1.2 ha (by simp)
  · rw [hp] at h2
    simp only [h2.1, if_true] at key
    simp only [List.all_cons, List.all_nil, Bool.and_true]
    exact key _ _ h2.2 hb (by simp)
  · rfl

/-- The single-register fields that a word of a shape reads, in their order. -/
def Shape.fields (sh : Shape) (fa fb : Nat) : List Nat :=
  (if sh.a = .reg then [fa] else []) ++ (if sh.b = .reg then [fb] else [])

theorem Shape.needs_isEmpty (sh : Shape) (fa fb : Nat) : (sh.needs fa fb).isEmpty = !(sh.fields fa fb).any (60 ≤ ·) := by
  unfold Shape.needs Shape.fields
  have hp : ∀ (u : Use) e, (if u = .reg then [e] else []).any (60 ≤ ·) = u.pops e := by
    intro u e; cases u <;> simp [Use.pops]
  rw [List.any_append, hp, hp]
  cases sh.a.pops fa <;> cases sh.b.pops fb <;> simp only [] <;> first | rfl | (split <;> rfl)

/-- The thread as it was before a queue stall. -/
def Thread.unstalled (t : Thread) : Thread := match t.wait with | some (.queue _) => { t with wait := none } | _ => t

/-- The thread that reads fields whose queue entries are there: where one pops, a queue stall is over. -/
def Thread.fedFor (fields : List Nat) (t : Thread) : Thread := if fields.any (60 ≤ ·) then t.unstalled else t

/-- A word whose queue entries are there is admitted in every lane. -/
theorem admit_eq {sh : Shape} {fa fb : Nat} {view : Gang} (ha : fa < 64) (hb : fb < 64) (hc : s.ctx = some c)
    (hG : s.gangs.find? c.gang = some G) (h : Fed c G (sh.fields fa fb)) :
    s.letIn c view (sh.needs fa fb) = (s.onLanes c.gang c.lanes fun _ t => t.fedFor (sh.fields fa fb), c) := by
  unfold State.letIn
  have he := sh.needs_isEmpty fa fb
  by_cases hn : (sh.fields fa fb).any (60 ≤ ·) = true
  · rw [he, hn]
    simp only [Bool.not_true, Bool.false_eq_true, if_false]
    have hs : laneSet ((laneList c.lanes).filter fun l => !(sh.needs fa fb).all (s.thread c.gang l).met) = 0#64 := by
      apply laneSet_eq_zero
      rw [List.filter_eq_nil_iff]
      intro l hl
      rw [State.thread_eq hG, Shape.needs_met sh fa fb _ ha hb (h l (mem_laneList.1 hl))]; simp
    rw [hs]
    have h1 : c.lanes &&& ~~~0#64 = c.lanes := by apply BitVec.eq_of_getLsbD_eq; intro i hi; simp only [BitVec.getLsbD_and, BitVec.getLsbD_not, BitVec.getLsbD_zero, Bool.not_false, hi, decide_true,
        Bool.and_true]
    have h2 : c.blocked ||| 0#64 = c.blocked := by simp
    rw [h1, h2]
    refine Prod.ext ?_ rfl
    have hl : s.onLanes c.gang c.lanes (fun l t => if inLanes 0#64 l = true then
          match t.wait with
          | some (.queue _) => { t with wait := some (.queue ((view.thread l).needsNow t (sh.needs fa fb))) }
          | some _ => t
          | none => { t with wait := some (.queue ((view.thread l).needsNow t (sh.needs fa fb))) }
        else match t.wait with | some (.queue _) => { t with wait := none } | _ => t) =
        s.onLanes c.gang c.lanes fun _ t => t.fedFor (sh.fields fa fb) := by
      refine State.onLanes_congr _ _ _ fun G' _ l _ _ => ?_
      simp only [inLanes_zero, Bool.false_eq_true, if_false, Thread.fedFor, hn, if_true, Thread.unstalled]
    refine (congrArg (fun a : State => ({ a with ctx := some c } : State)) hl).trans ?_
    have : ∀ a : State, a.ctx = some c → { a with ctx := some c } = a := by intro a ha; cases a; simp only at ha; subst ha; rfl
    exact this _ (by simpa using hc)
  · have hn : (sh.fields fa fb).any (60 ≤ ·) = false := by simpa using hn
    rw [he, hn]
    simp only [Bool.not_false, if_true]
    refine Prod.ext ?_ rfl
    unfold State.onLanes State.onGang
    rw [SMap.modify_id]
    intro G' _
    unfold Gang.onLanes
    simp only [Thread.fedFor, hn, Bool.false_eq_true, if_false, ite_self, mapNumbered_id]

theorem overConstraints_none (y : Nat → Option (Relation × Bool)) (hy : ∀ l, inLanes c.lanes l = true → y l = none) :
    s.overConstraints c y = 0#64 := by
  unfold State.overConstraints
  simp only
  have : ∀ (ls : List Nat) (acc : Nat × DWord), (∀ l ∈ ls, y l = none) → acc.2 = 0#64 →
      (ls.foldl (fun (acc : Nat × DWord) l =>
        match (s.thread c.gang l).region, y l with
        | some r, some x =>
          if r.constraints.contains x then acc
          else if 8 ≤ r.constraints.length ∨ 256 ≤ acc.1 then (acc.1, acc.2 ||| laneBit l)
          else (acc.1 + 1, acc.2)
        | _, _ => acc) acc).2 = 0#64 := by
    intro ls
    induction ls with
    | nil => intro acc _ h; exact h
    | cons a t ih =>
      intro acc h1 h2
      rw [List.foldl_cons]
      apply ih _ (fun l hl => h1 l (by simp [hl]))
      rw [h1 a (by simp)]
      split <;> simp_all
  exact this _ _ (fun l hl => hy l (mem_laneList.1 hl)) rfl

/-- The lanes of the word stay in it: none is in a region, or the word may issue there and records no constraint. -/
def Stays (c : IssueCtx) (G : Gang) (w : WordSpec) : Prop :=
  Outside c G ∨ (w.deny = 0 ∧ w.shape.popsAny w.fa w.fb = false ∧ ∀ t v, (w.sym t v).con = none)

theorem regionOut_zero {view : Gang} {w : WordSpec} (hG : s.gangs.find? c.gang = some G) (h : Stays c G w) :
    (s.regionOut c view w).1 = 0#64 := by
  rcases h with h | ⟨h1, h2, h3⟩
  · simp [State.regionOut, regionLanes_zero hG h]
  · unfold State.regionOut
    simp only [h1, h2, Bool.false_eq_true, if_false, ne_eq, not_true_eq_false]
    split
    · rfl
    · exact overConstraints_none _ fun l _ => h3 _ _

/-- A register word that can run runs. -/
theorem State.run_plain {w : WordSpec} (I : Issuing s c G) (R : Readable s c G w.reads w.writes)
    (ha : w.fa < 64) (hb : w.fb < 64) (F : Fed c G (w.shape.fields w.fa w.fb)) (S : Stays c G w) :
    s.run w = .next ((s.onLanes c.gang c.lanes fun _ t => t.fedFor (w.shape.fields w.fa w.fb)).regEffect c (viewOf c G) w) := by
  unfold State.run State.word
  simp only [I.ctx, I.gang]
  congr 1
  rw [show c.pre.getD G = viewOf c G from rfl, tested_eq R.block R.clean]
  simp only [regionOut_zero I.gang S, State.screenLanes, if_true]
  rw [admit_eq ha hb I.ctx I.gang F]

@[simp] theorem Thread.unstalled_wait (t : Thread) : t.unstalled.wait = stallEnded t.wait := by
  unfold Thread.unstalled stallEnded; split <;> simp_all

theorem Thread.unstalled_eq (t : Thread) : t.unstalled = { t with wait := stallEnded t.wait } := by
  unfold Thread.unstalled
  split
  · rename_i h; rw [h]; rfl
  · rename_i h
    have : stallEnded t.wait = t.wait := by
      unfold stallEnded; split
      · rename_i h2; exact absurd h2 (h _)
      · rfl
    rw [this]

/-- The end of a queue stall changes the wait alone. -/
theorem Thread.fedFor_eq (fields : List Nat) (t : Thread) : t.fedFor fields = { t with wait := waitAfter fields t.wait } := by
  unfold Thread.fedFor waitAfter
  split
  · exact t.unstalled_eq
  · rfl

@[simp] theorem Thread.fedFor_region (fs : List Nat) (t : Thread) : (t.fedFor fs).region = t.region := by rw [Thread.fedFor_eq]
@[simp] theorem Thread.fedFor_regs (fs : List Nat) (t : Thread) : (t.fedFor fs).regs = t.regs := by rw [Thread.fedFor_eq]
@[simp] theorem Thread.fedFor_exiting (fs : List Nat) (t : Thread) : (t.fedFor fs).exiting = t.exiting := by rw [Thread.fedFor_eq]
@[simp] theorem Thread.fedFor_swTrap (fs : List Nat) (t : Thread) : (t.fedFor fs).swTrap = t.swTrap := by rw [Thread.fedFor_eq]
@[simp] theorem Thread.fedFor_queues (fs : List Nat) (t : Thread) : (t.fedFor fs).queues = t.queues := by rw [Thread.fedFor_eq]
@[simp] theorem Thread.fedFor_latch (fs : List Nat) (t : Thread) : (t.fedFor fs).latch = t.latch := by rw [Thread.fedFor_eq]
@[simp] theorem Thread.fedFor_wait (fs : List Nat) (t : Thread) : (t.fedFor fs).wait = waitAfter fs t.wait := by
  rw [Thread.fedFor_eq]

/-! ## Reading -/

@[simp] theorem Thread.pop_queues (t : Thread) (q : Nat) : (t.pop q).queues = setNth t.queues q ((nth [] t.queues q).drop 1) := rfl

/-- Reading a field changes the queues alone. -/
theorem readField_onward (view cur : Thread) (u : Use) (e : Nat) :
    (readField view cur u e).2 = { cur with queues := (readField view cur u e).2.queues } := by
  unfold readField; split
  · rfl
  · split <;> rfl
  · split <;> rfl

theorem readLane_onward (sh : Shape) (fd fa fb : Nat) (view cur : Thread) :
    (sh.readLane fd fa fb view cur).2 = { cur with queues := (sh.readLane fd fa fb view cur).2.queues } := by
  unfold Shape.readLane
  simp only
  rw [readField_onward, readField_onward view cur]

/-- What is read depends on the current thread through its queues alone. -/
theorem readField_congr (view : Thread) {c1 c2 : Thread} (h : c1.queues = c2.queues) (u : Use) (e : Nat) :
    (readField view c1 u e).1 = (readField view c2 u e).1 ∧
    (readField view c1 u e).2.queues = (readField view c2 u e).2.queues := by
  unfold readField; split
  · exact ⟨rfl, h⟩
  · split <;> simp [Thread.queueHead, h]
  · split <;> simp [h]

theorem readLane_congr (sh : Shape) (fd fa fb : Nat) (view : Thread) {c1 c2 : Thread} (h : c1.queues = c2.queues) :
    (sh.readLane fd fa fb view c1).1 = (sh.readLane fd fa fb view c2).1 ∧
    (sh.readLane fd fa fb view c1).2.queues = (sh.readLane fd fa fb view c2).2.queues := by
  unfold Shape.readLane
  obtain ⟨a1, a2⟩ := readField_congr view h sh.a fa
  obtain ⟨b1, b2⟩ := readField_congr view a2 sh.b fb
  obtain ⟨d1, _⟩ := readField_congr view h sh.d fd
  simp only [a1, b1, d1, b2, and_self]

theorem vals_fed (w : WordSpec) (fs : List Nat) (view cur : Thread) : w.vals view (cur.fedFor fs) = w.vals view cur := by
  unfold WordSpec.vals
  rw [(readLane_congr w.shape w.fd w.fa w.fb view (Thread.fedFor_queues fs cur)).1]

/-! ## A lane's step -/

theorem Thread.onRegion_none {t : Thread} (h : t.region = none) (f : Region → Region) : t.onRegion f = t := by
  unfold Thread.onRegion; rw [h]; cases t; simp_all

@[simp] theorem Thread.setReg_region (t : Thread) (r : Nat) (v : Word) : (t.setReg r v).region = t.region := by
  unfold Thread.setReg; split <;> rfl

@[simp] theorem Thread.writeDest_region (t : Thread) (u : Use) (e : Nat) (v : DWord) :
    (t.writeDest u e v).region = t.region := by
  unfold Thread.writeDest; split
  · rfl
  · simp
  · split <;> simp

theorem Thread.setReg_regs (t : Thread) (r : Nat) (v : Word) (x : Nat) :
    (t.setReg r v).regs.get 0 x = if x = r ∧ r ≠ 0 ∧ r < 56 then v else t.regs.get 0 x := by
  unfold Thread.setReg
  split
  · rw [if_neg (by omega)]
  · simp only [SMap.get_set]; grind

theorem Thread.writeDest_reg (t : Thread) (d : Nat) (v : DWord) : WroteReg t (t.writeDest .reg d v) d (loOf v) :=
  fun r => Thread.setReg_regs t d (loOf v) r

theorem Thread.writeDest_pair (t : Thread) (d : Nat) (v : DWord) : WrotePair t (t.writeDest .pair d v) d v := by
  intro r
  simp only [Thread.writeDest]
  split
  · rw [if_neg (by omega), if_neg (by omega)]
  · rw [Thread.setReg_regs, Thread.setReg_regs]; grind

theorem Thread.setReg_onward (t : Thread) (r : Nat) (v : Word) : t.setReg r v = { t with regs := (t.setReg r v).regs } := by
  unfold Thread.setReg; split <;> rfl

/-- Writing a result changes the registers alone. -/
theorem Thread.writeDest_onward (t : Thread) (u : Use) (e : Nat) (v : DWord) :
    t.writeDest u e v = { t with regs := (t.writeDest u e v).regs } := by
  unfold Thread.writeDest; split
  · rfl
  · exact Thread.setReg_onward _ _ _
  · split
    · rfl
    · rw [Thread.setReg_onward, Thread.setReg_onward t]

@[simp] theorem Thread.latchStep_regs (t : Thread) (sh : Shape) (h rest : Nat) (v : Vals) (r : DWord) :
    (t.latchStep sh h rest v r).regs = t.regs := by unfold Thread.latchStep; split <;> rfl

/-- The latch step changes the latch alone. -/
theorem Thread.latchStep_onward (t : Thread) (sh : Shape) (h rest : Nat) (v : Vals) (r : DWord) :
    t.latchStep sh h rest v r = { t with latch := (t.latchStep sh h rest v r).latch } := by
  unfold Thread.latchStep; split <;> rfl

/-- Leaving a word changes where the thread stands, its park bit and its region's snapshot. -/
theorem Thread.left_onward (t : Thread) (c : IssueCtx) (sn : Nat) (park waits : Bool) :
    t.left c sn park waits = { t with
      pc := (t.left c sn park waits).pc, pos := (t.left c sn park waits).pos, jump := (t.left c sn park waits).jump,
      park := (t.left c sn park waits).park, region := (t.left c sn park waits).region } := by
  unfold Thread.left Thread.gone Thread.goTo; cases park <;> simp only <;> split <;> rfl

theorem Thread.left_stands (t : Thread) (c : IssueCtx) (sn : Nat) (park waits : Bool) :
    (t.left c sn park waits).pc = (standing c t.jump t).1 ∧ (t.left c sn park waits).pos = (standing c t.jump t).2.1 ∧
    (t.left c sn park waits).jump = (standing c t.jump t).2.2 := by
  unfold Thread.left Thread.gone Thread.goTo standing
  cases park <;> cases hj : t.jump <;> simp only <;> split <;> simp [hj] <;> split <;> exact ⟨rfl, rfl, rfl⟩

@[simp] theorem Thread.left_regs (t : Thread) (c : IssueCtx) (sn : Nat) (park waits : Bool) : (t.left c sn park waits).regs = t.regs := by
  unfold Thread.left Thread.gone Thread.goTo; cases park <;> simp only <;> split <;> rfl

theorem Thread.left_region (t : Thread) (c : IssueCtx) (sn : Nat) (park waits : Bool) :
    (t.left c sn park waits).region.isSome = t.region.isSome := by
  unfold Thread.left Thread.gone Thread.goTo; cases park <;> simp only <;> split <;> simp

theorem Thread.onRegion_onward (t : Thread) (f : Region → Region) : t.onRegion f = { t with region := t.region.map f } := rfl

theorem Thread.setMark_onward (t : Thread) (u : Use) (e : Nat) (m : Option Mark) :
    t.setMark u e m = { t with region := (t.setMark u e m).region } ∧
    (t.setMark u e m).region.isSome = t.region.isSome := by
  unfold Thread.setMark; split
  · exact ⟨rfl, rfl⟩
  · split
    · exact ⟨rfl, rfl⟩
    · exact ⟨rfl, by simp [Thread.onRegion]⟩

/-- The registers that a lane's result leaves. -/
def WordSpec.regsAfter (w : WordSpec) (old : Thread) (r : DWord) : SMap Word :=
  if w.shape.classL then old.regs else (old.writeDest w.shape.dst w.fd r).regs

theorem Thread.writeDest_congr {t u : Thread} (h : t.regs = u.regs) (d : Use) (e : Nat) (v : DWord) :
    (t.writeDest d e v).regs = (u.writeDest d e v).regs := by
  have hs : ∀ (a b : Thread) r (x : Word), a.regs = b.regs → (a.setReg r x).regs = (b.setReg r x).regs := by
    intro a b r x h; unfold Thread.setReg; split <;> simp [h]
  unfold Thread.writeDest; split
  · exact h
  · exact hs _ _ _ _ h
  · split
    · exact h
    · exact hs _ _ _ _ (hs _ _ _ _ h)

/-- What the region's bookkeeping and the result of a word leave, before its other effect. -/
theorem WordSpec.laneMid (w : WordSpec) (cur : Thread) (r : DWord) (f : Region → Region) (m : Option Mark) :
    ∃ rg : Option Region, rg.isSome = cur.region.isSome ∧
      (if w.shape.classL then cur.onRegion f
        else (((cur.onRegion f).unmark w.writes).writeDest w.shape.dst w.fd r).setMark w.shape.dst w.fd m) =
      { cur with region := rg, regs := w.regsAfter cur r } := by
  unfold WordSpec.regsAfter
  cases w.shape.classL with
  | true => exact ⟨_, by simp, rfl⟩
  | false =>
    simp only [Bool.false_eq_true, if_false]
    refine ⟨((((cur.onRegion f).unmark w.writes).writeDest w.shape.dst w.fd r).setMark w.shape.dst w.fd m).region,
      ?_, ?_⟩
    · rw [(Thread.setMark_onward _ _ _ _).2, Thread.writeDest_region]; simp [Thread.unmark, Thread.onRegion]
    · rw [(Thread.setMark_onward _ _ _ _).1]
      have hw := Thread.writeDest_onward ((cur.onRegion f).unmark w.writes) w.shape.dst w.fd r
      have hr : (((cur.onRegion f).unmark w.writes).writeDest w.shape.dst w.fd r).regs =
          (cur.writeDest w.shape.dst w.fd r).regs :=
        Thread.writeDest_congr (t := (cur.onRegion f).unmark w.writes) (u := cur) rfl _ _ _
      have key : ∀ rg, { ((cur.onRegion f).unmark w.writes).writeDest w.shape.dst w.fd r with region := rg } =
          { cur with region := rg, regs := (cur.writeDest w.shape.dst w.fd r).regs } := by
        intro rg; rw [hw, hr]; rfl
      exact key _

/-! ## The effect -/

/-- The record items of a list of causes by lane. -/
def logList (view : Gang) (pc : Word) (raised : List (Nat × List Nat)) (codes : List Nat) (sn : Nat) : List LogItem :=
  mapNumbered (fun i (e : Nat × DWord) => ⟨sn + i, e.1, e.2, pc, false, view.trapping e.2, 0⟩) 0
    ((codes.map fun code => (code, laneSet ((raised.filter fun e => e.2.contains code).map (·.1)))).filter fun e => e.2 != 0#64)

/-- The state with record items added to a gang. -/
def State.withLogs (s : State) (g : Nat) (items : List LogItem) : State :=
  { s.onGang g (fun G => { G with logs := G.logs ++ items }) with sn := s.sn + items.length }

theorem mapNumbered_shift {α β : Type} (f : Nat → α → β) (i : Nat) (l : List α) :
    mapNumbered (fun n => f (n + 1)) i l = mapNumbered f (i + 1) l := by
  induction l generalizing i with
  | nil => rfl
  | cons x t ih => simp [mapNumbered, ih]

@[simp] theorem length_mapNumbered {α β : Type} (f : Nat → α → β) (i : Nat) (l : List α) :
    (mapNumbered f i l).length = l.length := by
  induction l generalizing i with
  | nil => rfl
  | cons x t ih => simp [mapNumbered, ih]

theorem State.withLogs_nil (s : State) (g : Nat) : s.withLogs g [] = s := by
  unfold State.withLogs State.onGang
  rw [SMap.modify_id _ _ _ fun G _ => by simp]
  rfl

theorem State.withLogs_withLogs (s : State) (g : Nat) (a b : List LogItem) :
    (s.withLogs g a).withLogs g b = s.withLogs g (a ++ b) := by
  unfold State.withLogs State.onGang
  simp only [SMap.modify_modify, List.append_assoc, List.length_append, Nat.add_assoc]

theorem logCauses_eq (g : Nat) (view : Gang) (pc : Word) (raised : List (Nat × List Nat)) :
    s.logCauses g view pc raised = s.withLogs g (logList view pc raised [0x20, 0x21, 0x22, 0x23, 0x24] s.sn) := by
  unfold State.logCauses
  generalize ([0x20, 0x21, 0x22, 0x23, 0x24] : List Nat) = codes
  induction codes generalizing s with
  | nil => exact (State.withLogs_nil s g).symm
  | cons code rest ih =>
    rw [List.foldl_cons, ih]
    by_cases h : laneSet ((raised.filter fun e => e.2.contains code).map (·.1)) = 0#64
    · have e : logList view pc raised (code :: rest) s.sn = logList view pc raised rest s.sn := by
        unfold logList
        rw [List.map_cons, List.filter_cons_of_neg (by simpa using h)]
      simp only [h, if_true, e]
    · simp only [h, if_false]
      have e : logList view pc raised (code :: rest) s.sn =
          [⟨s.sn, code, laneSet ((raised.filter fun e => e.2.contains code).map (·.1)), pc, false,
            view.trapping (laneSet ((raised.filter fun e => e.2.contains code).map (·.1))), 0⟩] ++
            logList view pc raised rest (s.sn + 1) := by
        unfold logList
        simp only [List.map_cons]
        rw [List.filter_cons_of_pos (by simpa using h)]
        simp only [mapNumbered, Nat.add_zero, List.singleton_append, List.cons.injEq, true_and]
        rw [← mapNumbered_shift]
        exact mapNumbered_congr _ _ _ _ fun n x => by simp [Nat.add_comm 1 n, Nat.add_assoc]
      rw [e, ← State.withLogs_withLogs]
      rfl

theorem cureRegs_eq (regs : List Nat) :
    s.cureRegs c.gang c.lanes regs = { s with poison := cured s c regs } := by
  unfold State.cureRegs cured
  split
  · rename_i h
    have h : s.poison = [] := by simpa using h
    cases s; simp only at h; subst h; rfl
  · rfl

theorem raised_lanes (ls : List Nat) (causes : Nat → List Nat) (code : Nat) :
    (((ls.filterMap fun l => match causes l with | [] => none | cs => some (l, cs)).filter
      fun e : Nat × List Nat => e.2.contains code).map (·.1)) = ls.filter fun l => (causes l).contains code := by
  induction ls with
  | nil => rfl
  | cons a t ih =>
    cases h : causes a with
    | nil => simp only [List.filterMap_cons, h, ih, List.filter_cons, List.contains_nil, Bool.false_eq_true, if_false]
    | cons x xs =>
      by_cases hc : (x :: xs).contains code
      · simp only [List.filterMap_cons, h, List.filter_cons, hc, if_true, List.map_cons, ih]
      · simp only [List.filterMap_cons, h, List.filter_cons, hc, Bool.false_eq_true, if_false, ih]

/-- The pending results of a word, by lane. -/
def WordSpec.outstanding (w : WordSpec) (c : IssueCtx) (G : Gang) (sn : Nat) : List Pending :=
  w.pendings c.gang (viewOf c G) G c.lanes sn

theorem State.onLanes_thread_out (g : Nat) (m : DWord) (f : Nat → Thread → Thread) (l : Nat) (h : inLanes m l = false) :
    (s.onLanes g m f).thread g l = s.thread g l := by
  unfold State.thread
  cases hg : s.gangs.find? g with
  | none => simp [State.onLanes, State.onGang, SMap.find?_modify, hg]
  | some G => rw [State.onLanes_find hg]; exact Gang.thread_onLanes_out _ _ _ _ h

theorem laneList_ne_nil (h : c.lanes ≠ 0#64) : laneList c.lanes ≠ [] := by
  intro h0
  apply h
  apply lanes_ext
  intro l
  have : l ∉ laneList c.lanes := by rw [h0]; simp
  rw [mem_laneList] at this
  simpa [inLanes] using this

/-- What a register word that runs leaves, in lanes that go on: the one law of register words. -/
theorem State.run_completed {w : WordSpec} (I : Issuing s c G) (R : Readable s c G w.reads w.writes)
    (ha : w.fa < 64) (hb : w.fb < 64) (F : Fed c G (w.shape.fields w.fa w.fb)) (S : Stays c G w)
    (hgang : ∀ G, w.gang G = G) (hops : ∀ l t v, w.ops l t v = [])
    (hgo : ∀ l, inLanes c.lanes l = true →
      (w.laneStep c.rest l ((viewOf c G).thread l) ((G.thread l).fedFor (w.shape.fields w.fa w.fb))).exiting = false ∧
      (w.laneStep c.rest l ((viewOf c G).thread l) ((G.thread l).fedFor (w.shape.fields w.fa w.fb))).swTrap = none) :
    ∃ t, s.run w = .next t ∧
      Completed s t c G (if w.shape.classL then [] else w.writes) (w.outstanding c G s.sn)
        (fun l => (w.f l ((viewOf c G).thread l) (w.vals ((viewOf c G).thread l) (G.thread l))).causes)
        (fun l old new => ∃ sn waits, new =
          (w.laneStep c.rest l ((viewOf c G).thread l) (old.fedFor (w.shape.fields w.fa w.fb))).left c sn (parks w.k) waits) := by
  refine ⟨_, State.run_plain I R ha hb F S, ?_⟩
  have hflat : ((laneList c.lanes).flatMap fun _ => ([] : List (Nat × MaskOp))) = [] := by simp
  set view := viewOf c G with hview
  set lane : Nat → Thread → Thread := fun l t => w.laneStep c.rest l (view.thread l) (t.fedFor (w.shape.fields w.fa w.fb)) with hlane
  set G0 := G.onLanes c.lanes fun _ t => (t.fedFor (w.shape.fields w.fa w.fb)) with hG0
  have hGu : (s.onLanes c.gang c.lanes fun _ t => t.fedFor (w.shape.fields w.fa w.fb)).gangs.find? c.gang = some G0 := by exact State.onLanes_find I.gang _ _
  have hth : ∀ l, inLanes c.lanes l = true → G0.thread l = ((G.thread l).fedFor (w.shape.fields w.fa w.fb)) := by
    intro l hl; rw [hG0, Gang.thread_onLanes _ _ _ _ (I.lanes l hl), hl]; rfl
  have hvals : ∀ l, inLanes c.lanes l = true → w.vals (view.thread l) (G0.thread l) = w.vals (view.thread l) (G.thread l) := by
    intro l hl; rw [hth l hl, vals_fed]
  have hpend : w.pendings c.gang view G0 c.lanes s.sn = w.outstanding c G s.sn := by
    unfold WordSpec.outstanding WordSpec.pendings
    split
    · exact List.map_congr_left fun l hl => by rw [hvals l (mem_laneList.1 hl)]
    · rfl
  have hcause : w.causes view G0 c.lanes = w.causes view G c.lanes := by
    unfold WordSpec.causes
    exact List.filterMap_congr fun l hl => by rw [hvals l (mem_laneList.1 hl)]
  set causes : Nat → List Nat := fun l => (w.f l (view.thread l) (w.vals (view.thread l) (G.thread l))).causes with hcs
  have hitems : ∀ sn, logList view c.pc (w.causes view G c.lanes) [0x20, 0x21, 0x22, 0x23, 0x24] sn = logItems c G sn causes := by
    intro sn
    unfold logList logItems WordSpec.causes
    congr 2
    exact List.map_congr_left fun code _ => 
      congrArg (fun x => (code, laneSet x)) (raised_lanes (laneList c.lanes) causes code)
  have hpe : (w.outstanding c G s.sn).isEmpty = !w.shape.classL := by
    unfold WordSpec.outstanding WordSpec.pendings
    cases w.shape.classL with
    | true => simp [laneList_ne_nil I.some]
    | false => simp
  set n1 := s.sn + (if (w.outstanding c G s.sn).isEmpty then 0 else 1) with hn1
  have hn : (if w.shape.classL = true then s.sn + 1 else s.sn) = n1 := by
    rw [hn1, hpe]; cases w.shape.classL <;> simp
  set X : State := { (s.onLanes c.gang c.lanes lane).onGang c.gang
      (fun H => { H with logs := H.logs ++ logItems c G n1 causes }) with
    pending := s.pending ++ w.outstanding c G s.sn
    poison := cured s c (if w.shape.classL then [] else w.writes)
    sn := n1 + (logItems c G n1 causes).length } with hX
  have hunst : (s.onLanes c.gang c.lanes fun _ t => t.fedFor (w.shape.fields w.fa w.fb)).onLanes c.gang c.lanes (fun l t => w.laneStep c.rest l (view.thread l) t) =
      s.onLanes c.gang c.lanes lane := by
    rw [State.onLanes_onLanes]
    simp only [BitVec.or_self]
    exact State.onLanes_congr _ _ _ fun G' _ l _ hl => by simp [hl, hlane]
  have e : (s.onLanes c.gang c.lanes fun _ t => t.fedFor (w.shape.fields w.fa w.fb)).regEffect c view w = X.retire c c.lanes (parks w.k) := by
    unfold State.regEffect
    rw [if_neg I.some]
    simp only [hGu, hgang, hops, List.map_nil, hflat, List.append_nil]
    have e0 : (s.onLanes c.gang c.lanes fun _ t => t.fedFor (w.shape.fields w.fa w.fb)).onGang c.gang (fun G' => { G'.onLanes c.lanes fun l t => w.laneStep c.rest l (view.thread l) t with
        maskOps := (G'.onLanes c.lanes fun l t => w.laneStep c.rest l (view.thread l) t).maskOps }) =
        s.onLanes c.gang c.lanes lane := hunst
    have e1 := congrArg (fun a : State => ({ a with
      pending := a.pending ++ w.pendings c.gang view G0 c.lanes a.sn
      sn := if w.shape.classL then a.sn + 1 else a.sn } : State)) e0
    simp only [State.onLanes_sn, State.onLanes_pending, hpend, hn] at e1
    refine (congrArg (fun a : State => ((a.logCauses c.gang view c.pc (w.causes view G0 c.lanes)).cureRegs c.gang c.lanes
      (if w.shape.classL then [] else w.writes)).retire c c.lanes (parks w.k)) e1).trans ?_
    rw [logCauses_eq, cureRegs_eq, hcause, hitems]
    rfl
  rw [e]
  set G1 : Gang := { G.onLanes c.lanes lane with logs := G.logs ++ logItems c G n1 causes } with hG1
  have hXG : X.gangs.find? c.gang = some G1 := by
    have := State.onGang_find (State.onLanes_find I.gang c.lanes lane)
      (fun H => { H with logs := H.logs ++ logItems c G n1 causes })
    exact this
  have hG1t : ∀ l, inLanes c.lanes l = true → G1.thread l = lane l (G.thread l) := by
    intro l hl
    have : G1.thread l = (G.onLanes c.lanes lane).thread l := rfl
    rw [this, Gang.thread_onLanes _ _ _ _ (I.lanes l hl), hl]; rfl
  have hlen : G1.threads.length = G.threads.length := Gang.onLanes_length G c.lanes lane
  rw [State.retire_eq hXG fun l hl => ⟨by rw [hlen]; exact I.lanes l hl, by rw [hG1t l hl]; exact hgo l hl⟩]
  set f2 : Nat → Thread → Thread := fun l t => t.left c X.sn (parks w.k) (X.outstandingL c.gang l) with hf2
  have hfin : (X.onLanes c.gang c.lanes f2).gangs.find? c.gang = some (G1.onLanes c.lanes f2) := State.onLanes_find hXG _ _
  refine ⟨?_, ?_, ⟨_, hfin, rfl⟩, ?_, ?_⟩
  · have hlen : (logItems c G n1 causes).length = (logItems c G 0 causes).length := by simp [logItems]
    have : X.sn = s.sn + (if (w.outstanding c G s.sn).isEmpty then 0 else 1) + (logItems c G 0 causes).length := by
      rw [hX, ← hlen]
    rw [← this]; rfl
  · intro g hg
    simp only [hX, State.onLanes, State.onGang, SMap.find?_modify, if_neg hg]
  · intro l hl
    rw [State.thread_eq hfin, Gang.thread_onLanes_out _ _ _ _ hl]
    exact Gang.thread_onLanes_out G c.lanes lane l hl
  · intro l hl
    refine ⟨X.sn, X.outstandingL c.gang l, ?_⟩
    rw [State.thread_eq hfin, Gang.thread_onLanes _ _ _ _ (by rw [hlen]; exact I.lanes l hl), hl, hG1t l hl]
    rfl

/-! ## Words with no other effect -/

theorem readField_queues (view cur : Thread) (u : Use) (e : Nat) :
    (readField view cur u e).2.queues = popped (if u = .reg then [e] else []) cur.queues := by
  unfold readField popped
  cases u
  · rfl
  · simp only [if_true, List.foldl_cons, List.foldl_nil]; split <;> rfl
  · simp only [reduceCtorEq, if_false, List.foldl_nil]; split <;> rfl
  · simp only [reduceCtorEq, if_false, List.foldl_nil]; split <;> rfl

theorem readLane_queues (sh : Shape) (fd fa fb : Nat) (view cur : Thread) :
    (sh.readLane fd fa fb view cur).2.queues = popped (sh.fields fa fb) cur.queues := by
  unfold Shape.readLane Shape.fields
  simp only
  rw [readField_queues, readField_queues]
  unfold popped; rw [List.foldl_append]

/-- What a word pushes into the latch. -/
def WordSpec.push (w : WordSpec) (v : Vals) (r : DWord) : Option Word :=
  if w.shape.latch ∧ w.h ≠ 0 then some (w.shape.pushValue w.h v r) else none

theorem Thread.latchStep_latch (t : Thread) (w : WordSpec) (rest : Nat) (v : Vals) (r : DWord) :
    (t.latchStep w.shape w.h rest v r).latch = latchAfter rest (w.push v r) t.latch := by
  unfold Thread.latchStep WordSpec.push latchAfter
  split <;> rfl

/-- A lane that completes a word with no effect of its own beside its result. -/
theorem WordSpec.lane_plain (w : WordSpec) (c : IssueCtx) (l : Nat) (view old : Thread) (sn : Nat) (waits : Bool)
    (hpost : ∀ l t v u, w.post l t v u = u) :
    let v := w.vals view old
    let r := (w.f l view v).val
    let new := (w.laneStep c.rest l view (old.fedFor (w.shape.fields w.fa w.fb))).left c sn (parks w.k) waits
    Onward c (w.shape.fields w.fa w.fb) (w.push v r) old.jump old new ∧ new.regs = w.regsAfter old r := by
  intro v r new
  have hv : (w.shape.readLane w.fd w.fa w.fb view (old.fedFor (w.shape.fields w.fa w.fb))).1 = v := vals_fed w _ view old
  obtain ⟨rg, h1, h2⟩ := w.laneMid (w.shape.readLane w.fd w.fa w.fb view (old.fedFor (w.shape.fields w.fa w.fb))).2 r
    (fun x => (x.note (w.sym view v)).pin (w.pushed view v)) (w.sym view v).mark
  have hl : w.laneStep c.rest l view (old.fedFor (w.shape.fields w.fa w.fb)) =
      ({ old with
        queues := popped (w.shape.fields w.fa w.fb) old.queues, wait := waitAfter (w.shape.fields w.fa w.fb) old.wait, region := rg
        regs := w.regsAfter old r } : Thread).latchStep w.shape w.h c.rest v r := by
    unfold WordSpec.laneStep
    simp only [hpost, hv]
    rw [h2]
    have hq := readLane_queues w.shape w.fd w.fa w.fb view (old.fedFor (w.shape.fields w.fa w.fb))
    have ho := readLane_onward w.shape w.fd w.fa w.fb view (old.fedFor (w.shape.fields w.fa w.fb))
    have hr : w.regsAfter (w.shape.readLane w.fd w.fa w.fb view (old.fedFor (w.shape.fields w.fa w.fb))).2 r = w.regsAfter old r := by
      rw [ho]
      unfold WordSpec.regsAfter
      split
      · simp
      · exact Thread.writeDest_congr (by simp) _ _ _
    rw [hr, ho, hq, Thread.fedFor_queues, Thread.fedFor_eq]
  have hreg : rg.isSome = old.region.isSome := by
    rw [h1, readLane_onward]; simp
  refine ⟨⟨?_, ?_⟩, ?_⟩
  · have e1 := Thread.left_onward (w.laneStep c.rest l view (old.fedFor (w.shape.fields w.fa w.fb))) c sn (parks w.k) waits
    have e2 := Thread.latchStep_onward ({ old with
        queues := popped (w.shape.fields w.fa w.fb) old.queues, wait := waitAfter (w.shape.fields w.fa w.fb) old.wait, region := rg
        regs := w.regsAfter old r } : Thread) w.shape w.h c.rest v r
    rw [Thread.latchStep_latch, ← hl] at e2
    have e3 : new.regs = w.regsAfter old r := by
      show ((w.laneStep c.rest l view (old.fedFor (w.shape.fields w.fa w.fb))).left c sn (parks w.k) waits).regs = _
      rw [Thread.left_regs, e2]
    have e4 : new = { w.laneStep c.rest l view (old.fedFor (w.shape.fields w.fa w.fb)) with
      pc := new.pc, pos := new.pos, jump := new.jump, park := new.park, region := new.region } := e1
    obtain ⟨s1, s2, s3⟩ := Thread.left_stands (w.laneStep c.rest l view (old.fedFor (w.shape.fields w.fa w.fb))) c sn (parks w.k) waits
    have s0 : standing c (w.laneStep c.rest l view (old.fedFor (w.shape.fields w.fa w.fb))).jump (w.laneStep c.rest l view (old.fedFor (w.shape.fields w.fa w.fb))) =
        standing c old.jump old := by rw [e2]; rfl
    rw [s0] at s1 s2 s3
    have s1 : new.pc = _ := s1
    have s2 : new.pos = _ := s2
    have s3 : new.jump = _ := s3
    rw [e2] at e4
    rw [← e3, s1, s2, s3] at e4
    exact e4
  · show ((w.laneStep c.rest l view (old.fedFor (w.shape.fields w.fa w.fb))).left c sn (parks w.k) waits).region.isSome = _
    rw [Thread.left_region, hl, ← hreg, Thread.latchStep_onward]
  · show ((w.laneStep c.rest l view (old.fedFor (w.shape.fields w.fa w.fb))).left c sn (parks w.k) waits).regs = _
    rw [Thread.left_regs, hl, Thread.latchStep_regs]

/-! ## Reading, in the terms of claims -/

theorem loOf_setWidth (v : Word) : loOf (v.setWidth 64) = v := by simp [loOf]

theorem nth_setNth_drop (qs : List (List QEntry)) (i j : Nat) :
    nth [] (setNth qs i ((nth [] qs i).drop 1)) j = (nth [] qs j).drop (if i = j then 1 else 0) := by
  induction qs generalizing i j with
  | nil => simp [setNth, nth]
  | cons a t ih => cases i <;> cases j <;> simp_all [setNth, nth]

/-- A single-register field read after others. -/
theorem readField_after (l e : Nat) (before : List Nat) (cur : Thread)
    (hq : cur.queues = popped before (G.thread l).queues) (hb : ∀ x ∈ before, x < 64) (hl : before.length ≤ 1) :
    loOf (readField ((viewOf c G).thread l) cur .reg e).1 = operand c G l before e := by
  unfold operand
  simp only [readField]
  split
  · rename_i h
    rw [loOf_setWidth]
    unfold Thread.queueHead
    rw [hq]
    have : nth [] (popped before (G.thread l).queues) (e - 60) =
        (nth [] (G.thread l).queues (e - 60)).drop (before.count e) := by
      match before, hl with
      | [], _ => rfl
      | [x], _ =>
        unfold popped
        simp only [List.foldl_cons, List.foldl_nil, List.count_singleton]
        split
        · rw [nth_setNth_drop]
          by_cases hx : x = e
          · simp [hx]
          · simp only [show ¬x - 60 = e - 60 by omega, if_false]
            have : (x == e) = false := by simpa using hx
            rw [this]; simp
        · have : (x == e) = false := by simp; omega
          rw [this]; simp
    first | (rw [this]; done) | (rw [this]; split <;> simp_all)
  · exact loOf_setWidth _

theorem vals_a (w : WordSpec) (l : Nat) (h : w.shape.a = .reg) :
    (w.vals ((viewOf c G).thread l) (G.thread l)).a32 = operand c G l [] w.fa := by
  unfold WordSpec.vals Shape.readLane Vals.a32
  simp only [h]
  exact readField_after l w.fa [] _ rfl (by simp) (by simp)

theorem vals_b (w : WordSpec) (l : Nat) (h : w.shape.b = .reg) (ha : w.fa < 64) :
    (w.vals ((viewOf c G).thread l) (G.thread l)).b32 =
      operand c G l (if w.shape.a = .reg then [w.fa] else []) w.fb := by
  unfold WordSpec.vals Shape.readLane Vals.b32
  simp only [h]
  exact readField_after l w.fb _ _ (readField_queues _ _ _ _) (by split <;> simp [ha]) (by split <;> simp)

theorem Thread.src_ge (t : Thread) (e : Nat) (h : 60 ≤ e) : t.src e = 0 := by
  unfold Thread.src; rw [if_neg (by omega), if_neg (by omega), if_neg (by omega)]

theorem vals_d (w : WordSpec) (l : Nat) (h : w.shape.d = .reg) :
    (w.vals ((viewOf c G).thread l) (G.thread l)).d32 = operandD c G l w.fd := by
  unfold WordSpec.vals Shape.readLane Vals.d32 operandD
  simp only [h, Use.pops, beq_self_eq_true, Bool.true_and, decide_eq_true_eq]
  split
  · rename_i h6; rw [Thread.src_ge _ _ h6]; rfl
  · rename_i h6; simp only [readField, h6, if_false]; exact loOf_setWidth _

theorem readField_pair (view cur : Thread) (e : Nat) : (readField view cur .pair e) =
    (if 56 ≤ e then 0 else pairOf (view.src (e / 2 * 2)) (view.src (e / 2 * 2 + 1)), cur) := by
  simp only [readField]; split <;> rfl

theorem vals_a_pair (w : WordSpec) (l : Nat) (h : w.shape.a = .pair) :
    (w.vals ((viewOf c G).thread l) (G.thread l)).a = operandPair c G l w.fa := by
  unfold WordSpec.vals Shape.readLane operandPair
  simp only [h, readField_pair]

theorem vals_b_pair (w : WordSpec) (l : Nat) (h : w.shape.b = .pair) :
    (w.vals ((viewOf c G).thread l) (G.thread l)).b = operandPair c G l w.fb := by
  unfold WordSpec.vals Shape.readLane operandPair
  simp only [h, readField_pair]

theorem vals_d_pair (w : WordSpec) (l : Nat) (h : w.shape.d = .pair) :
    (w.vals ((viewOf c G).thread l) (G.thread l)).d = operandPair c G l w.fd := by
  unfold WordSpec.vals Shape.readLane operandPair
  simp only [h, readField_pair, Use.pops]
  simp

theorem vals_a_unused (w : WordSpec) (view cur : Thread) (h : w.shape.a = .unused) : (w.vals view cur).a = 0 := by
  unfold WordSpec.vals Shape.readLane; simp only [h, readField]

/-! ## The results of words -/

/-- A word's result lands in its destination's registers. -/
theorem regsAfter_reg {w : WordSpec} {old new : Thread} {r : DWord} (hL : w.shape.classL = false) (hd : w.shape.dst = .reg)
    (h : new.regs = w.regsAfter old r) : WroteReg old new w.fd (loOf r) := by
  intro x
  rw [h]; unfold WordSpec.regsAfter; rw [hL, hd]
  exact Thread.writeDest_reg old w.fd r x

theorem regsAfter_pair {w : WordSpec} {old new : Thread} {r : DWord} (hL : w.shape.classL = false)
    (hd : w.shape.dst = .pair) (h : new.regs = w.regsAfter old r) : WrotePair old new w.fd r := by
  intro x
  rw [h]; unfold WordSpec.regsAfter; rw [hL, hd]
  exact Thread.writeDest_pair old w.fd r x

/-- The law of register words with no other effect, in the terms of claims. -/
theorem State.run_plainly {w : WordSpec} (I : Issuing s c G) (R : Readable s c G w.reads w.writes)
    (ha : w.fa < 64) (hb : w.fb < 64) (F : Fed c G (w.shape.fields w.fa w.fb)) (S : Stays c G w)
    (hgang : ∀ G, w.gang G = G) (hops : ∀ l t v, w.ops l t v = []) (hpost : ∀ l t v u, w.post l t v u = u) :
    ∃ t, s.run w = .next t ∧
      Completed s t c G (if w.shape.classL then [] else w.writes) (w.outstanding c G s.sn)
        (fun l => (w.f l ((viewOf c G).thread l) (w.vals ((viewOf c G).thread l) (G.thread l))).causes)
        (fun l old new =>
          let v := w.vals ((viewOf c G).thread l) (G.thread l)
          let r := (w.f l ((viewOf c G).thread l) v).val
          old = G.thread l ∧ Onward c (w.shape.fields w.fa w.fb) (w.push v r) old.jump old new ∧ new.regs = w.regsAfter old r) := by
  have hgo : ∀ l, inLanes c.lanes l = true →
      (w.laneStep c.rest l ((viewOf c G).thread l) ((G.thread l).fedFor (w.shape.fields w.fa w.fb))).exiting = false ∧
      (w.laneStep c.rest l ((viewOf c G).thread l) ((G.thread l).fedFor (w.shape.fields w.fa w.fb))).swTrap = none := by
    intro l hl
    obtain ⟨rg, -, h2⟩ := w.laneMid (w.shape.readLane w.fd w.fa w.fb ((viewOf c G).thread l) ((G.thread l).fedFor (w.shape.fields w.fa w.fb))).2
      (w.f l ((viewOf c G).thread l)
        (w.shape.readLane w.fd w.fa w.fb ((viewOf c G).thread l) ((G.thread l).fedFor (w.shape.fields w.fa w.fb))).1).val
      (fun x => (x.note (w.sym ((viewOf c G).thread l)
          (w.shape.readLane w.fd w.fa w.fb ((viewOf c G).thread l) ((G.thread l).fedFor (w.shape.fields w.fa w.fb))).1)).pin
        (w.pushed ((viewOf c G).thread l)
          (w.shape.readLane w.fd w.fa w.fb ((viewOf c G).thread l) ((G.thread l).fedFor (w.shape.fields w.fa w.fb))).1))
      (w.sym ((viewOf c G).thread l)
        (w.shape.readLane w.fd w.fa w.fb ((viewOf c G).thread l) ((G.thread l).fedFor (w.shape.fields w.fa w.fb))).1).mark
    unfold WordSpec.laneStep
    simp only [hpost]
    rw [h2, Thread.latchStep_onward, readLane_onward]
    simpa using I.going l hl
  obtain ⟨t, h1, h2⟩ := State.run_completed I R ha hb F S hgang hops hgo
  refine ⟨t, h1, h2.state, h2.others, h2.gang, h2.outside, fun l hl => ?_⟩
  obtain ⟨sn, waits, h3⟩ := h2.inside l hl
  have := w.lane_plain c l ((viewOf c G).thread l) (G.thread l) sn waits hpost
  rw [← h3] at this
  exact ⟨rfl, this⟩

/-! ## The three forms of result -/

@[simp] theorem Use.regs_unused (e : Nat) : Use.regs .unused e = [] := by unfold Use.regs; split <;> rfl

/-- What a lane of a word reads, computes and raises. -/
def WordSpec.read (w : WordSpec) (c : IssueCtx) (G : Gang) (l : Nat) : Vals := w.vals ((viewOf c G).thread l) (G.thread l)
def WordSpec.result (w : WordSpec) (c : IssueCtx) (G : Gang) (l : Nat) : Res := w.f l ((viewOf c G).thread l) (w.read c G l)

theorem WordSpec.outstanding_nil {w : WordSpec} (h : w.shape.classL = false) (sn : Nat) : w.outstanding c G sn = [] := by
  unfold WordSpec.outstanding WordSpec.pendings; rw [h]; rfl

theorem stays_of {w : WordSpec} (P : Permitted c G (w.shape.fields w.fa w.fb)) (hd : w.deny = 0)
    (hc : Outside c G ∨ ∀ t v, (w.sym t v).con = none) : Stays c G w := by
  rcases hc with h | h
  · exact .inl h
  rcases P with h1 | h1
  · exact .inl h1
  · refine .inr ⟨hd, ?_, h⟩
    have key : ∀ (u : Use) e, u = .reg → e ∈ w.shape.fields w.fa w.fb → u.pops e = false := by
      intro u e hu he; subst hu; have := h1 e he; simp [Use.pops]; omega
    unfold Shape.popsAny
    have ha : w.shape.a.pops w.fa = false := by
      by_cases hu : w.shape.a = .reg
      · exact key _ _ hu (by simp [Shape.fields, hu])
      · simp [Use.pops, hu]
    have hb : w.shape.b.pops w.fb = false := by
      by_cases hu : w.shape.b = .reg
      · exact key _ _ hu (by simp [Shape.fields, hu])
      · simp [Use.pops, hu]
    rw [ha, hb]; rfl

/-- The law of a class-F word with a single-register result. -/
theorem State.run_word {w : WordSpec} (H : Ready s c G (w.shape.fields w.fa w.fb) w.reads w.writes) (S : Stays c G w)
    (ha : w.fa < 64) (hb : w.fb < 64) (hgang : ∀ G, w.gang G = G) (hops : ∀ l t v, w.ops l t v = [])
    (hpost : ∀ l t v u, w.post l t v u = u) (hL : w.shape.classL = false) (hd : w.shape.dst = .reg) :
    ∃ t, s.run w = .next t ∧
      WritesWord s t c G (w.shape.fields w.fa w.fb) w.fd (fun l => w.push (w.read c G l) (w.result c G l).val)
        (fun l => loOf (w.result c G l).val) (fun l => (w.result c G l).causes) := by
  obtain ⟨t, h1, h2⟩ := State.run_plainly H.issuing H.readable ha hb H.fed S hgang hops hpost
  rw [WordSpec.outstanding_nil hL, hL] at h2
  have hw : w.writes = Use.regs .reg w.fd := by unfold WordSpec.writes; rw [hd]
  refine ⟨t, h1, ⟨?_, h2.others, h2.gang, h2.outside, fun l hl => ?_⟩⟩
  · rw [← hw]; exact h2.state
  · obtain ⟨-, h3, h4⟩ := h2.inside l hl
    exact ⟨h3, regsAfter_reg hL hd h4⟩

/-- The law of a class-F word with a pair result. -/
theorem State.run_pair {w : WordSpec} (H : Ready s c G (w.shape.fields w.fa w.fb) w.reads w.writes) (S : Stays c G w)
    (ha : w.fa < 64) (hb : w.fb < 64) (hgang : ∀ G, w.gang G = G) (hops : ∀ l t v, w.ops l t v = [])
    (hpost : ∀ l t v u, w.post l t v u = u) (hL : w.shape.classL = false) (hd : w.shape.dst = .pair) :
    ∃ t, s.run w = .next t ∧
      WritesPair s t c G (w.shape.fields w.fa w.fb) w.fd (fun l => w.push (w.read c G l) (w.result c G l).val)
        (fun l => (w.result c G l).val) (fun l => (w.result c G l).causes) := by
  obtain ⟨t, h1, h2⟩ := State.run_plainly H.issuing H.readable ha hb H.fed S hgang hops hpost
  rw [WordSpec.outstanding_nil hL, hL] at h2
  have hw : w.writes = Use.regs .pair w.fd := by unfold WordSpec.writes; rw [hd]
  refine ⟨t, h1, ⟨?_, h2.others, h2.gang, h2.outside, fun l hl => ?_⟩⟩
  · rw [← hw]; exact h2.state
  · obtain ⟨-, h3, h4⟩ := h2.inside l hl
    exact ⟨h3, regsAfter_pair hL hd h4⟩

/-- The law of a class-L word. -/
theorem State.run_late {w : WordSpec} (H : Ready s c G (w.shape.fields w.fa w.fb) w.reads w.writes) (S : Stays c G w)
    (ha : w.fa < 64) (hb : w.fb < 64) (hgang : ∀ G, w.gang G = G) (hops : ∀ l t v, w.ops l t v = [])
    (hpost : ∀ l t v u, w.post l t v u = u) (hL : w.shape.classL = true) :
    ∃ t, s.run w = .next t ∧
      LeavesResult s t c G (w.shape.fields w.fa w.fb) (if w.shape.dst = .pair then w.fd / 2 * 2 else w.fd)
        (fun l => w.push (w.read c G l) (w.result c G l).val)
        (fun l => if w.shape.dst = .pair then [loOf (w.result c G l).val, hiOf (w.result c G l).val]
          else [loOf (w.result c G l).val])
        (fun l => (w.result c G l).causes) := by
  obtain ⟨t, h1, h2⟩ := State.run_plainly H.issuing H.readable ha hb H.fed S hgang hops hpost
  have ho : w.outstanding c G s.sn = (laneList c.lanes).map fun l =>
      ⟨s.sn * 64 + l, c.gang, l, if w.shape.dst = .pair then w.fd / 2 * 2 else w.fd,
        some (if w.shape.dst = .pair then [loOf (w.result c G l).val, hiOf (w.result c G l).val]
          else [loOf (w.result c G l).val]), none⟩ := by
    unfold WordSpec.outstanding WordSpec.pendings; rw [hL]; rfl
  rw [ho, hL] at h2
  refine ⟨t, h1, ⟨h2.state, h2.others, h2.gang, h2.outside, fun l hl => ?_⟩⟩
  obtain ⟨-, h3, h4⟩ := h2.inside l hl
  refine ⟨h3, ?_⟩
  rw [h4]; unfold WordSpec.regsAfter; rw [hL]; rfl

end Sys2Proof.Machine
end

