-- ==== Sys2Proof/Tests/Slice0.lean ====
section
/-! SUPPORT. Tests: what the checks of well-formedness refuse, words written out from the spec's encodings, and for every
statement a state and operands that meet its hypotheses together. -/

set_option Elab.async false

namespace Sys2Proof.Tests

open Sys2Proof
open Sys2Proof.Machine

/-! ## A state in which a word executes -/

/-- The place of a word that executes: word 1 of packet 5, in lane 0 of gang slot 0. -/
def tc : IssueCtx :=
  { gang := 0, lanes := 1#64, pc := 5, pos := 1, first := 1, rest := 0, chained := false, pre := none, since := 0,
    preTeam := none, preScale := none, cause := none, blocked := 0 }
/-- A gang of one live thread. -/
def tg : Gang := startGang soloRecord 0 0 0 0
/-- A state with one spawn of that gang, in which a word executes. -/
def ts : State :=
  { State.reset with
    gangs := [(0, tg)], spawns := [(0, newSpawn 1 soloRecord 0 0 0 none none 1 [])], ctx := some tc
    care := { State.reset.care with done := 6 } }
/-- Register fields. -/
def fa : FmtA := ⟨0, 0, 8, 6, 4, 0⟩

theorem lane_eq {l : Nat} (h : inLanes 1#64 l = true) : l = 0 := by
  unfold inLanes at h
  rw [BitVec.getLsbD_one] at h
  simp at h; exact h

theorem tg_thread : (tg.thread 0).exiting = false ∧ (tg.thread 0).swTrap = none ∧ (tg.thread 0).wait = none ∧
    (tg.thread 0).grant = none ∧ (tg.thread 0).region = none ∧ (tg.thread 0).handler = false := by decide

/-- A state that differs from ts in nothing that the word's lanes are judged by. -/
theorem issuing_of (s : State) (c : IssueCtx) (G : Gang) (hm : Memory.wf s.mem = true) (hr : SMap.risesFrom 0 s.gangs = true)
    (hc : s.ctx = some c) (hg : s.gangs.find? c.gang = some G) (hl : c.lanes = 1#64) (h0 : 0 < G.threads.length)
    (h1 : (G.thread 0).exiting = false) (h2 : (G.thread 0).swTrap = none) : Issuing s c G :=
  { sound := ⟨hm, hr⟩, ctx := hc, gang := hg, some := by rw [hl]; decide
    lanes := fun l h => by rw [hl] at h; rw [lane_eq h]; exact h0
    going := fun l h => by rw [hl] at h; rw [lane_eq h]; exact ⟨h1, h2⟩ }

theorem ts_issuing : Issuing ts tc tg :=
  issuing_of ts tc tg (by decide) (by decide) rfl rfl rfl (by decide) (by decide) (by decide)

theorem ready_of {s : State} {c : IssueCtx} {G : Gang} (I : Issuing s c G) (hp : s.poison = []) (fields reads writes : List Nat)
    (h1 : ∀ e ∈ fields, e < 60) (h2 : ∀ r ∈ reads ++ writes, r < 32) : Ready s c G fields reads writes :=
  { issuing := I
    readable := ⟨.inr h2, fun l _ r _ => by simp [State.regPoisoned, hp]⟩
    fed := fun l _ q hq => by
      rw [List.count_eq_zero_of_not_mem]
      · exact Nat.zero_le _
      · intro hm; have := h1 _ hm; omega
    permitted := .inr h1 }

theorem ts_ready (fields reads writes : List Nat) (h1 : ∀ e ∈ fields, e < 60) (h2 : ∀ r ∈ reads ++ writes, r < 32) :
    Ready ts tc tg fields reads writes := ready_of ts_issuing rfl _ _ _ h1 h2

theorem ts_outside : Outside tc tg := fun l h => by rw [lane_eq h]; decide
theorem ts_roomy : Roomy tc tg := .inl ts_outside
theorem ts_idle : Idle tc tg := fun l h => by rw [lane_eq h]; decide

/-! ## Decoding

Words written out from Table 2.1 and Table 2.3, their fields at assorted values, ignored ones among them. -/

theorem test_decode_sys :
    [(0x00CCA840, .nop ⟨0, 0, 51, 10, 33, 0⟩),
      (0x8062F191, .exit ⟨1, 0, 24, 47, 6, 1⟩),
      (0x40F54AE2, .trap ⟨0, 1, 61, 20, 43, 2⟩),
      (0xC08B9433, .brk ⟨1, 1, 34, 57, 16, 3⟩),
      (0x001DED44, .eret ⟨0, 0, 7, 30, 53, 0⟩),
      (0x80B03695, .sread ⟨1, 0, 44, 3, 26, 1⟩),
      (0x40468FE6, .swrite ⟨0, 1, 17, 40, 63, 2⟩),
      (0xC0058BE7, .yield ⟨1, 1, 1, 24, 47, 2⟩),
      (0x009BD538, .watch ⟨0, 0, 38, 61, 20, 3⟩),
      (0x802E2E49, .waitw ⟨1, 0, 11, 34, 57, 0⟩),
      (0x40C0779A, .xacq ⟨0, 1, 48, 7, 30, 1⟩),
      (0xC056C0EB, .xrel ⟨1, 1, 21, 44, 3, 2⟩),
      (0x00E91A3C, .xtry ⟨0, 0, 58, 17, 40, 3⟩)].all (fun p => decodeTableWord 32 p.1 == some p.2) = true := by
  decide

theorem test_decode_ialu1 :
    [(0x817F6340, .add ⟨1, 0, 31, 54, 13, 0⟩),
      (0x413E6F41, .sub ⟨0, 1, 15, 38, 61, 0⟩),
      (0xC1D0B892, .mul ⟨1, 1, 52, 11, 34, 1⟩),
      (0x016701E3, .mulh ⟨0, 0, 25, 48, 7, 2⟩),
      (0x81F95B34, .mulhu ⟨1, 0, 62, 21, 44, 3⟩),
      (0x418FA445, .and ⟨0, 1, 35, 58, 17, 0⟩),
      (0xC121FD96, .or ⟨1, 1, 8, 31, 54, 1⟩),
      (0x01B446E7, .xor ⟨0, 0, 45, 4, 27, 2⟩),
      (0x817742E8, .andn ⟨1, 0, 29, 52, 11, 2⟩),
      (0x41099C39, .shl ⟨0, 1, 2, 25, 48, 3⟩),
      (0xC19FE54A, .shr ⟨1, 1, 39, 62, 21, 0⟩),
      (0x01323E9B, .sra ⟨0, 0, 12, 35, 58, 1⟩),
      (0x81C487EC, .rol ⟨1, 0, 49, 8, 31, 2⟩),
      (0x415AD13D, .min ⟨0, 1, 22, 45, 4, 3⟩),
      (0xC1ED2A4E, .max ⟨1, 1, 59, 18, 41, 0⟩),
      (0x01AC264F, .minu ⟨0, 0, 43, 2, 25, 0⟩)].all (fun p => decodeTableWord 32 p.1 == some p.2) = true := by
  decide

theorem test_decode_ialu2 :
    [(0x82427F90, .maxu ⟨1, 0, 16, 39, 62, 1⟩),
      (0x42D4C8E1, .abs ⟨0, 1, 53, 12, 35, 2⟩),
      (0xC26B1232, .clz ⟨1, 1, 26, 49, 8, 3⟩),
      (0x02FD6B43, .popc ⟨0, 0, 63, 22, 45, 0⟩),
      (0x8293B494, .brev ⟨1, 0, 36, 59, 18, 1⟩),
      (0x42260DE5, .sel ⟨0, 1, 9, 32, 55, 2⟩),
      (0xC2E509E6, .cmpeq ⟨1, 1, 57, 16, 39, 2⟩),
      (0x027B5337, .cmpne ⟨0, 0, 30, 53, 12, 3⟩),
      (0x820DAC48, .cmplt ⟨1, 0, 3, 26, 49, 0⟩),
      (0x42A3F599, .cmple ⟨0, 1, 40, 63, 22, 1⟩),
      (0xC2364EEA, .cmpltu ⟨1, 1, 13, 36, 59, 2⟩),
      (0x02C8983B, .cmpleu ⟨0, 0, 50, 9, 32, 3⟩),
      (0x825EE14C, .add64 ⟨1, 0, 23, 46, 5, 0⟩),
      (0x421DED4D, .sub64 ⟨0, 1, 7, 30, 53, 0⟩),
      (0xC2B0369E, .mul64 ⟨1, 1, 44, 3, 26, 1⟩),
      (0x02468FEF, .mad ⟨0, 0, 17, 40, 63, 2⟩)].all (fun p => decodeTableWord 32 p.1 == some p.2) = true := by
  decide

theorem test_decode_ialu3 :
    [(0x83D8D930, .div ⟨1, 0, 54, 13, 36, 3⟩),
      (0x436F2241, .divu ⟨0, 1, 27, 50, 9, 0⟩),
      (0xC3017B92, .rem ⟨1, 1, 0, 23, 46, 1⟩),
      (0x0397C4E3, .remu ⟨0, 0, 37, 60, 19, 2⟩),
      (0x8356C0E4, .bfx ⟨1, 0, 21, 44, 3, 2⟩),
      (0x43E91A35, .bfxs ⟨0, 1, 58, 17, 40, 3⟩),
      (0xC37F6346, .bfi ⟨1, 1, 31, 54, 13, 0⟩),
      (0x0311BC97, .shl64 ⟨0, 0, 4, 27, 50, 1⟩),
      (0x83A405E8, .shr64 ⟨1, 0, 41, 0, 23, 2⟩),
      (0x433A5F39, .sra64 ⟨0, 1, 14, 37, 60, 3⟩),
      (0xC3CCA84A, .mulw ⟨1, 1, 51, 10, 33, 0⟩),
      (0x038FA44B, .mulwu ⟨0, 0, 35, 58, 17, 0⟩)].all (fun p => decodeTableWord 32 p.1 == some p.2) = true := by
  decide

theorem test_decode_immediates :
    [(0x8421F8F6, .addi ⟨1, 0, 8, 31, 2294⟩),
      (0x45B4491B, .andi ⟨0, 1, 45, 4, 2331⟩),
      (0xC64A9940, .ori ⟨1, 1, 18, 41, 2368⟩),
      (0x07DCE965, .xori ⟨0, 0, 55, 14, 2405⟩),
      (0x8AB80B45, .movl ⟨1, 0, 46, 2885⟩),
      (0x4B4C0B6A, .movh ⟨0, 1, 19, 2922⟩)].all (fun p => decodeTableWord 32 p.1 == some p.2) = true := by
  decide

theorem test_decode_shi :
    [(0x88733A21, .shli ⟨1, 0, 28, 51, 10, 33⟩),
      (0x48058F46, .shri ⟨0, 1, 1, 24, 15, 6⟩),
      (0xC8C48FB6, .srai ⟨1, 1, 49, 8, 15, 54⟩),
      (0x085AD4DB, .roli ⟨0, 0, 22, 45, 4, 27⟩)].all (fun p => decodeTableWord 32 p.1 == some p.2) = true := by
  decide

theorem test_decode_cmpi :
    [(0x89ED2029, .cmpiEq ⟨1, 0, 59, 18, 41⟩),
      (0x4983724E, .cmpiNe ⟨0, 1, 32, 55, 78⟩),
      (0xC915C473, .cmpiLt ⟨1, 1, 5, 28, 115⟩),
      (0x09A81698, .cmpiLe ⟨0, 0, 42, 1, 152⟩),
      (0x893E68BD, .cmpiLtu ⟨1, 0, 15, 38, 189⟩),
      (0x49FD6AED, .cmpiLeu ⟨0, 1, 63, 22, 237⟩),
      (0xC993BD12, .cmpiGt ⟨1, 1, 36, 59, 274⟩),
      (0x09260F37, .cmpiGe ⟨0, 0, 9, 32, 311⟩)].all (fun p => decodeTableWord 32 p.1 == some p.2) = true := by
  decide

theorem test_decode_falu :
    [(0xCCE0F990, .fadd ⟨1, 1, 56, 15, 38, 1⟩),
      (0x0C7742E1, .fsub ⟨0, 0, 29, 52, 11, 2⟩),
      (0x8C364EE2, .fmul ⟨1, 0, 13, 36, 59, 2⟩),
      (0x4CC89833, .ffma ⟨0, 1, 50, 9, 32, 3⟩),
      (0xCC5EE144, .fmin ⟨1, 1, 23, 46, 5, 0⟩),
      (0x0CF13A95, .fmax ⟨0, 0, 60, 19, 42, 1⟩),
      (0x8C8783E6, .fcmpeq ⟨1, 0, 33, 56, 15, 2⟩),
      (0x4C19DD37, .fcmplt ⟨0, 1, 6, 29, 52, 3⟩),
      (0xCCAC2648, .fcmple ⟨1, 1, 43, 2, 25, 0⟩),
      (0x0C6F2249, .fcmpun ⟨0, 0, 27, 50, 9, 0⟩),
      (0x8C017B9A, .fabs ⟨1, 0, 0, 23, 46, 1⟩),
      (0x4C97C4EB, .fneg ⟨0, 1, 37, 60, 19, 2⟩),
      (0xCC2A1E3C, .fcopysign ⟨1, 1, 10, 33, 56, 3⟩),
      (0x0CBC674D, .ffms ⟨0, 0, 47, 6, 29, 0⟩),
      (0x8C52B09E, .frnd ⟨1, 0, 20, 43, 2, 1⟩),
      (0x4CE509EF, .fsat ⟨0, 1, 57, 16, 39, 2⟩)].all (fun p => decodeTableWord 32 p.1 == some p.2) = true := by
  decide

theorem test_decode_halu :
    [(0xCDA405E8, .hadd2 ⟨1, 1, 41, 0, 23, 2, 1⟩),
      (0x0D3A5F31, .hsub2 ⟨0, 0, 14, 37, 60, 3, 0⟩),
      (0x8DCCA84A, .hmul2 ⟨1, 0, 51, 10, 33, 0, 1⟩),
      (0x4D62F193, .hfma2 ⟨0, 1, 24, 47, 6, 1, 0⟩),
      (0xCDF54AEC, .hmin2 ⟨1, 1, 61, 20, 43, 2, 1⟩),
      (0x0D8B9435, .hmax2 ⟨0, 0, 34, 57, 16, 3, 0⟩),
      (0x8D1DED4E, .hdot2 ⟨1, 0, 7, 30, 53, 0, 1⟩),
      (0x4DDCE94F, .hcmplt2 ⟨0, 1, 55, 14, 37, 0, 1⟩)].all (fun p => decodeTableWord 32 p.1 == some p.2) = true := by
  decide

theorem test_decode_dalu :
    [(0xCE733290, .dadd ⟨1, 1, 28, 51, 10, 1⟩),
      (0x0E058BE1, .dsub ⟨0, 0, 1, 24, 47, 2⟩),
      (0x8E9BD532, .dmul ⟨1, 0, 38, 61, 20, 3⟩),
      (0x4E2E2E43, .dfma ⟨0, 1, 11, 34, 57, 0⟩),
      (0xCEC07794, .dmin ⟨1, 1, 48, 7, 30, 1⟩),
      (0x0E56C0E5, .dmax ⟨0, 0, 21, 44, 3, 2⟩),
      (0x8E15CCE6, .dcmpeq ⟨1, 0, 5, 28, 51, 2⟩),
      (0x4EA81637, .dcmplt ⟨0, 1, 42, 1, 24, 3⟩),
      (0xCE3E6F48, .dcmple ⟨1, 1, 15, 38, 61, 0⟩),
      (0x0ED0B899, .dabs ⟨0, 0, 52, 11, 34, 1⟩),
      (0x8E6701EA, .dneg ⟨1, 0, 25, 48, 7, 2⟩),
      (0x4EF95B3B, .drnd ⟨0, 1, 62, 21, 44, 3⟩)].all (fun p => decodeTableWord 32 p.1 == some p.2) = true := by
  decide

theorem test_decode_fcvt :
    [(0xCF8FA440, .cvtfi ⟨1, 1, 35, 58, 17, 0⟩),
      (0x0F4EA041, .cvtif ⟨0, 0, 19, 42, 1, 0⟩),
      (0x8FE0F992, .cvtfu ⟨1, 0, 56, 15, 38, 1⟩),
      (0x4F7742E3, .cvtuf ⟨0, 1, 29, 52, 11, 2⟩),
      (0xCF099C34, .cvtfd ⟨1, 1, 2, 25, 48, 3⟩),
      (0x0F9FE545, .cvtdf ⟨0, 0, 39, 62, 21, 0⟩),
      (0x8F323E96, .cvtdi ⟨1, 0, 12, 35, 58, 1⟩),
      (0x4FC487E7, .cvtid ⟨0, 1, 49, 8, 31, 2⟩),
      (0xCF8783E8, .cvtfb ⟨1, 1, 33, 56, 15, 2⟩),
      (0x0F19DD39, .cvtfh ⟨0, 0, 6, 29, 52, 3⟩),
      (0x8FAC264A, .cvtbf ⟨1, 0, 43, 2, 25, 0⟩),
      (0x4F427F9B, .cvthf ⟨0, 1, 16, 39, 62, 1⟩),
      (0xCFD4C8EC, .packe4 ⟨1, 1, 53, 12, 35, 2⟩),
      (0x0F6B123D, .packe5 ⟨0, 0, 26, 49, 8, 3⟩),
      (0x8FFD6B4E, .unpke4 ⟨1, 0, 63, 22, 45, 0⟩),
      (0x4FBC674F, .unpke5 ⟨0, 1, 47, 6, 29, 0⟩)].all (fun p => decodeTableWord 32 p.1 == some p.2) = true := by
  decide

theorem test_decode_sfu :
    [(0xD052B090, .frcp ⟨1, 1, 20, 43, 2, 1⟩),
      (0x10E509E1, .frsq ⟨0, 0, 57, 16, 39, 2⟩),
      (0x907B5332, .fsqrt ⟨1, 0, 30, 53, 12, 3⟩),
      (0x500DAC43, .fdiv ⟨0, 1, 3, 26, 49, 0⟩),
      (0xD0A3F594, .fexp2 ⟨1, 1, 40, 63, 22, 1⟩),
      (0x10364EE5, .flog2 ⟨0, 0, 13, 36, 59, 2⟩),
      (0x90F54AE6, .fsin ⟨1, 0, 61, 20, 43, 2⟩),
      (0x508B9437, .fcos ⟨0, 1, 34, 57, 16, 3⟩),
      (0xD01DED48, .ftanh ⟨1, 1, 7, 30, 53, 0⟩),
      (0x10B03699, .ddiv ⟨0, 0, 44, 3, 26, 1⟩),
      (0x90468FEA, .dsqrt ⟨1, 0, 17, 40, 63, 2⟩),
      (0x50D8D93B, .vexps ⟨0, 1, 54, 13, 36, 3⟩),
      (0xD06F224C, .vmaxe ⟨1, 1, 27, 50, 9, 0⟩),
      (0x102E2E4D, .fsigm ⟨0, 0, 11, 34, 57, 0⟩)].all (fun p => decodeTableWord 32 p.1 == some p.2) = true := by
  decide

theorem test_decode_br :
    [(0x91C01587, .beqz ⟨1, 0, 48, 5511⟩),
      (0x515495AC, .bnez ⟨0, 1, 21, 5548⟩),
      (0xD1E915D1, .bltz ⟨1, 1, 58, 5585⟩),
      (0x117D95F6, .bgez ⟨0, 0, 31, 5622⟩),
      (0x9112161B, .blez ⟨1, 0, 4, 5659⟩),
      (0x51A69640, .bgtz ⟨0, 1, 41, 5696⟩),
      (0xD1671670, .bnez64 ⟨1, 1, 25, 5744⟩),
      (0x11FB9695, .beqz64 ⟨0, 0, 62, 5781⟩)].all (fun p => decodeTableWord 32 p.1 == some p.2) = true := by
  decide

theorem test_decode_jumps :
    [(0x920016A3, .jmp ⟨1, 0, 5795⟩),
      (0x530016C8, .jal ⟨0, 1, 5832⟩)].all (fun p => decodeTableWord 32 p.1 == some p.2) = true := by
  decide

theorem test_decode_jr :
    [(0xD4B446E0, .jr ⟨1, 1, 45, 4, 27, 2⟩),
      (0x144A9031, .jalr ⟨0, 0, 18, 41, 0, 3⟩)].all (fun p => decodeTableWord 32 p.1 == some p.2) = true := by
  decide

theorem test_decode_ld :
    [(0x95DCE650, .ld8 ⟨1, 0, 55, 14, 101⟩),
      (0x559FE951, .ld8s ⟨0, 1, 39, 62, 149⟩),
      (0xD5323BA2, .ld16 ⟨1, 1, 12, 35, 186⟩),
      (0x15C48DF3, .ld16s ⟨0, 0, 49, 8, 223⟩),
      (0x955AD044, .ld32 ⟨1, 0, 22, 45, 4⟩),
      (0x55ED2295, .ld64 ⟨0, 1, 59, 18, 41⟩),
      (0xD58374E6, .ld128 ⟨1, 1, 32, 55, 78⟩),
      (0x1515C9A7, .lda32 ⟨0, 0, 5, 28, 19, 2⟩),
      (0x95D4C1A8, .lda64 ⟨1, 0, 53, 12, 3, 2⟩)].all (fun p => decodeTableWord 32 p.1 == some p.2) = true := by
  decide

theorem test_decode_ldq :
    [(0x566B1C80, .ldq8 ⟨0, 1, 26, 49, 200⟩),
      (0xD6FD6ED1, .ldq8s ⟨1, 1, 63, 22, 237⟩),
      (0x1693B122, .ldq16 ⟨0, 0, 36, 59, 18⟩),
      (0x96260373, .ldq16s ⟨1, 0, 9, 32, 55⟩),
      (0x56B855C4, .ldq32 ⟨0, 1, 46, 5, 92⟩),
      (0xD64EA815, .ldq64 ⟨1, 1, 19, 42, 129⟩)].all (fun p => decodeTableWord 32 p.1 == some p.2) = true := by
  decide

theorem test_decode_st :
    [(0x170DAB10, .st8 ⟨0, 0, 3, 26, 177⟩),
      (0x97A3FD62, .st16 ⟨1, 0, 40, 63, 214⟩),
      (0x57364FB4, .st32 ⟨0, 1, 13, 36, 251⟩),
      (0xD7C89205, .st64 ⟨1, 1, 50, 9, 32⟩),
      (0x175EE456, .st128 ⟨0, 0, 23, 46, 69⟩),
      (0x97F13517, .stl32 ⟨1, 0, 60, 19, 10, 1⟩),
      (0x578787E8, .stl64 ⟨0, 1, 33, 56, 15, 6⟩)].all (fun p => decodeTableWord 32 p.1 == some p.2) = true := by
  decide

theorem test_decode_atom :
    [(0xD8468FE0, .atomAdd ⟨1, 1, 17, 40, 63, 2⟩),
      (0x18D8D931, .atomSub ⟨0, 0, 54, 13, 36, 3⟩),
      (0x986F2242, .atomAnd ⟨1, 0, 27, 50, 9, 0⟩),
      (0x58017B93, .atomOr ⟨0, 1, 0, 23, 46, 1⟩),
      (0xD897C4E4, .atomXor ⟨1, 1, 37, 60, 19, 2⟩),
      (0x182A1E35, .atomMin ⟨0, 0, 10, 33, 56, 3⟩),
      (0x98BC6746, .atomMax ⟨1, 0, 47, 6, 29, 0⟩),
      (0x587F6347, .atomMinu ⟨0, 1, 31, 54, 13, 0⟩),
      (0xD811BC98, .atomMaxu ⟨1, 1, 4, 27, 50, 1⟩),
      (0x18A405E9, .atomXchg ⟨0, 0, 41, 0, 23, 2⟩),
      (0x983A5F3A, .atomFadd ⟨1, 0, 14, 37, 60, 3⟩),
      (0x58CCA84B, .atomFmin ⟨0, 1, 51, 10, 33, 0⟩),
      (0xD862F19C, .atomFmax ⟨1, 1, 24, 47, 6, 1⟩),
      (0x18F54AED, .atomAdd64 ⟨0, 0, 61, 20, 43, 2⟩),
      (0x98B446EE, .atomXchg64 ⟨1, 0, 45, 4, 27, 2⟩),
      (0x584A903F, .atomBadd2 ⟨0, 1, 18, 41, 0, 3⟩)].all (fun p => decodeTableWord 32 p.1 == some p.2) = true := by
  decide

theorem test_decode_atomn :
    [(0xD9DCE940, .atomnAdd ⟨1, 1, 55, 14, 37, 0⟩),
      (0x19733291, .atomnSub ⟨0, 0, 28, 51, 10, 1⟩),
      (0x99058BE2, .atomnAnd ⟨1, 0, 1, 24, 47, 2⟩),
      (0x599BD533, .atomnOr ⟨0, 1, 38, 61, 20, 3⟩),
      (0xD92E2E44, .atomnXor ⟨1, 1, 11, 34, 57, 0⟩),
      (0x19ED2A45, .atomnMin ⟨0, 0, 59, 18, 41, 0⟩),
      (0x99837396, .atomnMax ⟨1, 0, 32, 55, 14, 1⟩),
      (0x5915CCE7, .atomnMinu ⟨0, 1, 5, 28, 51, 2⟩),
      (0xD9A81638, .atomnMaxu ⟨1, 1, 42, 1, 24, 3⟩),
      (0x193E6F49, .atomnXchg ⟨0, 0, 15, 38, 61, 0⟩),
      (0x99D0B89A, .atomnFadd ⟨1, 0, 52, 11, 34, 1⟩),
      (0x596701EB, .atomnFmin ⟨0, 1, 25, 48, 7, 2⟩),
      (0xD9260DEC, .atomnFmax ⟨1, 1, 9, 32, 55, 2⟩),
      (0x19B8573D, .atomnAdd64 ⟨0, 0, 46, 5, 28, 3⟩),
      (0x994EA04E, .atomnXchg64 ⟨1, 0, 19, 42, 1, 0⟩),
      (0x59E0F99F, .atomnBadd2 ⟨0, 1, 56, 15, 38, 1⟩)].all (fun p => decodeTableWord 32 p.1 == some p.2) = true := by
  decide

theorem test_decode_cas :
    [(0xDA7742E0, .cas32 ⟨1, 1, 29, 52, 11, 2⟩),
      (0x1A099C31, .cas64 ⟨0, 0, 2, 25, 48, 3⟩)].all (fun p => decodeTableWord 32 p.1 == some p.2) = true := by
  decide

theorem test_decode_fence :
    [(0x9B9FE540, .fence ⟨1, 0, 39, 62, 21, 0⟩),
      (0x5B5EE141, .fenceAcq ⟨0, 1, 23, 46, 5, 0⟩),
      (0xDBF13A92, .fenceRel ⟨1, 1, 60, 19, 42, 1⟩),
      (0x1B8783E3, .tfence ⟨0, 0, 33, 56, 15, 2⟩),
      (0x9B19DD34, .efence ⟨1, 0, 6, 29, 52, 3⟩),
      (0x5BAC2645, .fenceSp ⟨0, 1, 43, 2, 25, 0⟩)].all (fun p => decodeTableWord 32 p.1 == some p.2) = true := by
  decide

theorem test_decode_axb :
    [(0xDC4270BE, .axb ⟨1, 1, 16, 39, 190⟩)].all (fun p => decodeTableWord 32 p.1 == some p.2) = true := by
  decide

theorem test_decode_axop :
    [(0x1DD4C8E0, .axe ⟨0, 0, 53, 12, 35, 2⟩),
      (0x9D97C4E1, .axa ⟨1, 0, 37, 60, 19, 2⟩),
      (0x5D2A1E32, .axs ⟨0, 1, 10, 33, 56, 3⟩)].all (fun p => decodeTableWord 32 p.1 == some p.2) = true := by
  decide

theorem test_decode_post :
    [(0xDEBC6800, .post ⟨1, 1, 47, 6, 32, 0⟩)].all (fun p => decodeTableWord 32 p.1 == some p.2) = true := by
  decide

theorem test_decode_lxch :
    [(0x2052B089, .lxchPick ⟨0, 0, 20, 43, 2, 9⟩),
      (0xA0E509DE, .lxchRot ⟨1, 0, 57, 16, 39, 14⟩),
      (0x607B5323, .lxchStep ⟨0, 1, 30, 53, 12, 3⟩),
      (0xE00DAC78, .lxchRefl ⟨1, 1, 3, 26, 49, 8⟩)].all (fun p => decodeTableWord 32 p.1 == some p.2) = true := by
  decide

theorem test_decode_xred :
    [(0x21CCA018, .redadd ⟨0, 0, 51, 10, 1, 8⟩),
      (0xA162F06D, .redmin ⟨1, 0, 24, 47, 2, 13⟩),
      (0x61F540B2, .redmax ⟨0, 1, 61, 20, 3, 2⟩),
      (0xE18B90C7, .redminu ⟨1, 1, 34, 57, 0, 7⟩),
      (0x211DE11C, .redmaxu ⟨0, 0, 7, 30, 1, 12⟩),
      (0xA1B03161, .redand ⟨1, 0, 44, 3, 2, 1⟩),
      (0x614681B6, .redor ⟨0, 1, 17, 40, 3, 6⟩),
      (0xE10581F6, .redxor ⟨1, 1, 1, 24, 3, 6⟩),
      (0x219BD20B, .scanadd ⟨0, 0, 38, 61, 0, 11⟩),
      (0xA12E2250, .scanaddx ⟨1, 0, 11, 34, 1, 0⟩),
      (0x61C072A5, .redfadd ⟨0, 1, 48, 7, 2, 5⟩)].all (fun p => decodeTableWord 32 p.1 == some p.2) = true := by
  decide

theorem test_decode_xvote :
    [(0xE256C03A, .lany ⟨1, 1, 21, 44, 3, 10⟩),
      (0x22E9104F, .lall ⟨0, 0, 58, 17, 0, 15⟩),
      (0xA27F6094, .lmap ⟨1, 0, 31, 54, 1, 4⟩),
      (0x623E60D4, .lpeer ⟨0, 1, 15, 38, 1, 4⟩),
      (0xE2D0B129, .lfirst ⟨1, 1, 52, 11, 2, 9⟩),
      (0x2267017E, .lcount ⟨0, 0, 25, 48, 3, 14⟩)].all (fun p => decodeTableWord 32 p.1 == some p.2) = true := by
  decide

theorem test_decode_mask :
    [(0xA3F95003, .join ⟨1, 0, 62, 21, 0, 3⟩),
      (0x638FA058, .leave ⟨0, 1, 35, 58, 1, 8⟩),
      (0xE321F0AD, .waitm ⟨1, 1, 8, 31, 2, 13⟩),
      (0x23B440F2, .mget ⟨0, 0, 45, 4, 3, 2⟩),
      (0xA3774132, .mset ⟨1, 0, 29, 52, 3, 2⟩),
      (0x63099147, .mand ⟨0, 1, 2, 25, 0, 7⟩),
      (0xE39FE19C, .mor ⟨1, 1, 39, 62, 1, 12⟩),
      (0x233231E1, .mandn ⟨0, 0, 12, 35, 2, 1⟩),
      (0xA3C48236, .mclr ⟨1, 0, 49, 8, 3, 6⟩)].all (fun p => decodeTableWord 32 p.1 == some p.2) = true := by
  decide

theorem test_decode_team :
    [(0x645AD130, .tnew ⟨0, 1, 22, 45, 4, 3⟩),
      (0xE4ED2A41, .tfree ⟨1, 1, 59, 18, 41, 0⟩),
      (0x24AC2642, .tjoin ⟨0, 0, 43, 2, 25, 0⟩),
      (0xA4427F93, .tleave ⟨1, 0, 16, 39, 62, 1⟩),
      (0x64D4C8E4, .tbar ⟨0, 1, 53, 12, 35, 2⟩),
      (0xE46B1235, .tarrive ⟨1, 1, 26, 49, 8, 3⟩),
      (0x24FD6B46, .twaitp ⟨0, 0, 63, 22, 45, 0⟩)].all (fun p => decodeTableWord 32 p.1 == some p.2) = true := by
  decide

theorem test_decode_matrix :
    [(0xA53D9231, .mma ⟨1, 0, 0, 123, 18, 3, 0, 1⟩),
      (0x66606E6A, .mmag ⟨0, 1, 1, 32, 55, 3, 5, 0⟩)].all (fun p => decodeTableWord 32 p.1 == some p.2) = true := by
  decide

theorem test_decode_acc :
    [(0xE7E509E0, .aacq ⟨1, 1, 57, 16, 39, 2⟩),
      (0x277B5331, .arel ⟨0, 0, 30, 53, 12, 3⟩),
      (0xA70DAC42, .azero ⟨1, 0, 3, 26, 49, 0⟩),
      (0x67A3F593, .amov ⟨0, 1, 40, 63, 22, 1⟩),
      (0xE7364EE4, .amovin ⟨1, 1, 13, 36, 59, 2⟩),
      (0x27C89835, .ascale ⟨0, 0, 50, 9, 32, 3⟩),
      (0xA75EE286, .astore ⟨1, 0, 23, 46, 10, 0⟩),
      (0x671DED47, .aload ⟨0, 1, 7, 30, 53, 0⟩)].all (fun p => decodeTableWord 32 p.1 == some p.2) = true := by
  decide

theorem test_decode_scale :
    [(0xE8B03690, .sld ⟨1, 1, 44, 3, 26, 1⟩),
      (0x28468FE1, .sst ⟨0, 0, 17, 40, 63, 2⟩),
      (0xA8B4D932, .sbind ⟨1, 0, 45, 13, 36, 3⟩),
      (0x68DB2243, .sunbind ⟨0, 1, 27, 50, 9, 0⟩),
      (0xE8057B93, .sunbindReg ⟨1, 1, 0, 23, 46, 1⟩),
      (0x2897C4E4, .sadd ⟨0, 0, 37, 60, 19, 2⟩),
      (0xA856C0E5, .smax ⟨1, 0, 21, 44, 3, 2⟩),
      (0x68D11A36, .scvtUe5m3 ⟨0, 1, 26, 17, 40, 3⟩),
      (0xE8FF6346, .scvtE8m0 ⟨1, 1, 31, 54, 13, 0⟩),
      (0x2811BC97, .smov ⟨0, 0, 4, 27, 50, 1⟩),
      (0xA8A405E8, .sqry ⟨1, 0, 41, 0, 23, 2⟩)].all (fun p => decodeTableWord 32 p.1 == some p.2) = true := by
  decide

theorem test_decode_tcopy :
    [(0x693A5F30, .tcopy ⟨0, 1, 14, 37, 60, 3⟩),
      (0xE9CCA841, .tgather ⟨1, 1, 51, 10, 33, 0⟩)].all (fun p => decodeTableWord 32 p.1 == some p.2) = true := by
  decide

theorem test_decode_handle :
    [(0x2A8FA440, .hnew ⟨0, 0, 35, 58, 17, 0⟩),
      (0xAA21FD91, .hgive ⟨1, 0, 8, 31, 54, 1⟩),
      (0x6AB446E2, .htake ⟨0, 1, 45, 4, 27, 2⟩),
      (0xEA4A9033, .hqry ⟨1, 1, 18, 41, 0, 3⟩),
      (0x2ADCE944, .hfree ⟨0, 0, 55, 14, 37, 0⟩)].all (fun p => decodeTableWord 32 p.1 == some p.2) = true := by
  decide

theorem test_decode_syncw :
    [(0xAB733290, .swinit ⟨1, 0, 28, 51, 10, 1⟩),
      (0x6B058BE1, .swwait ⟨0, 1, 1, 24, 47, 2⟩),
      (0xEBC487E2, .swadd ⟨1, 1, 49, 8, 31, 2⟩),
      (0x2B5AD133, .swgen ⟨0, 0, 22, 45, 4, 3⟩)].all (fun p => decodeTableWord 32 p.1 == some p.2) = true := by
  decide

theorem test_decode_rlcgo :
    [(0xACED2A40, .rlcgo ⟨1, 0, 59, 18, 41, 0⟩)].all (fun p => decodeTableWord 32 p.1 == some p.2) = true := by
  decide

theorem test_decode_hints :
    [(0x788370E4, .pref ⟨0, 1, 32, 55, 14, 1, 0⟩),
      (0xF915CCE1, .cpol ⟨1, 1, 5, 28, 51, 2, 1⟩),
      (0x3AA81C58, .prio ⟨0, 0, 42, 1, 3160⟩),
      (0xBB002C4F, .hintRegionNop ⟨1, 0, 11343⟩)].all (fun p => decodeTableWord 32 p.1 == some p.2) = true := by
  decide

/-- Each check of Instr.wellFormed refuses an ill-formed term. -/
theorem test_ill_formed_terms_are_refused :
    [Instr.post ⟨0, 0, 0, 6, 12, 0⟩, .illegalWord 0x01186280, .mma ⟨0, 0, 1, 2, 3, 10, 0, 0⟩, .mmag ⟨0, 0, 1, 2, 3, 15, 0, 0⟩,
      .astore ⟨0, 0, 0, 6, 32, 0⟩, .sbind ⟨0, 0, 3, 6, 0, 0⟩, .arrayAccept 384, .commit 384, .commitLineTimeout 400,
      .hangSample 384, .faultRecordWrite 4, .rlcCommandStart 4, .copyStart 48 0, .copyBlock 0 16, .copyComplete 48 16,
      .thermalSample 4 20, .linkState 1024 1 0, .directoryRebuild 1024, .heartbeatTimeout 1024, .soloLossTimer 1024,
      .peerLoss 1024, .suspect 0 1024, .confirm 1024 0, .ack 64 0 0, .nak 0 16 0, .ackTimer 64 0, .linkRetrainTimer 64,
      .csyncTimer 64, .linkDownTimeout 64, .commLoad 16, .commLoadFinish 16, .commFree 16, .commAbort 16, .runStart 16,
      .chunkApply 16 0 0, .runfail 16 0 0, .invalidationGo 32, .invalidationAck 32 0, .invalidationAck 0 1024,
      .crossbarFlitError 48 0 false 0, .crossbarFlitError 0 8 false 0].all (fun i => !i.wellFormed) = true := by decide

/-- The same terms with their argument in range are well formed. -/
theorem test_well_formed_terms :
    [Instr.post ⟨0, 0, 0, 6, 16, 0⟩, .illegalWord 0x1F000000, .mma ⟨0, 0, 1, 2, 3, 9, 0, 0⟩, .mmag ⟨0, 0, 1, 2, 3, 9, 0, 0⟩,
      .astore ⟨0, 0, 0, 6, 24, 0⟩, .sbind ⟨0, 0, 2, 6, 0, 0⟩, .arrayAccept 383, .copyStart 47 15, .thermalSample 3 20,
      .linkState 1023 1 0, .ack 63 15 0, .csyncTimer 63, .commLoad 15, .invalidationAck 31 1023].all Instr.wellFormed = true := by
  decide

/-- Unassigned majors, selectors and sub-fields (R49, R51, R52) are refused, by name. -/
theorem test_illegal_words_are_refused :
    [0x1F000000, 0x2D000000, 0x3C000000, 0x0000000D, 0x0300000C, 0x0E00000C, 0x1000000E, 0x14000002, 0x15000009, 0x16000006,
      0x17000001, 0x1A000002, 0x1B000006, 0x1D000003, 0x1E000001, 0x210002C0, 0x22000180, 0x23000240, 0x24000007, 0x250000A0,
      0x26000140, 0x27000008, 0x27000806, 0x28000009, 0x280C0002, 0x29000002, 0x2A000005, 0x2B000004, 0x2C000001].all
      (fun w => decodeTableWord 32 w == none && (instrOf (BitVec.ofNat 32 w) == .illegalWord (BitVec.ofNat 32 w))) = true := by
  decide

/-- A well-formed instruction's word is the word it decodes from: SHI with its ignored bits set, ST128, MMAG. -/
theorem test_words_encode :
    encode (.shli ⟨1, 0, 6, 7, 15, 31⟩) = some 0x88187F1F ∧ encode (.st128 ⟨0, 1, 8, 10, 255⟩) = some 0x5720AFF6 ∧
    encode (.mmag ⟨0, 0, 2, 33, 65, 9, 5, 1⟩) = some 0x26A1832B ∧ encode (.commit 0) = none := ⟨rfl, rfl, rfl, rfl⟩

/-! ## Effects

What one word of lane 0 leaves in a register: the expected values are the spec's own examples and tables. -/

/-- The state ts whose lane 0 has registers and an FPC. -/
def withRegs (regs : List (Nat × Nat)) (fpc : Nat) : State :=
  { ts with
    gangs := [(0, tg.onLanes 1#64 fun _ t =>
      { regs.foldl (fun t e => t.setReg e.1 (BitVec.ofNat 32 e.2)) t with fpc := BitVec.ofNat 32 fpc })] }
/-- Register r of lane 0 after a word, from those registers. -/
noncomputable def leaves (w : Nat) (regs : List (Nat × Nat)) (fpc r : Nat) : Option Nat :=
  match exec (instrOf (BitVec.ofNat 32 w)) (withRegs regs fpc) with
  | .next t => some ((t.thread 0 0).regs.get 0 r).toNat
  | _ => none

/-- The examples of spec/04: ADD64 carries (and ignores the low bit of a pair field), ADD does not; BFX, BFXS, BFI (R91). -/
theorem test_integer_examples :
    leaves 0x0238A30C [(10, 0xFFFFFFFF), (11, 1), (12, 1)] 0 15 = some 2 ∧
    leaves 0x023CB34C [(10, 0xFFFFFFFF), (11, 1), (12, 1)] 0 15 = some 2 ∧
    leaves 0x0138A300 [(10, 0xFFFFFFFF), (12, 1), (15, 9)] 0 15 = some 9 ∧
    leaves 0x03206104 [(6, 0x12345678), (4, 0x804)] 0 8 = some 0x67 ∧
    leaves 0x03206105 [(6, 0x12345F78), (4, 0x804)] 0 8 = some 0xFFFFFFF7 ∧
    leaves 0x03206106 [(6, 0xAB), (4, 0x804), (8, 0)] 0 8 = some 0xAB0 ∧
    leaves 0x02206101 [(6, 0x80000000)] 0 8 = some 0x80000000 ∧
    leaves 0x02206102 [] 0 8 = some 32 ∧
    leaves 0x0120610B [(6, 0x80000000), (4, 40)] 0 8 = some 0xFFFFFFFF ∧
    leaves 0x0120610C [(6, 0x80000001), (4, 33)] 0 8 = some 3 := by decide +kernel

/-- The example of spec/04: MOVL and then MOVH build 0xDEADBEEF; 0x04145FFF counts v5 down. -/
theorem test_move_examples :
    leaves 0x0A203EEF [] 0 8 = some 0x3EEF ∧ leaves 0x0B237AB6 [(8, 0x3EEF)] 0 8 = some 0xDEADBEEF ∧
    leaves 0x04145FFF [(5, 3)] 0 5 = some 2 := by decide +kernel

/-- Table 5.3: FMIN, FMAX and FCMPLT of a NaN and of zeros; with FTZ a subnormal reads as zero. -/
theorem test_table_5_3 :
    leaves 0x0C206104 [(6, 0x7FC00000), (4, 0x40000000)] 0 8 = some 0x40000000 ∧
    leaves 0x0C206105 [(6, 0x7F800001), (4, 0x40000000)] 0 8 = some 0x40000000 ∧
    leaves 0x0C206107 [(6, 0x7FC00000), (4, 0x40000000)] 0 8 = some 0 ∧
    leaves 0x0C206104 [(6, 0x80000000), (4, 0)] 0 8 = some 0x80000000 ∧ leaves 0x0C206105 [(6, 0x80000000), (4, 0)] 0 8 = some 0 ∧
    leaves 0x0C206105 [(6, 1), (4, 0)] 0 8 = some 1 ∧ leaves 0x0C206105 [(6, 1), (4, 0)] 4 8 = some 0 := by decide +kernel

/-- R117: FRND of −0.3 under RNE is −0; the example of R120: HFMA2.h; the example of R124: PACKE4. -/
theorem test_float_examples :
    leaves 0x0C20600E [(6, 0xBE99999A)] 0 8 = some 0x80000000 ∧
    leaves 0x0D20928B [(9, 0x3C007BFF), (10, 0x40004000), (8, 0x3C000000)] 0 8 = some 0x42007C00 ∧
    leaves 0x0F1461CC [(6, 0x43FA0000), (7, 0xBC23D70A)] 0x18 5 = some 0x857E := by decide +kernel

/-- Table 5.7: float to integer out of range and of NaN; R123: −0.4 to an unsigned integer. -/
theorem test_table_5_7 :
    leaves 0x0F206000 [(6, 0x4F000000)] 0 8 = some 0x7FFFFFFF ∧ leaves 0x0F206000 [(6, 0xFF800000)] 0 8 = some 0x80000000 ∧
    leaves 0x0F206002 [(6, 0x7F800000)] 0 8 = some 0xFFFFFFFF ∧ leaves 0x0F206002 [(6, 0xBF800000)] 0 8 = some 0 ∧
    leaves 0x0F206002 [(6, 0xBECCCCCD)] 0 8 = some 0 ∧ leaves 0x0F206000 [(6, 0x7FC00000)] 0 8 = some 0 := by decide +kernel

/-- A state in which a word executes in every lane of a gang of width 16 (0) or 32 (1); v8 of lane l holds f l. -/
def wide (w n : Nat) (f : Nat → Nat) : State :=
  let r := { soloRecord with threads := n, width := w }
  let G := (startGang r 0 0 0 0).onLanes (BitVec.ofNat 64 (2 ^ n - 1)) fun l t => t.setReg 8 (BitVec.ofNat 32 (f l))
  { ts with
    gangs := [(0, G)], spawns := [(0, newSpawn 1 r 0 0 0 none none n [])]
    ctx := some { tc with lanes := BitVec.ofNat 64 (2 ^ n - 1) } }
/-- What some lanes receive when a whole gang has arrived at a cross-lane word. -/
noncomputable def gangReceives (w : Nat) (s : State) (lanes : List Nat) : Option (List (Option Nat)) :=
  match exec (instrOf (BitVec.ofNat 32 w)) s with
  | .next t => some (lanes.map fun l => (((t.onGang 0 fun G => G.recheck 0).thread 0 l).grant).map (·.toNat))
  | _ => none
/-- The keys of the example of R177. -/
def peerKeys (l : Nat) : Nat := if l ∈ [2, 4, 8, 15] then 3 else if l ∈ [5, 12] then 9 else 7

/-- The operands of the example of R174: the lane number in v8, B in v7. -/
def withB (b : Nat) : State :=
  let s := wide 1 32 id
  s.onGang 0 fun G => G.onLanes (BitVec.ofNat 64 (2 ^ 32 - 1)) fun _ t => t.setReg 7 (BitVec.ofNat 32 b)

/-- The example of R177: LPEER v10, v8, m0 gives each lane the lanes with its key. -/
theorem test_lpeer_example :
    gangReceives 0x222880C0 (wide 0 16 peerKeys) [0, 1, 2, 5, 15] = some [some 0x6ECB, some 0x6ECB, some 0x8114, some 0x1020, some 0x8114] := by
  decide +kernel

/-- The example of R174: the four modes of LXCH at width 32, A the lane number. -/
theorem test_lxch_example :
    gangReceives 0x201881C0 (withB 7) [0, 5, 31] = some [some 7, some 7, some 7] ∧
    gangReceives 0x201881C0 (withB 40) [0, 5, 31] = some [some 0, some 5, some 31] ∧
    gangReceives 0x201881D0 (withB 1) [0, 5, 31] = some [some 1, some 6, some 0] ∧
    gangReceives 0x201881E0 (withB 0xFFFFFFFF) [0, 5, 31] = some [some 0, some 4, some 30] ∧
    gangReceives 0x201881F0 (withB 16) [0, 5, 31] = some [some 16, some 21, some 15] := by decide +kernel

/-- The result of a divide, by Table 4.3 (class L: it reaches its register later). -/
noncomputable def quotient (w a b : Nat) : Option (List Word) :=
  match exec (instrOf (BitVec.ofNat 32 w)) (withRegs [(6, a), (4, b)] 0) with
  | .next t => (t.pending.head?).bind (·.values)
  | _ => none

theorem test_table_4_3 :
    quotient 0x03206100 7 0xFFFFFFFE = some [0xFFFFFFFD] ∧ quotient 0x03206102 7 0xFFFFFFFE = some [1] ∧
    quotient 0x03206100 0xFFFFFFF9 2 = some [0xFFFFFFFD] ∧ quotient 0x03206102 0xFFFFFFF9 2 = some [0xFFFFFFFF] ∧
    quotient 0x03206101 0xFFFFFFF9 2 = some [0x7FFFFFFC] ∧ quotient 0x03206103 0xFFFFFFF9 2 = some [1] ∧
    quotient 0x03206100 0x80000000 0xFFFFFFFF = some [0x80000000] ∧ quotient 0x03206102 0x80000000 0xFFFFFFFF = some [0] ∧
    quotient 0x03206100 9 0 = some [0xFFFFFFFF] ∧ quotient 0x03206103 9 0 = some [9] := by decide +kernel

/-- A word placed where a step fetches runs as the first instruction after reset: ADDI v5, v0, 9. -/
theorem test_first_instruction :
    (match step (State.reset.withFetchWord 32 0x04140009) with
      | .next t => ((t.thread 0 0).regs.get 0 5).toNat
      | _ => 0) = 9 := by decide +kernel

/-- The example of R70: DL2 index 0x25B3. -/
theorem test_dl2_example : dl2Index 0x25B3 = [0xBC, 0x3C, 0xB0, 0x30, 0x3C, 0xBC, 0x30, 0x3C] := by decide

/-- The example of R128: FEXP2 of 130.0 under FPC = 8 leaves +∞ for v12. -/
theorem test_fexp2_example :
    (match exec (instrOf 0x5030D004) (withRegs [(13, 0x43020000)] 8) with
      | .next t => (t.pending.head?).bind (·.values)
      | _ => none) = some [0x7F800000] := by decide +kernel

/-! ## Witnesses: words of registers -/

/-- A gang like tg whose lane 0 is changed. -/
def tgOf (f : Thread → Thread) : Gang := tg.onLanes 1#64 fun _ => f
/-- A state like ts with that gang. -/
def tsOf (G : Gang) : State := { ts with gangs := [(0, G)] }

theorem tsOf_issuing (G : Gang) (h0 : 0 < G.threads.length) (h1 : (G.thread 0).exiting = false)
    (h2 : (G.thread 0).swTrap = none) : Issuing (tsOf G) tc G :=
  issuing_of (tsOf G) tc G rfl rfl rfl rfl rfl h0 h1 h2

theorem tsOf_ready (G : Gang) (h0 : 0 < G.threads.length) (h1 : (G.thread 0).exiting = false)
    (h2 : (G.thread 0).swTrap = none) (fields reads writes : List Nat) (hf : ∀ e ∈ fields, e < 60)
    (hr : ∀ r ∈ reads ++ writes, r < 32) : Ready (tsOf G) tc G fields reads writes :=
  ready_of (tsOf_issuing G h0 h1 h2) rfl _ _ _ hf hr

/-- The hypothesis of the words of two registers, of one, of pairs, and of the words that read D. -/
theorem witness_registerWords :
    Ready ts tc tg [fa.a.toNat, fa.b.toNat] (Use.regs .reg fa.a.toNat ++ Use.regs .reg fa.b.toNat) (Use.regs .reg fa.d.toNat) ∧
    Ready ts tc tg [fa.a.toNat, fa.b.toNat]
      (Use.regs .reg fa.d.toNat ++ Use.regs .reg fa.a.toNat ++ Use.regs .reg fa.b.toNat) (Use.regs .reg fa.d.toNat) ∧
    Ready ts tc tg [fa.a.toNat] (Use.regs .reg fa.a.toNat) (Use.regs .reg fa.d.toNat) ∧
    Ready ts tc tg [fa.a.toNat, fa.b.toNat] (Use.regs .reg fa.a.toNat ++ Use.regs .reg fa.b.toNat) (Use.regs .pair fa.d.toNat) ∧
    Ready ts tc tg [fa.b.toNat] (Use.regs .pair fa.a.toNat ++ Use.regs .reg fa.b.toNat) (Use.regs .pair fa.d.toNat) ∧
    Ready ts tc tg [] (Use.regs .pair fa.a.toNat ++ Use.regs .pair fa.b.toNat) (Use.regs .pair fa.d.toNat) := by
  refine ⟨?_, ?_, ?_, ?_, ?_, ?_⟩ <;> exact ts_ready _ _ _ (by decide) (by decide)

/-- SingleRegisterWordsWriteTheirResult: also the top field of a register, whose bits are 0 here. -/
theorem witness_SingleRegisterWordsWriteTheirResult :
    Ready ts tc tg [fa.a.toNat, fa.b.toNat] (Use.regs .reg fa.a.toNat ++ Use.regs .reg fa.b.toNat) (Use.regs .reg fa.d.toNat) ∧
    (∀ l : Nat, (0#32).toNat = (operand tc tg l [] fa.a.toNat).toNat / 2 ^ 31 % 2 ^ 1 ∨ l ≠ 0) :=
  ⟨witness_registerWords.1, fun l => by
    by_cases h : l = 0
    · left; subst h; decide
    · exact .inr h⟩

/-- A word that discards: D is v0 and A is v59, the last name that does not pop. -/
theorem witness_discardingForms :
    Ready { ts with gangs := [(0, { tg with xblk := true })] } tc { tg with xblk := true } [59, 0]
      (Use.regs .reg 59 ++ Use.regs .reg 0) (Use.regs .reg 0) :=
  ready_of (issuing_of _ tc _ rfl rfl rfl rfl rfl (by decide) (by decide) (by decide)) rfl _ _ _ (by decide) (by decide)

/-- A word that pops a queue: field 60 where queue 0 holds a filled entry. -/
theorem witness_queueField :
    let G := tgOf fun t => { t with queues := [[.filled 7], [], [], []] }
    Ready (tsOf G) tc G [60, 5] (Use.regs .reg 60 ++ Use.regs .reg 5) (Use.regs .reg 8) := by
  intro G
  exact {
    issuing := tsOf_issuing G (by decide) (by decide) (by decide)
    readable := ⟨.inr (by decide), fun l _ r _ => rfl⟩
    fed := fun l h q hq => by
      rw [lane_eq h]
      have : ∀ q < 4, List.count (60 + q) [60, 5] ≤ filledCount (nth [] (G.thread 0).queues q) := by decide
      exact this q hq
    permitted := .inl fun l h => by rw [lane_eq h]; decide }

theorem witness_UnarySelectAndPairWordsWriteTheirResult :
    Ready ts tc tg [fa.a.toNat, fa.b.toNat]
      (Use.regs .reg fa.d.toNat ++ Use.regs .reg fa.a.toNat ++ Use.regs .reg fa.b.toNat) (Use.regs .reg fa.d.toNat) ∧
    Roomy tc tg := ⟨witness_registerWords.2.1, ts_roomy⟩

theorem witness_DividesLeaveTheirResultOutstanding :
    Ready ts tc tg [fa.a.toNat, fa.b.toNat] (Use.regs .reg fa.a.toNat ++ Use.regs .reg fa.b.toNat) (Use.regs .reg fa.d.toNat) :=
  witness_registerWords.1

theorem witness_ImmediateWordsWriteTheirResult (f : FmtI) (h : f = ⟨0, 0, 8, 6, 0x800⟩) (g : FmtL) (hg : g = ⟨0, 0, 8, 0x3FFFF⟩) :
    Ready ts tc tg [f.a.toNat] (Use.regs .reg f.a.toNat) (Use.regs .reg f.d.toNat) ∧
    Ready ts tc tg [] [] (Use.regs .reg g.d.toNat) ∧ Ready ts tc tg [] (Use.regs .reg g.d.toNat) (Use.regs .reg g.d.toNat) := by
  subst h hg
  refine ⟨?_, ?_, ?_⟩ <;> exact ts_ready _ _ _ (by decide) (by decide)

theorem witness_FloatWordsWriteTheirResult :
    Ready ts tc tg [] (Use.regs .pair fa.d.toNat ++ (Use.regs .pair fa.a.toNat ++ Use.regs .pair fa.b.toNat))
      (Use.regs .pair fa.d.toNat) ∧
    Ready ts tc tg [fa.a.toNat, fa.b.toNat]
      (Use.regs .reg fa.d.toNat ++ Use.regs .reg fa.a.toNat ++ Use.regs .reg fa.b.toNat) (Use.regs .reg fa.d.toNat) :=
  ⟨ts_ready _ _ _ (by decide) (by decide), witness_registerWords.2.1⟩

theorem witness_ConversionsWriteTheirResult :
    Ready ts tc tg [fa.a.toNat] (Use.regs .reg fa.a.toNat) (Use.regs .pair fa.d.toNat) ∧
    Ready ts tc tg [] (Use.regs .pair fa.a.toNat) (Use.regs .reg fa.d.toNat) :=
  ⟨ts_ready _ _ _ (by decide) (by decide), ts_ready _ _ _ (by decide) (by decide)⟩

theorem witness_SfuWordsLeaveTheirResultOutstanding :
    Ready ts tc tg [fa.a.toNat] (Use.regs .reg fa.d.toNat ++ Use.regs .reg fa.a.toNat) (Use.regs .reg fa.d.toNat) ∧
    Ready ts tc tg [] (Use.regs .pair fa.a.toNat) (Use.regs .pair fa.d.toNat) :=
  ⟨ts_ready _ _ _ (by decide) (by decide), ts_ready _ _ _ (by decide) (by decide)⟩

/-- A value that overflows under RNE, one that does not under RZ, a tie, and operands of an exact zero sum. -/
theorem witness_RoundingFollowsItsMode :
    fpOverflow ∈ (fp32.encode 0 (.fin false 1 128)).causes ∧ fpOverflow ∉ (fp32.encode 1 (.fin true 0x1FFFFFF 103)).causes ∧
    (exactOf (fp32.decode (fp32.encode 0 (.fin false 0x1000001 0)).bits)).isSome = true ∧
    (∃ p : ℚ, exactOf (.fin false 1 0) = some p ∧ p ≠ 0) ∧ (exactOf (.fin true 1 0)).isSome = true := by
  refine ⟨by decide, by decide, by rfl, ⟨1, ?_, by norm_num⟩, rfl⟩
  simp [exactOf]

theorem witness_FloatSpecialValuesFollowTheRules :
    (FVal.nan true).isNan = true ∧ (FVal.fin false 1 0).isNan = false ∧
    (∃ n, FVal.inf true = .inf n ∧ FVal.inf false = .inf (!n)) := ⟨rfl, rfl, true, rfl, rfl⟩

/-! ## Witnesses: control, SYS words, the extended block -/

theorem witness_BranchesAndJumpsGoToTheirTarget (f : FmtBr) (h : f = ⟨0, 0, 6, 0x7FFF⟩) :
    Ready ts tc tg [f.a.toNat] (Use.regs .reg f.a.toNat) [] ∧ Ready ts tc tg [] (Use.regs .pair f.a.toNat) [] ∧ Roomy tc tg ∧
    Ready ts tc tg [] [] [31] ∧ operand tc tg 0 [] 6 = 0 ∧ operand tc tg 0 [] 1 = 0 := by
  subst h
  exact ⟨ts_ready _ _ _ (by decide) (by decide), ts_ready _ _ _ (by decide) (by decide), ts_roomy,
    ts_ready _ _ _ (by decide) (by decide), by decide, by decide⟩

theorem witness_SpecialRegistersAreReadAndWritten :
    Ready ts tc tg [] [] (Use.regs .reg fa.d.toNat) ∧ (ts.spawns.find? (viewOf tc tg).spawn).isSome = true ∧
    Ready ts tc tg [fa.a.toNat] (Use.regs .reg fa.a.toNat) [] ∧ Outside tc tg :=
  ⟨ts_ready _ _ _ (by decide) (by decide), by decide, ts_ready _ _ _ (by decide) (by decide), ts_outside⟩

theorem witness_HintsAndYieldChangeNothingElse :
    Ready ts tc tg [] [] [] ∧ inLanes tc.lanes 0 = true ∧ (∀ l, inLanes tc.lanes l = true → l ≤ 0) ∧ tg.prefBy = none :=
  ⟨ts_ready _ _ _ (by decide) (by decide), by decide, fun l h => by rw [lane_eq h], rfl⟩

/-- A product of gang 0 on accumulator 1 that has issued and not completed. -/
def someProduct : MatOp :=
  { sn := 0, gang := 0, team := 3, acc := 1, kind := .product 0 true false (some (2 ^ 52)) [] (2 ^ 52) 0 0 [] [], accepted := false
    pc := 0, lanes := 1, m0 := 1, trapAll := false, start := 0, busy := 0, olds := [] }

theorem witness_ExitEndsTheThreadOnceItsResultsAreThere :
    (Ready ts tc tg [] [] [] ∧ tc.rest = 0 ∧ ∀ l, inLanes tc.lanes l = true →
      ts.outstandingL tc.gang l = false ∧ ts.outstandingQ tc.gang l = false ∧ ts.causesOpen tc.gang l = false) ∧
    (let c := { tc with since := 1 }
     let s := { ts with pending := [⟨0, 0, 0, 8, some [7], none⟩], ctx := some c }
     Ready s c tg [] [] [] ∧ Idle c tg ∧ ∀ l, inLanes c.lanes l = true → (s.beforeSn c.since).outstandingL c.gang l = true) ∧
    (inLanes someProduct.lanes 0 = true ∧ someProduct.mayLog = true ∧ someProduct.gang = 0) := by
  refine ⟨⟨ts_ready _ _ _ (by decide) (by decide), rfl, fun l h => ?_⟩, ⟨?_, fun l h => ?_, fun l h => ?_⟩, by decide⟩
  · rw [lane_eq h]; decide
  · exact ready_of (issuing_of _ _ tg rfl rfl rfl rfl rfl (by decide) (by decide) (by decide)) rfl _ _ _ (by decide) (by decide)
  · rw [lane_eq h]; decide
  · rw [lane_eq h]; decide

/-- A gang whose lane 0 has a handler at packet 64. -/
def tgHandler : Gang := tgOf fun t => { t with trapvec := 64 }

theorem witness_TrapsEnterTheHandlerAndEretReturns :
    let s := tsOf tgHandler
    Ready s tc tgHandler [] [] [] ∧ Outside tc tgHandler ∧ tc.rest = 0 ∧ tc.chained = false ∧
    (∀ l, inLanes tc.lanes l = true →
      (tgHandler.thread l).handler = false ∧ (tgHandler.thread l).trapvec ≠ 0 ∧ s.entryReady tc.gang l = true) ∧
    Issuing { s with ctx := some { tc with chained := true } } { tc with chained := true } tgHandler ∧
    Ready (tsOf (tgOf fun t => { t with handler := true })) tc (tgOf fun t => { t with handler := true }) [] [] [] := by
  refine ⟨tsOf_ready _ (by decide) (by decide) (by decide) _ _ _ (by decide) (by decide), fun l h => ?_, rfl, rfl,
    fun l h => ?_, issuing_of _ _ _ rfl rfl rfl rfl rfl (by decide) (by decide) (by decide),
    tsOf_ready _ (by decide) (by decide) (by decide) _ _ _ (by decide) (by decide)⟩
  · rw [lane_eq h]; decide
  · rw [lane_eq h]; decide

theorem witness_ATrapInAHandlerEndsTheSpawn :
    Issuing ts tc tg ∧ Outside tc tg ∧ tc.chained = false ∧
    (∃ l, inLanes tc.lanes l = true ∧ ((tg.thread l).handler = true ∨ (tg.thread l).trapvec = 0)) ∧
    ∃ sp, ts.spawns.find? tg.spawn = some sp ∧ sp.ending = none :=
  ⟨ts_issuing, ts_outside, rfl, ⟨0, by decide, .inr (by decide)⟩, _, rfl, rfl⟩

/-- A spawn whose record allows extended blocks. -/
def tsX (G : Gang) : State :=
  { tsOf G with spawns := [(0, newSpawn 1 { soloRecord with flags := 4 } 0 0 0 none none 1 [])] }

theorem tsX_ready (G : Gang) (h0 : 0 < G.threads.length) (h1 : (G.thread 0).exiting = false)
    (h2 : (G.thread 0).swTrap = none) (writes : List Nat) (hr : ∀ r ∈ ([] : List Nat) ++ writes, r < 32) :
    Ready (tsX G) tc G [] [] writes :=
  ready_of (issuing_of (tsX G) tc G rfl rfl rfl rfl rfl h0 h1 h2) rfl _ _ _ (by decide) hr

theorem witness_TheExtendedBlockIsAcquiredAndReleased :
    let G := { tg with xblk := true }
    (tc.pre = none ∧ Outside tc tg ∧ Outside tc G) ∧
    (Ready (tsX G) tc G [] [] [] ∧ (tsX G).xAllowed G = true ∧ G.xblk = true) ∧
    (Ready (tsX tg) tc tg [] [] [] ∧ ((tsX tg).xAllowed tg && (tsX tg).xRoom tc.gang tg && !(tsX tg).xWaiter tc.gang &&
      !(tsX tg).xacqQueue.contains tc.gang) = true ∧ tg.xblk = false) ∧
    (Ready ts tc tg [] [] (Use.regs .reg fa.d.toNat) ∧ ts.xAllowed tg = false) ∧
    (let s := { tsX tg with xacqQueue := [1] }
     Ready s tc tg [] [] [] ∧ s.xAllowed tg = true ∧ s.xWaiter tc.gang = true ∧ Idle tc tg) ∧
    (let c := { tc with released := true }
     ({ ts with ctx := some c } : State).ctx = some c ∧ c.released = true ∧ tc.cause = none) := by
  refine ⟨⟨rfl, ts_outside, ts_outside⟩, ⟨tsX_ready _ (by decide) (by decide) (by decide) _ (by decide), by decide, rfl⟩,
    ⟨tsX_ready _ (by decide) (by decide) (by decide) _ (by decide), by decide, rfl⟩,
    ⟨ts_ready _ _ _ (by decide) (by decide), by decide⟩,
    ⟨ready_of (issuing_of _ tc tg rfl rfl rfl rfl rfl (by decide) (by decide) (by decide)) rfl _ _ _ (by decide) (by decide),
    by decide, by decide, ts_idle⟩, rfl, rfl, rfl⟩

/-! ## Witnesses: memory words -/

/-- A gang in team 3, whose lane 0 has the first byte of scratch space in v6:v7. -/
def gm : Gang := { tgOf (fun t => { t with regs := [(7, 0x40000000)] }) with team := 3 }
/-- A state in which team 3 holds two slots, mapped at team slot 0. -/
def sm (G : Gang) : State :=
  { ts with
    gangs := [(0, G)]
    teams := [(3, { Team.blank with valid := true, cap := 32, windows := [(0, ⟨5, 0, 2, 0, 0⟩)] })]
    handles := [(5, { Handle.blank with valid := true, holder := 3, count := 2, mapped := true })] }
/-- Instruction fields: D v8, A the pair v6:v7, B v4. -/
def fm : FmtM := ⟨0, 0, 8, 6, 0⟩

theorem sm_ready (fields reads writes : List Nat) (h1 : ∀ e ∈ fields, e < 60) (h2 : ∀ r ∈ reads ++ writes, r < 32) :
    Ready (sm gm) tc gm fields reads writes :=
  ready_of (issuing_of (sm gm) tc gm rfl rfl rfl rfl rfl (by decide) (by decide) (by decide)) rfl _ _ _ h1 h2
theorem gm_outside : Outside tc gm := fun l h => by rw [lane_eq h]; decide
theorem gm_idle : Idle tc gm := fun l h => by rw [lane_eq h]; decide

theorem reaches_of {s : State} {c : IssueCtx} {G : Gang} {x : Target} {a : Nat → DWord} {va : DWord} {k : Nat} {b : Bool}
    (h : (s.locateAll c.gang (viewOf c G) (s.ctxOf c.gang) x ((laneList c.lanes).map fun l => (l, a l))).1 =
      [(0, va, Place'.at_ k false b)]) :
    Reaches s (s.locateAll c.gang (viewOf c G) (s.ctxOf c.gang) x ((laneList c.lanes).map fun l => (l, a l))).2 c G x a
      [(0, va, Place'.at_ k false b)] :=
  ⟨Prod.ext h rfl, fun e he => by rw [List.mem_singleton] at he; subst he; exact ⟨k, b, rfl⟩⟩

/-- The hypothesis of a load, an LDA, an LDQ, a store, an atomic and a CAS on the first word of scratch space. -/
theorem witness_LoadsIssueOneAccessALane :
    Ready (sm gm) tc gm [] (Use.regs .pair fm.a.toNat) (Dest.reg fm.d.toNat).regs ∧ Outside tc gm ∧
    (∃ s1 ps, Reaches (sm gm) s1 tc gm { r := true, size := 4, kind := 0, load := true }
      (fun l => operandPair tc gm l fm.a.toNat + BitVec.ofInt 64 (fm.off.toInt * 4)) ps) ∧
    (∃ s1 ps, Reaches (sm gm) s1 tc gm { r := true, size := 8, kind := 0, load := true }
      (fun l => operandPair tc gm l fm.a.toNat) ps) ∧
    ∀ l, inLanes tc.lanes l = true → (nth [] (gm.thread l).queues (fm.d.toNat % 4)).length + 2 ≤ 8 :=
  ⟨sm_ready _ _ _ (by decide) (by decide), gm_outside,
    ⟨_, _, reaches_of (va := 0x4000000000000000) (k := 2 ^ 52) (b := true) (by decide)⟩,
    ⟨_, _, reaches_of (va := 0x4000000000000000) (k := 2 ^ 52) (b := true) (by decide)⟩,
    fun l h => by rw [lane_eq h]; decide⟩

theorem witness_StoresIssueOneBufferedStoreALane :
    Ready (sm gm) tc gm [fm.d.toNat] (Use.regs .pair fm.a.toNat ++ Use.regs .reg fm.d.toNat) [] ∧
    Ready (sm gm) tc gm [] (Use.regs .pair fm.a.toNat ++ Use.regs .quad fm.d.toNat) [] ∧ Outside tc gm ∧
    (∃ s1 ps, Reaches (sm gm) s1 tc gm { w := true, size := 16, kind := 1, store := true }
      (fun l => operandPair tc gm l fm.a.toNat + BitVec.ofInt 64 (fm.off.toInt * 16)) ps ∧
      ∀ e ∈ keysOf ps, s1.unitPoisoned e.2 = false) :=
  ⟨sm_ready _ _ _ (by decide) (by decide), sm_ready _ _ _ (by decide) (by decide), gm_outside,
    ⟨_, _, reaches_of (va := 0x4000000000000000) (k := 2 ^ 52) (b := true) (by decide), by decide⟩⟩

theorem witness_AtomicsIssueOneAccessALane :
    Ready (sm gm) tc gm [fa.b.toNat] (Use.regs .reg fa.d.toNat ++ Use.regs .pair fa.a.toNat ++ Use.regs .reg fa.b.toNat)
      (Use.regs .reg fa.d.toNat) ∧
    Ready (sm gm) tc gm [] (Use.regs .pair fa.a.toNat ++ Use.regs .pair fa.b.toNat) (Use.regs .pair fa.d.toNat) ∧
    (∃ s1 ps, Reaches (sm gm) s1 tc gm
      { remote := true, r := true, w := true, a := true, size := 4, kind := 2, load := true, store := true }
      (fun l => operandPair tc gm l fa.a.toNat) ps) ∧
    (∃ s1 ps, Reaches (sm gm) s1 tc gm { r := true, w := true, a := true, size := 8, kind := 2, load := true, store := true }
      (fun l => operandPair tc gm l fa.a.toNat) ps) :=
  ⟨sm_ready _ _ _ (by decide) (by decide), sm_ready _ _ _ (by decide) (by decide),
    ⟨_, _, reaches_of (va := 0x4000000000000000) (k := 2 ^ 52) (b := true) (by decide)⟩,
    ⟨_, _, reaches_of (va := 0x4000000000000000) (k := 2 ^ 52) (b := true) (by decide)⟩⟩

/-- The spaces at their first addresses, a misaligned one, a slot that is not held, a page that is missing; and a chained load
with a cause. -/
theorem witness_AddressCausesComeInTheirOrder :
    let va := fun (n : Nat) => (BitVec.ofNat 64 n).toNat
    (3 ≤ va 0x6000000000000000 / 2 ^ 61 ∧ va 0x4000000000000000 / 2 ^ 61 = 2 ∧ va 0x2000000000000000 / 2 ^ 61 = 1 ∧
      va 0x1FFFFFFFFFFFFFFF / 2 ^ 61 = 0 ∧ va 0x4000000000000001 % 4 ≠ 0 ∧ va 3 % 4 ≠ 0) ∧
    (sm gm).scratchKey 0 3 (va 0x4000000000004000 % 2 ^ 20) = none ∧
    (((sm gm).locate 0 0 gm 0 { r := true, size := 4, kind := 0 } 0).1 ≠ .cause 3 5 ∧ ((sm gm).xlate 0 0).1 = .missing) ∧
    (let c := { tc with chained := true }
     let s := { ts with ctx := some c }
     Ready s c tg [] (Use.regs .pair fm.a.toNat) (Use.regs .reg fm.d.toNat) ∧
     (wordCause 0 (s.locateAll c.gang (viewOf c tg) (s.ctxOf c.gang) { r := true, size := 4, kind := 0, load := true }
       ((laneList c.lanes).map fun l => (l, operandPair c tg l fm.a.toNat + BitVec.ofInt 64 (fm.off.toInt * 4)))).1).isSome =
       true) :=
  ⟨by decide, by decide, by decide,
    ready_of (issuing_of _ _ tg rfl rfl rfl rfl rfl (by decide) (by decide) (by decide)) rfl _ _ _ (by decide) (by decide),
    by decide⟩

/-- A store of lane 0 that has not been performed. -/
def heldStore : Access :=
  { sn := 0, cycle := 0, gang := 0, lane := 0, core := 0, team := 3, kind := .store, va := 0, pa := 2 ^ 52, size := 4, data := 0,
    operands := [], dest := .none, release := false, whole := false, half := none }
/-- A copy that lane 0 has submitted. -/
def someCopy : Copy :=
  { sn := 0, cluster := 0, stream := 0, owner := some ⟨0, 0, 0⟩, bundle := none, ctx := 0, team := 3, teamGen := 0
    desc := parseDesc [] false, slots := [], cplKey := none, started := false, row := 0, blk := 0, reg := none, sgen := 0
    touched := [], ending := none, staged := [], asked := [], unacked := [] }

/-- A POST of lane 0 that has not arrived. -/
def somePost (pa : Nat) : PostMsg := ⟨0, 0, 0, 8, 0, pa, List.replicate 64 0, none, []⟩

theorem witness_FencesHoldLaterWordsBack :
    (Ready ts tc tg [] [] [] ∧ Outside tc tg ∧ (tg.thread 0).fence = none) ∧
    (let s := { tsOf (tgOf fun t => { t with fence := some ⟨.all, 64, 6, false⟩ }) with accesses := [heldStore] }
     s.ctx = some tc ∧ ([(1, 0x15206004)].any fun e : Nat × Word => gatedWord e.2) = true ∧ tc.chained = false ∧
     storesOnly [(1, 0x15206004)] = false ∧ inLanes tc.lanes 0 = true ∧
     (s.thread tc.gang 0).fence = some ⟨.all, 64, 6, false⟩ ∧ s.fenceOpen tc.gang 0 ⟨.all, 64, 6, false⟩ = false ∧
     heldStore.sn < 64 ∧ isScratchKey heldStore.pa = true) ∧
    (Ready ts tc tg [] [] (Use.regs .reg fa.d.toNat) ∧
     ∀ l, inLanes tc.lanes l = true →
      ts.engineBusy (ts.spawnKey tc.gang) (ts.tid tc.gang l) (tc.since * 64) = false ∧ answerOf tc tg l = none) ∧
    (let c := { tc with since := 1 }
     let s := { ts with copies := [someCopy], ctx := some c }
     Ready s c tg [] [] (Use.regs .reg fa.d.toNat) ∧ Idle c tg ∧
     ∀ l, inLanes c.lanes l = true → s.engineBusy (s.spawnKey c.gang) (s.tid c.gang l) (c.since * 64) = true) ∧
    (somePost ts.runPort).pa = ts.runPort ∧ (somePost ts.runPort).sn < 64 ∧ (somePost ts.runPort).of ts 0 0 = true := by
  refine ⟨⟨ts_ready _ _ _ (by decide) (by decide), ts_outside, by decide⟩, ⟨rfl, by decide, by decide, by decide, by decide,
    by decide, by decide, by decide, rfl⟩, ⟨ts_ready _ _ _ (by decide) (by decide), fun l h => ?_⟩,
    ⟨ready_of (issuing_of _ _ tg rfl rfl rfl rfl rfl (by decide) (by decide) (by decide)) rfl _ _ _ (by decide) (by decide),
    fun l h => by rw [lane_eq h]; decide, fun l h => ?_⟩, rfl, by decide, by decide⟩
  · rw [lane_eq h]; decide
  · rw [lane_eq h]; decide

/-- A state whose tables map the first 64 KiB of control space. -/
def sp (G : Gang) : State := { tsOf G with mem := Memory.placed [] 0 0 }
/-- A watch of lane 0. -/
def someWatch (fired : Bool) : Watch := ⟨0, 0, 0, 0, 0, 0, 9, 0x10100, 0, 0, 0, fired, false⟩
/-- A gang whose lane 0 has the token 9 in v6. -/
def gw : Gang := tgOf fun t => { t with regs := [(6, 9)] }

theorem sp_sound : Memory.wf (sp tg).mem = true := by decide +kernel

theorem witness_WatchesAreArmedAndAwaited :
    (Ready (sp tg) tc tg [] (Use.regs .pair fa.a.toNat ++ Use.regs .pair fa.b.toNat) (Use.regs .reg fa.d.toNat) ∧
      Outside tc tg ∧ (sp tg).tokens.length + (sp tg).watches.length + 256 < 2 ^ 32 ∧
      ∃ s1 ps, Reaches (sp tg) s1 tc tg { scratch := false, r := true, size := 4, kind := 2 }
        (fun l => operandPair tc tg l fa.a.toNat &&& ~~~3#64) ps ∧
        ∀ e ∈ keysOf ps, ∀ a ∈ ((sp tg).beforeSn tc.since).accesses, a.of tc.gang e.1 = true → overlaps a.pa a.size e.2 4 = false) ∧
    (let s := { tsOf gw with watches := [someWatch true] }
     Ready s tc gw [fa.a.toNat, fa.b.toNat] (Use.regs .reg fa.a.toNat ++ Use.regs .reg fa.b.toNat) (Use.regs .reg fa.d.toNat) ∧
     Outside tc gw ∧ ∀ l, inLanes tc.lanes l = true → ((answerOf tc gw l).isNone &&
       (s.watchOf tc.gang l (operand tc gw l [] fa.a.toNat)).any (·.fired)) = true) ∧
    (let s := { tsOf gw with watches := [someWatch false] }
     Ready s tc gw [fa.a.toNat, fa.b.toNat] (Use.regs .reg fa.a.toNat ++ Use.regs .reg fa.b.toNat) (Use.regs .reg fa.d.toNat) ∧
     Idle tc gw ∧ ∀ l, inLanes tc.lanes l = true →
       ∃ w, s.watchOf tc.gang l (operand tc gw l [] fa.a.toNat) = some w ∧ w.fired = false) := by
  refine ⟨⟨ready_of (issuing_of _ tc tg sp_sound rfl rfl rfl rfl (by decide) (by decide) (by decide)) rfl _ _ _ (by decide)
    (by decide), ts_outside, by decide, _, _, reaches_of (va := 0) (k := 0x10000) (b := true) (by decide +kernel), by decide⟩,
    ⟨ready_of (issuing_of _ tc gw rfl rfl rfl rfl rfl (by decide) (by decide) (by decide)) rfl _ _ _ (by decide) (by decide),
      fun l h => ?_, fun l h => ?_⟩,
    ready_of (issuing_of _ tc gw rfl rfl rfl rfl rfl (by decide) (by decide) (by decide)) rfl _ _ _ (by decide) (by decide),
    fun l h => ?_, fun l h => ?_⟩
  · rw [lane_eq h]; decide
  · rw [lane_eq h]; decide
  · rw [lane_eq h]; decide
  · rw [lane_eq h]; exact ⟨someWatch false, rfl, rfl⟩

/-- A POST of the registers from v16 on at address 0, one whose literal is 17, and a PREF. -/
theorem witness_PostsAndPrefetchesLeave :
    Ready (sp tg) tc tg [] ((List.range 16).map (16 + ·) ++ Use.regs .pair fa.a.toNat) (Use.regs .reg fa.d.toNat) ∧
    (∃ s1 ps, Reaches (sp tg) s1 tc tg { tensor := false, scratch := false, w := true, size := 64, kind := 1, port := true }
      (fun l => operandPair tc tg l fa.a.toNat) ps) ∧
    (let f : FmtA := ⟨0, 0, 8, 6, 17, 0⟩
     f.b.toNat ≠ 16 ∧ f.b.toNat ≠ 32 ∧ Issuing { ts with ctx := some { tc with chained := true } } { tc with chained := true } tg) ∧
    Ready ts tc tg [] [] [] :=
  ⟨ready_of (issuing_of _ tc tg sp_sound rfl rfl rfl rfl (by decide) (by decide) (by decide)) rfl _ _ _ (by decide) (by decide),
    ⟨_, _, reaches_of (va := 0) (k := 0x10000) (b := true) (by decide +kernel)⟩,
    ⟨by decide, by decide, issuing_of _ _ tg rfl rfl rfl rfl rfl (by decide) (by decide) (by decide)⟩,
    ts_ready _ _ _ (by decide) (by decide)⟩

/-! ## Witnesses: words of a gang -/

/-- Fields of a word across lanes, at a mask. -/
def fg (m : BitVec 4) : FmtG := ⟨0, 0, 8, 6, 0, m⟩
/-- A gang whose lane 0 waits for its mask. -/
def gRend : Gang := tgOf fun t => { t with wait := some (.rendezvous 0 5 1 16 3 0) }

/-- Outside mask 1, inside mask 0 (the last mask number, 15, names m0 too); parties; a rendezvous that is complete. -/
theorem witness_CrossLaneWordsMeetAtTheirMask :
    (∀ m, Ready ts tc tg [(fg m).a.toNat] (Use.regs .reg (fg m).a.toNat) (Use.regs .pair (fg m).d.toNat)) ∧
    (∀ l, inLanes tc.lanes l = true → inLanes ((viewOf tc tg).mask (fg 11).m.toNat) l = false) ∧
    (∀ l, inLanes tc.lanes l = true → inLanes ((viewOf tc tg).mask (fg 15).m.toNat) l = true) ∧ Idle tc tg ∧
    (let ps : List Party := [⟨0, 3, 63⟩, ⟨63, 4, 0⟩]
     ps.Pairwise (fun a b => a.lane < b.lane) ∧ ∀ q ∈ ps, q.lane < 64) ∧
    ((gRend.thread 0).wait = some (.rendezvous 0 5 1 16 3 0) ∧ (gRend.thread 0).grant = none ∧
     laneSet ((gRend.parties 0 5 1).map (·.lane)) &&& 0 = 0 ∧
     ∀ k, inLanes (gRend.mask 0) k = true → k < gRend.width ∧ k < 64 ∧ k < gRend.threads.length ∧
       ∃ o x y, (gRend.thread k).wait = some (.rendezvous 0 5 1 o x y) ∧ (gRend.thread k).grant = none) := by
  refine ⟨fun m => ts_ready _ _ _ ?_ ?_, fun l h => ?_, fun l h => ?_, ts_idle, by decide, by decide, by decide, by decide, fun k h => ?_⟩
  · show ∀ e ∈ [6], e < 60; decide
  · show ∀ r ∈ Use.regs .reg 6 ++ Use.regs .pair 8, r < 32; decide
  · rw [lane_eq h]; decide
  · rw [lane_eq h]; decide
  · rw [show gRend.mask 0 = 1#64 by decide] at h
    rw [lane_eq h]; exact ⟨by decide, by decide, by decide, 16, 3, 0, by decide, by decide⟩

theorem witness_MaskFormsTakeEffectAtTheEndOfTheCycle :
    Ready ts tc tg [] (Use.regs .pair (fg 11).a.toNat) [] ∧ Ready ts tc tg [] [] (Use.regs .pair (fg 11).d.toNat) ∧
    Outside tc tg ∧ (∀ l, inLanes tc.lanes l = true → inLanes ((viewOf tc tg).mask (fg 11).m.toNat) l = false) ∧
    (∀ l, inLanes tc.lanes l = true → inLanes ((viewOf tc tg).mask (fg 0).m.toNat) l = true) ∧ Idle tc tg ∧
    tg.masks.length = 12 := by
  refine ⟨ts_ready _ _ _ (by decide) (by decide), ts_ready _ _ _ (by decide) (by decide), ts_outside, fun l h => ?_,
    fun l h => ?_, ts_idle, by decide⟩
  · rw [lane_eq h]; decide
  · rw [lane_eq h]; decide

/-- A gang whose lane 0 is in a region. -/
def gReg : Gang := tgOf fun t => { t with region := some ⟨4, 9, [(6, 1)], false, false, (0, 0), [], [], [], []⟩ }
/-- A gang whose lane 0 has aborted four times at packet 5. -/
def gExcl : Gang := tgOf fun t => { t with axLast := some 5, axCount := 4 }

theorem witness_RegionsOpenAndEnd :
    (Ready ts tc tg [] [] [] ∧ Outside tc tg ∧ ts.regionRoom tc.gang = true ∧ (∀ g ∈ ts.axbQueue, coreOf g ≠ coreOf tc.gang) ∧
      ∀ l, inLanes tc.lanes l = true → (tg.thread l).countAt tc.pc < 4) ∧
    (let s := { ts with axbQueue := [1] }
     Ready s tc tg [] [] [] ∧ Idle tc tg ∧ tg.inRegions = false ∧ ∃ g ∈ s.axbQueue, coreOf g = coreOf tc.gang) ∧
    (Ready (tsOf gExcl) tc gExcl [] [] [] ∧ Outside tc gExcl ∧ Idle tc gExcl ∧ (tsOf gExcl).regionRoom tc.gang = true ∧
     (tsOf gExcl).axbQueue = [] ∧ ∃ l, inLanes tc.lanes l = true ∧ 4 ≤ (gExcl.thread l).countAt tc.pc) ∧
    (Ready (tsOf gReg) tc gReg [] [] (Use.regs .reg fa.d.toNat) ∧ Idle tc gReg ∧
     (∀ l, inLanes tc.lanes l = true → ∃ r, (gReg.thread l).region = some r ∧ r.fresh = false) ∧
     (∀ l, inLanes tc.lanes l = true → (tsOf gReg).outstandingL tc.gang l = false) ∧
     ∀ r ∈ (tsOf gReg).commits, r.gang = tc.gang → r.lanes &&& tc.lanes = 0) ∧
    (let s := { tsOf gReg with pending := [⟨0, 0, 0, 8, some [7], none⟩] }
     Ready s tc gReg [] [] (Use.regs .reg fa.d.toNat) ∧ ∃ l, inLanes tc.lanes l = true ∧ s.outstandingL tc.gang l = true) := by
  refine ⟨⟨ts_ready _ _ _ (by decide) (by decide), ts_outside, by decide, by decide, fun l h => ?_⟩,
    ⟨ready_of (issuing_of _ tc tg rfl rfl rfl rfl rfl (by decide) (by decide) (by decide)) rfl _ _ _ (by decide) (by decide),
      ts_idle, by decide, 1, by decide, by decide⟩,
    ⟨tsOf_ready _ (by decide) (by decide) (by decide) _ _ _ (by decide) (by decide), fun l h => ?_, fun l h => ?_, by decide, rfl,
      0, by decide, by decide⟩,
    ⟨tsOf_ready _ (by decide) (by decide) (by decide) _ _ _ (by decide) (by decide), fun l h => ?_, fun l h => ?_, fun l h => ?_,
      by decide⟩,
    ready_of (issuing_of _ tc gReg rfl rfl rfl rfl rfl (by decide) (by decide) (by decide)) rfl _ _ _ (by decide) (by decide),
    0, by decide, by decide⟩
  · rw [lane_eq h]; decide
  · rw [lane_eq h]; decide
  · rw [lane_eq h]; decide
  · rw [lane_eq h]; decide
  · rw [lane_eq h]; exact ⟨_, rfl, rfl⟩
  · rw [lane_eq h]; decide

/-! ## Witnesses: teams, barriers, synchronisation words, handles -/

/-- The gang gm with a value in v6 of lane 0. -/
def gmv (v : Word) : Gang := { tgOf (fun t => { t with regs := [(6, v)] }) with team := 3 }

theorem smv_ready (v : Word) (fields reads writes : List Nat) (h1 : ∀ e ∈ fields, e < 60) (h2 : ∀ r ∈ reads ++ writes, r < 32) :
    Ready (sm (gmv v)) tc (gmv v) fields reads writes :=
  ready_of (issuing_of (sm (gmv v)) tc (gmv v) rfl rfl rfl rfl rfl (Nat.zero_lt_succ 15) rfl rfl) rfl _ _ _ h1 h2
theorem smv_outside (v : Word) : Outside tc (gmv v) := fun l h => by rw [lane_eq h]; rfl
theorem smv_idle (v : Word) : Idle tc (gmv v) := fun l h => by rw [lane_eq h]; exact ⟨rfl, rfl, fun e he => by cases he⟩
theorem smv_value (v : Word) : operand tc (gmv v) (lowestLane tc.lanes) [] fa.a.toNat = v := by
  show operand tc (gmv v) 0 [] 6 = v
  rfl

/-- The arguments at the ends of their ranges: TNEW of 0, 1, 32768 and 32769 threads; a team that is named, one that is not; and
for TFREE, TJOIN and TLEAVE the team's members, room and standing. -/
theorem witness_TeamsAreMadeJoinedAndLeft :
    (∀ v, Ready (sm (gmv v)) tc (gmv v) [fa.a.toNat] (Use.regs .reg fa.a.toNat) (Use.regs .reg fa.d.toNat) ∧
      Outside tc (gmv v) ∧ Idle tc (gmv v) ∧ operand tc (gmv v) (lowestLane tc.lanes) [] fa.a.toNat = v) ∧
    ((0#32).toNat = 0 ∧ 32768 < (32769#32).toNat ∧ (1#32).toNat ≤ 32768 ∧ (32768#32).toNat ≤ 32768) ∧
    (((sm gm).team 0).valid = false) ∧
    (∀ n, ∀ k < n, (State.team { sm gm with teams := (List.range n).map fun k => (k, { Team.blank with valid := true }) } k).valid =
      true) ∧
    (((sm gm).team 3).valid = true ∧ ((sm gm).team 3).gen = 0 ∧ (sm gm).members 3 ≠ [] ∧ ((sm gm).team 3).swapped = false) ∧
    (let s := sm { gm with team := 65536 }
     s.members 3 = [] ∧ liveCount (s.members 3) + liveCount (s.gangs.filter fun e => e.1 == tc.gang) ≤ (s.team 3).cap ∧
     (s.members 3).length + 1 ≤ 2048) ∧
    (let s := { sm gm with teams := [(3, { Team.blank with valid := true, swapped := true })] }
     (s.team 3).valid = true ∧ (s.team 3).swapped = true ∧ ¬(liveCount (s.members 3) + 1 ≤ (s.team 3).cap)) := by
  refine ⟨fun v => ⟨smv_ready v _ _ _ (by decide) (by decide), smv_outside v, smv_idle v, smv_value v⟩, by decide, by decide, ?_,
    by decide, by decide, by decide⟩
  intro n k hk
  have : ∀ (n lo : Nat), lo ≤ k → k < lo + n →
      SMap.find? ((List.range' lo n).map fun k => (k, { Team.blank with valid := true })) k =
        some { Team.blank with valid := true } := by
    intro n
    induction n with
    | zero => intro lo h1 h2; omega
    | succ n ih =>
      intro lo h1 h2
      rw [List.range'_succ, List.map_cons, SMap.find?]
      split
      · rfl
      · exact ih (lo + 1) (by omega) (by omega)
  simp only [State.team, List.range_eq_range', SMap.get]
  rw [this n 0 (by omega) (by omega)]; rfl

/-- A gang of team 3 whose lane 0 waits in the barrier of phase 0. -/
def gBar : Gang := { tgOf (fun t => { t with wait := some (.barrier 0), arrived := true }) with team := 3 }

theorem witness_BarriersReleaseTheirPhase :
    (∃ T, (sm gBar).teams.find? 3 = some T ∧ T.swapped = false ∧ liveCount ((sm gBar).members 3) ≠ 0 ∧
      arrivedCount ((sm gBar).members 3) = liveCount ((sm gBar).members 3)) ∧
    (let s := { sm gBar with ctx := some { tc with chained := true }
                             teams := [(3, { Team.blank with valid := true, phase := 1 })] }
     Ready s { tc with chained := true } gBar [] [] [] ∧
     ∀ l, inLanes tc.lanes l = true → ∃ p, (gBar.thread l).wait = some (.barrier p) ∧ phaseDone (s.team 3).phase p = true) ∧
    (let marked := (sm gm).onLanes tc.gang tc.lanes fun _ t => { t with arrived := true, wait := some (.barrier 0) }
     Ready (sm gm) tc gm [] [] [] ∧ Idle tc gm ∧ tc.chained = false ∧
     (∀ l, inLanes tc.lanes l = true → ((sm gm).beforeSn tc.since).unperformed tc.gang l = false) ∧
     arrivedCount (marked.members 3) = liveCount (marked.members 3) ∧ liveCount (marked.members 3) ≠ 0) ∧
    (let s := { sm gm with gangs := [(0, gm), (1, gm)] }
     let marked := s.onLanes tc.gang tc.lanes fun _ t => { t with arrived := true, wait := some (.barrier 0) }
     Ready s tc gm [] [] [] ∧ arrivedCount (marked.members 3) ≠ liveCount (marked.members 3)) ∧
    (let c := { tc with since := 1 }
     let s := { sm gm with accesses := [heldStore], ctx := some c, gangs := [(0, gm), (1, gm)] }
     Ready s c gm [] [] [] ∧ Idle c gm ∧ (∀ l, inLanes c.lanes l = true → (gm.thread l).arrived = false ∧
       ¬(s.beforeSn c.since).unperformed c.gang l = false) ∧ arrivedCount (s.members 3) ≠ liveCount (s.members 3)) ∧
    (phaseDone 0 (operand tc (gmv 0xFFFFFFFF) 0 [] fa.a.toNat) = true ∧ phaseDone 0 (operand tc (gmv 0) 0 [] fa.a.toNat) = false) := by
  refine ⟨⟨_, rfl, by decide, by decide, by decide⟩,
    ⟨ready_of (issuing_of _ _ gBar rfl rfl rfl rfl rfl (by decide) (by decide) (by decide)) rfl _ _ _ (by decide) (by decide),
      fun l h => ?_⟩,
    ⟨sm_ready _ _ _ (by decide) (by decide), gm_idle, rfl, fun l h => ?_, by decide, by decide⟩,
    ⟨ready_of (issuing_of _ tc gm rfl (by decide) rfl rfl rfl (by decide) (by decide) (by decide)) rfl _ _ _ (by decide) (by decide),
      by decide⟩,
    ⟨ready_of (issuing_of _ _ gm rfl (by decide) rfl rfl rfl (by decide) (by decide) (by decide)) rfl _ _ _ (by decide) (by decide),
      fun l h => by rw [lane_eq h]; decide, fun l h => by rw [lane_eq h]; decide, by decide⟩, by decide, by decide⟩
  · rw [lane_eq h]; exact ⟨0, by decide, by decide⟩
  · rw [lane_eq h]; decide

theorem witness_SyncWordsAdvanceAndAnswerTheirGeneration :
    (Ready (sm gm) tc gm [fa.b.toNat] (Use.regs .pair fa.a.toNat ++ Use.regs .reg fa.b.toNat) (Use.regs .reg fa.d.toNat) ∧
      Outside tc gm ∧ Idle tc gm) ∧
    (∃ s1 ps, Reaches (sm gm) s1 tc gm { control := false, tensor := false, size := 16, kind := 2, load := true }
      (fun l => operandPair tc gm l fa.a.toNat) ps ∧
      (∀ e ∈ keysOf ps, (∀ a ∈ ((sm gm).beforeSn tc.since).accesses, a.of tc.gang e.1 = true → overlaps a.pa a.size e.2 16 = false) ∧
        ∀ x ∈ ((sm gm).beforeSn tc.since).scaleLoads, x.gang = tc.gang → x.lane = e.1 → overlaps x.pa 512 e.2 16 = false) ∧
      (∀ e ∈ keysOf ps, ((sm gm).beforeSn tc.since).unperformed tc.gang e.1 = false) ∧
      ∀ e ∈ keysOf ps, phaseDone ((sm gm).syncGen e.2) (operand tc gm e.1 [] fa.b.toNat) = false) ∧
    phaseDone 1 0 = true :=
  ⟨⟨sm_ready _ _ _ (by decide) (by decide), gm_outside, gm_idle⟩,
    ⟨_, _, reaches_of (va := 0x4000000000000000) (k := 2 ^ 52) (b := true) (by decide), by decide, by decide, by decide⟩, by decide⟩

/-- HNEW of 0, 1, 128 and 129 slots; a handle that is named by its key, and one that is not; windows 0 and 7; offers. -/
theorem witness_HandlesAreMadeFreedGivenAndTaken :
    (∀ v, Ready (sm (gmv v)) tc (gmv v) [fa.a.toNat, fa.b.toNat] (Use.regs .reg fa.a.toNat ++ Use.regs .reg fa.b.toNat)
      (Use.regs .reg fa.d.toNat) ∧ Outside tc (gmv v) ∧ Idle tc (gmv v) ∧
      operand tc (gmv v) (lowestLane tc.lanes) [] fa.a.toNat = v) ∧
    ((0x100#32).toNat % 256 = 0 ∧ 128 < (129#32).toNat % 256 ∧ (128#32).toNat % 256 = 128) ∧
    ((∀ i < 1, (sm gm).slotFree (0 * 128 + 2 + i) = true) ∧ (∀ q < 2, ¬∀ i < 1, (sm gm).slotFree (0 * 128 + q + i) = true) ∧
      ((sm gm).held 3).length < 16 ∧ ((sm gm).handle 0).valid = false) ∧
    (((sm gm).handle 5).valid = true ∧ ((sm gm).handle 5).gen = 0 ∧ ((sm gm).handle 5).holder = 3 ∧
      ((sm gm).handle 6).valid = false ∧ ∀ p ∈ ((sm gm).handle 5).slots 0, (sm gm).slotBusy p = false) ∧
    (let s := { sm gm with accesses := [heldStore] }
     ∃ p ∈ (s.handle 5).slots 0, s.slotBusy p = true) ∧
    (∃ T x, (sm gm).teams.find? 3 = some T ∧ (sm gm).handles.find? 5 = some x) ∧
    ((∀ l, inLanes tc.lanes l = true → ((sm gm).beforeSn tc.since).unperformed tc.gang l = false) ∧ (sm gm).takeReady 5 = true ∧
      ¬(∃ w, ((sm gm).team 3).windows.find? 7 = some w ∧ w.handle ≠ 5)) := by
  refine ⟨fun v => ⟨smv_ready v _ _ _ (by decide) (by decide), smv_outside v, smv_idle v, smv_value v⟩, by decide,
    ⟨by decide, by decide, by decide, by decide⟩, by decide, by decide, ⟨_, _, rfl, rfl⟩, fun l h => ?_, by decide, ?_⟩
  · rw [lane_eq h]; decide
  · rintro ⟨w, h, _⟩; revert h; rw [show ((sm gm).team 3).windows.find? 7 = none by decide]; simp

/-- A TCOPY whose descriptor is accepted, and the fields, spaces, slots and streams of descriptors. -/
theorem witness_EngineCommandsAreAcceptedLaneByLane :
    (Ready (sm gm) tc gm [] (Use.regs .pair fa.a.toNat) (Use.regs .reg fa.d.toNat) ∧ Outside tc gm ∧ Idle tc gm ∧
      ∃ s1 ps, Reaches (sm gm) s1 tc gm { r := true, size := 64, kind := 0, load := true }
        (fun l => operandPair tc gm l fa.a.toNat) ps ∧
        let take := fun (st : State) (e : Nat × Nat) =>
          st.acceptCopy (coreOf tc.gang) (State.ctxOf (sm gm) tc.gang) (some (viewOf tc gm).team) none none 0
            (parseDesc ((sm gm).visible tc.gang e.1 0 e.2 64) false)
        (sm gm).blockLate tc (keysOf ps) 64 = false ∧
        ∀ e ∈ (submitted { s1 with sn := 1 } take (keysOf ps)).2, e.2 ≠ .held) ∧
    (let d : CopyDesc := { someCopy.desc with rows := 1, rbytes := 16, src := 0x4000000000000000, dst := 0x4000000000000010 }
     d.badField = false ∧ d.badSpace true = false ∧ d.cpl = 0 ∧ (∀ t ∈ d.needSlots, ((sm gm).physSlot 0 3 t).isSome = true) ∧
     (sm gm).streamLen 0 ((sm gm).streamFor 0) < 16) ∧
    (CopyDesc.badField { someCopy.desc with kind := 2 } = true ∧
     CopyDesc.badSpace { someCopy.desc with dst := 0x6000000000000000 } true = true) :=
  ⟨⟨sm_ready _ _ _ (by decide) (by decide), gm_outside, gm_idle, _, _,
    reaches_of (va := 0x4000000000000000) (k := 2 ^ 52) (b := true) (by decide), by decide +kernel, by decide +kernel⟩,
    ⟨by decide +kernel, by decide, rfl, by decide +kernel, by decide⟩, by decide +kernel, by decide +kernel⟩

/-! ## Witnesses: matrix and scale words -/

/-- A gang of team 3 that holds accumulator 1, with the value v in v6 of lane 0. -/
def gAcc (v : Word) : Gang := { gmv v with accs := [(1, ⟨false, []⟩)], accRes := 1 }
theorem sAcc_ready (v : Word) (fields reads writes : List Nat) (h1 : ∀ e ∈ fields, e < 60) (h2 : ∀ r ∈ reads ++ writes, r < 32) :
    Ready (sm (gAcc v)) tc (gAcc v) fields reads writes :=
  ready_of (issuing_of (sm (gAcc v)) tc (gAcc v) rfl rfl rfl rfl rfl (Nat.zero_lt_succ 15) rfl rfl) rfl _ _ _ h1 h2
theorem gAcc_outside (v : Word) : Outside tc (gAcc v) := fun l h => by rw [lane_eq h]; rfl

/-- An MMA of slots 0 and 1 without a cause; one whose second slot, 2, is not covered; one on an accumulator that is not held; a
gather through v6. -/
theorem witness_MatrixWordsIssueOneProduct :
    (Ready (sm (gAcc 0)) tc (gAcc 0) [] [] [] ∧ Outside tc (gAcc 0) ∧ (sm (gAcc 0)).productReady 1 tc = true ∧
      State.productCause (sm (gAcc 0)) tc (gAcc 0) 1 true false 0 [⟨0, none, 0, 0, (matTypes 0).1⟩, ⟨1, none, 1, 1, (matTypes 0).2⟩] =
        none) ∧
    (((sm (gAcc 0)).scratchKey 0 3 (2 * 8192)).isNone = true ∧ ((sm (gAcc 0)).scratchKey 0 3 (1 * 8192)).isNone = false ∧
      (State.productCause (sm (gAcc 0)) tc (gAcc 0) 1 true false 9 [⟨0, none, 0, 0, (matTypes 9).1⟩, ⟨2, none, 2, 1, (matTypes 9).2⟩]).isSome =
        true) ∧
    ((gAcc 0).accs.find? 0 = none ∧ (gAcc 0).accs.find? 1 ≠ none) ∧
    (Ready (sm (gAcc 0)) tc (gAcc 0) [] (rowRegs 6 16) [] ∧ (sm (gAcc 0)).gatherReady tc = true) ∧
    (let s := { sm (gAcc 0) with matOps := [⟨0, 0, 3, 1, .azero false, false, 0, 1, 1, false, 0, 0, []⟩] }
     s.productReady 1 { tc with since := 1 } = false) := by
  refine ⟨⟨sAcc_ready 0 _ _ _ (by decide) (by decide), gAcc_outside 0, by decide, by decide +kernel⟩,
    ⟨by decide, by decide, by decide +kernel⟩, ⟨by decide, by decide⟩,
    ⟨sAcc_ready 0 _ _ _ (by decide) (by decide +kernel), by decide⟩, by decide⟩

/-- The fields of a word on accumulator 1. -/
def fAcc (n : BitVec 6) : FmtA := ⟨0, 0, 8, 6, n, 0⟩

/-- AACQ with the tile held, free, and not free; the forms on a held tile; ALOAD of slots 0 and 1; ASTORE.f32 of slot 0. -/
theorem witness_AccumulatorWordsActOnTheirTile :
    (Outside tc (gAcc 0) ∧ tc.pre = none ∧ tc.preTeam = none ∧ tc.preScale = none ∧ Ready (sm (gAcc 0)) tc (gAcc 0) [] [] [] ∧
      (sm (gAcc 0)).portFree tc = true ∧ (sm (gAcc 0)).accSettled tc 1 true = true ∧
      ((gAcc 0).accs.find? ((fAcc 1).b.toNat % 4)).isSome = true) ∧
    (let G := { gmv 0 with accRes := 1 }
     G.accs.find? 1 = none ∧ (sm G).tileFree tc.gang = true ∧ G.accs.length < G.accRes) ∧
    (let s := { sm (gmv 0) with gangs := [(0, gmv 0), (1, { gmv 0 with accRes := 4 })] }
     s.tileFree tc.gang = false ∧ (gmv 0).accs.find? 1 = none ∧ Idle tc (gmv 0)) ∧
    (Ready (sm (gAcc 0)) tc (gAcc 0) [(fAcc 1).a.toNat] (Use.regs .reg (fAcc 1).a.toNat) (rowRegs (fAcc 1).d.toNat 16) ∧
      Ready (sm (gAcc 0)) tc (gAcc 0) [(fAcc 1).a.toNat] (Use.regs .reg (fAcc 1).a.toNat ++ rowRegs (fAcc 1).d.toNat 16) []) ∧
    ((sm (gAcc 0)).scratchKey 0 3 (0 * 8192) = some (2 ^ 52) ∧ (sm (gAcc 0)).scratchKey 0 3 (1 * 8192) = some (2 ^ 52 + 8192) ∧
      (sm (gAcc 0)).poison = [] ∧ (sm (gAcc 0)).handlePoisoned 3 0 = false ∧ (sm (gAcc 0)).handlePoisoned 3 1 = false) ∧
    ((sm (gAcc 0)).scalesSettled tc = true ∧ (sm (gAcc 0)).accPoisoned tc.gang 1 = false ∧
      (State.issueStore (sm (gAcc 0)) tc (gAcc 0) 1 0 ⟨0, 0, 0⟩).isSome = true) := by
  refine ⟨⟨gAcc_outside 0, rfl, rfl, rfl, sAcc_ready 0 _ _ _ (by decide) (by decide), by decide, by decide, by decide⟩,
    by decide, ⟨by decide, by decide, smv_idle 0⟩,
    ⟨sAcc_ready 0 _ _ _ (by decide) (by decide +kernel), sAcc_ready 0 _ _ _ (by decide) (by decide +kernel)⟩, by decide,
    by decide, by decide, ?_⟩
  unfold State.issueStore; rfl

/-- A scale register that is not mapped while others are free; BLEN 3 and another; the first 512 bytes of scratch space. -/
theorem witness_ScaleWordsWriteTheirRegister :
    (∃ T, (sm (gAcc 0)).teams.find? (gAcc 0).team = some T ∧ (T.rename 1).mapped = false) ∧
    (Outside tc (gAcc 0) ∧ tc.pre = none ∧ (sm (gAcc 0)).poison = [] ∧ (sm (gAcc 0)).portFree tc = true ∧
      (sm (gAcc 0)).scalesSettled tc = true ∧ (sm (gAcc 0)).freeScales 0 ≠ []) ∧
    (Ready (sm (gAcc 0)) tc (gAcc 0) [fa.a.toNat] (Use.regs .reg fa.a.toNat) (Use.regs .pair fa.d.toNat) ∧
      Ready (sm (gAcc 0)) tc (gAcc 0) [] [] []) ∧
    ((11#6).toNat % 4 = 3 ∧ (4#6).toNat % 4 ≠ 3) ∧
    (Ready (sm gm) tc gm [] (Use.regs .pair fa.a.toNat) [] ∧
      (State.locate (sm gm) tc.gang 0 gm (State.ctxOf (sm gm) tc.gang)
        { r := true, w := false, size := 512, kind := 0, load := true, store := false } (operandPair tc gm 0 fa.a.toNat)).1 =
        .at_ (2 ^ 52) false true ∧
      (State.locate (sm gm) tc.gang 0 gm (State.ctxOf (sm gm) tc.gang)
        { r := false, w := true, size := 512, kind := 1, load := false, store := true } (operandPair tc gm 0 fa.a.toNat)).1 =
        .at_ (2 ^ 52) false true ∧ (sm gm).scaleRoom 3 0 1 = true) :=
  ⟨⟨_, rfl, by decide⟩, ⟨gAcc_outside 0, rfl, rfl, by decide, by decide, by decide⟩,
    ⟨sAcc_ready 0 _ _ _ (by decide) (by decide), sAcc_ready 0 _ _ _ (by decide) (by decide)⟩, by decide,
    ⟨sm_ready _ _ _ (by decide) (by decide), by decide +kernel, by decide +kernel, by decide +kernel⟩⟩

/-! ## Witnesses: what is performed, and waits that end -/

/-- An access of lane 0 to the first word of scratch space, or to one of home memory. -/
def acc (n pa : Nat) (k : AccessKind) (d : Dest) : Access :=
  { heldStore with sn := n, pa := pa, kind := k, dest := d, operands := [1] }

theorem witness_StoresAndAtomicsArePerformed :
    (let s := { ts with accesses := [acc 0 0x100 .store .none] }
     s.accesses.find? (·.sn == 0) = some (acc 0 0x100 .store .none) ∧ s.performable (acc 0 0x100 .store .none) [] = true ∧
     s.windowOf 0x100 = none ∧ ∀ k, s.inRun none k = false) ∧
    (let a := acc 0 0x100 (.atom .add) (.reg 8)
     let s := { ts with accesses := [a] }
     s.accesses.find? (·.sn == 0) = some a ∧ s.performable a (s.packetOf 0) = true) ∧
    (let a := acc 0 0x100 (.cas 0 false) (.reg 8)
     let s := { ts with accesses := [a] }
     s.performable a (s.packetOf 0) = true ∧ s.mem.num a.pa a.size = (0#64).toNat % 2 ^ (8 * a.size)) ∧
    (let a := acc 0 0x100 (.cas 1 false) (.reg 8)
     ts.mem.num a.pa a.size ≠ (1#64).toNat % 2 ^ (8 * a.size)) ∧
    (let a := acc 0 0x100 (.atom .add) .none
     let b := { acc 64 0x100 (.atom .add) .none with lane := 1 }
     let s := { ts with accesses := [a, b] }
     s.accesses.find? (·.sn == 64) = some b ∧ AtomOp.merges .add = true ∧ isScratchKey a.pa = false ∧ dieOf a.gang = dieOf b.gang ∧
     s.highChannel a.gang = s.highChannel b.gang ∧ s.performable a (s.packetOf 0) = true ∧
     s.performable b (0 :: 64 :: s.packetOf 0 ++ s.packetOf 64) = true) := by
  refine ⟨⟨rfl, by decide +kernel, by decide, fun _ => rfl⟩, ?_, ?_, ?_, ?_⟩ <;> decide +kernel

/-- An SLD of lane 0 of the first 512 bytes of scratch space to s1. -/
def someSld : ScaleLoad := { sn := 0, gang := 0, lane := 0, team := 3, sreg := 1, pa := 2 ^ 52 }

theorem witness_LoadsAreReadAndTheirResultsWritten :
    (let p : Pending := ⟨0, 0, 0, 8, some [7], none⟩
     let s := { ts with pending := [p] }
     s.pending.find? (·.sn == 0) = some p ∧ p.values = some [7] ∧ p.lane < 64) ∧
    (let a := acc 0 0x100 (.load false false) (.reg 8)
     let s := { ts with accesses := [a] }
     s.accesses.find? (·.sn == 0) = some a ∧ s.performable a [] = true ∧ a.half = none ∧ a.size ≠ 16 ∧
     s.pending.find? (·.sn == 0) = none ∧ ∀ k, s.inRun none k = false) ∧
    (let a := acc 0 (2 ^ 50) (.load true true) (.queue 0 0)
     let s := { ts with accesses := [a] }
     s.accesses.find? (·.sn == 0) = some a ∧ s.performable a [] = true ∧ isTensorKey a.pa = true ∧
     ∀ b ∈ s.accesses, b.of a.gang a.lane = true → b.isStore = false) ∧
    (let s := { sm gm with
       scaleLoads := [someSld]
       teams := [(3, { Team.blank with valid := true, renames := [(1, ⟨0, true, 0, 5⟩)] })] }
     s.scaleLoads.find? (·.sn == 0) = some someSld ∧ (∃ T, s.teams.find? 3 = some T ∧ (T.rename 1).mapped = true) ∧
     s.sldReady someSld = true ∧ someSld.pa % 8 = 0 ∧ ∀ j < 512, s.inRun none (someSld.pa + j) = false) := by
  refine ⟨by decide, ⟨rfl, by decide +kernel, rfl, by decide, rfl, fun _ => rfl⟩, by decide +kernel, rfl, ⟨_, rfl, by decide⟩,
    by decide, by decide, fun _ _ => rfl⟩

/-- A gang whose lane 0 is in a region. -/
def gOpen : Gang := tgOf fun t => { t with region := some ⟨4, 9, [], false, false, (0, 0), [], [], [], []⟩ }
/-- A gang whose lane 0 waits. -/
def gWait (w : Wait) : Gang := tgOf fun t => { t with wait := some w }
/-- A gang whose lane 1 waits for fetch at another packet. -/
def gFair : Gang :=
  { startGang { soloRecord with threads := 2, fair := 1 } 0 0 0 0 with
    bpc := 1, threads := [{ startThread { soloRecord with threads := 2 } 0 with pc := 9, waitSince := some 1 },
      { startThread { soloRecord with threads := 2 } 1 with pc := 1 }], fairAcc := 100000 }

theorem witness_WaitsEndWhenTheirTurnComes :
    (let s := { tsOf (gWait .xacq) with xacqQueue := [0] }
     (s.xacqQueue.filter fun x => partKey x == partKey 0).head? = some 0 ∧ s.xRoom 0 (gWait .xacq) = true) ∧
    (let s := { tsOf (gWait (.aacq 1)) with aacqQueue := [(0, 1)] }
     (s.aacqQueue.filter fun e => partKey e.1 == partKey 0).head? = some (0, 1) ∧ s.tileFree 0 = true) ∧
    ts.freeScales (coreOf 0) ≠ [] ∧
    (let s := { tsOf (gWait (.axb 0 false)) with axbQueue := [0] }
     (s.axbQueue.filter fun x => coreOf x == coreOf 0).head? = some 0 ∧ s.regionRoom 0 = true) ∧
    (let s := { tsOf (gWait (.axb 7 true)) with exclQueue := [(0, 7)] }
     s.exclQueue = (0, 7) :: [] ∧ s.exclusiveBusy = false ∧ s.attemptWaits 0 7 = true ∧ s.regionRoom 0 = true) ∧
    (let s := { ts with exclQueue := [(0, 7)] }
     s.exclQueue = (0, 7) :: [] ∧ s.exclusiveBusy = false ∧ s.attemptWaits 0 7 = false) ∧
    (let G := gWait (.axb 7 true)
     let s := { tsOf G with exclQueue := [(0, 7)], gangs := [(0, G), (8, gOpen), (16, gOpen)] }
     s.exclusiveBusy = false ∧ s.attemptWaits 0 7 = true ∧ s.gangs.find? 0 = some G ∧ G.inRegions = false ∧
     s.regionRoom 0 = false) ∧
    (ts.exclQueue = [] ∧ ts.exclusiveBusy = false) ∧
    (let s := { tsOf gFair with spawns := [(0, newSpawn 1 { soloRecord with fair := 1, flags := 1 } 0 0 0 none none 1 [])] }
     ∃ q, s.spawns.find? gFair.spawn = some q ∧ q.record.fairTime ≠ 0 ∧ q.record.fairTime ≤ gFair.fairAcc ∧
       gFair.fairFrom = none ∧ 0 < gFair.threads.length ∧ gFair.waitsFetch (gFair.thread 0) = true ∧
       ∀ k < gFair.threads.length, gFair.waitsFetch (gFair.thread k) = true → k = 0) ∧
    (let s := { tsOf (gWait (.watch 9 0 5)) with clk := 5 }
     (s.thread 0 0).wait = some (.watch 9 0 5) ∧ (s.thread 0 0).grant = none ∧ (5#32).toNat ≤ (s.clk - 0#64).toNat ∧
     (s.watchOf 0 0 9).any (·.fired) = false) ∧
    (let w := { someWatch false with late := true }
     let s := { ts with watches := [w] }
     s.watches[0]? = some w ∧ w.late = true ∧ (0#32) = BitVec.ofNat 32 (s.mem.num w.pa 4)) ∧
    (let w := { someWatch false with pa := 2 ^ 35 }
     w.pa < 2 ^ 50 ∧ w.pa / 2 ^ 35 ≠ ts.podIndex) := by
  refine ⟨by decide, by decide, by decide, by decide, by decide, by decide, by decide, by decide, ⟨_, rfl, by decide, by decide, rfl, by decide,
    by decide, by decide⟩, by decide, by decide, by decide⟩

/-- A gang whose lane 0 is in a region with a pinned load and a constraint on it. -/
def gComm (v : DWord) (pinned : Bool) (cs : List (Relation × Bool)) : Gang :=
  let r : Region := ⟨4, 9, [(6, 1)], false, false, (0, 0), [⟨0x100, 4, v, pinned⟩], [⟨0x200, 4, 1, false, none⟩], cs, []⟩
  tgOf fun t => { t with region := some r }
/-- A state in which gang 1 has the line of 0x100 in its exclusive attempt, and gang 0 asks to commit since clk 0. -/
def sExcl : State :=
  { tsOf (gComm 0 true []) with
    clk := 2000, commits := [⟨0, 0, 1, some 0⟩], exclusive := some 1
    gangs := [(0, gComm 0 true []),
      (1, tgOf fun t => { t with region := some ⟨4, 9, [], true, false, (0, 0), [⟨0x100, 4, 0, true⟩], [], [], []⟩ })] }

theorem witness_RegionsCommitOrAbort :
    (let q : CommitReq := ⟨0, 0, 1, none⟩
     let s := { tsOf (gComm 0 true []) with commits := [q] }
     s.commits.find? (fun r => r.core == 0) = some q ∧
     (∀ l, inLanes q.lanes l = true → s.unperformed q.gang l = false ∧ (∀ p ∈ s.posts, ¬(p.gang = q.gang ∧ p.lane = l)) ∧
       s.owes q.gang l 6 none = false) ∧
     ∀ l, inLanes q.lanes l = true → ∀ r, (s.thread q.gang l).region = some r → ∀ ln ∈ r.lines,
      s.heldByOther (some (q.gang, l)) (ln * 128) 128 = false) ∧
    (let s := { tsOf (gComm 0 true []) with commits := [⟨0, 0, 1, none⟩], accesses := [heldStore] }
     inLanes 1 0 = true ∧ s.unperformed 0 0 = true) ∧
    (let q : CommitReq := ⟨0, 0, 1, some 0⟩
     sExcl.commits.find? (fun r => r.core == 0) = some q ∧ (2000 ≤ (sExcl.clk - 0#64).toNat) ∧
     (∀ l, inLanes q.lanes l = true → sExcl.unperformed q.gang l = false ∧
       (∀ p ∈ sExcl.posts, ¬(p.gang = q.gang ∧ p.lane = l)) ∧ sExcl.owes q.gang l 6 none = false) ∧
     ∃ r, (sExcl.thread 0 0).region = some r ∧ 2 ∈ r.lines ∧ sExcl.heldByOther (some (0, 0)) (2 * 128) 128 = true) ∧
    (∀ v p cs, (∃ r, ((gComm v p cs).thread 0).region = some r ∧ r.loads = [⟨0x100, 4, v, p⟩] ∧ r.constraints = cs ∧
        ∀ x ∈ r.stores, ts.windowOf x.pa = none ∧ ∀ k, ts.inRun none k = false) ∧
      0 < (gComm v p cs).threads.length) ∧
    (BitVec.ofNat 64 (ts.mem.num 0x100 4) = 0#64 ∧ BitVec.ofNat 64 (ts.mem.num 0x100 4) ≠ 1#64) ∧
    Relation.holds ⟨.eq, .sym ⟨0, 0, false⟩, .con 1, false⟩ (fun _ => 0) ≠ true := by
  refine ⟨⟨rfl, fun l h => ?_, fun l h r hr ln _ => rfl⟩, by decide, ⟨rfl, by decide, fun l h => ?_, _, rfl, by decide, by decide⟩,
    fun v p cs => ⟨⟨_, rfl, rfl, rfl, fun x hx => ?_⟩, ?_⟩, by decide, by decide⟩
  · rw [lane_eq h]; decide
  · rw [lane_eq h]; decide
  · rw [List.mem_singleton] at hx; subst hx; exact ⟨by decide, fun _ => rfl⟩
  · have : (gComm v p cs).threads.length = 16 := rfl
    omega

/-! ## Witnesses: the matrix array, accumulator forms -/

/-- A product of the slots at the core's first two scratch addresses. -/
def someOp (accepted : Bool) (k : MatKind) : MatOp :=
  ⟨0, 0, 3, 1, k, accepted, 0, 1, 1, false, 0, 8, []⟩
def productKind : MatKind :=
  .product 0 true false (some (2 ^ 52)) [] (2 ^ 52 + 8192) 0 1 (List.replicate 64 none) (List.replicate 64 none)

theorem witness_TheArrayPerformsItsProducts :
    (let s := { sm (gAcc 0) with matOps := [someOp false productKind] }
     s.arrayBusy 0 = false ∧ s.arrayNextOp 0 = some (someOp false productKind)) ∧
    (let s := { sm (gAcc 0) with matOps := [someOp true productKind], clk := 20 }
     s.matOps.find? (·.sn == 0) = some (someOp true productKind) ∧ (someOp true productKind).kind = productKind ∧
     s.accFirst (someOp true productKind) = true ∧
     (someOp true productKind).busy + 12 ≤ (s.clk - (someOp true productKind).start).toNat ∧
     s.gangs.find? 0 = some (gAcc 0) ∧ (gAcc 0).accs.find? 1 = some ⟨false, []⟩) :=
  ⟨⟨rfl, rfl⟩, rfl, rfl, rfl, by decide, rfl, rfl⟩

theorem witness_AccumulatorFormsComplete (k : MatKind) (h : k = .azero true ∨ k = .movin [(65, 1)] ∨ k = .ascale [1] ∨
    k = .aload false (2 ^ 52) (2 ^ 52 + 8192) ∨ k = .astore [(2 ^ 52, [1, 2])] []) :
    let s := { sm (gAcc 0) with matOps := [someOp false k] }
    s.matOps.find? (·.sn == 0) = some (someOp false k) ∧ s.accFirst (someOp false k) = true ∧
    s.scratchClear 0 0 (someOp false k).kind.keys (someOp false k).writesScratch = true ∧
    s.gangs.find? 0 = some (gAcc 0) ∧ (gAcc 0).accs.find? 1 = some ⟨false, []⟩ := by
  rcases h with h | h | h | h | h <;> subst h <;> exact ⟨rfl, rfl, rfl, rfl, rfl⟩

/-! ## Witnesses: traps, fault records, the end of a spawn -/

/-- Memory with a ring control block at VA 0x100 of the mapped 64 KiB: BASE 0x400, SIZE 64, nothing in the ring. -/
def ringMem : Memory := Memory.write (Memory.placed [] 0 0) 0x10100 (leBytes 8 0x400 ++ leBytes 4 64)
/-- A gang that is stopped, with a ticket or without. -/
def gStop (tk : Option Word) : Gang := { tgHandler with stop := some ⟨1, 1, 0x40, 0, 5, 1, 0, tk⟩ }
/-- A fault record of gang 0, formed or not. -/
def someRec (formed : Bool) : FaultRec := ⟨0, 2, false, 0, 0, 0, 5, 1, 0, 0, 0, 0, 1, 0, formed, some 0⟩

theorem witness_LoggedCausesAndHandlersAreEntered :
    (∀ m : Bool, let e : LogItem := ⟨0, 0x24, 1, 5, m, 1, 8⟩
     let G := { tgOf (fun t => { t with trapvec := 64 }) with logs := [e] }
     (tsOf G).gangs.find? (0 / 2 ^ 32) = some G ∧ G.oldestLog = some e ∧ e.sn % 2 ^ 32 = 0 % 2 ^ 32 ∧ e.ready G = true ∧
     (tsOf G).olderMatrix 0 e = false ∧
     ∀ l ∈ (laneList e.trap).filter (fun l => (G.thread l).issues && !(G.thread l).handler), (G.thread l).trapvec ≠ 0) ∧
    (let s := { ts with mem := Memory.write ringMem 8 (leBytes 8 0x100) }
     (ts.ctxField (ts.ctxOf 0) 8 8 = 0 ∧ s.ctxField (s.ctxOf 0) 8 8 ≠ 0) ∧
     (({ s with mem := Memory.write s.mem 8 (leBytes 8 0x90000000) } : State).sysKey 0 0x90000000 true 64).1 = .missing 2 ∧
     (({ s with rebuilding := [0] } : State).sysKey 0 0x100 true 64).1 = .held ∧
     (({ s with mem := Memory.write s.mem 0x10108 [0x41] } : State).sysKey 0 0x100 true 64).1 = .at_ 0x10100 ∧
     ringSize 0x41 16 65536 = false) ∧
    (let s := { ts with mem := Memory.write ringMem 8 (leBytes 8 0x100) }
     s.ctxField (s.ctxOf 0) 8 8 = 0x100 ∧ (s.sysKey (s.ctxOf 0) (BitVec.ofNat 64 0x100) true 64).1 = .at_ 0x10100 ∧
     (s.sysKey (s.ctxOf 0) (BitVec.ofNat 64 0x400) true 32).1 = .at_ 0x10400 ∧
     s.mem.num 0x10100 8 % 32 = 0 ∧ ringSize (s.mem.num 0x10108 4) 16 65536 = true ∧
     ringUsed (s.mem.num 0x10110 4) (s.mem.num 0x10114 4) < s.mem.num 0x10108 4) ∧
    (let r : TrapReq := ⟨0x24, 5, 1, 0, 0, false, 1⟩
     let G := tgOf fun t => { t with trapvec := 64, trap := some r }
     let s := tsOf G
     (G.thread 0).trap = some r ∧ 0 ∈ G.entrants r ∧ ∀ k ∈ G.entrants r, s.entryReady 0 k = true ∧
       (G.thread k).handler = false ∧ (G.thread k).trapvec ≠ 0 ∧ (G.thread k).region = none ∧ k < G.threads.length) := by
  refine ⟨by decide, by decide +kernel, by decide +kernel, by decide⟩

theorem witness_FaultRecordsAreWrittenAndResolved :
    (let s := { tsOf (gStop none) with faults := [someRec false] }
     (s.faults.filter fun x => x.die == 0 && !x.formed).head? = some (someRec false) ∧ s.heldRecords 0 = [] ∧
     (someRec false).gangKey = some 0 ∧ s.gangs.find? 0 = some (gStop none) ∧ s.tickets.length < 2 ^ 31 ∧ s.faultVa = 0) ∧
    (let s := { ts with faults := [someRec true], mem := ringMem, faultVa := 0x100 }
     (∀ x ∈ s.faults, x.die = 0 → x.formed = true) ∧ (s.heldRecords 0).head? = some (someRec true) ∧
     s.faultSlot.1 = (some 0x10100, some 0x10400) ∧ (∃ r ∈ s.faults, r.formed = true ∧ r.ticket = 0)) ∧
    (({ ts with faults := [someRec true], mem := Memory.write ringMem 0x10108 [0x41], faultVa := 0x100 } : State).faultSlot.1 =
      (some 0x10100, none)) ∧
    ts.ticketGang 7 = none ∧
    (let s := tsOf (gStop (some 7))
     s.ticketGang 7 = some (0, ⟨1, 1, 0x40, 0, 5, 1, 0, some 7⟩) ∧ (∃ q, s.spawns.find? 0 = some q ∧ q.ending = none) ∧
     ∀ l, inLanes 1 l = true → l < (gStop (some 7)).threads.length ∧ ((gStop (some 7)).thread l).region = none ∧
       ((gStop (some 7)).thread l).handler = false ∧ ((gStop (some 7)).thread l).trapvec ≠ 0 ∧ s.entryReady 0 l = true) := by
  refine ⟨by decide, by decide +kernel, by decide +kernel, by decide, by decide, ⟨_, rfl, rfl⟩, fun l h => ?_⟩
  rw [lane_eq h]; decide

theorem witness_SpawnsEndAndComplete :
    (let p := newSpawn 1 { soloRecord with limit := 1 } 0 0 0 none none 1 []
     p.record.limit ≠ 0 ∧ 800 * p.record.limit ≤ (800#64 - p.start).toNat ∧ p.ending = none) ∧
    (let p := { newSpawn 1 soloRecord 0 0 0 none none 1 [] with ending := some 2 }
     let s := { ts with spawns := [(0, p)] }
     Sound s ∧ s.spawns.find? 0 = some p ∧ p.ending ≠ none ∧ p.issuing = true) ∧
    (let p := { newSpawn 1 soloRecord 0 0 0 (some (4, 0)) none 1 [] with ending := some 2, issuing := false }
     let s := { ts with
       gangs := [], spawns := [(0, p)], front := { ts.front with bundles := [(4, ⟨0, 0, 1, [none]⟩)] } }
     s.spawnDone 0 p = true ∧ (∀ e ∈ s.front.images, e.2.spawn ≠ 0) ∧ (∀ e ∈ s.teams, e.2.creator ≠ some 0) ∧
     p.bundle = some (4, 0) ∧ p.command = none ∧ (s.front.bundles.find? 4).isSome = true) :=
  ⟨by decide, ⟨⟨by decide, by decide⟩, rfl, by decide, rfl⟩, by decide⟩

/-! ## Witnesses: copies, the launch path, preemption -/

/-- A state whose tables map the first 64 KiB of control space and the first 1 GiB of tensor space. -/
def sv : State :=
  { ts with mem := Memory.write (Memory.write (Memory.placed [] 0 0) 0x3000 (leBytes 8 0x8001)) 0x8000 (leBytes 8 0x11F) }
/-- A copy of one row of 16 bytes from control address 0x100 to tensor address 0. -/
def plainCopy : Copy :=
  { someCopy with desc := { someCopy.desc with rows := 1, rbytes := 16, src := 0x100, dst := 0x2000000000000000 } }

theorem witness_CopiesRunAndHandlesMove :
    (let s := { ts with copies := [plainCopy] }
     s.streamHead 0 0 = some plainCopy ∧ plainCopy.started = false ∧ plainCopy.ending = none ∧
     plainCopy.owner.all s.ownerSettled = true ∧ plainCopy.desc.mode = 0 ∧ plainCopy.desc.total ≠ 0) ∧
    (let c := { plainCopy with desc := { plainCopy.desc with mode := 1 } }
     let T := { Team.blank with valid := true, renames := (natsFrom 0 64).map fun n => (n, (⟨0, true, 0, n⟩ : Rename)) }
     let s := { ts with copies := [c], teams := [(3, T)] }
     s.streamHead 0 0 = some c ∧ s.copyTeam c = some T ∧ c.desc.total ≠ 0 ∧ ∀ n < 64, (T.rename n).mapped = true) ∧
    (let c := { plainCopy with desc := { plainCopy.desc with mode := 2, sreg := 9 } }
     let T := { Team.blank with valid := true, renames := [(9, (⟨0, true, 0, 9⟩ : Rename))] }
     let s := { ts with copies := [c], teams := [(3, T)] }
     s.streamHead 0 0 = some c ∧ s.copyTeam c = some T ∧ s.teams.find? c.team = some T ∧ (T.rename 9).mapped = true) ∧
    (let c := { plainCopy with started := true }
     let s := { sv with copies := [c] }
     let d := c.desc
     let sva := (d.src.toNat + c.row * d.sstride + c.blk * d.srcBlock) % 2 ^ 64
     let dva := (d.dst.toNat + (if d.kind = 1 then 128 * c.row else c.row * d.dstride) + c.blk * d.dstBlock) % 2 ^ 64
     let from_ := s.engineRun c.ctx (s.copySlot c false) false sva d.srcBlock
     let to_ := from_.2.engineRun c.ctx (s.copySlot c false) true dva d.dstBlock
     s.streamHead 0 0 = some c ∧ c.row < d.rows ∧ d.total ≠ 0 ∧ d.gather = false ∧ d.zfill = false ∧ d.mode = 0 ∧
     from_.1 = ([⟨0x10100, 16, false⟩], none) ∧ to_.1 = ([⟨2 ^ 50, 16, false⟩], none) ∧ to_.2.routeless c = none ∧
     (to_.2.touchSlots c [⟨2 ^ 50, 16, false⟩]).1.sourceRanges c = [⟨0x10100, 16, false⟩] ∧ s.runs = []) ∧
    (let c := { plainCopy with started := true }
     (({ ts with copies := [c] } : State).engineRun c.ctx (fun _ => none) false c.desc.src.toNat 16).1 = ([], some (some 5))) ∧
    (let c := { plainCopy with started := true }
     let s := { sv with copies := [c], mem := Memory.write sv.mem 0x3000 (leBytes 8 0) }
     let from_ := s.engineRun c.ctx (s.copySlot c false) false 0x100 16
     from_.1 = ([⟨0x10100, 16, false⟩], none) ∧
     (from_.2.engineRun c.ctx (s.copySlot c false) true 0x2000000000000000 16).1 = ([], some (some 5))) ∧
    (let c := { plainCopy with started := true, row := 1, cplKey := some 0x200 }
     c.desc.rows ≤ c.row ∧ c.unacked = [] ∧ c.bundle = none ∧ c.desc.sync = 0 ∧ c.desc.kind ≠ 1 ∧ ts.recordHeld c = false) ∧
    (let c := { plainCopy with started := true, row := 1, desc := { plainCopy.desc with kind := 1 } }
     let s := { ts with copies := [c], teams := [(3, { Team.blank with valid := true })] }
     c.desc.rows ≤ c.row ∧ c.desc.kind = 1 ∧ c.desc.total ≠ 0 ∧ (s.copyTeam c).isSome = true ∧ ts.copyStale c = true ∧
     ts.sync.staleDrops.get 0 c.cluster < 0xFFFFFFFF) ∧
    (let q : Handover := ⟨0, 3, 5, 0, 0⟩
     let s := { sm gm with sync := { (sm gm).sync with handovers := [q] } }
     s.sync.handovers[0]? = some q ∧ s.takeReady 5 = true ∧ s.takeStatus 3 5 0 0 = 0) ∧
    (let s := { ts with sync := { ts.sync with returned := [1023] } }
     s.sync.returned[0]? = some 1023 ∧ s.copyHolds 1023 = false ∧ s.slotBusy 1023 = false) := by
  refine ⟨by decide +kernel, by decide +kernel, by decide +kernel, by decide +kernel, by decide +kernel, by decide +kernel,
    by decide +kernel, by decide +kernel, by decide +kernel, by decide +kernel⟩

/-- A state with a queue: BASE 0x400, SIZE 16, enabled or not, context 0 admitted. -/
def sq (enable : Nat) (tail : Nat) : State :=
  { sv with
    qcbBase := 0x3800, queueAclBase := 0x3C00, gangs := [], spawns := []
    mem := Memory.write (Memory.write (Memory.write (Memory.write sv.mem 0x3800 (leBytes 8 0x400 ++ leBytes 4 16)) 0x3811
      [BitVec.ofNat 8 enable]) 0x3818 (leBytes 4 tail)) 0x3C00 [1] }
/-- The copy of its control block. -/
def qv (enable : Bool) : QueueView := ⟨0x400, 16, 0, 0, 0, enable⟩
/-- A POST of lane 0 to queue 0. -/
def queuePost : PostMsg := somePost offPorts
/-- A spawn with its first gang still to be placed. -/
def unplacedSpawn : Spawn := { newSpawn 1 soloRecord 0 0 0 none none 1 [(3, 0)] with unplaced := [0] }
/-- A bind record for it, at the last gang slot. -/
def someBind : BindRec := ⟨⟨383, 7, 63⟩, 1, 0, 0, 0, 0, 0, 0xFFFF⟩

theorem witness_BundlesStartAndRetire :
    (∀ e ∈ ([0, 1] : List Nat), let s := { sq e 0 with posts := [queuePost] }
     s.posts.find? (·.sn == 0) = some queuePost ∧ s.postReady queuePost = true ∧ queuePost.pa ≠ s.runPort ∧
     queuePost.pa / 2 ^ 35 = s.podIndex ∧ s.portOf queuePost.pa = some 0 ∧ queuePost.away = none ∧ queuePost.gang ≠ hostGang ∧
     let v := qv (e == 1)
     s.readQcb 0 = some v ∧ s.queueAdmits v 0 = true ∧ (linkOf queuePost.bytes).count = 0 ∧
     ringUsed (s.qTail 0) (s.qHead 0) + 1 ≤ v.size ∧
     (s.frontSpot v.ctx Leaf.w false (v.base.toNat + 64 * (s.qTail 0 % v.size))).1 = .at_ 0x10400 false) ∧
    ((sq 1 16).readQcb 0 = some (qv true) ∧ (qv true).size < ringUsed ((sq 1 16).qTail 0) ((sq 1 16).qHead 0) + 1 ∧
      (sq 1 16).queueAdmits (qv true) 1 = false) ∧
    (let s := { sq 1 1 with mem := Memory.write (sq 1 1).mem 0x1040C [1] }
     let v := qv true
     s.readQcb 0 = some v ∧ s.qTail 0 = (s.qHead 0 + 1) % 2 ^ 32 ∧
       s.qHead 0 < 2 ^ 32 ∧ ringUsed (s.qTail 0) (s.qHead 0) = 1 ∧
       (let x := State.frontSpot { s with front := { s.front with queues := s.front.queues.put 0 v } } v.ctx (fun _ => true) false
         (v.base.toNat + 64 * (s.qHead 0 % v.size))
        x.1 = .at_ 0x10400 false ∧
        State.frontSpot x.2 v.ctx (fun _ => true) false (v.base.toNat + 64 * (s.qHead 0 % v.size)) = (.at_ 0x10400 false, x.2)) ∧
       let r := parseRecord (s.mem.read 0x10400 64)
       (linkOf (s.mem.read 0x10400 64)).count = 0 ∧ r.bad s.bestParts = false ∧ r.threads ≠ 0 ∧ r.gangs = 1 ∧ r.team = 0 ∧ r.slots = 0 ∧
       s.freeSpawn = some 0 ∧ s.freeEntryOn (dieOf 0) = some 0 ∧ placeKey ⟨0, 0, 0⟩ = some 0 ∧ s.gangs = [] ∧
       State.placeOk { s with spawns := s.spawns.put 0 (newSpawn 1 r 0 0 0 none none 1 []) } 0 r r.acc = true) ∧
    (let s := { ts with gangs := [], spawns := [(0, unplacedSpawn)] }
     placeKey someBind.place = some 196607 ∧ s.spawnAt (dieOf 196607) someBind.spawn.toNat = some (0, unplacedSpawn) ∧ s.spawns.find? 0 = some unplacedSpawn ∧
     unplacedSpawn.unplaced.contains someBind.gang.toNat = true ∧ someBind.width.toNat = unplacedSpawn.record.width ∧
     s.placeOk 196607 unplacedSpawn.record someBind.accres.toNat = true ∧ someBind.team = 0xFFFF ∧
     (newSpawn 1 soloRecord 0 0 0 none none 1 []).unplaced.contains someBind.gang.toNat = false) ∧
    (let s := { sv with front := { sv.front with bundles := [(4, ⟨0x200, 0, 1, [some 0, some 2]⟩)] } }
     (∃ b, s.front.bundles.find? 4 = some b ∧ (∀ m ∈ b.members, m ≠ none) ∧ b.cpl ≠ 0 ∧
       (s.sysKey b.ctx b.cpl true 4).1 = .at_ 0x10200 ∧ (ts.sysKey b.ctx b.cpl true 4).1 = .missing 2 ∧
       (({ s with rebuilding := [0] } : State).sysKey b.ctx b.cpl true 4).1 = .held)) := by
  refine ⟨by decide +kernel, by decide +kernel, by decide +kernel, by decide +kernel, ⟨_, rfl, by decide +kernel⟩⟩

/-- A singleton's gang, and the image that it is saved to. -/
def gOwn : Gang := { tg with team := 65536 }
def someImage : Image := ⟨0, 65536, Team.blank, [(0, gOwn)], [], [], [], [], [], []⟩

theorem witness_TeamsAreSavedAndResumed :
    (let s := tsOf gOwn
     Sound s ∧ placeKey ⟨0, 0, 0⟩ = some 0 ∧ s.gangs.find? 0 = some gOwn ∧ s.teamAway gOwn.team = false ∧
     (∀ l, (gOwn.thread l).region = none) ∧ gOwn.threads.length ≤ 64) ∧
    (let s := { tsOf gOwn with front := { ts.front with saves := [⟨65536, 1⟩] } }
     s.front.saves.find? (·.team == 65536) = some ⟨65536, 1⟩ ∧ s.members 65536 ≠ [] ∧
     ∀ e ∈ s.members 65536, s.gangDrained e.1 e.2 = true) ∧
    (let s := { ts with
       gangs := [], front := { ts.front with images := [(1, someImage)] }
       spawns := [(0, newSpawn 1 soloRecord 0 0 0 none none 1 [(3, 0)])] }
     placeKey someBind.place = some 196607 ∧ s.front.images.find? someBind.image.toNat = some someImage ∧
     (∃ q, s.spawns.find? someImage.spawn = some q ∧ q.stopped = false ∧ (q.entries.find? (dieOf 196607)).isSome = true ∧
       s.placeOk 196607 q.record gOwn.accRes = true) ∧
     someImage.gangs = [(someBind.gang.toNat, gOwn)] ∧ 65536 ≤ someImage.key ∧ s.tilesFor 196607 gOwn = true) := by
  refine ⟨⟨⟨by decide, by decide⟩, by decide, by decide, by decide, fun l => ?_, by decide⟩, by decide, by decide,
    by decide, ⟨_, rfl, rfl, by decide, by decide +kernel⟩, rfl, by decide, by decide⟩
  by_cases h : l < 16
  · have : ∀ l < 16, (gOwn.thread l).region = none := by decide
    exact this l h
  · unfold Gang.thread
    rw [nth_of_le _ _ _ (by show 16 ≤ l; omega)]; rfl

/-! ## Witnesses: refinement, translation, care -/

/-- A refinement command on die 0, without a thread in any phase. -/
def someCommand (st : CmdStage) (norm : Nat) (record : List Byte := List.replicate 64 0) : Command :=
  { sn := 0, die := 0, owner := ⟨0, 0, 0⟩, ctx := 0, prio := 3, va := 0, key := 0x10100, cplKey := some 0x10300
    block := record ++ List.replicate 0x80 0 ++ leBytes 8 0x400 ++ leBytes 4 1 ++ [BitVec.ofNat 8 norm] ++ List.replicate 0x33 0
    stage := st, rung := 0, it := 0, rit := 0, stag := 0, prev := none, bn := 0, final := some 0, cancelled := false }

theorem witness_RefinementCommandsRun :
    (∀ n ∈ ([0, 2] : List Nat), let c := someCommand .waiting n
     let s := { ts with commands := [c] }
     ((s.commands.filter fun x => x.die == 0).filter Command.running).length < 2 ∧
     (s.commands.filter fun x => x.die == 0).find? (fun x => !x.running) = some c ∧ s.ownerSettled c.owner = true ∧
     (∀ x ∈ s.commands, x.die = 0 → x.running = false → x.cancelled = false) ∧ c.cancelled = false ∧
     bitsOf (blockField c.block 0xCC 1) 1 1 = n / 2 ∧ s.mem.num (c.key + 0xE4) 2 = 0 ∧ (c.record 0).bad s.bestParts = false ∧
     (c.record 0).threads = 0) ∧
    (let c := someCommand .waiting 0 (List.replicate 12 0 ++ [1] ++ List.replicate 51 0)
     (c.record 0).bad ts.bestParts = false ∧ (c.record 0).threads ≠ 0 ∧ ts.freeSpawn = some 1 ∧
     ts.takeEntries ((natsFrom 0 4).filter fun d => (ts.freeEntryOn d).isSome) = some [(0, 0), (1, 0), (2, 0), (3, 0)]) ∧
    ((someCommand .waiting 0 (List.replicate 16 0 ++ [3] ++ List.replicate 47 0)).record 0).bad ts.bestParts = true ∧
    (let s := { ts with mem := Memory.write ringMem 0x10 (leBytes 8 0x100) }
     (ts.writeRing 0 (ts.ctxField 0 0x10 8) [1]).1 = true ∧
     (({ s with rebuilding := [0] } : State).writeRing 0 (s.ctxField 0 0x10 8) [1]).1 = false) ∧
    (let c := someCommand (.ended 1 5) 0
     c.stage = .ended 1 5 ∧ c.final = some 0 ∧ bitsOf (blockField c.block 0xCE 1) 4 1 = 0) ∧
    (let c := someCommand (.norm false) 0
     let s := { sv with commands := [c] }
     s.commands.find? (·.sn == 0) = some c ∧
     (s.normSpan c.ctx (blockField c.block 0xC0 8) (8 * blockField c.block 0xC8 4)).1 = .at_ [⟨0x10400, 8, false⟩] ∧ s.runs = [] ∧
     bitsOf (blockField c.block 0xCE 1) 0 1 = 0 ∧
     normLe (normOf (blockField c.block 0xCC 1 % 2 == 1) (doublesOf (bytesOf s [⟨0x10400, 8, false⟩])))
       (blockField c.block 0xD0 4) c.bn.toNat = true) := by
  refine ⟨?_, by decide +kernel, by decide +kernel, by decide +kernel, by decide +kernel, by decide +kernel⟩
  intro n hn
  simp only [List.mem_cons, List.not_mem_nil, or_false] at hn
  rcases hn with h | h <;> subst h <;> decide +kernel

/-- The last block of invalidations with a legal base and an illegal one; an invalidation; waiting answers; frames. -/
theorem witness_TranslationsAreInvalidatedAndFramesZeroed :
    (let s := ts
     s.mem.num (s.invalBlock 31 + 0x14) 1 % 2 = 0 ∧ (BitVec.ofNat 64 (s.mem.num (s.invalBlock 31) 8)).toNat % 65536 = 0) ∧
    (let s := { ts with mem := Memory.write [] (ts.invalBlock 0) [1] }
     s.mem.num (s.invalBlock 0 + 0x14) 1 % 2 = 0 ∧ (BitVec.ofNat 64 (s.mem.num (s.invalBlock 0) 8)).toNat % 65536 ≠ 0) ∧
    (∀ d : Bool, let x : Inval := ⟨0, 1, 0, 0, none, d⟩
     let s := { ts with invals := [x] }
     s.invals.find? (fun y => y.base == 0 && y.count == (1#32).toNat && y.asid == (0#16).toNat) = some x ∧ s.invalDrained x = true ∧
     x.src = none ∧ x.dropped = d) ∧
    (let s := { ts with invals := [⟨0, 1, 0, 64, none, true⟩], accesses := [{ heldStore with pa := 0 }] }
     s.invalDrained ⟨0, 1, 0, 64, none, true⟩ = false) ∧
    (let s := { ts with invalWait := [(0, [1]), (1, [1, 2])] }
     s.invalWait.find? 0 = some [1] ∧ s.invalWait.find? 1 = some [1, 2] ∧ (2 ≠ 1)) ∧
    (let z : Zeroing := ⟨0x6000, 0x20001, 0x20000, 65536, false, false, []⟩
     let s := { ts with zeroing := [z, { z with started := true }] }
     s.zeroing[0]? = some z ∧ s.zeroing[1]? = some { z with started := true } ∧ z.entryAt % 8 = 0 ∧ z.entryAt + 8 ≤ z.frame ∧
     s.zeroing.filter ({ z with started := true } : Zeroing).merged = [{ z with started := true }]) := by
  refine ⟨by decide +kernel, by decide +kernel, by decide +kernel, by decide +kernel, by decide, by decide⟩

/-- A gang that could have issued for 1 ms; temperatures 94 to 110 at their bounds; bring-up; the key of block 0; a record. -/
theorem witness_ThePackageIsCaredFor :
    (let G := { tg with candSince := some 0 }
     let s := { tsOf G with clk := 800000 }
     (0, G) ∈ s.gangs ∧ s.gangs.find? 0 = some G ∧ 800000 ≤ (s.clk - 0#64).toNat ∧
     800000 ≤ (s.clk - s.health.lastIssue.get 0 0).toNat ∧ 0 ∉ s.health.retired ∧ (s.spawns.find? G.spawn).isSome = true) ∧
    ((∃ k, Datum.unit 0 = .unit k) ∧ (∃ g l r, Datum.reg 0 0 8 = .reg g l r)) ∧
    ((110 : Nat) ≤ 110 ∧ (109 : Nat) < 110 ∧ (100 : Nat) ≤ 100 ∧ (99 : Nat) < 100 ∧ (95 : Nat) ≤ 95 ∧ (94 : Nat) < 95) ∧
    (State.reset.care.dark = false ∧ State.reset.care.failed = false ∧ State.reset.care.done = 0 ∧ State.reset.care.tries = 0) ∧
    ((blockKey 0).isSome = true ∧ (List.replicate 64 (0#8)).length = 64 ∧ ts.posts = []) ∧
    (let s := { ts with posts := [⟨0, hostGang, 3, 63, 0, offPorts, [], none, []⟩] }
     ∃ p ∈ s.posts, p.gang = hostGang ∧ p.lane = 3 ∧ p.pa = s.home + offPorts + 64 * 0) ∧
    ((0 : Nat) < 2 ^ 60 ∧ 0 < ts.home + offReach ∧ inFlash 0 = false ∧ ts.windowOf 0 = none ∧ ts.linkAt 0 = none) := by
  refine ⟨by decide, ⟨⟨_, rfl⟩, _, _, _, rfl⟩, by decide, by decide, by decide, by decide, by decide⟩

/-! ## Witnesses: the fabric, collectives -/

/-- A link state with bundle 1 of link 0 up and two flits kept for replay. -/
def sl : State :=
  { ts with fabric := { ts.fabric with
    bundles := [(1, { BundleSt.blank with up := true, tx := 2, replay := [⟨1, true, 0, 0, .heartbeat, none, 0⟩, ⟨1, true, 0, 0, .heartbeat, none, 0⟩] })] } }
def someFlit : DataFlit := ⟨1, 0, 0, 0, 1, 0, 7, 0x100, 0, 0, 8, [1, 2, 3, 4], true⟩

theorem witness_LinksTakeFlitsInSequence :
    ((sl.link 0).backlog = [] ∧ (sl.bundle 0 1).up = true ∧ (((sl.bundle 0 1).before 1 + 1) % 2 ^ 16 ≤ (sl.bundle 0 1).replay.length) ∧
      (sl.bundle 0 1).before 1 < (sl.bundle 0 1).replay.length ∧ (sl.bundle 0 1).again ≠ some 1 ∧ sl.dataUp 0 ≠ []) ∧
    ((ts.bundle 0 15).up = false ∧ (ts.bundle 0 15).tx = 0 ∧ (ts.bundle 0 15).rx = 0 ∧ (ts.bundle 0 15).retrained = []) ∧
    (let s := { ts with fabric := { ts.fabric with bundles := [(2, { BundleSt.blank with tx := 2, retrained := [5] })] } }
     (s.bundle 0 2).up = false ∧ (s.bundle 0 2).tx ≠ 0 ∧ 3 ∉ (s.bundle 0 2).retrained ∧ 5 ∈ (s.bundle 0 2).retrained) ∧
    ((∀ lane < 8, ts.fabric.spares.get 2 (fibreOf 0 2 lane) ≠ 0) ∧
     ({ ts.fabric with spares := [(fibreOf 0 2 3, 0)] } : Fabric).spares.get 2 (fibreOf 0 2 3) = 0) ∧
    (let s := { ts with clk := 8000000 }
     s.linkUp 63 = false ∧ 8000000 ≤ (s.clk - (s.link 63).trainedAt).toNat ∧ 80000 ≤ (s.clk - (s.link 63).heard).toNat) ∧
    (let f : CtlFlit := ⟨1, 4, 0, List.replicate 16 0, true⟩
     f.ty = 1 ∧ f.ch = 4 ∧ leNat (f.body.take 2) = ts.podIndex ∧ (ts.link 0).parts.find? 8 = none ∧
     leNat ((f.body.drop 10).take 1) = 0) ∧
    ((sl.takeFlit 0 1 (subOf true 0 0) 0 true).1 = true ∧
      (let s1 := (sl.takeFlit 0 1 (subOf true 0 0) 0 true).2
       someFlit.dst.toNat = s1.podIndex ∧ keyHome (2 ^ 50 + someFlit.addr.toNat) = s1.podIndex ∧
       s1.aclAdmits s1.podIndex 1 0 1 (some (0x100, 4)) = true ∧ s1.piecePoisoned true ⟨2 ^ 50 + 0x100, 4, false⟩ = false ∧
       s1.heldByOther none (2 ^ 50 + 0x100) 4 = false ∧ s1.aclAdmits s1.podIndex 1 0 0 (some (0x100, 8)) = true ∧
       s1.piecePoisoned false ⟨2 ^ 50 + 0x100, 8, false⟩ = false ∧ s1.runs = [])) := by
  refine ⟨by decide +kernel, by decide, by decide, by decide, by decide +kernel, by decide,
    by decide +kernel, by decide +kernel⟩

/-- Transfers of each kind. -/
def someTransfer (k : XferKind) : Transfer := { xfer := 7, dst := 1, tenant := 0, kind := k, noRoute := some 0 }

theorem witness_TransfersAreAnswered :
    (let m : RemoteAtomic := ⟨1, 0, 7, 0, 0x100, 1⟩
     ts.remembered m.src m.xfer = none ∧ keyHome (2 ^ 50 + m.addr) = ts.podIndex ∧
     ts.aclAdmits ts.podIndex 1 0 2 (some (0x100, 4)) = true ∧ ts.unitPoisoned (2 ^ 50 + 0x100) = false ∧
     ts.heldByOther none (2 ^ 50 + 0x100) 4 = false ∧ ts.runs = []) ∧
    (let s := { ts with fabric := { ts.fabric with dedup := [⟨1, 7, 0, 5, 0⟩] } }
     (s.remembered 1 7).isSome = true) ∧
    (∀ k : XferKind, ({ ts with transfers := [someTransfer k] } : State).transfers.find? (·.xfer == 7) = some (someTransfer k)) ∧
    (∃ n row va src addr bytes, XferKind.piece 0 0 0 0 0 [1] = .piece n row va src addr bytes ∧ bytes.length ≤ (1#32).toNat) ∧
    (let s := { ts with clk := 800000 }
     800000 ≤ (s.clk - 0#64).toNat ∧ 8000 ≤ (s.clk - 0#64).toNat) ∧
    (let m := Memory.write (Memory.write [] (ts.home + offBoard + 4 * 1) [0xA1, 0, 0, 0]) (ts.home + offReach + 2 * 1) [1, 0]
     let s := { ts with mem := m }
     s.route 1 7 ≠ .none) :=
  ⟨by decide +kernel, by decide, fun k => rfl, ⟨0, 0, 0, 0, 0, [1], rfl, by decide⟩, by decide, by decide +kernel⟩

/-- A state 1 ms after reset in which package 1 has been silent, and one in which it is suspected. -/
def sf : State := { ts with clk := 0x200000, mem := Memory.write [] (offReach + 2 * 1) [1, 0] }

theorem witness_PeersAreSuspectedAndLost :
    (80000 ≤ (sf.clk - sf.fabric.beatAt).toNat ∧ sf.silent 1 = true ∧ sf.lost 1 = false ∧ bitsOf (sf.reach 1) 0 1 = 1 ∧
      sf.fabric.suspects = [] ∧ sf.podIndex = 0 ∧ ts.silent 1 = false) ∧
    (let s := { sf with fabric := { sf.fabric with suspects := [⟨1, 0, 2, []⟩] } }
     s.fabric.suspects.find? (·.pkg == 1) = some ⟨1, 0, 2, []⟩ ∧ ¬(min 2 2 ≤ 0 + 1)) ∧
    (let s := { sf with fabric := { sf.fabric with suspects := [⟨1, 0, 2, [7]⟩] } }
     s.fabric.suspects.find? (·.pkg == 1) = some ⟨1, 0, 2, [7]⟩ ∧ min 2 2 ≤ 1 + 1) ∧
    (let s := { sf with fabric := { sf.fabric with suspects := [⟨1, 0, 0, []⟩] } }
     s.fabric.suspects.find? (·.pkg == 1) = some ⟨1, 0, 0, []⟩ ∧ 1600000 ≤ (s.clk - 0#64).toNat) ∧
    (let s := { sf with mem := Memory.write [] offPeerState [2] }
     s.lost 1 = true) ∧
    (sf.liveLinks = [] ∧ 800000 ≤ (sf.clk - sf.fabric.alone.getD 0).toNat ∧ ∃ p < 1024, p ≠ sf.podIndex ∧ bitsOf (sf.reach p) 0 1 = 1) := by
  refine ⟨by decide +kernel, by decide, by decide, by decide, by decide +kernel, by decide +kernel, by decide +kernel, 1, ?_⟩
  decide +kernel

/-- The state sv with a communicator in a state, its graph image at VA 0x400: one operation that does nothing. -/
def scomm (st : Nat) : State :=
  { sv with mem := Memory.write (Memory.write (Memory.write sv.mem (ts.comm 15) (leBytes 8 0x400 ++ [0, 0, BitVec.ofNat 8 (16 * st)]))
      0x10400 ([1, 0, 0, 0] ++ List.replicate 12 0 ++ [1])) 0x10500 [4] }
/-- A run of communicator 15, and a graph of one SEND of 16 bytes to package 1, or of one RECV. -/
def someRun (started : Bool) : Run :=
  ⟨0, 15, 0, 0, [0x2000000000000000, 0, 0, 0], none, 0, started, [], [], [], [], [], [], none, [], []⟩
def sendGraph (kind : Nat) : Graph := ⟨3, [⟨kind, 0, 1, 0, 0, 16, 0, 0, 0, 0, []⟩]⟩
/-- A POST of lane 0 to the run port, for communicator 15. -/
def runPost : PostMsg := { queuePost with pa := offCollective, bytes := 15 :: List.replicate 63 0 }

theorem witness_CommunicatorsLoadAndRun :
    (ts.commState 15 = 0 ∧ (scomm 1).commState 15 = 1 ∧ (scomm 2).commState 15 = 2 ∧ (scomm 3).commState 15 = 3 ∧
      (scomm 4).commState 15 = 4) ∧
    (let s := { ts with mem := Memory.write [] (ts.comm 0) [0, 0, 0, 0, 0, 0, 0, 0x20, 0, 0, 0x10] }
     s.commState 0 = 1 ∧ 1 ≤ s.mem.num (s.comm 0) 8 / 2 ^ 61) ∧
    (let s := scomm 1
     s.mem.num (s.comm 15) 8 / 2 ^ 61 = 0 ∧
     (s.plainSpan (s.commCtx 15) (s.mem.num (s.comm 15) 8) 256).1 = .at_ [⟨0x10400, 256, false⟩] ∧
     (let head := bytesOf s [⟨0x10400, 256, false⟩]
      leNat (head.take 2) = 1 ∧ leNat ((head.drop 2).take 2) = 0 ∧
      (s.plainSpan (s.commCtx 15) 0x500 32).1 = .at_ [⟨0x10500, 32, false⟩] ∧
      let raw := pieces 32 1 (bytesOf s [⟨0x10500, 32, false⟩])
      graphError s.podIndex 1 0 (leNat ((head.drop 0x10).take 128)) raw [] (raw.map (parseOp [])) = 0)) ∧
    (let s := { scomm 2 with posts := [runPost] }
     s.posts.find? (·.sn == 0) = some runPost ∧ runPost.pa = s.runPort ∧ runPost.away = none ∧ s.postReady runPost = true ∧ runPost.gang ≠ hostGang ∧
     leNat (runPost.bytes.take 1) % 16 = 15 ∧ runPost.ctx = s.commCtx 15 ∧ s.runs.length < 64) ∧
    (let s := { scomm 2 with runs := [someRun false], coll := { sv.coll with graphs := [(15, sendGraph 0)] } }
     s.currentRun 15 = none ∧ s.runs.find? (fun r => r.k == 15) = some (someRun false) ∧
     (s.baseStatus 0 0x2000000000000000).1 = some 0 ∧ (s.graph 15).ops ≠ [] ∧ (s.graph 15).basesUsed = [0] ∧
     (∀ r ∈ s.runs, r.k = 15 → r.cpl = 0) ∧ (∀ r ∈ [someRun true], r.k = 15 → r.started = true)) ∧
    (let r := { someRun false with doom := some 3, cpl := 0x200 }
     let s := { scomm 2 with runs := [r] }
     s.currentRun 15 = none ∧ s.runs.find? (fun r => r.k == 15) = some r ∧ (s.sysKey r.ctx r.cpl true 4).1 = .at_ 0x10200 ∧
     (s.comm 15 + 64 ≤ 0x10200 ∨ 0x10200 + 4 ≤ s.comm 15)) ∧
    (let s := { scomm 3 with runs := [someRun true], coll := { sv.coll with graphs := [(15, sendGraph 0)], clears := [⟨15, 0, 0, 0⟩] } }
     s.nextRun = some (someRun true) ∧ s.eligibleOps (someRun true) = [0] ∧
     (s.chunkSpan (someRun true) false ((someRun true).dataVa ((s.graph 15).op 0) 0) 16).1 = .at_ [⟨2 ^ 50, 16, false⟩] ∧
     ∀ k < 16, s.inRun (some 0) (2 ^ 50 + k) = false) ∧
    (let b : Staging := ⟨0, 0, [], none, true⟩
     let r := { someRun true with buffers := [b] }
     let g : Graph := ⟨3, [⟨1, 0, 1, 0, 0, 8192, 0, 0, 0, 0, []⟩]⟩
     let s := { scomm 3 with runs := [r], coll := { sv.coll with graphs := [(15, g)] } }
     s.currentRun 15 = some r ∧ r.buffers.find? (fun b => b.op == 0 && b.chunk == 0 && b.whole) = some b ∧
     (let x := s.chunkSpan r true (r.dataVa ((s.graph 15).op 0) 0) 4096
      x.1 = .at_ [⟨2 ^ 50, 4096, false⟩] ∧ x.2.zeroing = s.zeroing) ∧ (s.runs.all fun x => x.sn == r.sn) = true ∧
     r.finished.get 0 0 + 1 < ((s.graph 15).op 0).chunks ∧ r.complete.length ≠ (s.graph 15).ops.length ∧
     s.piecePoisoned false ⟨2 ^ 50, 4096, false⟩ = false) := by
  refine ⟨by decide +kernel, by decide +kernel, by decide +kernel, by decide +kernel, by decide +kernel, by decide +kernel,
    by decide +kernel, by decide +kernel⟩

/-! ## Witnesses: the machine's step -/

/-- Inputs; a package without power, in test failure, in bring-up; one event due, chosen and forced; one gang that can issue; a gang
whose one group's packet is fetched and whose word is a NOP; a code base outside control space; a word that decodes, and one that does
not; a chain of an ADD and a NOP, and one with an illegal word. -/
theorem witness_StepsRunTheDecodedInstruction :
    ((∀ d : Bool, ({ ts with inputs := [.patrolScrub 0], care := { ts.care with dark := d } } : State).care.dark = d) ∧
     isReset .reset = true ∧ isReset (.patrolScrub 0) = false ∧ ts.inputs = [] ∧ ts.care.dark = false ∧ ts.care.failed = false ∧
     State.reset.care.done < 6) ∧
    (let s := { ts with gangs := [], spawns := [], sync := { ts.sync with returned := [5] } }
     let ds := s.dues
     s.inputs = [] ∧ s.care.dark = false ∧ s.care.failed = false ∧ 6 ≤ s.care.done ∧
     (match ds with | [.zeroSlot 0] => true | _ => false) = true ∧ s.candidates runWord = [] ∧ s.turns runWord [] = [] ∧
     (s.forced ds []).isNone = true ∧ (s.choose 1).1 = 0 ∧
     (match State.forced { s with clk := 4096 } ds [] with | some (.inl (.zeroSlot 0)) => true | _ => false) = true) ∧
    (let s := { sp tg with ctx := none }
     s.dues.isEmpty = true ∧ s.candidates runWord = [0] ∧ s.turns runWord [0] = [(0, false)] ∧
     (match State.forced { s with clk := 4097 } [] [(0, false)] with | some (.inr (0, false)) => true | _ => false) = true) ∧
    (let s := { sp tg with ctx := none }
     let s1 := { s.onThreads 0 (fun u => { u with park := false }) with cycle := s.cycle + 1 }
     let x : Group := ⟨0, 0, 1#64, true⟩
     let q : Packet := (0, 0, 0)
     s.gangs.find? 0 = some tg ∧ s.excluded 0 tg = false ∧ tg.groups = [x] ∧ (∃ q, s.spawnOf 0 = some q ∧ q.stopped = false) ∧
     s1.gangs.find? 0 = some tg ∧ (s1.fetch 0 tg x.lanes x.pc).1 = .words q q ∧ tg.packets.find? 0 = none ∧
     chainWords [0, 0, 0] x.pos = [(x.pos, 0)] ∧ gatedWord 0 = false ∧ s1.rewritten = [] ∧
     (x.subs && ((laneList x.lanes).any fun l =>
       (tg.thread l).issued.isNone && (((tg.thread l).wait.isNone && x.pos == 0) || !(tg.thread l).lbuf.contains x.pc))) = true ∧
     (let s3 := (s1.fetch 0 tg x.lanes x.pc).2.onGang 0 fun G => G.deliver x.pc q
      (match exec (instrOf 0) { s3 with ctx := some (s3.groupCtx 0 ((s3.gangs.find? 0).getD tg) x 1) } with
       | .next _ => true
       | _ => false) = true)) ∧
    (let p := newSpawn 1 { soloRecord with code := 0x2000000000000000 } 0 0 0 none none 1 []
     (({ ts with spawns := [(0, p)] } : State).codeBase 0).toNat / 2 ^ 61 ≠ 0) ∧
    (let c := { tc with chained := true }
     let ws : List (Nat × Word) := [(0, 0x01186280), (1, 0)]
     axeOf ws = none ∧ ws.any (fun e => gatedWord e.2) = false ∧
     (match runWords runWord c ws { ts with ctx := some c } with
      | .next s1 => s1.ctx.any fun c1 => c1.cause.isNone && c1.blocked == 0 && s1.overfull 0 1 == 0
      | _ => false) = true ∧
     (match runWords runWord c [(0, 0x01186280), (1, 0xFFF)] { ts with ctx := some c } with
      | .next s1 => s1.ctx.any fun c1 => c1.cause.isSome
      | _ => false) = true) ∧
    ((∃ i, decode 0 = .ok i) ∧ ∀ i, decode 0x00000FFF ≠ .ok i) := by
  refine ⟨⟨fun _ => rfl, by decide, by decide, rfl, rfl, rfl, by decide⟩, by decide +kernel, by decide +kernel,
    ⟨by decide, by decide, rfl, ⟨_, rfl, rfl⟩, by decide, by decide +kernel, by decide, by decide, by decide, by decide,
      by decide, by decide +kernel⟩, by decide, ⟨by decide, by decide, by decide +kernel, by decide +kernel⟩, ⟨_, rfl⟩, fun i h => ?_⟩
  cases h

/-- ADD of v6, v6, v10 is well formed, has the word 0x01186280, and that word decodes. -/
theorem witness_WellFormedInstructionsDecodeFromTheirWord :
    (Instr.add ⟨0, 0, 6, 6, 10, 0⟩).wellFormed = true ∧ encode (.add ⟨0, 0, 6, 6, 10, 0⟩) = some 0x01186280 ∧
    decode 0x01186280 = .ok (.add ⟨0, 0, 6, 6, 10, 0⟩) := ⟨rfl, rfl, rfl⟩

/-- Both outcomes of a step of bring-up are next states. -/
theorem bringUp_next (b : Bool) (s : State) : ∃ t, Machine.execBringUp b s = .next t := by
  exact ⟨_, rfl⟩

/-- The state right after reset is sound, and it steps: bring-up begins. -/
theorem witness_EveryStepKeepsTheStateSound : Sound State.reset ∧ ∃ t, step State.reset = .next t := by
  refine ⟨⟨by decide, by decide⟩, ?_⟩
  have h : ∃ b s', State.reset.stepOnce = exec (.bringUp b) s' := ⟨_, _, rfl⟩
  obtain ⟨b, s', e⟩ := h
  obtain ⟨t, ht⟩ := bringUp_next b s'
  exact ⟨t.finish, by unfold step; rw [e, show exec (.bringUp b) s' = .next t from ht]; rfl⟩

end Sys2Proof.Tests
end

section
/-! SUPPORT. The statements' own relations: what may be put in place of their parts. -/

namespace Sys2Proof

open Sys2Proof.Machine

variable {s : State} {c : IssueCtx} {G : Gang}

theorem Completed.mono {t : State} {writes : List Nat} {pend : List Pending} {causes : Nat → List Nat}
    {lane lane' : Nat → Thread → Thread → Prop} (h : Completed s t c G writes pend causes lane)
    (hl : ∀ l, inLanes c.lanes l = true → ∀ new, lane l (G.thread l) new → lane' l (G.thread l) new) :
    Completed s t c G writes pend causes lane' :=
  ⟨h.state, h.others, h.gang, h.outside, fun l hi => hl l hi _ (h.inside l hi)⟩

theorem WritesWord.of_eq {fields : List Nat} {d : Nat} {push push' : Nat → Option Word} {result result' : Nat → Word}
    {causes causes' : Nat → List Nat} {t : State} (h : WritesWord s t c G fields d push result causes)
    (hp : ∀ l, push l = push' l) (hr : ∀ l, result l = result' l) (hc : ∀ l, causes l = causes' l) :
    WritesWord s t c G fields d push' result' causes' := by
  rwa [funext hp, funext hr, funext hc] at h

theorem WritesPair.of_eq {fields : List Nat} {d : Nat} {push push' : Nat → Option Word} {result result' : Nat → DWord}
    {causes causes' : Nat → List Nat} {t : State} (h : WritesPair s t c G fields d push result causes)
    (hp : ∀ l, push l = push' l) (hr : ∀ l, result l = result' l) (hc : ∀ l, causes l = causes' l) :
    WritesPair s t c G fields d push' result' causes' := by
  rwa [funext hp, funext hr, funext hc] at h

theorem Ready.for_word {w : WordSpec} {fields reads writes : List Nat} (H : Ready s c G fields reads writes)
    (hf : w.shape.fields w.fa w.fb = fields) (hr : w.reads = reads) (hw : w.writes = writes) :
    Ready s c G (w.shape.fields w.fa w.fb) w.reads w.writes := by rwa [hf, hr, hw]

end Sys2Proof
end

section
/-! SUPPORT. The laws of register words that do something to their lanes beside their result: a jump taken, a handler left,
a constraint recorded. -/

namespace Sys2Proof.Machine

open Sys2Proof

variable {s : State} {c : IssueCtx} {G : Gang}

/-! ## Words with another effect -/

/-- Beside what every register word does to a lane's thread, the word makes `base` of it; it may keep a region's records
too. -/
structure WordSpec.Makes (w : WordSpec) (c : IssueCtx) (G : Gang) (l : Nat) (base : Thread) : Prop where
  post : ∀ qs wt rg regs, ∃ rg' : Option Region, rg'.isSome = rg.isSome ∧
    w.post l ((viewOf c G).thread l) (w.read c G l)
        { G.thread l with queues := qs, wait := wt, region := rg, regs := regs } =
      { base with queues := qs, wait := wt, region := rg', regs := regs }
  queues : base.queues = (G.thread l).queues
  wait : base.wait = (G.thread l).wait
  region : base.region = (G.thread l).region
  going : base.exiting = false ∧ base.swTrap = none

theorem WordSpec.regsAfter_congr (w : WordSpec) {t u : Thread} (h : t.regs = u.regs) (r : DWord) :
    w.regsAfter t r = w.regsAfter u r := by
  unfold WordSpec.regsAfter
  split
  · exact h
  · exact Thread.writeDest_congr h _ _ _

/-- A lane's thread after the word, before it goes on. -/
theorem WordSpec.Makes.laneStep_eq {w : WordSpec} {l : Nat} {base : Thread} (M : w.Makes c G l base) (rest : Nat) :
    ∃ rg : Option Region, rg.isSome = base.region.isSome ∧
      w.laneStep rest l ((viewOf c G).thread l) ((G.thread l).fedFor (w.shape.fields w.fa w.fb)) =
        { base with
          queues := popped (w.shape.fields w.fa w.fb) base.queues
          wait := waitAfter (w.shape.fields w.fa w.fb) base.wait
          region := rg
          regs := w.regsAfter (G.thread l) (w.result c G l).val
          latch := latchAfter rest (w.push (w.read c G l) (w.result c G l).val) base.latch } := by
  set view := (viewOf c G).thread l
  set cur := (G.thread l).fedFor (w.shape.fields w.fa w.fb) with hcur
  have hread : (w.shape.readLane w.fd w.fa w.fb view cur).1 = w.read c G l := vals_fed w _ view _
  have hcur1 : (w.shape.readLane w.fd w.fa w.fb view cur).2 =
      { G.thread l with
        queues := popped (w.shape.fields w.fa w.fb) base.queues
        wait := waitAfter (w.shape.fields w.fa w.fb) base.wait } := by
    rw [readLane_onward, readLane_queues, hcur, Thread.fedFor_queues, Thread.fedFor_eq, M.queues, M.wait]
  obtain ⟨rg, hrg, hmid⟩ := w.laneMid (w.shape.readLane w.fd w.fa w.fb view cur).2 (w.result c G l).val
    (fun r => (r.note (w.sym view (w.read c G l))).pin (w.pushed view (w.read c G l)))
    (w.sym view (w.read c G l)).mark
  have hregs : w.regsAfter (w.shape.readLane w.fd w.fa w.fb view cur).2 (w.result c G l).val =
      w.regsAfter (G.thread l) (w.result c G l).val :=
    w.regsAfter_congr (by rw [hcur1]) _
  obtain ⟨rg', hrg', hpost⟩ := M.post (popped (w.shape.fields w.fa w.fb) base.queues)
    (waitAfter (w.shape.fields w.fa w.fb) base.wait) rg (w.regsAfter (G.thread l) (w.result c G l).val)
  rw [hregs, hcur1] at hmid
  rw [hcur1] at hrg
  refine ⟨rg', by rw [hrg', hrg, M.region], ?_⟩
  have hstep : w.laneStep rest l view cur =
      (w.post l view (w.read c G l)
        { G.thread l with
          queues := popped (w.shape.fields w.fa w.fb) base.queues
          wait := waitAfter (w.shape.fields w.fa w.fb) base.wait
          region := rg
          regs := w.regsAfter (G.thread l) (w.result c G l).val }).latchStep w.shape w.h rest (w.read c G l)
        (w.result c G l).val := by
    rw [← hmid]; unfold WordSpec.laneStep; simp only [hread, hcur1]; rfl
  rw [hstep, hpost, Thread.latchStep_onward, Thread.latchStep_latch]

/-- Where a thread of these fields stands once it has left its word. -/
theorem Thread.left_onward_of {fields : List Nat} {push : Option Word} {base t : Thread} {rg : Option Region}
    {regs : SMap Word} (hrg : rg.isSome = base.region.isSome)
    (ht : t = { base with
      queues := popped fields base.queues, wait := waitAfter fields base.wait, region := rg, regs := regs
      latch := latchAfter c.rest push base.latch }) (sn : Nat) (park waits : Bool) :
    Onward c fields push base.jump base (t.left c sn park waits) ∧ (t.left c sn park waits).regs = regs := by
  have hregs : (t.left c sn park waits).regs = regs := by rw [Thread.left_regs, ht]
  obtain ⟨hpc, hpos, hjump⟩ := Thread.left_stands t c sn park waits
  have hst : standing c t.jump t = standing c base.jump base := by rw [ht]; rfl
  have hon := Thread.left_onward t c sn park waits
  rw [hpc, hpos, hjump, hst] at hon
  refine ⟨⟨?_, by rw [Thread.left_region, ht, hrg]⟩, hregs⟩
  rw [hregs]
  refine hon.trans ?_
  rw [← hregs, Thread.left_regs, ht]

/-- The law of register words that make something of their lanes' threads. -/
theorem State.run_makes {w : WordSpec} {base : Nat → Thread}
    (H : Ready s c G (w.shape.fields w.fa w.fb) w.reads w.writes) (S : Stays c G w) (ha : w.fa < 64) (hb : w.fb < 64)
    (hgang : ∀ G, w.gang G = G) (hops : ∀ l t v, w.ops l t v = [])
    (M : ∀ l, inLanes c.lanes l = true → w.Makes c G l (base l)) :
    ∃ t, s.run w = .next t ∧
      Completed s t c G (if w.shape.classL then [] else w.writes) (w.outstanding c G s.sn)
        (fun l => (w.result c G l).causes) fun l old new =>
          Onward c (w.shape.fields w.fa w.fb) (w.push (w.read c G l) (w.result c G l).val) (base l).jump (base l) new ∧
          new.regs = w.regsAfter old (w.result c G l).val := by
  obtain ⟨t, hrun, hstate, hothers, hG', houtside, hinside⟩ :=
    State.run_completed H.issuing H.readable ha hb H.fed S hgang hops fun l hl => by
      obtain ⟨rg, -, hstep⟩ := (M l hl).laneStep_eq c.rest
      rw [hstep]; exact (M l hl).going
  refine ⟨t, hrun, hstate, hothers, hG', houtside, fun l hl => ?_⟩
  obtain ⟨sn, waits, hnew⟩ := hinside l hl
  obtain ⟨rg, hrg, hstep⟩ := (M l hl).laneStep_eq c.rest
  rw [hnew]
  exact Thread.left_onward_of hrg hstep sn _ waits

/-! ## Words that record a constraint (R219) -/

/-- A list of constraints with one more, if there is one and it is not recorded yet. -/
def withConstraint (cs : List (Relation × Bool)) : Option (Relation × Bool) → List (Relation × Bool)
  | none => cs
  | some x => if cs.contains x then cs else cs ++ [x]

/-- A region with a constraint recorded. -/
def Region.record (r : Region) (x : Option (Relation × Bool)) : Region :=
  { r with constraints := withConstraint r.constraints x }

theorem Region.note_eq (r : Region) (y : Sym) : r.note y = (r.pin y.pins).record y.con := by
  unfold Region.note
  split <;> rename_i h <;> simp only [Region.record, withConstraint, h]
  split <;> rfl

/-- The word with its constraint recorded as the other effect that it has in a lane. -/
def WordSpec.recording (w : WordSpec) : WordSpec :=
  { w with
    y := some fun t v => { w.sym t v with con := none }
    post := fun l view v t => w.post l view v (t.onRegion (·.record (w.sym view v).con)) }

theorem Thread.onRegion_onRegion (t : Thread) (f g : Region → Region) :
    (t.onRegion f).onRegion g = t.onRegion fun r => g (f r) := by
  simp only [Thread.onRegion, Option.map_map, Function.comp_def]

theorem Thread.setReg_onRegion (t : Thread) (f : Region → Region) (r : Nat) (v : Word) :
    (t.onRegion f).setReg r v = (t.setReg r v).onRegion f := by
  unfold Thread.setReg; split <;> rfl

theorem Thread.writeDest_onRegion (t : Thread) (f : Region → Region) (u : Use) (e : Nat) (v : DWord) :
    (t.onRegion f).writeDest u e v = (t.writeDest u e v).onRegion f := by
  unfold Thread.writeDest
  split
  · rfl
  · exact t.setReg_onRegion f _ _
  · split
    · rfl
    · rw [Thread.setReg_onRegion, Thread.setReg_onRegion]

theorem Thread.setMark_record (t : Thread) (x : Option (Relation × Bool)) (u : Use) (e : Nat) (m : Option Mark) :
    (t.onRegion (·.record x)).setMark u e m = (t.setMark u e m).onRegion (·.record x) := by
  unfold Thread.setMark
  split
  · rfl
  · split
    · rfl
    · rw [Thread.onRegion_onRegion, Thread.onRegion_onRegion]; rfl

/-- A lane's thread with its result written and the mark that the result carries. -/
def WordSpec.deliver (w : WordSpec) (t : Thread) (r : DWord) (m : Option Mark) : Thread :=
  if w.shape.classL then t else ((t.unmark w.writes).writeDest w.shape.dst w.fd r).setMark w.shape.dst w.fd m

theorem WordSpec.deliver_record (w : WordSpec) (t : Thread) (x : Option (Relation × Bool)) (r : DWord) (m : Option Mark) :
    w.deliver (t.onRegion (·.record x)) r m = (w.deliver t r m).onRegion (·.record x) := by
  unfold WordSpec.deliver
  split
  · rfl
  · rw [← Thread.setMark_record, ← Thread.writeDest_onRegion]
    simp only [Thread.unmark, Thread.onRegion_onRegion]; rfl

/-- A lane's step, by its parts. -/
theorem WordSpec.laneStep_eq (w : WordSpec) (rest l : Nat) (view cur : Thread) :
    w.laneStep rest l view cur =
      let v := w.vals view cur
      let t := (w.shape.readLane w.fd w.fa w.fb view cur).2.onRegion fun r =>
        (r.note (w.sym view v)).pin (w.pushed view v)
      (w.post l view v (w.deliver t (w.f l view v).val (w.sym view v).mark)).latchStep w.shape w.h rest v
        (w.f l view v).val := rfl

/-- It makes no difference to a lane when in its step its constraint is recorded. -/
theorem WordSpec.laneStep_recording (w : WordSpec) (rest l : Nat) (view cur : Thread) :
    w.recording.laneStep rest l view cur = w.laneStep rest l view cur := by
  have hnote : ∀ (t : Thread) (y : Sym) (ls : List Nat), (t.onRegion fun r => (r.note y).pin ls) =
      (t.onRegion fun r => (r.note { y with con := none }).pin ls).onRegion (·.record y.con) := by
    intro t y ls
    rw [Thread.onRegion_onRegion]
    simp only [Region.note_eq]; rfl
  rw [w.laneStep_eq]
  simp only [hnote _ (w.sym _ _), WordSpec.deliver_record]
  rfl

/-- No lane of the word leaves it by an abort of its region. -/
def AllGoOn (s : State) (c : IssueCtx) (G : Gang) (w : WordSpec) : Prop := (s.regionOut c (viewOf c G) w).1 = 0#64

/-- A word whose lanes all go on is the word that records its constraint as its other effect. -/
theorem State.run_recording {w : WordSpec} (hc : s.ctx = some c) (hG : s.gangs.find? c.gang = some G)
    (h1 : AllGoOn s c G w) (h2 : AllGoOn s c G w.recording) : s.run w = s.run w.recording := by
  have heff : ∀ (a : State) (x : IssueCtx) (view : Gang), a.regEffect x view w.recording = a.regEffect x view w := by
    intro a x view
    unfold State.regEffect
    simp only [WordSpec.laneStep_recording]; rfl
  unfold AllGoOn at h1 h2
  unfold State.run State.word
  simp only [hc, hG, show c.pre.getD G = viewOf c G from rfl, h1, h2, State.screenLanes, if_true, heff]
  rfl

/-- A count that each step raises by one at most stays within its bound, and what happens only beyond it does not happen. -/
theorem foldl_within (step : Nat × DWord → Nat → Nat × DWord) (n : Nat) (ls : List Nat) (acc : Nat × DWord)
    (h : ∀ a, ∀ l ∈ ls, a.1 < n → (step a l).1 ≤ a.1 + 1 ∧ (step a l).2 = a.2) (hn : acc.1 + ls.length ≤ n) :
    (ls.foldl step acc).2 = acc.2 := by
  induction ls generalizing acc with
  | nil => rfl
  | cons x t ih =>
    rw [List.length_cons] at hn
    obtain ⟨h1, h2⟩ := h acc x (by simp) (by omega)
    rw [List.foldl_cons, ih _ (fun a l hl => h a l (by simp [hl])) (by omega), h2]

/-- Where there is room for one constraint more in each lane, none exceeds a bound (R213). -/
theorem overConstraints_roomy (hG : s.gangs.find? c.gang = some G)
    (h8 : ∀ l, inLanes c.lanes l = true → ∀ r, (G.thread l).region = some r → r.constraints.length < 8)
    (h256 : ((List.range 64).map fun l =>
      match (G.thread l).region with | some r => r.constraints.length | none => 0).sum + (laneList c.lanes).length ≤ 256)
    (y : Nat → Option (Relation × Bool)) : s.overConstraints c y = 0#64 := by
  have hall : laneList 0xFFFFFFFFFFFFFFFF#64 = List.range 64 := by decide
  unfold State.overConstraints
  simp only [State.thread_eq hG, hall]
  refine foldl_within _ 256 _ _ (fun a l hl ha => ?_) ?_
  · split
    · rename_i r x hr hx
      have hlt := h8 l (mem_laneList.1 hl) r hr
      split
      · exact ⟨by omega, rfl⟩
      · rw [if_neg (by omega)]; exact ⟨Nat.le_refl _, rfl⟩
    · exact ⟨by omega, rfl⟩
  · rw [← List.sum_eq_foldl]; exact h256

theorem allGoOn_of_stays {w : WordSpec} (hG : s.gangs.find? c.gang = some G) (S : Stays c G w) : AllGoOn s c G w :=
  regionOut_zero hG S

theorem allGoOn_of_roomy {w : WordSpec} (hG : s.gangs.find? c.gang = some G)
    (P : Permitted c G (w.shape.fields w.fa w.fb)) (hd : w.deny = 0) (R : Roomy c G) : AllGoOn s c G w := by
  have hout : Outside c G → AllGoOn s c G w := fun h => allGoOn_of_stays hG (.inl h)
  rcases R with h | ⟨h8, h256⟩
  · exact hout h
  rcases stays_of (w := w.recording) P hd (.inr fun _ _ => rfl) with h | ⟨-, hpops, -⟩
  · exact hout h
  have hpops : w.shape.popsAny w.fa w.fb = false := hpops
  unfold AllGoOn State.regionOut
  simp only [hd, hpops, Bool.false_eq_true, if_false, ne_eq, not_true_eq_false]
  split
  · rfl
  · exact overConstraints_roomy hG h8 h256 _

theorem WordSpec.Makes.recording {w : WordSpec} {l : Nat} {base : Thread} (M : w.Makes c G l base) :
    w.recording.Makes c G l base where
  post qs wt rg regs := by
    obtain ⟨rg', hrg', h⟩ := M.post qs wt (rg.map (·.record (w.sym ((viewOf c G).thread l) (w.read c G l)).con)) regs
    exact ⟨rg', by rw [hrg', Option.isSome_map], h⟩
  queues := M.queues
  wait := M.wait
  region := M.region
  going := M.going

/-- The law of register words that may record a constraint, where there is room for it. -/
theorem State.run_makes_roomy {w : WordSpec} {base : Nat → Thread}
    (H : Ready s c G (w.shape.fields w.fa w.fb) w.reads w.writes) (R : Roomy c G) (hd : w.deny = 0)
    (ha : w.fa < 64) (hb : w.fb < 64) (hgang : ∀ G, w.gang G = G) (hops : ∀ l t v, w.ops l t v = [])
    (M : ∀ l, inLanes c.lanes l = true → w.Makes c G l (base l)) :
    ∃ t, s.run w = .next t ∧
      Completed s t c G (if w.shape.classL then [] else w.writes) (w.outstanding c G s.sn)
        (fun l => (w.result c G l).causes) fun l old new =>
          Onward c (w.shape.fields w.fa w.fb) (w.push (w.read c G l) (w.result c G l).val) (base l).jump (base l) new ∧
          new.regs = w.regsAfter old (w.result c G l).val := by
  have S : Stays c G w.recording := stays_of (w := w.recording) H.permitted hd (.inr fun _ _ => rfl)
  rw [State.run_recording H.issuing.ctx H.issuing.gang (allGoOn_of_roomy H.issuing.gang H.permitted hd R)
    (allGoOn_of_stays H.issuing.gang S)]
  exact State.run_makes (w := w.recording) H S ha hb hgang hops fun l hl => (M l hl).recording

/-! ## Class-F words that act on their lanes alone -/

/-- A class-F word that acts on its lanes alone: no effect on the gang, its masks or other results, and it may issue in a
region. -/
structure WordSpec.InLanes (w : WordSpec) : Prop where
  deny : w.deny = 0
  gang : ∀ G, w.gang G = G
  ops : ∀ l t v, w.ops l t v = []
  late : w.shape.classL = false
  fa : w.fa < 64
  fb : w.fb < 64

/-- The law of words that act on their lanes alone: they record no constraint, or there is room for it. -/
theorem WordSpec.InLanes.run {w : WordSpec} {base : Nat → Thread} (W : w.InLanes)
    (hcon : Roomy c G ∨ ∀ t v, (w.sym t v).con = none)
    (H : Ready s c G (w.shape.fields w.fa w.fb) w.reads w.writes)
    (M : ∀ l, inLanes c.lanes l = true → w.Makes c G l (base l)) :
    ∃ t, s.run w = .next t ∧ Completed s t c G w.writes [] (fun l => (w.result c G l).causes) fun l old new =>
      Onward c (w.shape.fields w.fa w.fb) (w.push (w.read c G l) (w.result c G l).val) (base l).jump (base l) new ∧
      new.regs = w.regsAfter old (w.result c G l).val := by
  have hrun := fun R => State.run_makes_roomy H R W.deny W.fa W.fb W.gang W.ops M
  have hrun' := fun S => State.run_makes H S W.fa W.fb W.gang W.ops M
  rw [WordSpec.outstanding_nil W.late, W.late] at hrun hrun'
  rcases hcon with R | hcon
  · exact hrun R
  · exact hrun' (stays_of H.permitted W.deny (.inr hcon))

end Sys2Proof.Machine
end

section
/-! SUPPORT. The laws of register words in the terms of claims: what a word of each form writes and pushes. -/

namespace Sys2Proof.Machine

open Sys2Proof

variable {s : State} {c : IssueCtx} {G : Gang}

/-! ## Words with a result and no other effect -/

/-- A class-F word that writes its result in its lanes and has no other effect. -/
structure WordSpec.Plain (w : WordSpec) : Prop extends w.InLanes where
  post : ∀ l t v u, w.post l t v u = u

/-- What a word with an H field pushes: a source that it reads, or its result (R16). -/
theorem WordSpec.push_of_latch {w : WordSpec} {h : BitVec 2} (hl : w.shape.latch = true) (hh : w.h = h.toNat)
    (hL : w.shape.classL = false) (v : Vals) (r : DWord) :
    w.push v r = pushOf h (if w.shape.a = .unused then 0 else v.a32) (if w.shape.b = .unused then 0 else v.b32)
      (if w.shape.dst = .unused then 0 else loOf r) := by
  have h4 : h = 0#2 ∨ h = 1#2 ∨ h = 2#2 ∨ h = 3#2 := by clear hh; revert h; decide
  unfold WordSpec.push pushOf Shape.pushValue
  rcases h4 with rfl | rfl | rfl | rfl <;> simp [hl, hh, hL]

theorem WordSpec.push_of_no_latch {w : WordSpec} (hl : w.shape.latch = false) (v : Vals) (r : DWord) : w.push v r = none := by
  unfold WordSpec.push; simp [hl]

theorem WordSpec.makes_self {w : WordSpec} (I : Issuing s c G) (hpost : ∀ l t v u, w.post l t v u = u) (l : Nat)
    (hl : inLanes c.lanes l = true) : w.Makes c G l (G.thread l) :=
  ⟨fun _ _ rg _ => ⟨rg, rfl, hpost _ _ _ _⟩, rfl, rfl, rfl, I.going l hl⟩

/-- The law of plain words with a single-register result. -/
theorem WordSpec.Plain.writes_word {w : WordSpec} (P : w.Plain) (hd : w.shape.dst = .reg)
    (hcon : Roomy c G ∨ ∀ t v, (w.sym t v).con = none)
    (H : Ready s c G (w.shape.fields w.fa w.fb) w.reads w.writes) :
    ∃ t, s.run w = .next t ∧
      WritesWord s t c G (w.shape.fields w.fa w.fb) w.fd (fun l => w.push (w.read c G l) (w.result c G l).val)
        (fun l => loOf (w.result c G l).val) (fun l => (w.result c G l).causes) := by
  obtain ⟨t, hrun, hC⟩ := P.run hcon H (WordSpec.makes_self H.issuing P.post)
  have hw : w.writes = Use.regs .reg w.fd := by unfold WordSpec.writes; rw [hd]
  rw [hw] at hC
  exact ⟨t, hrun, hC.mono fun l _ new ⟨hon, hregs⟩ => ⟨hon, regsAfter_reg P.late hd hregs⟩⟩

/-- The law of plain words with a pair result. -/
theorem WordSpec.Plain.writes_pair {w : WordSpec} (P : w.Plain) (hd : w.shape.dst = .pair)
    (hcon : Roomy c G ∨ ∀ t v, (w.sym t v).con = none)
    (H : Ready s c G (w.shape.fields w.fa w.fb) w.reads w.writes) :
    ∃ t, s.run w = .next t ∧
      WritesPair s t c G (w.shape.fields w.fa w.fb) w.fd (fun l => w.push (w.read c G l) (w.result c G l).val)
        (fun l => (w.result c G l).val) (fun l => (w.result c G l).causes) := by
  obtain ⟨t, hrun, hC⟩ := P.run hcon H (WordSpec.makes_self H.issuing P.post)
  have hw : w.writes = Use.regs .pair w.fd := by unfold WordSpec.writes; rw [hd]
  rw [hw] at hC
  exact ⟨t, hrun, hC.mono fun l _ new ⟨hon, hregs⟩ => ⟨hon, regsAfter_pair P.late hd hregs⟩⟩

/-- A plain word with an H field and no causes, in the terms of claims. -/
theorem WordSpec.Plain.writes_latched {w : WordSpec} {h : BitVec 2} {A B r : Nat → Word} (P : w.Plain)
    (hd : w.shape.dst = .reg) (hl : w.shape.latch = true) (hh : w.h = h.toNat)
    (hcon : Roomy c G ∨ ∀ t v, (w.sym t v).con = none)
    (H : Ready s c G (w.shape.fields w.fa w.fb) w.reads w.writes)
    (hA : ∀ l, (if w.shape.a = .unused then 0 else (w.read c G l).a32) = A l)
    (hB : ∀ l, (if w.shape.b = .unused then 0 else (w.read c G l).b32) = B l)
    (hr : ∀ l, w.result c G l = ⟨(r l).setWidth 64, []⟩) :
    ∃ t, s.run w = .next t ∧
      WritesWord s t c G (w.shape.fields w.fa w.fb) w.fd (fun l => pushOf h (A l) (B l) (r l)) r noCauses := by
  obtain ⟨t, hrun, hw⟩ := P.writes_word hd hcon H
  refine ⟨t, hrun, WritesWord.of_eq hw (fun l => ?_) (fun l => ?_) fun l => ?_⟩
  · rw [WordSpec.push_of_latch hl hh P.late, hA, hB, hr, loOf_setWidth, hd]; rfl
  · rw [hr, loOf_setWidth]
  · rw [hr]; rfl

/-- A plain word with an H field, a pair result and no causes, in the terms of claims. -/
theorem WordSpec.Plain.writes_pair_latched {w : WordSpec} {h : BitVec 2} {A B : Nat → Word} {r : Nat → DWord}
    (P : w.Plain) (hd : w.shape.dst = .pair) (hl : w.shape.latch = true) (hh : w.h = h.toNat)
    (hcon : ∀ t v, (w.sym t v).con = none)
    (H : Ready s c G (w.shape.fields w.fa w.fb) w.reads w.writes)
    (hA : ∀ l, (if w.shape.a = .unused then 0 else (w.read c G l).a32) = A l)
    (hB : ∀ l, (if w.shape.b = .unused then 0 else (w.read c G l).b32) = B l)
    (hr : ∀ l, w.result c G l = ⟨r l, []⟩) :
    ∃ t, s.run w = .next t ∧
      WritesPair s t c G (w.shape.fields w.fa w.fb) w.fd (fun l => pushOf h (A l) (B l) (loOf (r l))) r noCauses := by
  obtain ⟨t, hrun, hw⟩ := P.writes_pair hd (.inr hcon) H
  refine ⟨t, hrun, WritesPair.of_eq hw (fun l => ?_) (fun l => ?_) fun l => ?_⟩
  · rw [WordSpec.push_of_latch hl hh P.late, hA, hB, hr, hd]; rfl
  · rw [hr]
  · rw [hr]; rfl

/-- A plain word without an H field and without causes, in the terms of claims. -/
theorem WordSpec.Plain.writes_unlatched {w : WordSpec} {r : Nat → Word} (P : w.Plain) (hd : w.shape.dst = .reg)
    (hl : w.shape.latch = false) (hcon : ∀ t v, (w.sym t v).con = none)
    (H : Ready s c G (w.shape.fields w.fa w.fb) w.reads w.writes)
    (hr : ∀ l, w.result c G l = ⟨(r l).setWidth 64, []⟩) :
    ∃ t, s.run w = .next t ∧ WritesWord s t c G (w.shape.fields w.fa w.fb) w.fd (fun _ => none) r noCauses := by
  obtain ⟨t, hrun, hw⟩ := P.writes_word hd (.inr hcon) H
  refine ⟨t, hrun, WritesWord.of_eq hw (fun l => ?_) (fun l => ?_) fun l => ?_⟩
  · rw [WordSpec.push_of_no_latch hl]
  · rw [hr, loOf_setWidth]
  · rw [hr]; rfl

/-! ## The forms of the integer words -/

/-- The word with other region bookkeeping. -/
def WordSpec.noting (w : WordSpec) (y : Option (Thread → Vals → Sym)) : WordSpec := { w with y := y }

theorem Shape.reads_ab {sh : Shape} (hd : sh.d = .unused) (fd fa fb : Nat) :
    sh.reads fd fa fb = sh.a.regs fa ++ sh.b.regs fb := by
  unfold Shape.reads; rw [hd, Use.regs_unused, List.nil_append]

theorem Shape.reads_a {sh : Shape} (hd : sh.d = .unused) (hb : sh.b = .unused) (fd fa fb : Nat) :
    sh.reads fd fa fb = sh.a.regs fa := by
  rw [Shape.reads_ab hd, hb, Use.regs_unused, List.append_nil]

/-- A word of two single-register sources. -/
theorem bin32_writes {f : FmtA} {g : Word → Word → Word} {y : Option (Thread → Vals → Sym)}
    (hcon : ∀ t v, (((bin32 f g).noting y).sym t v).con = none)
    (H : Ready s c G [f.a.toNat, f.b.toNat] (Use.regs .reg f.a.toNat ++ Use.regs .reg f.b.toNat) (Use.regs .reg f.d.toNat)) :
    let A := fun l => operand c G l [] f.a.toNat
    let B := fun l => operand c G l [f.a.toNat] f.b.toNat
    let r := fun l => g (A l) (B l)
    ∃ t, s.run ((bin32 f g).noting y) = .next t ∧
      WritesWord s t c G [f.a.toNat, f.b.toNat] f.d.toNat (fun l => pushOf f.h (A l) (B l) (r l)) r noCauses := by
  intro A B r
  set w := (bin32 f g).noting y
  have P : w.Plain := ⟨⟨rfl, fun _ => rfl, fun _ _ _ => rfl, rfl, f.a.isLt, f.b.isLt⟩, fun _ _ _ _ => rfl⟩
  have hA : ∀ l, (w.read c G l).a32 = A l := fun l => vals_a w l rfl
  have hB : ∀ l, (w.read c G l).b32 = B l := fun l => vals_b w l rfl f.a.isLt
  exact P.writes_latched rfl rfl rfl (.inr hcon) (H.for_word rfl (Shape.reads_ab rfl _ _ _) rfl) hA hB fun l => by
    simp only [r, ← hA, ← hB]; rfl

/-- A word of one single-register source. -/
theorem un32_writes {f : FmtA} {g : Word → Word}
    (H : Ready s c G [f.a.toNat] (Use.regs .reg f.a.toNat) (Use.regs .reg f.d.toNat)) :
    let A := fun l => operand c G l [] f.a.toNat
    let r := fun l => g (A l)
    ∃ t, s.run (un32 f g) = .next t ∧
      WritesWord s t c G [f.a.toNat] f.d.toNat (fun l => pushOf f.h (A l) 0 (r l)) r noCauses := by
  intro A r
  set w := un32 f g
  have P : w.Plain := ⟨⟨rfl, fun _ => rfl, fun _ _ _ => rfl, rfl, f.a.isLt, Nat.succ_pos 63⟩, fun _ _ _ _ => rfl⟩
  have hA : ∀ l, (w.read c G l).a32 = A l := fun l => vals_a w l rfl
  exact P.writes_latched rfl rfl rfl (.inr fun _ _ => rfl) (H.for_word rfl (Shape.reads_a rfl rfl _ _ _) rfl) hA
    (fun _ => rfl) fun l => by simp only [r, ← hA]; rfl

/-- A word of two single-register sources that reads D as a third; where it may record a constraint, there is room for it. -/
theorem tern32_writes {f : FmtA} {g : Word → Word → Word → Word} {y : Option (Thread → Vals → Sym)}
    (hcon : Roomy c G ∨ ∀ t v, (((tern32 f g).noting y).sym t v).con = none)
    (H : Ready s c G [f.a.toNat, f.b.toNat]
      (Use.regs .reg f.d.toNat ++ Use.regs .reg f.a.toNat ++ Use.regs .reg f.b.toNat) (Use.regs .reg f.d.toNat)) :
    let A := fun l => operand c G l [] f.a.toNat
    let B := fun l => operand c G l [f.a.toNat] f.b.toNat
    let r := fun l => g (operandD c G l f.d.toNat) (A l) (B l)
    ∃ t, s.run ((tern32 f g).noting y) = .next t ∧
      WritesWord s t c G [f.a.toNat, f.b.toNat] f.d.toNat (fun l => pushOf f.h (A l) (B l) (r l)) r noCauses := by
  intro A B r
  set w := (tern32 f g).noting y
  have P : w.Plain := ⟨⟨rfl, fun _ => rfl, fun _ _ _ => rfl, rfl, f.a.isLt, f.b.isLt⟩, fun _ _ _ _ => rfl⟩
  have hA : ∀ l, (w.read c G l).a32 = A l := fun l => vals_a w l rfl
  have hB : ∀ l, (w.read c G l).b32 = B l := fun l => vals_b w l rfl f.a.isLt
  have hD : ∀ l, (w.read c G l).d32 = operandD c G l f.d.toNat := fun l => vals_d w l rfl
  exact P.writes_latched rfl rfl rfl hcon (H.for_word rfl rfl rfl) hA hB fun l => by
    simp only [r, ← hA, ← hB, ← hD]; rfl

/-- A word of two pairs. -/
theorem bin64_writes {f : FmtA} {g : DWord → DWord → DWord} {y : Option (Thread → Vals → Sym)}
    (hcon : ∀ t v, (((bin64 f g).noting y).sym t v).con = none)
    (H : Ready s c G [] (Use.regs .pair f.a.toNat ++ Use.regs .pair f.b.toNat) (Use.regs .pair f.d.toNat)) :
    let A := fun l => operandPair c G l f.a.toNat
    let B := fun l => operandPair c G l f.b.toNat
    let r := fun l => g (A l) (B l)
    ∃ t, s.run ((bin64 f g).noting y) = .next t ∧
      WritesPair s t c G [] f.d.toNat (fun l => pushOf f.h (loOf (A l)) (loOf (B l)) (loOf (r l))) r noCauses := by
  intro A B r
  set w := (bin64 f g).noting y
  have P : w.Plain := ⟨⟨rfl, fun _ => rfl, fun _ _ _ => rfl, rfl, f.a.isLt, f.b.isLt⟩, fun _ _ _ _ => rfl⟩
  have hA : ∀ l, (w.read c G l).a = A l := fun l => vals_a_pair w l rfl
  have hB : ∀ l, (w.read c G l).b = B l := fun l => vals_b_pair w l rfl
  exact P.writes_pair_latched rfl rfl rfl hcon (H.for_word rfl (Shape.reads_ab rfl _ _ _) rfl)
    (fun l => congrArg loOf (hA l)) (fun l => congrArg loOf (hB l)) fun l => by simp only [r, ← hA, ← hB]; rfl

/-- A pair shifted by a single register. -/
theorem shift64_writes {f : FmtA} {g : DWord → Nat → DWord}
    (H : Ready s c G [f.b.toNat] (Use.regs .pair f.a.toNat ++ Use.regs .reg f.b.toNat) (Use.regs .pair f.d.toNat)) :
    let A := fun l => operandPair c G l f.a.toNat
    let B := fun l => operand c G l [] f.b.toNat
    let r := fun l => g (A l) ((B l).toNat % 64)
    ∃ t, s.run (shift64 f g) = .next t ∧
      WritesPair s t c G [f.b.toNat] f.d.toNat (fun l => pushOf f.h (loOf (A l)) (B l) (loOf (r l))) r noCauses := by
  intro A B r
  set w := shift64 f g
  have P : w.Plain := ⟨⟨rfl, fun _ => rfl, fun _ _ _ => rfl, rfl, f.a.isLt, f.b.isLt⟩, fun _ _ _ _ => rfl⟩
  have hA : ∀ l, (w.read c G l).a = A l := fun l => vals_a_pair w l rfl
  have hB : ∀ l, (w.read c G l).b32 = B l := fun l => vals_b w l rfl f.a.isLt
  exact P.writes_pair_latched rfl rfl rfl (fun _ _ => rfl) (H.for_word rfl (Shape.reads_ab rfl _ _ _) rfl)
    (fun l => congrArg loOf (hA l)) hB fun l => by simp only [r, ← hA, ← hB]; rfl

/-- A pair from two single registers. -/
theorem widen_writes {f : FmtA} {g : Word → Word → DWord}
    (H : Ready s c G [f.a.toNat, f.b.toNat] (Use.regs .reg f.a.toNat ++ Use.regs .reg f.b.toNat) (Use.regs .pair f.d.toNat)) :
    let A := fun l => operand c G l [] f.a.toNat
    let B := fun l => operand c G l [f.a.toNat] f.b.toNat
    let r := fun l => g (A l) (B l)
    ∃ t, s.run (widen f g) = .next t ∧
      WritesPair s t c G [f.a.toNat, f.b.toNat] f.d.toNat (fun l => pushOf f.h (A l) (B l) (loOf (r l))) r noCauses := by
  intro A B r
  set w := widen f g
  have P : w.Plain := ⟨⟨rfl, fun _ => rfl, fun _ _ _ => rfl, rfl, f.a.isLt, f.b.isLt⟩, fun _ _ _ _ => rfl⟩
  have hA : ∀ l, (w.read c G l).a32 = A l := fun l => vals_a w l rfl
  have hB : ∀ l, (w.read c G l).b32 = B l := fun l => vals_b w l rfl f.a.isLt
  exact P.writes_pair_latched rfl rfl rfl (fun _ _ => rfl) (H.for_word rfl (Shape.reads_ab rfl _ _ _) rfl)
    hA hB fun l => by simp only [r, ← hA, ← hB]; rfl

/-- An immediate form. -/
theorem immWord_writes {d a : BitVec 6} {k : BitVec 1} {g : Word → Word} {y : Option (Thread → Vals → Sym)}
    (hcon : ∀ t v, (((immWord d.toNat a.toNat k g).noting y).sym t v).con = none)
    (H : Ready s c G [a.toNat] (Use.regs .reg a.toNat) (Use.regs .reg d.toNat)) :
    ∃ t, s.run ((immWord d.toNat a.toNat k g).noting y) = .next t ∧
      WritesWord s t c G [a.toNat] d.toNat (fun _ => none) (fun l => g (operand c G l [] a.toNat)) noCauses := by
  set w := (immWord d.toNat a.toNat k g).noting y
  have P : w.Plain := ⟨⟨rfl, fun _ => rfl, fun _ _ _ => rfl, rfl, a.isLt, Nat.succ_pos 63⟩, fun _ _ _ _ => rfl⟩
  have hA : ∀ l, (w.read c G l).a32 = operand c G l [] a.toNat := fun l => vals_a w l rfl
  exact P.writes_unlatched rfl rfl hcon (H.for_word rfl (Shape.reads_a rfl rfl _ _ _) rfl) fun l => by
    rw [← hA]; rfl

end Sys2Proof.Machine
end

section
/-! SUPPORT. The integer operations in the terms of claims: what each computes on bit patterns and on the numbers they stand
for. -/

namespace Sys2Proof.Machine

open Sys2Proof

/-! ## Comparisons (R89, R96) -/

/-- A comparison of two words as a proposition. -/
def Cmp.Holds (a b : Word) : Cmp → Prop
  | .eq => a = b
  | .ne => a ≠ b
  | .lt => a.toInt < b.toInt
  | .le => a.toInt ≤ b.toInt
  | .ltu => a.toNat < b.toNat
  | .leu => a.toNat ≤ b.toNat
  | .gt => b.toInt < a.toInt
  | .ge => b.toInt ≤ a.toInt

theorem setWidth_inj {a b : Word} : a.setWidth 64 = b.setWidth 64 ↔ a = b :=
  ⟨fun h => by rw [← loOf_setWidth a, h, loOf_setWidth], congrArg _⟩

/-- A comparison that is not wide compares the low words. -/
theorem Cmp.eval_low (k : Cmp) (x y : DWord) : k.eval false x y = true ↔ k.Holds (loOf x) (loOf y) := by
  have hnat : ∀ a : Word, (a.setWidth 64).toNat = a.toNat := fun a => BitVec.toNat_setWidth_of_le (by decide)
  cases k <;> simp only [Cmp.eval, Cmp.Holds, setWidth_inj, hnat, Bool.false_eq_true, if_false, beq_iff_eq, bne_iff_ne,
    decide_eq_true_eq, ne_eq]

theorem Cmp.eval_words (k : Cmp) (a b : Word) : k.eval false (a.setWidth 64) (b.setWidth 64) = true ↔ k.Holds a b := by
  rw [Cmp.eval_low, loOf_setWidth, loOf_setWidth]

theorem boolWord_of_iff {b : Bool} {p : Prop} (h : b = true ↔ p) : (p → boolWord b = 1) ∧ (¬p → boolWord b = 0) := by
  cases b <;> simp_all [boolWord]

/-! ## Shifts and products (R87, R88, R93) -/

theorem shl32_eq (a : Word) (n : Nat) : shl32 a n = if n < 32 then a <<< n else 0 := by
  unfold shl32
  split
  · rfl
  · exact BitVec.shiftLeft_eq_zero (by omega)

theorem shr32_eq (a : Word) (n : Nat) : shr32 a n = if n < 32 then a >>> n else 0 := by
  unfold shr32
  split
  · rfl
  · exact BitVec.ushiftRight_eq_zero (by omega)

theorem sra32_eq (a : Word) (n : Nat) : sra32 a n = a.sshiftRight (min n 31) := by
  unfold sra32
  rcases Nat.le_total n 31 with h | h
  · rw [Nat.min_eq_left h]
  · rw [Nat.min_eq_right h]
    apply BitVec.eq_of_getLsbD_eq
    intro i hi
    rw [BitVec.getLsbD_sshiftRight, BitVec.getLsbD_sshiftRight, BitVec.msb_eq_getLsbD_last]
    rcases Nat.eq_zero_or_pos i with rfl | hpos
    · rcases Nat.eq_or_lt_of_le h with rfl | hlt
      · rfl
      · rw [if_neg (by omega), if_pos (by decide)]
    · rw [if_neg (by omega), if_neg (by omega)]

theorem rol32_eq (a : Word) (n : Nat) : rol32 a n = a <<< (n % 32) ||| a >>> (32 - n % 32) := by
  unfold rol32 BitVec.rotateLeft BitVec.rotateLeftAux
  rw [Nat.mod_mod]

theorem signExtend_mul (a b : Word) : a.signExtend 64 * b.signExtend 64 = BitVec.ofInt 64 (a.toInt * b.toInt) := by
  rw [BitVec.ofInt_mul, ← BitVec.toInt_signExtend_of_le (v := 64) (x := a) (by decide),
    ← BitVec.toInt_signExtend_of_le (v := 64) (x := b) (by decide), BitVec.ofInt_toInt, BitVec.ofInt_toInt]

theorem setWidth_mul (a b : Word) : a.setWidth 64 * b.setWidth 64 = BitVec.ofNat 64 (a.toNat * b.toNat) := by
  rw [BitVec.ofNat_mul, BitVec.ofNat_toNat, BitVec.ofNat_toNat]

theorem hiOf_ofInt (x : Int) : hiOf (BitVec.ofInt 64 x) = BitVec.ofInt 32 (x / 2 ^ 32) := by
  apply BitVec.eq_of_toNat_eq
  simp only [hiOf, BitVec.toNat_setWidth, BitVec.toNat_ushiftRight, BitVec.toNat_ofInt, Nat.shiftRight_eq_div_pow]
  omega

theorem mulHigh_eq (a b : Word) : mulHigh a b = BitVec.ofInt 32 (a.toInt * b.toInt / 2 ^ 32) := by
  unfold mulHigh; rw [signExtend_mul, hiOf_ofInt]

theorem mulHighU_eq (a b : Word) : mulHighU a b = BitVec.ofNat 32 (a.toNat * b.toNat / 2 ^ 32) := by
  unfold mulHighU
  rw [setWidth_mul, ← BitVec.ofInt_natCast, hiOf_ofInt, ← BitVec.ofInt_natCast]; rfl

/-! ## Counting and reversing bits (R89) -/

theorem countBits_eq (a : Word) (n : Nat) : countBits a n = ((List.range n).filter fun k => a.getLsbD k).length := by
  induction n with
  | zero => rfl
  | succ n ih =>
    rw [countBits, ih, List.range_succ, List.filter_append, List.length_append, List.filter_singleton]
    cases a.getLsbD n <;> rfl

theorem leadingZeros_le (a : Word) (n : Nat) : leadingZeros a n ≤ n := by
  induction n with
  | zero => exact Nat.le_refl 0
  | succ n ih => rw [leadingZeros]; split <;> omega

/-- The bits above the leading one are zero. -/
theorem getLsbD_of_leadingZeros (a : Word) (n k : Nat) (h1 : n - leadingZeros a n ≤ k) (h2 : k < n) : a.getLsbD k = false := by
  induction n with
  | zero => omega
  | succ n ih =>
    rw [leadingZeros] at h1
    split at h1
    · omega
    · rename_i hn
      by_cases hk : k = n
      · subst hk; simpa using hn
      · exact ih (by omega) (by omega)

/-- Below the leading zeros stands a one. -/
theorem getLsbD_leadingZeros (a : Word) (n : Nat) (h : leadingZeros a n < n) :
    a.getLsbD (n - 1 - leadingZeros a n) = true := by
  induction n with
  | zero => omega
  | succ n ih =>
    rw [leadingZeros] at h ⊢
    split at h <;> rename_i hn
    · rw [if_pos hn]; exact hn
    · rw [if_neg hn]
      have := ih (by omega)
      rwa [show n + 1 - 1 - (leadingZeros a n + 1) = n - 1 - leadingZeros a n by omega]

theorem toNat_lt_of_leadingZeros (a : Word) : a.toNat < 2 ^ (32 - leadingZeros a 32) := by
  apply Nat.lt_pow_two_of_testBit
  intro k hk
  by_cases h : k < 32
  · exact getLsbD_of_leadingZeros a 32 k hk h
  · exact BitVec.getLsbD_of_ge a k (by omega)

theorem getLsbD_bitReverse (a : Word) (k : Nat) (h : k < 32) : (bitReverse a).getLsbD k = a.getLsbD (31 - k) := by
  have key : ∀ (n lo : Nat) (r : Word),
      ((natsFrom lo n).foldl (fun r i => if a.getLsbD (31 - i) then r ||| (1#32 <<< i) else r) r).getLsbD k =
        (r.getLsbD k || (decide (lo ≤ k ∧ k < lo + n) && a.getLsbD (31 - k))) := by
    intro n
    induction n with
    | zero => intro lo r; rw [decide_eq_false (by omega)]; simp [natsFrom]
    | succ n ih =>
      intro lo r
      rw [natsFrom, List.foldl_cons, ih]
      by_cases hk : lo = k
      · subst hk
        rw [decide_eq_false (by omega), decide_eq_true (by omega : lo ≤ lo ∧ lo < lo + (n + 1))]
        cases ha : a.getLsbD (31 - lo) <;> simp [h]
      · have hstep : (if a.getLsbD (31 - lo) then r ||| (1#32 <<< lo) else r).getLsbD k = r.getLsbD k := by
          split
          · simp [BitVec.getLsbD_one]; omega
          · rfl
        rw [hstep, decide_eq_decide.2 (by omega : (lo + 1 ≤ k ∧ k < lo + 1 + n) ↔ (lo ≤ k ∧ k < lo + (n + 1)))]
  unfold bitReverse
  rw [key, decide_eq_true (by omega : 0 ≤ k ∧ k < 0 + 32)]
  simp

/-! ## Bit fields (R91) -/

theorem fieldOf_eq (b : Word) : fieldOf b =
    (b.toNat % 32, min (if b.toNat / 256 % 32 = 0 then 32 else b.toNat / 256 % 32) (32 - b.toNat % 32)) := rfl

theorem fieldOf_bounds (b : Word) : 0 < (fieldOf b).2 ∧ (fieldOf b).1 + (fieldOf b).2 ≤ 32 := by
  rw [fieldOf_eq]; simp only; split <;> omega

/-- The field of a word that another word names. -/
def fieldIn (a b : Word) : Nat := a.toNat / 2 ^ (fieldOf b).1 % 2 ^ (fieldOf b).2

theorem fieldIn_lt (a b : Word) : fieldIn a b < 2 ^ (fieldOf b).2 := Nat.mod_lt _ (Nat.two_pow_pos _)

theorem toNat_bitField (a b : Word) : (bitField a b).toNat = fieldIn a b := by
  obtain ⟨-, hle⟩ := fieldOf_bounds b
  have hpow : 2 ^ (fieldOf b).2 ≤ 2 ^ 32 := Nat.pow_le_pow_right (by decide) (by omega)
  exact Nat.mod_eq_of_lt (Nat.lt_of_lt_of_le (fieldIn_lt a b) hpow)

theorem toInt_bitFieldS (a b : Word) :
    (bitFieldS a b).toInt =
      if fieldIn a b < 2 ^ ((fieldOf b).2 - 1) then (fieldIn a b : Int) else fieldIn a b - 2 ^ (fieldOf b).2 := by
  obtain ⟨hpos, hle⟩ := fieldOf_bounds b
  have hx := fieldIn_lt a b
  have hdef : bitFieldS a b = if fieldIn a b / 2 ^ ((fieldOf b).2 - 1) % 2 = 1
      then BitVec.ofNat 32 (fieldIn a b + (2 ^ 32 - 2 ^ (fieldOf b).2)) else BitVec.ofNat 32 (fieldIn a b) := rfl
  have hhalf : 2 ^ (fieldOf b).2 = 2 * 2 ^ ((fieldOf b).2 - 1) := by rw [← Nat.pow_succ']; congr 1; omega
  have hmax : 2 ^ ((fieldOf b).2 - 1) ≤ 2 ^ 31 := Nat.pow_le_pow_right (by decide) (by omega)
  have hz : (2 : Int) ^ (fieldOf b).2 = ((2 ^ (fieldOf b).2 : Nat) : Int) := by push_cast; rfl
  rw [hdef, hz, hhalf]
  rw [hhalf] at hx
  generalize 2 ^ ((fieldOf b).2 - 1) = p at *
  generalize fieldIn a b = x at *
  by_cases h : x < p
  · rw [Nat.div_eq_of_lt h, if_neg (by decide), if_pos h, BitVec.toInt_eq_toNat_cond, BitVec.toNat_ofNat]
    omega
  · rw [Nat.div_eq_of_lt_le (k := 1) (by omega) (by omega), if_pos rfl, if_neg h, BitVec.toInt_eq_toNat_cond,
      BitVec.toNat_ofNat]
    omega

theorem testBit_setBits (x o e v k : Nat) :
    (setBits x o e v).testBit k = if o ≤ k ∧ k < o + e then v.testBit (k - o) else x.testBit k := by
  have hlow : 2 ^ o * (v % 2 ^ e) + x % 2 ^ o < 2 ^ (o + e) := by
    have h1 : x % 2 ^ o < 2 ^ o := Nat.mod_lt _ (Nat.two_pow_pos _)
    have h2 : v % 2 ^ e + 1 ≤ 2 ^ e := Nat.mod_lt _ (Nat.two_pow_pos _)
    calc 2 ^ o * (v % 2 ^ e) + x % 2 ^ o < 2 ^ o * (v % 2 ^ e + 1) := by rw [Nat.mul_add_one]; omega
      _ ≤ 2 ^ o * 2 ^ e := Nat.mul_le_mul_left _ h2
      _ = 2 ^ (o + e) := (Nat.pow_add _ _ _).symm
  have hsplit : setBits x o e v = 2 ^ (o + e) * (x / 2 ^ (o + e)) + (2 ^ o * (v % 2 ^ e) + x % 2 ^ o) := by
    unfold setBits; rw [Nat.mul_comm, Nat.mul_comm (v % 2 ^ e), Nat.add_assoc]
  rw [hsplit, Nat.testBit_two_pow_mul_add _ hlow,
    Nat.testBit_two_pow_mul_add _ (Nat.mod_lt _ (Nat.two_pow_pos o))]
  simp only [Nat.testBit_mod_two_pow, Nat.testBit_div_two_pow]
  by_cases h1 : k < o + e
  · by_cases h2 : k < o
    · rw [if_pos h1, if_pos h2, if_neg (by omega), decide_eq_true h2, Bool.true_and]
    · rw [if_pos h1, if_neg h2, if_pos (by omega), decide_eq_true (by omega : k - o < e), Bool.true_and]
  · rw [if_neg h1, if_neg (by omega), show k - (o + e) + (o + e) = k by omega]

theorem getLsbD_bitFieldInsert (d a b : Word) (k : Nat) (hk : k < 32) :
    (bitFieldInsert d a b).getLsbD k =
      if (fieldOf b).1 ≤ k ∧ k < (fieldOf b).1 + (fieldOf b).2 then a.getLsbD (k - (fieldOf b).1) else d.getLsbD k := by
  have hdef : bitFieldInsert d a b = BitVec.ofNat 32 (setBits d.toNat (fieldOf b).1 (fieldOf b).2 a.toNat) := rfl
  rw [hdef, BitVec.getLsbD_ofNat, decide_eq_true hk, Bool.true_and, testBit_setBits]
  rfl

end Sys2Proof.Machine
end

section
/-! The integer words (04_thread_integer_control.md): what each instruction writes, and the statements on them. -/

namespace Sys2Proof.Machine

open Sys2Proof


/-! ## Words of two single registers (R88, R89) -/

/-- The instruction writes this of its two single-register sources, and does no more. -/
def WritesOfTwo (p : (FmtA → Instr) × (Word → Word → Word)) : Prop :=
  ∀ (f : FmtA) (s : State) (c : IssueCtx) (G : Gang),
    Ready s c G [f.a.toNat, f.b.toNat] (Use.regs .reg f.a.toNat ++ Use.regs .reg f.b.toNat) (Use.regs .reg f.d.toNat) →
    let A := fun l => operand c G l [] f.a.toNat
    let B := fun l => operand c G l [f.a.toNat] f.b.toNat
    let r := fun l => p.2 (A l) (B l)
    ∃ t, exec (p.1 f) s = .next t ∧
      WritesWord s t c G [f.a.toNat, f.b.toNat] f.d.toNat (fun l => pushOf f.h (A l) (B l) (r l)) r noCauses

/-- An instruction that notes nothing in a region beside its pins writes what its word computes. -/
theorem writesOfTwo_of_bin32 {e : FmtA → Instr} {g g' : Word → Word → Word}
    (he : ∀ f s, exec (e f) s = s.run (bin32 f g')) (hg : ∀ a b, g' a b = g a b) : WritesOfTwo (e, g) := by
  intro f s c G H
  obtain rfl : g' = g := funext fun a => funext (hg a)
  rw [he]
  exact bin32_writes (y := none) (fun _ _ => rfl) H

theorem sumSym_con (minus : Bool) (ua : Use) (fa : Nat) (ub : Use) (fb : Nat) (t : Thread) (v : Vals) :
    (sumSym minus ua fa ub fb t v).con = none := by
  unfold sumSym
  cases t.tagOf ua fa <;> cases t.tagOf ub fb <;> cases minus <;> rfl

theorem compareSym_con (k : Cmp) (fa fb : Nat) (t : Thread) (v : Vals) : (compareSym k fa fb t v).con = none := by
  unfold compareSym
  cases t.tagOf .reg fa <;> cases t.tagOf .reg fb <;> rfl

theorem add_writes : WritesOfTwo (.add, fun a b => a + b) := fun f _ _ _ H =>
  bin32_writes (y := some (sumSym false .reg f.a.toNat .reg f.b.toNat)) (sumSym_con _ _ _ _ _) H

theorem sub_writes : WritesOfTwo (.sub, fun a b => a - b) := fun f _ _ _ H =>
  bin32_writes (y := some (sumSym true .reg f.a.toNat .reg f.b.toNat)) (sumSym_con _ _ _ _ _) H

theorem mul_writes : WritesOfTwo (.mul, fun a b => a * b) := writesOfTwo_of_bin32 (fun _ _ => rfl) fun _ _ => rfl

theorem mulh_writes : WritesOfTwo (.mulh, fun a b => BitVec.ofInt 32 (a.toInt * b.toInt / 2 ^ 32)) :=
  writesOfTwo_of_bin32 (fun _ _ => rfl) mulHigh_eq

theorem mulhu_writes : WritesOfTwo (.mulhu, fun a b => BitVec.ofNat 32 (a.toNat * b.toNat / 2 ^ 32)) :=
  writesOfTwo_of_bin32 (fun _ _ => rfl) mulHighU_eq

theorem and_writes : WritesOfTwo (.and, fun a b => a &&& b) := writesOfTwo_of_bin32 (fun _ _ => rfl) fun _ _ => rfl

theorem or_writes : WritesOfTwo (.or, fun a b => a ||| b) := writesOfTwo_of_bin32 (fun _ _ => rfl) fun _ _ => rfl

theorem xor_writes : WritesOfTwo (.xor, fun a b => a ^^^ b) := writesOfTwo_of_bin32 (fun _ _ => rfl) fun _ _ => rfl

theorem andn_writes : WritesOfTwo (.andn, fun a b => a &&& ~~~b) := writesOfTwo_of_bin32 (fun _ _ => rfl) fun _ _ => rfl

theorem shl_writes : WritesOfTwo (.shl, fun a b => if b.toNat % 64 < 32 then a <<< (b.toNat % 64) else 0) :=
  writesOfTwo_of_bin32 (fun _ _ => rfl) fun _ _ => shl32_eq _ _

theorem shr_writes : WritesOfTwo (.shr, fun a b => if b.toNat % 64 < 32 then a >>> (b.toNat % 64) else 0) :=
  writesOfTwo_of_bin32 (fun _ _ => rfl) fun _ _ => shr32_eq _ _

theorem sra_writes : WritesOfTwo (.sra, fun a b => a.sshiftRight (min (b.toNat % 64) 31)) :=
  writesOfTwo_of_bin32 (fun _ _ => rfl) fun _ _ => sra32_eq _ _

theorem rol_writes : WritesOfTwo (.rol, fun a b => a <<< (b.toNat % 32) ||| a >>> (32 - b.toNat % 32)) :=
  writesOfTwo_of_bin32 (fun _ _ => rfl) fun a b => by
    rw [rol32_eq, shiftAmount, Nat.mod_mod_of_dvd _ (by decide)]

theorem min_writes : WritesOfTwo (.min, fun a b => if a.slt b then a else b) :=
  writesOfTwo_of_bin32 (fun _ _ => rfl) fun _ _ => by simp only [BitVec.slt_iff_toInt_lt]

theorem max_writes : WritesOfTwo (.max, fun a b => if b.slt a then a else b) :=
  writesOfTwo_of_bin32 (fun _ _ => rfl) fun _ _ => by simp only [BitVec.slt_iff_toInt_lt, gt_iff_lt]

theorem minu_writes : WritesOfTwo (.minu, fun a b => if a.ult b then a else b) :=
  writesOfTwo_of_bin32 (fun _ _ => rfl) fun _ _ => by simp only [BitVec.ult_iff_lt, BitVec.lt_def]

theorem maxu_writes : WritesOfTwo (.maxu, fun a b => if b.ult a then a else b) :=
  writesOfTwo_of_bin32 (fun _ _ => rfl) fun _ _ => by simp only [BitVec.ult_iff_lt, BitVec.lt_def, gt_iff_lt]

/-- A compare writes 1 where its relation holds, else 0. -/
theorem writesOfTwo_of_compare {e : FmtA → Instr} {g : Word → Word → Word} (k : Cmp)
    (he : ∀ f s, exec (e f) s = s.run (compare32 f k))
    (hg : ∀ a b, (k.Holds a b → g a b = 1) ∧ (¬k.Holds a b → g a b = 0)) : WritesOfTwo (e, g) := by
  intro f s c G H
  have hk : (fun a b : Word => boolWord (k.eval false (a.setWidth 64) (b.setWidth 64))) = g := by
    funext a b
    obtain ⟨h1, h0⟩ := boolWord_of_iff (k.eval_words a b)
    by_cases h : k.Holds a b
    · rw [h1 h, (hg a b).1 h]
    · rw [h0 h, (hg a b).2 h]
  rw [he]
  subst hk
  exact bin32_writes (y := some (compareSym k f.a.toNat f.b.toNat)) (compareSym_con _ _ _) H

theorem cmpeq_writes : WritesOfTwo (.cmpeq, fun a b => if a = b then 1 else 0) :=
  writesOfTwo_of_compare .eq (fun _ _ => rfl) fun _ _ => ⟨fun h => if_pos h, fun h => if_neg h⟩

theorem cmpne_writes : WritesOfTwo (.cmpne, fun a b => if a = b then 0 else 1) :=
  writesOfTwo_of_compare .ne (fun _ _ => rfl) fun _ _ => ⟨fun h => if_neg h, fun h => if_pos (not_not.1 h)⟩

theorem cmplt_writes : WritesOfTwo (.cmplt, fun a b => if a.slt b then 1 else 0) :=
  writesOfTwo_of_compare .lt (fun _ _ => rfl) fun _ _ =>
    ⟨fun h => if_pos (BitVec.slt_iff_toInt_lt.2 h), fun h => if_neg (mt BitVec.slt_iff_toInt_lt.1 h)⟩

theorem cmple_writes : WritesOfTwo (.cmple, fun a b => if b.slt a then 0 else 1) :=
  writesOfTwo_of_compare .le (fun _ _ => rfl) fun _ _ =>
    ⟨fun h => if_neg (mt BitVec.slt_iff_toInt_lt.1 (not_lt.2 h)), fun h => if_pos (BitVec.slt_iff_toInt_lt.2 (not_le.1 h))⟩

theorem cmpltu_writes : WritesOfTwo (.cmpltu, fun a b => if a.ult b then 1 else 0) :=
  writesOfTwo_of_compare .ltu (fun _ _ => rfl) fun _ _ =>
    ⟨fun h => if_pos (BitVec.ult_iff_lt.2 h), fun h => if_neg (mt BitVec.ult_iff_lt.1 h)⟩

theorem cmpleu_writes : WritesOfTwo (.cmpleu, fun a b => if b.ult a then 0 else 1) :=
  writesOfTwo_of_compare .leu (fun _ _ => rfl) fun _ _ =>
    ⟨fun h => if_neg (mt BitVec.ult_iff_lt.1 (not_lt.2 h)), fun h => if_pos (BitVec.ult_iff_lt.2 (not_le.1 h))⟩

theorem bfx_writes : WritesOfTwo (.bfx, bitField) := writesOfTwo_of_bin32 (fun _ _ => rfl) fun _ _ => rfl

theorem bfxs_writes : WritesOfTwo (.bfxs, bitFieldS) := writesOfTwo_of_bin32 (fun _ _ => rfl) fun _ _ => rfl

/-! ## Words that read D as a third source (R89, R91) -/

/-- The instruction writes this of D and its two single-register sources, and does no more. -/
def WritesOfThree (e : FmtA → Instr) (g : Word → Word → Word → Word) (room : IssueCtx → Gang → Prop) : Prop :=
  ∀ (f : FmtA) (s : State) (c : IssueCtx) (G : Gang),
    Ready s c G [f.a.toNat, f.b.toNat]
      (Use.regs .reg f.d.toNat ++ Use.regs .reg f.a.toNat ++ Use.regs .reg f.b.toNat) (Use.regs .reg f.d.toNat) →
    room c G →
    let A := fun l => operand c G l [] f.a.toNat
    let B := fun l => operand c G l [f.a.toNat] f.b.toNat
    let r := fun l => g (operandD c G l f.d.toNat) (A l) (B l)
    ∃ t, exec (e f) s = .next t ∧
      WritesWord s t c G [f.a.toNat, f.b.toNat] f.d.toNat (fun l => pushOf f.h (A l) (B l) (r l)) r noCauses

theorem mad_writes : WritesOfThree .mad (fun d a b => a * b + d) fun _ _ => True := fun _ _ _ _ H _ =>
  tern32_writes (g := fun d a b => a * b + d) (y := none) (.inr fun _ _ => rfl) H

theorem bfi_writes : WritesOfThree .bfi bitFieldInsert fun _ _ => True := fun _ _ _ _ H _ =>
  tern32_writes (g := bitFieldInsert) (y := none) (.inr fun _ _ => rfl) H

theorem sel_writes : WritesOfThree .sel (fun d a b => if d = 0 then b else a) Roomy := by
  intro f s c G H R
  have hg : (fun d a b : Word => if d ≠ 0#32 then a else b) = fun d a b => if d = 0 then b else a := by
    funext d a b; rw [ite_not]; rfl
  rw [← hg]
  exact tern32_writes (y := some (selSym f.d.toNat f.a.toNat f.b.toNat)) (.inl R) H

end Sys2Proof.Machine

namespace Sys2Proof.IntegerWords

open Sys2Proof Sys2Proof.Machine

/-- Settles O1: each row of the words of two single registers, the two field reads, MAD and BFI. -/
theorem singleRegisterWordsWriteTheirResult : Obligations.SingleRegisterWordsWriteTheirResult := by
  unfold Obligations.SingleRegisterWordsWriteTheirResult
  refine ⟨?_, fun f s c G H => ⟨fun r hr => ?_, fun r hr => ?_⟩, ?_⟩
  · change ∀ p ∈ _, WritesOfTwo p
    simp only [List.forall_mem_cons]
    exact ⟨add_writes, sub_writes, mul_writes, mulh_writes, mulhu_writes, and_writes, or_writes, xor_writes, andn_writes,
      shl_writes, shr_writes, sra_writes, rol_writes, min_writes, max_writes, minu_writes, maxu_writes, cmpeq_writes,
      cmpne_writes, cmplt_writes, cmple_writes, cmpltu_writes, cmpleu_writes, List.forall_mem_nil _⟩
  · obtain rfl : r = fun l => bitField (operand c G l [] f.a.toNat) (operand c G l [f.a.toNat] f.b.toNat) :=
      funext fun l => BitVec.eq_of_toNat_eq ((hr l).trans (toNat_bitField _ _).symm)
    exact bfx_writes f s c G H
  · obtain rfl : r = fun l => bitFieldS (operand c G l [] f.a.toNat) (operand c G l [f.a.toNat] f.b.toNat) :=
      funext fun l => BitVec.eq_of_toInt_eq ((hr l).trans (toInt_bitFieldS _ _).symm)
    exact bfxs_writes f s c G H
  · simp only [List.forall_mem_cons]
    refine ⟨fun f s c G H => ?_, fun f s c G H => ?_, List.forall_mem_nil _⟩
    · obtain ⟨t, hrun, hw⟩ := mad_writes f s c G H trivial
      exact ⟨t, _, hrun, fun _ => rfl, hw⟩
    · obtain ⟨t, hrun, hw⟩ := bfi_writes f s c G H trivial
      exact ⟨t, _, hrun, fun _ => getLsbD_bitFieldInsert _ _ _, hw⟩

end Sys2Proof.IntegerWords
end

section
/-! Words of one source, words whose result is a pair, and the immediate forms (04_thread_integer_control.md). -/

namespace Sys2Proof.Machine

open Sys2Proof

/-! ## Words of one source (R89) -/

/-- The instruction writes what stands in this relation to its one source, and does no more. -/
def WritesOfOne (p : (FmtA → Instr) × (Word → Word → Prop)) : Prop :=
  ∀ (f : FmtA) (s : State) (c : IssueCtx) (G : Gang),
    Ready s c G [f.a.toNat] (Use.regs .reg f.a.toNat) (Use.regs .reg f.d.toNat) →
    let A := fun l => operand c G l [] f.a.toNat
    ∃ t r, exec (p.1 f) s = .next t ∧ (∀ l, p.2 (A l) (r l)) ∧
      WritesWord s t c G [f.a.toNat] f.d.toNat (fun l => pushOf f.h (A l) 0 (r l)) r noCauses

theorem writesOfOne_of_un32 {e : FmtA → Instr} {R : Word → Word → Prop} (g : Word → Word)
    (he : ∀ f s, exec (e f) s = s.run (un32 f g)) (hR : ∀ a, R a (g a)) : WritesOfOne (e, R) := by
  intro f s c G H
  obtain ⟨t, hrun, hw⟩ := un32_writes (g := g) H
  exact ⟨t, _, (he f s).trans hrun, fun _ => hR _, hw⟩

theorem abs_writes : WritesOfOne (.abs, fun a r => r = if a.msb then 0 - a else a) :=
  writesOfOne_of_un32 _ (fun _ _ => rfl) fun a => by simp only [BitVec.msb_eq_toInt, decide_eq_true_eq]

theorem clz_writes : WritesOfOne (.clz, fun a r =>
    r.toNat ≤ 32 ∧ a.toNat < 2 ^ (32 - r.toNat) ∧ (r.toNat < 32 → a.getLsbD (31 - r.toNat) = true)) :=
  writesOfOne_of_un32 _ (fun _ _ => rfl) fun a => by
    have hle := leadingZeros_le a 32
    have hr : (BitVec.ofNat 32 (leadingZeros a 32)).toNat = leadingZeros a 32 := Nat.mod_eq_of_lt (by omega)
    simp only [hr]
    exact ⟨hle, toNat_lt_of_leadingZeros a, getLsbD_leadingZeros a 32⟩

theorem popc_writes : WritesOfOne (.popc, fun a r => r.toNat = ((List.range 32).filter fun k => a.getLsbD k).length) :=
  writesOfOne_of_un32 _ (fun _ _ => rfl) fun a => by
    have hle : ((List.range 32).filter fun k => a.getLsbD k).length ≤ 32 :=
      (List.length_filter_le _ _).trans (List.length_range).le
    rw [countBits_eq, BitVec.toNat_ofNat]
    exact Nat.mod_eq_of_lt (by omega)

theorem brev_writes : WritesOfOne (.brev, fun a r => ∀ k < 32, r.getLsbD k = a.getLsbD (31 - k)) :=
  writesOfOne_of_un32 bitReverse (fun _ _ => rfl) getLsbD_bitReverse

/-! ## Words whose result is a pair (R86, R89, R92, R93) -/

section
variable (f : FmtA) (s : State) (c : IssueCtx) (G : Gang)

/-- The instruction writes this of its two pairs, and does no more. -/
def WritesOfPairs (p : (FmtA → Instr) × (DWord → DWord → DWord)) : Prop :=
  Ready s c G [] (Use.regs .pair f.a.toNat ++ Use.regs .pair f.b.toNat) (Use.regs .pair f.d.toNat) →
  let A := fun l => operandPair c G l f.a.toNat
  let B := fun l => operandPair c G l f.b.toNat
  let r := fun l => p.2 (A l) (B l)
  ∃ t, exec (p.1 f) s = .next t ∧
    WritesPair s t c G [] f.d.toNat (fun l => pushOf f.h (loOf (A l)) (loOf (B l)) (loOf (r l))) r noCauses

theorem add64_writes : WritesOfPairs f s c G (.add64, fun a b => a + b) :=
  bin64_writes (g := fun a b => a + b) (y := some (sumSym false .pair f.a.toNat .pair f.b.toNat)) (sumSym_con _ _ _ _ _)

theorem sub64_writes : WritesOfPairs f s c G (.sub64, fun a b => a - b) :=
  bin64_writes (g := fun a b => a - b) (y := some (sumSym true .pair f.a.toNat .pair f.b.toNat)) (sumSym_con _ _ _ _ _)

theorem mul64_writes : WritesOfPairs f s c G (.mul64, fun a b => a * b) :=
  bin64_writes (g := fun a b => a * b) (y := none) fun _ _ => rfl

/-- The instruction writes this of a pair and the shift amount in a single register, and does no more. -/
def WritesOfShift (p : (FmtA → Instr) × (DWord → Nat → DWord)) : Prop :=
  Ready s c G [f.b.toNat] (Use.regs .pair f.a.toNat ++ Use.regs .reg f.b.toNat) (Use.regs .pair f.d.toNat) →
  let A := fun l => operandPair c G l f.a.toNat
  let B := fun l => operand c G l [] f.b.toNat
  let r := fun l => p.2 (A l) ((B l).toNat % 64)
  ∃ t, exec (p.1 f) s = .next t ∧
    WritesPair s t c G [f.b.toNat] f.d.toNat (fun l => pushOf f.h (loOf (A l)) (B l) (loOf (r l))) r noCauses

theorem shl64_writes : WritesOfShift f s c G (.shl64, fun a n => a <<< n) := shift64_writes

theorem shr64_writes : WritesOfShift f s c G (.shr64, fun a n => a >>> n) := shift64_writes

theorem sra64_writes : WritesOfShift f s c G (.sra64, fun a n => a.sshiftRight n) := shift64_writes

/-- The instruction writes this pair of its two single-register sources, and does no more. -/
def WritesProduct (p : (FmtA → Instr) × (Word → Word → DWord)) : Prop :=
  Ready s c G [f.a.toNat, f.b.toNat] (Use.regs .reg f.a.toNat ++ Use.regs .reg f.b.toNat) (Use.regs .pair f.d.toNat) →
  let A := fun l => operand c G l [] f.a.toNat
  let B := fun l => operand c G l [f.a.toNat] f.b.toNat
  let r := fun l => p.2 (A l) (B l)
  ∃ t, exec (p.1 f) s = .next t ∧
    WritesPair s t c G [f.a.toNat, f.b.toNat] f.d.toNat (fun l => pushOf f.h (A l) (B l) (loOf (r l))) r noCauses

theorem mulw_writes : WritesProduct f s c G (.mulw, fun a b => BitVec.ofInt 64 (a.toInt * b.toInt)) := by
  intro H
  simp only [← signExtend_mul]
  exact widen_writes (g := fun a b => a.signExtend 64 * b.signExtend 64) H

theorem mulwu_writes : WritesProduct f s c G (.mulwu, fun a b => BitVec.ofNat 64 (a.toNat * b.toNat)) := by
  intro H
  simp only [← setWidth_mul]
  exact widen_writes (g := fun a b => a.setWidth 64 * b.setWidth 64) H

end

/-! ## Immediate forms (R94 to R97) -/

section
variable (s : State) (c : IssueCtx) (G : Gang)

/-- The instruction writes this of A and its 12-bit immediate, and does no more. -/
def WritesOfImm (p : (FmtI → Instr) × (Word → BitVec 12 → Word)) : Prop :=
  ∀ f : FmtI, Ready s c G [f.a.toNat] (Use.regs .reg f.a.toNat) (Use.regs .reg f.d.toNat) →
    ∃ t, exec (p.1 f) s = .next t ∧
      WritesWord s t c G [f.a.toNat] f.d.toNat (fun _ => none) (fun l => p.2 (operand c G l [] f.a.toNat) f.imm) noCauses

/-- ADDI's region bookkeeping, which moves a symbolic value on (R217), records no constraint. -/
theorem execAddi_eq (f : FmtI) : ∃ y : Thread → Vals → Sym, (∀ t v, (y t v).con = none) ∧
    ∀ s, execAddi f s = s.run ((immWord f.d.toNat f.a.toNat f.k fun a => a + f.imm.signExtend 32).noting (some y)) := by
  refine ⟨_, fun t v => ?_, fun s => rfl⟩
  cases t.tagOf .reg f.a.toNat <;> rfl

theorem addi_writes : WritesOfImm s c G (.addi, fun a n => a + n.signExtend 32) := by
  intro f H
  obtain ⟨y, hcon, hexec⟩ := execAddi_eq f
  rw [show exec (.addi f) s = execAddi f s from rfl, hexec]
  exact immWord_writes (k := f.k) (g := fun a => a + f.imm.signExtend 32) (y := some y) hcon H

theorem andi_writes : WritesOfImm s c G (.andi, fun a n => a &&& n.setWidth 32) := fun f =>
  immWord_writes (k := f.k) (g := fun a => a &&& f.imm.setWidth 32) (y := none) fun _ _ => rfl

theorem ori_writes : WritesOfImm s c G (.ori, fun a n => a ||| n.setWidth 32) := fun f =>
  immWord_writes (k := f.k) (g := fun a => a ||| f.imm.setWidth 32) (y := none) fun _ _ => rfl

theorem xori_writes : WritesOfImm s c G (.xori, fun a n => a ^^^ n.setWidth 32) := fun f =>
  immWord_writes (k := f.k) (g := fun a => a ^^^ f.imm.setWidth 32) (y := none) fun _ _ => rfl

/-- The instruction writes this of A and its shift amount, and does no more. -/
def WritesOfAmount (p : (FmtSh → Instr) × (Word → Nat → Word)) : Prop :=
  ∀ f : FmtSh, Ready s c G [f.a.toNat] (Use.regs .reg f.a.toNat) (Use.regs .reg f.d.toNat) →
    ∃ t, exec (p.1 f) s = .next t ∧
      WritesWord s t c G [f.a.toNat] f.d.toNat (fun _ => none) (fun l => p.2 (operand c G l [] f.a.toNat) f.n.toNat)
        noCauses

theorem writesOfAmount_of_immWord {e : FmtSh → Instr} {g g' : Word → Nat → Word}
    (he : ∀ f s, exec (e f) s = s.run (immWord f.d.toNat f.a.toNat f.k fun a => g' a f.n.toNat))
    (hg : ∀ a n, g' a n = g a n) : WritesOfAmount s c G (e, g) := by
  intro f H
  obtain rfl : g' = g := funext fun a => funext (hg a)
  rw [he]
  exact immWord_writes (k := f.k) (g := fun a => g' a f.n.toNat) (y := none) (fun _ _ => rfl) H

theorem shli_writes : WritesOfAmount s c G (.shli, fun a n => if n < 32 then a <<< n else 0) :=
  writesOfAmount_of_immWord s c G (fun _ _ => rfl) shl32_eq

theorem shri_writes : WritesOfAmount s c G (.shri, fun a n => if n < 32 then a >>> n else 0) :=
  writesOfAmount_of_immWord s c G (fun _ _ => rfl) shr32_eq

theorem srai_writes : WritesOfAmount s c G (.srai, fun a n => a.sshiftRight (min n 31)) :=
  writesOfAmount_of_immWord s c G (fun _ _ => rfl) sra32_eq

theorem roli_writes : WritesOfAmount s c G (.roli, fun a n => a <<< (n % 32) ||| a >>> (32 - n % 32)) :=
  writesOfAmount_of_immWord s c G (fun _ _ => rfl) rol32_eq

/-- The instruction writes 1 where A stands in this relation to its immediate, else 0, and does no more. -/
def WritesWhether (p : (FmtCmpi → Instr) × (Word → Word → Prop)) : Prop :=
  ∀ f : FmtCmpi, Ready s c G [f.a.toNat] (Use.regs .reg f.a.toNat) (Use.regs .reg f.d.toNat) →
    ∃ t r, exec (p.1 f) s = .next t ∧
      (∀ l, (p.2 (operand c G l [] f.a.toNat) (f.imm.signExtend 32) → r l = 1) ∧
        (¬p.2 (operand c G l [] f.a.toNat) (f.imm.signExtend 32) → r l = 0)) ∧
      WritesWord s t c G [f.a.toNat] f.d.toNat (fun _ => none) r noCauses

theorem compareImmSym_con (k : Cmp) (fa : Nat) (imm : Word) (t : Thread) : (compareImmSym k fa imm t).con = none := by
  unfold compareImmSym; cases t.tagOf .reg fa <;> rfl

theorem writesWhether_of_compareImm {e : FmtCmpi → Instr} (k : Cmp)
    (he : ∀ f s, exec (e f) s = s.run (compareImm f k)) : WritesWhether s c G (e, fun a n => k.Holds a n) := by
  intro f H
  obtain ⟨t, hrun, hw⟩ := immWord_writes (k := f.k)
    (g := fun a => boolWord (k.eval false (a.setWidth 64) ((f.imm.signExtend 32).setWidth 64)))
    (y := some fun t _ => compareImmSym k f.a.toNat (f.imm.signExtend 32) t) (fun _ _ => compareImmSym_con _ _ _ _) H
  exact ⟨t, _, (he f s).trans hrun, fun _ => boolWord_of_iff (k.eval_words _ _), hw⟩

/-- MOVL writes its zero-extended immediate (R97). -/
theorem movl_writes (f : FmtL) (H : Ready s c G [] [] (Use.regs .reg f.d.toNat)) :
    ∃ t, exec (.movl f) s = .next t ∧
      WritesWord s t c G [] f.d.toNat (fun _ => none) (fun _ => f.imm.setWidth 32) noCauses := by
  have P : ({ shape := { dst := .reg, latch := false }, fd := f.d.toNat, k := f.k
              f := fun _ _ _ => ⟨f.imm.setWidth 64, []⟩ } : WordSpec).Plain :=
    ⟨⟨rfl, fun _ => rfl, fun _ _ _ => rfl, rfl, Nat.succ_pos 63, Nat.succ_pos 63⟩, fun _ _ _ _ => rfl⟩
  exact P.writes_unlatched rfl rfl (fun _ _ => rfl) (H.for_word rfl (by simp [WordSpec.reads, Shape.reads]) rfl) fun l =>
    congrArg (Res.mk · []) (by rw [BitVec.setWidth_setWidth]; decide)

theorem movh_value (imm : BitVec 18) (d : Word) :
    (imm.setWidth 32 <<< 14) ||| (d &&& 0x3FFF#32) = BitVec.ofNat 32 (imm.toNat * 2 ^ 14 + d.toNat % 2 ^ 14) := by
  apply BitVec.eq_of_toNat_eq
  have himm := imm.isLt
  have hlow : d.toNat % 2 ^ 14 < 2 ^ 14 := Nat.mod_lt _ (by decide)
  have hshift : (imm.setWidth 32 <<< 14).toNat = imm.toNat <<< 14 := by
    rw [BitVec.toNat_shiftLeft, BitVec.toNat_setWidth_of_le (by decide), Nat.shiftLeft_eq]
    omega
  have hmask : (d &&& 0x3FFF#32).toNat = d.toNat % 2 ^ 14 := by
    rw [BitVec.toNat_and]; exact Nat.and_two_pow_sub_one_eq_mod _ 14
  rw [BitVec.toNat_or, hshift, hmask, ← Nat.shiftLeft_add_eq_or_of_lt hlow, BitVec.toNat_ofNat, Nat.shiftLeft_eq]
  omega

/-- MOVH writes its immediate above the low fourteen bits of D (R97). -/
theorem movh_writes (f : FmtL) (H : Ready s c G [] (Use.regs .reg f.d.toNat) (Use.regs .reg f.d.toNat)) :
    ∃ t, exec (.movh f) s = .next t ∧
      WritesWord s t c G [] f.d.toNat (fun _ => none)
        (fun l => BitVec.ofNat 32 (f.imm.toNat * 2 ^ 14 + (operandD c G l f.d.toNat).toNat % 2 ^ 14)) noCauses := by
  have P : ({ shape := { d := .reg, dst := .reg, latch := false }, fd := f.d.toNat, k := f.k
              f := fun _ _ v => ⟨((f.imm.setWidth 32 <<< 14) ||| (v.d32 &&& 0x3FFF#32)).setWidth 64, []⟩ } :
      WordSpec).Plain :=
    ⟨⟨rfl, fun _ => rfl, fun _ _ _ => rfl, rfl, Nat.succ_pos 63, Nat.succ_pos 63⟩, fun _ _ _ _ => rfl⟩
  refine P.writes_unlatched rfl rfl (fun _ _ => rfl) (H.for_word rfl (by simp [WordSpec.reads, Shape.reads]) rfl) fun l => ?_
  have hD := vals_d (c := c) (G := G) { shape := { d := .reg, dst := .reg, latch := false }, fd := f.d.toNat } l rfl
  rw [← movh_value, ← hD]; rfl

end

end Sys2Proof.Machine

namespace Sys2Proof.IntegerWords

open Sys2Proof Sys2Proof.Machine

/-- Settles O2: each row of the words of one source, SEL, and the words whose result is a pair. -/
theorem unarySelectAndPairWordsWriteTheirResult : Obligations.UnarySelectAndPairWordsWriteTheirResult := by
  unfold Obligations.UnarySelectAndPairWordsWriteTheirResult
  refine ⟨?_, sel_writes, fun f s c G => ⟨?_, ?_, ?_⟩⟩
  · change ∀ p ∈ _, WritesOfOne p
    simp only [List.forall_mem_cons]
    exact ⟨abs_writes, clz_writes, popc_writes, brev_writes, List.forall_mem_nil _⟩
  · change ∀ p ∈ _, WritesOfPairs f s c G p
    simp only [List.forall_mem_cons]
    exact ⟨add64_writes f s c G, sub64_writes f s c G, mul64_writes f s c G, List.forall_mem_nil _⟩
  · change ∀ p ∈ _, WritesOfShift f s c G p
    simp only [List.forall_mem_cons]
    exact ⟨shl64_writes f s c G, shr64_writes f s c G, sra64_writes f s c G, List.forall_mem_nil _⟩
  · change ∀ p ∈ _, WritesProduct f s c G p
    simp only [List.forall_mem_cons]
    exact ⟨mulw_writes f s c G, mulwu_writes f s c G, List.forall_mem_nil _⟩

/-- Settles O4: each row of the immediate forms. -/
theorem immediateWordsWriteTheirResult : Obligations.ImmediateWordsWriteTheirResult := by
  unfold Obligations.ImmediateWordsWriteTheirResult
  intro s c G
  refine ⟨?_, ?_, ?_, movl_writes s c G, movh_writes s c G⟩
  · change ∀ p ∈ _, WritesOfImm s c G p
    simp only [List.forall_mem_cons]
    exact ⟨addi_writes s c G, andi_writes s c G, ori_writes s c G, xori_writes s c G, List.forall_mem_nil _⟩
  · change ∀ p ∈ _, WritesOfAmount s c G p
    simp only [List.forall_mem_cons]
    exact ⟨shli_writes s c G, shri_writes s c G, srai_writes s c G, roli_writes s c G, List.forall_mem_nil _⟩
  · change ∀ p ∈ _, WritesWhether s c G p
    simp only [List.forall_mem_cons]
    have row := fun {e : FmtCmpi → Instr} => writesWhether_of_compareImm s c G (e := e)
    exact ⟨row .eq fun _ _ => rfl, row .ne fun _ _ => rfl, row .lt fun _ _ => rfl, row .le fun _ _ => rfl,
      row .ltu fun _ _ => rfl, row .leu fun _ _ => rfl, row .gt fun _ _ => rfl, row .ge fun _ _ => rfl,
      List.forall_mem_nil _⟩

end Sys2Proof.IntegerWords
end

section
/-! Branches and jumps, and the return from a handler (04_thread_integer_control.md, R98 to R101, R106). -/

namespace Sys2Proof.Machine

open Sys2Proof

variable {s : State} {c : IssueCtx} {G : Gang}

theorem State.wordPc_eq (hc : s.ctx = some c) : s.wordPc = c.pc := by unfold State.wordPc; rw [hc]

theorem State.wordPos_eq (hc : s.ctx = some c) : s.wordPos = c.pos := by unfold State.wordPos; rw [hc]

theorem WordSpec.regsAfter_unused {w : WordSpec} (hd : w.shape.dst = .unused) (t : Thread) (r : DWord) :
    w.regsAfter t r = t.regs := by
  unfold WordSpec.regsAfter; rw [hd]; exact ite_self _

theorem WordSpec.writes_unused {w : WordSpec} (hd : w.shape.dst = .unused) : w.writes = [] := by
  unfold WordSpec.writes; rw [hd, Use.regs_unused]

/-- The law of words that may jump: a lane that has a target goes there, another goes on as its chain has it. -/
theorem WordSpec.InLanes.run_jump {w : WordSpec} {target : Nat → Option (Word × Nat)} (W : w.InLanes)
    (hcon : Roomy c G ∨ ∀ t v, (w.sym t v).con = none)
    (H : Ready s c G (w.shape.fields w.fa w.fb) w.reads w.writes)
    (hpost : ∀ l t, w.post l ((viewOf c G).thread l) (w.read c G l) t = { t with jump := (target l).or t.jump }) :
    ∃ t, s.run w = .next t ∧ Completed s t c G w.writes [] (fun l => (w.result c G l).causes) fun l old new =>
      Onward c (w.shape.fields w.fa w.fb) (w.push (w.read c G l) (w.result c G l).val) ((target l).or old.jump) old new ∧
      new.regs = w.regsAfter old (w.result c G l).val := by
  obtain ⟨t, hrun, hC⟩ := W.run (base := fun l => { G.thread l with jump := (target l).or (G.thread l).jump }) hcon H
    fun l hl =>
      { post := fun _ _ rg _ => ⟨rg, rfl, hpost _ _⟩
        queues := rfl, wait := rfl, region := rfl, going := H.issuing.going l hl }
  exact ⟨t, hrun, hC.mono fun _ _ _ h => h⟩

/-! ## Branches (R98, R99) -/

/-- A branch goes to its target in the lanes where its condition holds, and changes no register. -/
theorem branchWord_jumps {f : FmtBr} {u : Use} {k : Cmp}
    (H : Ready s c G (if u = .reg then [f.a.toNat] else []) (u.regs f.a.toNat) []) (R : Roomy c G) :
    let v := fun l => ((branchWord s f u k).read c G l).a
    ∃ t, s.run (branchWord s f u k) = .next t ∧ Completed s t c G [] [] noCauses fun l old new =>
      new.regs = old.regs ∧
      (k.eval (u == .pair) (v l) 0 = true →
        Onward c (if u = .reg then [f.a.toNat] else []) none (some (c.pc + f.off.signExtend 32, 0)) old new) ∧
      (¬k.eval (u == .pair) (v l) 0 = true → Onward c (if u = .reg then [f.a.toNat] else []) none old.jump old new) := by
  intro v
  set w := branchWord s f u k
  have W : w.InLanes := ⟨rfl, fun _ => rfl, fun _ _ _ => rfl, rfl, f.a.isLt, Nat.succ_pos 63⟩
  have hfields : w.shape.fields w.fa w.fb = if u = .reg then [f.a.toNat] else [] := List.append_nil _
  have hwrites : w.writes = [] := WordSpec.writes_unused rfl
  obtain ⟨t, hrun, hC⟩ := W.run_jump (s := s) (c := c) (G := G)
    (target := fun l => if k.eval (u == .pair) (v l) 0 then some (c.pc + f.off.signExtend 32, 0) else none) (.inl R)
    (H.for_word hfields (Shape.reads_a rfl rfl _ _ _) hwrites) fun l t => by
      show (if k.eval (u == .pair) (v l) 0 then { t with jump := some (s.wordPc + f.off.signExtend 32, 0) } else t) = _
      rw [State.wordPc_eq H.issuing.ctx]
      split <;> rfl
  rw [hwrites, hfields] at hC
  refine ⟨t, hrun, hC.mono fun l _ new ⟨hon, hregs⟩ => ⟨hregs.trans (WordSpec.regsAfter_unused rfl _ _), ?_, ?_⟩⟩
  · intro h; rw [if_pos h] at hon; exact hon
  · intro h; rw [if_neg h] at hon; exact hon

section
variable (f : FmtBr) (s : State) (c : IssueCtx) (G : Gang)

/-- The instruction branches where a single register meets this condition. -/
def BranchesWhen (p : (FmtBr → Instr) × (Word → Prop)) : Prop :=
  Ready s c G [f.a.toNat] (Use.regs .reg f.a.toNat) [] → Roomy c G →
  ∃ t, exec (p.1 f) s = .next t ∧ Completed s t c G [] [] noCauses fun l old new =>
    new.regs = old.regs ∧
    (p.2 (operand c G l [] f.a.toNat) → Onward c [f.a.toNat] none (some (c.pc + f.off.signExtend 32, 0)) old new) ∧
    (¬p.2 (operand c G l [] f.a.toNat) → Onward c [f.a.toNat] none old.jump old new)

theorem branchesWhen_of_branchWord {e : FmtBr → Instr} (k : Cmp)
    (he : ∀ f s, exec (e f) s = s.run (branchWord s f .reg k)) : BranchesWhen f s c G (e, fun a => k.Holds a 0) := by
  intro H R
  obtain ⟨t, hrun, hC⟩ := branchWord_jumps (f := f) (u := .reg) (k := k) H R
  refine ⟨t, (he f s).trans hrun, hC.mono fun l _ new ⟨hregs, hyes, hno⟩ => ?_⟩
  have hv : loOf ((branchWord s f .reg k).read c G l).a = operand c G l [] f.a.toNat := vals_a _ l rfl
  have hiff : k.eval false ((branchWord s f .reg k).read c G l).a 0 = true ↔ k.Holds (operand c G l [] f.a.toNat) 0 := by
    rw [Cmp.eval_low, hv]; rfl
  exact ⟨hregs, fun h => hyes (hiff.2 h), fun h => hno (mt hiff.1 h)⟩

/-- The instruction branches where a pair meets this condition. -/
def BranchesWhenPair (p : (FmtBr → Instr) × (DWord → Prop)) : Prop :=
  Ready s c G [] (Use.regs .pair f.a.toNat) [] → Roomy c G →
  ∃ t, exec (p.1 f) s = .next t ∧ Completed s t c G [] [] noCauses fun l old new =>
    new.regs = old.regs ∧
    (p.2 (operandPair c G l f.a.toNat) → Onward c [] none (some (c.pc + f.off.signExtend 32, 0)) old new) ∧
    (¬p.2 (operandPair c G l f.a.toNat) → Onward c [] none old.jump old new)

theorem branchesWhenPair_of_branchWord {e : FmtBr → Instr} {p : DWord → Prop} (k : Cmp)
    (he : ∀ f s, exec (e f) s = s.run (branchWord s f .pair k)) (hk : ∀ a, k.eval true a 0 = true ↔ p a) :
    BranchesWhenPair f s c G (e, p) := by
  intro H R
  obtain ⟨t, hrun, hC⟩ := branchWord_jumps (f := f) (u := .pair) (k := k) H R
  refine ⟨t, (he f s).trans hrun, hC.mono fun l _ new ⟨hregs, hyes, hno⟩ => ?_⟩
  have hv : ((branchWord s f .pair k).read c G l).a = operandPair c G l f.a.toNat := vals_a_pair _ l rfl
  have hiff : k.eval true ((branchWord s f .pair k).read c G l).a 0 = true ↔ p (operandPair c G l f.a.toNat) := by
    rw [hk, hv]
  exact ⟨hregs, fun h => hyes (hiff.2 h), fun h => hno (mt hiff.1 h)⟩

end

/-! ## Jumps (R100, R101) -/

/-- JMP goes to its target (R100). -/
theorem jmp_jumps (f : FmtJ) (H : Ready s c G [] [] []) :
    ∃ t, exec (.jmp f) s = .next t ∧ Completed s t c G [] [] noCauses fun _ old new =>
      Onward c [] none (some (c.pc + f.off.signExtend 32, 0)) old new ∧ new.regs = old.regs := by
  have W : ({ shape := { latch := false }, k := f.k
              post := fun _ _ _ t => { t with jump := some (s.wordPc + f.off.signExtend 32, 0) } } : WordSpec).InLanes :=
    ⟨rfl, fun _ => rfl, fun _ _ _ => rfl, rfl, Nat.succ_pos 63, Nat.succ_pos 63⟩
  exact W.run_jump (target := fun _ => some (c.pc + f.off.signExtend 32, 0)) (.inr fun _ _ => rfl) H fun l t => by
    rw [← State.wordPc_eq H.issuing.ctx]; rfl

/-- JAL leaves the next packet's index in v31 and goes to its target (R100). -/
theorem jal_jumps (f : FmtJ) (H : Ready s c G [] [] [31]) :
    ∃ t, exec (.jal f) s = .next t ∧ Completed s t c G [31] [] noCauses fun _ old new =>
      Onward c [] none (some (c.pc + f.off.signExtend 32, 0)) old new ∧ WroteReg old new 31 (c.pc + 1) := by
  have W : ({ shape := { dst := .reg, latch := false }, fd := 31, k := f.k
              f := fun _ _ _ => ⟨(s.wordPc + 1#32).setWidth 64, []⟩
              post := fun _ _ _ t => { t with jump := some (s.wordPc + f.off.signExtend 32, 0) } } : WordSpec).InLanes :=
    ⟨rfl, fun _ => rfl, fun _ _ _ => rfl, rfl, Nat.succ_pos 63, Nat.succ_pos 63⟩
  obtain ⟨t, hrun, hC⟩ := W.run_jump (target := fun _ => some (c.pc + f.off.signExtend 32, 0)) (.inr fun _ _ => rfl) H
    fun l t => by rw [← State.wordPc_eq H.issuing.ctx]; rfl
  refine ⟨t, hrun, hC.mono fun l _ new ⟨hon, hregs⟩ => ⟨hon, ?_⟩⟩
  have hw := regsAfter_reg rfl rfl hregs
  rw [← State.wordPc_eq H.issuing.ctx, ← loOf_setWidth (s.wordPc + 1)]
  exact hw

/-- JR goes to A (R101). -/
theorem jr_jumps (f : FmtA) (H : Ready s c G [f.a.toNat] (Use.regs .reg f.a.toNat) []) :
    let A := fun l => operand c G l [] f.a.toNat
    ∃ t, exec (.jr f) s = .next t ∧ Completed s t c G [] [] noCauses fun l old new =>
      Onward c [f.a.toNat] (pushOf f.h (A l) 0 0) (some (A l, 0)) old new ∧ new.regs = old.regs := by
  intro A
  set w : WordSpec :=
    { shape := { a := .reg }, fa := f.a.toNat, h := f.h.toNat, k := f.k
      post := fun _ _ v t => { t with jump := some (v.a32, 0) } }
  have W : w.InLanes := ⟨rfl, fun _ => rfl, fun _ _ _ => rfl, rfl, f.a.isLt, Nat.succ_pos 63⟩
  have hA : ∀ l, (w.read c G l).a32 = A l := fun l => vals_a w l rfl
  have hwrites : w.writes = [] := WordSpec.writes_unused rfl
  obtain ⟨t, hrun, hC⟩ := W.run_jump (target := fun l => some (A l, 0)) (.inr fun _ _ => rfl)
    (H.for_word rfl (Shape.reads_a rfl rfl _ _ _) hwrites) fun l t => by rw [← hA]; rfl
  rw [hwrites] at hC
  refine ⟨t, hrun, hC.mono fun l _ new ⟨hon, hregs⟩ => ⟨?_, hregs⟩⟩
  rw [WordSpec.push_of_latch (h := f.h) rfl rfl rfl, hA] at hon
  exact hon

/-- JALR leaves the next packet's index in D and goes to A, which it has read before (R101). -/
theorem jalr_jumps (f : FmtA) (H : Ready s c G [f.a.toNat] (Use.regs .reg f.a.toNat) (Use.regs .reg f.d.toNat)) :
    let A := fun l => operand c G l [] f.a.toNat
    ∃ t, exec (.jalr f) s = .next t ∧ Completed s t c G (Use.regs .reg f.d.toNat) [] noCauses fun l old new =>
      Onward c [f.a.toNat] (pushOf f.h (A l) 0 (c.pc + 1)) (some (A l, 0)) old new ∧
        WroteReg old new f.d.toNat (c.pc + 1) := by
  intro A
  set w : WordSpec :=
    { shape := { a := .reg, dst := .reg }, fd := f.d.toNat, fa := f.a.toNat, h := f.h.toNat, k := f.k
      f := fun _ _ _ => ⟨(s.wordPc + 1#32).setWidth 64, []⟩
      post := fun _ _ v t => { t with jump := some (v.a32, 0) } }
  have W : w.InLanes := ⟨rfl, fun _ => rfl, fun _ _ _ => rfl, rfl, f.a.isLt, Nat.succ_pos 63⟩
  have hA : ∀ l, (w.read c G l).a32 = A l := fun l => vals_a w l rfl
  have hr : ∀ l, loOf (w.result c G l).val = c.pc + 1 := fun l =>
    (loOf_setWidth _).trans (by rw [State.wordPc_eq H.issuing.ctx]; rfl)
  obtain ⟨t, hrun, hC⟩ := W.run_jump (target := fun l => some (A l, 0)) (.inr fun _ _ => rfl)
    (H.for_word rfl (Shape.reads_a rfl rfl _ _ _) rfl) fun l t => by rw [← hA]; rfl
  refine ⟨t, hrun, hC.mono fun l _ new ⟨hon, hregs⟩ => ⟨?_, ?_⟩⟩
  · rw [WordSpec.push_of_latch (h := f.h) rfl rfl rfl, hA, hr] at hon
    exact hon
  · rw [← hr l]; exact regsAfter_reg rfl rfl hregs

end Sys2Proof.Machine

namespace Sys2Proof.ControlWords

open Sys2Proof Sys2Proof.Machine

/-- Settles O10: each row of the branches, and the four jumps. -/
theorem branchesAndJumpsGoToTheirTarget : Obligations.BranchesAndJumpsGoToTheirTarget := by
  unfold Obligations.BranchesAndJumpsGoToTheirTarget
  refine ⟨fun f s c G => ⟨?_, ?_⟩, fun s c G => ⟨jmp_jumps, jal_jumps, jr_jumps, jalr_jumps⟩⟩
  · change ∀ p ∈ _, BranchesWhen f s c G p
    simp only [List.forall_mem_cons]
    have row := fun {e : FmtBr → Instr} => branchesWhen_of_branchWord f s c G (e := e)
    exact ⟨row .eq fun _ _ => rfl, row .ne fun _ _ => rfl, row .lt fun _ _ => rfl, row .ge fun _ _ => rfl,
      row .le fun _ _ => rfl, row .gt fun _ _ => rfl, List.forall_mem_nil _⟩
  · change ∀ p ∈ _, BranchesWhenPair f s c G p
    simp only [List.forall_mem_cons]
    exact ⟨branchesWhenPair_of_branchWord f s c G .ne (fun _ _ => rfl) fun _ => bne_iff_ne,
      branchesWhenPair_of_branchWord f s c G .eq (fun _ _ => rfl) fun _ => beq_iff_eq, List.forall_mem_nil _⟩

end Sys2Proof.ControlWords
end

section
/-! Handler entry by TRAP, BRK and an illegal word, and ERET (04_thread_integer_control.md, R105, R106, R237 to R239). -/

namespace Sys2Proof.Machine

open Sys2Proof

variable {s : State} {c : IssueCtx} {G : Gang}

/-! ## ERET (R106) -/

/-- ERET ends handler mode and goes to the resume point in the lanes that are in their handler, and does nothing in others. -/
theorem eret_returns (f : FmtA) (H : Ready s c G [] [] []) :
    ∃ t, exec (.eret f) s = .next t ∧ Completed s t c G [] [] noCauses fun l old new =>
      new.regs = old.regs ∧
      (let T := (viewOf c G).thread l
       if T.handler then Onward c [] none (some (T.trappc, T.resumePos)) { old with handler := false } new
       else Onward c [] none old.jump old new) := by
  set w : WordSpec :=
    { k := f.k, shape := { latch := false }
      post := fun _ view _ t =>
        if view.handler then { t with handler := false, jump := some (view.trappc, view.resumePos) } else t }
  have W : w.InLanes := ⟨rfl, fun _ => rfl, fun _ _ _ => rfl, rfl, Nat.succ_pos 63, Nat.succ_pos 63⟩
  obtain ⟨t, hrun, hC⟩ := W.run
    (base := fun l => w.post l ((viewOf c G).thread l) (w.read c G l) (G.thread l)) (.inr fun _ _ => rfl) H fun l hl => by
      have hgo := H.issuing.going l hl
      simp only [w]
      split <;> exact ⟨fun _ _ rg _ => ⟨rg, rfl, by simp only [*]; rfl⟩, rfl, rfl, rfl, hgo⟩
  refine ⟨t, hrun, hC.mono fun l _ new ⟨hon, hregs⟩ => ⟨hregs, ?_⟩⟩
  simp only [w] at hon ⊢
  split <;> rename_i hh
  · rw [if_pos hh] at hon; exact hon
  · rw [if_neg hh] at hon; exact hon

/-! ## Entering handlers (R237, R238) -/

/-- Handlers that can be entered at once: no lane is in its handler, each has one, and nothing of any is outstanding. -/
def EntersNow (s : State) (g : Nat) (lanes : DWord) (G : Gang) : Prop :=
  ∀ l, inLanes lanes l = true → (G.thread l).handler = false ∧ (G.thread l).trapvec ≠ 0 ∧ s.entryReady g l = true

/-- Lanes whose handlers can be entered at once enter them. -/
theorem State.enterOrEnd_enters {g : Nat} {lanes : DWord} (hG : s.gangs.find? g = some G) (h : EntersNow s g lanes G)
    (k : Cause) (pc : Word) (pos : Nat) (req : Nat → TrapReq) :
    s.enterOrEnd g lanes k pc pos req =
      (s.onLanes g lanes fun l t => t.enterHandler (req l)).invalidateL1 (coreOf g) := by
  have hno : ((laneList lanes).any fun l => (s.thread g l).handler || (s.thread g l).trapvec == 0#32) = false := by
    rw [List.any_eq_false]
    intro l hl
    obtain ⟨hh, hv, -⟩ := h l (mem_laneList.1 hl)
    rw [State.thread_eq hG, hh, Bool.false_or, beq_iff_eq]
    exact hv
  have hready : (laneList lanes).all (s.entryReady g) = true :=
    List.all_eq_true.2 fun l hl => (h l (mem_laneList.1 hl)).2.2
  unfold State.enterOrEnd State.takeTraps
  rw [hno, if_neg Bool.false_ne_true, if_pos hready]

theorem laneList_zero : laneList 0#64 = [] := by decide

theorem State.abortLanes_zero (g cause code : Nat) : s.abortLanes g 0#64 cause code = s := by
  unfold State.abortLanes
  rw [laneList_zero]
  exact State.onLanes_zero _ _ _

theorem State.entryReady_onLanes (g : Nat) (lanes : DWord) (f : Nat → Thread → Thread) (l : Nat) :
    (s.onLanes g lanes f).entryReady g l = s.entryReady g l := rfl

/-- The lanes of a gang changed, and its core's L1 tensor lines invalidated: what else stands as it did. -/
theorem onLanes_invalidateL1_frame (hG : s.gangs.find? c.gang = some G)
    (hlen : ∀ l, inLanes c.lanes l = true → l < G.threads.length) (f : Nat → Thread → Thread) :
    let t := (s.onLanes c.gang c.lanes f).invalidateL1 (coreOf c.gang)
    t = { s with gangs := t.gangs, l1 := (s.invalidateL1 (coreOf c.gang)).l1 } ∧
    (∀ g, g ≠ c.gang → t.gangs.find? g = s.gangs.find? g) ∧
    (∃ G', t.gangs.find? c.gang = some G' ∧ G' = { G with threads := G'.threads }) ∧
    (∀ l, inLanes c.lanes l = false → t.thread c.gang l = G.thread l) ∧
    ∀ l, inLanes c.lanes l = true → t.thread c.gang l = f l (G.thread l) := by
  intro t
  have hG' : t.gangs.find? c.gang = some (G.onLanes c.lanes f) := State.onLanes_find hG c.lanes f
  refine ⟨rfl, fun g hg => ?_, ⟨_, hG', rfl⟩, fun l hl => ?_, fun l hl => ?_⟩
  · show (s.gangs.modify c.gang _).find? g = _
    rw [SMap.find?_modify, if_neg hg]
  · rw [State.thread_eq hG', Gang.thread_onLanes_out _ _ _ _ hl]
  · rw [State.thread_eq hG', Gang.thread_onLanes _ _ _ _ (hlen l hl), hl, if_pos rfl]

/-! ## An illegal word (R54) -/

/-- A cause of a word's own lanes other than TRANSLATION, outside regions, enters their handlers at the word's place. -/
theorem State.takeCause_enters {k : Cause} (hG : s.gangs.find? c.gang = some G) (hk : k.code ≠ 2) (O : Outside c G)
    (h : EntersNow s c.gang c.lanes G) :
    s.takeCause c k =
      (s.onLanes c.gang c.lanes fun _ t => t.enterHandler ⟨k.code, c.pc, c.first, k.lo, k.hi, false, 0⟩).invalidateL1
        (coreOf c.gang) := by
  unfold State.takeCause
  simp only [if_neg hk, regionLanes_zero hG O, State.abortLanes_zero, inLanes_zero, Bool.false_eq_true, if_false]
  exact State.enterOrEnd_enters hG h _ _ _ _

theorem illegalWord_raises (w : Word) (I : Issuing s c G) :
    exec (.illegalWord w) s = .next (s.raise c ⟨1, w, BitVec.ofNat 32 c.pos, c.lanes, 0⟩) := by
  rw [show exec (.illegalWord w) s = execIllegalWord w s from rfl]
  unfold execIllegalWord State.word
  simp only [I.ctx, I.gang]

/-! ## TRAP and BRK (R105) -/

/-- A word without results, causes or other effect on its gang leaves what its lanes' steps leave, and retires. -/
theorem State.regEffect_quiet {w : WordSpec} {view : Gang} (hG : s.gangs.find? c.gang = some G) (hn : c.lanes ≠ 0#64)
    (W : w.InLanes) (hd : w.shape.dst = .unused) (hcause : ∀ l t v, (w.f l t v).causes = []) :
    s.regEffect c view w =
      (s.onLanes c.gang c.lanes fun l t => w.laneStep c.rest l (view.thread l) t).retire c c.lanes (parks w.k) := by
  have hpend : ∀ sn, w.pendings c.gang view G c.lanes sn = [] := fun sn => by
    unfold WordSpec.pendings; rw [W.late]; rfl
  have hcauses : w.causes view G c.lanes = [] := by
    unfold WordSpec.causes
    rw [List.filterMap_eq_nil_iff]
    intro l _; rw [hcause]
  have hlog : ∀ (a : State) (pc : Word), a.logCauses c.gang view pc [] = a := fun a pc => by
    rw [logCauses_eq]; exact a.withLogs_nil _
  have hcure : ∀ a : State, a.cureRegs c.gang c.lanes [] = a := fun a => by
    unfold State.cureRegs
    split
    · rfl
    · rw [List.filter_eq_self.2 fun d _ => by cases d <;> simp]
  have hops : ((laneList c.lanes).flatMap fun _ => ([] : List (Nat × MaskOp))) = [] :=
    List.flatMap_eq_nil_iff.2 fun _ _ => rfl
  unfold State.regEffect
  simp only [if_neg hn, hG, W.gang, W.ops, List.map_nil, hops, hpend, hcauses, hlog, W.late, Bool.false_eq_true,
    if_false, WordSpec.writes_unused hd, hcure, List.append_nil]
  rfl

/-- The software traps of lanes of which each has one to take (R105). -/
theorem State.swTraps_eq {r : Nat → TrapReq} (hG : s.gangs.find? c.gang = some G)
    (h : ∀ l, inLanes c.lanes l = true → (G.thread l).exiting = false ∧ (G.thread l).swTrap = some (r l)) :
    s.swTraps c c.lanes =
      (laneList c.lanes).map fun l => (l, { r l with pc := ((G.thread l).jump.getD (c.pc + 1#32, 0)).1 }) := by
  unfold State.swTraps
  rw [← List.filterMap_eq_map]
  refine List.filterMap_congr fun l hl => ?_
  obtain ⟨hexit, htrap⟩ := h l (mem_laneList.1 hl)
  simp only [State.thread_eq hG, hexit, htrap, Bool.false_eq_true, if_false, Option.map_some, Function.comp_apply]

/-- A list of lanes with their traps holds a lane's own. -/
theorem find?_lane_map {α : Type} (ls : List Nat) (R : Nat → α) {l : Nat} (h : l ∈ ls) :
    ((ls.map fun l => (l, R l)).find? fun e => e.1 == l) = some (l, R l) := by
  induction ls with
  | nil => cases h
  | cons a t ih =>
    rw [List.map_cons, List.find?_cons]
    by_cases ha : a = l
    · subst ha; rw [beq_self_eq_true]
    · rw [beq_eq_false_iff_ne.2 ha]
      exact ih ((List.mem_cons.1 h).resolve_left (Ne.symm ha))

/-- Lanes outside regions that take their software traps enter their handlers. -/
theorem State.takeSwTraps_enters {R : Nat → TrapReq} (hG : s.gangs.find? c.gang = some G) (hn : c.lanes ≠ 0#64)
    (hlen : ∀ l, inLanes c.lanes l = true → l < G.threads.length) (O : Outside c G) (h : EntersNow s c.gang c.lanes G) :
    s.takeSwTraps c ((laneList c.lanes).map fun l => (l, R l)) =
      (s.onLanes c.gang c.lanes fun l t => ({ t with swTrap := none }).enterHandler (R l)).invalidateL1
        (coreOf c.gang) := by
  have hlanes : laneSet (((laneList c.lanes).map fun l => (l, R l)).map (·.1)) = c.lanes := by
    rw [List.map_map]
    exact (congrArg laneSet (List.map_id _)).trans (laneSet_laneList _)
  set s1 := s.onLanes c.gang c.lanes fun _ t => { t with swTrap := none } with hs1
  have hG1 : s1.gangs.find? c.gang = some (G.onLanes c.lanes fun _ t => { t with swTrap := none }) :=
    State.onLanes_find hG _ _
  have h1 : EntersNow s1 c.gang c.lanes (G.onLanes c.lanes fun _ t => { t with swTrap := none }) := fun l hl => by
    rw [Gang.thread_onLanes _ _ _ _ (hlen l hl), hl, hs1, State.entryReady_onLanes]
    exact h l hl
  unfold State.takeSwTraps
  split
  · rename_i hnil
    exact absurd (List.map_eq_nil_iff.1 hnil) (laneList_ne_nil hn)
  · simp only [hlanes, regionLanes_zero hG O, State.abortLanes_zero, inLanes_zero, Bool.false_eq_true, if_false, ← hs1]
    rw [State.enterOrEnd_enters hG1 h1, hs1, State.onLanes_onLanes, BitVec.or_self]
    refine congrArg (State.invalidateL1 · (coreOf c.gang)) (State.onLanes_congr _ _ _ fun G' _ l _ hl => ?_)
    simp only [hl, if_true, find?_lane_map _ R (mem_laneList.2 hl), Option.map_some, Option.getD_some]

/-- The thread of a lane after a software trap of its chain has been taken (R105). -/
def Thread.softTrapped (c : IssueCtx) (r : TrapReq) (t : Thread) : Thread :=
  ({ t with swTrap := none, park := false }).enterHandler { r with pc := (t.jump.getD (c.pc + 1#32, 0)).1 }

theorem State.onLanes_id (g : Nat) (lanes : DWord) : s.onLanes g lanes (fun _ t => t) = s := by
  unfold State.onLanes State.onGang
  rw [SMap.modify_id]
  intro G' _
  unfold Gang.onLanes
  simp only [ite_self, mapNumbered_id]

theorem outstandingL_of_entryReady {g l : Nat} (h : s.entryReady g l = true) : s.outstandingL g l = false := by
  unfold State.entryReady at h
  simp only [Bool.and_eq_true, Bool.not_eq_true'] at h
  exact h.1.1

/-- A thread outside a region with nothing outstanding that goes on and takes its software trap. -/
theorem Thread.gone_enterHandler (t : Thread) (park : Bool) (sn : Nat) (r : TrapReq) (hr : t.region = none) :
    ({ (if park then { t with park := true } else t).gone c sn false with swTrap := none }).enterHandler
        { r with pc := ((if park then { t with park := true } else t).jump.getD (c.pc + 1#32, 0)).1 } =
      t.softTrapped c r := by
  unfold Thread.softTrapped Thread.gone Thread.goTo Thread.enterHandler
  cases park <;> simp only [hr, Bool.and_false, if_true, Bool.false_eq_true, if_false, Option.map_none]

/-- Lanes that leave the last word of their chain with software traps to take enter their handlers. -/
theorem State.retire_traps {r : Nat → TrapReq} (hG : s.gangs.find? c.gang = some G) (hn : c.lanes ≠ 0#64)
    (hlen : ∀ l, inLanes c.lanes l = true → l < G.threads.length) (O : Outside c G) (h : EntersNow s c.gang c.lanes G)
    (hrest : c.rest = 0)
    (htrap : ∀ l, inLanes c.lanes l = true → (G.thread l).exiting = false ∧ (G.thread l).swTrap = some (r l))
    (park : Bool) :
    s.retire c c.lanes park =
      (s.onLanes c.gang c.lanes fun l t => t.softTrapped c (r l)).invalidateL1 (coreOf c.gang) := by
  set p : Thread → Thread := fun t => if park then { t with park := true } else t with hp
  set s1 := s.onLanes c.gang c.lanes fun _ t => p t with hs1
  set G1 := G.onLanes c.lanes fun _ t => p t with hG1
  set q : Nat → Thread → Thread := fun l t => t.gone c s1.sn (s1.outstandingL c.gang l) with hq
  have hpark : (if park then s.onLanes c.gang c.lanes fun _ t => { t with park := true } else s) = s1 := by
    cases park
    · exact (s.onLanes_id c.gang c.lanes).symm
    · rfl
  have hfind1 : s1.gangs.find? c.gang = some G1 := State.onLanes_find hG _ _
  have hth1 : ∀ l, inLanes c.lanes l = true → G1.thread l = p (G.thread l) := fun l hl => by
    rw [hG1, Gang.thread_onLanes _ _ _ _ (hlen l hl), hl, if_pos rfl]
  have hlen1 : ∀ l, inLanes c.lanes l = true → l < G1.threads.length := fun l hl => by
    rw [hG1, Gang.onLanes_length]; exact hlen l hl
  have hgo1 : ∀ l, inLanes c.lanes l = true → (G1.thread l).exiting = false ∧ (G1.thread l).swTrap = some (r l) :=
    fun l hl => by rw [hth1 l hl, hp]; cases park <;> exact htrap l hl
  have hfind2 : (s1.onLanes c.gang c.lanes q).gangs.find? c.gang = some (G1.onLanes c.lanes q) :=
    State.onLanes_find hfind1 _ _
  have hth2 : ∀ l, inLanes c.lanes l = true → (G1.onLanes c.lanes q).thread l = q l (p (G.thread l)) := fun l hl => by
    rw [Gang.thread_onLanes _ _ _ _ (hlen1 l hl), hl, if_pos rfl, hth1 l hl]
  have O2 : Outside c (G1.onLanes c.lanes q) := fun l hl => by
    rw [hth2 l hl]
    simp only [hq, hp, Thread.gone, Thread.goTo, Option.map_eq_none_iff]
    cases park <;> exact O l hl
  have h2 : EntersNow (s1.onLanes c.gang c.lanes q) c.gang c.lanes (G1.onLanes c.lanes q) := fun l hl => by
    rw [hth2 l hl, State.entryReady_onLanes, hs1, State.entryReady_onLanes]
    simp only [hq, hp, Thread.gone, Thread.goTo]
    cases park <;> exact h l hl
  unfold State.retire
  simp only [hpark, if_pos hrest]
  rw [State.swTraps_eq hfind1 hgo1, State.foldl_advance _ (laneList_nodup _) s1 hfind1 fun l hl =>
      ⟨inLanes_lt (mem_laneList.1 hl), hlen1 l (mem_laneList.1 hl), (hgo1 l (mem_laneList.1 hl)).1⟩,
    laneSet_laneList, State.takeSwTraps_enters hfind2 hn (fun l hl => by rw [Gang.onLanes_length]; exact hlen1 l hl) O2 h2,
    hs1, State.onLanes_onLanes, State.onLanes_onLanes, BitVec.or_self, BitVec.or_self]
  refine congrArg (State.invalidateL1 · (coreOf c.gang)) (State.onLanes_congr _ _ _ fun G' hG' l _ hl => ?_)
  obtain rfl : G = G' := Option.some.inj (hG.symm.trans hG')
  simp only [hl, if_true, hth1 l hl, hq]
  rw [show s1.outstandingL c.gang l = false from outstandingL_of_entryReady (h l hl).2.2]
  exact Thread.gone_enterHandler _ park _ _ (O l hl)

/-- The software trap that a TRAP or BRK raises where it stands (R105). -/
def swTrapOf (c : IssueCtx) (cause : Nat) (f : FmtA) : TrapReq :=
  ⟨cause, 0, 0, f.b.setWidth 32, BitVec.ofNat 32 c.pos, false, 0⟩

theorem softTrap_laneStep (hc : s.ctx = some c) (cause : Nat) (f : FmtA) {view t : Thread} (rest l : Nat)
    (hr : t.region = none) (hs : t.swTrap = none) :
    (softTrap s cause f).laneStep rest l view t = { t.ageLatch with swTrap := some (swTrapOf c cause f) } := by
  have hstep : ∃ F, (softTrap s cause f).laneStep rest l view t =
      ((softTrap s cause f).post l view ((softTrap s cause f).vals view t)
        ((t.onRegion F).unmark (softTrap s cause f).writes)).ageLatch := ⟨_, rfl⟩
  obtain ⟨F, hF⟩ := hstep
  have hunmark : t.unmark (softTrap s cause f).writes = t := Thread.onRegion_none hr _
  rw [hF, Thread.onRegion_none hr, hunmark]
  simp only [softTrap, hs, State.wordPos_eq hc]
  rfl

/-- TRAP or BRK, the last of its chain and outside regions, where handlers can be entered at once. -/
theorem softTrap_enters {f : FmtA} {cause : Nat} (H : Ready s c G [] [] []) (O : Outside c G) (hrest : c.rest = 0)
    (h : EntersNow s c.gang c.lanes G) :
    s.run (softTrap s cause f) =
      .next ((s.onLanes c.gang c.lanes fun _ t => t.softTrapped c (swTrapOf c cause f)).invalidateL1 (coreOf c.gang)) := by
  obtain ⟨I, hread, hfed, -⟩ := H
  set w := softTrap s cause f
  set G1 := G.onLanes c.lanes fun l t => w.laneStep c.rest l ((viewOf c G).thread l) t with hG1
  have W : w.InLanes := ⟨rfl, fun _ => rfl, fun _ _ _ => rfl, rfl, Nat.succ_pos 63, Nat.succ_pos 63⟩
  have hreads : w.reads = [] := by
    show w.shape.reads _ _ _ = []
    rw [Shape.reads_a rfl rfl]; exact Use.regs_unused _
  have hstep : ∀ l, inLanes c.lanes l = true → w.laneStep c.rest l ((viewOf c G).thread l) (G.thread l) =
      { (G.thread l).ageLatch with swTrap := some (swTrapOf c cause f) } := fun l hl =>
    softTrap_laneStep I.ctx cause f c.rest l (O l hl) (I.going l hl).2
  have hth1 : ∀ l, inLanes c.lanes l = true →
      G1.thread l = { (G.thread l).ageLatch with swTrap := some (swTrapOf c cause f) } := fun l hl => by
    rw [hG1, Gang.thread_onLanes _ _ _ _ (I.lanes l hl), hl, if_pos rfl, hstep l hl]
  have hfed0 : (s.onLanes c.gang c.lanes fun _ t => t.fedFor []) = s := s.onLanes_id c.gang c.lanes
  rw [State.run_plain I (by rwa [hreads, WordSpec.writes_unused rfl]) W.fa W.fb hfed (.inl O)]
  show Host.Outcome.next ((s.onLanes c.gang c.lanes fun _ t => t.fedFor []).regEffect c (viewOf c G) w) = _
  rw [hfed0, State.regEffect_quiet I.gang I.some W rfl fun _ _ _ => rfl,
    State.retire_traps (r := fun _ => swTrapOf c cause f) (State.onLanes_find I.gang _ _) I.some
      (fun l hl => by rw [Gang.onLanes_length]; exact I.lanes l hl)
      (fun l hl => by rw [← hG1, hth1 l hl]; exact O l hl)
      (fun l hl => by rw [← hG1, hth1 l hl]; exact h l hl) hrest
      (fun l hl => by rw [← hG1, hth1 l hl]; exact ⟨(I.going l hl).1, rfl⟩),
    State.onLanes_onLanes, BitVec.or_self]
  refine congrArg (fun a : State => Host.Outcome.next (a.invalidateL1 (coreOf c.gang)))
    (State.onLanes_congr _ _ _ fun G' hG' l _ hl => ?_)
  obtain rfl : G = G' := Option.some.inj (I.gang.symm.trans hG')
  simp only [hl, if_true, hstep l hl]
  rfl

/-- The instruction, last in its chain, enters the handlers of its lanes with this cause (R105). -/
def EntersWithCause (p : (FmtA → Instr) × Word) : Prop :=
  ∀ (f : FmtA) (s : State) (c : IssueCtx) (G : Gang), Ready s c G [] [] [] → Outside c G → c.rest = 0 →
    EntersNow s c.gang c.lanes G →
    ∃ t G', exec (p.1 f) s = .next t ∧
      t = { s with gangs := t.gangs, l1 := (s.invalidateL1 (coreOf c.gang)).l1 } ∧
      (∀ g, g ≠ c.gang → t.gangs.find? g = s.gangs.find? g) ∧ t.gangs.find? c.gang = some G' ∧
      G' = { G with threads := G'.threads } ∧
      (∀ l, inLanes c.lanes l = false → t.thread c.gang l = G.thread l) ∧
      ∀ l, inLanes c.lanes l = true → t.thread c.gang l =
        { G.thread l with
          trapcause := p.2, trappc := ((G.thread l).jump.getD (c.pc + 1, 0)).1, resumePos := 0
          trapLo := f.b.setWidth 32, trapHi := BitVec.ofNat 32 c.pos, handler := true
          pc := (G.thread l).trapvec, pos := 0, latch := [], park := false
          trap := none, wait := none, grant := none, fence := none, jump := none, issued := none, held := [] }

theorem entersWithCause_of_softTrap {e : FmtA → Instr} (cause : Nat)
    (he : ∀ f s, exec (e f) s = s.run (softTrap s cause f)) : EntersWithCause (e, BitVec.ofNat 32 cause) := by
  intro f s c G H O hrest h
  obtain ⟨hstate, hothers, ⟨G', hG', hgang⟩, hout, hin⟩ :=
    onLanes_invalidateL1_frame H.issuing.gang H.issuing.lanes fun _ t => t.softTrapped c (swTrapOf c cause f)
  refine ⟨_, G', (he f s).trans (softTrap_enters H O hrest h), hstate, hothers, hG', hgang, hout, fun l hl => ?_⟩
  rw [hin l hl]
  simp only [Thread.softTrapped, Thread.enterHandler, (H.issuing.going l hl).2]
  rfl

end Sys2Proof.Machine

namespace Sys2Proof.ControlWords

open Sys2Proof Sys2Proof.Machine

/-- Settles O14: TRAP and BRK, ERET, and the illegal word, alone and chained. -/
theorem trapsEnterTheHandlerAndEretReturns : Obligations.TrapsEnterTheHandlerAndEretReturns := by
  unfold Obligations.TrapsEnterTheHandlerAndEretReturns
  refine ⟨?_, fun f s c G H => eret_returns f H, fun w s c G I O => ⟨fun hch h => ?_, fun hch => ?_⟩⟩
  · change ∀ p ∈ _, EntersWithCause p
    simp only [List.forall_mem_cons]
    exact ⟨entersWithCause_of_softTrap 0x10 fun _ _ => rfl, entersWithCause_of_softTrap 0x11 fun _ _ => rfl,
      List.forall_mem_nil _⟩
  · obtain ⟨-, hothers, ⟨G', hG', hgang⟩, hout, hin⟩ := onLanes_invalidateL1_frame I.gang I.lanes
      fun _ t => t.enterHandler ⟨1, c.pc, c.first, w, BitVec.ofNat 32 c.pos, false, 0⟩
    refine ⟨_, G', illegalWord_raises w I, ?_⟩
    unfold State.raise
    rw [if_neg (by rw [hch]; exact Bool.false_ne_true), State.takeCause_enters I.gang (show (1 : Nat) ≠ 2 by decide) O h]
    exact ⟨rfl, hothers, hG', hgang, hout, hin⟩
  · rw [illegalWord_raises w I]
    unfold State.raise
    rw [if_pos hch]

end Sys2Proof.ControlWords
end

section
/-! SUPPORT. The statements' own relations: what a completed word's causes depend on, and what going on leaves alone. -/

namespace Sys2Proof

open Sys2Proof.Machine

variable {s : State} {c : IssueCtx} {G : Gang}

/-- The records of a word's causes depend on its own lanes' causes. -/
theorem logItems_congr {causes causes' : Nat → List Nat} (h : ∀ l, inLanes c.lanes l = true → causes l = causes' l)
    (sn : Nat) :
    logItems c G sn causes = logItems c G sn causes' := by
  unfold logItems
  have hcode : ∀ code, ((laneList c.lanes).filter fun l => (causes l).contains code) =
      (laneList c.lanes).filter fun l => (causes' l).contains code := fun code =>
    List.filter_congr fun l hl => by rw [h l (mem_laneList.1 hl)]
  simp only [hcode]

theorem Completed.of_causes {t : State} {writes : List Nat} {pend : List Pending} {causes causes' : Nat → List Nat}
    {lane : Nat → Thread → Thread → Prop} (C : Completed s t c G writes pend causes lane)
    (h : ∀ l, inLanes c.lanes l = true → causes l = causes' l) : Completed s t c G writes pend causes' lane := by
  obtain ⟨hstate, hothers, hgang, hout, hin⟩ := C
  rw [logItems_congr h] at hstate hgang
  exact ⟨hstate, hothers, hgang, hout, hin⟩

theorem Onward.going {fields : List Nat} {push : Option Word} {jump : Option (Word × Nat)} {old new : Thread}
    (h : Onward c fields push jump old new) : new.exiting = old.exiting ∧ new.swTrap = old.swTrap :=
  ⟨(congrArg Thread.exiting h.1 :), (congrArg Thread.swTrap h.1 :)⟩

end Sys2Proof
end

section
/-! SUPPORT. The laws of blocking words (R18, R25): what one leaves where every lane has its answer, and where none has. -/

namespace Sys2Proof.Machine

open Sys2Proof

variable {s : State} {c : IssueCtx} {G : Gang}

/-! ## The end of a lane's wait changes nothing else of its word -/

theorem Thread.answer_fedFor (fields : List Nat) (t : Thread) (pos : Nat) : (t.fedFor fields).answer pos = t.answer pos := by
  rw [Thread.fedFor_eq]; rfl

theorem Thread.completeIn_queues (t : Thread) (pos : Nat) (ch : Bool) (v : DWord) :
    (t.completeIn pos ch v).queues = t.queues := by
  unfold Thread.completeIn; split <;> rfl

theorem Thread.completeIn_setQueues (t : Thread) (pos : Nat) (ch : Bool) (v : DWord) (qs : List (List QEntry)) :
    ({ t with queues := qs } : Thread).completeIn pos ch v = { t.completeIn pos ch v with queues := qs } := by
  unfold Thread.completeIn; split <;> rfl

theorem Thread.completeIn_onRegion (t : Thread) (pos : Nat) (ch : Bool) (v : DWord) (f : Region → Region) :
    (t.onRegion f).completeIn pos ch v = (t.completeIn pos ch v).onRegion f := by
  unfold Thread.onRegion Thread.completeIn; split <;> rfl

theorem Thread.completeIn_setReg (t : Thread) (pos : Nat) (ch : Bool) (v : DWord) (r : Nat) (x : Word) :
    (t.setReg r x).completeIn pos ch v = (t.completeIn pos ch v).setReg r x := by
  unfold Thread.setReg
  split
  · rfl
  · unfold Thread.completeIn; split <;> rfl

theorem Thread.completeIn_writeDest (t : Thread) (pos : Nat) (ch : Bool) (v : DWord) (u : Use) (e : Nat) (x : DWord) :
    (t.writeDest u e x).completeIn pos ch v = (t.completeIn pos ch v).writeDest u e x := by
  unfold Thread.writeDest
  split
  · rfl
  · exact t.completeIn_setReg pos ch v _ _
  · split
    · rfl
    · rw [Thread.completeIn_setReg, Thread.completeIn_setReg]

theorem Thread.completeIn_setMark (t : Thread) (pos : Nat) (ch : Bool) (v : DWord) (u : Use) (e : Nat) (m : Option Mark) :
    (t.setMark u e m).completeIn pos ch v = (t.completeIn pos ch v).setMark u e m := by
  unfold Thread.setMark
  split
  · rfl
  · split
    · rfl
    · exact t.completeIn_onRegion pos ch v _

theorem WordSpec.completeIn_deliver (w : WordSpec) (t : Thread) (pos : Nat) (ch : Bool) (v r : DWord) (m : Option Mark) :
    (w.deliver t r m).completeIn pos ch v = w.deliver (t.completeIn pos ch v) r m := by
  unfold WordSpec.deliver
  split
  · rfl
  · rw [Thread.completeIn_setMark, Thread.completeIn_writeDest]
    unfold Thread.unmark
    rw [Thread.completeIn_onRegion]

theorem Shape.completeIn_readLane (sh : Shape) (fd fa fb : Nat) (view t : Thread) (pos : Nat) (ch : Bool) (v : DWord) :
    sh.readLane fd fa fb view (t.completeIn pos ch v) =
      ((sh.readLane fd fa fb view t).1, (sh.readLane fd fa fb view t).2.completeIn pos ch v) := by
  refine Prod.ext (readLane_congr sh fd fa fb view (t.completeIn_queues pos ch v)).1 ?_
  have hread : ∀ u : Thread, (sh.readLane fd fa fb view u).2 = { u with queues := popped (sh.fields fa fb) u.queues } :=
    fun u => by rw [readLane_onward, readLane_queues]
  rw [hread, hread, Thread.completeIn_setQueues _ _ _ _ (popped _ _), Thread.completeIn_queues]

/-! ## What a blocking word is where it runs -/

/-- A class-F blocking word that does nothing beside its result. -/
structure WordSpec.Blocks (w : WordSpec) : Prop where
  gang : ∀ G, w.gang G = G
  ops : ∀ l t v, w.ops l t v = []
  post : ∀ l t v u, w.post l t v u = u
  late : w.shape.classL = false
  fa : w.fa < 64
  fb : w.fb < 64

/-- The value with which a lane of a blocking word completes, if it does: the answer that it has had, or the one it finds. -/
def WordSpec.valueIn (w : WordSpec) (c : IssueCtx) (G : Gang) (answer : Nat → Thread → Vals → Option DWord) (l : Nat) :
    Option DWord :=
  (answerOf c G l).or (answer l ((viewOf c G).thread l) (w.read c G l))

/-- The word with these results, and further causes that come of them. -/
def WordSpec.giving (w : WordSpec) (val : Nat → DWord) (causesOf : Thread → DWord → List Nat) : WordSpec :=
  { w with f := fun l t v => ⟨val l, (w.f l t v).causes ++ causesOf t (val l)⟩ }

/-- The context of a blocking word that goes on in these of its lanes and blocks the others. -/
def IssueCtx.after (c : IssueCtx) (done : DWord) : IssueCtx :=
  { c with blocked := c.blocked ||| (c.lanes &&& ~~~done), lanes := done }

theorem thread_fed (I : Issuing s c G) (fields : List Nat) (l : Nat) :
    (s.onLanes c.gang c.lanes fun _ t => t.fedFor fields).thread c.gang l =
      if inLanes c.lanes l then (G.thread l).fedFor fields else G.thread l := by
  cases h : inLanes c.lanes l with
  | true => rw [State.thread_onLanes I.gang _ _ _ (I.lanes l h), h]
  | false => rw [State.onLanes_thread_out _ _ _ _ h, State.thread_eq I.gang]; rfl

/-- What a blocking word does where no queue is short: the lanes that have a value complete with it, the others block (R25). -/
def State.blockOn (s : State) (c : IssueCtx) (view : Gang) (w : WordSpec) (waitFor : Nat → Thread → Vals → Wait)
    (causesOf : Thread → DWord → List Nat) (val : Nat → Option DWord) : State :=
  let done := laneSet ((laneList c.lanes).filter fun l => (val l).isSome)
  let s1 := s.onLanes c.gang (c.lanes &&& ~~~done) fun l t =>
    t.waitIn c.pos (waitFor l (view.thread l) (w.vals (view.thread l) t))
  let s2 := s1.onLanes c.gang done fun l t => t.completeIn c.pos c.chained ((val l).getD 0)
  ({ s2 with ctx := some (c.after done) } : State).regEffect (c.after done) view (w.giving (fun l => (val l).getD 0) causesOf)

/-- A blocking word that can run does so on the values that its lanes have. -/
theorem State.runBlocking_eq {w : WordSpec} (W : w.Blocks) (H : Ready s c G (w.shape.fields w.fa w.fb) w.reads w.writes)
    (S : Stays c G w) (answer : Nat → Thread → Vals → Option DWord) (waitFor : Nat → Thread → Vals → Wait)
    (causesOf : Thread → DWord → List Nat) :
    s.runBlocking w answer waitFor causesOf =
      .next ((s.onLanes c.gang c.lanes fun _ t => t.fedFor (w.shape.fields w.fa w.fb)).blockOn c (viewOf c G) w waitFor causesOf
        (w.valueIn c G answer)) := by
  set u := s.onLanes c.gang c.lanes fun _ t => t.fedFor (w.shape.fields w.fa w.fb) with hu
  have hanswer : ∀ l, (u.thread c.gang l).answer c.pos = answerOf c G l := fun l => by
    rw [hu, thread_fed H.issuing]; split
    · exact Thread.answer_fedFor _ _ _
    · rfl
  have hread : ∀ l, w.vals ((viewOf c G).thread l) (u.thread c.gang l) = w.read c G l := fun l => by
    rw [hu, thread_fed H.issuing]; split
    · exact vals_fed w _ _ _
    · rfl
  have hval : ∀ l, (match (u.thread c.gang l).answer c.pos with
      | some v => some v
      | none => answer l ((viewOf c G).thread l) (w.vals ((viewOf c G).thread l) (u.thread c.gang l))) =
      w.valueIn c G answer l := fun l => by
    rw [hanswer, hread]; unfold WordSpec.valueIn
    cases answerOf c G l <;> rfl
  unfold State.runBlocking State.word
  simp only [H.issuing.ctx, H.issuing.gang]
  rw [show c.pre.getD G = viewOf c G from rfl, tested_eq H.readable.block H.readable.clean]
  simp only [regionOut_zero H.issuing.gang S, State.screenLanes, if_true]
  rw [admit_eq W.fa W.fb H.issuing.ctx H.issuing.gang H.fed]
  exact congrArg (fun val => Host.Outcome.next (u.blockOn c (viewOf c G) w waitFor causesOf val)) (funext hval)

/-! ## Where every lane has its answer -/

/-- The register word that a blocking word is in lanes that have these values: each is its lane's result, and its lane's wait
ends. -/
def WordSpec.answered (w : WordSpec) (c : IssueCtx) (val : Nat → DWord) (causesOf : Thread → DWord → List Nat) : WordSpec :=
  { w.giving val causesOf with post := fun l _ _ t => t.completeIn c.pos c.chained (val l) }

theorem WordSpec.vals_completeIn (w : WordSpec) (view t : Thread) (pos : Nat) (ch : Bool) (v : DWord) :
    w.vals view (t.completeIn pos ch v) = w.vals view t := by
  unfold WordSpec.vals; rw [Shape.completeIn_readLane]

/-- It makes no difference to a lane when in its step its wait ends. -/
theorem WordSpec.laneStep_answered {w : WordSpec} (hpost : ∀ l t v u, w.post l t v u = u) (val : Nat → DWord)
    (causesOf : Thread → DWord → List Nat) (rest l : Nat) (view cur : Thread) :
    (w.answered c val causesOf).laneStep rest l view cur =
      (w.giving val causesOf).laneStep rest l view (cur.completeIn c.pos c.chained (val l)) := by
  have hpost' : ∀ l t v u, (w.giving val causesOf).post l t v u = u := hpost
  have hvals : (w.giving val causesOf).vals view (cur.completeIn c.pos c.chained (val l)) =
      (w.giving val causesOf).vals view cur := WordSpec.vals_completeIn _ _ _ _ _ _
  rw [WordSpec.laneStep_eq, WordSpec.laneStep_eq]
  simp only [hpost', hvals, Shape.completeIn_readLane, ← Thread.completeIn_onRegion, ← WordSpec.completeIn_deliver]
  rfl

theorem and_not_lanes (lanes : DWord) : lanes &&& ~~~lanes = 0#64 := BitVec.and_not_self _

theorem IssueCtx.after_lanes (c : IssueCtx) : c.after c.lanes = c := by
  unfold IssueCtx.after
  rw [and_not_lanes, BitVec.or_zero]

theorem and_not_none (lanes : DWord) : lanes &&& ~~~0#64 = lanes := by rw [BitVec.not_zero, BitVec.and_allOnes]

theorem IssueCtx.after_none (c : IssueCtx) : c.after 0#64 = { c with lanes := 0, blocked := c.blocked ||| c.lanes } := by
  unfold IssueCtx.after
  rw [and_not_none]
  rfl

theorem State.withCtx_self (h : s.ctx = some c) : ({ s with ctx := some c } : State) = s := by rw [← h]

/-- What a class-F word with no effect on its gang or its masks does: its lanes' steps, its causes, and its retirement. -/
theorem State.regEffect_classF {w : WordSpec} (hG : s.gangs.find? c.gang = some G) (hn : c.lanes ≠ 0#64) (view : Gang)
    (hgang : ∀ G, w.gang G = G) (hops : ∀ l t v, w.ops l t v = []) (hL : w.shape.classL = false) :
    s.regEffect c view w =
      (((s.onLanes c.gang c.lanes fun l t => w.laneStep c.rest l (view.thread l) t).logCauses c.gang view c.pc
        (w.causes view G c.lanes)).cureRegs c.gang c.lanes w.writes).retire c c.lanes (parks w.k) := by
  have hpend : ∀ sn, w.pendings c.gang view G c.lanes sn = [] := fun sn => by
    unfold WordSpec.pendings; rw [hL]; rfl
  have hflat : ((laneList c.lanes).flatMap fun _ => ([] : List (Nat × MaskOp))) = [] :=
    List.flatMap_eq_nil_iff.2 fun _ _ => rfl
  unfold State.regEffect
  simp only [if_neg hn, hG, hgang, hops, List.map_nil, hflat, hpend, hL, Bool.false_eq_true, if_false, List.append_nil]
  rfl

/-- Where every lane has a value, the blocking word is the register word of these values. -/
theorem State.blockOn_answered {w : WordSpec} (W : w.Blocks) (hctx : s.ctx = some c) (hG : s.gangs.find? c.gang = some G)
    (hn : c.lanes ≠ 0#64) (hlen : ∀ l, inLanes c.lanes l = true → l < G.threads.length) (view : Gang)
    (waitFor : Nat → Thread → Vals → Wait) (causesOf : Thread → DWord → List Nat) {val : Nat → Option DWord}
    (hval : ∀ l, inLanes c.lanes l = true → (val l).isSome = true) :
    s.blockOn c view w waitFor causesOf val = s.regEffect c view (w.answered c (fun l => (val l).getD 0) causesOf) := by
  set r : Nat → DWord := fun l => (val l).getD 0 with hr
  set e : Nat → Thread → Thread := fun l t => t.completeIn c.pos c.chained (r l) with he
  have hGe : (s.onLanes c.gang c.lanes e).gangs.find? c.gang = some (G.onLanes c.lanes e) := State.onLanes_find hG _ _
  have hblock : s.blockOn c view w waitFor causesOf val =
      (s.onLanes c.gang c.lanes e).regEffect c view (w.giving r causesOf) := by
    unfold State.blockOn
    simp only [laneSet_filter_self c.lanes _ hval, IssueCtx.after_lanes, and_not_lanes, State.onLanes_zero]
    exact congrArg (State.regEffect · c view _) (State.withCtx_self hctx)
  have hcauses : (w.giving r causesOf).causes view (G.onLanes c.lanes e) c.lanes =
      (w.answered c r causesOf).causes view G c.lanes := by
    unfold WordSpec.causes
    refine List.filterMap_congr fun l hl => ?_
    rw [Gang.thread_onLanes _ _ _ _ (hlen l (mem_laneList.1 hl)), mem_laneList.1 hl, if_pos rfl, he,
      WordSpec.vals_completeIn]
    rfl
  have hsteps : (s.onLanes c.gang c.lanes e).onLanes c.gang c.lanes
        (fun l t => (w.giving r causesOf).laneStep c.rest l (view.thread l) t) =
      s.onLanes c.gang c.lanes fun l t => (w.answered c r causesOf).laneStep c.rest l (view.thread l) t := by
    rw [State.onLanes_onLanes, BitVec.or_self]
    refine State.onLanes_congr _ _ _ fun G' _ l _ hl => ?_
    simp only [hl, if_true, WordSpec.laneStep_answered W.post, he]
  rw [hblock, State.regEffect_classF (w := w.giving r causesOf) hGe hn view W.gang W.ops W.late,
    State.regEffect_classF (w := w.answered c r causesOf) hG hn view W.gang W.ops W.late, hcauses, hsteps]
  rfl

/-- The thread as it was when it waited for its blocking word, and no more. -/
theorem resumed_waiting {fields : List Nat} {t : Thread} (h : (waitAfter fields t.wait).isSome ∧ t.waitPos = c.pos)
    (held : List (Nat × DWord)) : resumed c fields t held = { t with wait := none, grant := none, held := held } := if_pos h

theorem resumed_elsewhere {fields : List Nat} {t : Thread} (h : ¬((waitAfter fields t.wait).isSome ∧ t.waitPos = c.pos))
    (held : List (Nat × DWord)) : resumed c fields t held = { t with wait := waitAfter fields t.wait } := if_neg h

/-- A thread that completes its blocking word has resumed. -/
theorem Thread.completeIn_resumed (fields : List Nat) (t : Thread) (ch : Bool) (v : DWord) :
    ∃ held, (t.fedFor fields).completeIn c.pos ch v = resumed c fields t held := by
  rw [Thread.fedFor_eq]
  by_cases h : (waitAfter fields t.wait).isSome ∧ t.waitPos = c.pos
  · exact ⟨_, (if_pos h).trans (resumed_waiting h _).symm⟩
  · exact ⟨[], (if_neg h).trans (resumed_elsewhere h _).symm⟩

/-- Beside its wait and its answers, a thread that has resumed is as it was. -/
theorem resumed_onward (fields : List Nat) (t : Thread) (held : List (Nat × DWord)) :
    ∃ x g h, resumed c fields t held = { t with wait := x, grant := g, held := h } := by
  by_cases h : (waitAfter fields t.wait).isSome ∧ t.waitPos = c.pos
  · exact ⟨_, _, _, resumed_waiting h held⟩
  · exact ⟨_, _, _, resumed_elsewhere h held⟩

theorem waitAfter_none (fields : List Nat) : waitAfter fields none = none := by
  unfold waitAfter; split <;> rfl

theorem waitAfter_waitAfter (fields : List Nat) (x : Option Wait) :
    waitAfter fields (waitAfter fields x) = waitAfter fields x := by
  have hstall : stallEnded (stallEnded x) = stallEnded x := by
    cases x with
    | none => rfl
    | some y => cases y <;> rfl
  unfold waitAfter
  split
  · exact hstall
  · rfl

/-- A lane that has resumed stalls on no queue that its word reads. -/
theorem resumed_fedFor (fields : List Nat) (t : Thread) (held : List (Nat × DWord)) :
    (resumed c fields t held).fedFor fields = resumed c fields t held := by
  rw [Thread.fedFor_eq]
  by_cases h : (waitAfter fields t.wait).isSome ∧ t.waitPos = c.pos
  · rw [resumed_waiting h]; simp only [waitAfter_none]
  · rw [resumed_elsewhere h]; simp only [waitAfter_waitAfter]

/-- A lane of a blocking word that has its answer, once it has left the word. -/
theorem WordSpec.lane_answered {w : WordSpec} (hpost : ∀ l t v u, w.post l t v u = u) (val : Nat → DWord)
    (causesOf : Thread → DWord → List Nat) (l : Nat) (view old : Thread) :
    let fields := w.shape.fields w.fa w.fb
    ∃ held, ∀ sn waits,
      let new := ((w.answered c val causesOf).laneStep c.rest l view (old.fedFor fields)).left c sn (parks w.k) waits
      Onward c fields (w.push (w.vals view old) (val l)) old.jump (resumed c fields old held) new ∧
        new.regs = w.regsAfter old (val l) := by
  intro fields
  obtain ⟨held, hheld⟩ := old.completeIn_resumed (c := c) fields c.chained (val l)
  refine ⟨held, fun sn waits => ?_⟩
  have hplain := (w.giving val causesOf).lane_plain c l view (resumed c fields old held) sn waits hpost
  obtain ⟨x, g, h, hbase⟩ := resumed_onward (c := c) fields old held
  have hvals : (w.giving val causesOf).vals view (resumed c fields old held) = w.vals view old :=
    (readLane_congr w.shape w.fd w.fa w.fb view (by rw [hbase])).1
  have hregs : (w.giving val causesOf).regsAfter (resumed c fields old held) (val l) = w.regsAfter old (val l) :=
    w.regsAfter_congr (by rw [hbase]) _
  have hjump : (resumed c fields old held).jump = old.jump := by rw [hbase]
  have hstep : (w.answered c val causesOf).laneStep c.rest l view (old.fedFor fields) =
      (w.giving val causesOf).laneStep c.rest l view ((resumed c fields old held).fedFor fields) := by
    rw [WordSpec.laneStep_answered hpost, hheld, resumed_fedFor]
  simp only [hvals] at hplain
  rw [hstep, ← hjump, ← hregs]
  exact hplain

theorem Thread.left_going (t : Thread) (sn : Nat) (park waits : Bool) :
    (t.left c sn park waits).exiting = t.exiting ∧ (t.left c sn park waits).swTrap = t.swTrap :=
  ⟨(congrArg Thread.exiting (t.left_onward c sn park waits) :), (congrArg Thread.swTrap (t.left_onward c sn park waits) :)⟩

/-- The law of blocking words whose lanes have their answers: each is its lane's result, and no lane waits there any more. -/
theorem State.runBlocking_answered {w : WordSpec} {answer : Nat → Thread → Vals → Option DWord}
    {waitFor : Nat → Thread → Vals → Wait} {causesOf : Thread → DWord → List Nat} {val : Nat → DWord} (W : w.Blocks)
    (H : Ready s c G (w.shape.fields w.fa w.fb) w.reads w.writes) (S : Stays c G w)
    (hval : ∀ l, inLanes c.lanes l = true → w.valueIn c G answer l = some (val l)) :
    ∃ t, s.runBlocking w answer waitFor causesOf = .next t ∧
      Completed s t c G w.writes []
        (fun l => (w.result c G l).causes ++ causesOf ((viewOf c G).thread l) (val l)) fun l old new => ∃ held,
          Onward c (w.shape.fields w.fa w.fb) (w.push (w.read c G l) (val l)) old.jump
            (resumed c (w.shape.fields w.fa w.fb) old held) new ∧
          new.regs = w.regsAfter old (val l) := by
  set r : Nat → DWord := fun l => (w.valueIn c G answer l).getD 0 with hr
  have hrl : ∀ l, inLanes c.lanes l = true → r l = val l := fun l hl => by rw [hr]; simp only [hval l hl, Option.getD_some]
  have hlane := fun l => w.lane_answered (c := c) W.post r causesOf l ((viewOf c G).thread l) (G.thread l)
  have hrun : s.runBlocking w answer waitFor causesOf = s.run (w.answered c r causesOf) := by
    rw [State.runBlocking_eq W H S,
      State.run_plain (w := w.answered c r causesOf) H.issuing H.readable W.fa W.fb H.fed S]
    refine congrArg Host.Outcome.next (State.blockOn_answered W ?_ (State.onLanes_find H.issuing.gang _ _) H.issuing.some
      ?_ _ _ _ fun l hl => ?_)
    · exact H.issuing.ctx
    · exact fun l hl => by rw [Gang.onLanes_length]; exact H.issuing.lanes l hl
    · rw [hval l hl]; rfl
  obtain ⟨t, ht, C⟩ := State.run_completed (w := w.answered c r causesOf) H.issuing H.readable W.fa W.fb H.fed S W.gang W.ops
    fun l hl => by
      obtain ⟨held, h⟩ := hlane l
      obtain ⟨x, g, held', hbase⟩ := resumed_onward (c := c) (w.shape.fields w.fa w.fb) (G.thread l) held
      obtain ⟨hexit, htrap⟩ := Onward.going (h 0 false).1
      rw [(Thread.left_going _ _ _ _).1, hbase] at hexit
      rw [(Thread.left_going _ _ _ _).2, hbase] at htrap
      exact ⟨hexit.trans (H.issuing.going l hl).1, htrap.trans (H.issuing.going l hl).2⟩
  have hL : (w.answered c r causesOf).shape.classL = false := W.late
  rw [hL, WordSpec.outstanding_nil hL] at C
  refine ⟨t, hrun.trans ht, (C.of_causes fun l hl => ?_).mono fun l hl new h => ?_⟩
  · rw [← hrl l hl]; rfl
  · obtain ⟨held, hheld⟩ := hlane l
    obtain ⟨sn, waits, hnew⟩ := h
    rw [← hrl l hl, hnew]
    exact ⟨held, hheld sn waits⟩

/-! ## Where no lane has its answer -/

theorem valueIn_idle {w : WordSpec} {answer : Nat → Thread → Vals → Option DWord} (hI : Idle c G) {l : Nat}
    (hl : inLanes c.lanes l = true) : w.valueIn c G answer l = answer l ((viewOf c G).thread l) (w.read c G l) := by
  obtain ⟨-, hgrant, hheld⟩ := hI l hl
  have hfind : (G.thread l).held.find? (·.1 == c.pos) = none := List.find?_eq_none.2 fun e he => by simpa using hheld e he
  have hanswer : answerOf c G l = none := by
    unfold answerOf Thread.answer
    simp only [hfind, hgrant, ite_self]
  unfold WordSpec.valueIn
  rw [hanswer, Option.none_or]

theorem State.regEffect_none {view : Gang} {w : WordSpec} (h : c.lanes = 0#64) : s.regEffect c view w = s := by
  unfold State.regEffect; rw [if_pos h]

/-- The law of blocking words none of whose lanes has an answer or finds one: all wait. -/
theorem State.runBlocking_waits {w : WordSpec} {answer : Nat → Thread → Vals → Option DWord}
    {waitFor : Nat → Thread → Vals → Wait} {causesOf : Thread → DWord → List Nat} (W : w.Blocks)
    (H : Ready s c G (w.shape.fields w.fa w.fb) w.reads w.writes) (S : Stays c G w) (hI : Idle c G)
    (hnone : ∀ l, inLanes c.lanes l = true → answer l ((viewOf c G).thread l) (w.read c G l) = none) :
    ∃ t, s.runBlocking w answer waitFor causesOf = .next t ∧
      Waits s t c G fun l => waitFor l ((viewOf c G).thread l) (w.read c G l) := by
  have hdone : laneSet ((laneList c.lanes).filter fun l => (w.valueIn c G answer l).isSome) = 0#64 := by
    refine laneSet_eq_zero _ (List.filter_eq_nil_iff.2 fun l hl => ?_)
    have hl := mem_laneList.1 hl
    rw [valueIn_idle hI hl, hnone l hl]; exact Bool.false_ne_true
  have hfed : (s.onLanes c.gang c.lanes fun _ t => t.fedFor (w.shape.fields w.fa w.fb)) = s := by
    refine (State.onLanes_congr _ _ (fun _ t => t) fun G' hG' l _ hl => ?_).trans (State.onLanes_id _ _)
    obtain rfl : G = G' := Option.some.inj (H.issuing.gang.symm.trans hG')
    obtain ⟨hwait, -, -⟩ := hI l hl
    rw [Thread.fedFor_eq, hwait, waitAfter_none, ← hwait]
  set wait : Nat → Thread → Thread := fun l t =>
    t.waitIn c.pos (waitFor l ((viewOf c G).thread l) (w.vals ((viewOf c G).thread l) t)) with hw
  have hG' : (s.onLanes c.gang c.lanes wait).gangs.find? c.gang = some (G.onLanes c.lanes wait) :=
    State.onLanes_find H.issuing.gang _ _
  refine ⟨_, State.runBlocking_eq W H S _ _ _, ?_⟩
  rw [hfed]
  unfold State.blockOn
  simp only [hdone, State.onLanes_zero, and_not_none, IssueCtx.after_none]
  rw [State.regEffect_none rfl]
  refine ⟨rfl, fun g hg => ?_, ⟨_, hG', rfl⟩, fun l hl => ?_, fun l hl => ?_⟩
  · exact (SMap.find?_modify _ _ _ _).trans (if_neg hg)
  · exact (State.thread_eq hG' l).trans (Gang.thread_onLanes_out G c.lanes wait l hl)
  · obtain ⟨hwait, -, -⟩ := hI l hl
    refine (State.thread_eq hG' l).trans ?_
    rw [Gang.thread_onLanes _ _ _ _ (H.issuing.lanes l hl), hl, if_pos rfl, hw]
    unfold Thread.waitIn
    simp only [hwait]
    rfl

end Sys2Proof.Machine
end

section
/-! SUPPORT. The cross-lane words (R168, R169, R174 to R177) as blocking words: what they leave in lanes outside their mask or
granted their result, and in lanes that arrive. -/

namespace Sys2Proof.Machine

open Sys2Proof

variable {s : State} {c : IssueCtx} {G : Gang}

theorem State.gangNow_eq (hc : s.ctx = some c) (hG : s.gangs.find? c.gang = some G) : s.gangNow = G := by
  unfold State.gangNow State.wordGang
  simp only [hc, hG]

/-- The party that a lane is on its own, with what it has read. -/
def WordSpec.party (w : WordSpec) (c : IssueCtx) (G : Gang) (l : Nat) : Party :=
  ⟨l, (w.read c G l).a32, (w.read c G l).b32⟩

/-- What a lane of a cross-lane word finds by itself: outside the mask its result as the only participant (R168). -/
def crossAnswer (view : Gang) (code m l : Nat) (_ : Thread) (v : Vals) : Option DWord :=
  if inLanes (view.mask m) l then none else some (crossResult code view.width [⟨l, v.a32, v.b32⟩] ⟨l, v.a32, v.b32⟩)

/-- A cross-lane word as the blocking word that it is. -/
theorem crossLane_eq (hc : s.ctx = some c) (hG : s.gangs.find? c.gang = some G) (w : WordSpec) (code m : Nat) :
    crossLane s w code m =
      s.runBlocking w (crossAnswer (viewOf c G) code m)
        (fun _ _ v => .rendezvous (maskNo m) c.pc c.pos code v.a32 v.b32)
        (if code = 26 then crossCauses else fun _ _ => []) := by
  unfold crossLane
  simp only [State.gangNow_eq hc hG, State.wordPc_eq hc, State.wordPos_eq hc, hc]
  rfl

/-- A cross-lane word in lanes outside its mask, alone there, or granted their result. -/
theorem crossLane_completes {w : WordSpec} {code m : Nat} (W : w.Blocks) (hdeny : w.deny = 0)
    (hcon : ∀ t v, (w.sym t v).con = none) (hf : ∀ l t v, (w.f l t v).causes = [])
    (H : Ready s c G (w.shape.fields w.fa w.fb) w.reads w.writes)
    (hm : ∀ l, inLanes c.lanes l = true → (answerOf c G l).isSome = true ∨ inLanes ((viewOf c G).mask m) l = false) :
    let val := fun l => (answerOf c G l).getD (crossResult code (viewOf c G).width [w.party c G l] (w.party c G l))
    ∃ t, crossLane s w code m = .next t ∧
      Completed s t c G w.writes [] (fun l => if code = 26 then crossCauses ((viewOf c G).thread l) (val l) else [])
        fun l old new => ∃ held,
          Onward c (w.shape.fields w.fa w.fb) (w.push (w.read c G l) (val l)) old.jump
            (resumed c (w.shape.fields w.fa w.fb) old held) new ∧
          new.regs = w.regsAfter old (val l) := by
  intro val
  have hval : ∀ l, inLanes c.lanes l = true → w.valueIn c G (crossAnswer (viewOf c G) code m) l = some (val l) := by
    intro l hl
    have halone : inLanes ((viewOf c G).mask m) l = false →
        crossAnswer (viewOf c G) code m l ((viewOf c G).thread l) (w.read c G l) =
          some (crossResult code (viewOf c G).width [w.party c G l] (w.party c G l)) := fun hout =>
      if_neg (by rw [hout]; exact Bool.false_ne_true)
    show (answerOf c G l).or _ = some ((answerOf c G l).getD _)
    cases ha : answerOf c G l with
    | some v => rfl
    | none => exact halone ((hm l hl).resolve_left (by rw [ha]; exact Bool.false_ne_true))
  rw [crossLane_eq H.issuing.ctx H.issuing.gang]
  obtain ⟨t, ht, C⟩ := State.runBlocking_answered
    (waitFor := fun _ _ v => .rendezvous (maskNo m) c.pc c.pos code v.a32 v.b32)
    (causesOf := if code = 26 then crossCauses else fun _ _ => []) W H (stays_of H.permitted hdeny (.inr hcon)) hval
  refine ⟨t, ht, C.of_causes fun l _ => ?_⟩
  rw [show (w.result c G l).causes = [] from hf _ _ _, List.nil_append]
  split <;> rfl

/-- A cross-lane word in lanes of its mask: they arrive, with the operands they have read, and wait. -/
theorem crossLane_waits {w : WordSpec} {code m : Nat} (W : w.Blocks) (hdeny : w.deny = 0)
    (hcon : ∀ t v, (w.sym t v).con = none)
    (H : Ready s c G (w.shape.fields w.fa w.fb) w.reads w.writes) (hI : Idle c G)
    (hm : ∀ l, inLanes c.lanes l = true → inLanes ((viewOf c G).mask m) l = true) :
    ∃ t, crossLane s w code m = .next t ∧
      Waits s t c G fun l => .rendezvous (maskNo m) c.pc c.pos code (w.read c G l).a32 (w.read c G l).b32 := by
  rw [crossLane_eq H.issuing.ctx H.issuing.gang]
  exact State.runBlocking_waits W H (stays_of H.permitted hdeny (.inr hcon)) hI fun l hl => if_pos (hm l hl)

/-! ## The forms -/

/-- XRED and XVOTE: whether A is read, and whether the result is a pair. -/
def formWord (f : FmtG) (reads pair : Bool) : WordSpec :=
  { shape := { a := if reads then .reg else .unused, dst := if pair then .pair else .reg }
    fd := f.d.toNat, fa := f.a.toNat, h := f.h.toNat, k := f.k }

/-- LXCH. -/
def lxchWord (f : FmtX) : WordSpec :=
  { shape := { a := .reg, b := .reg, dst := .reg, latch := false }
    fd := f.d.toNat, fa := f.a.toNat, fb := f.b.toNat, k := f.k }

theorem formWord_blocks (f : FmtG) (reads pair : Bool) : (formWord f reads pair).Blocks :=
  ⟨fun _ => rfl, fun _ _ _ => rfl, fun _ _ _ _ => rfl, rfl, f.a.isLt, Nat.succ_pos 63⟩

theorem lxchWord_blocks (f : FmtX) : (lxchWord f).Blocks :=
  ⟨fun _ => rfl, fun _ _ _ => rfl, fun _ _ _ _ => rfl, rfl, f.a.isLt, f.b.isLt⟩

/-- What a lane of an XRED or XVOTE reads in A. -/
def formA (c : IssueCtx) (G : Gang) (f : FmtG) (reads : Bool) (l : Nat) : Word :=
  if reads then operand c G l [] f.a.toNat else 0

theorem formWord_a (f : FmtG) (reads pair : Bool) (l : Nat) :
    ((formWord f reads pair).read c G l).a32 = formA c G f reads l := by
  cases reads with
  | true => exact vals_a _ l rfl
  | false => rfl

theorem formWord_party (f : FmtG) (reads pair : Bool) (l : Nat) :
    (formWord f reads pair).party c G l = ⟨l, formA c G f reads l, 0⟩ := by
  unfold WordSpec.party
  rw [formWord_a]; rfl

theorem formWord_reads (f : FmtG) (reads pair : Bool) :
    (formWord f reads pair).reads = if reads then Use.regs .reg f.a.toNat else [] := by
  cases reads with
  | true => exact Shape.reads_a rfl rfl _ _ _
  | false => exact (Shape.reads_a rfl rfl _ _ _).trans (Use.regs_unused _)

theorem formWord_fields (f : FmtG) (reads pair : Bool) :
    (formWord f reads pair).shape.fields (formWord f reads pair).fa (formWord f reads pair).fb =
      if reads then [f.a.toNat] else [] := by
  cases reads <;> rfl

theorem formWord_push (f : FmtG) (reads pair : Bool) (l : Nat) (r : DWord) :
    (formWord f reads pair).push ((formWord f reads pair).read c G l) r = pushOf f.h (formA c G f reads l) 0 (loOf r) := by
  have hdst : (formWord f reads pair).shape.dst ≠ .unused := by cases pair <;> exact Use.noConfusion
  have ha : (if (formWord f reads pair).shape.a = .unused then 0 else ((formWord f reads pair).read c G l).a32) =
      formA c G f reads l := by
    cases reads with
    | true => exact formWord_a f true pair l
    | false => rfl
  rw [WordSpec.push_of_latch (h := f.h) rfl rfl rfl, ha, if_neg hdst]
  rfl

theorem formWord_registers {f : FmtG} {reads pair : Bool} {old new : Thread} {r : DWord}
    (h : new.regs = (formWord f reads pair).regsAfter old r) :
    if pair then WrotePair old new f.d.toNat r else WroteReg old new f.d.toNat (loOf r) := by
  cases pair with
  | true => exact regsAfter_pair rfl rfl h
  | false => exact regsAfter_reg rfl rfl h

/-- The instruction, of a code, that reads A or not and whose result is a pair or not, meets at its mask (R168, R169). -/
def MeetsAtMask (s : State) (c : IssueCtx) (G : Gang) (p : (FmtG → Instr) × Nat × Bool × Bool) : Prop := ∀ f : FmtG,
  let V := viewOf c G
  let fields := if p.2.2.1 then [f.a.toNat] else []
  let A := fun l => if p.2.2.1 then operand c G l [] f.a.toNat else 0
  let u : Use := if p.2.2.2 then .pair else .reg
  let res := fun l => (answerOf c G l).getD (crossResult p.2.1 V.width [⟨l, A l, 0⟩] ⟨l, A l, 0⟩)
  Ready s c G fields (if p.2.2.1 then Use.regs .reg f.a.toNat else []) (u.regs f.d.toNat) →
  ((∀ l, inLanes c.lanes l = true →
      (answerOf c G l).isSome = true ∨ inLanes (V.mask f.m.toNat) l = false) →
    ∃ t, exec (p.1 f) s = .next t ∧
      Completed s t c G (u.regs f.d.toNat) []
        (fun l => if p.2.1 = 26 then crossCauses (V.thread l) (res l) else [])
        (fun l old new => ∃ held,
          Onward c fields (pushOf f.h (A l) 0 (loOf (res l))) old.jump (resumed c fields old held) new ∧
          (if p.2.2.2 then WrotePair old new f.d.toNat (res l) else WroteReg old new f.d.toNat (loOf (res l))))) ∧
  ((∀ l, inLanes c.lanes l = true → inLanes (V.mask f.m.toNat) l = true) → Idle c G →
    ∃ t, exec (p.1 f) s = .next t ∧
      Waits s t c G fun l => .rendezvous (maskNo f.m.toNat) c.pc c.pos p.2.1 (A l) 0)

theorem meetsAtMask_of_form {e : FmtG → Instr} {code : Nat} {reads pair : Bool}
    (he : ∀ f s, exec (e f) s = crossLane s (formWord f reads pair) code f.m.toNat) :
    MeetsAtMask s c G (e, code, reads, pair) := by
  intro f V fields A u res H
  have Hw := H.for_word (w := formWord f reads pair) (formWord_fields f reads pair) (formWord_reads f reads pair) rfl
  have hres : ∀ l, (answerOf c G l).getD (crossResult code (viewOf c G).width [(formWord f reads pair).party c G l]
      ((formWord f reads pair).party c G l)) = res l := fun l => by rw [formWord_party]; rfl
  simp only [he]
  refine ⟨fun hm => ?_, fun hm hI => ?_⟩
  · obtain ⟨t, ht, C⟩ := crossLane_completes (code := code) (formWord_blocks f reads pair) rfl (fun _ _ => rfl)
      (fun _ _ _ => rfl) Hw hm
    simp only [hres, formWord_fields, formWord_push] at C
    exact ⟨t, ht, C.mono fun l _ new ⟨held, hon, hregs⟩ => ⟨held, hon, formWord_registers hregs⟩⟩
  · obtain ⟨t, ht, w⟩ := crossLane_waits (code := code) (formWord_blocks f reads pair) rfl (fun _ _ => rfl) Hw hI hm
    simp only [formWord_a] at w
    exact ⟨t, ht, w⟩

/-- The exchange by a source lane, of a code, meets at its mask: on its own a lane keeps its A (R168, R169, R174). -/
def ExchangesAtMask (s : State) (c : IssueCtx) (G : Gang) (p : (FmtX → Instr) × Nat) : Prop := ∀ f : FmtX,
  let V := viewOf c G
  let fields := [f.a.toNat, f.b.toNat]
  let A := fun l => operand c G l [] f.a.toNat
  let B := fun l => operand c G l [f.a.toNat] f.b.toNat
  Ready s c G fields (Use.regs .reg f.a.toNat ++ Use.regs .reg f.b.toNat) (Use.regs .reg f.d.toNat) →
  ((∀ l, inLanes c.lanes l = true →
      (answerOf c G l).isSome = true ∨ inLanes (V.mask f.m.toNat) l = false) →
    ∃ t, exec (p.1 f) s = .next t ∧ Completed s t c G (Use.regs .reg f.d.toNat) [] noCauses
      (fun l old new => ∃ held, Onward c fields none old.jump (resumed c fields old held) new ∧
        WroteReg old new f.d.toNat (match answerOf c G l with | some v => loOf v | none => A l))) ∧
  ((∀ l, inLanes c.lanes l = true → inLanes (V.mask f.m.toNat) l = true) → Idle c G →
    ∃ t, exec (p.1 f) s = .next t ∧
      Waits s t c G fun l => .rendezvous (maskNo f.m.toNat) c.pc c.pos p.2 (A l) (B l))

/-- Alone, a lane keeps its own A, whichever lane it names (R174). -/
theorem exchange_alone (mode width : Nat) (p : Party) : exchange mode width [p] p = p.a := by
  have hown : ∀ l, (partyA [p] l).getD p.a = p.a := fun l => by
    unfold partyA
    rw [List.find?_singleton]
    split <;> rfl
  unfold exchange
  simp only [hown, ite_self]

theorem lo_crossResult_exchange {code : Nat} (h : code < 16) (width : Nat) (ps : List Party) (p : Party) :
    loOf (crossResult code width ps p) = exchange code width ps p := by
  unfold crossResult
  rw [if_pos h, loOf_setWidth]

theorem exchangesAtMask_of_lxch {e : FmtX → Instr} {code : Nat} (hcode : code < 16)
    (he : ∀ f s, exec (e f) s = crossLane s (lxchWord f) code f.m.toNat) : ExchangesAtMask s c G (e, code) := by
  intro f V fields A B H
  have Hw := H.for_word (w := lxchWord f) rfl (Shape.reads_ab rfl _ _ _) rfl
  have hA : ∀ l, ((lxchWord f).read c G l).a32 = A l := fun l => vals_a _ l rfl
  have hB : ∀ l, ((lxchWord f).read c G l).b32 = B l := fun l => vals_b _ l rfl f.a.isLt
  have hres : ∀ l,
      loOf ((answerOf c G l).getD (crossResult code V.width [(lxchWord f).party c G l] ((lxchWord f).party c G l))) =
      match answerOf c G l with | some v => loOf v | none => A l := fun l => by
    cases answerOf c G l with
    | some v => rfl
    | none => exact (lo_crossResult_exchange hcode _ _ _).trans ((exchange_alone _ _ _).trans (hA l))
  simp only [he]
  refine ⟨fun hm => ?_, fun hm hI => ?_⟩
  · obtain ⟨t, ht, C⟩ := crossLane_completes (code := code) (lxchWord_blocks f) rfl (fun _ _ => rfl) (fun _ _ _ => rfl) Hw hm
    refine ⟨t, ht, (C.of_causes fun l _ => if_neg (by omega)).mono fun l _ new ⟨held, hon, hregs⟩ => ⟨held, ?_, ?_⟩⟩
    · rwa [WordSpec.push_of_no_latch rfl] at hon
    · rw [← hres l]; exact regsAfter_reg rfl rfl hregs
  · obtain ⟨t, ht, w⟩ := crossLane_waits (code := code) (lxchWord_blocks f) rfl (fun _ _ => rfl) Hw hI hm
    simp only [hA, hB] at w
    exact ⟨t, ht, w⟩

theorem crossForms_meet (s : State) (c : IssueCtx) (G : Gang) : ∀ p ∈ crossForms, MeetsAtMask s c G p := by
  simp only [crossForms, List.mem_cons, List.not_mem_nil, or_false, forall_eq_or_imp, forall_eq]
  and_intros <;> exact meetsAtMask_of_form fun _ _ => rfl

/-- The exchanges with their codes. -/
def exchangeForms : List ((FmtX → Instr) × Nat) := [(.lxchPick, 0), (.lxchRot, 1), (.lxchStep, 2), (.lxchRefl, 3)]

theorem exchangeForms_meet (s : State) (c : IssueCtx) (G : Gang) : ∀ p ∈ exchangeForms, ExchangesAtMask s c G p := by
  simp only [exchangeForms, List.mem_cons, List.not_mem_nil, or_false, forall_eq_or_imp, forall_eq]
  and_intros <;> exact exchangesAtMask_of_lxch (by decide) fun _ _ => rfl

end Sys2Proof.Machine
end

section
/-! SUPPORT. What the cross-lane words compute among their participants (Tables 7.3 to 7.5). -/

namespace Sys2Proof.Machine

open Sys2Proof

variable {width : Nat} {ps : List Party} {p : Party}

/-- Participants in ascending lane order. -/
def Ascending (ps : List Party) : Prop := ps.Pairwise fun a b => a.lane < b.lane

/-- Each lane is one participant at most: a participant is found by its lane. -/
theorem Ascending.find?_lane (h : Ascending ps) {q : Party} (hq : q ∈ ps) :
    (ps.find? fun x => x.lane == q.lane) = some q := by
  induction ps with
  | nil => cases hq
  | cons a t ih =>
    obtain ⟨hlt, ht⟩ := List.pairwise_cons.1 h
    rw [List.find?_cons]
    rcases List.mem_cons.1 hq with rfl | hmem
    · rw [beq_self_eq_true]
    · rw [beq_eq_false_iff_ne.2 (Nat.ne_of_lt (hlt q hmem))]
      exact ih ht hmem

theorem Ascending.length_le (h : Ascending ps) (hw : ∀ q ∈ ps, q.lane < width) : ps.length ≤ width := by
  have hnodup : (ps.map (·.lane)).Nodup := (List.pairwise_map.2 h).imp Nat.ne_of_lt
  have hsub : ps.map (·.lane) ⊆ List.range width := fun x hx => by
    obtain ⟨q, hq, rfl⟩ := List.mem_map.1 hx
    exact List.mem_range.2 (hw q hq)
  simpa using (hnodup.subperm hsub).length_le

/-! ## LXCH (R174) -/

/-- An exchange gives the A of the source lane where that is a participant, and else the lane's own. -/
theorem exchange_from (h : Ascending ps) (hw : ∀ q ∈ ps, q.lane < width) (mode : Nat) :
    (∀ q ∈ ps, (q.lane : Int) = sourceLane mode width p.lane p.b → exchange mode width ps p = q.a) ∧
    ((∀ q ∈ ps, (q.lane : Int) ≠ sourceLane mode width p.lane p.b) → exchange mode width ps p = p.a) := by
  unfold exchange partyA
  dsimp only
  set i := sourceLane mode width p.lane p.b
  refine ⟨fun q hq hi => ?_, fun hno => ?_⟩
  · have hlt := hw q hq
    rw [if_pos (by omega), ← hi, Int.toNat_natCast, h.find?_lane hq]
    rfl
  · split
    · have hnone : (ps.find? fun x => x.lane == i.toNat) = none :=
        List.find?_eq_none.2 fun q hq he => hno q hq (by have := beq_iff_eq.1 he; omega)
      rw [hnone]; rfl
    · rfl

/-! ## XRED (Table 7.4) -/

theorem lo_crossResult_reduce (op : Nat) (hop : op < 16) :
    loOf (crossResult (16 + op) width ps p) = reduce op ps p.lane := by
  have hlo : ∀ (r : Word) (n : Nat), loOf (BitVec.ofNat 64 (r.toNat + 2 ^ 32 * n)) = r := fun r n => by
    apply BitVec.eq_of_toNat_eq
    simp only [loOf, BitVec.toNat_setWidth, BitVec.toNat_ofNat]
    omega
  unfold crossResult
  rw [if_neg (by omega), if_pos (by omega), Nat.add_sub_cancel_left]
  exact hlo _ _

/-- The later of two elements taken just where its key is smaller: the last one taken is one of those seen, and none has a
smaller key. -/
theorem foldl_least {α β : Type} [LinearOrder β] (key : α → β) (l : List α) (x : α) :
    let r := l.foldl (fun x y => if key y < key x then y else x) x
    r ∈ x :: l ∧ ∀ z ∈ x :: l, key r ≤ key z := by
  induction l generalizing x with
  | nil => exact ⟨List.mem_cons_self, fun z hz => by rw [List.mem_singleton.1 hz]; exact le_refl _⟩
  | cons y t ih =>
    intro r
    by_cases h : key y < key x
    · obtain ⟨hmem, hle⟩ := ih y
      have hr : r = t.foldl (fun x y => if key y < key x then y else x) y := by
        rw [show r = _ from List.foldl_cons .., if_pos h]
      rw [hr]
      refine ⟨List.mem_cons_of_mem _ hmem, fun z hz => ?_⟩
      rcases List.mem_cons.1 hz with rfl | hz
      · exact (hle y List.mem_cons_self).trans h.le
      · exact hle z hz
    · obtain ⟨hmem, hle⟩ := ih x
      have hr : r = t.foldl (fun x y => if key y < key x then y else x) x := by
        rw [show r = _ from List.foldl_cons .., if_neg h]
      rw [hr]
      refine ⟨(List.mem_cons.1 hmem).elim (fun e => List.mem_cons.2 (.inl e))
        fun e => List.mem_cons_of_mem _ (List.mem_cons_of_mem _ e), fun z hz => ?_⟩
      rcases List.mem_cons.1 hz with rfl | hz
      · exact hle z List.mem_cons_self
      rcases List.mem_cons.1 hz with rfl | hz
      · exact (hle x List.mem_cons_self).trans (not_lt.1 h)
      · exact hle z (List.mem_cons_of_mem _ hz)

/-- The least of the participants' operands by a key, where there are some. -/
theorem reduce_least {β : Type} [LinearOrder β] (key : Word → β) (hp : p ∈ ps) :
    let r := (ps.map (·.a)).foldl (fun x y => if key y < key x then y else x) ((ps.map (·.a)).headD 0)
    (∃ q ∈ ps, r = q.a) ∧ ∀ q ∈ ps, key r ≤ key q.a := by
  intro r
  obtain ⟨hmem, hle⟩ := foldl_least key (ps.map (·.a)) ((ps.map (·.a)).headD 0)
  have hhead : (ps.map (·.a)).headD 0 ∈ ps.map (·.a) := by
    cases ps with
    | nil => cases hp
    | cons a t => exact List.mem_cons_self
  have hr : r ∈ ps.map (·.a) := by
    rcases List.mem_cons.1 hmem with h | h
    · rw [show r = _ from h]; exact hhead
    · exact h
  obtain ⟨q, hq, he⟩ := List.mem_map.1 hr
  exact ⟨⟨q, hq, he.symm⟩, fun q hq => hle _ (List.mem_cons_of_mem _ (List.mem_map_of_mem hq))⟩

theorem reduce_min (hp : p ∈ ps) (l : Nat) :
    (∃ q ∈ ps, reduce 1 ps l = q.a) ∧ ∀ q ∈ ps, (reduce 1 ps l).toInt ≤ q.a.toInt := reduce_least BitVec.toInt hp

theorem reduce_max (hp : p ∈ ps) (l : Nat) :
    (∃ q ∈ ps, reduce 2 ps l = q.a) ∧ ∀ q ∈ ps, q.a.toInt ≤ (reduce 2 ps l).toInt :=
  reduce_least (fun x => OrderDual.toDual x.toInt) hp

theorem reduce_minu (hp : p ∈ ps) (l : Nat) :
    (∃ q ∈ ps, reduce 3 ps l = q.a) ∧ ∀ q ∈ ps, (reduce 3 ps l).toNat ≤ q.a.toNat := reduce_least BitVec.toNat hp

theorem reduce_maxu (hp : p ∈ ps) (l : Nat) :
    (∃ q ∈ ps, reduce 4 ps l = q.a) ∧ ∀ q ∈ ps, q.a.toNat ≤ (reduce 4 ps l).toNat :=
  reduce_least (fun x => OrderDual.toDual x.toNat) hp

theorem reduce_add (l : Nat) : reduce 0 ps l = (ps.map (·.a)).sum := List.sum_eq_foldl.symm

theorem reduce_scan (l : Nat) : reduce 8 ps l = ((ps.filter fun q => q.lane ≤ l).map (·.a)).sum := List.sum_eq_foldl.symm

theorem reduce_scanx (l : Nat) : reduce 9 ps l = ((ps.filter fun q => q.lane < l).map (·.a)).sum := List.sum_eq_foldl.symm

theorem foldl_and_bit (l : List Party) (x : Word) (i : Nat) :
    ((l.map (·.a)).foldl (· &&& ·) x).getLsbD i = (x.getLsbD i && l.all fun q => q.a.getLsbD i) := by
  induction l generalizing x with
  | nil => exact (Bool.and_true _).symm
  | cons q t ih => rw [List.map_cons, List.foldl_cons, ih, BitVec.getLsbD_and, List.all_cons, Bool.and_assoc]

theorem foldl_or_bit (l : List Party) (x : Word) (i : Nat) :
    ((l.map (·.a)).foldl (· ||| ·) x).getLsbD i = (x.getLsbD i || l.any fun q => q.a.getLsbD i) := by
  induction l generalizing x with
  | nil => exact (Bool.or_false _).symm
  | cons q t ih => rw [List.map_cons, List.foldl_cons, ih, BitVec.getLsbD_or, List.any_cons, Bool.or_assoc]

/-- A bit of an exclusive or is the parity of the operands that have it. -/
theorem foldl_xor_bit (l : List Party) (x : Word) (i : Nat) :
    ((l.map (·.a)).foldl (· ^^^ ·) x).getLsbD i =
      (x.getLsbD i ^^ ((l.filter fun q => q.a.getLsbD i).length % 2 == 1)) := by
  have hodd : ∀ n : Nat, ((n + 1) % 2 == 1) = !(n % 2 == 1) := fun n => by
    rcases Nat.mod_two_eq_zero_or_one n with h | h <;> simp [Nat.add_mod, h]
  induction l generalizing x with
  | nil => exact (Bool.xor_false _).symm
  | cons q t ih =>
    rw [List.map_cons, List.foldl_cons, ih, BitVec.getLsbD_xor, List.filter_cons]
    cases q.a.getLsbD i with
    | true => rw [if_pos rfl, List.length_cons, hodd, Bool.xor_true, Bool.not_xor, Bool.xor_not]
    | false => rw [if_neg Bool.false_ne_true, Bool.xor_false]

theorem reduce_and_bit (l : Nat) {i : Nat} (hi : i < 32) : (reduce 5 ps l).getLsbD i = ps.all fun q => q.a.getLsbD i := by
  have hones : (0xFFFFFFFF#32).getLsbD i = true := by
    rw [show (0xFFFFFFFF#32) = BitVec.allOnes 32 from rfl, BitVec.getLsbD_allOnes]; exact decide_eq_true hi
  refine (foldl_and_bit ps _ i).trans ?_
  rw [hones, Bool.true_and]

theorem reduce_or_bit (l i : Nat) : (reduce 6 ps l).getLsbD i = ps.any fun q => q.a.getLsbD i := by
  refine (foldl_or_bit ps _ i).trans ?_
  rw [show (0 : Word).getLsbD i = false from BitVec.getLsbD_zero, Bool.false_or]

theorem reduce_xor_bit (l i : Nat) :
    (reduce 7 ps l).getLsbD i = ((ps.filter fun q => q.a.getLsbD i).length % 2 == 1) := by
  refine (foldl_xor_bit ps _ i).trans ?_
  rw [show (0 : Word).getLsbD i = false from BitVec.getLsbD_zero, Bool.false_xor]

/-! ## XVOTE (Table 7.5) -/

theorem crossResult_vote (op : Nat) : crossResult (32 + op) width ps p = vote op ps p := by
  unfold crossResult
  rw [if_neg (by omega), if_neg (by omega), Nat.add_sub_cancel_left]

theorem lo_vote_any : loOf (vote 0 ps p) = if ∃ q ∈ ps, q.a ≠ 0 then 1 else 0 := by
  have h : (ps.filter fun q => q.a != 0).isEmpty = true ↔ ¬∃ q ∈ ps, q.a ≠ 0 := by
    rw [List.isEmpty_iff, List.filter_eq_nil_iff]
    simp
  show loOf (if (ps.filter fun q => q.a != 0).isEmpty = true then 0 else 1) = _
  by_cases hany : ∃ q ∈ ps, q.a ≠ 0
  · rw [if_neg (fun he => h.1 he hany), if_pos hany]; rfl
  · rw [if_pos (h.2 hany), if_neg hany]; rfl

theorem lo_vote_all : loOf (vote 1 ps p) = if ∀ q ∈ ps, q.a ≠ 0 then 1 else 0 := by
  have h : (ps.filter fun q => q.a != 0).length = ps.length ↔ ∀ q ∈ ps, q.a ≠ 0 := by
    rw [List.length_filter_eq_length_iff]
    simp
  show loOf (if (ps.filter fun q => q.a != 0).length = ps.length then 1 else 0) = _
  by_cases hall : ∀ q ∈ ps, q.a ≠ 0
  · rw [if_pos (h.2 hall), if_pos hall]; rfl
  · rw [if_neg (fun he => hall (h.1 he)), if_neg hall]; rfl

/-- The set of the lanes of participants that meet a condition. -/
theorem inLanes_laneSet_filter (h64 : ∀ q ∈ ps, q.lane < 64) (f : Party → Bool) (l : Nat) :
    inLanes (laneSet ((ps.filter f).map (·.lane))) l = ps.any fun q => q.lane == l && f q := by
  rw [inLanes_laneSet _ _ fun y hy => ?_, Bool.eq_iff_iff]
  · simp [and_assoc, and_comm, and_left_comm]
  · obtain ⟨q, hq, rfl⟩ := List.mem_map.1 hy
    exact h64 q (List.mem_filter.1 hq).1

theorem lo_vote_first : loOf (vote 4 ps p) = if ∀ q ∈ ps, p.lane ≤ q.lane then 1 else 0 := by
  have h : (ps.all fun q => decide (p.lane ≤ q.lane)) = true ↔ ∀ q ∈ ps, p.lane ≤ q.lane := by simp
  show loOf (if (ps.all fun q => decide (p.lane ≤ q.lane)) = true then 1 else 0) = _
  by_cases hall : ∀ q ∈ ps, p.lane ≤ q.lane
  · rw [if_pos (h.2 hall), if_pos hall]; rfl
  · rw [if_neg (fun he => hall (h.1 he)), if_neg hall]; rfl

theorem lo_vote_count (hlen : ps.length ≤ 64) :
    (loOf (vote 5 ps p)).toNat = (ps.filter fun q => q.a != 0).length := by
  have hle := List.length_filter_le (fun q : Party => q.a != 0) ps
  show (loOf (BitVec.ofNat 64 _)).toNat = _
  rw [loOf, BitVec.toNat_setWidth, BitVec.toNat_ofNat]
  omega

end Sys2Proof.Machine
end

section
/-! SUPPORT. A rendezvous whose mask has arrived is complete: each participant is granted the result of its own word
(R168); and the statement on cross-lane words. -/

namespace Sys2Proof.Machine

open Sys2Proof

variable {G : Gang} {m pos : Nat} {pc : Word}

theorem natsFrom_pairwise (lo n : Nat) : (natsFrom lo n).Pairwise (· < ·) := by
  induction n generalizing lo with
  | zero => exact List.Pairwise.nil
  | succ n ih => exact List.pairwise_cons.2 ⟨fun x hx => (mem_natsFrom.1 hx).1, ih (lo + 1)⟩

/-- The lane waits at a rendezvous with these operands, and has not been granted its result. -/
def Arrived (G : Gang) (m : Nat) (pc : Word) (pos : Nat) (p : Party) : Prop :=
  (∃ o, (G.thread p.lane).wait = some (.rendezvous m pc pos o p.a p.b)) ∧ (G.thread p.lane).grant = none

/-- The participants are the lanes of the gang that have arrived. -/
theorem mem_parties {p : Party} : p ∈ G.parties m pc pos ↔ p.lane < G.width ∧ Arrived G m pc pos p := by
  unfold Gang.parties Arrived
  rw [List.mem_filterMap]
  constructor
  · rintro ⟨l, hl, h⟩
    have hl : l < G.width := Nat.zero_add G.width ▸ (mem_natsFrom.1 hl).2
    split at h
    · rename_i hw hg
      split at h
      · rename_i he
        obtain ⟨rfl, rfl, rfl⟩ := he
        obtain rfl := Option.some.inj h
        exact ⟨hl, ⟨_, hw⟩, hg⟩
      · cases h
    · cases h
  · rintro ⟨hl, ⟨o, hw⟩, hg⟩
    refine ⟨p.lane, mem_natsFrom.2 (by omega), ?_⟩
    simp only [hw, hg, and_self, if_true]

/-- What a lane contributes to a rendezvous has its lane. -/
theorem parties_ascending : Ascending (G.parties m pc pos) := by
  unfold Ascending Gang.parties
  rw [List.pairwise_filterMap]
  refine (natsFrom_pairwise 0 G.width).imp fun {a b} hab x hx y hy => ?_
  have hlane : ∀ (l : Nat) (q : Party), (match (G.thread l).wait, (G.thread l).grant with
      | some (.rendezvous m' pc' pos' _ a b), none =>
        if m' = m ∧ pc' = pc ∧ pos' = pos then some (⟨l, a, b⟩ : Party) else none
      | _, _ => none) = some q → q.lane = l := fun l q h => by
    split at h
    · split at h
      · exact (congrArg Party.lane (Option.some.inj h)).symm
      · cases h
    · cases h
  have h1 : x.lane = a := hlane a x hx
  have h2 : y.lane = b := hlane b y hy
  omega

/-- A list's set holds its lanes, whatever else it lists. -/
theorem inLanes_laneSet_of_mem {ls : List Nat} {k : Nat} (hk : k < 64) (h : k ∈ ls) : inLanes (laneSet ls) k = true := by
  have hstep : ∀ (ls : List Nat) (x : DWord), (inLanes x k = true ∨ k ∈ ls) →
      inLanes (ls.foldl (fun x l => x ||| laneBit l) x) k = true := by
    intro ls
    induction ls with
    | nil => intro x h; exact h.resolve_right List.not_mem_nil
    | cons a t ih =>
      intro x h
      refine ih _ ?_
      have hor : inLanes (x ||| laneBit a) k = (inLanes x k || inLanes (laneBit a) k) := BitVec.getLsbD_or
      rcases h with h | h
      · exact .inl (by rw [hor, h, Bool.true_or])
      rcases List.mem_cons.1 h with rfl | h
      · exact .inl (by rw [hor, inLanes_laneBit k k hk, decide_eq_true rfl, Bool.or_true])
      · exact .inr h
  exact hstep ls 0#64 (.inr h)

/-- Every lane of a mask has arrived at a rendezvous there. -/
def AllArrived (G : Gang) (m : Nat) (pc : Word) (pos : Nat) : Prop :=
  ∀ k, inLanes (G.mask m) k = true → k < G.width ∧ k < 64 ∧ k < G.threads.length ∧
    ∃ o x y, (G.thread k).wait = some (.rendezvous m pc pos o x y) ∧ (G.thread k).grant = none

theorem AllArrived.inLanes_parties (A : AllArrived G m pc pos) {k : Nat} (hk : inLanes (G.mask m) k = true) :
    inLanes (laneSet ((G.parties m pc pos).map (·.lane))) k = true := by
  obtain ⟨hwidth, h64, -, o, x, y, hw, hg⟩ := A k hk
  exact inLanes_laneSet_of_mem h64 (List.mem_map.2 ⟨⟨k, x, y⟩, mem_parties.2 ⟨hwidth, ⟨o, hw⟩, hg⟩, rfl⟩)

/-- Where every lane of the mask has arrived, each is granted the result of its own word. -/
theorem completeAt_grants (A : AllArrived G m pc pos) {late : DWord} {l op : Nat} {a b : Word}
    (hl : (G.thread l).wait = some (.rendezvous m pc pos op a b)) (hg : (G.thread l).grant = none)
    (hlate : laneSet ((G.parties m pc pos).map (·.lane)) &&& late = 0) {k o : Nat} {x y : Word}
    (hk : inLanes (G.mask m) k = true) (hw : (G.thread k).wait = some (.rendezvous m pc pos o x y)) :
    (G.completeAt late l).thread k =
      { G.thread k with grant := some (crossResult o G.width (G.parties m pc pos) ⟨k, x, y⟩) } := by
  set ps := G.parties m pc pos with hps
  obtain ⟨hwidth, -, hlen, -, -, -, -, hgk⟩ := A k hk
  have hall : G.mask m &&& ~~~laneSet (ps.map (·.lane)) = 0 := by
    refine lanes_ext fun i => ?_
    have hand : inLanes (G.mask m &&& ~~~laneSet (ps.map (·.lane))) i =
        (inLanes (G.mask m) i && inLanes (~~~laneSet (ps.map (·.lane))) i) := BitVec.getLsbD_and
    rw [hand, show inLanes (0 : DWord) i = false from inLanes_zero i]
    cases hi : inLanes (G.mask m) i with
    | false => rfl
    | true =>
      have hnot : inLanes (~~~laneSet (ps.map (·.lane))) i = (decide (i < 64) && !inLanes (laneSet (ps.map (·.lane))) i) :=
        BitVec.getLsbD_not
      rw [hnot, A.inLanes_parties hi, Bool.not_true, Bool.and_false, Bool.and_false]
  have hfind : (ps.find? fun p => p.lane == k) = some ⟨k, x, y⟩ :=
    parties_ascending.find?_lane (q := ⟨k, x, y⟩) (mem_parties.2 ⟨hwidth, ⟨o, hw⟩, hgk⟩)
  unfold Gang.completeAt
  simp only [hl, hg]
  rw [if_pos ⟨hall, hlate⟩, Gang.thread_onLanes _ _ _ _ hlen, A.inLanes_parties hk, if_pos rfl]
  simp only [← hps, hfind, hw]

end Sys2Proof.Machine

namespace Sys2Proof.GangWords

open Sys2Proof Sys2Proof.Machine

/-- Settles O24: the words at their mask, what they compute among the participants, and the complete rendezvous. -/
theorem crossLaneWordsMeetAtTheirMask : Obligations.CrossLaneWordsMeetAtTheirMask := by
  unfold Obligations.CrossLaneWordsMeetAtTheirMask
  refine ⟨fun s c G => ⟨crossForms_meet s c G, exchangeForms_meet s c G⟩, fun width ps p hp hasc hw hpos h64 => ?_,
    fun G late l m pos op pc a b hl hg A hlate k o x y hk hwk => completeAt_grants A hl hg hlate hk hwk⟩
  intro word from'
  have hexch : ∀ mode, mode < 16 → from' mode (sourceLane mode width p.lane p.b) := fun mode hm => by
    simp only [from', word, lo_crossResult_exchange hm]
    exact exchange_from hasc hw mode
  have hred : ∀ op, op < 16 → word (16 + op) = reduce op ps p.lane := lo_crossResult_reduce
  have hvote : ∀ op, word (32 + op) = loOf (vote op ps p) := fun op => congrArg loOf (crossResult_vote op)
  have hlt : ∀ q ∈ ps, q.lane < 64 := fun q hq => Nat.lt_of_lt_of_le (hw q hq) h64
  refine ⟨hexch 0 (by decide), hexch 1 (by decide), hexch 2 (by decide), hexch 3 (by decide), ?_⟩
  rw [show word 16 = _ from hred 0 (by decide), show word 17 = _ from hred 1 (by decide),
    show word 18 = _ from hred 2 (by decide), show word 19 = _ from hred 3 (by decide),
    show word 20 = _ from hred 4 (by decide), show word 21 = _ from hred 5 (by decide),
    show word 22 = _ from hred 6 (by decide), show word 23 = _ from hred 7 (by decide),
    show word 24 = _ from hred 8 (by decide), show word 25 = _ from hred 9 (by decide),
    show word 32 = _ from hvote 0, show word 33 = _ from hvote 1, show word 36 = _ from hvote 4,
    show word 37 = _ from hvote 5]
  exact ⟨reduce_add _, reduce_min hp _, reduce_max hp _, reduce_minu hp _, reduce_maxu hp _,
    fun i hi => reduce_and_bit _ hi, fun i _ => reduce_or_bit _ i, fun i _ => reduce_xor_bit _ i, reduce_scan _,
    reduce_scanx _, lo_vote_any, lo_vote_all,
    fun l => (congrArg (inLanes · l) (crossResult_vote 2)).trans (inLanes_laneSet_filter hlt _ l),
    fun l => (congrArg (inLanes · l) (crossResult_vote 3)).trans (inLanes_laneSet_filter hlt _ l),
    lo_vote_first, lo_vote_count ((Ascending.length_le hasc hw).trans h64)⟩

end Sys2Proof.GangWords
end
